-- ==== Sys2Proof/Word.lean ====
section
/-! DEFINITION. The smallest words of the model. Device memory holds bytes (R12); addresses, format codes, counters
and dictionary values are natural numbers, because their widths vary from object to object and each operation that
stores one cuts it to the width its rule gives. -/

namespace Sys2Proof

/-- One byte of device memory. -/
abbrev Byte := BitVec 8

end Sys2Proof
end

