-- ==== Sys2Proof/Syntax.lean ====
section
/-! DEFINITION. The commands the block takes: one constructor of `Instr` per row of the opcode table, with the
operands the outside supplies. What the device would measure or find outside itself (temperatures, cycles, frames,
evidence) is an operand. -/

namespace Sys2Proof

/-- The path of a dictionary access (R377, R432): the host through BAR0, inside its IDE stream or not; management
port 0 or 1, in a secured frame or not; a control core. -/
inductive Path where
  | host (ide : Bool)
  | mgmt (port : Nat) (secured : Bool)
  | core (unit : Nat)
deriving DecidableEq, Repr

/-- A plain dictionary write: raw bytes at a BAR0 offset (R384), or a control core's write of an object. -/
inductive DictWrite where
  | bar0 (ide : Bool) (offset : Nat) (bytes : List Byte)
  | core (unit index sub : Nat) (bytes : List Byte)
deriving DecidableEq, Repr

/-- Kinds of engine (Table 2.4). -/
inductive EngineClass where
  | matrix | vector | gather | collective | update | allocator | paging
deriving DecidableEq, Repr

/-- What the device measures over the tick that ends (R459, R462, R457; the stack counters of Table 10.16, which
depend on the controllers' grouping, R251). Values in degrees, FP32 bit patterns and millivolts. -/
structure TickEnv where
  temps : List Int
  powerW : Nat
  currentA : Nat
  vcoreMv : Nat
  regulatorFault : Bool
  turnrounds : Nat
  activates : Nat
deriving DecidableEq, Repr

/-- What the device measures of a task: its ACLK from first start to last completion (R41), and the cycles that Tables
4.7, 5.10, 9.10, 10.16 and 12.14 count. -/
structure TaskTiming where
  measured : Nat
  starved : Nat
  drainWait : Nat
  ramp : Nat
  lane : Nat
  coupledWait : Nat
  shadowWait : Nat
  heldWrite : Nat
  readyWait : Nat
deriving DecidableEq, Repr

/-- An ECC error met (R264–R266): its kind (Table 10.8: 0 stack, 1 shared-cache slice, 2 tile SRAM); the frame of the
stack and the atom of the page for kinds 0 and 1; the way of the slice's set for kind 1; the tile for kind 2; the word of
the atom or of the SRAM; whether it is uncorrectable; and for kind 2 the record of the task that consumes the word, if
any does. -/
structure EccReport where
  kind : Nat
  frame : Nat
  atom : Nat
  way : Nat
  tile : Nat
  word : Nat
  double : Bool
  consumer : Option Nat
deriving DecidableEq, Repr

/-- A received Ethernet frame: its management port, its bytes from the destination address to before the FCS, whether
the FCS is intact, its time of arrival in milliseconds, and the plaintext that a secured message opens to (none when it
fails). -/
structure FelbyFrame where
  port : Nat
  bytes : List Byte
  fcsOk : Bool
  timeMs : Nat
  opened : Option (List Byte)
deriving DecidableEq, Repr

/-- An SPDM 1.2 request as far as the manual distinguishes them (R420, R425, R426). -/
inductive SpdmReq where
  | getVersion
  | getCapabilities
  | negotiateAlgorithms
  | getDigests
  | getCertificate (slot offset len : Nat)
  | challenge (slot : Nat) (nonce : List Byte)
  | getMeasurements (index : Nat) (sign : Bool) (slot : Nat) (nonce : List Byte)
  | keyExchange (slot : Nat) (body : List Byte)
  | finish (session : Nat) (valid : Bool)
  | heartbeat (session : Nat)
  | keyUpdate (session : Nat)
  | endSession (session : Nat)
  | ideKm (session : Nat) (establish : Bool)
  | other (code : Nat)
deriving DecidableEq, Repr

/-- A received flit: its 272 bytes, the slot of its direction it came in (R294), and its time of arrival in 1/16 ACLK
(R311). -/
structure RxFlit where
  bytes : List Byte
  slot : Nat
  time : Nat
deriving DecidableEq, Repr

/-- What an attach flit says of the peer (R318; the manual gives its payload no layout). -/
structure AttachInfo where
  rank : Nat
  serial : Nat
  port : Nat
deriving DecidableEq, Repr

/-- The outcome of the SPDM exchange of R429: what the peer's chains and signatures showed, the serial of its
certificates, its measurement block 2, and the exported master secret. -/
structure AttachEvidence where
  completed : Bool
  chainsOk : Bool
  signaturesOk : Bool
  /-- algorithms that failed, as w1 of SIGNATURE_FAIL codes them -/
  failed : Nat
  certSerial : Nat
  measurement2 : Nat
  master : List Byte
deriving DecidableEq, Repr

/-- What firmware finds when it trains a far port (R412–R416, R428). -/
structure FarFound where
  bytes : Nat
  version : Nat
  serial : Nat
  ide : Bool
  digest : Nat
deriving DecidableEq, Repr

/-- The reference clocks whose loss the manual describes (R465). -/
inductive RefClk where
  | fab | pcie
deriving DecidableEq, Repr

/-- What a Dawn phase finds: the flash slots of each kind (R423), the far ports, the tiles that fail the self-test
(R451), and the duration so far in milliseconds. -/
structure DawnEnv where
  fwSlots : List (List Byte)
  hubSlots : List (List Byte)
  far : List (Option FarFound)
  failedTiles : List Nat
  ms : Nat
deriving DecidableEq, Repr

/-- A command: one constructor per row of the opcode table, in the table's order, named as the row with its operands. -/
inductive Instr where
  /-- TICK_BOUNDARY (R48). -/
  | tickBoundary (env : TickEnv)
  /-- RELEASE_POINT (R51). -/
  | releasePoint
  /-- PERIOD_SWITCH (R38). -/
  | periodSwitch
  /-- EPOCH_SWITCH (R61). -/
  | epochSwitch
  /-- ROUTE_SWITCH (R307). -/
  | routeSwitch
  /-- BATCH_SWITCH (R343). -/
  | batchSwitch
  /-- STEP_TICK_LIMIT (R47). -/
  | stepTickLimit
  /-- TASK_START (R50). -/
  | taskStart (cls : EngineClass) (unit phase : Nat)
  /-- TASK_COMPLETION (R44). -/
  | taskCompletion (rec : Nat) (timing : TaskTiming)
  /-- JOIN (R42). -/
  | join (rec : Nat)
  /-- MATRIX_PRODUCT (R93). -/
  | matrixProduct (rec : Nat)
  /-- MATRIX_ACCUMULATE (R98). -/
  | matrixAccumulate (rec : Nat)
  /-- MATRIX_PAIRED (R108). -/
  | matrixPaired (rec : Nat)
  /-- GRADIENT_PAIR (R193). -/
  | gradientPair (rec : Nat)
  /-- TIED_GROUP (R203). -/
  | tiedGroup (rec : Nat)
  /-- CONVERT (R125). -/
  | convert (rec : Nat)
  /-- AXPBY (R125). -/
  | axpby (rec : Nat)
  /-- MUL (R125). -/
  | mul (rec : Nat)
  /-- FMA (R125). -/
  | fma (rec : Nat)
  /-- CLAMP (R125). -/
  | clamp (rec : Nat)
  /-- FUNC (R128). -/
  | func (rec : Nat)
  /-- FUNC_GRAD (R125). -/
  | funcGrad (rec : Nat)
  /-- AMAX (R125). -/
  | amax (rec : Nat)
  /-- QUANTISE (R232). -/
  | quantise (rec : Nat)
  /-- SOFTMAX (R132). -/
  | softmax (rec : Nat)
  /-- SOFTMAX_GRAD (R134). -/
  | softmaxGrad (rec : Nat)
  /-- NORM (R133). -/
  | norm (rec : Nat)
  /-- NORM_GRAD (R134). -/
  | normGrad (rec : Nat)
  /-- ROW_DOT (R125). -/
  | rowDot (rec : Nat)
  /-- COLSUM (R125). -/
  | colsum (rec : Nat)
  /-- TOPK (R125). -/
  | topk (rec : Nat)
  /-- COUPLED_FUNC_GRAD (R130). -/
  | coupledFuncGrad (rec : Nat)
  /-- COUPLED_SOFTMAX_GRAD (R135). -/
  | coupledSoftmaxGrad (rec : Nat)
  /-- COUPLED_NORM_GRAD (R135). -/
  | coupledNormGrad (rec : Nat)
  /-- GATHER_ROWS (R162). -/
  | gatherRows (rec : Nat)
  /-- COMBINE (R163). -/
  | combine (rec : Nat)
  /-- ROUTE (R165). -/
  | route (rec : Nat)
  /-- PACK (R166). -/
  | pack (rec : Nat)
  /-- EXPAND_RLE (R169). -/
  | expandRle (rec : Nat)
  /-- COMPRESS_RLE (R170). -/
  | compressRle (rec : Nat)
  /-- EXPAND_2OF4 (R173). -/
  | expand2of4 (rec : Nat)
  /-- COMPRESS_2OF4 (R172). -/
  | compress2of4 (rec : Nat)
  /-- NEURON_PACK (R186). -/
  | neuronPack (rec : Nat)
  /-- PREDICTOR_CHECK (R188). -/
  | predictorCheck (rec : Nat)
  /-- SCATTER_ROWS (R176). -/
  | scatterRows (rec : Nat)
  /-- SCATTER_ADD (R178). -/
  | scatterAdd (rec : Nat)
  /-- HASH_MERGE (R184). -/
  | hashMerge (rec : Nat)
  /-- ALL_REDUCE (R332). -/
  | allReduce (rec : Nat)
  /-- REDUCE_SCATTER (R338). -/
  | reduceScatter (rec : Nat)
  /-- ALL_GATHER (R344). -/
  | allGather (rec : Nat)
  /-- ALL_TO_ALL (R334). -/
  | allToAll (rec : Nat)
  /-- ALL_TO_ALLV (R335). -/
  | allToAllv (rec : Nat)
  /-- ALL_TO_ALLV_REVERSE (R336). -/
  | allToAllvReverse (rec : Nat)
  /-- BROADCAST (R334). -/
  | broadcast (rec : Nat)
  /-- PERMUTE (R346). -/
  | permute (rec : Nat)
  /-- BARRIER (R340). -/
  | barrier (rec : Nat)
  /-- UPDATE_MOMENTUM_SGD (R211). -/
  | updateMomentumSgd (rec : Nat)
  /-- UPDATE_ADAMW (R212). -/
  | updateAdamw (rec : Nat)
  /-- UPDATE_FACTORED (R213). -/
  | updateFactored (rec : Nat)
  /-- UPDATE_SIGN_MOMENTUM (R214). -/
  | updateSignMomentum (rec : Nat)
  /-- UPDATE_LAZY (R217). -/
  | updateLazy (rec : Nat)
  /-- SNAPSHOT (R357). -/
  | snapshot (rec : Nat)
  /-- MIDNIGHT_WRITE (R357). -/
  | midnightWrite (rec : Nat)
  /-- MIDNIGHT_CLOSE (R357). -/
  | midnightClose (rec : Nat)
  /-- ALLOC (R270). -/
  | alloc (rec : Nat)
  /-- FREE (R272). -/
  | free (rec : Nat)
  /-- CREATE (R145). -/
  | create (rec : Nat)
  /-- ALLOCATOR_QUEUE_SERVICE (R269). -/
  | allocatorQueueService
  /-- PROMOTE (R284). -/
  | promote (rec : Nat)
  /-- DEMOTE (R284). -/
  | demote (rec : Nat)
  /-- POPULATE (R284). -/
  | populate (rec : Nat)
  /-- DISCARD (R285). -/
  | discard (rec : Nat)
  /-- SET_POLICY (R284). -/
  | setPolicy (rec : Nat)
  /-- MIGRATION_START (R282). -/
  | migrationStart (page : Nat)
  /-- MIGRATION_COPY_DONE (R281). -/
  | migrationCopyDone (page : Nat)
  /-- AUTO_PROMOTE (R283). -/
  | autoPromote (page : Nat)
  /-- ACCESS_COUNT_HALVING (R278). -/
  | accessCountHalving
  /-- SCRUB_PASS (R266). -/
  | scrubPass (stack : Nat) (reports : List EccReport)
  /-- HOST_BAR2_READ (R404). -/
  | hostBar2Read (ide : Bool) (offset len : Nat)
  /-- HOST_BAR2_WRITE (R404). -/
  | hostBar2Write (ide : Bool) (offset : Nat) (bytes : List Byte)
  /-- HOST_UNSUPPORTED_REQUEST (R401). -/
  | hostUnsupportedRequest
  /-- HOST_READ_TIMEOUT (R410). -/
  | hostReadTimeout (rec : Nat)
  /-- HOT_RESET (R402). -/
  | hotReset
  /-- OBJECT_WRITE (R379). -/
  | objectWrite (w : DictWrite)
  /-- WINDOW_READ (R387). -/
  | windowRead (ide : Bool)
  /-- WINDOW_WRITE_SEGMENT (R387). -/
  | windowWriteSegment (ide : Bool)
  /-- WINDOW_WRITE_LAST (R387). -/
  | windowWriteLast (ide : Bool)
  /-- DESCRIPTOR_CREATE (R144). -/
  | descriptorCreate (p : Path) (value : Nat)
  /-- ALLOC_REQUEST (R271). -/
  | allocRequest (p : Path) (value : Nat)
  /-- PAGE_QUERY (R275). -/
  | pageQuery (p : Path) (value : Nat)
  /-- STICKY_CLEAR (R85). -/
  | stickyClear (p : Path) (value : Nat)
  /-- ROLLBACK_RAISE (R424). -/
  | rollbackRaise (p : Path) (value : Nat)
  /-- TABLE_UNLOCK (R438). -/
  | tableUnlock (p : Path) (value : Nat)
  /-- RESET_REQUEST (R442). -/
  | resetRequest (p : Path) (value : Nat)
  /-- TILE_RESET (R449). -/
  | tileReset (p : Path) (value : Nat)
  /-- PORT_RESET (R449). -/
  | portReset (p : Path) (value : Nat)
  /-- REACH_PROGRAM (R443). -/
  | reachProgram (p : Path) (value : Nat)
  /-- FIRMWARE_PUSH (R452). -/
  | firmwarePush (p : Path) (image : List Byte)
  /-- DUSK_TICK (R371). -/
  | duskTick (p : Path)
  /-- DUSK_STEP (R371). -/
  | duskStep (p : Path)
  /-- DUSK_SNAPSHOT (R371). -/
  | duskSnapshot (p : Path)
  /-- DUSK_IDLE (R371). -/
  | duskIdle
  /-- DUSK_PORT_STOP (R371). -/
  | duskPortStop
  /-- COMMIT_DISCARD (R380). -/
  | commitDiscard (p : Path) (group : Nat)
  /-- COMMIT_TICK (R35). -/
  | commitTick (p : Path)
  /-- COMMIT_PROGRAM (R57). -/
  | commitProgram (p : Path)
  /-- COMMIT_QUEUES (R58). -/
  | commitQueues (p : Path)
  /-- COMMIT_EPOCH (R61). -/
  | commitEpoch (p : Path)
  /-- COMMIT_PAGING (R288). -/
  | commitPaging (p : Path)
  /-- COMMIT_GRADIENT_PATH (R197). -/
  | commitGradientPath (p : Path)
  /-- COMMIT_FN_SLOTS (R129). -/
  | commitFnSlots (p : Path)
  /-- COMMIT_GATHER (R191). -/
  | commitGather (p : Path)
  /-- COMMIT_PREDICTOR_EXACT (R187). -/
  | commitPredictorExact (p : Path)
  /-- COMMIT_SEED (R225). -/
  | commitSeed (p : Path)
  /-- COMMIT_SHADOW (R245). -/
  | commitShadow (p : Path)
  /-- COMMIT_ROUNDING (R245). -/
  | commitRounding (p : Path)
  /-- COMMIT_SCRUB (R288). -/
  | commitScrub (p : Path)
  /-- COMMIT_HASH (R177). -/
  | commitHash (p : Path)
  /-- COMMIT_PORTS (R320). -/
  | commitPorts (p : Path)
  /-- COMMIT_ROUTES (R307). -/
  | commitRoutes (p : Path)
  /-- COMMIT_AXES (R310). -/
  | commitAxes (p : Path)
  /-- COMMIT_COLLECTIVE (R349). -/
  | commitCollective (p : Path)
  /-- COMMIT_BATCH (R343). -/
  | commitBatch (p : Path)
  /-- COMMIT_TWIN (R373). -/
  | commitTwin (p : Path)
  /-- COMMIT_STRAGGLER (R368). -/
  | commitStraggler (p : Path)
  /-- COMMIT_RESTORE (R369). -/
  | commitRestore (p : Path)
  /-- RESTORE_COMPLETE (R369). -/
  | restoreComplete
  /-- COMMIT_HOST_WINDOW (R406). -/
  | commitHostWindow (p : Path)
  /-- COMMIT_MSIX (R418). -/
  | commitMsix (p : Path)
  /-- COMMIT_FAR_IDE (R418). -/
  | commitFarIde (p : Path)
  /-- COMMIT_SECURITY (R440). -/
  | commitSecurity (p : Path)
  /-- COMMIT_LINK_POLICY (R440). -/
  | commitLinkPolicy (p : Path)
  /-- COMMIT_FAR_TRUST (R440). -/
  | commitFarTrust (p : Path)
  /-- COMMIT_TABLE (R437). -/
  | commitTable (p : Path)
  /-- TABLE_CLEAR_DONE (R437). -/
  | tableClearDone
  /-- COMMIT_WATCHDOG (R466). -/
  | commitWatchdog (p : Path)
  /-- COMMIT_POWER (R466). -/
  | commitPower (p : Path)
  /-- COMMIT_THERMAL (R466). -/
  | commitThermal (p : Path)
  /-- COMMIT_MGMT (R398). -/
  | commitMgmt (p : Path)
  /-- COMMIT_NOTIFY (R393). -/
  | commitNotify (p : Path)
  /-- FELBY_READ (R390). -/
  | felbyRead (f : FelbyFrame)
  /-- FELBY_WRITE (R390). -/
  | felbyWrite (f : FelbyFrame)
  /-- FELBY_DESCRIBE (R388). -/
  | felbyDescribe (f : FelbyFrame)
  /-- FELBY_SPDM (R425). -/
  | felbySpdm (f : FelbyFrame) (req : SpdmReq)
  /-- FELBY_UNKNOWN_TYPE (R388). -/
  | felbyUnknownType (f : FelbyFrame)
  /-- EVENT_ACK (R393). -/
  | eventAck (f : FelbyFrame)
  /-- EVENT_SEND (R393). -/
  | eventSend (timeMs : Nat)
  /-- EVENT_RETRY (R393). -/
  | eventRetry (timeMs : Nat)
  /-- DOE_REQUEST (R425). -/
  | doeRequest (req : SpdmReq)
  /-- DATA_FLIT_RECEIVE (R296). -/
  | dataFlitReceive (port : Nat) (flit : RxFlit)
  /-- IDLE_FLIT_RECEIVE (R297). -/
  | idleFlitReceive (port : Nat) (flit : RxFlit)
  /-- NAK_RECEIVE (R296). -/
  | nakReceive (port : Nat) (flit : RxFlit)
  /-- TIMESTAMP_RECEIVE (R313). -/
  | timestampReceive (port : Nat) (flit : RxFlit)
  /-- ABORT_RECEIVE (R304). -/
  | abortReceive (port : Nat) (flit : RxFlit)
  /-- ATTACH_RECEIVE (R318). -/
  | attachReceive (port : Nat) (flit : RxFlit) (info : AttachInfo)
  /-- KEY_UPDATE_RECEIVE (R430). -/
  | keyUpdateReceive (port : Nat) (flit : RxFlit)
  /-- TIMESTAMP_SEND (R311). -/
  | timestampSend (port phase : Nat)
  /-- KEY_UPDATE_SEND (R430). -/
  | keyUpdateSend (port slot : Nat)
  /-- MESSAGE_FORWARD (R301). -/
  | messageForward (port vc : Nat)
  /-- READY (R327). -/
  | ready (port vc : Nat)
  /-- REDUCE (R331). -/
  | reduce (port vc : Nat)
  /-- PLACE (R330). -/
  | place (port vc : Nat)
  /-- COUNTS (R335). -/
  | counts (port vc : Nat)
  /-- BARRIER_UP (R340). -/
  | barrierUp (port vc : Nat)
  /-- BARRIER_DOWN (R340). -/
  | barrierDown (port vc : Nat)
  /-- BARRIER_RELEASE (R340). -/
  | barrierRelease (rec : Nat)
  /-- CONTRIBUTION_DEADLINE (R363). -/
  | contributionDeadline (rec : Nat)
  /-- HEARTBEAT (R353). -/
  | heartbeat (port vc : Nat)
  /-- HEARTBEAT_SEND (R353). -/
  | heartbeatSend
  /-- TWIN_LOST (R353). -/
  | twinLost
  /-- SNAP_DATA (R352). -/
  | snapData (port vc : Nat)
  /-- SNAP_HEADER (R358). -/
  | snapHeader (port vc : Nat)
  /-- FETCH (R352). -/
  | fetch (port vc : Nat)
  /-- FETCH_DATA (R369). -/
  | fetchData (port vc : Nat)
  /-- DUSK (R353). -/
  | dusk (port vc : Nat)
  /-- TWIN_RESET_REQUEST (R354). -/
  | twinResetRequest (port vc : Nat)
  /-- RETRAIN_INTERVAL (R318). -/
  | retrainInterval (port : Nat)
  /-- TRAINING_COMPLETE (R318). -/
  | trainingComplete (port peerRates : Nat)
  /-- TRAINING_TIMEOUT (R318). -/
  | trainingTimeout (port : Nat)
  /-- ATTACH_COMPLETE (R429). -/
  | attachComplete (port : Nat) (evidence : AttachEvidence)
  /-- LANE_SIGNAL_LOSS (R319). -/
  | laneSignalLoss (port : Nat)
  /-- NO_FLIT_TIMEOUT (R319). -/
  | noFlitTimeout (port : Nat)
  /-- FAR_LINK_LOSS (R286). -/
  | farLinkLoss (port cause : Nat)
  /-- FAR_RETRAIN (R415). -/
  | farRetrain (port : Nat) (found : Option FarFound)
  /-- FAR_REQUEST_TIMEOUT (R414). -/
  | farRequestTimeout (port : Nat)
  /-- REFCLK_LOSS (R465). -/
  | refclkLoss (clk : RefClk)
  /-- POWER_ON_RESET (R442): with core power removed, or kept (loss of REFCLK_SYS or of a PLL's lock). -/
  | powerOnReset (removed : Bool)
  /-- PERST (R442). -/
  | perst
  /-- SYS_RST (R442). -/
  | sysRst
  /-- WATCHDOG_EXPIRY (R453). -/
  | watchdogExpiry
  /-- THERMAL_TRIP (R463). -/
  | thermalTrip (temps : List Int)
  /-- THERMAL_TRIP_RELEASE (R463). -/
  | thermalTripRelease (temps : List Int)
  /-- VCORE_OVERCURRENT (R460). -/
  | vcoreOvercurrent (currentA : Nat)
  /-- DAWN_PHASE_DONE (R450). -/
  | dawnPhaseDone (env : DawnEnv)
  /-- RSA_KEY_READY (R420). -/
  | rsaKeyReady
  /-- RESET_RELEASE (R444). -/
  | resetRelease (source : Nat)
  /-- HOST_LINK_UP (R417). -/
  | hostLinkUp (speed width : Nat)
  /-- HOST_LINK_DOWN (R417). -/
  | hostLinkDown (cause : Nat)
  /-- MANAGEMENT_PORT_DOWN (R396). -/
  | managementPortDown (port : Nat)
  /-- MANAGEMENT_PORT_UP (R398). -/
  | managementPortUp (port : Nat)
  /-- FELBY_FRAME_DISCARD (R388). -/
  | felbyFrameDiscard (f : FelbyFrame)
deriving DecidableEq, Repr

end Sys2Proof
end

