-- ==== Sys2Proof/Machine/Bits.lean ====
section
/-! DEFINITION. Bit fields (R11), byte order (R12), signed reading, and maps held as sorted lists of pairs. -/

namespace Sys2Proof.Machine

/-- Bits `[hi:lo]` of `x` (R11). -/
def field (x hi lo : Nat) : Nat := (x >>> lo) % 2 ^ (hi + 1 - lo)

/-- Bit `[n]` of `x` as a truth value (R11). -/
def flag (x n : Nat) : Bool := x.testBit n

/-- `x` with bits `[hi:lo]` replaced by `v`. -/
def setField (x hi lo v : Nat) : Nat :=
  let w := 2 ^ (hi + 1 - lo)
  x - (field x hi lo) <<< lo + (v % w) <<< lo

/-- A truth value as a bit. -/
def bitOf (b : Bool) : Nat := if b then 1 else 0

/-- The two's-complement reading of the low `w` bits of `x` (R18). -/
def toSigned (w x : Nat) : Int :=
  let y := x % 2 ^ w
  if y < 2 ^ (w - 1) then (y : Int) else (y : Int) - (2 ^ w : Nat)

/-- The `w`-bit two's-complement pattern of `i` (R18). -/
def ofSigned (w : Nat) (i : Int) : Nat := (i % ((2 ^ w : Nat) : Int)).toNat

/-- Number of bits of `n`, 0 for 0. -/
def bitLength (n : Nat) : Nat := if n = 0 then 0 else n.log2 + 1

/-- `x` put into a sorted list, before its equals. -/
def insertBy {α : Type} (le : α → α → Bool) (x : α) : List α → List α
  | [] => [x]
  | y :: l => if le x y then x :: y :: l else y :: insertBy le x l

/-- A list sorted by `le`; equals keep their order. -/
def sortBy {α : Type} (le : α → α → Bool) (l : List α) : List α := l.foldr (insertBy le) []

/-- Quotient rounded up. -/
def ceilDiv (a b : Nat) : Nat := if b = 0 then 0 else (a + b - 1) / b

/-- `a` rounded up to a multiple of `b`. -/
def roundUp (a b : Nat) : Nat := ceilDiv a b * b

/-- `n` bytes of `v`, least significant first (R12). -/
def leBytes : Nat → Nat → List Byte
  | 0, _ => []
  | n + 1, v => BitVec.ofNat 8 v :: leBytes n (v / 256)

/-- The value of bytes stored least significant first (R12). -/
def ofLe : List Byte → Nat
  | [] => 0
  | b :: bs => b.toNat + 256 * ofLe bs

/-- The value of bytes stored most significant first (the Ethernet header of R12, and the digests of R360). -/
def ofBe (bs : List Byte) : Nat := ofLe bs.reverse

/-- `n` bytes of `v`, most significant first. -/
def beBytes (n v : Nat) : List Byte := (leBytes n v).reverse

/-- The value at `k` of a map held as pairs. -/
def mapFind {β : Type} (m : List (Nat × β)) (k : Nat) : Option β :=
  match m with
  | [] => none
  | (a, v) :: rest => if a = k then some v else mapFind rest k

/-- The value at `k`, or `d` where nothing is listed. -/
def mapGet {β : Type} (d : β) (m : List (Nat × β)) (k : Nat) : β := (mapFind m k).getD d

/-- `m` without any entry at `k`. -/
def mapErase {β : Type} (m : List (Nat × β)) (k : Nat) : List (Nat × β) :=
  match m with
  | [] => []
  | (a, v) :: rest => if a = k then mapErase rest k else (a, v) :: mapErase rest k

/-- `m` with `v` at `k`, keys rising. -/
def mapInsert {β : Type} (m : List (Nat × β)) (k : Nat) (v : β) : List (Nat × β) :=
  match m with
  | [] => [(k, v)]
  | (a, w) :: rest =>
    if k < a then (k, v) :: (a, w) :: rest
    else if k = a then (k, v) :: rest
    else (a, w) :: mapInsert rest k v

/-- `m` with `v` at `k`, where a value equal to `d` is not listed. -/
def mapPut {β : Type} [DecidableEq β] (d : β) (m : List (Nat × β)) (k : Nat) (v : β) : List (Nat × β) :=
  if v = d then mapErase m k else mapInsert m k v

/-- Keys strictly rising, and no entry equal to `d`. -/
def mapWf {β : Type} [DecidableEq β] (d : β) : List (Nat × β) → Bool
  | [] => true
  | [(_, v)] => decide (v ≠ d)
  | (a, v) :: (b, w) :: rest => decide (v ≠ d) && decide (a < b) && mapWf d ((b, w) :: rest)

/-- `n` numbers from `lo` in steps of one. -/
def span (lo n : Nat) : List Nat := (List.range n).map (lo + ·)

/-- The list with element `i` replaced (unchanged when `i` is past the end). -/
def listSet {β : Type} (l : List β) (i : Nat) (v : β) : List β := l.set i v

/-- The list cut or padded with `d` to `n` elements. -/
def padTo {β : Type} (n : Nat) (d : β) (l : List β) : List β := l.take n ++ List.replicate (n - l.length) d

/-- Consecutive pieces of `n` elements; the last may be shorter. Fuel is the list's length. -/
def chunksAux {β : Type} (n : Nat) : Nat → List β → List (List β)
  | 0, _ => []
  | _, [] => []
  | fuel + 1, l => l.take n :: chunksAux n fuel (l.drop n)

/-- Consecutive pieces of `n` elements; the last may be shorter. -/
def chunks {β : Type} (n : Nat) (l : List β) : List (List β) := chunksAux (max n 1) l.length l

end Sys2Proof.Machine
end

