-- ==== Sys2Proof/Machine/Num.lean ====
section
/-! DEFINITION. Exact values of floating-point codes and the arithmetic on them: sums and products are exact, one
rounding follows (R65, R68, R80, R81, R119, R229), and the sticky flags of Table 3.9 are collected. -/

namespace Sys2Proof.Machine

/-- A value: `(-1)^neg × m × 2^e`, an infinity, or NaN. NaN carries no sign or payload (R67). -/
inductive Num where
  | fin (neg : Bool) (m : Nat) (e : Int)
  | inf (neg : Bool)
  | nan
deriving DecidableEq, Repr, Inhabited

/-- The sticky flags of Table 3.9 (R83). -/
structure Flags where
  /-- bit [0] FLUSH -/
  flush : Bool := false
  /-- bit [1] SATURATE -/
  saturate : Bool := false
  /-- bit [2] NAN_LOST -/
  nanLost : Bool := false
  /-- bit [3] NAN_MADE -/
  nanMade : Bool := false
deriving DecidableEq, Repr, Inhabited

/-- The flags as bits [3:0]. -/
def flagsBits (f : Flags) : Nat :=
  bitOf f.flush + 2 * bitOf f.saturate + 4 * bitOf f.nanLost + 8 * bitOf f.nanMade

/-- Computations that may set sticky flags. -/
abbrev F := StateM Flags

/-- Sets FLUSH. -/
def noteFlush : F Unit := modify fun f => { f with flush := true }
/-- Sets SATURATE. -/
def noteSaturate : F Unit := modify fun f => { f with saturate := true }
/-- Sets NAN_LOST. -/
def noteNanLost : F Unit := modify fun f => { f with nanLost := true }
/-- Sets NAN_MADE. -/
def noteNanMade : F Unit := modify fun f => { f with nanMade := true }

/-- +0. -/
def nZero : Num := .fin false 0 0
/-- 1. -/
def nOne : Num := .fin false 1 0
/-- The integer `i` as a value. -/
def nInt (i : Int) : Num := .fin (decide (i < 0)) i.natAbs 0
/-- The natural number `n` as a value. -/
def nNat (n : Nat) : Num := .fin false n 0
/-- `2^k`. -/
def nPow2 (k : Int) : Num := .fin false 1 k

/-- Is the value NaN? -/
def isNan : Num → Bool
  | .nan => true
  | _ => false

/-- Is the value an infinity? -/
def isInf : Num → Bool
  | .inf _ => true
  | _ => false

/-- Is the value finite? -/
def isFin : Num → Bool
  | .fin _ _ _ => true
  | _ => false

/-- Is the value a zero of either sign? -/
def isZero : Num → Bool
  | .fin _ 0 _ => true
  | _ => false

/-- The sign bit (false for NaN). -/
def isNeg : Num → Bool
  | .fin s _ _ => s
  | .inf s => s
  | .nan => false

/-- The magnitude. -/
def nAbs : Num → Num
  | .fin _ m e => .fin false m e
  | .inf _ => .inf false
  | .nan => .nan

/-- The negation. -/
def nNeg : Num → Num
  | .fin s m e => .fin (!s) m e
  | .inf s => .inf (!s)
  | .nan => .nan

/-- `x × 2^k`, exact. -/
def nScale (k : Int) : Num → Num
  | .fin s m e => .fin s m (e + k)
  | x => x

/-- The signed mantissa of a finite value over the exponent `q ≤ e`. -/
def alignTo (s : Bool) (m : Nat) (e q : Int) : Int :=
  let k := m <<< (e - q).toNat
  if s then -(k : Int) else (k : Int)

/-- The exact sum; an exact zero sum is +0 unless both addends are −0 (R68). -/
def exactAdd : Num → Num → Num
  | .nan, _ => .nan
  | _, .nan => .nan
  | .inf a, .inf b => if a = b then .inf a else .nan
  | .inf a, .fin _ _ _ => .inf a
  | .fin _ _ _, .inf b => .inf b
  | .fin s m e, .fin t n d =>
    if m = 0 ∧ n = 0 then .fin (s && t) 0 0
    else if m = 0 then .fin t n d
    else if n = 0 then .fin s m e
    else
      let q := min e d
      let k := alignTo s m e q + alignTo t n d q
      if k = 0 then .fin false 0 0 else .fin (decide (k < 0)) k.natAbs q

/-- The exact product; `0 × ∞` is NaN (R68). -/
def exactMul : Num → Num → Num
  | .nan, _ => .nan
  | _, .nan => .nan
  | .inf a, .inf b => .inf (a != b)
  | .inf a, .fin t n _ => if n = 0 then .nan else .inf (a != t)
  | .fin s m _, .inf b => if m = 0 then .nan else .inf (s != b)
  | .fin s m e, .fin t n d => .fin (s != t) (m * n) (e + d)

/-- The quotient to at least 130 significant bits with a sticky last bit, which rounds as the exact quotient does to
every format of the device (R65 significands have at most 53 bits; stochastic rounding looks 16 bits further). -/
def exactDiv : Num → Num → Num
  | .nan, _ => .nan
  | _, .nan => .nan
  | .inf _, .inf _ => .nan
  | .inf a, .fin t _ _ => .inf (a != t)
  | .fin s _ _, .inf b => .fin (s != b) 0 0
  | .fin s m e, .fin t n d =>
    if n = 0 then (if m = 0 then .nan else .inf (s != t))
    else
      let k := 130 + bitLength n
      let a := m <<< k
      let q := a / n
      .fin (s != t) (2 * q + bitOf (decide (a % n ≠ 0))) (e - d - k - 1)

/-- Integer square root by binary digits from bit `b` down. -/
def isqrtAux (n : Nat) : Nat → Nat → Nat
  | 0, r => if (r + 1) * (r + 1) ≤ n then r + 1 else r
  | b + 1, r =>
    let r' := r + 2 ^ (b + 1)
    isqrtAux n b (if r' * r' ≤ n then r' else r)

/-- Integer square root. -/
def isqrt (n : Nat) : Nat := isqrtAux n (bitLength n / 2 + 1) 0

/-- The square root with a sticky last bit; negative values give NaN and −0 gives −0. -/
def exactSqrt : Num → Num
  | .nan => .nan
  | .inf s => if s then .nan else .inf false
  | .fin s m e =>
    if m = 0 then .fin s 0 0
    else if s then .nan
    else
      let sh := 160 + (e % 2).toNat
      let a := m <<< sh
      let r := isqrt a
      .fin false (2 * r + bitOf (decide (r * r ≠ a))) ((e - sh) / 2 - 1)

/-- −1, 0 or 1 as `a` is below, equal to or above `b`; meaningless when either is NaN. −0 equals +0. -/
def cmpNum : Num → Num → Int
  | .inf a, .inf b => if a = b then 0 else if a then -1 else 1
  | .inf a, _ => if a then -1 else 1
  | _, .inf b => if b then 1 else -1
  | .fin s m e, .fin t n d =>
    let q := min e d
    let x := alignTo s m e q
    let y := alignTo t n d q
    if x < y then -1 else if x = y then 0 else 1
  | _, _ => 0

/-- `a < b`, false when either is NaN. -/
def ltNum (a b : Num) : Bool := !isNan a && !isNan b && decide (cmpNum a b < 0)
/-- `a ≤ b`, false when either is NaN. -/
def leNum (a b : Num) : Bool := !isNan a && !isNan b && decide (cmpNum a b ≤ 0)
/-- `a = b` in value, false when either is NaN. -/
def eqNum (a b : Num) : Bool := !isNan a && !isNan b && decide (cmpNum a b = 0)

/-- IEEE 754-2019 maximum: NaN wins, and −0 ranks below +0 (R125). -/
def maxNum (a b : Num) : Num :=
  if isNan a || isNan b then .nan
  else if cmpNum a b < 0 then b
  else if cmpNum a b = 0 then (if isNeg a then b else a)
  else a

/-- IEEE 754-2019 minimum: NaN wins, and −0 ranks below +0 (R125). -/
def minNum (a b : Num) : Num :=
  if isNan a || isNan b then .nan
  else if cmpNum a b < 0 then a
  else if cmpNum a b = 0 then (if isNeg a then a else b)
  else b

/-- Sets NAN_MADE when `r` is NaN and no operand is (Table 3.9). -/
def made (operands : List Num) (r : Num) : F Num := do
  if isNan r && !(operands.any isNan) then noteNanMade
  return r

/-- Exact sum with NAN_MADE. -/
def fAdd (a b : Num) : F Num := made [a, b] (exactAdd a b)
/-- Exact product with NAN_MADE. -/
def fMul (a b : Num) : F Num := made [a, b] (exactMul a b)
/-- Exact `a × b + c` with NAN_MADE (R119). -/
def fFma (a b c : Num) : F Num := made [a, b, c] (exactAdd (exactMul a b) c)
/-- Quotient with NAN_MADE. -/
def fDiv (a b : Num) : F Num := made [a, b] (exactDiv a b)
/-- Square root with NAN_MADE. -/
def fSqrt (a : Num) : F Num := made [a] (exactSqrt a)

/-- A floating-point layout: exponent bits, fraction bits, bias and which special codes it has (Tables 3.2, 3.3). -/
structure FloatFmt where
  ebits : Nat
  mbits : Nat
  bias : Nat
  /-- 0: infinity and NaN at exponent all ones; 1: NaN only, at all ones; 2: every code finite (R66) -/
  special : Nat
deriving DecidableEq, Repr, Inhabited

/-- FP64. -/
def fmtFp64 : FloatFmt := ⟨11, 52, 1023, 0⟩
/-- A40. -/
def fmtA40 : FloatFmt := ⟨11, 28, 1023, 0⟩
/-- FP32. -/
def fmtFp32 : FloatFmt := ⟨8, 23, 127, 0⟩
/-- BF16. -/
def fmtBf16 : FloatFmt := ⟨8, 7, 127, 0⟩
/-- FP16. -/
def fmtFp16 : FloatFmt := ⟨5, 10, 15, 0⟩
/-- FP8 E4M3. -/
def fmtE4M3 : FloatFmt := ⟨4, 3, 7, 1⟩
/-- FP8 E5M2. -/
def fmtE5M2 : FloatFmt := ⟨5, 2, 15, 0⟩
/-- FP6 E3M2. -/
def fmtE3M2 : FloatFmt := ⟨3, 2, 3, 2⟩
/-- FP6 E2M3. -/
def fmtE2M3 : FloatFmt := ⟨2, 3, 1, 2⟩
/-- FP4 E2M1. -/
def fmtE2M1 : FloatFmt := ⟨2, 1, 1, 2⟩

/-- Width of the format's code. -/
def fmtWidth (f : FloatFmt) : Nat := 1 + f.ebits + f.mbits

/-- The value of a floating-point code (R65, R66). -/
def decodeFloat (f : FloatFmt) (code : Nat) : Num :=
  let s := flag code (f.ebits + f.mbits)
  let e := field code (f.ebits + f.mbits - 1) f.mbits
  let fr := code % 2 ^ f.mbits
  let top := 2 ^ f.ebits - 1
  if f.special = 0 ∧ e = top then (if fr = 0 then .inf s else .nan)
  else if f.special = 1 ∧ e = top ∧ fr = 2 ^ f.mbits - 1 then .nan
  else if e = 0 then .fin s fr (1 - f.bias - f.mbits)
  else .fin s (2 ^ f.mbits + fr) (e - f.bias - f.mbits)

/-- The canonical NaN of a format with one (Table 3.3). -/
def canonicalNan (f : FloatFmt) : Nat :=
  if f.special = 1 then 2 ^ (f.ebits + f.mbits) - 1
  else (2 ^ f.ebits - 1) <<< f.mbits + 2 ^ (f.mbits - 1)

/-- The largest finite magnitude as a code (Table 3.2). -/
def maxFiniteCode (f : FloatFmt) : Nat :=
  match f.special with
  | 0 => (2 ^ f.ebits - 1) <<< f.mbits - 1
  | 1 => 2 ^ (f.ebits + f.mbits) - 2
  | _ => 2 ^ (f.ebits + f.mbits) - 1

/-- The largest finite value (Table 3.2). -/
def maxFinite (f : FloatFmt) : Num := decodeFloat f (maxFiniteCode f)

/-- The exponent of the unit in the last place at a magnitude `m × 2^e`, subnormal range included. -/
def ulpExp (f : FloatFmt) (m : Nat) (e : Int) : Int :=
  max (e + (bitLength m : Int) - 1) (1 - f.bias) - f.mbits

/-- The multiple of `2^q` that `m × 2^e` rounds to: ties to even (R81), or by the draw `u` (R229). -/
def roundMult (u : Option Nat) (m : Nat) (e q : Int) : Nat :=
  if q ≤ e then m <<< (e - q).toNat
  else
    let sh := (q - e).toNat
    let k := m >>> sh
    let r := m - k <<< sh
    match u with
    | none =>
      let half := 1 <<< (sh - 1)
      if r > half ∨ (r = half ∧ k % 2 = 1) then k + 1 else k
    | some d => if (r <<< 16) >>> sh + d ≥ 65536 then k + 1 else k

/-- `x` rounded to the format's precision with an unbounded exponent above (R81, R229). -/
def roundPrec (f : FloatFmt) (u : Option Nat) : Num → Num
  | .fin s m e => if m = 0 then .fin s 0 0 else
      let q := ulpExp f m e
      .fin s (roundMult u m e q) q
  | x => x

/-- Is a finite value above the largest finite value of the format in magnitude? -/
def overflows (f : FloatFmt) (x : Num) : Bool := isFin x && ltNum (maxFinite f) (nAbs x)

/-- Is a finite value non-zero and below the format's smallest normal (R65)? -/
def isSubnormal (f : FloatFmt) (x : Num) : Bool :=
  isFin x && !isZero x && ltNum (nAbs x) (nPow2 (1 - f.bias))

/-- The flush of R82 on a value already in a format it applies to. -/
def flushNum (f : FloatFmt) (on : Bool) (x : Num) : F Num := do
  if on && isSubnormal f x then
    noteFlush
    return .fin (isNeg x) 0 0
  else return x

/-- One rounding to a wide format (infinity on overflow, Table 3.12), with the flush of R82 or R120. -/
def rnTo (f : FloatFmt) (flushOn : Bool) (x : Num) : F Num :=
  let y := roundPrec f none x
  let z := if overflows f y then .inf (isNeg y) else y
  flushNum f flushOn z

/-- The code of a value exactly representable in the format, or an infinity or NaN it can hold. -/
def encodeFloat (f : FloatFmt) : Num → Nat
  | .nan => canonicalNan f
  | .inf s => bitOf s <<< (f.ebits + f.mbits) + (2 ^ f.ebits - 1) <<< f.mbits
  | .fin s m e =>
    let sign := bitOf s <<< (f.ebits + f.mbits)
    if m = 0 then sign
    else
      let q := ulpExp f m e
      let k := roundMult none m e q
      -- a rounding up to 2^(mbits+1) moves one binade up
      let (k, q) := if k = 2 ^ (f.mbits + 1) then (2 ^ f.mbits, q + 1) else (k, q)
      if k < 2 ^ f.mbits then sign + k
      else sign + (q + f.mbits + f.bias).toNat <<< f.mbits + (k - 2 ^ f.mbits)

/-- FP32 rounding without flags, for values formed once per task. -/
def rn32 (x : Num) : Num := (rnTo fmtFp32 false x |>.run {}).1
/-- FP64 rounding without flags (RNE_FP64 of R89). -/
def rn64 (x : Num) : Num := (rnTo fmtFp64 false x |>.run {}).1
/-- A40 rounding without flags. -/
def rnA40 (x : Num) : Num := (rnTo fmtA40 false x |>.run {}).1
/-- The value of an FP32 bit pattern. -/
def fp32 (code : Nat) : Num := decodeFloat fmtFp32 code
/-- The FP32 bit pattern of a value. -/
def fp32Code (x : Num) : Nat := encodeFloat fmtFp32 (rn32 x)
/-- The value of an A40 code; bits above 39 are ignored (R78). -/
def a40 (code : Nat) : Num := decodeFloat fmtA40 (code % 2 ^ 40)
/-- The A40 code of a value. -/
def a40Code (x : Num) : Nat := encodeFloat fmtA40 (rnA40 x)

end Sys2Proof.Machine
end

