-- ==== Sys2Proof/Config.lean ====
section
/-! DEFINITION. What the manual leaves to a part or leaves open: uninterpreted constants. Nothing can be proved of the
value of one, so a statement about it holds for every value. -/

namespace Sys2Proof.Config

/-- The free values: value `n` of width `w`. DESIGN CHOICE, log entry 4. -/
opaque freeWord (w n : Nat) : BitVec w

/-! ### One-time-programmable fields (Table 17.5, R483). Log entry 7. -/

/-- Raw serial field. -/
opaque rawSerial : BitVec 64
/-- Raw M0 address field. -/
opaque rawMac0 : BitVec 48
/-- Raw M1 address field. -/
opaque rawMac1 : BitVec 48
/-- Raw subsystem vendor ID. -/
opaque rawSubVendor : BitVec 16
/-- Raw subsystem ID. -/
opaque rawSubId : BitVec 16
/-- Raw VCORE setpoint field. -/
opaque rawSetpoint : BitVec 9
/-- Rollback floor of generation 0, firmware. -/
opaque otpFloorFw : BitVec 16
/-- Rollback floor of generation 0, hub microcode. -/
opaque otpFloorHub : BitVec 16
/-- The device secret; no object, port or firmware interface reads it (R420). -/
opaque deviceSecret : BitVec 256

/-- The serial number: non-zero (R483). -/
def serial : Nat := if rawSerial.toNat = 0 then 1 else rawSerial.toNat

/-- An individual (unicast) MAC address as 6 octets, first octet in the low byte: its group bit is 0 (R483). -/
def unicast (raw : Nat) : Nat := raw - raw % 2

/-- M0's address. -/
def mac0 : Nat := unicast rawMac0.toNat

/-- M1's address: distinct from M0's (R483). -/
def mac1 : Nat :=
  let m := unicast rawMac1.toNat
  if m = mac0 then (m + 2) % 2 ^ 48 else m

/-- A subsystem field: neither 0x0000 nor 0xFFFF (R483). -/
def boardId (raw : Nat) : Nat := if raw = 0 then 1 else if raw = 0xFFFF then 0xFFFE else raw

/-- Subsystem vendor ID. -/
def subVendor : Nat := boardId rawSubVendor.toNat
/-- Subsystem ID. -/
def subId : Nat := boardId rawSubId.toNat

/-- The fused VCORE setpoint: a multiple of 5 mV in 600–800 mV (R457, R483). -/
def setpointMv : Nat := 600 + 5 * (rawSetpoint.toNat % 41)

/-- The tag of the two barriers of a Midnight (R357): the manual names none. Log entry 46. -/
opaque midnightTag : BitVec 12

/-! ### Fixed function slots (R126): the coefficients are published apart from the manual. Log entry 8. -/

/-- FP32 coefficient `c` of segment `s` of fixed slot `t`, value or derivative table. -/
opaque fnCoeff (t : Nat) (deriv : Bool) (s c : Nat) : BitVec 32

/-- Byte of a tile's SRAM at an offset, whatever the earlier tasks of the tile have left there: contents `n` (R247). Log
entry 85. -/
opaque sramByte (n offset : Nat) : BitVec 8

/-- What an attach flit carries after its type (R318): rank, serial and port; the manual gives them no layout. Log entry
93. -/
opaque attachBody (rank serial port : Nat) : List Byte

/-! ### Keys and signatures (R420–R429). Log entry 9. -/

/-- SHA-384 digest of Knafoun's RSA root modulus, held in the boot ROM (R423). -/
opaque rootDigestRsa : BitVec 384
/-- SHA-384 digest of Knafoun's SLH-DSA root key, held in the boot ROM (R423). -/
opaque rootDigestSlh : BitVec 384
/-- SHA-384 digest of the boot ROM (Table 16.5). -/
opaque bootRomDigest : BitVec 384
/-- Digests of measurement blocks 4 and 6 (Table 16.5) as functions of what they cover: the manual names the values and
not the bytes they are laid out in. -/
opaque measureDigest (index : Nat) (parts : List Nat) : BitVec 384
/-- RSASSA-PSS verification of R422: modulus, digest and signature as numbers. -/
opaque rsaVerify (modulus digest signature : Nat) : Bool
/-- SLH-DSA-SHA2-192s verification of R422. -/
opaque slhVerify (key digest signature : Nat) : Bool
/-- The device's RSA signature over a message (R425); the key pair is derived from the secret (R420). -/
opaque rsaSign (message : List Byte) : List Byte
/-- The device's SLH-DSA signature over a message (R425). -/
opaque slhSign (message : List Byte) : List Byte
/-- The public keys the boot ROM derives (R420): RSA modulus, SLH-DSA key. -/
opaque publicKeys : Nat × Nat
/-- Does a certificate chain's device certificate hold this public key (R421)? The encoding is X.509's. -/
opaque chainHolds (chain : List Byte) (key : Nat) : Bool
/-- The certificate chains in the flash (R421): slot 0 RSA, slot 1 SLH-DSA. -/
opaque flashChain (slot : Nat) : List Byte

end Sys2Proof.Config
end

