-- ==== Sys2Proof/Machine/Objects.lean ====
section
/-! DEFINITION. The object dictionary's map: every object of the manual's object tables with its type, access right,
size and default (R374–R377, R399), and the key of each object, `index × 256 + sub-index`. -/

namespace Sys2Proof.Machine

/-- Object types (Table 14.1). -/
inductive ObjType where
  | bool | u8 | u16 | u32 | u64 | i32 | i64 | r32 | r64 | str | octets | domain
deriving DecidableEq, Repr

/-- The type code DESCRIBE returns (Table 14.1). -/
def typeCode : ObjType → Nat
  | .bool => 0x01 | .u8 => 0x05 | .u16 => 0x06 | .u32 => 0x07 | .u64 => 0x1B | .i32 => 0x04 | .i64 => 0x15
  | .r32 => 0x08 | .r64 => 0x11 | .str => 0x09 | .octets => 0x0A | .domain => 0x0F

/-- Access rights (Table 14.2). -/
inductive Access where
  | const | ro | wo | rw | staged
deriving DecidableEq, Repr

/-- The access code DESCRIBE returns (Table 14.6). -/
def accessCode : Access → Nat
  | .const => 0 | .ro => 1 | .wo => 2 | .rw => 3 | .staged => 4

/-- One object: its index, sub-index, type, right, size in bytes and default. -/
structure ObjDef where
  index : Nat
  sub : Nat
  ty : ObjType
  access : Access
  size : Nat
  dflt : Nat
deriving DecidableEq, Repr

/-- The key of an object. -/
def objKey (index sub : Nat) : Nat := index * 256 + sub

/-- `n` bytes each holding `v`. -/
def bytesEach (n v : Nat) : Nat := ofLe (List.replicate n (BitVec.ofNat 8 v))

/-- An ASCII string as bytes, first character in the low byte, padded with zeros (Table 14.1). -/
def asciiLe (s : String) : Nat := ofLe (s.toList.map fun c => BitVec.ofNat 8 c.toNat)

/-- The counter images of Table 9.3 with every step 0. -/
def counterImages : Nat := (List.range 2132).foldl (fun a s => a + s <<< (128 * s + 116)) 0

/-- Header of a fixed slot's image (Tables 5.4 and 5.5; R126). -/
def fixedHeader (t : Nat) : Nat :=
  -- kind, q, lo, then slopes and intercepts as FP32 bits: v_lo, v_hi, d_lo, d_hi
  let one := 0x3F800000
  let pack (q lo vloI vhiS vhiI dhiI : Nat) : Nat :=
    4 + q <<< 8 + lo <<< 32 + vloI <<< 96 + vhiS <<< 128 + vhiI <<< 160 + dhiI <<< 288
  match t with
  | 4 => pack 3 0xC1800000 0 0 one 0
  | 5 => pack 4 0xC1000000 0xBF800000 0 one 0
  | 6 => pack 3 0xC1800000 0 one 0 one
  | 7 => pack 4 0xC1000000 0 one 0 one
  | _ => t

/-- The 6,208-byte image of fixed slot `t` (R126, R127); its coefficients are the part's. -/
def fixedSlot (t : Nat) : Nat :=
  let table (deriv : Bool) (base : Nat) : Nat :=
    (List.range 768).foldl (fun a i => a + (Config.fnCoeff t deriv (i / 3) (i % 3)).toNat <<< (8 * base + 32 * i)) 0
  fixedHeader t + table false 64 + table true 3136


/-- 0x2000:01 `tick_counter` (Table 2.1). -/
abbrev oTickCounter : Nat := 0x200001

/-- 0x2000:02 `tick_phase` (Table 2.1). -/
abbrev oTickPhase : Nat := 0x200002

/-- 0x2000:03 `tick_offset` (Table 2.1). -/
abbrev oTickOffset : Nat := 0x200003

/-- 0x2000:04 `slip_count` (Table 2.1). -/
abbrev oSlipCount : Nat := 0x200004

/-- 0x2000:05 `stale_count` (Table 2.1). -/
abbrev oStaleCount : Nat := 0x200005

/-- 0x2000:06 `scheduler_state` (Table 2.1). -/
abbrev oSchedulerState : Nat := 0x200006

/-- 0x2000:07 `step_counter` (Table 2.1). -/
abbrev oStepCounter : Nat := 0x200007

/-- 0x2000:08 `step_base_tick` (Table 2.1). -/
abbrev oStepBaseTick : Nat := 0x200008

/-- 0x2000:09 `halt_cause` (Table 2.1). -/
abbrev oHaltCause : Nat := 0x200009

/-- 0x2000:0A `halt_record` (Table 2.1). -/
abbrev oHaltRecord : Nat := 0x20000A

/-- 0x2010:01 `tick_source` (Table 2.1). -/
abbrev oTickSource : Nat := 0x201001

/-- 0x2010:02 `period_switch_tick` (Table 2.1). -/
abbrev oPeriodSwitchTick : Nat := 0x201002

/-- 0x2010:03 `tick_period_log2` (Table 2.1). -/
abbrev oTickPeriodLog2 : Nat := 0x201003

/-- 0x2010:04 `step_tick_limit` (Table 2.1). -/
abbrev oStepTickLimit : Nat := 0x201004

/-- 0x2020:01 `program_base` (Table 2.1). -/
abbrev oProgramBase : Nat := 0x202001

/-- 0x2020:02 `program_records` (Table 2.1). -/
abbrev oProgramRecords : Nat := 0x202002

/-- 0x2020:03 `program_steps` (Table 2.1). -/
abbrev oProgramSteps : Nat := 0x202003

/-- 0x2020:04 `program_run` (Table 2.1). -/
abbrev oProgramRun : Nat := 0x202004

/-- 0x2021:01 `active_base` (Table 2.1). -/
abbrev oActiveBase : Nat := 0x202101

/-- 0x2021:02 `active_records` (Table 2.1). -/
abbrev oActiveRecords : Nat := 0x202102

/-- 0x2021:03 `steps_remaining` (Table 2.1). -/
abbrev oStepsRemaining : Nat := 0x202103

/-- 0x2030:01 `completion_counters` (Table 2.1). -/
abbrev oCompletionCounters : Nat := 0x203001

/-- 0x2040:01 `queue_capacity` (Table 2.1). -/
abbrev oQueueCapacity : Nat := 0x204001

/-- 0x2040:02 `queue_credits` (Table 2.1). -/
abbrev oQueueCredits : Nat := 0x204002

/-- 0x2050:01 `placement_epoch` (Table 2.1). -/
abbrev oPlacementEpoch : Nat := 0x205001

/-- 0x2050:02 `epoch_switch_tick` (Table 2.1). -/
abbrev oEpochSwitchTick : Nat := 0x205002

/-- 0x2601:01 `sticky_summary` (Table 3.10). -/
abbrev oStickySummary : Nat := 0x260101

/-- 0x2601:02 `sticky_clear` (Table 3.10). -/
abbrev oStickyClear : Nat := 0x260102

/-- 0x2601:03 `flush_tile_map` (Table 3.10). -/
abbrev oFlushTileMap : Nat := 0x260103

/-- 0x2601:04 `flush_tasks` (Table 3.10). -/
abbrev oFlushTasks : Nat := 0x260104

/-- 0x2200:01 `array_stream_cycles` (Table 4.7). -/
abbrev oArrayStreamCycles : Nat := 0x220001

/-- 0x2200:02 `array_reload_cycles` (Table 4.7). -/
abbrev oArrayReloadCycles : Nat := 0x220002

/-- 0x2200:03 `array_starved_cycles` (Table 4.7). -/
abbrev oArrayStarvedCycles : Nat := 0x220003

/-- 0x2200:04 `array_drain_wait_cycles` (Table 4.7). -/
abbrev oArrayDrainWaitCycles : Nat := 0x220004

/-- 0x2200:05 `array_ramp_cycles` (Table 4.7). -/
abbrev oArrayRampCycles : Nat := 0x220005

/-- 0x2200:06 `array_padding_cells` (Table 4.7). -/
abbrev oArrayPaddingCells : Nat := 0x220006

/-- 0x2200:07 `role_chose_a` (Table 4.7). -/
abbrev oRoleChoseA : Nat := 0x220007

/-- 0x2200:08 `role_chose_b` (Table 4.7). -/
abbrev oRoleChoseB : Nat := 0x220008

/-- 0x2200:09 `cohort_offset` (Table 4.7). -/
abbrev oCohortOffset : Nat := 0x220009

/-- 0x2200:0A `ramp_step_cycles` (Table 4.7). -/
abbrev oRampStepCycles : Nat := 0x22000A

/-- 0x2300:01 `vector_lane_cycles` (Table 5.10). -/
abbrev oVectorLaneCycles : Nat := 0x230001

/-- 0x2300:02 `sf_evaluations` (Table 5.10). -/
abbrev oSfEvaluations : Nat := 0x230002

/-- 0x2300:03 `coupled_rows` (Table 5.10). -/
abbrev oCoupledRows : Nat := 0x230003

/-- 0x2300:04 `coupled_wait_cycles` (Table 5.10). -/
abbrev oCoupledWaitCycles : Nat := 0x230004

/-- 0x2300:05 `vector_resident_bytes` (Table 5.10). -/
abbrev oVectorResidentBytes : Nat := 0x230005

/-- 0x2300:06 `sf_lanes` (Table 5.10). -/
abbrev oSfLanes : Nat := 0x230006

/-- 0x2310:01 `fn_slot_8` (Table 5.10). -/
abbrev oFnSlot8 : Nat := 0x231001

/-- 0x2310:02 `fn_slot_9` (Table 5.10). -/
abbrev oFnSlot9 : Nat := 0x231002

/-- 0x2310:03 `fn_slot_10` (Table 5.10). -/
abbrev oFnSlot10 : Nat := 0x231003

/-- 0x2310:04 `fn_slot_11` (Table 5.10). -/
abbrev oFnSlot11 : Nat := 0x231004

/-- 0x2310:05 `fn_slot_12` (Table 5.10). -/
abbrev oFnSlot12 : Nat := 0x231005

/-- 0x2310:06 `fn_slot_13` (Table 5.10). -/
abbrev oFnSlot13 : Nat := 0x231006

/-- 0x2310:07 `fn_slot_14` (Table 5.10). -/
abbrev oFnSlot14 : Nat := 0x231007

/-- 0x2310:08 `fn_slot_15` (Table 5.10). -/
abbrev oFnSlot15 : Nat := 0x231008

/-- 0x2311:01 `fn_slot_0` (Table 5.10). -/
abbrev oFnSlot0 : Nat := 0x231101

/-- 0x2311:02 `fn_slot_1` (Table 5.10). -/
abbrev oFnSlot1 : Nat := 0x231102

/-- 0x2311:03 `fn_slot_2` (Table 5.10). -/
abbrev oFnSlot2 : Nat := 0x231103

/-- 0x2311:04 `fn_slot_3` (Table 5.10). -/
abbrev oFnSlot3 : Nat := 0x231104

/-- 0x2311:05 `fn_slot_4` (Table 5.10). -/
abbrev oFnSlot4 : Nat := 0x231105

/-- 0x2311:06 `fn_slot_5` (Table 5.10). -/
abbrev oFnSlot5 : Nat := 0x231106

/-- 0x2311:07 `fn_slot_6` (Table 5.10). -/
abbrev oFnSlot6 : Nat := 0x231107

/-- 0x2311:08 `fn_slot_7` (Table 5.10). -/
abbrev oFnSlot7 : Nat := 0x231108

/-- 0x2180:01 `descriptor_create` (Table 6.6). -/
abbrev oDescriptorCreate : Nat := 0x218001

/-- 0x2180:02 `descriptor_result` (Table 6.6). -/
abbrev oDescriptorResult : Nat := 0x218002

/-- 0x2180:03 `descriptors_created` (Table 6.6). -/
abbrev oDescriptorsCreated : Nat := 0x218003

/-- 0x2180:04 `descriptors_refused` (Table 6.6). -/
abbrev oDescriptorsRefused : Nat := 0x218004

/-- 0x2180:05 `descriptor_requests_ignored` (Table 6.6). -/
abbrev oDescriptorRequestsIgnored : Nat := 0x218005

/-- 0x2480:01 `clamp_count` (Table 6.6). -/
abbrev oClampCount : Nat := 0x248001

/-- 0x2480:02 `clamp_tasks` (Table 6.6). -/
abbrev oClampTasks : Nat := 0x248002

/-- 0x2400:01 `gm_read_bytes` (Table 7.12). -/
abbrev oGmReadBytes : Nat := 0x240001

/-- 0x2400:02 `gm_write_bytes` (Table 7.12). -/
abbrev oGmWriteBytes : Nat := 0x240002

/-- 0x2400:03 `gm_slice_reads` (Table 7.12). -/
abbrev oGmSliceReads : Nat := 0x240003

/-- 0x2400:04 `overfull_groups` (Table 7.12). -/
abbrev oOverfullGroups : Nat := 0x240004

/-- 0x2400:05 `dropped_values` (Table 7.12). -/
abbrev oDroppedValues : Nat := 0x240005

/-- 0x2400:06 `rle_overruns` (Table 7.12). -/
abbrev oRleOverruns : Nat := 0x240006

/-- 0x2400:07 `rle_truncated_rows` (Table 7.12). -/
abbrev oRleTruncatedRows : Nat := 0x240007

/-- 0x2400:08 `predictor_sampled` (Table 7.12). -/
abbrev oPredictorSampled : Nat := 0x240008

/-- 0x2400:09 `predictor_misses` (Table 7.12). -/
abbrev oPredictorMisses : Nat := 0x240009

/-- 0x2410:01 `gather_direct_bytes` (Table 7.12). -/
abbrev oGatherDirectBytes : Nat := 0x241001

/-- 0x2410:02 `predictor_miss_threshold` (Table 7.12). -/
abbrev oPredictorMissThreshold : Nat := 0x241002

/-- 0x2410:03 `predictor_min_samples` (Table 7.12). -/
abbrev oPredictorMinSamples : Nat := 0x241003

/-- 0x2420:01 `predictor_exact_mask` (Table 7.12). -/
abbrev oPredictorExactMask : Nat := 0x242001

/-- 0x3100:01 `hash_entries_valid` (Table 7.12). -/
abbrev oHashEntriesValid : Nat := 0x310001

/-- 0x3100:02 `hash_spill_records` (Table 7.12). -/
abbrev oHashSpillRecords : Nat := 0x310002

/-- 0x3100:03 `hash_contributions` (Table 7.12). -/
abbrev oHashContributions : Nat := 0x310003

/-- 0x3100:04 `hash_spill_overflows` (Table 7.12). -/
abbrev oHashSpillOverflows : Nat := 0x310004

/-- 0x3110:01 `hash_capacity_mib` (Table 7.12). -/
abbrev oHashCapacityMib : Nat := 0x311001

/-- 0x3110:02 `hash_spill_base` (Table 7.12). -/
abbrev oHashSpillBase : Nat := 0x311002

/-- 0x3110:03 `hash_spill_bytes` (Table 7.12). -/
abbrev oHashSpillBytes : Nat := 0x311003

/-- 0x2200:0B `grad_pair_tasks` (Table 8.9). -/
abbrev oGradPairTasks : Nat := 0x22000B

/-- 0x2200:0C `tied_groups` (Table 8.9). -/
abbrev oTiedGroups : Nat := 0x22000C

/-- 0x2210:01 `pair_gradient_path` (Table 8.9). -/
abbrev oPairGradientPath : Nat := 0x221001

/-- 0x2500:01 `update_elements` (Table 8.9). -/
abbrev oUpdateElements : Nat := 0x250001

/-- 0x2500:02 `update_lazy_rows` (Table 8.9). -/
abbrev oUpdateLazyRows : Nat := 0x250002

/-- 0x2500:03 `update_skew_tasks` (Table 8.9). -/
abbrev oUpdateSkewTasks : Nat := 0x250003

/-- 0x2500:04 `update_lanes` (Table 8.9). -/
abbrev oUpdateLanes : Nat := 0x250004

/-- 0x2500:05 `update_groups_max` (Table 8.9). -/
abbrev oUpdateGroupsMax : Nat := 0x250005

/-- 0x2500:06 `curve_points_max` (Table 8.9). -/
abbrev oCurvePointsMax : Nat := 0x250006

/-- 0x2600:01 `sr_accum_tasks` (Table 9.11). -/
abbrev oSrAccumTasks : Nat := 0x260001

/-- 0x2600:02 `shadow_samples` (Table 9.11). -/
abbrev oShadowSamples : Nat := 0x260002

/-- 0x2600:03 `shadow_wait_cycles` (Table 9.11). -/
abbrev oShadowWaitCycles : Nat := 0x260003

/-- 0x2600:04 `drift_tasks` (Table 9.11). -/
abbrev oDriftTasks : Nat := 0x260004

/-- 0x2600:05 `fallbacks_applied` (Table 9.11). -/
abbrev oFallbacksApplied : Nat := 0x260005

/-- 0x2600:06 `fallbacks_lost` (Table 9.11). -/
abbrev oFallbacksLost : Nat := 0x260006

/-- 0x2610:01 `job_seed` (Table 9.11). -/
abbrev oJobSeed : Nat := 0x261001

/-- 0x2610:02 `stream_counters` (Table 9.11). -/
abbrev oStreamCounters : Nat := 0x261002

/-- 0x2610:03 `stream_count` (Table 9.11). -/
abbrev oStreamCount : Nat := 0x261003

/-- 0x2620:01 `shadow_log2_rate` (Table 9.11). -/
abbrev oShadowLog2Rate : Nat := 0x262001

/-- 0x2620:02 `shadow_drift_threshold` (Table 9.11). -/
abbrev oShadowDriftThreshold : Nat := 0x262002

/-- 0x2620:03 `shadow_min_elements` (Table 9.11). -/
abbrev oShadowMinElements : Nat := 0x262003

/-- 0x2620:04 `fallback_enable` (Table 9.11). -/
abbrev oFallbackEnable : Nat := 0x262004

/-- 0x2620:05 `fallback_pending` (Table 9.11). -/
abbrev oFallbackPending : Nat := 0x262005

/-- 0x2630:01 `sr_accum_threshold` (Table 9.11). -/
abbrev oSrAccumThreshold : Nat := 0x263001

/-- 0x2630:02 `scale_headroom` (Table 9.11). -/
abbrev oScaleHeadroom : Nat := 0x263002

/-- 0x2100:01 `alloc_live` (Table 10.16). -/
abbrev oAllocLive : Nat := 0x210001

/-- 0x2100:02 `near_frames_free` (Table 10.16). -/
abbrev oNearFramesFree : Nat := 0x210002

/-- 0x2100:03 `far_frames_free` (Table 10.16). -/
abbrev oFarFramesFree : Nat := 0x210003

/-- 0x2100:04 `colour_misses` (Table 10.16). -/
abbrev oColourMisses : Nat := 0x210004

/-- 0x2100:05 `alloc_failures` (Table 10.16). -/
abbrev oAllocFailures : Nat := 0x210005

/-- 0x2100:06 `promotions` (Table 10.16). -/
abbrev oPromotions : Nat := 0x210006

/-- 0x2100:07 `demotions` (Table 10.16). -/
abbrev oDemotions : Nat := 0x210007

/-- 0x2100:08 `migrating_now` (Table 10.16). -/
abbrev oMigratingNow : Nat := 0x210008

/-- 0x2100:09 `page_absent_accesses` (Table 10.16). -/
abbrev oPageAbsentAccesses : Nat := 0x210009

/-- 0x2100:0A `shootdowns` (Table 10.16). -/
abbrev oShootdowns : Nat := 0x21000A

/-- 0x2100:0B `translation_misses` (Table 10.16). -/
abbrev oTranslationMisses : Nat := 0x21000B

/-- 0x2100:0C `held_write_cycles` (Table 10.16). -/
abbrev oHeldWriteCycles : Nat := 0x21000C

/-- 0x2100:0D `alloc_requests_ignored` (Table 10.16). -/
abbrev oAllocRequestsIgnored : Nat := 0x21000D

/-- 0x2101:01 `alloc_request` (Table 10.16). -/
abbrev oAllocRequest : Nat := 0x210101

/-- 0x2101:02 `alloc_result` (Table 10.16). -/
abbrev oAllocResult : Nat := 0x210102

/-- 0x2102:01 `page_query` (Table 10.16). -/
abbrev oPageQuery : Nat := 0x210201

/-- 0x2102:02 `page_entry` (Table 10.16). -/
abbrev oPageEntry : Nat := 0x210202

/-- 0x2110:01 `hot_window_ticks` (Table 10.16). -/
abbrev oHotWindowTicks : Nat := 0x211001

/-- 0x2110:02 `promote_threshold` (Table 10.16). -/
abbrev oPromoteThreshold : Nat := 0x211002

/-- 0x2110:03 `demote_ratio_log2` (Table 10.16). -/
abbrev oDemoteRatioLog2 : Nat := 0x211003

/-- 0x2110:04 `migrations_max` (Table 10.16). -/
abbrev oMigrationsMax : Nat := 0x211004

/-- 0x3000:01 `stack_read_bytes` (Table 10.16). -/
abbrev oStackReadBytes : Nat := 0x300001

/-- 0x3000:02 `stack_write_bytes` (Table 10.16). -/
abbrev oStackWriteBytes : Nat := 0x300002

/-- 0x3000:03 `stack_turnrounds` (Table 10.16). -/
abbrev oStackTurnrounds : Nat := 0x300003

/-- 0x3000:04 `stack_activates` (Table 10.16). -/
abbrev oStackActivates : Nat := 0x300004

/-- 0x3000:05 `refresh_doubled` (Table 10.16). -/
abbrev oRefreshDoubled : Nat := 0x300005

/-- 0x3000:06 `stack_temp_max` (Table 10.16). -/
abbrev oStackTempMax : Nat := 0x300006

/-- 0x3010:01 `ecc_corrected` (Table 10.16). -/
abbrev oEccCorrected : Nat := 0x301001

/-- 0x3010:02 `ecc_uncorrected` (Table 10.16). -/
abbrev oEccUncorrected : Nat := 0x301002

/-- 0x3010:03 `ecc_last_location` (Table 10.16). -/
abbrev oEccLastLocation : Nat := 0x301003

/-- 0x3020:01 `scrub_period_hours` (Table 10.16). -/
abbrev oScrubPeriodHours : Nat := 0x302001

/-- 0x3101:01 `cache_hits` (Table 10.16). -/
abbrev oCacheHits : Nat := 0x310101

/-- 0x3101:02 `cache_misses` (Table 10.16). -/
abbrev oCacheMisses : Nat := 0x310102

/-- 0x3101:03 `cache_writebacks` (Table 10.16). -/
abbrev oCacheWritebacks : Nat := 0x310103

/-- 0x3101:04 `atomic_ops` (Table 10.16). -/
abbrev oAtomicOps : Nat := 0x310104

/-- 0x3101:05 `atomic_refusals` (Table 10.16). -/
abbrev oAtomicRefusals : Nat := 0x310105

/-- 0x4000:01 `ports_up` (Table 11.13). -/
abbrev oPortsUp : Nat := 0x400001

/-- 0x4000:02 `time_reference_rank` (Table 11.13). -/
abbrev oTimeReferenceRank : Nat := 0x400002

/-- 0x4000:03 `time_distance` (Table 11.13). -/
abbrev oTimeDistance : Nat := 0x400003

/-- 0x4000:04 `time_parent_port` (Table 11.13). -/
abbrev oTimeParentPort : Nat := 0x400004

/-- 0x4000:05 `tick_jumps` (Table 11.13). -/
abbrev oTickJumps : Nat := 0x400005

/-- 0x4000:06 `forwarded_messages` (Table 11.13). -/
abbrev oForwardedMessages : Nat := 0x400006

/-- 0x4000:07 `misrouted_messages` (Table 11.13). -/
abbrev oMisroutedMessages : Nat := 0x400007

/-- 0x4000:08 `unroutable_messages` (Table 11.13). -/
abbrev oUnroutableMessages : Nat := 0x400008

/-- 0x4000:09 `aborted_messages` (Table 11.13). -/
abbrev oAbortedMessages : Nat := 0x400009

/-- 0x4000:0A `time_slew_ticks` (Table 11.13). -/
abbrev oTimeSlewTicks : Nat := 0x40000A

/-- 0x4001:01 `port_enable` (Table 11.13). -/
abbrev oPortEnable : Nat := 0x400101

/-- 0x4001:02 `port_rates` (Table 11.13). -/
abbrev oPortRates : Nat := 0x400102

/-- 0x4001:03 `retrain_interval_ms` (Table 11.13). -/
abbrev oRetrainIntervalMs : Nat := 0x400103

/-- 0x4010+p:01 `link_state` of fabric port `p` (Table 11.13). -/
abbrev oLinkState (p : Nat) : Nat := objKey (0x4010 + p) 0x01

/-- 0x4010+p:02 `link_rate` of fabric port `p` (Table 11.13). -/
abbrev oLinkRate (p : Nat) : Nat := objKey (0x4010 + p) 0x02

/-- 0x4010+p:03 `peer_rank` of fabric port `p` (Table 11.13). -/
abbrev oPeerRank (p : Nat) : Nat := objKey (0x4010 + p) 0x03

/-- 0x4010+p:04 `peer_port` of fabric port `p` (Table 11.13). -/
abbrev oPeerPort (p : Nat) : Nat := objKey (0x4010 + p) 0x04

/-- 0x4010+p:05 `last_down_cause` of fabric port `p` (Table 11.13). -/
abbrev oLastDownCause (p : Nat) : Nat := objKey (0x4010 + p) 0x05

/-- 0x4010+p:06 `link_down_count` of fabric port `p` (Table 11.13). -/
abbrev oLinkDownCount (p : Nat) : Nat := objKey (0x4010 + p) 0x06

/-- 0x4010+p:07 `fec_corrected_symbols` of fabric port `p` (Table 11.13). -/
abbrev oFecCorrectedSymbols (p : Nat) : Nat := objKey (0x4010 + p) 0x07

/-- 0x4010+p:08 `fec_uncorrectable` of fabric port `p` (Table 11.13). -/
abbrev oFecUncorrectable (p : Nat) : Nat := objKey (0x4010 + p) 0x08

/-- 0x4010+p:09 `tag_failures` of fabric port `p` (Table 11.13). -/
abbrev oTagFailures (p : Nat) : Nat := objKey (0x4010 + p) 0x09

/-- 0x4010+p:0A `flits_replayed` of fabric port `p` (Table 11.13). -/
abbrev oFlitsReplayed (p : Nat) : Nat := objKey (0x4010 + p) 0x0A

/-- 0x4010+p:0B `tx_payload_bytes` of fabric port `p` (Table 11.13). -/
abbrev oTxPayloadBytes (p : Nat) : Nat := objKey (0x4010 + p) 0x0B

/-- 0x4010+p:0C `rx_payload_bytes` of fabric port `p` (Table 11.13). -/
abbrev oRxPayloadBytes (p : Nat) : Nat := objKey (0x4010 + p) 0x0C

/-- 0x4010+p:0D `round_trip` of fabric port `p` (Table 11.13). -/
abbrev oRoundTrip (p : Nat) : Nat := objKey (0x4010 + p) 0x0D

/-- 0x4100:01 `logical_rank` (Table 11.13). -/
abbrev oLogicalRank : Nat := 0x410001

/-- 0x4100:02 `rank_count` (Table 11.13). -/
abbrev oRankCount : Nat := 0x410002

/-- 0x4100:03 `route_table_active` (Table 11.13). -/
abbrev oRouteTableActive : Nat := 0x410003

/-- 0x4110:01 `rank_next` (Table 11.13). -/
abbrev oRankNext : Nat := 0x411001

/-- 0x4110:02 `rank_count_next` (Table 11.13). -/
abbrev oRankCountNext : Nat := 0x411002

/-- 0x4110:03 `route_table_next` (Table 11.13). -/
abbrev oRouteTableNext : Nat := 0x411003

/-- 0x4110:04 `route_switch_tick` (Table 11.13). -/
abbrev oRouteSwitchTick : Nat := 0x411004

/-- 0x4120:01 `axis_0` (Table 11.13). -/
abbrev oAxis0 : Nat := 0x412001

/-- 0x4120:02 `axis_1` (Table 11.13). -/
abbrev oAxis1 : Nat := 0x412002

/-- 0x4120:03 `axis_2` (Table 11.13). -/
abbrev oAxis2 : Nat := 0x412003

/-- 0x4120:04 `axis_3` (Table 11.13). -/
abbrev oAxis3 : Nat := 0x412004

/-- 0x4120:05 `axis_4` (Table 11.13). -/
abbrev oAxis4 : Nat := 0x412005

/-- 0x4120:06 `axis_5` (Table 11.13). -/
abbrev oAxis5 : Nat := 0x412006

/-- 0x4120:07 `axis_types` (Table 11.13). -/
abbrev oAxisTypes : Nat := 0x412007

/-- 0x4200:01 `collective_tasks` (Table 12.12). -/
abbrev oCollectiveTasks : Nat := 0x420001

/-- 0x4200:02 `coll_bytes_sent` (Table 12.12). -/
abbrev oCollBytesSent : Nat := 0x420002

/-- 0x4200:03 `coll_bytes_received` (Table 12.12). -/
abbrev oCollBytesReceived : Nat := 0x420003

/-- 0x4200:04 `ready_wait_cycles` (Table 12.12). -/
abbrev oReadyWaitCycles : Nat := 0x420004

/-- 0x4200:05 `coll_discards` (Table 12.12). -/
abbrev oCollDiscards : Nat := 0x420005

/-- 0x4200:06 `a2a_overflow_rows` (Table 12.12). -/
abbrev oA2aOverflowRows : Nat := 0x420006

/-- 0x4200:07 `skew_flag` (Table 12.12). -/
abbrev oSkewFlag : Nat := 0x420007

/-- 0x4200:08 `shard_changed_count` (Table 12.12). -/
abbrev oShardChangedCount : Nat := 0x420008

/-- 0x4200:09 `barrier_late` (Table 12.12). -/
abbrev oBarrierLate : Nat := 0x420009

/-- 0x4200:0A `ready_entries_max` (Table 12.12). -/
abbrev oReadyEntriesMax : Nat := 0x42000A

/-- 0x4201:01 `noise_local_sum` (Table 12.12). -/
abbrev oNoiseLocalSum : Nat := 0x420101

/-- 0x4201:02 `noise_reduced_sum` (Table 12.12). -/
abbrev oNoiseReducedSum : Nat := 0x420102

/-- 0x4201:03 `noise_scale` (Table 12.12). -/
abbrev oNoiseScale : Nat := 0x420103

/-- 0x4201:04 `noise_tick` (Table 12.12). -/
abbrev oNoiseTick : Nat := 0x420104

/-- 0x4202:01 `noise_examples_per_device` (Table 12.12). -/
abbrev oNoiseExamplesPerDevice : Nat := 0x420201

/-- 0x4202:02 `noise_data_ranks` (Table 12.12). -/
abbrev oNoiseDataRanks : Nat := 0x420202

/-- 0x4202:03 `barrier_margin_ticks` (Table 12.12). -/
abbrev oBarrierMarginTicks : Nat := 0x420203

/-- 0x4210:01 `batch_steer_enable` (Table 12.12). -/
abbrev oBatchSteerEnable : Nat := 0x421001

/-- 0x4210:02 `batch_select` (Table 12.12). -/
abbrev oBatchSelect : Nat := 0x421002

/-- 0x4210:03 `batch_switch_step` (Table 12.12). -/
abbrev oBatchSwitchStep : Nat := 0x421003

/-- 0x4210:04 `batch_programs` (Table 12.12). -/
abbrev oBatchPrograms : Nat := 0x421004

/-- 0x4211:01 `batch_active` (Table 12.12). -/
abbrev oBatchActive : Nat := 0x421101

/-- 0x4211:02 `microbatches_active` (Table 12.12). -/
abbrev oMicrobatchesActive : Nat := 0x421102

/-- 0x5000:01 `job_step` (Table 13.9). -/
abbrev oJobStep : Nat := 0x500001

/-- 0x5000:02 `snapshot_seq` (Table 13.9). -/
abbrev oSnapshotSeq : Nat := 0x500002

/-- 0x5000:03 `twin_state` (Table 13.9). -/
abbrev oTwinState : Nat := 0x500003

/-- 0x5000:04 `heartbeats_received` (Table 13.9). -/
abbrev oHeartbeatsReceived : Nat := 0x500004

/-- 0x5000:05 `late_bytes_carried` (Table 13.9). -/
abbrev oLateBytesCarried : Nat := 0x500005

/-- 0x5000:06 `late_bytes_dropped` (Table 13.9). -/
abbrev oLateBytesDropped : Nat := 0x500006

/-- 0x5000:07 `peer_absent_tasks` (Table 13.9). -/
abbrev oPeerAbsentTasks : Nat := 0x500007

/-- 0x5000:08 `replay_checks` (Table 13.9). -/
abbrev oReplayChecks : Nat := 0x500008

/-- 0x5000:09 `replay_mismatches` (Table 13.9). -/
abbrev oReplayMismatches : Nat := 0x500009

/-- 0x5000:0A `snapshot_bytes_last` (Table 13.9). -/
abbrev oSnapshotBytesLast : Nat := 0x50000A

/-- 0x5000:0B `snapshot_ticks_last` (Table 13.9). -/
abbrev oSnapshotTicksLast : Nat := 0x50000B

/-- 0x5000:0C `twin_rejects` (Table 13.9). -/
abbrev oTwinRejects : Nat := 0x50000C

/-- 0x5000:0D `restore_status` (Table 13.9). -/
abbrev oRestoreStatus : Nat := 0x50000D

/-- 0x5000:0E `replay_expected` (Table 13.9). -/
abbrev oReplayExpected : Nat := 0x50000E

/-- 0x5001:01 `held_header_0` (Table 13.9). -/
abbrev oHeldHeader0 : Nat := 0x500101

/-- 0x5001:02 `held_header_1` (Table 13.9). -/
abbrev oHeldHeader1 : Nat := 0x500102

/-- 0x5001:03 `far_header_0` (Table 13.9). -/
abbrev oFarHeader0 : Nat := 0x500103

/-- 0x5001:04 `far_header_1` (Table 13.9). -/
abbrev oFarHeader1 : Nat := 0x500104

/-- 0x5002:01 `restored_cursor` (Table 13.9). -/
abbrev oRestoredCursor : Nat := 0x500201

/-- 0x5010:01 `twin_rank` (Table 13.9). -/
abbrev oTwinRank : Nat := 0x501001

/-- 0x5010:02 `twin_ports` (Table 13.9). -/
abbrev oTwinPorts : Nat := 0x501002

/-- 0x5010:03 `twin_region_base` (Table 13.9). -/
abbrev oTwinRegionBase : Nat := 0x501003

/-- 0x5010:04 `twin_region_bytes` (Table 13.9). -/
abbrev oTwinRegionBytes : Nat := 0x501004

/-- 0x5010:05 `far_snapshot_base` (Table 13.9). -/
abbrev oFarSnapshotBase : Nat := 0x501005

/-- 0x5010:06 `heartbeat_interval_ticks` (Table 13.9). -/
abbrev oHeartbeatIntervalTicks : Nat := 0x501006

/-- 0x5010:07 `heartbeat_timeout_ticks` (Table 13.9). -/
abbrev oHeartbeatTimeoutTicks : Nat := 0x501007

/-- 0x5010:08 `snapshot_interval_steps` (Table 13.9). -/
abbrev oSnapshotIntervalSteps : Nat := 0x501008

/-- 0x5010:09 `twin_reset_enable` (Table 13.9). -/
abbrev oTwinResetEnable : Nat := 0x501009

/-- 0x5020:01 `straggler_mode` (Table 13.9). -/
abbrev oStragglerMode : Nat := 0x502001

/-- 0x5020:02 `grace_ticks` (Table 13.9). -/
abbrev oGraceTicks : Nat := 0x502002

/-- 0x5020:03 `late_policy` (Table 13.9). -/
abbrev oLatePolicy : Nat := 0x502003

/-- 0x5020:04 `carry_base` (Table 13.9). -/
abbrev oCarryBase : Nat := 0x502004

/-- 0x5020:05 `carry_bytes` (Table 13.9). -/
abbrev oCarryBytes : Nat := 0x502005

/-- 0x5030:01 `restore_source` (Table 13.9). -/
abbrev oRestoreSource : Nat := 0x503001

/-- 0x5030:02 `restore_slot` (Table 13.9). -/
abbrev oRestoreSlot : Nat := 0x503002

/-- 0x5030:03 `restore_replay` (Table 13.9). -/
abbrev oRestoreReplay : Nat := 0x503003

/-- 0x5040:01 `dusk_request` (Table 13.9). -/
abbrev oDuskRequest : Nat := 0x504001

/-- 0x1000:01 `vendor_name` (Table 14.13). -/
abbrev oVendorName : Nat := 0x100001

/-- 0x1000:02 `product_name` (Table 14.13). -/
abbrev oProductName : Nat := 0x100002

/-- 0x1000:03 `part_number` (Table 14.13). -/
abbrev oPartNumber : Nat := 0x100003

/-- 0x1000:04 `stepping` (Table 14.13). -/
abbrev oStepping : Nat := 0x100004

/-- 0x1000:05 `serial_number` (Table 14.13). -/
abbrev oSerialNumber : Nat := 0x100005

/-- 0x1000:06 `dictionary_version` (Table 14.13). -/
abbrev oDictionaryVersion : Nat := 0x100006

/-- 0x1001:01 `firmware_version` (Table 14.13). -/
abbrev oFirmwareVersion : Nat := 0x100101

/-- 0x1002:01 `felby_versions` (Table 14.13). -/
abbrev oFelbyVersions : Nat := 0x100201

/-- 0x1002:02 `fabric_rates` (Table 14.13). -/
abbrev oFabricRates : Nat := 0x100202

/-- 0x1100:01 `mac_m0` (Table 14.13). -/
abbrev oMacM0 : Nat := 0x110001

/-- 0x1100:02 `mac_m1` (Table 14.13). -/
abbrev oMacM1 : Nat := 0x110002

/-- 0x1100:03 `mgmt_ports_up` (Table 14.13). -/
abbrev oMgmtPortsUp : Nat := 0x110003

/-- 0x1100:04 `felby_requests` (Table 14.13). -/
abbrev oFelbyRequests : Nat := 0x110004

/-- 0x1100:05 `felby_discards` (Table 14.13). -/
abbrev oFelbyDiscards : Nat := 0x110005

/-- 0x1100:06 `felby_duplicates` (Table 14.13). -/
abbrev oFelbyDuplicates : Nat := 0x110006

/-- 0x1100:07 `event_frames_sent` (Table 14.13). -/
abbrev oEventFramesSent : Nat := 0x110007

/-- 0x1100:08 `event_stalled` (Table 14.13). -/
abbrev oEventStalled : Nat := 0x110008

/-- 0x1100:09 `event_acked_seq` (Table 14.13). -/
abbrev oEventAckedSeq : Nat := 0x110009

/-- 0x1110:01 `plca_node_m0` (Table 14.13). -/
abbrev oPlcaNodeM0 : Nat := 0x111001

/-- 0x1110:02 `plca_node_m1` (Table 14.13). -/
abbrev oPlcaNodeM1 : Nat := 0x111002

/-- 0x1110:03 `plca_node_count` (Table 14.13). -/
abbrev oPlcaNodeCount : Nat := 0x111003

/-- 0x1110:04 `plca_to_timer` (Table 14.13). -/
abbrev oPlcaToTimer : Nat := 0x111004

/-- 0x1110:05 `event_destination` (Table 14.13). -/
abbrev oEventDestination : Nat := 0x111005

/-- 0x1110:06 `event_version` (Table 14.13). -/
abbrev oEventVersion : Nat := 0x111006

/-- 0x1110:07 `event_retry_ms` (Table 14.13). -/
abbrev oEventRetryMs : Nat := 0x111007

/-- 0x1110:08 `event_retries` (Table 14.13). -/
abbrev oEventRetries : Nat := 0x111008

/-- 0x9000:01 `event_log` (Table 14.13). -/
abbrev oEventLog : Nat := 0x900001

/-- 0x9000:02 `event_seq_next` (Table 14.13). -/
abbrev oEventSeqNext : Nat := 0x900002

/-- 0x9000:03 `event_seq_oldest` (Table 14.13). -/
abbrev oEventSeqOldest : Nat := 0x900003

/-- 0x9000:04 `events_overwritten` (Table 14.13). -/
abbrev oEventsOverwritten : Nat := 0x900004

/-- 0x9000:05 `event_counts` (Table 14.13). -/
abbrev oEventCounts : Nat := 0x900005

/-- 0x9001:01 `commit_result` (Table 14.13). -/
abbrev oCommitResult : Nat := 0x900101

/-- 0x9001:02 `bar0_ignored` (Table 14.13). -/
abbrev oBar0Ignored : Nat := 0x900102

/-- 0x9010:01 `event_notify_mask` (Table 14.13). -/
abbrev oEventNotifyMask : Nat := 0x901001

/-- 0x6000:01 `pci_vendor_id` (Table 15.8). -/
abbrev oPciVendorId : Nat := 0x600001

/-- 0x6000:02 `pci_subsystem_vendor` (Table 15.8). -/
abbrev oPciSubsystemVendor : Nat := 0x600002

/-- 0x6000:03 `pci_subsystem_id` (Table 15.8). -/
abbrev oPciSubsystemId : Nat := 0x600003

/-- 0x6000:04 `host_link_state` (Table 15.8). -/
abbrev oHostLinkState : Nat := 0x600004

/-- 0x6000:05 `host_link_speed` (Table 15.8). -/
abbrev oHostLinkSpeed : Nat := 0x600005

/-- 0x6000:06 `host_link_width` (Table 15.8). -/
abbrev oHostLinkWidth : Nat := 0x600006

/-- 0x6000:07 `host_unsupported` (Table 15.8). -/
abbrev oHostUnsupported : Nat := 0x600007

/-- 0x6000:08 `host_request_errors` (Table 15.8). -/
abbrev oHostRequestErrors : Nat := 0x600008

/-- 0x6000:09 `bar2_size_log2` (Table 15.8). -/
abbrev oBar2SizeLog2 : Nat := 0x600009

/-- 0x6000:0A `host_bytes_in` (Table 15.8). -/
abbrev oHostBytesIn : Nat := 0x60000A

/-- 0x6000:0B `host_bytes_out` (Table 15.8). -/
abbrev oHostBytesOut : Nat := 0x60000B

/-- 0x6010:01 `bar2_window_base` (Table 15.8). -/
abbrev oBar2WindowBase : Nat := 0x601001

/-- 0x6010:02 `host_window_bus_base` (Table 15.8). -/
abbrev oHostWindowBusBase : Nat := 0x601002

/-- 0x6010:03 `host_window_bytes` (Table 15.8). -/
abbrev oHostWindowBytes : Nat := 0x601003

/-- 0x6020:01 `msix_enable` (Table 15.8). -/
abbrev oMsixEnable : Nat := 0x602001

/-- 0x3200:01 `far_link_state` (Table 15.8). -/
abbrev oFarLinkState : Nat := 0x320001

/-- 0x3200:02 `far_capacity_h0` (Table 15.8). -/
abbrev oFarCapacityH0 : Nat := 0x320002

/-- 0x3200:03 `far_capacity_h1` (Table 15.8). -/
abbrev oFarCapacityH1 : Nat := 0x320003

/-- 0x3200:04 `far_capacity_h2` (Table 15.8). -/
abbrev oFarCapacityH2 : Nat := 0x320004

/-- 0x3200:05 `far_capacity_h3` (Table 15.8). -/
abbrev oFarCapacityH3 : Nat := 0x320005

/-- 0x3200:06 `far_poisoned` (Table 15.8). -/
abbrev oFarPoisoned : Nat := 0x320006

/-- 0x3200:07 `far_last_poison` (Table 15.8). -/
abbrev oFarLastPoison : Nat := 0x320007

/-- 0x3200:08 `far_cxl_versions` (Table 15.8). -/
abbrev oFarCxlVersions : Nat := 0x320008

/-- 0x3200:09 `far_read_bytes` (Table 15.8). -/
abbrev oFarReadBytes : Nat := 0x320009

/-- 0x3200:0A `far_write_bytes` (Table 15.8). -/
abbrev oFarWriteBytes : Nat := 0x32000A

/-- 0x3210:01 `far_ide_required` (Table 15.8). -/
abbrev oFarIdeRequired : Nat := 0x321001

/-- 0x7000:01 `rollback_floor_fw` (Table 16.10). -/
abbrev oRollbackFloorFw : Nat := 0x700001

/-- 0x7000:02 `rollback_floor_hub` (Table 16.10). -/
abbrev oRollbackFloorHub : Nat := 0x700002

/-- 0x7000:03 `rollback_raise` (Table 16.10). -/
abbrev oRollbackRaise : Nat := 0x700003

/-- 0x7000:04 `boot_slots` (Table 16.10). -/
abbrev oBootSlots : Nat := 0x700004

/-- 0x7000:05 `cert_chain_rsa` (Table 16.10). -/
abbrev oCertChainRsa : Nat := 0x700005

/-- 0x7000:06 `cert_chain_slh` (Table 16.10). -/
abbrev oCertChainSlh : Nat := 0x700006

/-- 0x7000:07 `rsa_ready` (Table 16.10). -/
abbrev oRsaReady : Nat := 0x700007

/-- 0x7001:01 `measurement_1` (Table 16.10). -/
abbrev oMeasurement1 : Nat := 0x700101

/-- 0x7001:02 `measurement_2` (Table 16.10). -/
abbrev oMeasurement2 : Nat := 0x700102

/-- 0x7001:03 `measurement_3` (Table 16.10). -/
abbrev oMeasurement3 : Nat := 0x700103

/-- 0x7001:04 `measurement_4` (Table 16.10). -/
abbrev oMeasurement4 : Nat := 0x700104

/-- 0x7001:05 `measurement_5` (Table 16.10). -/
abbrev oMeasurement5 : Nat := 0x700105

/-- 0x7001:06 `measurement_6` (Table 16.10). -/
abbrev oMeasurement6 : Nat := 0x700106

/-- 0x7010:01 `mgmt_secure_mode` (Table 16.10). -/
abbrev oMgmtSecureMode : Nat := 0x701001

/-- 0x7010:02 `host_ide_required` (Table 16.10). -/
abbrev oHostIdeRequired : Nat := 0x701002

/-- 0x7020:01 `link_rekey_flits_log2` (Table 16.10). -/
abbrev oLinkRekeyFlitsLog2 : Nat := 0x702001

/-- 0x7020:02 `peer_policy` (Table 16.10). -/
abbrev oPeerPolicy : Nat := 0x702002

/-- 0x7030:01 `far_trusted_digest_h0` (Table 16.10). -/
abbrev oFarTrustedDigestH0 : Nat := 0x703001

/-- 0x7030:02 `far_trusted_digest_h1` (Table 16.10). -/
abbrev oFarTrustedDigestH1 : Nat := 0x703002

/-- 0x7030:03 `far_trusted_digest_h2` (Table 16.10). -/
abbrev oFarTrustedDigestH2 : Nat := 0x703003

/-- 0x7030:04 `far_trusted_digest_h3` (Table 16.10). -/
abbrev oFarTrustedDigestH3 : Nat := 0x703004

/-- 0x7031:01 `far_cert_digest_h0` (Table 16.10). -/
abbrev oFarCertDigestH0 : Nat := 0x703101

/-- 0x7031:02 `far_cert_digest_h1` (Table 16.10). -/
abbrev oFarCertDigestH1 : Nat := 0x703102

/-- 0x7031:03 `far_cert_digest_h2` (Table 16.10). -/
abbrev oFarCertDigestH2 : Nat := 0x703103

/-- 0x7031:04 `far_cert_digest_h3` (Table 16.10). -/
abbrev oFarCertDigestH3 : Nat := 0x703104

/-- 0x7040:01 `spdm_sessions` (Table 16.10). -/
abbrev oSpdmSessions : Nat := 0x704001

/-- 0x7040:02 `spdm_failures` (Table 16.10). -/
abbrev oSpdmFailures : Nat := 0x704002

/-- 0x7100:01 `table_state` (Table 16.10). -/
abbrev oTableState : Nat := 0x710001

/-- 0x7100:02 `table_unlock` (Table 16.10). -/
abbrev oTableUnlock : Nat := 0x710002

/-- 0x7100:03 `table_refuse_code` (Table 16.10). -/
abbrev oTableRefuseCode : Nat := 0x710003

/-- 0x7100:04 `table_digest` (Table 16.10). -/
abbrev oTableDigest : Nat := 0x710004

/-- 0x7100:05 `denied_count` (Table 16.10). -/
abbrev oDeniedCount : Nat := 0x710005

/-- 0x7110:01 `table_image` (Table 16.10). -/
abbrev oTableImage : Nat := 0x711001

/-- 0x1800:01 `otp_serial` (Table 17.9). -/
abbrev oOtpSerial : Nat := 0x180001

/-- 0x1800:02 `otp_mac_m0` (Table 17.9). -/
abbrev oOtpMacM0 : Nat := 0x180002

/-- 0x1800:03 `otp_mac_m1` (Table 17.9). -/
abbrev oOtpMacM1 : Nat := 0x180003

/-- 0x1800:04 `otp_subsystem` (Table 17.9). -/
abbrev oOtpSubsystem : Nat := 0x180004

/-- 0x1800:05 `vcore_setpoint_mv` (Table 17.9). -/
abbrev oVcoreSetpointMv : Nat := 0x180005

/-- 0x1800:06 `otp_floor_fw` (Table 17.9). -/
abbrev oOtpFloorFw : Nat := 0x180006

/-- 0x1800:07 `otp_floor_hub` (Table 17.9). -/
abbrev oOtpFloorHub : Nat := 0x180007

/-- 0x1800:08 `otp_generations` (Table 17.9). -/
abbrev oOtpGenerations : Nat := 0x180008

/-- 0x1810:01 `reach_table` (Table 17.9). -/
abbrev oReachTable : Nat := 0x181001

/-- 0x8000:01 `reset_request` (Table 17.9). -/
abbrev oResetRequest : Nat := 0x800001

/-- 0x8000:02 `reset_cause` (Table 17.9). -/
abbrev oResetCause : Nat := 0x800002

/-- 0x8000:03 `reset_count` (Table 17.9). -/
abbrev oResetCount : Nat := 0x800003

/-- 0x8000:04 `dawn_phase` (Table 17.9). -/
abbrev oDawnPhase : Nat := 0x800004

/-- 0x8000:05 `dawn_ms` (Table 17.9). -/
abbrev oDawnMs : Nat := 0x800005

/-- 0x8000:06 `selftest_failed_tiles` (Table 17.9). -/
abbrev oSelftestFailedTiles : Nat := 0x800006

/-- 0x8000:07 `selftest_first_tile` (Table 17.9). -/
abbrev oSelftestFirstTile : Nat := 0x800007

/-- 0x8001:01 `tile_reset` (Table 17.9). -/
abbrev oTileReset : Nat := 0x800101

/-- 0x8001:02 `port_reset` (Table 17.9). -/
abbrev oPortReset : Nat := 0x800102

/-- 0x8002:01 `watchdog_ms` (Table 17.9). -/
abbrev oWatchdogMs : Nat := 0x800201

/-- 0x8010:01 `reach_program` (Table 17.9). -/
abbrev oReachProgram : Nat := 0x801001

/-- 0x8020:01 `firmware_push` (Table 17.9). -/
abbrev oFirmwarePush : Nat := 0x802001

/-- 0x8020:02 `push_status` (Table 17.9). -/
abbrev oPushStatus : Nat := 0x802002

/-- 0x8030:01 `power_ceiling_w` (Table 17.9). -/
abbrev oPowerCeilingW : Nat := 0x803001

/-- 0x8100:01 `package_power_w` (Table 17.9). -/
abbrev oPackagePowerW : Nat := 0x810001

/-- 0x8100:02 `vcore_current_a` (Table 17.9). -/
abbrev oVcoreCurrentA : Nat := 0x810002

/-- 0x8100:03 `vcore_mv` (Table 17.9). -/
abbrev oVcoreMv : Nat := 0x810003

/-- 0x8100:04 `noon_cap` (Table 17.9). -/
abbrev oNoonCap : Nat := 0x810004

/-- 0x8100:05 `noon_ticks` (Table 17.9). -/
abbrev oNoonTicks : Nat := 0x810005

/-- 0x8100:06 `temp_max` (Table 17.9). -/
abbrev oTempMax : Nat := 0x810006

/-- 0x8100:07 `regulator_faults` (Table 17.9). -/
abbrev oRegulatorFaults : Nat := 0x810007

/-- 0x8101:01 `temperatures` (Table 17.9). -/
abbrev oTemperatures : Nat := 0x810101

/-- 0x8110:01 `thermal_warn_c` (Table 17.9). -/
abbrev oThermalWarnC : Nat := 0x811001


/-- Objects of Table 2.1. -/
def objs2_1p0 : List ObjDef := [
  ⟨0x2000, 0x01, .u64, .ro, 8, 0⟩,
  ⟨0x2000, 0x02, .u32, .ro, 4, 0⟩,
  ⟨0x2000, 0x03, .i32, .ro, 4, 0⟩,
  ⟨0x2000, 0x04, .u64, .ro, 8, 0⟩,
  ⟨0x2000, 0x05, .u64, .ro, 8, 0⟩,
  ⟨0x2000, 0x06, .u8, .ro, 1, 0⟩,
  ⟨0x2000, 0x07, .u64, .ro, 8, 0⟩,
  ⟨0x2000, 0x08, .u64, .ro, 8, 0⟩,
  ⟨0x2000, 0x09, .u16, .ro, 2, 0⟩,
  ⟨0x2000, 0x0A, .u32, .ro, 4, 0⟩,
  ⟨0x2010, 0x01, .u8, .staged, 1, 0⟩,
  ⟨0x2010, 0x02, .u64, .staged, 8, 0⟩,
  ⟨0x2010, 0x03, .u8, .staged, 1, 12⟩,
  ⟨0x2010, 0x04, .u32, .staged, 4, 0⟩,
  ⟨0x2010, 0xFF, .u8, .wo, 1, 0⟩,
  ⟨0x2020, 0x01, .u64, .staged, 8, 0⟩,
  ⟨0x2020, 0x02, .u32, .staged, 4, 0⟩,
  ⟨0x2020, 0x03, .u32, .staged, 4, 0⟩,
  ⟨0x2020, 0x04, .u8, .staged, 1, 0⟩,
  ⟨0x2020, 0xFF, .u8, .wo, 1, 0⟩,
  ⟨0x2021, 0x01, .u64, .ro, 8, 0⟩,
  ⟨0x2021, 0x02, .u32, .ro, 4, 0⟩,
  ⟨0x2021, 0x03, .u32, .ro, 4, 0⟩,
  ⟨0x2030, 0x01, .domain, .ro, 16384, 0⟩]

/-- Objects of Table 2.1. -/
def objs2_1p1 : List ObjDef := [
  ⟨0x2040, 0x01, .domain, .staged, 510, 0⟩,
  ⟨0x2040, 0x02, .domain, .ro, 510, 0⟩,
  ⟨0x2040, 0xFF, .u8, .wo, 1, 0⟩,
  ⟨0x2050, 0x01, .u16, .staged, 2, 0⟩,
  ⟨0x2050, 0x02, .u64, .staged, 8, 0⟩,
  ⟨0x2050, 0xFF, .u8, .wo, 1, 0⟩]

/-- Objects of Table 3.10. -/
def objs3_10p0 : List ObjDef := [
  ⟨0x2601, 0x01, .u8, .ro, 1, 0⟩,
  ⟨0x2601, 0x02, .u8, .wo, 1, 0⟩,
  ⟨0x2601, 0x03, .domain, .ro, 256, 0⟩,
  ⟨0x2601, 0x04, .u64, .ro, 8, 0⟩]

/-- Objects of Table 4.7. -/
def objs4_7p0 : List ObjDef := [
  ⟨0x2200, 0x01, .u64, .ro, 8, 0⟩,
  ⟨0x2200, 0x02, .u64, .ro, 8, 0⟩,
  ⟨0x2200, 0x03, .u64, .ro, 8, 0⟩,
  ⟨0x2200, 0x04, .u64, .ro, 8, 0⟩,
  ⟨0x2200, 0x05, .u64, .ro, 8, 0⟩,
  ⟨0x2200, 0x06, .u64, .ro, 8, 0⟩,
  ⟨0x2200, 0x07, .u64, .ro, 8, 0⟩,
  ⟨0x2200, 0x08, .u64, .ro, 8, 0⟩,
  ⟨0x2200, 0x09, .u8, .const, 1, 2⟩,
  ⟨0x2200, 0x0A, .u8, .const, 1, 4⟩]

/-- Objects of Table 5.10. -/
def objs5_10p0 : List ObjDef := [
  ⟨0x2300, 0x01, .u64, .ro, 8, 0⟩,
  ⟨0x2300, 0x02, .u64, .ro, 8, 0⟩,
  ⟨0x2300, 0x03, .u64, .ro, 8, 0⟩,
  ⟨0x2300, 0x04, .u64, .ro, 8, 0⟩,
  ⟨0x2300, 0x05, .u32, .const, 4, 32768⟩,
  ⟨0x2300, 0x06, .u8, .const, 1, 16⟩,
  ⟨0x2310, 0x01, .domain, .staged, 6208, 0⟩,
  ⟨0x2310, 0x02, .domain, .staged, 6208, 0⟩,
  ⟨0x2310, 0x03, .domain, .staged, 6208, 0⟩,
  ⟨0x2310, 0x04, .domain, .staged, 6208, 0⟩,
  ⟨0x2310, 0x05, .domain, .staged, 6208, 0⟩,
  ⟨0x2310, 0x06, .domain, .staged, 6208, 0⟩,
  ⟨0x2310, 0x07, .domain, .staged, 6208, 0⟩,
  ⟨0x2310, 0x08, .domain, .staged, 6208, 0⟩,
  ⟨0x2310, 0xFF, .u8, .wo, 1, 0⟩,
  ⟨0x2311, 0x01, .domain, .const, 6208, fixedSlot 0⟩,
  ⟨0x2311, 0x02, .domain, .const, 6208, fixedSlot 1⟩,
  ⟨0x2311, 0x03, .domain, .const, 6208, fixedSlot 2⟩,
  ⟨0x2311, 0x04, .domain, .const, 6208, fixedSlot 3⟩,
  ⟨0x2311, 0x05, .domain, .const, 6208, fixedSlot 4⟩,
  ⟨0x2311, 0x06, .domain, .const, 6208, fixedSlot 5⟩,
  ⟨0x2311, 0x07, .domain, .const, 6208, fixedSlot 6⟩,
  ⟨0x2311, 0x08, .domain, .const, 6208, fixedSlot 7⟩]

/-- Objects of Table 6.6. -/
def objs6_6p0 : List ObjDef := [
  ⟨0x2180, 0x01, .u64, .wo, 8, 0⟩,
  ⟨0x2180, 0x02, .u32, .ro, 4, 0⟩,
  ⟨0x2180, 0x03, .u64, .ro, 8, 0⟩,
  ⟨0x2180, 0x04, .u64, .ro, 8, 0⟩,
  ⟨0x2180, 0x05, .u64, .ro, 8, 0⟩,
  ⟨0x2480, 0x01, .u64, .ro, 8, 0⟩,
  ⟨0x2480, 0x02, .u64, .ro, 8, 0⟩]

/-- Objects of Table 7.12. -/
def objs7_12p0 : List ObjDef := [
  ⟨0x2400, 0x01, .u64, .ro, 8, 0⟩,
  ⟨0x2400, 0x02, .u64, .ro, 8, 0⟩,
  ⟨0x2400, 0x03, .u64, .ro, 8, 0⟩,
  ⟨0x2400, 0x04, .u64, .ro, 8, 0⟩,
  ⟨0x2400, 0x05, .u64, .ro, 8, 0⟩,
  ⟨0x2400, 0x06, .u64, .ro, 8, 0⟩,
  ⟨0x2400, 0x07, .u64, .ro, 8, 0⟩,
  ⟨0x2400, 0x08, .u64, .ro, 8, 0⟩,
  ⟨0x2400, 0x09, .u64, .ro, 8, 0⟩,
  ⟨0x2410, 0x01, .u32, .staged, 4, 2048⟩,
  ⟨0x2410, 0x02, .u16, .staged, 2, 655⟩,
  ⟨0x2410, 0x03, .u32, .staged, 4, 64⟩,
  ⟨0x2410, 0xFF, .u8, .wo, 1, 0⟩,
  ⟨0x2420, 0x01, .domain, .staged, 512, 0⟩,
  ⟨0x2420, 0xFF, .u8, .wo, 1, 0⟩,
  ⟨0x3100, 0x01, .u32, .ro, 4, 0⟩,
  ⟨0x3100, 0x02, .u64, .ro, 8, 0⟩,
  ⟨0x3100, 0x03, .u64, .ro, 8, 0⟩,
  ⟨0x3100, 0x04, .u64, .ro, 8, 0⟩,
  ⟨0x3110, 0x01, .u8, .staged, 1, 0⟩,
  ⟨0x3110, 0x02, .u64, .staged, 8, 0⟩,
  ⟨0x3110, 0x03, .u64, .staged, 8, 0⟩,
  ⟨0x3110, 0xFF, .u8, .wo, 1, 0⟩]

/-- Objects of Table 8.9. -/
def objs8_9p0 : List ObjDef := [
  ⟨0x2200, 0x0B, .u64, .ro, 8, 0⟩,
  ⟨0x2200, 0x0C, .u64, .ro, 8, 0⟩,
  ⟨0x2210, 0x01, .domain, .staged, 128, 2 ^ 1024 - 1⟩,
  ⟨0x2210, 0xFF, .u8, .wo, 1, 0⟩,
  ⟨0x2500, 0x01, .u64, .ro, 8, 0⟩,
  ⟨0x2500, 0x02, .u64, .ro, 8, 0⟩,
  ⟨0x2500, 0x03, .u64, .ro, 8, 0⟩,
  ⟨0x2500, 0x04, .u8, .const, 1, 32⟩,
  ⟨0x2500, 0x05, .u16, .const, 2, 4096⟩,
  ⟨0x2500, 0x06, .u16, .const, 2, 256⟩]

/-- Objects of Table 9.11. -/
def objs9_11p0 : List ObjDef := [
  ⟨0x2600, 0x01, .u64, .ro, 8, 0⟩,
  ⟨0x2600, 0x02, .u64, .ro, 8, 0⟩,
  ⟨0x2600, 0x03, .u64, .ro, 8, 0⟩,
  ⟨0x2600, 0x04, .u64, .ro, 8, 0⟩,
  ⟨0x2600, 0x05, .u64, .ro, 8, 0⟩,
  ⟨0x2600, 0x06, .u64, .ro, 8, 0⟩,
  ⟨0x2610, 0x01, .octets, .staged, 16, 0⟩,
  ⟨0x2610, 0x02, .domain, .staged, 34112, counterImages⟩,
  ⟨0x2610, 0x03, .u16, .const, 2, 2132⟩,
  ⟨0x2610, 0xFF, .u8, .wo, 1, 0⟩,
  ⟨0x2620, 0x01, .u8, .staged, 1, 10⟩,
  ⟨0x2620, 0x02, .r32, .staged, 4, 0x3D800000⟩,
  ⟨0x2620, 0x03, .u32, .staged, 4, 256⟩,
  ⟨0x2620, 0x04, .bool, .staged, 1, 0⟩,
  ⟨0x2620, 0x05, .domain, .ro, 512, 0⟩,
  ⟨0x2620, 0xFF, .u8, .wo, 1, 0⟩,
  ⟨0x2630, 0x01, .u32, .staged, 4, 4096⟩,
  ⟨0x2630, 0x02, .u8, .staged, 1, 0⟩,
  ⟨0x2630, 0xFF, .u8, .wo, 1, 0⟩]

/-- Objects of Table 10.16. -/
def objs10_16p0 : List ObjDef := [
  ⟨0x2100, 0x01, .u32, .ro, 4, 0⟩,
  ⟨0x2100, 0x02, .u32, .ro, 4, 1310200⟩,
  ⟨0x2100, 0x03, .u32, .ro, 4, 0⟩,
  ⟨0x2100, 0x04, .u64, .ro, 8, 0⟩,
  ⟨0x2100, 0x05, .u64, .ro, 8, 0⟩,
  ⟨0x2100, 0x06, .u64, .ro, 8, 0⟩,
  ⟨0x2100, 0x07, .u64, .ro, 8, 0⟩,
  ⟨0x2100, 0x08, .u8, .ro, 1, 0⟩,
  ⟨0x2100, 0x09, .u64, .ro, 8, 0⟩,
  ⟨0x2100, 0x0A, .u64, .ro, 8, 0⟩,
  ⟨0x2100, 0x0B, .u64, .ro, 8, 0⟩,
  ⟨0x2100, 0x0C, .u64, .ro, 8, 0⟩,
  ⟨0x2100, 0x0D, .u64, .ro, 8, 0⟩,
  ⟨0x2101, 0x01, .octets, .wo, 16, 0⟩,
  ⟨0x2101, 0x02, .octets, .ro, 16, 0⟩,
  ⟨0x2102, 0x01, .u64, .wo, 8, 0⟩,
  ⟨0x2102, 0x02, .u64, .ro, 8, 0⟩,
  ⟨0x2110, 0x01, .u32, .staged, 4, 64⟩,
  ⟨0x2110, 0x02, .u16, .staged, 2, 256⟩,
  ⟨0x2110, 0x03, .u8, .staged, 1, 2⟩,
  ⟨0x2110, 0x04, .u8, .staged, 1, 16⟩,
  ⟨0x2110, 0xFF, .u8, .wo, 1, 0⟩,
  ⟨0x3000, 0x01, .u64, .ro, 8, 0⟩,
  ⟨0x3000, 0x02, .u64, .ro, 8, 0⟩]

/-- Objects of Table 10.16. -/
def objs10_16p1 : List ObjDef := [
  ⟨0x3000, 0x03, .u64, .ro, 8, 0⟩,
  ⟨0x3000, 0x04, .u64, .ro, 8, 0⟩,
  ⟨0x3000, 0x05, .u32, .ro, 4, 0⟩,
  ⟨0x3000, 0x06, .i32, .ro, 4, 0⟩,
  ⟨0x3010, 0x01, .u64, .ro, 8, 0⟩,
  ⟨0x3010, 0x02, .u64, .ro, 8, 0⟩,
  ⟨0x3010, 0x03, .u64, .ro, 8, 0⟩,
  ⟨0x3020, 0x01, .u16, .staged, 2, 24⟩,
  ⟨0x3020, 0xFF, .u8, .wo, 1, 0⟩,
  ⟨0x3101, 0x01, .u64, .ro, 8, 0⟩,
  ⟨0x3101, 0x02, .u64, .ro, 8, 0⟩,
  ⟨0x3101, 0x03, .u64, .ro, 8, 0⟩,
  ⟨0x3101, 0x04, .u64, .ro, 8, 0⟩,
  ⟨0x3101, 0x05, .u64, .ro, 8, 0⟩]

/-- Objects of Table 11.13. -/
def objs11_13p0 : List ObjDef := [
  ⟨0x4000, 0x01, .u32, .ro, 4, 0⟩,
  ⟨0x4000, 0x02, .u16, .ro, 2, 0⟩,
  ⟨0x4000, 0x03, .u8, .ro, 1, 0⟩,
  ⟨0x4000, 0x04, .u8, .ro, 1, 0xFF⟩,
  ⟨0x4000, 0x05, .u64, .ro, 8, 0⟩,
  ⟨0x4000, 0x06, .u64, .ro, 8, 0⟩,
  ⟨0x4000, 0x07, .u64, .ro, 8, 0⟩,
  ⟨0x4000, 0x08, .u64, .ro, 8, 0⟩,
  ⟨0x4000, 0x09, .u64, .ro, 8, 0⟩,
  ⟨0x4000, 0x0A, .u64, .ro, 8, 0⟩,
  ⟨0x4001, 0x01, .u32, .staged, 4, 0xFFFFFFFF⟩,
  ⟨0x4001, 0x02, .domain, .staged, 32, bytesEach 32 0x07⟩,
  ⟨0x4001, 0x03, .u16, .staged, 2, 100⟩,
  ⟨0x4001, 0xFF, .u8, .wo, 1, 0⟩,
  ⟨0x4100, 0x01, .u16, .ro, 2, 0⟩,
  ⟨0x4100, 0x02, .u32, .ro, 4, 1⟩,
  ⟨0x4100, 0x03, .domain, .ro, 262144, 0⟩,
  ⟨0x4110, 0x01, .u16, .staged, 2, 0⟩,
  ⟨0x4110, 0x02, .u32, .staged, 4, 1⟩,
  ⟨0x4110, 0x03, .domain, .staged, 262144, 0⟩,
  ⟨0x4110, 0x04, .u64, .staged, 8, 0⟩,
  ⟨0x4110, 0xFF, .u8, .wo, 1, 0⟩,
  ⟨0x4120, 0x01, .octets, .staged, 16, 0⟩,
  ⟨0x4120, 0x02, .octets, .staged, 16, 0⟩]

/-- Objects of Table 11.13. -/
def objs11_13p1 : List ObjDef := [
  ⟨0x4120, 0x03, .octets, .staged, 16, 0⟩,
  ⟨0x4120, 0x04, .octets, .staged, 16, 0⟩,
  ⟨0x4120, 0x05, .octets, .staged, 16, 0⟩,
  ⟨0x4120, 0x06, .octets, .staged, 16, 0⟩,
  ⟨0x4120, 0x07, .u32, .staged, 4, 0⟩,
  ⟨0x4120, 0xFF, .u8, .wo, 1, 0⟩]

/-- Objects of fabric port `p` (Table 11.13). -/
def objs11_13port (p : Nat) : List ObjDef := [
  ⟨0x4010 + p, 0x01, .u8, .ro, 1, 0x01⟩,
  ⟨0x4010 + p, 0x02, .u8, .ro, 1, 0⟩,
  ⟨0x4010 + p, 0x03, .u16, .ro, 2, 0⟩,
  ⟨0x4010 + p, 0x04, .u8, .ro, 1, 0⟩,
  ⟨0x4010 + p, 0x05, .u8, .ro, 1, 0⟩,
  ⟨0x4010 + p, 0x06, .u32, .ro, 4, 0⟩,
  ⟨0x4010 + p, 0x07, .u64, .ro, 8, 0⟩,
  ⟨0x4010 + p, 0x08, .u64, .ro, 8, 0⟩,
  ⟨0x4010 + p, 0x09, .u64, .ro, 8, 0⟩,
  ⟨0x4010 + p, 0x0A, .u64, .ro, 8, 0⟩,
  ⟨0x4010 + p, 0x0B, .u64, .ro, 8, 0⟩,
  ⟨0x4010 + p, 0x0C, .u64, .ro, 8, 0⟩,
  ⟨0x4010 + p, 0x0D, .u32, .ro, 4, 0⟩]

/-- Objects of Table 12.12. -/
def objs12_12p0 : List ObjDef := [
  ⟨0x4200, 0x01, .u64, .ro, 8, 0⟩,
  ⟨0x4200, 0x02, .u64, .ro, 8, 0⟩,
  ⟨0x4200, 0x03, .u64, .ro, 8, 0⟩,
  ⟨0x4200, 0x04, .u64, .ro, 8, 0⟩,
  ⟨0x4200, 0x05, .u64, .ro, 8, 0⟩,
  ⟨0x4200, 0x06, .u64, .ro, 8, 0⟩,
  ⟨0x4200, 0x07, .bool, .ro, 1, 0⟩,
  ⟨0x4200, 0x08, .u64, .ro, 8, 0⟩,
  ⟨0x4200, 0x09, .u64, .ro, 8, 0⟩,
  ⟨0x4200, 0x0A, .u16, .const, 2, 16384⟩,
  ⟨0x4201, 0x01, .r64, .ro, 8, 0⟩,
  ⟨0x4201, 0x02, .r64, .ro, 8, 0⟩,
  ⟨0x4201, 0x03, .r64, .ro, 8, 0⟩,
  ⟨0x4201, 0x04, .u64, .ro, 8, 0⟩,
  ⟨0x4202, 0x01, .u32, .staged, 4, 1⟩,
  ⟨0x4202, 0x02, .u32, .staged, 4, 1⟩,
  ⟨0x4202, 0x03, .u8, .staged, 1, 2⟩,
  ⟨0x4202, 0xFF, .u8, .wo, 1, 0⟩,
  ⟨0x4210, 0x01, .bool, .staged, 1, 0⟩,
  ⟨0x4210, 0x02, .u8, .staged, 1, 0⟩,
  ⟨0x4210, 0x03, .u64, .staged, 8, 0⟩,
  ⟨0x4210, 0x04, .domain, .staged, 256, 0⟩,
  ⟨0x4210, 0xFF, .u8, .wo, 1, 0⟩,
  ⟨0x4211, 0x01, .u8, .ro, 1, 0⟩]

/-- Objects of Table 12.12. -/
def objs12_12p1 : List ObjDef := [
  ⟨0x4211, 0x02, .u32, .ro, 4, 0⟩]

/-- Objects of Table 13.9. -/
def objs13_9p0 : List ObjDef := [
  ⟨0x5000, 0x01, .u64, .ro, 8, 0⟩,
  ⟨0x5000, 0x02, .u64, .ro, 8, 0⟩,
  ⟨0x5000, 0x03, .u8, .ro, 1, 0x00⟩,
  ⟨0x5000, 0x04, .u64, .ro, 8, 0⟩,
  ⟨0x5000, 0x05, .u64, .ro, 8, 0⟩,
  ⟨0x5000, 0x06, .u64, .ro, 8, 0⟩,
  ⟨0x5000, 0x07, .u64, .ro, 8, 0⟩,
  ⟨0x5000, 0x08, .u64, .ro, 8, 0⟩,
  ⟨0x5000, 0x09, .u64, .ro, 8, 0⟩,
  ⟨0x5000, 0x0A, .u64, .ro, 8, 0⟩,
  ⟨0x5000, 0x0B, .u32, .ro, 4, 0⟩,
  ⟨0x5000, 0x0C, .u64, .ro, 8, 0⟩,
  ⟨0x5000, 0x0D, .u8, .ro, 1, 0x00⟩,
  ⟨0x5000, 0x0E, .r32, .ro, 4, 0⟩,
  ⟨0x5001, 0x01, .domain, .ro, 256, 0⟩,
  ⟨0x5001, 0x02, .domain, .ro, 256, 0⟩,
  ⟨0x5001, 0x03, .domain, .ro, 256, 0⟩,
  ⟨0x5001, 0x04, .domain, .ro, 256, 0⟩,
  ⟨0x5002, 0x01, .octets, .ro, 32, 0⟩,
  ⟨0x5010, 0x01, .u16, .staged, 2, 0⟩,
  ⟨0x5010, 0x02, .u32, .staged, 4, 0xC0000000⟩,
  ⟨0x5010, 0x03, .u64, .staged, 8, 0⟩,
  ⟨0x5010, 0x04, .u64, .staged, 8, 274877906944⟩,
  ⟨0x5010, 0x05, .u64, .staged, 8, 0⟩]

/-- Objects of Table 13.9. -/
def objs13_9p1 : List ObjDef := [
  ⟨0x5010, 0x06, .u16, .staged, 2, 4⟩,
  ⟨0x5010, 0x07, .u32, .staged, 4, 256⟩,
  ⟨0x5010, 0x08, .u32, .staged, 4, 0⟩,
  ⟨0x5010, 0x09, .bool, .staged, 1, 0⟩,
  ⟨0x5010, 0xFF, .u8, .wo, 1, 0⟩,
  ⟨0x5020, 0x01, .u8, .staged, 1, 0⟩,
  ⟨0x5020, 0x02, .u16, .staged, 2, 16⟩,
  ⟨0x5020, 0x03, .u8, .staged, 1, 0⟩,
  ⟨0x5020, 0x04, .u64, .staged, 8, 0⟩,
  ⟨0x5020, 0x05, .u64, .staged, 8, 0⟩,
  ⟨0x5020, 0xFF, .u8, .wo, 1, 0⟩,
  ⟨0x5030, 0x01, .u8, .staged, 1, 0⟩,
  ⟨0x5030, 0x02, .u8, .staged, 1, 0⟩,
  ⟨0x5030, 0x03, .bool, .staged, 1, 1⟩,
  ⟨0x5030, 0xFF, .u8, .wo, 1, 0⟩,
  ⟨0x5040, 0x01, .u8, .wo, 1, 0⟩]

/-- Objects of Table 14.13. -/
def objs14_13p0 : List ObjDef := [
  ⟨0x1000, 0x01, .str, .const, 16, asciiLe "Knafoun"⟩,
  ⟨0x1000, 0x02, .str, .const, 16, asciiLe "Lamsetha Gheat"⟩,
  ⟨0x1000, 0x03, .str, .const, 16, asciiLe "LG2048"⟩,
  ⟨0x1000, 0x04, .u8, .const, 1, 0xA1⟩,
  ⟨0x1000, 0x05, .u64, .const, 8, Config.serial⟩,
  ⟨0x1000, 0x06, .u16, .const, 2, 0x0100⟩,
  ⟨0x1001, 0x01, .u32, .ro, 4, 0⟩,
  ⟨0x1002, 0x01, .u8, .const, 1, 0x07⟩,
  ⟨0x1002, 0x02, .u8, .const, 1, 0x07⟩,
  ⟨0x1100, 0x01, .octets, .const, 6, Config.mac0⟩,
  ⟨0x1100, 0x02, .octets, .const, 6, Config.mac1⟩,
  ⟨0x1100, 0x03, .u8, .ro, 1, 0⟩,
  ⟨0x1100, 0x04, .u64, .ro, 8, 0⟩,
  ⟨0x1100, 0x05, .u64, .ro, 8, 0⟩,
  ⟨0x1100, 0x06, .u64, .ro, 8, 0⟩,
  ⟨0x1100, 0x07, .u64, .ro, 8, 0⟩,
  ⟨0x1100, 0x08, .bool, .ro, 1, 0⟩,
  ⟨0x1100, 0x09, .u64, .ro, 8, 0⟩,
  ⟨0x1110, 0x01, .u8, .staged, 1, 255⟩,
  ⟨0x1110, 0x02, .u8, .staged, 1, 255⟩,
  ⟨0x1110, 0x03, .u8, .staged, 1, 8⟩,
  ⟨0x1110, 0x04, .u8, .staged, 1, 32⟩,
  ⟨0x1110, 0x05, .octets, .staged, 6, 0⟩,
  ⟨0x1110, 0x06, .u8, .staged, 1, 2⟩]

/-- Objects of Table 14.13. -/
def objs14_13p1 : List ObjDef := [
  ⟨0x1110, 0x07, .u16, .staged, 2, 20⟩,
  ⟨0x1110, 0x08, .u8, .staged, 1, 8⟩,
  ⟨0x1110, 0xFF, .u8, .wo, 1, 0⟩,
  ⟨0x9000, 0x01, .domain, .ro, 262144, 0⟩,
  ⟨0x9000, 0x02, .u64, .ro, 8, 0⟩,
  ⟨0x9000, 0x03, .u64, .ro, 8, 0⟩,
  ⟨0x9000, 0x04, .u64, .ro, 8, 0⟩,
  ⟨0x9000, 0x05, .domain, .ro, 320, 0⟩,
  ⟨0x9001, 0x01, .u32, .ro, 4, 0⟩,
  ⟨0x9001, 0x02, .u64, .ro, 8, 0⟩,
  ⟨0x9010, 0x01, .u16, .staged, 2, 0x03FF⟩,
  ⟨0x9010, 0xFF, .u8, .wo, 1, 0⟩]

/-- Objects of Table 15.8. -/
def objs15_8p0 : List ObjDef := [
  ⟨0x6000, 0x01, .u16, .const, 2, 0x1F4E⟩,
  ⟨0x6000, 0x02, .u16, .const, 2, Config.subVendor⟩,
  ⟨0x6000, 0x03, .u16, .const, 2, Config.subId⟩,
  ⟨0x6000, 0x04, .u8, .ro, 1, 0x01⟩,
  ⟨0x6000, 0x05, .u8, .ro, 1, 0⟩,
  ⟨0x6000, 0x06, .u8, .ro, 1, 0⟩,
  ⟨0x6000, 0x07, .u64, .ro, 8, 0⟩,
  ⟨0x6000, 0x08, .u64, .ro, 8, 0⟩,
  ⟨0x6000, 0x09, .u8, .ro, 1, 36⟩,
  ⟨0x6000, 0x0A, .u64, .ro, 8, 0⟩,
  ⟨0x6000, 0x0B, .u64, .ro, 8, 0⟩,
  ⟨0x6010, 0x01, .u64, .staged, 8, 0⟩,
  ⟨0x6010, 0x02, .u64, .staged, 8, 0⟩,
  ⟨0x6010, 0x03, .u64, .staged, 8, 0⟩,
  ⟨0x6010, 0xFF, .u8, .wo, 1, 0⟩,
  ⟨0x6020, 0x01, .u64, .staged, 8, 0x7FFE⟩,
  ⟨0x6020, 0xFF, .u8, .wo, 1, 0⟩,
  ⟨0x3200, 0x01, .u32, .ro, 4, 0x01010101⟩,
  ⟨0x3200, 0x02, .u64, .ro, 8, 0⟩,
  ⟨0x3200, 0x03, .u64, .ro, 8, 0⟩,
  ⟨0x3200, 0x04, .u64, .ro, 8, 0⟩,
  ⟨0x3200, 0x05, .u64, .ro, 8, 0⟩,
  ⟨0x3200, 0x06, .u64, .ro, 8, 0⟩,
  ⟨0x3200, 0x07, .u64, .ro, 8, 0⟩]

/-- Objects of Table 15.8. -/
def objs15_8p1 : List ObjDef := [
  ⟨0x3200, 0x08, .u32, .ro, 4, 0⟩,
  ⟨0x3200, 0x09, .u64, .ro, 8, 0⟩,
  ⟨0x3200, 0x0A, .u64, .ro, 8, 0⟩,
  ⟨0x3210, 0x01, .bool, .staged, 1, 0⟩,
  ⟨0x3210, 0xFF, .u8, .wo, 1, 0⟩]

/-- Objects of Table 16.10. -/
def objs16_10p0 : List ObjDef := [
  ⟨0x7000, 0x01, .u16, .ro, 2, Config.otpFloorFw.toNat⟩,
  ⟨0x7000, 0x02, .u16, .ro, 2, Config.otpFloorHub.toNat⟩,
  ⟨0x7000, 0x03, .u8, .wo, 1, 0⟩,
  ⟨0x7000, 0x04, .u8, .ro, 1, 0⟩,
  ⟨0x7000, 0x05, .domain, .ro, 8192, ofLe (Config.flashChain 0)⟩,
  ⟨0x7000, 0x06, .domain, .ro, 65536, ofLe (Config.flashChain 1)⟩,
  ⟨0x7000, 0x07, .bool, .ro, 1, 0⟩,
  ⟨0x7001, 0x01, .octets, .ro, 48, 0⟩,
  ⟨0x7001, 0x02, .octets, .ro, 48, 0⟩,
  ⟨0x7001, 0x03, .octets, .ro, 48, 0⟩,
  ⟨0x7001, 0x04, .octets, .ro, 48, 0⟩,
  ⟨0x7001, 0x05, .octets, .ro, 48, 0⟩,
  ⟨0x7001, 0x06, .octets, .ro, 48, 0⟩,
  ⟨0x7010, 0x01, .u8, .staged, 1, 0⟩,
  ⟨0x7010, 0x02, .bool, .staged, 1, 0⟩,
  ⟨0x7010, 0xFF, .u8, .wo, 1, 0⟩,
  ⟨0x7020, 0x01, .u8, .staged, 1, 36⟩,
  ⟨0x7020, 0x02, .u8, .staged, 1, 0⟩,
  ⟨0x7020, 0xFF, .u8, .wo, 1, 0⟩,
  ⟨0x7030, 0x01, .octets, .staged, 48, 0⟩,
  ⟨0x7030, 0x02, .octets, .staged, 48, 0⟩,
  ⟨0x7030, 0x03, .octets, .staged, 48, 0⟩,
  ⟨0x7030, 0x04, .octets, .staged, 48, 0⟩,
  ⟨0x7030, 0xFF, .u8, .wo, 1, 0⟩]

/-- Objects of Table 16.10. -/
def objs16_10p1 : List ObjDef := [
  ⟨0x7031, 0x01, .octets, .ro, 48, 0⟩,
  ⟨0x7031, 0x02, .octets, .ro, 48, 0⟩,
  ⟨0x7031, 0x03, .octets, .ro, 48, 0⟩,
  ⟨0x7031, 0x04, .octets, .ro, 48, 0⟩,
  ⟨0x7040, 0x01, .u8, .ro, 1, 0⟩,
  ⟨0x7040, 0x02, .u64, .ro, 8, 0⟩,
  ⟨0x7100, 0x01, .u8, .ro, 1, 0⟩,
  ⟨0x7100, 0x02, .u8, .wo, 1, 0⟩,
  ⟨0x7100, 0x03, .u16, .ro, 2, 0⟩,
  ⟨0x7100, 0x04, .octets, .ro, 48, 0⟩,
  ⟨0x7100, 0x05, .u64, .ro, 8, 0⟩,
  ⟨0x7110, 0x01, .domain, .staged, 11328, 0⟩,
  ⟨0x7110, 0xFF, .u8, .wo, 1, 0⟩]

/-- Objects of Table 17.9. -/
def objs17_9p0 : List ObjDef := [
  ⟨0x1800, 0x01, .u64, .const, 8, Config.serial⟩,
  ⟨0x1800, 0x02, .octets, .const, 6, Config.mac0⟩,
  ⟨0x1800, 0x03, .octets, .const, 6, Config.mac1⟩,
  ⟨0x1800, 0x04, .u32, .const, 4, Config.subVendor * 65536 + Config.subId⟩,
  ⟨0x1800, 0x05, .u16, .const, 2, Config.setpointMv⟩,
  ⟨0x1800, 0x06, .u16, .ro, 2, Config.otpFloorFw.toNat⟩,
  ⟨0x1800, 0x07, .u16, .ro, 2, Config.otpFloorHub.toNat⟩,
  ⟨0x1800, 0x08, .u32, .ro, 4, 0⟩,
  ⟨0x1810, 0x01, .u32, .ro, 4, 0x3d244⟩,
  ⟨0x8000, 0x01, .u8, .wo, 1, 0⟩,
  ⟨0x8000, 0x02, .u16, .ro, 2, 0x0000⟩,
  ⟨0x8000, 0x03, .u32, .ro, 4, 1⟩,
  ⟨0x8000, 0x04, .u8, .ro, 1, 0xFF⟩,
  ⟨0x8000, 0x05, .u32, .ro, 4, 0⟩,
  ⟨0x8000, 0x06, .u16, .ro, 2, 0⟩,
  ⟨0x8000, 0x07, .u16, .ro, 2, 0xFFFF⟩,
  ⟨0x8001, 0x01, .u16, .wo, 2, 0⟩,
  ⟨0x8001, 0x02, .u8, .wo, 1, 0⟩,
  ⟨0x8002, 0x01, .u16, .staged, 2, 1000⟩,
  ⟨0x8002, 0xFF, .u8, .wo, 1, 0⟩,
  ⟨0x8010, 0x01, .u16, .wo, 2, 0⟩,
  ⟨0x8020, 0x01, .domain, .wo, 67125968, 0⟩,
  ⟨0x8020, 0x02, .u8, .ro, 1, 0⟩,
  ⟨0x8030, 0x01, .u16, .staged, 2, 2000⟩]

/-- Objects of Table 17.9. -/
def objs17_9p1 : List ObjDef := [
  ⟨0x8030, 0xFF, .u8, .wo, 1, 0⟩,
  ⟨0x8100, 0x01, .r32, .ro, 4, 0⟩,
  ⟨0x8100, 0x02, .r32, .ro, 4, 0⟩,
  ⟨0x8100, 0x03, .u16, .ro, 2, 0⟩,
  ⟨0x8100, 0x04, .u8, .ro, 1, 8⟩,
  ⟨0x8100, 0x05, .u64, .ro, 8, 0⟩,
  ⟨0x8100, 0x06, .i32, .ro, 4, 0⟩,
  ⟨0x8100, 0x07, .u64, .ro, 8, 0⟩,
  ⟨0x8101, 0x01, .domain, .ro, 176, 0⟩,
  ⟨0x8110, 0x01, .u8, .staged, 1, 95⟩,
  ⟨0x8110, 0xFF, .u8, .wo, 1, 0⟩]

/-- Every object of the dictionary (R399), but for the sub-indices 0x00 of R375. -/
def objTable : List ObjDef :=
  objs2_1p0 ++
  objs2_1p1 ++
  objs3_10p0 ++
  objs4_7p0 ++
  objs5_10p0 ++
  objs6_6p0 ++
  objs7_12p0 ++
  objs8_9p0 ++
  objs9_11p0 ++
  objs10_16p0 ++
  objs10_16p1 ++
  objs11_13p0 ++
  objs11_13p1 ++
  (List.range 32).flatMap objs11_13port ++
  objs12_12p0 ++
  objs12_12p1 ++
  objs13_9p0 ++
  objs13_9p1 ++
  objs14_13p0 ++
  objs14_13p1 ++
  objs15_8p0 ++
  objs15_8p1 ++
  objs16_10p0 ++
  objs16_10p1 ++
  objs17_9p0 ++
  objs17_9p1


/-- The sub-indices an index has, other than 0xFF. -/
def subsOf (index : Nat) : List Nat :=
  (objTable.filter fun d => d.index == index && d.sub != 0xFF).map (·.sub)

/-- Does the index exist (R374)? -/
def indexExists (index : Nat) : Bool := objTable.any fun d => d.index == index

/-- The object at index and sub-index (R374, R375): sub-index 0x00 holds the highest sub-index other than 0xFF. -/
def objDef? (index sub : Nat) : Option ObjDef :=
  if sub = 0 then
    if indexExists index then some ⟨index, 0, .u8, .const, 1, (subsOf index).foldl max 0⟩ else none
  else objTable.find? fun d => d.index == index && d.sub == sub

/-- The object with this key. -/
def objOfKey? (key : Nat) : Option ObjDef := objDef? (key / 256) (key % 256)

/-- Objects whose default is not 0. -/
def dfltTable0 : List (Nat × Nat) := [
  (0x100001, asciiLe "Knafoun"),
  (0x100002, asciiLe "Lamsetha Gheat"),
  (0x100003, asciiLe "LG2048"),
  (0x100004, 0xA1),
  (0x100005, Config.serial),
  (0x100006, 0x0100),
  (0x100201, 0x07),
  (0x100202, 0x07),
  (0x110001, Config.mac0),
  (0x110002, Config.mac1),
  (0x111001, 255),
  (0x111002, 255),
  (0x111003, 8),
  (0x111004, 32),
  (0x111006, 2),
  (0x111007, 20),
  (0x111008, 8),
  (0x180001, Config.serial),
  (0x180002, Config.mac0),
  (0x180003, Config.mac1),
  (0x180004, Config.subVendor * 65536 + Config.subId),
  (0x180005, Config.setpointMv),
  (0x180006, Config.otpFloorFw.toNat),
  (0x180007, Config.otpFloorHub.toNat),
  (0x181001, 0x3d244)]

/-- Objects whose default is not 0. -/
def dfltTable1 : List (Nat × Nat) := [
  (0x201003, 12),
  (0x210002, 1310200),
  (0x211001, 64),
  (0x211002, 256),
  (0x211003, 2),
  (0x211004, 16),
  (0x220009, 2),
  (0x22000A, 4),
  (0x221001, 2 ^ 1024 - 1),
  (0x230005, 32768),
  (0x230006, 16),
  (0x231101, fixedSlot 0),
  (0x231102, fixedSlot 1),
  (0x231103, fixedSlot 2),
  (0x231104, fixedSlot 3),
  (0x231105, fixedSlot 4),
  (0x231106, fixedSlot 5),
  (0x231107, fixedSlot 6),
  (0x231108, fixedSlot 7),
  (0x241001, 2048),
  (0x241002, 655),
  (0x241003, 64),
  (0x250004, 32),
  (0x250005, 4096),
  (0x250006, 256)]

/-- Objects whose default is not 0. -/
def dfltTable2 : List (Nat × Nat) := [
  (0x261002, counterImages),
  (0x261003, 2132),
  (0x262001, 10),
  (0x262002, 0x3D800000),
  (0x262003, 256),
  (0x263001, 4096),
  (0x302001, 24),
  (0x320001, 0x01010101),
  (0x400004, 0xFF),
  (0x400101, 0xFFFFFFFF),
  (0x400102, bytesEach 32 0x07),
  (0x400103, 100),
  (0x410002, 1),
  (0x411002, 1),
  (0x42000A, 16384),
  (0x420201, 1),
  (0x420202, 1),
  (0x420203, 2),
  (0x500003, 0x00),
  (0x50000D, 0x00),
  (0x501002, 0xC0000000),
  (0x501004, 274877906944),
  (0x501006, 4),
  (0x501007, 256),
  (0x502002, 16)]

/-- Objects whose default is not 0. -/
def dfltTable3 : List (Nat × Nat) := [
  (0x503003, 1),
  (0x600001, 0x1F4E),
  (0x600002, Config.subVendor),
  (0x600003, Config.subId),
  (0x600004, 0x01),
  (0x600009, 36),
  (0x602001, 0x7FFE),
  (0x700001, Config.otpFloorFw.toNat),
  (0x700002, Config.otpFloorHub.toNat),
  (0x700005, ofLe (Config.flashChain 0)),
  (0x700006, ofLe (Config.flashChain 1)),
  (0x702001, 36),
  (0x800002, 0x0000),
  (0x800003, 1),
  (0x800004, 0xFF),
  (0x800007, 0xFFFF),
  (0x800201, 1000),
  (0x803001, 2000),
  (0x810004, 8),
  (0x811001, 95),
  (0x901001, 0x03FF)]

/-- Every object whose default is not 0, the link states of the ports apart. -/
def dfltTable : List (Nat × Nat) := dfltTable0 ++ dfltTable1 ++ dfltTable2 ++ dfltTable3

/-- The default of the object with this key (R15). -/
def objDefault (key : Nat) : Nat :=
  if 0x401000 ≤ key ∧ key < 0x403000 ∧ key % 256 = 1 then 1 else mapGet 0 dfltTable key

/-- Size in bytes of the object with this key. -/
def objSize (key : Nat) : Nat := ((objOfKey? key).map (·.size)).getD 0

/-- The staged objects of an index: the members of its group (R379). -/
def groupMembers (index : Nat) : List Nat :=
  (objTable.filter fun d => d.index == index && d.access == .staged).map fun d => objKey d.index d.sub

/-- Has the index a commit at sub-index 0xFF (R374)? -/
def isGroup (index : Nat) : Bool := objTable.any fun d => d.index == index && d.sub == 0xFF

/-- Is the object a scalar of up to 8 bytes, held whole in its BAR0 slot (R384, R385)? -/
def isScalarSlot (d : ObjDef) : Bool :=
  match d.ty with
  | .domain | .str => false
  | .octets => decide (d.size ≤ 8)
  | _ => true

end Sys2Proof.Machine
end

