-- ==== Sys2Proof/Machine/State.lean ====
section
/-! DEFINITION. The state of the block as plain data, its state after reset, and the reasons a command can stop. -/

namespace Sys2Proof.Machine

/-- A map from numbers to numbers: pairs with keys rising. -/
abbrev NatMap := List (Nat × Nat)

/-! ### What leaves the device -/

/-- An SPDM response as far as the manual distinguishes it. -/
inductive SpdmResp where
  | plain (code : Nat) (body : List Byte)
  | signed (code : Nat) (body rsa slh : List Byte)
  | error (code : Nat)
deriving DecidableEq, Repr

/-- What the device sends on its lands and links. -/
inductive Out where
  /-- an Ethernet frame on a management port -/
  | frame (port : Nat) (bytes : List Byte)
  /-- an MSI-X message -/
  | msix (address data : Nat)
  /-- completion of a host read -/
  | completion (bytes : List Byte)
  /-- completion with the poisoned indication -/
  | poisoned
  /-- completion with Unsupported Request -/
  | unsupported
  /-- a write to host memory -/
  | hostWrite (address : Nat) (bytes : List Byte)
  /-- a read of host memory -/
  | hostRead (address len : Nat)
  /-- a flit on a fabric port: its header and its payload in clear, and the 272 bytes sent (Table 11.2) -/
  | flit (port header : Nat) (payload wire : List Byte)
  /-- an SPDM response on the DOE mailbox -/
  | spdm (resp : SpdmResp)
  /-- an SPDM_RESP frame on a management port: its bytes up to the response, and the response -/
  | spdmFrame (port : Nat) (head : List Byte) (resp : SpdmResp)
  /-- VOUT_COMMAND on PMBus, in mV -/
  | pmbus (mv : Nat)
deriving DecidableEq, Repr

/-! ### Dictionary -/

/-- The effect point of a committed set (Table 14.3). -/
inductive Effect where
  | nextBoundary
  | atTick (t : Nat)
  | stepBoundary
  | atStep (n : Nat)
deriving DecidableEq, Repr

/-- An accepted commit that has not reached its effect point (R379, R380). -/
structure CommitSet where
  group : Nat
  vals : NatMap
  effect : Effect
deriving DecidableEq, Repr

/-- Registers and buffer of the transfer window (R387, Table 14.4). `state` is 0 idle, 1 busy, 2 done. -/
structure Window where
  index : Nat := 0
  sub : Nat := 0
  offset : Nat := 0
  length : Nat := 0
  status : Nat := 0
  state : Nat := 0
  buffer : NatMap := []
deriving DecidableEq, Repr

/-- A value under assembly (R390): its requester (0 for the window), the object and the bytes so far. -/
structure Assembly where
  requester : Nat
  key : Nat
  bytes : List Byte
deriving DecidableEq, Repr

/-- One record of the event log (Table 14.9). -/
structure EventRec where
  seq : Nat
  tick : Nat
  code : Nat
  source : Nat
  unit : Nat
  w0 : Nat
  w1 : Nat
  w2 : Nat
  w3 : Nat
  w4 : Nat
deriving DecidableEq, Repr

/-- A kept Felby response (R391). -/
structure Kept where
  port : Nat
  source : Nat
  seq : Nat
  timeMs : Nat
  response : Out
deriving DecidableEq, Repr

/-- The outstanding EVENT frame (R393): its seq, the log sequence below which its acknowledgement acknowledges, the
frame after its addresses, when it was last sent, the port in use and the resends on it. -/
structure Outstanding where
  seq : Nat
  upTo : Nat
  body : List Byte
  sentMs : Nat
  port : Nat
  resends : Nat
deriving DecidableEq, Repr

/-- The dictionary, the event log and the paths to them. -/
structure Dict where
  /-- active and current values, listed where they differ from the default -/
  objs : NatMap := []
  /-- pending values of staged objects (R379) -/
  pend : NatMap := []
  committed : List CommitSet := []
  window : Window := {}
  assemblies : List Assembly := []
  /-- event log, oldest record first (R394) -/
  log : List EventRec := []
  /-- events of each code (0x9000:05) -/
  eventCounts : NatMap := []
  /-- events raised at most once per tick, waiting for the boundary (R396) -/
  tickEvents : List EventRec := []
  kept : List Kept := []
  /-- seq of the next EVENT frame (R393) -/
  eventSeq : Nat := 0
  outstanding : Option Outstanding := none
  /-- MSI-X table, 4-byte words that differ from their reset value (R403) -/
  msixTable : NatMap := []
  /-- MSI-X pending bits (R411) -/
  msixPending : Nat := 0
  /-- conditions of Table 15.5 that have arisen since the last boundary -/
  msixConds : Nat := 0
deriving DecidableEq, Repr

/-! ### Scheduler -/

/-- Counts one engine keeps for one statistics block while a task runs (R156). -/
structure Bins where
  stats : Nat
  unit : Nat
  /-- format of the descriptor counted through -/
  fmt : Option Nat := none
  elements : Nat := 0
  scaleCodes : Nat := 0
  clamps : Nat := 0
  bins : NatMap := []
  scaleBins : NatMap := []
deriving DecidableEq, Repr

/-- What an engine read as it started a task (R136, R147): a descriptor's address and 1,024 bits, and its FP32 scale in
mode 0x3. -/
structure OperandRead where
  unit : Nat
  addr : Nat
  raw : Nat
  scale : Nat
deriving DecidableEq, Repr

/-- A task admitted and not complete (R49, R50). -/
structure Task where
  /-- record index; a tied group's lowest (R203) -/
  record : Nat
  /-- the 1,024 bits of the record as admitted -/
  image : Nat
  /-- the tick in which it was admitted -/
  admitted : Nat := 0
  /-- the role in force: 0 operand0 stationary, 1 operand1 stationary (R107) -/
  role : Nat := 0
  /-- the members of a tied group beside the first, in index order, with their images (R203) -/
  members : List (Nat × Nat) := []
  /-- engines of the set that have not started the task -/
  waiting : List Nat := []
  /-- engines that run it, with the ACLK time of their start -/
  running : List (Nat × Nat) := []
  /-- engines that have started it and gone on to another task (R50) -/
  left : List Nat := []
  /-- engines that never finish it: their tile has been reset (R449) -/
  stuck : Bool := false
  /-- 0: its work is not done; 1: done; 2: faulted -/
  work : Nat := 0
  /-- its results are undefined, reach the task (R6): its signals take free values -/
  undef : Bool := false
  /-- phases of a task that works in several commands -/
  phase : Nat := 0
  /-- bytes or rows that a later command of the task needs -/
  notes : List Nat := []
  /-- tiles that replaced a non-zero value under R82, drift found (R238), and the like, for its completion -/
  flushed : Bool := false
  /-- accesses with a clamped component (R151) -/
  clamps : Nat := 0
  /-- what its engines count for statistics blocks (R156) -/
  bins : List Bins := []
  /-- operands as its engines read them when they started it (R136, R147) -/
  reads : List OperandRead := []
  /-- events that its completion counts (Table 14.12) -/
  ends : List EventRec := []
  /-- rows a matrix task drains to its coupled partner, or a vector task waits for: row-major FP32 codes (R130) -/
  drained : List (List Nat) := []
deriving DecidableEq, Repr

/-- The step scheduler. -/
structure Sched where
  /-- outcomes of the current step: 1 complete, 2 faulted, 3 stale; not listed: not run (R55) -/
  outcomes : NatMap := []
  counters : NatMap := []
  credits : NatMap := []
  tasks : List Task := []
  /-- a halt that takes effect at the next boundary: cause and record (R56) -/
  halt : Option (Nat × Nat) := none
  /-- records counted as slipped in this step (R52) -/
  slipped : List Nat := []
  /-- the active program's run and steps as latched (R57) -/
  activeSteps : Nat := 0
  /-- a commit of 0x2020 has been applied and not yet latched (R57) -/
  freshProgram : Bool := false
  /-- the latest commit of 0x2020 was made in IDLE or HALTED, and so starts a step by itself (R57) -/
  startAsked : Bool := false
  /-- records of the committed program have been written since its commit (R59) -/
  rewritten : Bool := false
  /-- a period switch waits: n (R38) -/
  periodNext : Option Nat := none
  /-- ACLK time of the last boundary, and the length of the running tick (R36, R314) -/
  boundaryAclk : Nat := 0
  tickLength : Nat := 4096
  /-- the fall-back list: output descriptor addresses (R240) -/
  fallback : List Nat := []
deriving DecidableEq, Repr

/-! ### Numerics and tiles -/

/-- Twilight of an array (R113, R114): 0 IDLE, 1 RAMP_UP, 2 ACTIVE, 3 RAMP_DOWN; its level; has it a task ready, running
or waiting; and the first cycle of the tick that has not changed it yet. -/
structure ArrayState where
  st : Nat := 0
  level : Nat := 0
  busy : Bool := false
  phase : Nat := 0
deriving DecidableEq, Repr

/-- Sticky flags, streams, array levels and tile SRAM. -/
structure Numerics where
  /-- sticky flags of each flag block: 4 bits, by stream number of the block (R83) -/
  sticky : NatMap := []
  /-- values written to sticky_clear, waiting for the boundary (R85) -/
  stickyClear : List Nat := []
  /-- step of each random stream (R226) -/
  streams : NatMap := []
  /-- the seed in force (R225) -/
  seed : Nat := 0
  /-- arrays that are not IDLE with no task (R114) -/
  arrays : List (Nat × ArrayState) := []
  /-- tiles whose SRAM a task has filled since it was last cleared, with the number of its contents (R246, R247) -/
  sram : NatMap := []
deriving DecidableEq, Repr

/-! ### Memory -/

/-- A line resident in a slice (R256): its physical line number and whether it is dirty. -/
structure CacheLine where
  line : Nat
  dirty : Bool
deriving DecidableEq, Repr

/-- A live allocation (R267, R268). -/
structure AllocSlot where
  base : Nat
  order : Nat
  policy : Nat
  placement : Nat
  sequence : Nat
deriving DecidableEq, Repr

/-- An entry of the allocator queue (R269): from an allocate task, from 0x2101:01, or a creation from 0x2180:01. -/
inductive AllocReq where
  | task (rec : Nat)
  | request (value : Nat)
  | creation (draft : Nat)
deriving DecidableEq, Repr

/-- A migration in progress (Table 10.14): the page, its entry before it, the frame or far frame taken, and the record
of the page task that asked for it. -/
structure Migration where
  page : Nat
  old : Nat
  toFar : Bool
  policy : Nat
  taken : Nat
  asker : Option Nat
deriving DecidableEq, Repr

/-- A migration asked for and not started (R282). -/
structure MigrationAsk where
  page : Nat
  toFar : Bool
  policy : Nat
  asker : Option Nat
deriving DecidableEq, Repr

/-- Atomics whose operands the manual gives (Table 10.7). -/
inductive AtomicOp where
  | add | minU | maxU | minS | maxS | exchange
  /-- floating add in a format code -/
  | fadd (fmt : Nat)
deriving DecidableEq, Repr

/-- How a request is treated at the home slice (Table 10.6). -/
inductive Req where
  /-- a miss is not allocated -/
  | pass
  /-- a miss is allocated -/
  | keep
deriving DecidableEq, Repr

/-- A write or atomic held for a migrating page (R281), with the class, unit, translation cache and record that issued
it, the epoch it carries, how its home slice treats it, and whether it delivers a message. -/
structure Held where
  va : Nat
  bytes : List Byte
  atomic : Option AtomicOp
  cls : Nat
  unit : Nat
  tc : Nat
  record : Option Nat
  epoch : Option Nat
  req : Req
  msg : Bool
deriving DecidableEq, Repr

/-- A valid entry of the hash accumulator (Tables 7.8, 7.9): its slice, line and place in the line, its space, tag and
key, and the A40 code of a scalar entry or the 32 FP32 codes of a vector entry. -/
structure HashEntry where
  slice : Nat
  line : Nat
  place : Nat
  vector : Bool
  space : Nat
  tag : Nat
  key : Nat
  lanes : List Nat
deriving DecidableEq, Repr

/-- Memory, cache, page map, allocator and paging engine. -/
structure Mem where
  /-- bytes of near and far memory, through the caches: addresses rising, no entry 0 -/
  cells : List Host.Cell := []
  /-- poisoned atoms, by physical address div 64, each with the bytes of it overwritten since, one bit each (R265) -/
  poison : NatMap := []
  /-- lines of each set of each slice, most recently used first -/
  cache : List (Nat × List CacheLine) := []
  /-- bytes the stacks hold under dirty lines, which an L1 reset leaves (R446) -/
  under : NatMap := []
  /-- page-map entries that are not 0 (Table 10.12) -/
  pages : NatMap := []
  /-- frames taken: stack × 65,536 + frame; far frames taken: port × 2^22 + far frame -/
  nearUsed : List Nat := []
  farUsed : List Nat := []
  slots : List (Nat × AllocSlot) := []
  /-- last sequence of each slot used (R268) -/
  sequences : NatMap := []
  /-- ranges of the job's freed allocations: first page and pages (R272) -/
  freed : List (Nat × Nat) := []
  /-- addresses of created descriptors: 1 where software has written to one since (R146) -/
  created : NatMap := []
  queue : List AllocReq := []
  asks : List MigrationAsk := []
  migrations : List Migration := []
  held : List Held := []
  /-- translation caches: pages with their counts, most recently used first, by unit (R276) -/
  tcaches : List (Nat × List (Nat × Nat)) := []
  hash : List HashEntry := []
  /-- write pointer of each slice's spill part that holds an unconsumed record (R182, R184) -/
  spill : NatMap := []
  /-- the tick counter at the last halving of access counts (R278) -/
  lastHalving : Nat := 0
deriving DecidableEq, Repr

/-! ### Fabric -/

/-- A message, whole (R299): the port it came in on (32 for this device), its VC, its route header and data. -/
structure Msg where
  port : Nat
  vc : Nat
  header : Nat
  data : List Byte
deriving DecidableEq, Repr

/-- What happens to a message part way in (R301): not chosen yet, delivered here, discarded, or cut through to a port
and VC. -/
inductive Fate where
  | open
  | deliver
  | discard
  | forward (port vc : Nat)
deriving DecidableEq, Repr

/-- A message part way in on one VC: its bytes so far and what happens to it. -/
structure Incoming where
  vc : Nat
  bytes : List Byte
  fate : Fate
deriving DecidableEq, Repr

/-- A flit to send: its kind bits, VC and payload; where it comes from, 4 times the ingress port (32 for this device) and
the VC of the ingress buffer that holds it; and whether it ends its message. -/
structure TxFlit where
  kind : Nat
  vc : Nat
  payload : List Byte
  source : Nat
  last : Bool
deriving DecidableEq, Repr

/-- What a timestamp flit said, with its arrival (R311). -/
structure Stamp where
  flags : Nat
  distance : Nat
  refRank : Nat
  refSerial : Nat
  counter : Nat
  tx : Nat
  echoTx : Nat
  echoRx : Nat
  refOffset : Int
  arrival : Nat
deriving DecidableEq, Repr

/-- Key, salt and generation of one direction of a link (R429, R430). -/
structure LinkKey where
  key : List Byte
  salt : List Byte
  generation : Nat
  /-- slot of the direction's count at which the present key took effect -/
  base : Nat
  /-- the slot at which the next key applies, when one is announced -/
  next : Option Nat
deriving DecidableEq, Repr

/-- A fabric port beside its objects. -/
structure Port where
  txSeq : Nat := 0
  rxNext : Nat := 0
  nakSent : Bool := false
  /-- flits sent and not acknowledged: seq and flit (R296) -/
  replay : List (Nat × TxFlit) := []
  /-- resends of the oldest of them in succession -/
  resends : Nat := 0
  /-- credits held for each VC (R297) -/
  credits : List Nat := [0, 0, 0, 0]
  /-- credits to return for each VC -/
  owed : List Nat := [0, 0, 0, 0]
  /-- flits waiting to be sent -/
  queue : List TxFlit := []
  /-- the ingress port served last on each VC (R297) -/
  turn : List Nat := [32, 32, 32, 32]
  /-- the source whose message is part way out on each VC (R299) -/
  mid : List (Option Nat) := [none, none, none, none]
  /-- the next slot of the sending direction (R294) -/
  txSlot : Nat := 0
  incoming : List Incoming := []
  arrived : List Msg := []
  txKey : Option LinkKey := none
  rxKey : Option LinkKey := none
  /-- rate found in training -/
  rate : Nat := 0
  /-- peer serial of the attach flit -/
  peerSerial : Option Nat := none
  stamp : Option Stamp := none
  /-- tick in which the last timestamp flit was sent (R311) -/
  stampedTick : Option Nat := none
  /-- round trips of the last 16 stamps from the parent, newest first (R313) -/
  trips : List Int := []
  /-- the peer has announced Dusk (Table 11.12) -/
  dusk : Bool := false
deriving DecidableEq, Repr

/-- Time alignment beside its objects (R312–R317). -/
structure Timing where
  synced : Bool := false
  refSerial : Nat := Config.serial
  /-- offset from the reference in 1/16 ACLK -/
  offset : Int := 0
  /-- a counter to adopt at the next boundary (R316) -/
  jump : Option Nat := none
  /-- one corrective tick waits: its offset (R316, R317) -/
  corrective : Option Int := none
deriving DecidableEq, Repr

/-! ### Collectives -/

/-- A ready held (R327, R328): its tag and sender. -/
structure Ready where
  tag : Nat
  rank : Nat
deriving DecidableEq, Repr

/-- A debt of an absent peer (R366): readies, counts messages and bytes still expected from it. -/
structure Debt where
  tag : Nat
  rank : Nat
  readies : Nat
  counts : Nat
  bytes : Nat
  /-- left by the latest task of its tag -/
  own : Bool := true
deriving DecidableEq, Repr

/-- A message a collective owes to a rank: its kind, header fields (Table 12.4) and payload, and the ports of the axis
it may leave by (0: routed). -/
structure CollSend where
  rank : Nat
  kind : Nat
  word : Nat := 0
  flags : Nat := 0
  offset : Nat := 0
  norms : Nat := 0
  mask : Nat := 0
  data : List Byte := []
deriving DecidableEq, Repr

/-- Codes received that wait for their order: sender's rank, port, byte offset, codes. -/
structure Piece where
  rank : Nat
  port : Nat
  offset : Nat
  codes : List Nat
deriving DecidableEq, Repr

/-- Rows of a dispatch that came before its last counts (R335): sender's rank, port, byte offset and bytes. -/
structure EarlyRows where
  rank : Nat
  port : Nat
  offset : Nat
  bytes : List Byte
deriving DecidableEq, Repr

/-- A barrier_up received (R340): its rank, phase, flags and norms. -/
structure BarrierUp where
  rank : Nat
  phase : Nat
  flags : Nat
  norms : Nat
deriving DecidableEq, Repr

/-- Progress of a collective or snapshot task whose engines have started it. -/
structure Coll where
  record : Nat
  /-- phase reached -/
  phase : Nat := 0
  /-- a release point has passed since the phase became ready (R51) -/
  released : Bool := false
  /-- the first phase has begun: readies have gone out -/
  begun : Bool := false
  /-- this device's contribution, in the reduction format -/
  vals : List Nat := []
  todo : List CollSend := []
  /-- bytes to be reduced and bytes to be placed that are awaited, by rank -/
  awaitReduce : NatMap := []
  awaitPlace : NatMap := []
  /-- ranks from which a counts or barrier message is awaited -/
  tokens : List Nat := []
  pieces : List Piece := []
  /-- smallest and largest sender step met -/
  steps : Option (Nat × Nat) := none
  /-- s of its group when it started (R338, R339) -/
  ownStep : Nat := 0
  /-- flags and word of its messages, from the shard's generation when it started (R344) -/
  mark : Nat × Nat := (0, 0)
  /-- counts received (R335) -/
  counts : List Piece := []
  /-- rows that came before them -/
  early : List EarlyRows := []
  /-- barrier_up messages received (R340) -/
  ups : List BarrierUp := []
  /-- flags and norms that the barrier delivers, and its release tick -/
  totals : Nat × Nat := (0, 0)
  release : Option Nat := none
  /-- barrier_down came after its release boundary -/
  late : Bool := false
  /-- this position's sum has been formed or its part has gone up -/
  reduced : Bool := false
  /-- a changed shard was found: position, recorded and current generation (R345) -/
  changed : Option (Nat × Nat × Nat) := none
  /-- rows dropped (R335) -/
  overflow : Nat := 0
  /-- its deadline has passed with peers absent (R365) -/
  absent : List Nat := []
  deadline : Bool := false
deriving DecidableEq, Repr

/-- A late payload carried into the next task of its tag (R367): source position, offset and bytes. -/
structure Carried where
  tag : Nat
  position : Nat
  offset : Nat
  bytes : List Byte
  /-- of a debt that the latest task of its tag left -/
  own : Bool := true
deriving DecidableEq, Repr

/-- Collective engines beside their objects. -/
structure Colls where
  tasks : List Coll := []
  readies : List Ready := []
  debts : List Debt := []
  carried : List Carried := []
  /-- the OR of skew flags that the step's barrier delivered (R340) -/
  skew : Bool := false
  /-- the two sums of squares of R341, A40 codes -/
  noiseLocal : Nat := 0
  noiseReduced : Nat := 0
deriving DecidableEq, Repr

/-! ### Security, reset, resilience -/

/-- An SPDM session (R425): 0 DOE, 1 Felby, 2 + p link, 40 + h far port; with its number. -/
structure Session where
  channel : Nat
  id : Nat
deriving DecidableEq, Repr

/-- Images and floors. -/
structure Security where
  sessions : List Session := []
  /-- clearing in progress (R437) -/
  clearing : Bool := false
  unlock : Bool := false
  /-- the image in force, when tables are locked -/
  image : Option Nat := none
  /-- version of the running hub microcode -/
  hubVersion : Nat := 0
  /-- generations programmed beyond the first, oldest first: the floors and the reach table (R424, R443) -/
  fwFloors : List Nat := []
  hubFloors : List Nat := []
  reachTables : List Nat := []
  /-- the host's IDE stream is established (R427) -/
  ideStream : Bool := false
deriving DecidableEq, Repr

/-- Reset, clocks and power. -/
structure ResetState where
  /-- sources whose condition holds the device in reset -/
  holding : List Nat := []
  inReset : Bool := false
  level : Nat := 0
  /-- temperature above a threshold: sensors above the warning and above the limit (R462) -/
  warm : List Nat := []
  hot : List Nat := []
  /-- THERM_TRIP_N is driven low (R463) -/
  thermTrip : Bool := false
  /-- the reset of a block left the mesh unusable (R449) -/
  meshStuck : Bool := false
  /-- Dawn's phase 5 waits for an image of this kind (R452) -/
  needFw : Bool := false
  needHub : Bool := false
deriving DecidableEq, Repr

/-- A far port beside its objects (R412–R416). -/
structure FarPort where
  state : Nat := 1
  frames : Nat := 0
  serial : Nat := 0
  digest : Nat := 0
  ide : Bool := false
  /-- its contents are to be kept through the L1 reset under way (R416) -/
  kept : Bool := false
deriving DecidableEq, Repr

/-- A snapshot being taken (R357): its task's record, sequence, directory entries (Table 13.5), length, header with state
0x00 and digest, the tick of its entry barrier's release, and the copies that have not failed. -/
structure Midnight where
  record : Nat
  seq : Nat
  entries : List Nat
  total : Nat
  header : Nat := 0
  entryTick : Nat
  twin : Bool := false
  far : Bool := false
deriving DecidableEq, Repr

/-- A snapshot that awaits its seal (R357): its header with state 0x01, and the copies that hold it. -/
structure Seal where
  header : Nat
  twin : Bool
  far : Bool
deriving DecidableEq, Repr

/-- A restore under way (R369): its source, its slot, and the bytes fetched from the twin by offset. -/
structure Restore where
  source : Nat
  slot : Nat
  got : NatMap := []
deriving DecidableEq, Repr

/-- Snapshots, twins, restore and Dusk. -/
structure Resilience where
  /-- own tick of the last heartbeat accepted, and the `tick_counter` and `job_step` it carried (R353) -/
  lastBeat : Nat := 0
  twinTick : Nat := 0
  twinStep : Nat := 0
  /-- tick in which the last heartbeat was sent -/
  beatSent : Option Nat := none
  midnight : Option Midnight := none
  awaitSeal : Option Seal := none
  restore : Option Restore := none
  /-- a replay is armed (R369) -/
  armed : Bool := false
  /-- the Dusk asked for: 0 none, or the value written to 0x5040:01 (R371) -/
  dusk : Nat := 0
  /-- 0 admission goes on, 1 it has stopped, 2 the messages have gone, 3 the ports have stopped (Table 13.8) -/
  duskStage : Nat := 0
deriving DecidableEq, Repr

/-- The block. -/
structure State where
  /-- commands that wait, first in first out -/
  pending : List Instr := []
  /-- what the device has sent so far, oldest first (the model's own; log entry 15) -/
  out : List Out := []
  /-- index of the next free value (the model's own; log entry 4) -/
  freeCtr : Nat := 0
  dict : Dict := {}
  sched : Sched := {}
  num : Numerics := {}
  mem : Mem := {}
  ports : List (Nat × Port) := []
  timing : Timing := {}
  colls : Colls := {}
  sec : Security := {}
  rst : ResetState := {}
  far : List (Nat × FarPort) := []
  resil : Resilience := {}
deriving DecidableEq, Repr

/-- Why a command stops with a fault. There is no reason: the manual gives the machine an effect in every state, and a
task that faults is a next state (R43, R56). Nothing raises a fault, which is neither safe nor unsafe. -/
inductive Fault where
deriving DecidableEq, Repr

/-- Why a command is refused. -/
inductive Refusal where
  /-- The command has no meaning yet. Raised by its arm of `exec`. Safe. -/
  | notModelled (mnemonic : String)
deriving DecidableEq, Repr

/-- The block right after an L0 reset whose Dawn has completed (R15, R450): every object at its default, nothing in
memory, no command waiting. Log entry 1. -/
def State.reset : State := {}

end Sys2Proof.Machine
end

