-- ==== Sys2Proof/Machine/Ops.lean ====
section
/-! DEFINITION. Operations every command shares: objects, free values, events, the access tables, and the abort
reasons of a task. -/

namespace Sys2Proof.Machine

/-! ### Objects -/

/-- The active or current value of the object with this key (R377, R379). -/
def State.obj (s : State) (key : Nat) : Nat := (mapFind s.dict.objs key).getD (objDefault key)

/-- The state with this value in the object. -/
def State.setObj (s : State) (key v : Nat) : State :=
  { s with dict := { s.dict with objs := mapPut (objDefault key) s.dict.objs key v } }

/-- The pending value of a staged object (R379). -/
def State.pendObj (s : State) (key : Nat) : Nat := (mapFind s.dict.pend key).getD (objDefault key)

/-- The state with this pending value. -/
def State.setPend (s : State) (key v : Nat) : State :=
  { s with dict := { s.dict with pend := mapPut (objDefault key) s.dict.pend key v } }

/-- Adds `n` to a counter, within the object's width. -/
def State.addObj (s : State) (key n : Nat) : State :=
  if n = 0 then s else s.setObj key ((s.obj key + n) % 2 ^ (8 * objSize key))

/-- Counts one. -/
def State.count (s : State) (key : Nat) : State := s.addObj key 1

/-- Bits of `v` as a signed 32-bit object reads (INTEGER32, R376). -/
def int32 (i : Int) : Nat := ofSigned 32 i

/-- Key of an object of fabric port `p` (Table 11.13). -/
def portKey (p sub : Nat) : Nat := objKey (0x4010 + p) sub

/-- `tick_counter`. -/
def State.tick (s : State) : Nat := s.obj oTickCounter

/-- Is the scheduler RUNNING (Table 2.7)? -/
def State.running (s : State) : Bool := s.obj oSchedulerState == 1

/-- The state with a free value of width `w` taken (log entry 4). -/
def State.takeFree (w : Nat) (s : State) : Nat × State :=
  ((Config.freeWord w s.freeCtr).toNat, { s with freeCtr := s.freeCtr + 1 })

/-- The state with one more thing sent. -/
def State.emit (s : State) (o : Out) : State := { s with out := s.out ++ [o] }

/-! ### Events (R394–R396) -/

/-- Arms the condition of an MSI-X vector (Table 15.5). -/
def State.armVector (s : State) (v : Nat) : State :=
  { s with dict := { s.dict with msixConds := s.dict.msixConds ||| (1 <<< v) } }

/-- Appends a record to the event log (R394, R395): sequence and tick are set here. -/
def State.appendEvent (s : State) (e : EventRec) : State :=
  let seq := s.obj oEventSeqNext
  let e := { e with seq := seq, tick := s.tick }
  let full := decide (4096 ≤ s.dict.log.length)
  let log := (if full then s.dict.log.drop 1 else s.dict.log) ++ [e]
  let s := { s with dict := { s.dict with
    log := log
    eventCounts := mapPut 0 s.dict.eventCounts e.code ((mapGet 0 s.dict.eventCounts e.code + 1) % 2 ^ 64) } }
  let s := s.setObj oEventSeqNext (seq + 1)
  let s := if full then (s.count oEventsOverwritten).addObj oEventSeqOldest 1 else s
  s.armVector (e.code / 256)

/-- A record of an event, before its sequence and tick are known. -/
def mkEvent (code source unit w0 w1 w2 w3 w4 : Nat) : EventRec :=
  ⟨0, 0, code, source, unit, w0, w1, w2, w3, w4⟩

/-- Raises an event at once ("each" and "task" of Table 14.12). -/
def State.raise (s : State) (code source unit : Nat) (w0 : Nat := 0) (w1 : Nat := 0) (w2 : Nat := 0) (w3 : Nat := 0)
    (w4 : Nat := 0) : State :=
  s.appendEvent (mkEvent code source unit w0 w1 w2 w3 w4)

/-- The record waiting for the boundary for an event raised at most once per tick. -/
def State.tickEvent? (s : State) (code : Nat) : Option EventRec := s.dict.tickEvents.find? (·.code == code)

/-- Sets the waiting record of an event raised at most once per tick. -/
def State.setTickEvent (s : State) (e : EventRec) : State :=
  { s with dict := { s.dict with tickEvents := s.dict.tickEvents.filter (·.code != e.code) ++ [e] } }

/-- Insertion by code and then unit (R395). -/
def insertEvent (e : EventRec) : List EventRec → List EventRec
  | [] => [e]
  | f :: rest => if e.code < f.code ∨ (e.code = f.code ∧ e.unit < f.unit) then e :: f :: rest
    else f :: insertEvent e rest

/-- Raises the events that waited for the boundary, with those of the boundary itself, in ascending code and unit
(R395). -/
def State.raiseBoundary (s : State) (es : List EventRec) : State :=
  let all := (s.dict.tickEvents ++ es).foldl (fun l e => insertEvent e l) []
  all.foldl (fun s e => s.appendEvent e) { s with dict := { s.dict with tickEvents := [] } }

/-- An event that counts tasks in w0 and keeps the lowest record's words (SUBNORMAL_FLUSH, NARROW_DRIFT,
SPARSE_GROUP_OVERFULL, HASH_SPILL): one more task, record `r` with words w2–w4. -/
def State.noteTask (s : State) (code source unit r w2 w3 w4 : Nat) : State :=
  match s.tickEvent? code with
  | none => s.setTickEvent (mkEvent code source unit 1 r w2 w3 w4)
  | some e =>
    if r < e.w1 then s.setTickEvent (mkEvent code source unit (e.w0 + 1) r w2 w3 w4)
    else s.setTickEvent { e with w0 := e.w0 + 1 }

/-- A drop or skip for a placement epoch (R62). -/
def State.noteStale (s : State) : State :=
  let s := s.count oStaleCount
  let n := match s.tickEvent? 0x0503 with
    | none => 0
    | some e => e.w0
  s.setTickEvent (mkEvent 0x0503 0 0 (n + 1) (s.obj oStaleCount) 0 0 0)

/-- A refusal by an access table (R436): counted, and the first of the tick kept for ACCESS_DENIED. `kind` is 1 read,
2 write, 4 atomic. -/
def State.noteDenied (s : State) (cls unit address kind : Nat) : State :=
  let s := s.count oDeniedCount
  match s.tickEvent? 0x0801 with
  | none => s.setTickEvent (mkEvent 0x0801 0x0D 0 (cls * 65536 + unit) address kind 1 0)
  | some e => s.setTickEvent { e with w3 := e.w3 + 1 }

/-- The kind of block an ECC location code names (Tables 10.8, 14.11). -/
def eccSource (loc : Nat) : Nat :=
  match field loc 63 60 with
  | 1 => 0x0A
  | 2 => 0x01
  | _ => 0x09

/-- An uncorrectable error met at a location (R265): no task where `record` is 0xFFFFFFFF. -/
def State.uncorrected (s : State) (loc record : Nat) : State :=
  ((s.count oEccUncorrected).setObj oEccLastLocation loc).raise 0x0A02 (eccSource loc) (field loc 59 48) loc record

/-- A halt that takes effect at the next boundary (R56); the first cause stands. -/
def State.haltWith (s : State) (cause record : Nat) : State :=
  match s.sched.halt with
  | some _ => s
  | none => { s with sched := { s.sched with halt := some (cause, record) } }

/-- TASK_FAULT with the halt it brings (R56, R397). -/
def State.taskFault (s : State) (source unit record cause detail : Nat) : State :=
  (s.raise 0x0102 source unit record cause detail).haltWith 0x0102 record

/-! ### Access tables (R433–R437) -/

/-- Image position of a master class (Table 16.6). -/
def classPosition (cls : Nat) : Option Nat :=
  if cls < 6 then some cls
  else if 0x10 ≤ cls ∧ cls < 0x30 then some (cls - 0x10 + 6)
  else if 0x30 ≤ cls ∧ cls < 0x34 then some (cls - 0x30 + 38)
  else none

/-- `n` bytes of an image from byte `b`, as a number. -/
def imageField (img b n : Nat) : Nat := (img >>> (8 * b)) % 2 ^ (8 * n)

/-- Rights of the memory window at byte `b` of an image for the page that starts at `va` (Table 16.7). -/
def windowRights (img b va : Nat) : Nat :=
  let w := imageField img b 16
  let base := field w 127 80
  let pages := field w 79 52
  if base ≤ va ∧ va < base + pages * 2 ^ 21 then field w 2 0 else 0

/-- Rights a class has at an address under the tables in force (R435, R437): bits read, write, atomic. -/
def State.memRights (s : State) (cls va : Nat) : Nat :=
  match s.sec.image with
  | none => if cls = 3 then 7 else 0
  | some img =>
    match classPosition cls with
    | none => 0
    | some p => (List.range 16).foldl (fun r j => r ||| windowRights img (64 + 256 * p + 16 * j) va) 0

/-- Rights of host (0) or management (1) over an index under the tables in force: bits read, write
(Table 16.8, R437). -/
def State.dictRights (s : State) (sect : Nat) (index : Nat) : Nat :=
  match s.sec.image with
  | none => 3
  | some img =>
    (List.range 16).foldl (fun r j =>
      let w := imageField img (10816 + 256 * sect + 16 * j) 16
      if field w 111 96 ≥ index ∧ field w 127 112 ≤ index then r ||| field w 1 0 else r) 0

/-! ### Aborts -/

/-- Why a task's work ends early. -/
inductive Abort where
  /-- an access to an absent page (R280) -/
  | absent (va : Nat)
  /-- a fault while the task runs: cause 0x09 with this w2 (R397) -/
  | fault (detail : Nat)
  /-- poisoned data consumed (R265): location code -/
  | poison (location : Nat)
  /-- results undefined, reach the task -/
  | undefined
  /-- the task waits: nothing has happened -/
  | wait
deriving DecidableEq, Repr

/-- Work of a task on the state. -/
abbrev M := EStateM Abort State

/-- Applies a change of state. -/
def mod (f : State → State) : M Unit := modify f

/-- A free value of width `w`. -/
def freeM (w : Nat) : M Nat := do
  let (v, s) := State.takeFree w (← get)
  set s
  return v

/-- Runs a computation with sticky flags, giving the flags too. -/
def runF {α : Type} (x : F α) : α × Flags := x.run {}

end Sys2Proof.Machine
end

