-- ==== Sys2Proof/Machine/Arrays.lean ====
section
/-! DEFINITION. The arrays' issue levels (Twilight, R113, R114, R460) and the tiles' SRAM (R152, R246, R247). -/

namespace Sys2Proof.Machine

/-! ### Twilight -/

/-- May an array at a level enter a vector in the cycle with this phase (R113)? -/
def mayEnter (level phase : Nat) : Bool := decide ((phase % 8 * level) / 8 < ((phase % 8 + 1) * level) / 8)

/-- The cohort of array `t` (R114). -/
def cohort (t : Nat) : Nat := t / 128

/-- Is the cycle with this phase a step cycle of a cohort? -/
def stepCycle (q phase : Nat) : Bool := phase % 4 == 2 * q % 4

/-- Is the cycle with this phase a slot of a cohort? -/
def slotCycle (q phase : Nat) : Bool := phase % 32 == 2 * q

/-- A level one step towards a cap. -/
def stepToward (cap level : Nat) : Nat := if level < cap then level + 1 else if cap < level then level - 1 else level

/-- One cycle of an array of cohort `q` under the cap `cap` (Table 4.6, R460). -/
def ArrayState.cycle (a : ArrayState) (q cap phase : Nat) : ArrayState :=
  match a.st with
  | 0 => if a.busy && slotCycle q phase then { a with st := 1, level := 1 } else a
  | 1 =>
    if !stepCycle q phase then a
    else if a.level = cap then { a with st := 2 } else { a with level := stepToward cap a.level }
  | 2 =>
    if !a.busy && slotCycle q phase then { a with st := if a.level ≤ 1 then 0 else 3, level := a.level - 1 }
    else if stepCycle q phase then { a with level := stepToward cap a.level } else a
  | _ =>
    if !stepCycle q phase then a
    else if a.busy then { a with st := 1, level := stepToward cap a.level }
    else { a with st := if a.level ≤ 1 then 0 else 3, level := a.level - 1 }

/-- `n` cycles from the one with this phase on. -/
def ArrayState.cycles (a : ArrayState) (q cap phase : Nat) : Nat → ArrayState
  | 0 => a
  | n + 1 => (a.cycle q cap phase).cycles q cap (phase + 1) n

/-- An array as the cycle with this phase finds it. After 128 cycles under one cap, with or without a task, nothing changes
any more. -/
def ArrayState.settle (a : ArrayState) (q cap phase : Nat) : ArrayState :=
  { a.cycles q cap a.phase (min (phase - a.phase) 128) with phase := max a.phase phase }

/-- Array `t` as it last was. -/
def State.arrayOf (s : State) (t : Nat) : ArrayState := (mapFind s.num.arrays t).getD {}

/-- The state with this array; one that is IDLE with no task is not kept. -/
def State.setArray (s : State) (t : Nat) (a : ArrayState) : State :=
  { s with num := { s.num with arrays :=
      if a.st = 0 ∧ a.busy = false then mapErase s.num.arrays t else mapInsert s.num.arrays t a } }

/-- Array `t` as the cycle with this phase finds it (R113, R114). -/
def State.arrayAt (s : State) (t phase : Nat) : ArrayState := (s.arrayOf t).settle (cohort t) (s.obj oNoonCap) phase

/-- May array `t` enter a vector in the cycle with this phase (R113)? -/
def State.arrayEnters (s : State) (t phase : Nat) : Bool := mayEnter (s.arrayAt t (phase + 1)).level phase

/-- Array `t` has a task from this phase on, or has none left (R114). -/
def State.setBusy (s : State) (t phase : Nat) (busy : Bool) : State :=
  s.setArray t { s.arrayAt t phase with busy := busy }

/-- The arrays at the end of a tick of this length: the next tick's phases begin at 0. -/
def State.endArrays (s : State) (length : Nat) : State :=
  (s.num.arrays.map (·.1)).foldl (fun s t => s.setArray t { s.arrayAt t length with phase := 0 }) s

/-! ### Tile SRAM -/

/-- The parts of a tile's SRAM: first byte and bytes (Table 10.2). -/
def sramParts : List (Nat × Nat) := [(0, 96 * 1024), (96 * 1024, 32 * 1024), (128 * 1024, 80 * 1024), (208 * 1024, 48 * 1024)]

/-- Bank and word index of word `(r, c)` of the block in slot `b` of the streaming buffer (R152). -/
def bankWord (b r c : Nat) : Nat × Nat := ((r + c) % 32, 32 * b + r)

/-- Offset in the SRAM of byte `e` of word `(r, c)` of the block in slot `b`: bank after bank, 512 words of 8 bytes each. The
manual gives bank and word and no order of the banks. DESIGN CHOICE (log entry 85). -/
def streamOffset (b r c e : Nat) : Nat := (bankWord b r c).1 * 4096 + (bankWord b r c).2 * 8 + e

/-- A byte of a tile's SRAM: zero where it has been cleared, else what tasks left, which no task reads and the manual does
not define (R247). -/
def State.sramByte (s : State) (tile offset : Nat) : Byte :=
  match mapFind s.num.sram tile with
  | some n => Config.sramByte n offset
  | none => 0

/-- Byte `e` of word `(r, c)` of the block in slot `b` of a tile's streaming buffer. -/
def State.streamByte (s : State) (tile b r c e : Nat) : Byte := s.sramByte tile (streamOffset b r c e)

/-- A task fills SRAM of a tile. -/
def State.fillSram (s : State) (tile : Nat) : State :=
  { s with freeCtr := s.freeCtr + 1, num := { s.num with sram := mapInsert s.num.sram tile s.freeCtr } }

/-- A reset clears the SRAM of the tiles that `p` selects (R247). -/
def State.clearSram (s : State) (p : Nat → Bool) : State :=
  { s with num := { s.num with sram := s.num.sram.filter fun q => !p q.1 } }

end Sys2Proof.Machine
end

