-- ==== Sys2Proof/Machine/Formats.lean ====
section
/-! DEFINITION. Format codes, element values, conversions into a format, scale modes and the choice of block scales
(Number Formats and Encodings; R229, R231, R482). -/

namespace Sys2Proof.Machine

/-- Bits per element of a format code 0x00–0x0E (Table 3.1); 0 for any other code. -/
def fmtBits (fmt : Nat) : Nat :=
  match fmt with
  | 0x00 => 64 | 0x01 => 32 | 0x02 => 16 | 0x03 => 16 | 0x04 => 8 | 0x05 => 8 | 0x06 => 6 | 0x07 => 6
  | 0x08 => 4 | 0x09 => 8 | 0x0A => 4 | 0x0B => 2 | 0x0C => 2 | 0x0D => 40 | 0x0E => 8 | _ => 0

/-- Is the format stored in bit planes (R91)? -/
def isPlanar (fmt : Nat) : Bool := fmt = 0x06 || fmt = 0x07 || fmt = 0x08 || fmt = 0x0A || fmt = 0x0B || fmt = 0x0C

/-- Bytes per element of a byte format: 8 for A40 in memory (R78). -/
def fmtBytes (fmt : Nat) : Nat := if fmt = 0x0D then 8 else fmtBits fmt / 8

/-- Is the code one of Table 3.1 (R63)? -/
def fmtKnown (fmt : Nat) : Bool := decide (fmt ≤ 0x0E)

/-- The layout of a floating-point format code. -/
def floatFmt? (fmt : Nat) : Option FloatFmt :=
  match fmt with
  | 0x00 => some fmtFp64 | 0x01 => some fmtFp32 | 0x02 => some fmtBf16 | 0x03 => some fmtFp16
  | 0x04 => some fmtE4M3 | 0x05 => some fmtE5M2 | 0x06 => some fmtE3M2 | 0x07 => some fmtE2M3
  | 0x08 => some fmtE2M1 | 0x0D => some fmtA40 | _ => none

/-- Integer formats, to which the signedness bit applies (R64). -/
def isIntFmt (fmt : Nat) : Bool := fmt = 0x09 || fmt = 0x0A || fmt = 0x0B

/-- The value of an E8M0 code (R72). -/
def e8m0Value (code : Nat) : Num := if code % 256 = 0xFF then .nan else nPow2 ((code % 256 : Nat) - 127)

/-- The value of a ternary code (R69): 0b10 reads as 0. -/
def ternaryValue (code : Nat) : Num :=
  match code % 4 with
  | 1 => .fin false 1 0
  | 3 => .fin true 1 0
  | _ => nZero

/-- The value of an element's code before any scale (R65, R69, R72). -/
def elemValue (fmt : Nat) (signed : Bool) (code : Nat) : Num :=
  match floatFmt? fmt with
  | some f => decodeFloat f (code % 2 ^ fmtWidth f)
  | none =>
    if isIntFmt fmt then
      if signed then nInt (toSigned (fmtBits fmt) code) else nNat (code % 2 ^ fmtBits fmt)
    else if fmt = 0x0C then ternaryValue code
    else e8m0Value code

/-- Block size of a scale mode: 32, 16, or 0 for the modes without blocks (Table 3.6). -/
def blockSize (mode : Nat) : Nat := if mode = 1 then 32 else if mode = 2 then 16 else 0

/-- Is the mode an E8M0 mode? -/
def isE8m0Mode (mode : Nat) : Bool := mode = 1 || mode = 2

/-- Is the scale mode allowed for the format (Table 3.6, R71)? -/
def scaleModeAllowed (mode fmt : Nat) : Bool :=
  match mode with
  | 0 => true
  | 1 | 2 => decide (0x04 ≤ fmt ∧ fmt ≤ 0x0C)
  | 3 => decide (0x01 ≤ fmt ∧ fmt ≤ 0x0C)
  | _ => false

/-- Exponent of the implicit factor in E8M0 modes: `2 - w` for integers (Table 3.7). -/
def implicitExp (fmt : Nat) : Int := if isIntFmt fmt then 2 - (fmtBits fmt : Int) else 0

/-- Formats the subnormal flush of R82 applies to: FP64, FP32, BF16, FP16, and A40 as an output. -/
def flushApplies (fmt : Nat) (output : Bool) : Bool := decide (fmt ≤ 0x03) || (output && decide (fmt = 0x0D))

/-- The largest magnitude an element format can hold as an integer target: lower and upper ends (R88). -/
def intRange (fmt : Nat) (signed e8m0 : Bool) : Int × Int :=
  let w := fmtBits fmt
  if fmt = 0x0C then (-1, 1)
  else if signed then
    (if fmt = 0x09 ∧ e8m0 then -127 else -((2 ^ (w - 1) : Nat) : Int), ((2 ^ (w - 1) : Nat) : Int) - 1)
  else (0, ((2 ^ w : Nat) : Int) - 1)

/-- The code of an integer in an integer or ternary format. -/
def intCode (fmt : Nat) (i : Int) : Nat :=
  if fmt = 0x0C then (if i = 0 then 0 else if i = 1 then 1 else 3) else ofSigned (fmtBits fmt) i

/-- `x` rounded to an integer, by R81 or by a draw (R88, R229). -/
def roundToInt (u : Option Nat) : Num → Int
  | .fin s m e =>
    let k : Int := roundMult u m e 0
    if s then -k else k
  | _ => 0

/-- Conversion to an integer or ternary target (R88, Table 3.12). -/
def convertInt (fmt : Nat) (signed e8m0 : Bool) (u : Option Nat) (x : Num) : F Nat := do
  let (lo, hi) := intRange fmt signed e8m0
  match x with
  | .nan => noteNanLost; return 0
  | .inf s => noteSaturate; return intCode fmt (if s then lo else hi)
  | .fin _ _ _ =>
    let i := roundToInt u x
    if i < lo then noteSaturate; return intCode fmt lo
    else if i > hi then noteSaturate; return intCode fmt hi
    else return intCode fmt i

/-- Conversion to an E8M0 code (R482): the nearest power of two, ties to the even exponent field. -/
def convertE8m0 (x : Num) : F Nat := do
  match x with
  | .nan => return 0xFF
  | .inf s => if s then noteNanMade; return 0xFF else noteSaturate; return 0xFE
  | .fin s m e =>
    if m = 0 ∨ s then noteNanMade; return 0xFF
    else
      let n := bitLength m
      let k : Int := e + n - 1
      let top := 2 ^ (n - 1)
      -- m against 1.5 × 2^(n-1)
      let up := decide (2 * m > 3 * top) || (decide (2 * m = 3 * top) && decide ((k + 127) % 2 ≠ 0))
      let k := if up then k + 1 else k
      if k > 127 then noteSaturate; return 0xFE
      else if k < -127 then noteSaturate; return 0x00
      else return (k + 127).toNat

/-- Conversion to a narrow floating-point target, which saturates (R87, Table 3.12). -/
def convertNarrow (fmt : Nat) (f : FloatFmt) (u : Option Nat) (x : Num) : F Nat := do
  let sat (s : Bool) : Nat := bitOf s <<< (f.ebits + f.mbits) + maxFiniteCode f
  match x with
  | .nan =>
    if f.special = 2 then noteNanLost; return 0
    else return canonicalNan f
  | .inf s =>
    if fmt = 0x05 then return encodeFloat f x
    else if fmt = 0x04 then noteNanMade; return canonicalNan f
    else noteSaturate; return sat s
  | .fin s _ _ =>
    let y := roundPrec f u x
    if overflows f y then noteSaturate; return sat s
    else return encodeFloat f y

/-- Conversion of `x` to a code of `fmt` with one rounding: to nearest even, or by the draw `u` (R81, R87, R88, R229,
R482). `e8m0` says that the target element is written in an E8M0 mode (R88's exception for signed INT8), and
`flushOn` applies R82 to the rounded output. -/
def convertTo (fmt : Nat) (signed e8m0 flushOn : Bool) (u : Option Nat) (x : Num) : F Nat := do
  match floatFmt? fmt with
  | some f =>
    if decide (fmt ≤ 0x03) || decide (fmt = 0x0D) then
      let y := roundPrec f u x
      let z := if overflows f y then .inf (isNeg y) else y
      let w ← flushNum f flushOn z
      return encodeFloat f w
    else convertNarrow fmt f u x
  | none => if fmt = 0x0E then convertE8m0 x else convertInt fmt signed e8m0 u x

/-- The scale exponent of Table 9.6. -/
def emaxOf (fmt : Nat) (signed : Bool) : Int :=
  match fmt with
  | 0x04 => 8 | 0x05 => 15 | 0x06 => 4 | 0x07 => 2 | 0x08 => 2
  | 0x09 | 0x0A | 0x0B => if signed then 0 else 1
  | _ => 0

/-- Fmax of Table 9.6: the largest written magnitude under a block scale, implicit factor included. -/
def fmaxBlock (fmt : Nat) (signed : Bool) : Num :=
  match floatFmt? fmt with
  | some f => maxFinite f
  | none => nScale (implicitExp fmt) (nInt (intRange fmt signed true).2)

/-- The largest finite element value without any implicit factor (R232). -/
def fmaxTensor (fmt : Nat) (signed : Bool) : Num :=
  match floatFmt? fmt with
  | some f => maxFinite f
  | none => nInt (intRange fmt signed false).2

/-- Floor of log2 of a finite non-zero magnitude. -/
def floorLog2 : Num → Int
  | .fin _ m e => e + (bitLength m : Int) - 1
  | _ => 0

/-- The rounded value of a magnitude in the element format and its implicit factor, with an unbounded range above, as
R231 compares it with Fmax. -/
def roundElem (fmt : Nat) (x : Num) : Num :=
  match floatFmt? fmt with
  | some f => roundPrec f none x
  | none => nScale (implicitExp fmt) (nInt (roundToInt none (nScale (-(implicitExp fmt)) x)))

/-- The block scale code for a largest finite magnitude `a` (R231). -/
def chooseScale (fmt : Nat) (signed headroom : Bool) (a : Num) : Nat :=
  if isZero a then 0
  else
    let e0 := floorLog2 a - emaxOf fmt signed + 127
    let e : Nat := if e0 < 0 then 0 else if e0 > 254 then 254 else e0.toNat
    if headroom && decide (e < 254) &&
        ltNum (fmaxBlock fmt signed) (roundElem fmt (nScale (127 - (e : Int)) a)) then e + 1
    else e

/-- The largest finite magnitude of a block (R231); +0 for none. -/
def blockMax (vs : List Num) : Num :=
  vs.foldl (fun a v => if isFin v && ltNum a (nAbs v) then nAbs v else a) nZero

/-- Quantisation of one block into an E8M0 mode (R90): the scale code and the element codes. `draw i` is the draw of
element `i` of the block when rounding is stochastic. The values have F of R89 applied. -/
def quantBlock (fmt : Nat) (signed headroom : Bool) (draw : Nat → Option Nat) (vs : List Num) : F (Nat × List Nat) := do
  if vs.any isNan then
    noteNanLost
    return (0xFF, vs.map fun _ => 0)
  else
    let e := chooseScale fmt signed headroom (blockMax vs)
    let codes ← vs.zipIdx.mapM fun (v, i) =>
      convertTo fmt signed true false (draw i) (nScale (127 - (e : Int) - implicitExp fmt) v)
    return (e, codes)

end Sys2Proof.Machine
end

