-- ==== Sys2Proof/Machine/FnTable.lean ====
section
/-! DEFINITION. Function-slot images (R127), the evaluation of a slot at an FP32 input (R128, Table 5.6), the order
of row reductions (R122), curves and bias corrections (R209, R210). -/

namespace Sys2Proof.Machine

/-- FP32 word at bit offset `lo` of a slot image. -/
def imgWord (img lo : Nat) : Nat := (img >>> lo) % 2 ^ 32

/-- kind of a slot image (Table 5.5). -/
def slotKind (img : Nat) : Nat := img % 256

/-- q of a slot image, signed (Table 5.5). -/
def slotQ (img : Nat) : Int := toSigned 8 (img >>> 8)

/-- Coefficient `c` of segment `s` of the value table, or of the derivative table (R127). -/
def slotCoeff (img : Nat) (deriv : Bool) (s c : Nat) : Num :=
  fp32 (imgWord img (8 * ((if deriv then 3136 else 64) + 12 * s + 4 * c)))

/-- A tail of the value or derivative table: slope and intercept (Table 5.5). -/
def slotTail (img : Nat) (deriv high : Bool) : Num × Num :=
  let base := (if deriv then 192 else 64) + (if high then 64 else 0)
  (fp32 (imgWord img base), fp32 (imgWord img (base + 32)))

/-- One rounding to FP32 with no flush: the steps inside a table evaluation are not flushed (R120). -/
def rnf (x : Num) : F Num := rnTo fmtFp32 false x

/-- `fma(a, b, c)` rounded once to FP32. -/
def fmaRn (a b c : Num) : F Num := do rnf (← fFma a b c)

/-- P(s, d) := fma(fma(c2, d, c1), d, c0) (R128). -/
def segPoly (img : Nat) (deriv : Bool) (s : Nat) (d : Num) : F Num := do
  let t ← fmaRn (slotCoeff img deriv s 2) d (slotCoeff img deriv s 1)
  fmaRn t d (slotCoeff img deriv s 0)

/-- Floor of a finite value. -/
def floorNum : Num → Int
  | .fin s m e =>
    let k : Int := if s then -(m : Int) else m
    if 0 ≤ e then k * ((2 ^ e.toNat : Nat) : Int) else k / ((2 ^ (-e).toNat : Nat) : Int)
  | _ => 0

/-- A table of kind 4 (R128). -/
def evalUniform (img : Nat) (deriv : Bool) (x : Num) : F Num := do
  let lo := fp32 (imgWord img 32)
  let q := slotQ img
  let hi := exactAdd lo (nPow2 (8 - q))
  let tail (high : Bool) : F Num := do
    let (slope, icpt) := slotTail img deriv high
    if isZero slope then return icpt else fmaRn slope x icpt
  if ltNum x lo then tail false
  else if leNum hi x then tail true
  else
    let u ← rnf (exactAdd x (nNeg lo))
    let s := min (floorNum (nScale q u)).toNat 255
    let d := exactAdd u (nNeg (nScale (-q) (nNat s)))
    segPoly img deriv s d

/-- exp2, kind 0 (R128). -/
def evalExp2 (img : Nat) (deriv : Bool) (x : Num) : F Num := do
  if isInf x then (if isNeg x then return nZero else return .inf false)
  else if leNum (nNat 128) x then return .inf false
  else if ltNum x (nInt (-150)) then return nZero
  else
    let n := floorNum x
    let f ← rnf (exactAdd x (nInt (-n)))
    let (n, f) := if eqNum f nOne then (n + 1, nZero) else (n, f)
    let s := (floorNum (nScale 7 f)).toNat
    let d := exactAdd f (nNeg (nScale (-7) (nNat s)))
    let p ← segPoly img deriv s d
    rnf (nScale n p)

/-- The exponent and the 23 fraction bits of a finite non-zero FP32 magnitude, subnormals normalised (R128). -/
def normParts : Num → Int × Nat
  | .fin _ m e =>
    let b := bitLength m
    (e + (b : Int) - 1, if b ≤ 24 then m <<< (24 - b) else m >>> (b - 24))
  | _ => (0, 0)

/-- log2, reciprocal and reciprocal square root, kinds 1–3 (R128, Table 5.6). -/
def evalKind123 (kind img : Nat) (deriv : Bool) (x : Num) : F Num := do
  match x with
  | .nan => return .nan
  | .inf s =>
    if kind = 2 then return .fin s 0 0
    else if s then noteNanMade; return .nan
    else if kind = 1 then return .inf false
    else return nZero
  | .fin s m _ =>
    if m = 0 then (if kind = 1 then return .inf true else return .inf s)
    else if s ∧ kind ≠ 2 then noteNanMade; return .nan
    else
      let (e, sig) := normParts x          -- sig = m × 2^23, in [2^23, 2^24)
      if kind = 3 then
        let odd := (e % 2).toNat
        let e2 := e - odd
        let w : Num := .fin false sig (odd - 23)
        let seg := if odd = 0 then (floorNum (nScale 6 (exactAdd w (nInt (-1))))).toNat
          else 64 + (floorNum (nScale 5 (exactAdd w (nInt (-2))))).toNat
        let base : Num := if seg < 64 then exactAdd nOne (nScale (-6) (nNat seg))
          else exactAdd (nNat 2) (nScale (-5) (nNat (seg - 64)))
        let p ← segPoly img deriv seg (exactAdd w (nNeg base))
        rnf (nScale (-(e2 / 2)) p)
      else
        let seg := (sig >>> 16) % 128
        let d : Num := .fin false (sig % 2 ^ 16) (-23)
        let p ← segPoly img deriv seg d
        if kind = 1 then rnf (← fAdd (nInt e) p)
        else
          let r ← rnf (nScale (-e) p)
          return (if s then nNeg r else r)

/-- A special-function lane's evaluation of a slot image at an FP32 input (R128). -/
def evalSlot (img : Nat) (deriv : Bool) (x : Num) : F Num :=
  if isNan x then pure .nan
  else match slotKind img with
    | 0 => evalExp2 img deriv x
    | 4 => evalUniform img deriv x
    | k => evalKind123 k img deriv x

/-- A table evaluation as one lane operation: its result is flushed, its steps are not (R120, R128). -/
def evalLane (img : Nat) (deriv flushOn : Bool) (x : Num) : F Num := do
  flushNum fmtFp32 flushOn (← evalSlot img deriv x)

/-- The empty image (R129). -/
def slotEmpty (img : Nat) : Bool := img = 0

/-- Has any FP32 word of the header or coefficients an exponent of all ones (R129)? -/
def imageHasSpecial (img : Nat) : Bool :=
  let special (w : Nat) : Bool := field w 30 23 = 0xFF
  (span 1 9).any (fun i => special (imgWord img (32 * i))) ||
  (List.range 1536).any (fun i => special (imgWord img (512 + 32 * i)))

/-- Is the image accepted by a commit of group 0x2310 (R129)? -/
def imageAccepted (img : Nat) : Bool :=
  slotEmpty img ||
  (decide (slotKind img = 4) && decide (-8 ≤ slotQ img) && decide (slotQ img ≤ 16) && !imageHasSpecial img)

/-! ### Row reductions (R122) -/

/-- One step of the tree of R122: lanes `j` and `j + w` combined for `j` below `w`. -/
def treeStep (op : Num → Num → F Num) (lanes : List Num) (w : Nat) : F (List Num) :=
  (lanes.take w).zip (lanes.drop w |>.take w) |>.mapM fun (a, b) => op a b

/-- The reduction of R122: 64 lanes started at `start`, elements folded into lane `i mod 64` by `step`, then the fixed
tree by `op`. -/
def reduceLanes {β : Type} (start : Num) (step : Num → β → F Num) (op : Num → Num → F Num) (xs : List β) : F Num := do
  let lanes ← xs.zipIdx.foldlM
    (fun (ls : List Num) (p : β × Nat) => do
      let v ← step (ls.getD (p.2 % 64) nZero) p.1
      return ls.set (p.2 % 64) v) (List.replicate 64 start)
  let out ← [32, 16, 8, 4, 2, 1].foldlM (fun ls w => treeStep op ls w) lanes
  return out.headD nZero

/-- A rounded FP32 sum with the flush of R120. -/
def addRn (flushOn : Bool) (a b : Num) : F Num := do rnTo fmtFp32 flushOn (← fAdd a b)
/-- A rounded FP32 product with the flush of R120. -/
def mulRn (flushOn : Bool) (a b : Num) : F Num := do rnTo fmtFp32 flushOn (← fMul a b)
/-- A fused multiply-add rounded once to FP32 with the flush of R120. -/
def fmaFl (flushOn : Bool) (a b c : Num) : F Num := do rnTo fmtFp32 flushOn (← fFma a b c)
/-- A rounded FP32 quotient (R205). -/
def divRn (flushOn : Bool) (a b : Num) : F Num := do rnTo fmtFp32 flushOn (← fDiv a b)
/-- A rounded FP32 square root (R205). -/
def sqrtRn (flushOn : Bool) (a : Num) : F Num := do rnTo fmtFp32 flushOn (← fSqrt a)

/-- The sum of a row (R122). -/
def sumRow (flushOn : Bool) (xs : List Num) : F Num :=
  reduceLanes nZero (fun l x => addRn flushOn l x) (addRn flushOn) xs

/-- The dot product of two rows (R122). -/
def dotRow (flushOn : Bool) (as bs : List Num) : F Num :=
  reduceLanes nZero (fun l (p : Num × Num) => fmaFl flushOn p.1 p.2 l) (addRn flushOn) (as.zip bs)

/-- The maximum of a row (R122). -/
def maxRow (xs : List Num) : F Num :=
  reduceLanes (.inf true) (fun l x => pure (maxNum l x)) (fun a b => pure (maxNum a b)) xs

/-! ### Schedules (R209, R210) -/

/-- The value of a curve of (step, FP32 value) points at step `t` (R209); `none` for a curve that is not defined
(its steps decrease). -/
def curveValue (pts : List (Nat × Num)) (t : Nat) : Option (F Num) :=
  let rec rising : List (Nat × Num) → Bool
    | a :: b :: rest => decide (a.1 ≤ b.1) && rising (b :: rest)
    | _ => true
  if !rising pts then none
  else match pts.head?, pts.getLast? with
    | some p0, some pn =>
      if t ≤ p0.1 then some (pure p0.2)
      else if t ≥ pn.1 then some (pure pn.2)
      else
        let i := (pts.takeWhile fun p => decide (p.1 ≤ t)).length - 1
        match pts[i]?, pts[i + 1]? with
        | some a, some b =>
          let r := rn64 (exactDiv (nNat (t - a.1)) (nNat (b.1 - a.1)))
          some do
            let dv := rn64 (← fAdd b.2 (nNeg a.2))
            return rn32 (rn64 (← fFma r dv a.2))
        | _, _ => none
    | _, _ => none

/-- The bias correction of `beta` at count `t` (R210). -/
def biasCorrection (beta : Num) (t : Nat) : Num :=
  let p := (List.range 32).foldl (fun (p : Num) j =>
    let p2 := rn64 (exactMul p p)
    if flag t (31 - j) then rn64 (exactMul p2 beta) else p2) nOne
  rn32 (rn64 (exactAdd nOne (nNeg p)))

end Sys2Proof.Machine
end

