-- ==== Sys2Proof/Machine/Crypto.lean ====
section
/-! DEFINITION. The public algorithms the manual names for its links and images: CRC-32, Reed–Solomon over GF(2^8)
(R293), SHA-384, HMAC and HKDF (R420, R429), AES-256-GCM (R294). Each is the standard's; the manual fixes its use. -/

namespace Sys2Proof.Machine

/-- The additive constants of the rounds of SHA-384 (FIPS 180-4), eight to a number, the first lowest. -/
def shaPacked : List Nat := [
  0xab1c5ed5da6d8118923f82a4af194f9b59f111f1b605d0193956c25bf348b538e9b5dba58189dbbcb5c0fbcfec4d3b2f7137449123ef65cd428a2f98d728ae22,
  0xc19bf174cf6926949bdc06a725c7123580deb1fe3b1696b172be5d74f27b896f550c7dc3d5ffb4e2243185be4ee4b28c12835b0145706fbed807aa98a3030242,
  0x76f988da831153b55cb0a9dcbd41fbd44a7484aa6ea6e4832de92c6f592b0275240ca1cc77ac9c650fc19dc68b8cd5b5efbe4786384f25e3e49b69c19ef14ad2,
  0x142929670a0e6e7006ca6351e003826fd5a79147930aa725c6e00bf33da88fc2bf597fc7beef0ee4b00327c898fb213fa831c66d2db43210983e5152ee66dfab,
  0x92722c851482353b81c2c92e47edaee6766a0abb3c77b2a8650a73548baf63de53380d139d95b3df4d2c6dfc5ac42aed2e1b21385c26c92627b70a8546d22ffc,
  0x106aa07032bbd1b8f40e35855771202ad69906245565a910d192e819d6ef5218c76c51a30654be30c24b8b70d0f89791a81a664bbc423001a2bfe8a14cf10364,
  0x682e6ff3d6b2b8a35b9cca4f7763e3734ed8aa4ae3418acb391c0cb3c5c95a6334b0bcb5e19b48a82748774cdf8eeb991e376c085141ab5319a4c116b8d2d0c8,
  0xc67178f2e372532bbef9a3f7b2c67915a4506cebde82bde990befffa23631e288cc702081a6439ec84c87814a1f0ab7278a5636f43172f60748f82ee5defb2fc,
  0x1b710b35131c471b113f9804bef90dae0a637dc5a2c898a606f067aa72176fbaf57d4f7fee6ed178eada7dd6cde0eb1ed186b8c721c0c207ca273eceea26619c,
  0x6c44198c4a4758175fcb6fab3ad6faec597f299cfc657e2a4cc5d4becb3e42b6431d67c49c100d4c3c9ebe0a15c9bebc32caab7b40c7249328db77f523047d84]

/-- The constant of round `t`. -/
def shaConstant (t : Nat) : Nat := (shaPacked.getD (t / 8) 0 >>> (64 * (t % 8))) % 2 ^ 64

/-- The S-box of AES (FIPS 197), entries 0–63. -/
def aesSbox0 : List Nat := [
  0x63, 0x7c, 0x77, 0x7b, 0xf2, 0x6b, 0x6f, 0xc5, 0x30, 0x01, 0x67, 0x2b, 0xfe, 0xd7, 0xab, 0x76, 0xca, 0x82, 0xc9, 0x7d, 0xfa, 0x59, 0x47, 0xf0, 0xad, 0xd4, 0xa2, 0xaf, 0x9c, 0xa4, 0x72, 0xc0, 0xb7, 0xfd, 0x93, 0x26, 0x36, 0x3f, 0xf7, 0xcc, 0x34, 0xa5, 0xe5, 0xf1, 0x71, 0xd8, 0x31, 0x15, 0x04, 0xc7, 0x23, 0xc3, 0x18, 0x96, 0x05, 0x9a, 0x07, 0x12, 0x80, 0xe2, 0xeb, 0x27, 0xb2, 0x75]

/-- The S-box of AES (FIPS 197), entries 64–127. -/
def aesSbox1 : List Nat := [
  0x09, 0x83, 0x2c, 0x1a, 0x1b, 0x6e, 0x5a, 0xa0, 0x52, 0x3b, 0xd6, 0xb3, 0x29, 0xe3, 0x2f, 0x84, 0x53, 0xd1, 0x00, 0xed, 0x20, 0xfc, 0xb1, 0x5b, 0x6a, 0xcb, 0xbe, 0x39, 0x4a, 0x4c, 0x58, 0xcf, 0xd0, 0xef, 0xaa, 0xfb, 0x43, 0x4d, 0x33, 0x85, 0x45, 0xf9, 0x02, 0x7f, 0x50, 0x3c, 0x9f, 0xa8, 0x51, 0xa3, 0x40, 0x8f, 0x92, 0x9d, 0x38, 0xf5, 0xbc, 0xb6, 0xda, 0x21, 0x10, 0xff, 0xf3, 0xd2]

/-- The S-box of AES (FIPS 197), entries 128–191. -/
def aesSbox2 : List Nat := [
  0xcd, 0x0c, 0x13, 0xec, 0x5f, 0x97, 0x44, 0x17, 0xc4, 0xa7, 0x7e, 0x3d, 0x64, 0x5d, 0x19, 0x73, 0x60, 0x81, 0x4f, 0xdc, 0x22, 0x2a, 0x90, 0x88, 0x46, 0xee, 0xb8, 0x14, 0xde, 0x5e, 0x0b, 0xdb, 0xe0, 0x32, 0x3a, 0x0a, 0x49, 0x06, 0x24, 0x5c, 0xc2, 0xd3, 0xac, 0x62, 0x91, 0x95, 0xe4, 0x79, 0xe7, 0xc8, 0x37, 0x6d, 0x8d, 0xd5, 0x4e, 0xa9, 0x6c, 0x56, 0xf4, 0xea, 0x65, 0x7a, 0xae, 0x08]

/-- The S-box of AES (FIPS 197), entries 192–255. -/
def aesSbox3 : List Nat := [
  0xba, 0x78, 0x25, 0x2e, 0x1c, 0xa6, 0xb4, 0xc6, 0xe8, 0xdd, 0x74, 0x1f, 0x4b, 0xbd, 0x8b, 0x8a, 0x70, 0x3e, 0xb5, 0x66, 0x48, 0x03, 0xf6, 0x0e, 0x61, 0x35, 0x57, 0xb9, 0x86, 0xc1, 0x1d, 0x9e, 0xe1, 0xf8, 0x98, 0x11, 0x69, 0xd9, 0x8e, 0x94, 0x9b, 0x1e, 0x87, 0xe9, 0xce, 0x55, 0x28, 0xdf, 0x8c, 0xa1, 0x89, 0x0d, 0xbf, 0xe6, 0x42, 0x68, 0x41, 0x99, 0x2d, 0x0f, 0xb0, 0x54, 0xbb, 0x16]

/-- The S-box of AES (FIPS 197). -/
def aesSbox : List Nat := aesSbox0 ++ aesSbox1 ++ aesSbox2 ++ aesSbox3


/-! ### CRC-32 (R295) -/

/-- One bit of the reflected CRC-32 of IEEE 802.3. -/
def crcBit (c : Nat) : Nat := if c % 2 = 1 then (c / 2) ^^^ 0xEDB88320 else c / 2

/-- One byte of the CRC. -/
def crcByte (c : Nat) (b : Byte) : Nat :=
  crcBit (crcBit (crcBit (crcBit (crcBit (crcBit (crcBit (crcBit (c ^^^ b.toNat))))))))

/-- The CRC-32 of IEEE 802.3. -/
def crc32 (bs : List Byte) : Nat := (bs.foldl crcByte 0xFFFFFFFF) ^^^ 0xFFFFFFFF

/-! ### GF(2^8) with x^8 + x^4 + x^3 + x^2 + 1 (R293) -/

/-- Multiplication by x in the field of modulus `p` (8 low bits). -/
def gfDouble (p a : Nat) : Nat := if a < 128 then 2 * a else (2 * a - 256) ^^^ p

/-- Product, by the bits of `b` from the top. -/
def gfMulAux (p a b : Nat) : Nat → Nat → Nat
  | 0, r => r
  | n + 1, r =>
    let r := gfDouble p r
    gfMulAux p a b n (if b.testBit n then r ^^^ a else r)

/-- Product in GF(2^8) with modulus 0x11D. -/
def gfMul (a b : Nat) : Nat := gfMulAux 0x1D a b 8 0

/-- Power. -/
def gfPow (a : Nat) : Nat → Nat
  | 0 => 1
  | n + 1 => gfMul a (gfPow a n)

/-- Inverse: a^254. -/
def gfInv (a : Nat) : Nat :=
  let a2 := gfMul a a
  let a3 := gfMul a2 a
  let a6 := gfMul a3 a3
  let a12 := gfMul a6 a6
  let a15 := gfMul a12 a3
  let a30 := gfMul a15 a15
  let a60 := gfMul a30 a30
  let a120 := gfMul a60 a60
  let a126 := gfMul a120 a6
  let a127 := gfMul a126 a
  gfMul a127 a127

/-- Value of a polynomial with the first coefficient highest. -/
def polyEval (cs : List Nat) (x : Nat) : Nat := cs.foldl (fun a c => gfMul a x ^^^ c) 0

/-- Value of a polynomial with the first coefficient lowest. -/
def polyEvalLow : List Nat → Nat → Nat
  | [], _ => 0
  | c :: cs, x => c ^^^ gfMul x (polyEvalLow cs x)

/-- Sum of two polynomials, lowest coefficient first. -/
def polyAdd : List Nat → List Nat → List Nat
  | [], b => b
  | a, [] => a
  | x :: a, y :: b => (x ^^^ y) :: polyAdd a b

/-- A polynomial times a constant. -/
def polyScale (k : Nat) (a : List Nat) : List Nat := a.map (gfMul k)

/-- Syndromes: the values at α^0 to α^7 (R293). -/
def rsSyndromes (cw : List Nat) : List Nat := (List.range 8).map fun i => polyEval cw (gfPow 2 i)

/-- The state of the Berlekamp–Massey iteration: locator, previous locator, length, gap, previous discrepancy. -/
structure BM where
  lam : List Nat
  prev : List Nat
  len : Nat
  gap : Nat
  disc : Nat
deriving Repr

/-- One step of the Berlekamp–Massey iteration on syndrome `n`. -/
def bmStep (syn : List Nat) (s : BM) (n : Nat) : BM :=
  let d := (List.range (s.len + 1)).foldl (fun a i => a ^^^ gfMul (s.lam.getD i 0) (if i ≤ n then syn.getD (n - i) 0 else 0)) 0
  if d = 0 then { s with gap := s.gap + 1 }
  else
    let t := polyAdd s.lam (List.replicate s.gap 0 ++ polyScale (gfMul d (gfInv s.disc)) s.prev)
    if 2 * s.len ≤ n then ⟨t, s.lam, n + 1 - s.len, 1, d⟩
    else { s with lam := t, gap := s.gap + 1 }

/-- The error locator and its degree. -/
def rsLocator (syn : List Nat) : List Nat × Nat :=
  let r := (List.range 8).foldl (bmStep syn) ⟨[1], [1], 0, 1, 1⟩
  (r.lam, r.len)

/-- Product of two polynomials modulo x^8, lowest first. -/
def polyMul8 (a b : List Nat) : List Nat :=
  (List.range 8).map fun k => (List.range (k + 1)).foldl (fun x i => x ^^^ gfMul (a.getD i 0) (b.getD (k - i) 0)) 0

/-- Decodes a 136-symbol word, first symbol of the highest degree: the corrected word and the number of symbols
corrected, or none when it is uncorrectable (R293: up to four). -/
def rsDecode (cw : List Nat) : Option (List Nat × Nat) :=
  let syn := rsSyndromes cw
  if syn.all (· == 0) then some (cw, 0)
  else
    let (lam, deg) := rsLocator syn
    if deg > 4 then none
    else
      -- position i of the word has degree 135 - i
      let roots := (List.range 136).filter fun i => polyEvalLow lam (gfInv (gfPow 2 (135 - i))) == 0
      if roots.length ≠ deg then none
      else
        let omega := polyMul8 syn lam
        let fixed := cw.zipIdx.map fun (c, i) =>
          if roots.contains i then
            let x := gfPow 2 (135 - i)
            let xi := gfInv x
            let dlam := lam.zipIdx.foldl (fun a (q : Nat × Nat) =>
              if q.2 % 2 = 1 then a ^^^ gfMul q.1 (gfPow xi (q.2 - 1)) else a) 0
            c ^^^ gfMul x (gfMul (polyEvalLow omega xi) (gfInv dlam))
          else c
        if (rsSyndromes fixed).all (· == 0) then some (fixed, deg) else none

/-- The eight parity symbols of 128 data symbols: the remainder by the generator polynomial. -/
def rsParity (data : List Nat) : List Nat :=
  let gen := (List.range 8).foldl (fun g i => polyAdd (0 :: g) (polyScale (gfPow 2 i) g)) [1]   -- lowest first
  let gTail := (gen.take 8).reverse                                                             -- below the leading 1
  data.foldl (fun (r : List Nat) d =>
    let k := d ^^^ r.headD 0
    let sh := r.drop 1 ++ [0]
    (sh.zip gTail).map fun p => p.1 ^^^ gfMul k p.2) (List.replicate 8 0)

/-! ### SHA-384, HMAC, HKDF -/

/-- The exclusive or of a 64-bit word turned right by each of these distances: the word stands twice over in 128 bits,
and each turn is a window of them. -/
def turns (x : Nat) (by_ : List Nat) : Nat :=
  let twice := x + x <<< 64
  by_.foldl (fun acc d => acc ^^^ (twice >>> d) % 2 ^ 64) 0

/-- The hash value SHA-384 begins with, one number, the first word lowest. -/
def shaStart : Nat :=
  0x47b5481dbefa4fa4db0c2e0d64f98fa78eb44a876858151167332667ffc00b31152fecd8f70e59399159015a3070dd17629a292a367cd507cbbb9d5dc1059ed8

/-- The `n` 64-bit words of a number, the lowest first. -/
def words64 (n v : Nat) : List Nat := (List.range n).map fun i => (v >>> (64 * i)) % 2 ^ 64

/-- The hash value between two rounds, its newest words in front: the four that follow the word called a in the standard,
and the four that follow e. -/
structure ShaWords where
  upper : List Nat
  lower : List Nat

/-- One round: the words after the first of each half choose and vote, the last of each half leaves. -/
def ShaWords.round (v : ShaWords) (added : Nat) : ShaWords :=
  let u (i : Nat) : Nat := v.upper.getD i 0
  let l (i : Nat) : Nat := v.lower.getD i 0
  let chosen := l 2 ^^^ (l 0 &&& (l 1 ^^^ l 2))
  let voted := (u 0 &&& u 1) ||| (u 2 &&& (u 0 ||| u 1))
  let carried := l 3 + turns (l 0) [14, 18, 41] + chosen + added
  ⟨(carried + turns (u 0) [28, 34, 39] + voted) % 2 ^ 64 :: v.upper.take 3, (u 3 + carried) % 2 ^ 64 :: v.lower.take 3⟩

/-- The next word of the message schedule, from the sixteen before it, oldest first. -/
def nextWord (w : List Nat) : Nat :=
  let near := w.getD 14 0
  let far := w.getD 1 0
  (w.getD 0 0 + w.getD 9 0 + (turns near [19, 61] ^^^ near / 2 ^ 6) + (turns far [1, 8] ^^^ far / 2 ^ 7)) % 2 ^ 64

/-- `n` rounds from round `t` on, with the sixteen words of the schedule that begin there. -/
def shaRounds : Nat → Nat → List Nat → ShaWords → ShaWords
  | 0, _, _, v => v
  | n + 1, t, w, v => shaRounds n (t + 1) (w.drop 1 ++ [nextWord w]) (v.round (shaConstant t + w.headD 0))

/-- The hash value after one more block of 128 bytes. -/
def shaBlock (h : List Nat) (block : List Byte) : List Nat :=
  let v := shaRounds 80 0 ((chunks 8 block).map ofBe) ⟨h.take 4, h.drop 4⟩
  List.zipWith (fun x y => (x + y) % 2 ^ 64) h (v.upper ++ v.lower)

/-- SHA-384 of bytes, as 48 bytes. -/
def sha384 (m : List Byte) : List Byte :=
  let n := m.length
  let pad := (239 - n % 128) % 128
  let padded := m ++ [0x80#8] ++ List.replicate pad 0#8 ++ beBytes 16 (8 * n)
  let h := (chunks 128 padded).foldl shaBlock (words64 8 shaStart)
  (h.flatMap (beBytes 8)).take 48

/-- HMAC with SHA-384. -/
def hmac384 (key m : List Byte) : List Byte :=
  let k := padTo 128 0#8 (if key.length > 128 then sha384 key else key)
  sha384 (k.map (· ^^^ 0x5C#8) ++ sha384 (k.map (· ^^^ 0x36#8) ++ m))

/-- T(i) of HKDF-Expand. -/
def hkdfBlocks (prk info : List Byte) : Nat → Nat → List Byte → List Byte
  | 0, _, _ => []
  | n + 1, i, t =>
    let t := hmac384 prk (t ++ info ++ [BitVec.ofNat 8 i])
    t ++ hkdfBlocks prk info n (i + 1) t

/-- HKDF-Expand with SHA-384. -/
def hkdfExpand (prk info : List Byte) (n : Nat) : List Byte := (hkdfBlocks prk info ((n + 47) / 48) 1 []).take n

/-- A label as bytes. -/
def label (s : String) : List Byte := s.toList.map fun c => BitVec.ofNat 8 c.toNat

/-! ### AES-256-GCM -/

/-- The S-box on a byte. -/
def subByte (b : Nat) : Nat := aesSbox.getD b 0

/-- The words of the AES-256 key schedule, each four bytes, newest first. -/
def aesExpand : Nat → Nat → List (List Nat) → List (List Nat)
  | 0, _, w => w
  | n + 1, i, w =>
    let t := w.headD []
    let rcon := gfMulAux 0x1B (2 ^ ((i / 8 - 1) % 8)) 1 8 0
    let t := if i % 8 = 0 then
        match (t.drop 1 ++ t.take 1).map subByte with
        | a :: r => (a ^^^ rcon) :: r
        | [] => []
      else if i % 8 = 4 then t.map subByte else t
    aesExpand n (i + 1) (((w.getD 7 []).zip t).map (fun p => p.1 ^^^ p.2) :: w)

/-- The 15 round keys of 16 bytes. -/
def aesKeys (key : List Byte) : List (List Nat) :=
  let w := (aesExpand 52 8 ((chunks 4 (key.map (·.toNat))).reverse)).reverse
  (chunks 4 w).map List.flatten

/-- ShiftRows on 16 bytes in column order. -/
def shiftRows (s : List Nat) : List Nat := (List.range 16).map fun i => s.getD ((i + 4 * (i % 4)) % 16) 0

/-- Multiplication in the field of AES. -/
def aesMul (a b : Nat) : Nat := gfMulAux 0x1B a b 8 0

/-- MixColumns on one column. -/
def mixColumn (c : List Nat) : List Nat :=
  (List.range 4).map fun i =>
    aesMul 2 (c.getD i 0) ^^^ aesMul 3 (c.getD ((i + 1) % 4) 0) ^^^ c.getD ((i + 2) % 4) 0 ^^^ c.getD ((i + 3) % 4) 0

/-- Bytewise exclusive or. -/
def xorList (a b : List Nat) : List Nat := (a.zip b).map fun p => p.1 ^^^ p.2

/-- AES-256 encryption of one block. -/
def aesBlock (keys : List (List Nat)) (m : List Nat) : List Nat :=
  let s := xorList m (keys.headD [])
  let s := ((keys.drop 1).take 13).foldl (fun s k =>
    xorList ((chunks 4 (shiftRows (s.map subByte))).flatMap mixColumn) k) s
  xorList (shiftRows (s.map subByte)) (keys.getD 14 [])

/-- Product in the field of GHASH, blocks as numbers with the first bit highest. -/
def ghashMulAux (y : Nat) : Nat → Nat → Nat → Nat
  | 0, _, z => z
  | n + 1, v, z =>
    let z := if y.testBit n then z ^^^ v else z
    ghashMulAux y n (if v % 2 = 1 then (v / 2) ^^^ (0xE1 <<< 120) else v / 2) z

/-- Product in the field of GHASH. -/
def ghashMul (x y : Nat) : Nat := ghashMulAux y 128 x 0

/-- GHASH of additional data and ciphertext. -/
def ghash (h : Nat) (aad ct : List Byte) : Nat :=
  let blocks (bs : List Byte) : List Nat := (chunks 16 bs).map fun c => ofBe (padTo 16 0#8 c)
  let lens := (8 * aad.length) <<< 64 + 8 * ct.length
  (blocks aad ++ blocks ct ++ [lens]).foldl (fun y b => ghashMul (y ^^^ b) h) 0

/-- AES-256-GCM: the data combined with the key stream, and the full 128-bit tag over `aad` and the ciphertext
`ct`. -/
def gcm (key nonce aad data : List Byte) (decrypting : Bool) : List Byte × List Byte :=
  let ks := aesKeys key
  let enc (ctr : Nat) : List Nat := aesBlock ks ((nonce ++ beBytes 4 ctr).map (·.toNat))
  let h := ofBe ((aesBlock ks (List.replicate 16 0)).map fun n => BitVec.ofNat 8 n)
  let out := ((chunks 16 data).zipIdx.flatMap fun (c, i) =>
    (c.zip (enc (i + 2))).map fun p => p.1 ^^^ BitVec.ofNat 8 p.2)
  let ct := if decrypting then data else out
  let tag := beBytes 16 (ghash h aad ct ^^^ ofBe ((enc 1).map fun n => BitVec.ofNat 8 n))
  (out, tag)

end Sys2Proof.Machine
end

