-- ==== Sys2Proof/Machine/Memory.lean ====
section
/-! DEFINITION. Memory: canonical cells, the page map, translation caches, the shared cache, poison, and accesses by
virtual address (Memory Hierarchy). -/

namespace Sys2Proof.Machine

/-! ### Cells -/

/-- What an address that is not listed reads as: log entry 3. -/
def memDefault : Byte := 0

/-- The byte at a physical address. -/
def memByte (m : List Host.Cell) (a : Nat) : Byte := (mapFind m a).getD memDefault

/-- Memory with one byte written. -/
def memPut (m : List Host.Cell) (a : Nat) (b : Byte) : List Host.Cell := mapPut memDefault m a b

/-- Memory with bytes written from an address up. -/
def memPutAll (m : List Host.Cell) (a : Nat) : List Byte → List Host.Cell
  | [] => m
  | b :: bs => memPutAll (memPut m a b) (a + 1) bs

/-- `n` bytes from a physical address up. -/
def memBytes (m : List Host.Cell) (a n : Nat) : List Byte := (List.range n).map fun i => memByte m (a + i)

/-- The canonical form: addresses rising, no entry equal to what an unlisted address reads as. -/
def memWf (m : List Host.Cell) : Bool := mapWf memDefault m

/-- Memory without the cells from `lo` to `hi - 1`. -/
def memClear (m : List Host.Cell) (lo hi : Nat) : List Host.Cell :=
  m.filter fun c => decide (c.1 < lo) || decide (hi ≤ c.1)

/-! ### Sorted sets of numbers -/

/-- The set with `n`. -/
def setAdd (n : Nat) : List Nat → List Nat
  | [] => [n]
  | a :: rest => if n < a then n :: a :: rest else if n = a then a :: rest else a :: setAdd n rest

/-- The set without `n`. -/
def setDel (n : Nat) (l : List Nat) : List Nat := l.filter (· != n)

/-! ### Physical places (R252, R253, R256) -/

/-- Bytes of a page. -/
def pageBytes : Nat := 2 ^ 21

/-- First physical address of far memory. -/
def farBase : Nat := 2 ^ 43

/-- Frames of a stack that may be granted: the page map and the allocator's tables take the rest (R275). -/
def stackFrames : Nat := 65510

/-- Physical address of near frame `stack × 65,536 + frame`. -/
def nearPhys (f : Nat) : Nat := f * pageBytes

/-- Physical address of far frame `port × 2^22 + frame`. -/
def farPhys (f : Nat) : Nat := farBase + f * pageBytes

/-- state of a page-map entry (Table 10.12): 0 absent, 1 near, 2 far, 3 migrating. -/
def entState (e : Nat) : Nat := field e 63 62
/-- policy of an entry. -/
def entPolicy (e : Nat) : Nat := field e 61 60
/-- to_far of an entry. -/
def entToFar (e : Nat) : Bool := flag e 59
/-- access_count of an entry. -/
def entCount (e : Nat) : Nat := field e 58 43
/-- slot of an entry. -/
def entSlot (e : Nat) : Nat := field e 42 27
/-- allocated of an entry. -/
def entAllocated (e : Nat) : Bool := flag e 26
/-- location of an entry: a near frame as stack × 65,536 + frame, or a far frame as port × 2^22 + frame. -/
def entLocation (e : Nat) : Nat := field e 23 0

/-- An entry of Table 10.12. -/
def mkEntry (st policy : Nat) (toFar : Bool) (count slot : Nat) (allocated : Bool) (loc : Nat) : Nat :=
  st <<< 62 + policy <<< 60 + bitOf toFar <<< 59 + count <<< 43 + slot <<< 27 + bitOf allocated <<< 26 + loc

/-- The entry of a page. -/
def State.entry (s : State) (page : Nat) : Nat := mapGet 0 s.mem.pages page

/-- The state with this entry for the page. -/
def State.setEntry (s : State) (page e : Nat) : State :=
  { s with mem := { s.mem with pages := mapPut 0 s.mem.pages page e } }

/-- Does the page lie in near memory now (a migrating page leaving near is still there, R279)? -/
def entNear (e : Nat) : Bool := entState e == 1 || (entState e == 3 && entToFar e)

/-- Physical address at which a page is read (Table 10.13). -/
def entPhys (e : Nat) : Nat := if entNear e then nearPhys (entLocation e) else farPhys (entLocation e)

/-- Home slice of a near physical line (R256). -/
def homeSlice (line : Nat) : Nat :=
  let l := line % 8192
  let f := line / 8192
  let j := f % 65536
  let hub := (f / 65536) / 5
  16 * hub + ((l % 16) ^^^ (l / 16 % 16) ^^^ (l / 256 % 16) ^^^ (j % 16))

/-- Lines of 256 bytes per slice that the hash accumulator takes (R177): 0x3110:01 in MiB over the 64 slices, and so 64
for each MiB. -/
def State.hashLines (s : State) : Nat := s.obj oHashCapacityMib * 64

/-- The near line that holds a page's entry. The map takes frames 65,510 and up of every stack (R275); that its pages of
2 MiB go round the stacks is the model's choice. DESIGN CHOICE (log entry 90). -/
def mapLine (page : Nat) : Nat :=
  let part := 8 * page / pageBytes
  (nearPhys (part % 20 * 65536 + stackFrames + part / 20) + 8 * page % pageBytes) / 256

/-- Set of a near line within its slice (R256), as slice × 1,024 + set. -/
def State.lineSet (s : State) (line : Nat) : Nat :=
  let l := line % 8192
  let j := line / 8192 % 65536
  homeSlice line * 1024 + (l + 8192 * j) % (1024 - s.hashLines / 16)

/-- The ECC location code of an atom of a stack (R253, Table 10.8). -/
def stackLocation (frame atom : Nat) (double : Bool) : Nat :=
  let k := frame / 65536
  let j := frame % 65536
  let g := atom / 32
  let h := (field j 4 2 * 0x2D9) % 4096
  let b := (j % 4 * 1024 + g) ^^^ h
  k <<< 48 + (b % 64) <<< 42 + (b / 64) <<< 36 + (j / 4) <<< 22 + (atom % 32) <<< 17 + bitOf double

/-! ### Shared cache (R255–R258) -/

/-- The state with dirty bytes of a line written back: what lay under them is forgotten (R258). -/
def State.writeBack (s : State) (line : Nat) : State :=
  let s := { s with mem := { s.mem with
    under := s.mem.under.filter fun p => p.1 / 256 != line } }
  (s.count oCacheWritebacks).addObj oStackWriteBytes 256

/-- One request to a near line at its home slice, with the bytes a stack moves for it where it is not allocated
(Table 10.6). Log entry 24 on what counts as one request. -/
def State.touchLine (s : State) (req : Req) (write : Bool) (line bytes : Nat) : State :=
  let set := s.lineSet line
  let ls := (mapFind s.mem.cache set).getD []
  match ls.find? (·.line == line) with
  | some c =>
    let ls := ⟨line, c.dirty || write⟩ :: ls.filter (·.line != line)
    let s := s.count oCacheHits
    { s with mem := { s.mem with cache := mapPut [] s.mem.cache set ls } }
  | none =>
    let s := s.count oCacheMisses
    match req with
    | .pass => if write then s.addObj oStackWriteBytes bytes else s.addObj oStackReadBytes bytes
    | .keep =>
      let s := s.addObj oStackReadBytes 256
      let s := match ls.drop 15 with
        | old :: _ => if old.dirty then s.writeBack old.line else s
        | [] => s
      { s with mem := { s.mem with cache := mapPut [] s.mem.cache set (⟨line, write⟩ :: ls.take 15) } }

/-- Is the line held dirty in its slice? -/
def State.lineDirty (s : State) (line : Nat) : Bool :=
  ((mapFind s.mem.cache (s.lineSet line)).getD []).any fun c => c.line == line && c.dirty

/-- Writes back and invalidates every line that `p` selects. -/
def State.dropLines (s : State) (p : Nat → Bool) (writeBack : Bool) : State :=
  let all := s.mem.cache.flatMap (·.2)
  let s := all.foldl (fun s c => if p c.line && c.dirty && writeBack then s.writeBack c.line else s) s
  { s with mem := { s.mem with cache :=
      (s.mem.cache.map fun q => (q.1, q.2.filter fun c => !p c.line)).filter fun q => !q.2.isEmpty } }

/-- Writes back every dirty line and keeps it (R371). -/
def State.cleanLines (s : State) : State :=
  let all := s.mem.cache.flatMap (·.2)
  let s := all.foldl (fun s c => if c.dirty then s.writeBack c.line else s) s
  { s with mem := { s.mem with cache := s.mem.cache.map fun q => (q.1, q.2.map fun c => ⟨c.line, false⟩) } }

/-- The cache and the hash accumulator cleared with dirty lines lost: the stacks' own bytes come back (R446). -/
def State.loseCache (s : State) : State :=
  let cells := s.mem.under.foldl (fun m p => memPut m p.1 (BitVec.ofNat 8 p.2)) s.mem.cells
  { s with mem := { s.mem with cells := cells, cache := [], under := [], hash := [] } }.setObj oHashEntriesValid 0

/-! ### Physical reads and writes -/

/-- The atom of a physical address. -/
def atomOf (a : Nat) : Nat := a / 64

/-- Location code of a poisoned atom for events. -/
def poisonLocation (atom : Nat) : Nat :=
  if atom * 64 < farBase then stackLocation (atom * 64 / pageBytes) (atom % 32768) true else 0

/-- The bytes of an atom that a physical range covers, one bit each. -/
def atomMask (a n atom : Nat) : Nat :=
  let lo := max a (atom * 64)
  let hi := min (a + n) (atom * 64 + 64)
  if lo < hi then (2 ^ (hi - lo) - 1) <<< (lo - atom * 64) else 0

/-- Poison with the bytes of a range overwritten: an atom all of whose bytes have been is poisoned no longer (R265). -/
def healPoison (poison : NatMap) (a n : Nat) : NatMap :=
  poison.filterMap fun p =>
    let m := p.2 ||| atomMask a n p.1
    if m = 2 ^ 64 - 1 then none else some (p.1, m)

/-- The first poisoned atom of a physical range. -/
def State.poisoned? (s : State) (a n : Nat) : Option Nat :=
  (s.mem.poison.map (·.1)).find? fun p => decide (p * 64 < a + n) && decide (a < p * 64 + 64)

/-- Writes physical bytes, keeping what a dirty line covers and clearing the poison they heal (R265). -/
def State.physWrite (s : State) (a : Nat) (bs : List Byte) : State :=
  let old := bs.zipIdx.filterMap fun p =>
    let x := a + p.2
    if decide (x < farBase) && s.lineDirty (x / 256) && (mapFind s.mem.under x).isNone then
      some (x, (memByte s.mem.cells x).toNat)
    else none
  { s with mem := { s.mem with
      cells := memPutAll s.mem.cells a bs
      under := old.foldl (fun m p => mapInsert m p.1 p.2) s.mem.under
      poison := healPoison s.mem.poison a bs.length } }

/-- The 256-byte lines of a physical range. -/
def linesOf (a n : Nat) : List Nat := if n = 0 then [] else span (a / 256) ((a + n - 1) / 256 + 1 - a / 256)

/-- Bytes of the atoms of a line that a range of `n` bytes meets: a stack moves whole atoms (Table 10.1). -/
def atomBytes (a n line : Nat) : Nat :=
  64 * (atomOf (min (a + n) (line * 256 + 256) - 1) + 1 - atomOf (max a (line * 256)))

/-- Requests for a near physical range. -/
def State.touch (s : State) (req : Req) (write : Bool) (a n : Nat) : State :=
  (linesOf a n).foldl (fun s l => s.touchLine req write l (atomBytes a n l)) s

/-! ### Initiators -/

/-- Who issues an access: its master class and unit (R433), its translation cache (R276), the placement epoch its
writes carry (R62), the record it works for, whether it may reach the host window (R409), and whether it delivers an
arriving message (R436). -/
structure Init where
  cls : Nat
  unit : Nat
  tc : Nat
  epoch : Option Nat := none
  record : Nat := 0xFFFFFFFF
  hostOk : Bool := false
  msg : Bool := false
deriving DecidableEq, Repr

/-- Tile `t`. -/
def tileInit (t : Nat) : Init := { cls := 0, unit := t, tc := t }
/-- Gather-and-merge engine `e`, for all but the rows it takes from the host window or scatters there (R409). -/
def gmInit (e : Nat) : Init := { cls := 1, unit := e, tc := 2048 + e }
/-- Update unit `u`. -/
def updInit (u : Nat) : Init := { cls := 2, unit := u, tc := 2112 + u }
/-- The initiator for rows of the host window: a source of a gather task, or the destination of scatter_rows (R409). -/
def Init.withHost (i : Init) : Init := { i with hostOk := true }
/-- The scheduler. Like the allocator and the resilience logic it never reaches the host window: Table 1.4 would let it,
R409 faults every use but the gather engine's. DESIGN CHOICE (log entry 89). -/
def schedInit : Init := { cls := 3, unit := 0x10, tc := 2141 }
/-- The allocator engine. -/
def allocInit : Init := { cls := 3, unit := 0x11, tc := 2141 }
/-- The paging engine. -/
def pagingInit : Init := { cls := 3, unit := 0x12, tc := 2141 }
/-- Far port `h` with its migration data. -/
def farInit (h : Nat) : Init := { cls := 0x30 + h, unit := h, tc := 2137 + h }
/-- The resilience logic. -/
def resilInit : Init := { cls := 3, unit := 0x13, tc := 2141 }
/-- The host through BAR2. -/
def hostInit : Init := { cls := 4, unit := 0, tc := 2136 }
/-- An arriving message of fabric port `p`, through collective engine `p div 8`. -/
def portInit (p : Nat) : Init := { cls := 0x10 + p, unit := p, tc := 2132 + p / 8, msg := true }

/-! ### Translation (R276–R278) -/

/-- Adds a translation cache's count to a hot page's access_count (R278). -/
def State.addCount (s : State) (page n : Nat) : State :=
  let e := s.entry page
  if n = 0 ∨ entPolicy e ≠ 2 ∨ entState e = 0 then s
  else s.setEntry page (setField e 58 43 (min 65535 (entCount e + n)))

/-- One access by a translation cache: a hit, or a page-map read through the shared cache that takes an entry and may
evict the least recently used (R276, R278, Table 10.6). Only near and far pages are kept. -/
def State.translate (s : State) (tc page : Nat) : State :=
  let ents := (mapFind s.mem.tcaches tc).getD []
  let e := s.entry page
  let hot := if entPolicy e = 2 then 1 else 0
  match ents.find? (·.1 == page) with
  | some q =>
    let ents := (page, q.2 + hot) :: ents.filter (·.1 != page)
    { s with mem := { s.mem with tcaches := mapPut [] s.mem.tcaches tc ents } }
  | none =>
    let s := (s.count oTranslationMisses).touchLine .keep false (mapLine page) 64
    if entState e = 1 ∨ entState e = 2 then
      let s := match ents.drop 255 with
        | old :: _ => s.addCount old.1 old.2
        | [] => s
      { s with mem := { s.mem with tcaches := mapPut [] s.mem.tcaches tc ((page, hot) :: ents.take 255) } }
    else s

/-- A shootdown (R277): every translation cache drops the page's entry; its counts are added as at an eviction
(R278). -/
def State.shootdown (s : State) (page : Nat) : State :=
  let n := s.mem.tcaches.foldl (fun a q => a + ((q.2.filter (·.1 == page)).map (·.2)).foldl (· + ·) 0) 0
  let s := s.addCount page n
  let s := { s with mem := { s.mem with tcaches :=
    (s.mem.tcaches.map fun (q : Nat × List (Nat × Nat)) =>
      (q.1, q.2.filter fun (r : Nat × Nat) => r.1 != page)).filter fun (q : Nat × List (Nat × Nat)) => !q.2.isEmpty } }
  s.count oShootdowns

/-- Every count is added to its page and reset (R278). -/
def State.flushCounts (s : State) : State :=
  let all := s.mem.tcaches.flatMap (·.2)
  let s := all.foldl (fun s q => s.addCount q.1 q.2) s
  { s with mem := { s.mem with tcaches := s.mem.tcaches.map fun q => (q.1, q.2.map fun r => (r.1, 0)) } }

/-! ### Accesses by virtual address -/

/-- A piece of an access: its address and length within one page. -/
def pieces (va n : Nat) : List (Nat × Nat) :=
  if n = 0 then []
  else
    let first := va / pageBytes
    let last := (va + n - 1) / pageBytes
    (span first (last + 1 - first)).map fun p =>
      let lo := max va (p * pageBytes)
      let hi := min (va + n) ((p + 1) * pageBytes)
      (lo, hi - lo)

/-- First address of the host window (R407). -/
def hostWindowBase : Nat := 0xFF0000000000

/-- Host bus address of a window address, when it is in the valid part (R407). -/
def State.hostBus (s : State) (va n : Nat) : Option Nat :=
  let y := va - hostWindowBase
  if y + n ≤ s.obj oHostWindowBytes then some (s.obj oHostWindowBusBase + y) else none

/-- Do the tables grant a class a right at an address (R435)? 1 is read, 2 write, 4 atomic. -/
def State.granted (s : State) (cls right va : Nat) : Bool :=
  s.memRights cls (va / pageBytes * pageBytes) &&& right == right

/-- Does a memory window of the locked image cover the address, for any class (R439)? While no job holds the tables
there is none. -/
def State.inJobWindows (s : State) (va : Nat) : Bool :=
  match s.sec.image with
  | none => false
  | some img => (List.range 672).any fun k =>
    let w := imageField img (64 + 16 * k) 16
    decide (field w 127 80 ≤ va) && decide (va < field w 127 80 + field w 79 52 * 2 ^ 21)

/-- A free byte at a free address, where that is present memory of the job's windows. -/
def State.scrambleByte (s : State) : State :=
  let (va, s) := s.takeFree 48
  let (b, s) := s.takeFree 8
  let e := s.entry (va / pageBytes)
  if va < hostWindowBase ∧ entState e ≠ 0 ∧ s.inJobWindows va then
    s.physWrite (entPhys e + va % pageBytes) [BitVec.ofNat 8 b]
  else s

/-- An undefined result whose reach is the job's windows (R6, R439): a free number of free bytes anywhere in them, on this
device. While no job holds the tables no result is undefined (R439), and nothing changes. Log entry 14. -/
def State.scrambleJob (s : State) : State :=
  if s.obj oTableState = 2 then
    let (n, s) := s.takeFree 48
    (List.range n).foldl (fun s _ => s.scrambleByte) s
  else s

/-- A refusal, of the kind that is refused (R436): of an exchange, which needs two rights, the one that lacks. -/
def State.refuse (s : State) (cls unit right va : Nat) : State :=
  s.noteDenied cls unit va (if right = 5 then (if s.granted cls 4 va then 1 else 4) else right)

/-- Counts a message whose access the tables refuse: it is discarded (Table 16.9). -/
def State.discardMsg (s : State) (msg : Bool) : State := if msg then s.count oCollDiscards else s

/-- Checks the access tables for a piece, or aborts as Table 16.9 states for tasks and arriving messages. -/
def checkRights (i : Init) (right va : Nat) : M Unit := do
  let s ← get
  if s.granted i.cls right va then return ()
  else
    set ((s.refuse i.cls i.unit right va).discardMsg i.msg)
    throw (.fault 0x0801)

/-- The right an access of a kind needs (R435). -/
def rightOf (op : Option AtomicOp) : Nat :=
  match op with
  | none => 2
  | some .exchange => 5
  | some _ => 4

/-- Is the page left over from a freed allocation of the job (R272)? -/
def State.freedPage (s : State) (page : Nat) : Bool :=
  !entAllocated (s.entry page) && s.mem.freed.any fun r => decide (r.1 ≤ page) && decide (page < r.1 + r.2)

/-- A use of an allocation's range after its free: undefined, reach the job's windows (R272). -/
def State.useFreed (s : State) (page : Nat) : State := if s.freedPage page then s.scrambleJob else s

/-- An access that meets an absent page (R280), in a freed range with undefined results besides (R272). -/
def absentPage {α : Type} (va : Nat) : M α := do
  mod fun s => (s.count oPageAbsentAccesses).useFreed (va / pageBytes)
  throw (.absent va)

/-- The host link or its IDE stream cannot serve a device request (R410, R417, R427). -/
def checkHostLink : M Unit := do
  let s ← get
  if s.obj oHostLinkState ≠ 4 then
    set (s.count oHostRequestErrors)
    throw (.fault 0)
  else if s.obj oHostIdeRequired = 1 ∧ s.sec.ideStream = false then throw .wait
  else return ()

/-- Free bytes: what the host's memory returns is the host's (log entry 10). -/
def freeBytes (n : Nat) : M (List Byte) := (List.range n).mapM fun _ => do
  return BitVec.ofNat 8 (← freeM 8)

/-- Reads of one page's piece. -/
def readPiece (i : Init) (req : Req) (va n : Nat) : M (List Byte) := do
  if va ≥ hostWindowBase then
    if !i.hostOk then throw (.fault 0)
    checkRights i 1 va
    match (← get).hostBus va n with
    | none => absentPage va
    | some bus =>
      checkHostLink
      mod fun s => (s.emit (.hostRead bus n)).addObj oHostBytesIn n
      freeBytes n
  else
    mod fun s => s.translate i.tc (va / pageBytes)
    let e := (← get).entry (va / pageBytes)
    if entState e = 0 then absentPage va
    else
      checkRights i 1 va
      let s ← get
      let a := entPhys e + va % pageBytes
      match s.poisoned? a n with
      | some atom =>
        if a < farBase then throw (.poison (poisonLocation atom))
        else
          mod fun s => (s.count oFarPoisoned).setObj oFarLastPoison
            ((entLocation e / 2 ^ 22) <<< 62 + (entLocation e % 2 ^ 22 * pageBytes + va % pageBytes))
          throw (.fault 0)
      | none =>
        mod fun s => if a < farBase then s.touch req false a n else s.addObj oFarReadBytes n
        return memBytes s.mem.cells a n

/-- Reads `n` bytes at a virtual address (R279). -/
def readBytes (i : Init) (req : Req) (va n : Nat) : M (List Byte) := do
  if va + n > 2 ^ 48 then absentPage va
  else
    let parts ← (pieces va n).mapM fun p => readPiece i req p.1 p.2
    return parts.flatten

/-- Is the epoch of a result write the current one (R62)? -/
def State.epochOk (s : State) (e : Option Nat) : Bool :=
  match e with
  | none => true
  | some x => x == s.obj oPlacementEpoch

/-- Stores bytes of one page's piece at the page's location. -/
def State.storeAt (s : State) (req : Req) (va : Nat) (bs : List Byte) : State :=
  let a := entPhys (s.entry (va / pageBytes)) + va % pageBytes
  let s := if a < farBase then s.touch req true a bs.length else s.addObj oFarWriteBytes bs.length
  s.physWrite a bs

/-- Holds a write or atomic for a migrating page (R281). -/
def State.hold (s : State) (i : Init) (req : Req) (va : Nat) (bs : List Byte) (op : Option AtomicOp) : State :=
  { s with mem := { s.mem with held := s.mem.held ++ [⟨va, bs, op, i.cls, i.unit, i.tc,
      if i.record = 0xFFFFFFFF then none else some i.record, i.epoch, req, i.msg⟩] } }

/-- Does a write to a range meet the records of a program that is committed and not yet latched (R59)? -/
def State.meetsProgram (s : State) (va n : Nat) : Bool :=
  let meets (base records : Nat) : Bool := decide (va < base + 128 * records) && decide (base < va + n)
  (s.sched.freshProgram && meets (s.obj oProgramBase) (s.obj oProgramRecords)) ||
    s.dict.committed.any fun c => c.group == 0x2020 &&
      meets (mapGet 0 c.vals oProgramBase) (mapGet 0 c.vals oProgramRecords)

/-- Remembers what a write spoils: such records (R59), and created descriptors it meets (R146). The scheduler, the
allocator, the resilience logic and the update units write both on the device's behalf, and spoil nothing. -/
def State.noteRewrite (s : State) (i : Init) (va n : Nat) : State :=
  if i.cls = 2 ∨ i.cls = 3 then s
  else
    let s := { s with sched := { s.sched with rewritten := s.sched.rewritten || s.meetsProgram va n } }
    { s with mem := { s.mem with created := s.mem.created.map fun (p : Nat × Nat) =>
        if va < p.1 + 128 ∧ p.1 < va + n then (p.1, 1) else p } }

/-- Writes of one page's piece. A write to a migrating page is held (R281). The page's target checks the rest: the
tables (R435), and the epoch, another one's being dropped (R62). -/
def writePiece (i : Init) (req : Req) (va : Nat) (bs : List Byte) : M Unit := do
  if va ≥ hostWindowBase then
    if !i.hostOk then throw (.fault 0)
    checkRights i 2 va
    match (← get).hostBus va bs.length with
    | none => absentPage va
    | some bus =>
      checkHostLink
      if !(← get).epochOk i.epoch then mod State.noteStale
      else mod fun s => (s.emit (.hostWrite bus bs)).addObj oHostBytesOut bs.length
  else
    mod fun s => s.translate i.tc (va / pageBytes)
    let e := (← get).entry (va / pageBytes)
    if entState e = 0 then absentPage va
    else if entState e = 3 then mod fun s => s.hold i req va bs none
    else
      checkRights i 2 va
      if !(← get).epochOk i.epoch then mod State.noteStale
      else mod fun s => (s.storeAt req va bs).noteRewrite i va bs.length

/-- The bytes of a range that a piece covers. -/
def takeRange (va : Nat) (bs : List Byte) (p : Nat × Nat) : List Byte := (bs.drop (p.1 - va)).take p.2

/-- Writes bytes at a virtual address (R279). -/
def writeBytes (i : Init) (req : Req) (va : Nat) (bs : List Byte) : M Unit := do
  if va + bs.length > 2 ^ 48 then absentPage va
  else (pieces va bs.length).forM fun p => writePiece i req p.1 (takeRange va bs p)

/-- Reads a little-endian number of `n` bytes. -/
def readNat (i : Init) (req : Req) (va n : Nat) : M Nat := do return ofLe (← readBytes i req va n)

/-- Writes a little-endian number of `n` bytes. -/
def writeNat (i : Init) (req : Req) (va n v : Nat) : M Unit := writeBytes i req va (leBytes n v)

/-! ### Atomics (R260–R262) -/

/-- The result of an atomic on `n` bytes holding `old` (Table 10.7, R261). -/
def atomicResult (op : AtomicOp) (n old v : Nat) : Nat :=
  let w := 8 * n
  let a := toSigned w old
  let b := toSigned w v
  match op with
  | .add => (old + v) % 2 ^ w
  | .minU => min old v
  | .maxU => max old v
  | .minS => if a ≤ b then old else v
  | .maxS => if b ≤ a then old else v
  | .exchange => v
  | .fadd fmt =>
    let f := if fmt = 0x01 then fmtFp32 else if fmt = 0x02 then fmtBf16 else fmtA40
    let x := decodeFloat f (old % 2 ^ fmtWidth f)
    let y := decodeFloat f (v % 2 ^ fmtWidth f)
    encodeFloat f (runF (rnTo f false (exactAdd x y))).1

/-- Performs an atomic on an operand at a near physical address. -/
def State.performAtomic (s : State) (op : AtomicOp) (a n v : Nat) : State :=
  let s := (s.touch .keep true a n).count oAtomicOps
  s.physWrite a (leBytes n (atomicResult op n (ofLe (memBytes s.mem.cells a n)) v))

/-- An atomic at a virtual address, within one atom (R260, R262). The old value is returned. -/
def atomic (i : Init) (op : AtomicOp) (va n v : Nat) : M Nat := do
  if va ≥ hostWindowBase then throw (.fault 0)
  else
    mod fun s => s.translate i.tc (va / pageBytes)
    let e := (← get).entry (va / pageBytes)
    if entState e = 0 then
      mod fun s => s.count oAtomicRefusals
      absentPage va
    else if entState e = 3 then
      mod fun s => s.hold i .keep va (leBytes n v) (some op)
      return 0
    else
      checkRights i (rightOf (some op)) va
      let s ← get
      if !s.epochOk i.epoch then
        mod State.noteStale
        return 0
      if entState e = 2 then
        mod fun s => s.count oAtomicRefusals
        throw (.fault 0)
      let a := entPhys e + va % pageBytes
      match s.poisoned? a n with
      | some atom => throw (.poison (poisonLocation atom))
      | none =>
        let old := ofLe (memBytes s.mem.cells a n)
        mod fun s => s.performAtomic op a n v
        return old

end Sys2Proof.Machine
end

