-- ==== Sys2Proof/Machine/Links.lean ====
section
/-! DEFINITION. Fabric ports: flits, the link layer, forwarding, timestamps, link life and link keys (Fabric Ports and
Links; R429, R430). Every command of these families is the definition `exec…` named after it. -/

namespace Sys2Proof.Machine

/-! ### Ports -/

/-- Port `p` beside its objects. -/
def State.port (s : State) (p : Nat) : Port := (mapFind s.ports p).getD {}

/-- The state with this port. -/
def State.setPort (s : State) (p : Nat) (q : Port) : State := { s with ports := mapPut {} s.ports p q }

/-- `link_state` of a port (Table 11.11). -/
def State.link (s : State) (p : Nat) : Nat := s.obj (oLinkState p)

/-- Is the port UP? -/
def State.linkUp (s : State) (p : Nat) : Bool := s.link p == 4

/-- The UP ports. -/
def State.upPorts (s : State) : List Nat := (List.range 32).filter s.linkUp

/-- Sets `ports_up` from the link states. -/
def State.refreshPortsUp (s : State) : State :=
  s.setObj oPortsUp (s.upPorts.foldl (fun a p => a + 2 ^ p) 0)

/-- Sets `spdm_sessions` from the sessions open. -/
def State.refreshSessions (s : State) : State := s.setObj oSpdmSessions s.sec.sessions.length

/-- Ends every session of a channel (R425). -/
def State.endSessions (s : State) (channel : Nat) : State :=
  { s with sec := { s.sec with sessions := s.sec.sessions.filter (·.channel != channel) } }.refreshSessions

/-! ### Sending flits -/

/-- A flit header (Table 11.3). -/
def flitHeader (seq ack vc creditVc credits kind : Nat) : Nat :=
  (seq % 1024) <<< 22 + (ack % 1024) <<< 12 + vc <<< 10 + creditVc <<< 8 + credits <<< 2 + kind

/-- The last sequence number received in order (Table 11.3). -/
def Port.ack (q : Port) : Nat := (q.rxNext + 1023) % 1024

/-- The credits a header returns: up to 63 for the lowest VC that is owed any (log entry 27). -/
def Port.takeCredits (q : Port) : Nat × Nat × Port :=
  match (List.range 4).find? fun v => decide (0 < q.owed.getD v 0) with
  | some v =>
    let n := min 63 (q.owed.getD v 0)
    (v, n, { q with owed := q.owed.set v (q.owed.getD v 0 - n) })
  | none => (0, 0, q)

/-! ### The sender's slots, keys and credits -/

/-- The 96-bit nonce of a slot (R294): salt, then the slot, most significant byte first (log entry 28). -/
def linkNonce (k : LinkKey) (slot : Nat) : List Byte := k.salt ++ beBytes 8 (slot - k.base)

/-- The next key (R430). -/
def LinkKey.advance (k : LinkKey) (base : Nat) : LinkKey :=
  { k with key := hkdfExpand k.key (label "lg fabric next") 32, generation := k.generation + 1, base := base
           next := none }

/-- The key in force at a slot: the announced one from its slot on (R430). -/
def LinkKey.at (k : LinkKey) (slot : Nat) : LinkKey :=
  match k.next with
  | some b => if b ≤ slot then k.advance b else k
  | none => k

/-- Bytes 0–255 with the parity of their two codewords: parity symbol `i` of codeword `c` is byte 256 + 2i + c (R293). -/
def withParity (bs : List Byte) : List Byte :=
  let parity (c : Nat) : List Nat := rsParity ((List.range 128).map fun i => (bs.getD (2 * i + c) 0).toNat)
  bs ++ ((parity 0).zip (parity 1)).flatMap fun p => [BitVec.ofNat 8 p.1, BitVec.ofNat 8 p.2]

/-- The 272 bytes of a flit sent in a slot (Table 11.2): under a key, encrypted and with its tag (R294); on an ATTACHING
link, in clear with the CRC-32 (R295). -/
def wireFlit (key : Option LinkKey) (slot header : Nat) (payload : List Byte) : List Byte :=
  let hdr := leBytes 4 header
  withParity (match key with
    | some k =>
      let (ct, tag) := gcm k.key (linkNonce k slot) hdr payload false
      hdr ++ ct ++ tag.take 12
    | none => hdr ++ payload ++ leBytes 4 (crc32 (hdr ++ payload)) ++ List.replicate 8 0)

/-- Sends a flit in the next slot of the port's direction (R294). -/
def State.emitFlit (s : State) (p header : Nat) (payload : List Byte) : State :=
  let q := s.port p
  let key := q.txKey.map (·.at q.txSlot)
  (s.setPort p { q with txKey := key, txSlot := q.txSlot + 1 }).emit
    (.flit p header payload (wireFlit key q.txSlot header payload))

/-- A control flit of this device, its payload filled up with zeros. -/
def controlFlit (payload : List Byte) : TxFlit := ⟨3, 0, padTo 240 0 payload, 128, true⟩

/-- From the slot at which a new key applies on, until its announcement has been acknowledged, only idle flits are sent
(R430). -/
def Port.keyHeld (q : Port) : Bool :=
  q.replay.any (fun e => e.2.kind == 3 && e.2.payload.headD 0 == 4) && match q.txKey with
    | some k => (k.at q.txSlot).next.isNone
    | none => false

/-- Adds credits to return for flits that have left their buffer (R297). -/
def State.oweCredit (s : State) (p vc n : Nat) : State :=
  let q := s.port p
  s.setPort p { q with owed := q.owed.set vc (q.owed.getD vc 0 + n) }

/-- A flit leaves the ingress buffer that held it, if one did (R297, R302). -/
def State.leaveBuffer (s : State) (f : TxFlit) : State :=
  if f.source < 128 then s.oweCredit (f.source / 4) (f.source % 4) 1 else s

/-- Sends idle flits while an UP port owes credits (R297). -/
def State.returnCredits (s : State) (p : Nat) : State :=
  if !s.linkUp p then s
  else (List.range ((s.port p).owed.foldl (· + ·) 0 / 63 + 4)).foldl (fun s _ =>
    let q := s.port p
    if q.owed.all (· == 0) then s
    else
      let (cv, cn, q) := q.takeCredits
      (s.setPort p q).emitFlit p (flitHeader 0 q.ack 0 cv cn 1) (List.replicate 240 0)) s

/-- Every UP port returns what it owes. -/
def State.returnAll (s : State) : State := (List.range 32).foldl State.returnCredits s

/-! ### The choice of the next flit (R297, R299) -/

/-- Hub of a port (R289). -/
def hubOf (p : Nat) : Nat := p / 8

/-- Can a flit of this source reach port `p`: nothing crosses between hubs in an L2 reset (R303), or while the reset of a
block has left the mesh unusable (R449)? -/
def State.mayCross (s : State) (source p : Nat) : Bool :=
  hubOf (source / 4) == hubOf p || (!s.rst.inReset && !s.rst.meshStuck)

/-- The data flit of a VC that may leave now (R297, R299): with a credit, the next flit of the message part way out; or
else the first flit of the next waiting message, by ingress ports in round-robin order. -/
def State.nextOfVc (s : State) (p vc : Nat) : Option TxFlit :=
  let q := s.port p
  let waits := q.queue.filter fun f => f.kind == 0 && f.vc == vc && s.mayCross f.source p
  if q.credits.getD vc 0 = 0 then none
  else match q.mid.getD vc none with
    | some src => waits.find? (·.source == src)
    | none => (List.range 33).findSome? fun i => waits.find? fun f => f.source / 4 == (q.turn.getD vc 0 + 1 + i) % 33

/-- The flit that may leave now: control flits first, then VC3, VC2, VC1 and VC0 (R297), on an ATTACHING link VC3 alone
(R295); none while the replay buffer of 512 is full (R296) or a new key is not yet acknowledged (R430). -/
def State.nextFlit (s : State) (p : Nat) : Option TxFlit :=
  let q := s.port p
  if q.replay.length ≥ 512 ∨ q.keyHeld then none
  else match q.queue.find? (·.kind == 3) with
    | some f => some f
    | none => (if s.linkUp p then [3, 2, 1, 0] else [3]).findSome? (s.nextOfVc p)

/-- Removes the first flit equal to `f`. -/
def dropFirst (f : TxFlit) : List TxFlit → List TxFlit
  | [] => []
  | g :: rest => if g = f then rest else g :: dropFirst f rest

/-- What a port keeps of a data flit that has left: a credit less, whose turn it was, and whether its message goes on. -/
def Port.served (q : Port) (f : TxFlit) : Port :=
  if f.kind = 3 then q
  else { q with
    credits := q.credits.set f.vc (q.credits.getD f.vc 0 - 1)
    turn := q.turn.set f.vc (f.source / 4)
    mid := q.mid.set f.vc (if f.last then none else some f.source) }

/-- Sends one flit. -/
def State.sendFlit (s : State) (p : Nat) (f : TxFlit) : State :=
  let (cv, cn, q) := (s.port p).takeCredits
  let h := flitHeader q.txSeq q.ack f.vc cv cn f.kind
  let q := { q.served f with
    queue := dropFirst f q.queue
    txSeq := (q.txSeq + 1) % 1024
    replay := q.replay ++ [(q.txSeq, f)] }
  let s := (s.setPort p q).emitFlit p h f.payload
  (if f.kind = 0 then s.addObj (oTxPayloadBytes p) 240 else s).leaveBuffer f

/-- Sends as many flits as may leave. -/
def State.sendMany (s : State) (p : Nat) : Nat → State
  | 0 => s
  | n + 1 =>
    match s.nextFlit p with
    | none => s
    | some f => (s.sendFlit p f).sendMany p n

/-- May the port receive and send flits: ATTACHING or UP? -/
def State.receiving (s : State) (p : Nat) : Bool := s.link p == 3 || s.link p == 4

/-- Sends what may leave, then returns the credits owed (R297). -/
def State.pump (s : State) (p : Nat) : State :=
  (if s.receiving p then s.sendMany p (s.port p).queue.length else s).returnAll

/-- Queues flits on a port and sends what may leave. -/
def State.queueFlits (s : State) (p : Nat) (fs : List TxFlit) : State :=
  let q := s.port p
  (s.setPort p { q with queue := q.queue ++ fs }).pump p

/-- Queues a control flit and sends what may leave. -/
def State.sendControl (s : State) (p : Nat) (payload : List Byte) : State := s.queueFlits p [controlFlit payload]

/-! ### Messages (R299, R305, R306) -/

/-- A route header (Table 11.6). -/
def routeHeader (param dest source epoch length kind hops axis : Nat) : Nat :=
  (param % 2 ^ 32) <<< 96 + (dest % 65536) <<< 80 + (source % 65536) <<< 64 + (epoch % 65536) <<< 48 +
    (length % 65536) <<< 32 + (kind % 256) <<< 24 + (hops % 16) <<< 20 + (axis % 8) <<< 17

/-- dest_rank of a route header. -/
def hdrDest (h : Nat) : Nat := field h 95 80
/-- source_rank. -/
def hdrSource (h : Nat) : Nat := field h 79 64
/-- epoch. -/
def hdrEpoch (h : Nat) : Nat := field h 63 48
/-- length. -/
def hdrLength (h : Nat) : Nat := field h 47 32
/-- msg_kind. -/
def hdrKind (h : Nat) : Nat := field h 31 24
/-- hops_left. -/
def hdrHops (h : Nat) : Nat := field h 23 20
/-- axis. -/
def hdrAxis (h : Nat) : Nat := field h 19 17
/-- param. -/
def hdrParam (h : Nat) : Nat := field h 127 96

/-- Flits with their last one marked, from a source. -/
def markLast (vc source : Nat) (payloads : List (List Byte)) (whole : Bool) : List TxFlit :=
  payloads.zipIdx.map fun c => ⟨0, vc, padTo 240 0 c.1, source, whole && c.2 + 1 == payloads.length⟩

/-- The flits of a message of this device: header and data in payloads of 240 bytes, the last padded with zeros
(R299). -/
def messageFlits (vc h : Nat) (data : List Byte) : List TxFlit :=
  markLast vc 128 (chunks 240 (leBytes 16 h ++ data)) true

/-- The active routing entry of a rank (R305, Table 11.8). -/
def State.routeEntry (s : State) (rank : Nat) : Nat := (s.obj oRouteTableActive >>> (32 * rank)) % 2 ^ 32

/-- Slot, port and outgoing VC of each slot of an entry whose port is UP (R305, R306). -/
def State.routeChoices (s : State) (entry vc : Nat) : List (Nat × Nat × Nat) :=
  (List.range (field entry 11 10 + 1)).filterMap fun i =>
    let p := field entry (16 + 5 * i) (12 + 5 * i)
    let vc' := if vc = 0 ∧ flag (field entry 5 2) i then 1 else vc
    if s.linkUp p then some (i, p, vc') else none

/-- The choice with the most credits of its egress VC, the lowest slot on a tie (R305). -/
def State.bestChoice (s : State) : List (Nat × Nat × Nat) → Option (Nat × Nat)
  | [] => none
  | c :: rest =>
    let credit (c : Nat × Nat × Nat) : Nat := (s.port c.2.1).credits.getD c.2.2 0
    let b := rest.foldl (fun b x => if credit b < credit x then x else b) c
    some b.2

/-- Sends a message by the routing table: hops_left from its entry, or counted as unroutable or misrouted (R301,
R305). A message to this device's own rank is delivered to itself. -/
def State.sendRouted (s : State) (vc param dest epoch kind axis : Nat) (data : List Byte) : State :=
  let src := s.obj oLogicalRank
  let e := s.routeEntry dest
  let h := routeHeader param dest src epoch data.length kind (field e 9 6) axis
  if dest = src then
    let q := s.port 32
    s.setPort 32 { q with arrived := q.arrived ++ [⟨32, vc, h, data⟩] }
  else if !flag e 1 then s.count oMisroutedMessages
  else match s.bestChoice (s.routeChoices e vc) with
    | none => s.count oUnroutableMessages
    | some (p, vc') => s.queueFlits p (messageFlits vc' h data)

/-- Sends a message through one given port, as the collectives of an axis do. -/
def State.sendThrough (s : State) (p vc param dest epoch kind axis : Nat) (data : List Byte) : State :=
  let src := s.obj oLogicalRank
  let e := s.routeEntry dest
  let h := routeHeader param dest src epoch data.length kind (field e 9 6) axis
  if s.linkUp p then s.queueFlits p (messageFlits vc h data) else s.count oUnroutableMessages

/-- Sends a message through one given port that the peer may not forward (R351, Table 13.8): hops_left 0. -/
def State.sendDirect (s : State) (p vc param dest kind : Nat) (data : List Byte) : State :=
  let h := routeHeader param dest (s.obj oLogicalRank) (s.obj oPlacementEpoch) data.length kind 0 7
  if s.linkUp p then s.queueFlits p (messageFlits vc h data) else s.count oUnroutableMessages

/-- Is twinning configured (R350)? -/
def State.twinned (s : State) : Bool := s.obj oTwinRegionBase != 0

/-- Sends a message to the twin (R351): on a twin port that faces it, or routed. -/
def State.sendTwin (s : State) (vc param kind : Nat) (data : List Byte) : State :=
  let twin := s.obj oTwinRank
  let ps := (List.range 32).filter fun p => flag (s.obj oTwinPorts) p && s.linkUp p && s.obj (oPeerRank p) == twin
  match s.bestChoice (ps.map fun p => (0, p, vc)) with
  | some (p, _) => s.sendDirect p vc param twin kind data
  | none => s.sendRouted vc param twin (s.obj oPlacementEpoch) kind 7 data

/-! ### The timing tree (R312) -/

/-- Usable stamps of the UP ports, by port (R312): those without flag [1]. -/
def State.stamps (s : State) : List (Nat × Stamp) :=
  s.upPorts.filterMap fun p =>
    match (s.port p).stamp with
    | some t => if flag t.flags 1 then none else some (p, t)
    | none => none

/-- Is the device out of the timing tree: `tick_source` 1 or no UP port (R312)? -/
def State.ownReference (s : State) : Bool := s.obj oTickSource == 1 || s.upPorts.isEmpty

/-- The pair order of references (R312). -/
def refLess (a b : Nat × Nat) : Bool := decide (a.1 < b.1) || (a.1 == b.1 && decide (a.2 < b.2))

/-- Works out the place in the timing tree (R312). -/
def State.placeInTree (s : State) : State :=
  let self := (s.obj oLogicalRank, Config.serial)
  if s.ownReference then
    let s := { s with timing := { s.timing with synced := false, refSerial := Config.serial, offset := 0, jump := none
                                                corrective := none } }
    ((s.setObj oTimeReferenceRank self.1).setObj oTimeDistance 0).setObj oTimeParentPort 0xFF
  else
    let ref := s.stamps.foldl (fun r q => if refLess (q.2.refRank, q.2.refSerial) r then (q.2.refRank, q.2.refSerial) else r) self
    let s := { s with timing := { s.timing with refSerial := ref.2 } }
    if ref = self then
      ((s.setObj oTimeReferenceRank self.1).setObj oTimeDistance 0).setObj oTimeParentPort 0xFF
    else
      let naming := s.stamps.filter fun q => q.2.refRank == ref.1 && q.2.refSerial == ref.2
      match naming with
      | [] => s
      | a :: rest =>
        let best := rest.foldl (fun b q => if q.2.distance < b.2.distance then q else b) a
        ((s.setObj oTimeReferenceRank ref.1).setObj oTimeDistance ((best.2.distance + 1) % 256)).setObj
          oTimeParentPort best.1

/-! ### A link goes down (R304, R319) -/

/-- The flits of a source that the message part way in has put in a queue since its last whole message. -/
def partCount (source : Nat) (queue : List TxFlit) : Nat :=
  ((queue.filter (·.source == source)).reverse.takeWhile (!·.last)).length

/-- Takes the first `n` flits of a source out of a list. -/
def dropSource (source : Nat) : Nat → List TxFlit → List TxFlit
  | 0, l => l
  | _, [] => []
  | n + 1, f :: rest => if f.source = source then dropSource source n rest else f :: dropSource source (n + 1) rest

/-- Drops one message part way in at port `p` (R304): counted; its flits leave their buffer; where it is part way out, its
egress VC is released and the next device told to drop it. -/
def State.abortIncoming (s : State) (p : Nat) (i : Incoming) : State :=
  let s := if i.fate = .discard then s else s.count oAbortedMessages
  match i.fate with
  | .forward e vc =>
    let source := 4 * p + i.vc
    let r := s.port e
    let n := partCount source r.queue
    let begun := r.mid.getD vc none == some source
    let r := { r with
      queue := (dropSource source n r.queue.reverse).reverse
      mid := if begun then r.mid.set vc none else r.mid }
    let s := (s.setPort e r).oweCredit p i.vc n
    if begun then s.sendControl e [2, BitVec.ofNat 8 vc] else s.pump e
  | .open => s.oweCredit p i.vc (i.bytes.length / 240)
  | _ => s

/-- What a port forgets when it goes down: replay buffer, partial messages, credits, keys. -/
def Port.down (q : Port) : Port :=
  { arrived := q.arrived }

/-- Is a message part way in cut through to port `p`? -/
def Incoming.cutTo (p : Nat) (i : Incoming) : Bool :=
  match i.fate with
  | .forward e _ => e == p
  | _ => false

/-- The egress of messages part way in has gone down: the rest of each is discarded, and counted (log entry 94). -/
def State.loseCuts (s : State) (p : Nat) : State :=
  let lost := (s.ports.map fun q => (q.2.incoming.filter (Incoming.cutTo p)).length).foldl (· + ·) 0
  let s := { s with ports := s.ports.map fun (q : Nat × Port) => (q.1, { q.2 with
    incoming := q.2.incoming.map fun (i : Incoming) => if i.cutTo p then { i with fate := .discard } else i }) }
  s.addObj oAbortedMessages lost

/-- Takes a port down to `st` (1 DOWN, 0 DISABLED) with a cause of Table 11.12. LINK_DOWN is raised from UP and at a
failed attach (R319). -/
def State.linkDown (s : State) (p st cause : Nat) : State :=
  let old := s.link p
  if old = 0 ∨ (old = 1 ∧ st = 1) then s
  else
    let q := s.port p
    let cause := if q.dusk ∧ (cause = 1 ∨ cause = 3) then 6 else cause
    let s := (((s.setPort p q.down).setObj (oLinkState p) st).setObj (oLinkRate p) 0).loseCuts p
    let s := q.incoming.foldl (fun s i => s.abortIncoming p i) (q.queue.foldl State.leaveBuffer s)
    let s := if old = 1 then s else ((s.setObj (oLastDownCause p) cause).count (oLinkDownCount p))
    let s := (((s.refreshPortsUp).endSessions (2 + p)).placeInTree).returnAll
    if old = 4 ∨ old = 3 then s.raise 0x0601 0x05 p 0 p cause (s.obj (oPeerRank p)) else s

/-! ### Receiving flits (R293–R297) -/

/-- Corrects a flit's 256 bytes (R293): the bytes and the symbols corrected, or none. -/
def correctFlit (bs : List Byte) : Option (List Byte × Nat) :=
  let word (c : Nat) : List Nat := ((List.range 136).map fun i => (bs.getD (2 * i + c) 0).toNat)
  match rsDecode (word 0), rsDecode (word 1) with
  | some (w0, n0), some (w1, n1) =>
    some (((w0.take 128).zip (w1.take 128)).flatMap fun p => [BitVec.ofNat 8 p.1, BitVec.ofNat 8 p.2], n0 + n1)
  | _, _ => none

/-- The clear header and payload of a corrected flit on an UP link (R294), or on an ATTACHING one (R295). -/
def State.openFlit (s : State) (p : Nat) (bs : List Byte) (slot : Nat) : Option (Nat × List Byte) :=
  let hdr := bs.take 4
  let body := (bs.drop 4).take 240
  if s.linkUp p then
    match (s.port p).rxKey with
    | none => none
    | some k =>
      let k := k.at slot
      let (pt, tag) := gcm k.key (linkNonce k slot) hdr body true
      if tag.take 12 = (bs.drop 244).take 12 then some (ofLe hdr, pt) else none
  else if ofLe ((bs.drop 244).take 4) = crc32 (bs.take 244) ∧ ((bs.drop 248).take 8).all (· == 0) then
    some (ofLe hdr, body)
  else none

/-- A bad flit: the first is answered with a nak (R296). -/
def State.badFlit (s : State) (p : Nat) : State :=
  let q := s.port p
  if q.nakSent then s
  else (s.setPort p { q with nakSent := true }).emitFlit p (flitHeader 0 q.ack 0 0 0 2) (List.replicate 240 0)

/-- Removes acknowledged flits from the replay buffer and adds returned credits (R296, R297). -/
def State.applyAck (s : State) (p header : Nat) : State :=
  let q := s.port p
  let ack := field header 21 12
  let covered := q.replay.any (·.1 == ack)
  let rest := if covered then (q.replay.dropWhile (·.1 != ack)).drop 1 else q.replay
  let v := field header 9 8
  s.setPort p { q with
    replay := rest
    resends := if covered then 0 else q.resends
    credits := q.credits.set v (q.credits.getD v 0 + field header 7 2) }

/-- The outcome of a flit's checks. -/
inductive FlitResult where
  | bad
  | idle
  | nak
  | data (vc : Nat) (payload : List Byte)
  | control (payload : List Byte)
  /-- a data or control flit out of sequence, discarded -/
  | outOfOrder
deriving DecidableEq, Repr

/-- Checks a flit and applies what every intact flit carries (R293–R297). -/
def State.checkFlit (s : State) (p : Nat) (f : RxFlit) : FlitResult × State :=
  match correctFlit f.bytes with
  | none => (.bad, (s.count (oFecUncorrectable p)).badFlit p)
  | some (bs, n) =>
    let s := s.addObj (oFecCorrectedSymbols p) n
    match s.openFlit p bs f.slot with
    | none =>
      let s := if s.linkUp p then s.count (oTagFailures p) else s
      (.bad, s.badFlit p)
    | some (h, pl) =>
      let s := match (s.port p).rxKey with
        | some k => s.setPort p { s.port p with rxKey := some (k.at f.slot) }
        | none => s
      let s := s.applyAck p h
      let kind := h % 4
      if kind = 1 then (.idle, s)
      else if kind = 2 then (.nak, s)
      else
        let q := s.port p
        if field h 31 22 ≠ q.rxNext then (.outOfOrder, s)
        else
          let s := s.setPort p { q with rxNext := (q.rxNext + 1) % 1024, nakSent := false }
          if kind = 0 then (.data (field h 11 10) pl, s.addObj (oRxPayloadBytes p) 240) else (.control pl, s)

/-- Flits a message of this route header occupies (R299). -/
def hdrFlits (h : Nat) : Nat := ceilDiv (16 + hdrLength h) 240

/-- Is a msg_kind defined (Tables 12.3, 13.1)? -/
def kindDefined (k : Nat) : Bool := (decide (1 ≤ k) && decide (k ≤ 6)) || (decide (0x10 ≤ k) && decide (k ≤ 0x16))

/-- A whole message for this rank: one with a reserved msg_kind is discarded and counted (R300). -/
def State.deliver (s : State) (p : Nat) (m : Msg) : State :=
  if kindDefined (hdrKind m.header) then
    let q := s.port p
    s.setPort p { q with arrived := q.arrived ++ [m] }
  else s.count oMisroutedMessages

/-- Does a message stay in its buffer until it is used: a ready, which may have to wait for the table (R328)? -/
def staysBuffered (h : Nat) : Bool := hdrKind h == 1

/-- Takes in one data flit (R299, R301): a message for this rank is kept until it is whole, and a ready holds its buffer
until it is used; the flits of a message cut through wait in the buffer for their egress (R302), and those of one not
chosen yet for the choice. -/
def State.takeData (s : State) (p vc : Nat) (payload : List Byte) : State :=
  let q := s.port p
  if vc = 3 then s.oweCredit p 3 1
  else
    let cur := (q.incoming.find? (·.vc == vc)).getD
      ⟨vc, [], if hdrDest (ofLe (payload.take 16)) = s.obj oLogicalRank then .deliver else .open⟩
    let bytes := cur.bytes ++ payload
    let h := ofLe (bytes.take 16)
    let whole := decide (hdrFlits h * 240 ≤ bytes.length)
    let others := q.incoming.filter (·.vc != vc)
    match cur.fate with
    | .open => s.setPort p { q with incoming := others ++ [{ cur with bytes := bytes }] }
    | .deliver =>
      let s := if staysBuffered h then s else s.oweCredit p vc 1
      let q := s.port p
      if whole then
        (s.setPort p { q with incoming := others }).deliver p ⟨p, vc, h, (bytes.drop 16).take (hdrLength h)⟩
      else s.setPort p { q with incoming := others ++ [{ cur with bytes := bytes }] }
    | .discard =>
      let s := s.oweCredit p vc 1
      let q := s.port p
      s.setPort p { q with incoming := if whole then others else others ++ [{ cur with bytes := bytes }] }
    | .forward e evc =>
      let s := s.setPort p { q with incoming := if whole then others else others ++ [{ cur with bytes := bytes }] }
      s.queueFlits e (markLast evc (4 * p + vc) [payload] whole)

/-- DATA_FLIT_RECEIVE (R296): a data flit, or a control flit of a reserved type (Table 11.4). -/
def execDataFlitReceive (port : Nat) (flit : RxFlit) (s : State) : Host.Outcome State Fault Refusal :=
  if !s.receiving port then .next s
  else match s.checkFlit port flit with
    | (.bad, s') => .next s'
    | (.outOfOrder, s') => .next (s'.pump port)
    | (.data vc pl, s') =>
      if s.link port = 3 ∧ vc ≠ 3 then .next s   -- not accepted while ATTACHING (R295)
      else .next ((s'.takeData port vc pl).pump port)
    | (.control pl, s') => if (pl.headD 0).toNat ≥ 5 ∨ pl.headD 0 = 0 then .next (s'.pump port) else .next s
    | _ => .next s

/-- IDLE_FLIT_RECEIVE (R297). -/
def execIdleFlitReceive (port : Nat) (flit : RxFlit) (s : State) : Host.Outcome State Fault Refusal :=
  if !s.receiving port then .next s
  else match s.checkFlit port flit with
    | (.bad, s') => .next s'
    | (.idle, s') => .next (s'.pump port)
    | _ => .next s

/-- Resends the whole replay buffer (R296). -/
def State.resendAll (s : State) (p : Nat) : State :=
  (s.port p).replay.foldl (fun s (e : Nat × TxFlit) =>
    let q := s.port p
    let (cv, cn, q) := q.takeCredits
    ((s.setPort p q).count (oFlitsReplayed p)).emitFlit p (flitHeader e.1 q.ack e.2.vc cv cn e.2.kind) e.2.payload) s

/-- NAK_RECEIVE (R296, R319): everything after the nak's ack is resent; the ninth resend in succession of one flit
takes the link down with cause 2. -/
def execNakReceive (port : Nat) (flit : RxFlit) (s : State) : Host.Outcome State Fault Refusal :=
  if !s.receiving port then .next s
  else match s.checkFlit port flit with
    | (.bad, s') => .next s'
    | (.nak, s') =>
      let q := s'.port port
      if q.replay.isEmpty then .next (s'.pump port)
      else if q.resends ≥ 8 then .next (s'.linkDown port 1 2)
      else .next (((s'.setPort port { q with resends := q.resends + 1 }).resendAll port).pump port)
    | _ => .next s

/-- Handles a control flit of one type: an intact one of another type is not this command's event. -/
def State.onControl (s : State) (port type : Nat) (flit : RxFlit) (act : List Byte → State → State) : State :=
  if !s.receiving port then s
  else match s.checkFlit port flit with
    | (.bad, s') => s'
    | (.outOfOrder, s') => s'.pump port
    | (.control pl, s') => if (pl.headD 0).toNat = type then (act pl s').pump port else s
    | _ => s

/-! ### Time (R311–R317) -/

/-- `n` bytes of a payload from byte `b`, as a number (R12). -/
def plField (pl : List Byte) (b n : Nat) : Nat := ofLe ((pl.drop b).take n)

/-- A timestamp payload (Table 11.10). -/
def readStamp (pl : List Byte) (arrival : Nat) : Stamp :=
  ⟨plField pl 1 1, plField pl 2 1, plField pl 4 2, plField pl 6 8, plField pl 14 8, plField pl 22 8, plField pl 30 8,
    plField pl 38 8, toSigned 32 (plField pl 46 4), arrival⟩

/-- `round(offset ÷ 16)`: to nearest, halves up (log entry 29). -/
def roundOffset (offset : Int) : Int := (offset + 8) / 16

/-- A signed 64-bit result wraps (R18). -/
def wrap64 (i : Int) : Int := toSigned 64 (ofSigned 64 i)

/-- Theta and the round trip that a stamp shows (R313): none while nothing of ours has been echoed. -/
def Stamp.measured (t : Stamp) : Option (Int × Int) :=
  if t.echoTx = 0 ∧ t.echoRx = 0 then none
  else
    let a := wrap64 (t.echoTx - t.echoRx : Int)
    let b := wrap64 (t.arrival - t.tx : Int)
    some (Int.tdiv (wrap64 (a + b)) 2, wrap64 (b - a))

/-- Keeps a stamp's round trip and reports the least of the port's last 16 (R298, R313). -/
def State.noteTrip (s : State) (p : Nat) (rtt : Int) : State :=
  let q := s.port p
  let trips := (rtt :: q.trips).take 16
  (s.setPort p { q with trips := trips }).setObj (oRoundTrip p) (ofSigned 32 (trips.foldl min rtt))

/-- The offset from the reference that a stamp gives: none where its round trip is more than 16 units above the least
(R313). -/
def Port.offsetOf (q : Port) (t : Stamp) (theta rtt : Int) : Option Int :=
  if rtt - q.trips.foldl min rtt > 16 then none else some (wrap64 (t.refOffset - theta))

/-- Takes an offset (R313). -/
def State.useOffset (s : State) (offset : Int) : State :=
  { s with timing := { s.timing with offset := offset } }.setObj oTickOffset (int32 (Int.tdiv offset 16))

/-- The step of a device that joins a fabric or is too far off (R316, R317): the counter and one corrective tick are
set for the next boundary, where there is anything to correct. -/
def State.planJoin (s : State) : State :=
  let top := s.stamps.foldl (fun m q => max m q.2.counter) s.tick
  { s with timing := { s.timing with
      synced := true
      jump := if s.tick < top then some top else none
      corrective := if s.timing.offset = 0 then none else some s.timing.offset } }

/-- What the stamp just received on a port gives this device to align by (R312, R313): the reference of its fabric needs no
measurement; another takes its parent's. -/
def State.alignment (s : State) (p : Nat) (t : Stamp) (trip : Option (Int × Int)) : Option Int :=
  if s.obj oTimeParentPort = 0xFF then some 0
  else if s.obj oTimeParentPort = p then trip.bind fun m => (s.port p).offsetOf t m.1 m.2
  else none

/-- A larger counter read from a port is adopted at the next boundary (R316). Two timing domains joined while the scheduler
is RUNNING have undefined results, reach the job's windows. -/
def State.adoptCounter (s : State) (counter : Nat) : State :=
  if counter ≤ s.tick then s
  else
    let s := { s with timing := { s.timing with jump := some (max counter (s.timing.jump.getD 0)) } }
    if s.running then s.scrambleJob else s

/-- Takes in a timestamp (R312, R313, R316, R317): a device not yet synced joins once it has an offset; a synced one adopts
a larger counter, and steps when its new offset is beyond 64 ACLK and its scheduler does not run. -/
def State.takeStamp (s : State) (p : Nat) (t : Stamp) : State :=
  let s := s.setPort p { s.port p with stamp := some t }
  let trip := t.measured
  let s := match trip with
    | some m => s.noteTrip p m.2
    | none => s
  let s := s.placeInTree
  if flag t.flags 1 ∨ s.ownReference then s
  else
    let found := s.alignment p t trip
    let s := match found with
      | some o => s.useOffset o
      | none => s
    if !s.timing.synced then (if found.isSome then s.planJoin else s)
    else
      let s := s.adoptCounter t.counter
      if found.isSome ∧ s.timing.offset.natAbs > 64 * 16 ∧ !s.running then s.planJoin else s

/-- TIMESTAMP_RECEIVE (R312, R313, R316). -/
def execTimestampReceive (port : Nat) (flit : RxFlit) (s : State) : Host.Outcome State Fault Refusal :=
  .next (s.onControl port 1 flit fun pl s => s.takeStamp port (readStamp pl flit.time))

/-- TIMESTAMP_SEND (R311): once in each tick, after phase 512. `phase` counts 1/16 ACLK. -/
def execTimestampSend (port phase : Nat) (s : State) : Host.Outcome State Fault Refusal :=
  let q := s.port port
  if !s.linkUp port ∨ phase ≤ 512 * 16 ∨ q.stampedTick = some s.tick then .next s
  else
    let now := (s.tick * 2 ^ (s.obj oTickPeriodLog2) * 16 + phase) % 2 ^ 64
    let (etx, erx) := match q.stamp with
      | some t => (t.tx, t.arrival)
      | none => (0, 0)
    let fl := bitOf s.timing.synced + 2 * bitOf (s.obj oTickSource == 1)
    let payload := [1, BitVec.ofNat 8 fl, BitVec.ofNat 8 (s.obj oTimeDistance), 0] ++
      leBytes 2 (s.obj oTimeReferenceRank) ++ leBytes 8 s.timing.refSerial ++ leBytes 8 s.tick ++ leBytes 8 now ++
      leBytes 8 etx ++ leBytes 8 erx ++ leBytes 4 (int32 s.timing.offset)
    .next ((s.setPort port { q with stampedTick := some s.tick }).sendControl port payload)

/-! ### Aborts, attach, keys -/

/-- ABORT_RECEIVE (R304): the partial message on the VC of byte 1 is discarded, and the abort passed on. -/
def execAbortReceive (port : Nat) (flit : RxFlit) (s : State) : Host.Outcome State Fault Refusal :=
  .next (s.onControl port 2 flit fun pl s =>
    let vc := (pl.getD 1 0).toNat % 4
    let q := s.port port
    match q.incoming.find? (·.vc == vc) with
    | none => s
    | some i =>
      (s.setPort port { q with incoming := q.incoming.filter (·.vc != vc) }).abortIncoming port i)

/-- ATTACH_RECEIVE (R318). -/
def execAttachReceive (port : Nat) (flit : RxFlit) (info : AttachInfo) (s : State) :
    Host.Outcome State Fault Refusal :=
  if s.link port ≠ 3 then .next s
  else .next (s.onControl port 3 flit fun _ s =>
    let s := s.setPort port { s.port port with peerSerial := some info.serial }
    (s.setObj (oPeerRank port) (info.rank % 65536)).setObj (oPeerPort port) (info.port % 256))

/-- KEY_UPDATE_RECEIVE (R430): the peer's new key applies from its slot S. -/
def execKeyUpdateReceive (port : Nat) (flit : RxFlit) (s : State) : Host.Outcome State Fault Refusal :=
  if !s.linkUp port then .next s
  else .next (s.onControl port 4 flit fun pl s =>
    match (s.port port).rxKey with
    | some k => s.setPort port { s.port port with rxKey := some { k with next := some (k.base + plField pl 2 8) } }
    | none => s)

/-- KEY_UPDATE_SEND (R430): after 2^n slots under a key, a new one is announced 1,024 slots ahead; an announced key
takes effect at its slot. `slot` counts from when the link came UP: the slots since the last flit carried idle flits (log
entry 95). -/
def execKeyUpdateSend (port slot : Nat) (s : State) : Host.Outcome State Fault Refusal :=
  if !s.linkUp port then .next s
  else
    let q := s.port port
    match q.txKey with
    | none => .next s
    | some k =>
      let slot := max slot q.txSlot
      let k := k.at slot
      if k.next.isSome ∨ slot < k.base + 2 ^ s.obj oLinkRekeyFlitsLog2 then
        .next ((s.setPort port { q with txKey := some k, txSlot := slot }).pump port)
      else
        let S := slot - k.base + 1024
        .next ((s.setPort port { q with txKey := some { k with next := some (k.base + S) }, txSlot := slot }).sendControl
          port ([4, BitVec.ofNat 8 (k.generation + 1)] ++ leBytes 8 S))

/-! ### Forwarding (R301–R303) -/

/-- What becomes of a message with this route header that came in on a VC (R301, R305): for this rank, delivered;
misrouted; unroutable; or forwarded. -/
inductive Course where
  | here
  | misrouted
  | unroutable
  | through (port vc : Nat)
deriving DecidableEq, Repr

/-- The course of a message (R301, R305). -/
def State.course (s : State) (vc h : Nat) : Course :=
  let e := s.routeEntry (hdrDest h)
  if hdrDest h = s.obj oLogicalRank then .here
  else if hdrHops h = 0 ∨ !flag e 1 then .misrouted
  else match s.bestChoice (s.routeChoices e vc) with
    | none => .unroutable
    | some (p, evc) => .through p evc

/-- A message part way in takes its course: what has come of it so far is handled, and the rest follows it. -/
def State.follow (s : State) (port : Nat) (i : Incoming) (c : Course) : State :=
  let q := s.port port
  let h := ofLe (i.bytes.take 16)
  let n := i.bytes.length / 240
  let whole := decide (hdrFlits h * 240 ≤ i.bytes.length)
  let others := q.incoming.filter (·.vc != i.vc)
  let settle (s : State) (f : Fate) : State :=
    s.setPort port { s.port port with incoming := if whole then others else others ++ [{ i with fate := f }] }
  match c with
  | .here =>
    let s := settle (if staysBuffered h then s else s.oweCredit port i.vc n) .deliver
    (if whole then s.deliver port ⟨port, i.vc, h, (i.bytes.drop 16).take (hdrLength h)⟩ else s).pump port
  | .misrouted => ((settle (s.oweCredit port i.vc n) .discard).count oMisroutedMessages).pump port
  | .unroutable => ((settle (s.oweCredit port i.vc n) .discard).count oUnroutableMessages).pump port
  | .through p evc =>
    let bytes := leBytes 16 (setField h 23 20 (hdrHops h - 1)) ++ i.bytes.drop 16
    ((settle s (.forward p evc)).count oForwardedMessages).queueFlits p
      (markLast evc (4 * port + i.vc) (chunks 240 bytes) whole)

/-- MESSAGE_FORWARD (R301, R305): chooses, once, what happens to the message part way in on a VC. -/
def execMessageForward (port vc : Nat) (s : State) : Host.Outcome State Fault Refusal :=
  match (s.port port).incoming.find? (·.vc == vc) with
  | none => .next s
  | some i =>
    if i.fate ≠ .open then .next s else .next (s.follow port i (s.course vc (ofLe (i.bytes.take 16))))

/-! ### Link life (R318, R319) -/

/-- Is every port held DOWN: Dusk has stopped them (R371)? -/
def State.quiesced (s : State) : Bool := s.obj oSchedulerState == 3 || s.resil.duskStage == 3

/-- RETRAIN_INTERVAL (R318). -/
def execRetrainInterval (port : Nat) (s : State) : Host.Outcome State Fault Refusal :=
  if port < 32 ∧ s.link port = 1 ∧ !s.quiesced then .next (s.setObj (oLinkState port) 2) else .next s

/-- TRAINING_COMPLETE (R290, R318): the highest rate both ends allow; the port sends its attach flit. -/
def execTrainingComplete (port peerRates : Nat) (s : State) : Host.Outcome State Fault Refusal :=
  let common := (s.obj oPortRates >>> (8 * port)) % 8 &&& peerRates % 8
  if s.link port ≠ 2 ∨ common = 0 then .next s
  else
    let rate := if flag common 0 then 1 else if flag common 1 then 2 else 3
    let s := s.setPort port { arrived := (s.port port).arrived, rate := rate, credits := [0, 0, 0, 16] }
    .next ((s.setObj (oLinkState port) 3).sendControl port
      (3 :: Config.attachBody (s.obj oLogicalRank) Config.serial port))

/-- TRAINING_TIMEOUT (R318): back to DOWN with cause 1. -/
def execTrainingTimeout (port : Nat) (s : State) : Host.Outcome State Fault Refusal :=
  if s.link port = 2 then .next (s.linkDown port 1 1) else .next s

/-- A failure of the checks of R429. -/
def State.attachFail (s : State) (p kind failed : Nat) : State :=
  ((s.count oSpdmFailures).raise 0x0802 0x0D p kind failed 0).linkDown p 1 4

/-- Flits of the port's receive buffer of a VC that are still in it: of messages cut through that have not left, and
readies that wait (R297, R302, R328). -/
def State.buffered (s : State) (p vc : Nat) : Nat :=
  (s.ports.map fun q => (q.2.queue.filter (·.source == 4 * p + vc)).length).foldl (· + ·) 0 +
    ((s.port p).arrived.filter fun m => m.vc == vc && staysBuffered m.header).length

/-- Does a peer on an UP link hold this device's rank, so that two devices that reach each other hold one rank
(R308)? -/
def State.rankClash (s : State) : Bool := s.upPorts.any fun p => s.obj (oPeerRank p) == s.obj oLogicalRank

/-- Two devices of one rank: undefined results, reach the job's windows (R308). -/
def State.checkRanks (s : State) : State := if s.rankClash then s.scrambleJob else s

/-- The key and salt of a direction of a link from the session's master secret (R429). -/
def directionKey (master : List Byte) (direction : String) : LinkKey :=
  ⟨hkdfExpand master (label ("lg fabric " ++ direction ++ " key")) 32,
    hkdfExpand master (label ("lg fabric " ++ direction ++ " salt")) 4, 0, 0, none⟩

/-- ATTACH_COMPLETE (R318, R429): the checks, then the keys of both directions and UP. Without a completed session, attach
flits of both ends and the RSA pair (R420), the attach fails. -/
def execAttachComplete (port : Nat) (evidence : AttachEvidence) (s : State) : Host.Outcome State Fault Refusal :=
  if s.link port ≠ 3 then .next s
  else
    let q := s.port port
    match q.peerSerial with
    | none => .next ((s.count oSpdmFailures).linkDown port 1 4)
    | some serial =>
      if !evidence.completed ∨ s.obj oRsaReady = 0 then .next ((s.count oSpdmFailures).linkDown port 1 4)
      else if !evidence.chainsOk ∨ evidence.certSerial ≠ serial then .next (s.attachFail port 0x10 evidence.failed)
      else if !evidence.signaturesOk ∨ (s.obj oPeerPolicy = 1 ∧ evidence.measurement2 ≠ s.obj oMeasurement2) then
        .next (s.attachFail port 0x11 evidence.failed)
      else
        let requester := decide (Config.serial < serial)
        let owed := [512 - s.buffered port 0, 512 - s.buffered port 1, 64 - s.buffered port 2, 16]
        let s := s.setPort port { arrived := q.arrived, owed := owed, rate := q.rate, peerSerial := q.peerSerial
                                  txKey := some (directionKey evidence.master (if requester then "r2s" else "s2r"))
                                  rxKey := some (directionKey evidence.master (if requester then "s2r" else "r2s")) }
        let s := { s with sec := { s.sec with sessions := s.sec.sessions ++ [(⟨2 + port, 0⟩ : Session)] } }.refreshSessions
        let s := ((s.setObj (oLinkState port) 4).setObj (oLinkRate port) q.rate).refreshPortsUp
        .next (s.placeInTree.checkRanks.pump port)

/-- LANE_SIGNAL_LOSS (R319, cause 1); a port still ATTACHING fails its attach (cause 4). -/
def execLaneSignalLoss (port : Nat) (s : State) : Host.Outcome State Fault Refusal :=
  if s.link port = 4 then .next (s.linkDown port 1 1)
  else if s.link port = 3 then .next (s.linkDown port 1 4)
  else .next s

/-- NO_FLIT_TIMEOUT (R319, cause 3); a port still ATTACHING fails its attach (cause 4). -/
def execNoFlitTimeout (port : Nat) (s : State) : Host.Outcome State Fault Refusal :=
  if s.link port = 4 then .next (s.linkDown port 1 3)
  else if s.link port = 3 then .next (s.linkDown port 1 4)
  else .next s

end Sys2Proof.Machine
end

