-- ==== Sys2Proof/Machine/Commit.lean ====
section
/-! DEFINITION. Staged groups: the checks of a committed set, its outcome, its effect point and its effect (R379–R383,
and the refusals each group's chapter gives). -/

namespace Sys2Proof.Machine

/-! ### Streams (R222–R226) -/

/-- Step of a random stream. -/
def State.streamStep (s : State) (k : Nat) : Nat := mapGet 0 s.num.streams k

/-- The counter images of the streams now (Table 9.3), `add` steps ahead. -/
def State.streamImages (s : State) (add : Nat) : Nat :=
  (List.range 2132).foldl (fun a k =>
    a + (k <<< 116 + ((s.streamStep k + add) % 2 ^ 32) <<< 84) <<< (128 * k)) 0

/-- Image of stream `k` within an object of images. -/
def imageOf (imgs k : Nat) : Nat := (imgs >>> (128 * k)) % 2 ^ 128

/-- Is every image of the form Table 9.3 gives (R225)? -/
def imagesOk (imgs : Nat) : Bool :=
  (List.range 2132).all fun k => field (imageOf imgs k) 127 116 == k && field (imageOf imgs k) 83 0 == 0

/-- Loads seed and steps (R225; R369 step 4). -/
def State.loadStreams (s : State) (seed imgs : Nat) : State :=
  { s with num := { s.num with
      seed := seed
      streams := (List.range 2132).foldl (fun m k => mapPut 0 m k (field (imageOf imgs k) 115 84)) [] } }

/-! ### Measurements (R426) -/

/-- Forms measurement blocks 4 and 6 from what they cover. -/
def State.refreshMeasurements (s : State) : State :=
  let m4 := Config.measureDigest 4 [s.obj oRollbackFloorFw, s.obj oRollbackFloorHub, s.obj oMgmtSecureMode,
    s.obj oHostIdeRequired, s.obj oLinkRekeyFlitsLog2, s.obj oPeerPolicy]
  let m6 := Config.measureDigest 6 [s.obj oLogicalRank, s.obj oRankCount, s.obj oFarTrustedDigestH0,
    s.obj oFarTrustedDigestH1, s.obj oFarTrustedDigestH2, s.obj oFarTrustedDigestH3]
  (s.setObj oMeasurement4 m4.toNat).setObj oMeasurement6 m6.toNat

/-! ### Regions of the job -/

/-- Do the pages of a range lie in one live allocation, with this policy (R177, R368, R373)? An empty range does. -/
def State.regionIn (s : State) (base bytes policy : Nat) : Bool :=
  if bytes = 0 then true
  else if base + bytes > 2 ^ 48 then false
  else
    let first := base / pageBytes
    let n := (base + bytes - 1) / pageBytes + 1 - first
    let slot := entSlot (s.entry first)
    match mapFind s.mem.slots slot with
    | none => false
    | some a =>
      decide (a.base / pageBytes ≤ first) && decide (first + n ≤ a.base / pageBytes + 2 ^ a.order) &&
      (span first n).all fun p =>
        let e := s.entry p
        entAllocated e && entSlot e == slot && entPolicy e == policy

/-! ### Checks -/

/-- Value of an object in a committed set, else its active value. -/
def State.inSet (s : State) (vals : NatMap) (key : Nat) : Nat := (mapFind vals key).getD (s.obj key)

/-- Fields of the axis objects of a set: type, port mask, forward mask, size − 1, position. -/
def axisFields (types axis a : Nat) : Nat × Nat × Nat × Nat × Nat :=
  ((types >>> (4 * a)) % 16, field axis 127 96, field axis 95 64, field axis 63 48, field axis 47 32)

/-- The conditions of R310, the scheduler's apart. -/
def axesBad (types : Nat) (axes : List Nat) : Bool :=
  let fs := axes.zipIdx.map fun (x, a) => axisFields types x a
  fs.any (fun (t, pm, fm, sz, pos) =>
    decide (t > 3) || (fm &&& pm != fm) || decide (pos > sz) || (t == 0 && pm != 0)) ||
  fs.zipIdx.any fun (f, i) => fs.zipIdx.any fun (g, j) => decide (i < j) && (f.2.1 &&& g.2.1 != 0)

/-- Window faults of an access-table image (R437 condition 4): a memory window whose base is not a page, whose pages
exceed 2^27, or which passes the address space. -/
def tableWindowBad (img : Nat) : Bool :=
  (List.range 672).any fun k =>
    let w := imageField img (64 + 16 * k) 16
    let base := field w 127 80
    let pages := field w 79 52
    decide (base % pageBytes ≠ 0) || decide (pages > 2 ^ 27) || decide (base + pages * pageBytes > 2 ^ 48)

/-- Why the commit of 0x7110 is refused: its code, 0 for accepted (R437). -/
def State.tableRefusal (s : State) (img : Nat) : Nat :=
  if s.obj oTableState ≠ 0 then 1
  else if s.obj oSchedulerState ≠ 0 then 2
  else if img % 2 ^ 512 ≠ 0x41540001 then 3
  else if tableWindowBad img then 4
  else 0

/-- Entry of `batch_programs` (Table 12.9). -/
def batchEntry (programs k : Nat) : Nat := (programs >>> (128 * k)) % 2 ^ 128

/-- Is an octet string of 6 bytes a group address? -/
def isGroupAddress (mac : Nat) : Bool := mac % 2 == 1

/-- Is the committed set of a group refused (R381)? -/
def State.commitRefused (s : State) (g : Nat) (vals : NatMap) : Bool :=
  let v := s.inSet vals
  let out (key lo hi : Nat) : Bool := decide (v key < lo) || decide (hi < v key)
  match g with
  | 0x1110 =>
    (v oPlcaNodeM0 == v oPlcaNodeM1 && v oPlcaNodeM0 != 255) || out oPlcaNodeCount 1 255 || out oEventVersion 2 3 ||
      out oEventRetryMs 1 1000 || out oEventRetries 1 255 || isGroupAddress (v oEventDestination)
  | 0x2010 => out oTickPeriodLog2 10 16
  | 0x2020 =>
    decide (v oProgramRun > 1) || (v oProgramRun == 1 &&
      (v oProgramBase == 0 || v oProgramBase % 128 != 0 || out oProgramRecords 1 1048576 || s.obj oDawnPhase == 7))
  | 0x2110 => out oDemoteRatioLog2 0 8 || out oMigrationsMax 1 64
  | 0x2310 => s.running || (span 0x231001 8).any fun k => !imageAccepted (v k)
  | 0x2610 => s.running || !imagesOk (v oStreamCounters)
  | 0x3020 => out oScrubPeriodHours 1 168
  | 0x3110 =>
    s.running || !s.mem.hash.isEmpty || !s.mem.spill.isEmpty ||
      !([0, 4, 8, 16, 32, 64].contains (v oHashCapacityMib)) ||
      (v oHashSpillBytes != 0 && !s.regionIn (v oHashSpillBase) (v oHashSpillBytes) 0)
  | 0x3210 => s.running
  | 0x4001 => (List.range 32).any fun p =>
      let b := (v oPortRates >>> (8 * p)) % 256
      b == 0 || decide (b > 7)
  | 0x4110 => out oRankCountNext 1 65536 || decide (v oRankCountNext ≤ v oRankNext)
  | 0x4120 => s.running || axesBad (v oAxisTypes) [v oAxis0, v oAxis1, v oAxis2, v oAxis3, v oAxis4, v oAxis5]
  | 0x4202 => v oNoiseExamplesPerDevice == 0 || out oNoiseDataRanks 1 65536 || out oBarrierMarginTicks 1 64
  | 0x4210 =>
    let e := batchEntry (v oBatchPrograms) (v oBatchSelect)
    decide (v oBatchSelect > 15) || field e 95 64 == 0 || decide (field e 95 64 > 1048576) || field e 47 0 % 128 != 0
  | 0x5010 =>
    s.running || v oTwinRegionBytes % 2 ^ 22 != 0 || out oTwinRegionBytes (2 ^ 24) (2 ^ 40) ||
      (v oTwinRegionBase != 0 && !s.regionIn (v oTwinRegionBase) (v oTwinRegionBytes) 0) ||
      (v oFarSnapshotBase != 0 && !s.regionIn (v oFarSnapshotBase) (v oTwinRegionBytes) 1) ||
      decide (v oHeartbeatTimeoutTicks ≤ v oHeartbeatIntervalTicks)
  | 0x5020 =>
    decide (v oStragglerMode > 1) || decide (v oLatePolicy > 1) || !s.regionIn (v oCarryBase) (v oCarryBytes) 0
  | 0x5030 => s.obj oSchedulerState != 0 && s.obj oSchedulerState != 2
  | 0x6010 =>
    s.running || v oHostWindowBusBase % pageBytes != 0 || v oHostWindowBytes % pageBytes != 0 ||
      decide (v oHostWindowBytes > 2 ^ 40)
  | 0x7010 => decide (v oMgmtSecureMode > 2)
  | 0x7020 =>
    out oLinkRekeyFlitsLog2 32 40 || decide (v oPeerPolicy > 1) || (List.range 32).any fun p => s.link p == 3
  | 0x7030 => (List.range 32).any fun p => s.link p == 3
  | 0x7110 => s.tableRefusal (v oTableImage) != 0
  | 0x8002 => out oWatchdogMs 100 60000
  | 0x8030 => out oPowerCeilingW 800 2000
  | 0x8110 => out oThermalWarnC 60 105
  | _ => false

/-- The effect point of a committed set (Table 14.3). -/
def State.effectPoint (s : State) (g : Nat) (vals : NatMap) : Effect :=
  match g with
  | 0x2050 => .atTick (s.inSet vals oEpochSwitchTick)
  | 0x4110 => .atTick (s.inSet vals oRouteSwitchTick)
  | 0x2210 | 0x2420 | 0x5020 => .stepBoundary
  | 0x4210 => .atStep (s.inSet vals oBatchSwitchStep)
  | _ => .nextBoundary

/-! ### Effects -/

/-- Sets the values of a set active. -/
def State.setActive (s : State) (vals : NatMap) : State := vals.foldl (fun s (q : Nat × Nat) => s.setObj q.1 q.2) s

/-- Enables and disables ports (R318, Table 11.11; cause 5 of Table 11.12). -/
def State.applyEnables (s : State) : State :=
  (List.range 32).foldl (fun s p =>
    let en := flag (s.obj oPortEnable) p
    if en ∧ s.link p = 0 then s.setObj (oLinkState p) 1
    else if !en ∧ s.link p ≠ 0 then s.linkDown p 0 5
    else s) s

/-- Applies a committed set at its effect point, its period apart (R38, R381). -/
def State.applySet (s : State) (c : CommitSet) : State :=
  let old := s
  match c.group with
  | 0x2010 =>
    let n := s.inSet c.vals oTickPeriodLog2
    let s := s.setActive (mapErase c.vals oTickPeriodLog2)
    let s := s.placeInTree
    { s with sched := { s.sched with periodNext := if n = s.obj oTickPeriodLog2 then none else some n } }
  | 0x2020 => { s.setActive c.vals with sched := { s.sched with freshProgram := true } }
  | 0x2610 =>
    let s := s.setActive (mapErase c.vals oStreamCounters)
    s.loadStreams (s.inSet c.vals oJobSeed) ((mapFind c.vals oStreamCounters).getD counterImages)
  | 0x3110 =>
    let s := s.setActive c.vals
    if s.hashLines = old.hashLines then s
    else
      -- lines in the sets the accumulator takes are written back and invalidated (R257)
      let s1 := old.dropLines (fun l => decide (old.lineSet l % 1024 ≥ 1024 - s.hashLines / 16)) true
      s1.setActive c.vals
  | 0x4001 => (s.setActive c.vals).applyEnables
  | 0x4110 =>
    let s := s.setActive c.vals
    let s := ((s.setObj oLogicalRank (s.obj oRankNext)).setObj oRankCount (s.obj oRankCountNext)).setObj
      oRouteTableActive (s.obj oRouteTableNext)
    s.placeInTree.checkRanks.refreshMeasurements
  | 0x5010 =>
    let s := s.setActive c.vals
    if s.obj oTwinRegionBase = 0 then s.setObj oTwinState 0 else s
  | 0x7010 | 0x7020 | 0x7030 => (s.setActive c.vals).refreshMeasurements
  | _ => s.setActive c.vals

/-- Is a committed set due at a boundary of this counter, when it is a step boundary or not (Table 14.3)? -/
def CommitSet.due (c : CommitSet) (tick : Nat) : Bool :=
  match c.effect with
  | .nextBoundary => true
  | .atTick t => decide (t ≤ tick)
  | _ => false

/-- Is a committed set due at a step boundary that makes `step_counter` this value? -/
def CommitSet.dueStep (c : CommitSet) (step : Nat) : Bool :=
  match c.effect with
  | .stepBoundary => true
  | .atStep n => decide (n ≤ step)
  | _ => false

/-- Insertion in ascending group. -/
def insertSet (c : CommitSet) : List CommitSet → List CommitSet
  | [] => [c]
  | d :: rest => if c.group < d.group then c :: d :: rest else d :: insertSet c rest

/-- Applies the sets that `p` selects, in ascending group (R381). -/
def State.applyDue (s : State) (p : CommitSet → Bool) : State :=
  let due := (s.dict.committed.filter p).foldl (fun l c => insertSet c l) []
  let s := { s with dict := { s.dict with committed := s.dict.committed.filter fun c => !p c } }
  due.foldl (fun s c => s.applySet c) s

/-! ### Commits and discards -/

/-- Writes `commit_result` (R383) and arms vector 14. -/
def State.commitOutcome (s : State) (g outcome : Nat) : State :=
  (s.setObj oCommitResult (g <<< 16 + outcome)).armVector 14

/-- The pending values of a group (R379). -/
def State.pendingSet (s : State) (g : Nat) : NatMap := (groupMembers g).map fun k => (k, s.pendObj k)

/-- Adds late bytes to LATE_CONTRIBUTION of the tick (R368): the first tag, absent peers and position stand (log entry 115). -/
def State.noteLate (s : State) (tag absent position carried dropped : Nat) : State :=
  let s := (s.addObj oLateBytesCarried carried).addObj oLateBytesDropped dropped
  match s.tickEvent? 0x0504 with
  | none => s.setTickEvent (mkEvent 0x0504 0x04 0 tag absent position carried dropped)
  | some e =>
    let e := if e.w1 = 0 ∧ absent ≠ 0 then { e with w0 := tag, w1 := absent, w2 := position } else e
    s.setTickEvent { e with w3 := e.w3 + carried, w4 := e.w4 + dropped }

/-- Drops every debt and carried payload, and counts their bytes as dropped, those that a debt still expected too (R367, R368;
log entry 109). -/
def State.dropLate (s : State) : State :=
  let n := s.colls.carried.foldl (fun a c => a + c.bytes.length) (s.colls.debts.foldl (fun a d => a + d.bytes) 0)
  let tag := ((s.colls.carried.map (·.tag)) ++ s.colls.debts.map (·.tag)).headD 0
  let s := { s with colls := { s.colls with debts := [], carried := [] } }
  if n = 0 then s else s.noteLate tag 0 0 0 n

/-- What an accepted commit does at once, beside waiting for its effect point. -/
def State.acceptNow (s : State) (g : Nat) (vals : NatMap) : State :=
  match g with
  | 0x1110 =>
    let s := s.setObj oEventStalled 0
    { s with dict := { s.dict with
        outstanding := s.dict.outstanding.map fun o => { o with port := 0, resends := 0 } } }
  | 0x2010 => { s with sched := { s.sched with periodNext := none } }
  | 0x2020 => { s with sched := { s.sched with startAsked := !s.running } }
  | 0x5020 => s.dropLate
  | 0x5030 =>
    -- the restore starts at once (R369); its end is RESTORE_COMPLETE
    let s := (s.setActive vals).setObj oRestoreStatus 1
    let r : Restore := { source := s.obj oRestoreSource, slot := s.obj oRestoreSlot % 2 }
    let s := { s with resil := { s.resil with restore := some r } }
    if r.source = 0 ∧ s.twinned then s.sendTwin 2 r.slot 0x13 (leBytes 8 0 ++ leBytes 8 256) else s
  | 0x7110 =>
    { (s.setActive vals).setObj oTableState 1 with sec := { s.sec with clearing := true } }
  | _ => s

/-- Commits a group (R379–R383): was it accepted, and the state after. -/
def State.commitGroup (s : State) (g : Nat) : Bool × State :=
  let vals := s.pendingSet g
  let s := if g = 0x7110 then s.setObj oTableRefuseCode (s.tableRefusal (s.inSet vals oTableImage)) else s
  if s.commitRefused g vals then (false, s.commitOutcome g 1)
  else
    let waits := decide (g ≠ 0x5030 ∧ g ≠ 0x7110)
    let set : CommitSet := ⟨g, vals, s.effectPoint g vals⟩
    let s := if waits then
        { s with dict := { s.dict with committed := s.dict.committed.filter (·.group != g) ++ [set] } }
      else s
    (true, (s.acceptNow g vals).commitOutcome g 0)

/-- Discards a group's pending values and withdraws its commit (R380). -/
def State.discardGroup (s : State) (g : Nat) : State :=
  let s := (groupMembers g).foldl (fun s k =>
    s.setPend k (if k = oStreamCounters then s.streamImages 0 else s.obj k)) s
  let s := { s with dict := { s.dict with committed := s.dict.committed.filter (·.group != g) } }
  let s := if g = 0x2010 then { s with sched := { s.sched with periodNext := none } }
    else if g = 0x2020 then { s with sched := { s.sched with startAsked := false } }
    else s
  s.commitOutcome g 2

end Sys2Proof.Machine
end

