-- ==== Sys2Proof/Machine/Tasks.lean ====
section
/-! DEFINITION. Task records (Tables 2.2–2.4), tasks in progress, and how a task's work ends early. -/

namespace Sys2Proof.Machine

/-! ### Record fields (Tables 2.2, 2.3) -/

/-- kind. -/
def recKind (r : Nat) : Nat := field r 3 0
/-- status. -/
def recStatus (r : Nat) : Nat := field r 7 4
/-- flush_subnormal. -/
def recFlush (r : Nat) : Bool := flag r 8
/-- deterministic. -/
def recDeterministic (r : Nat) : Bool := flag r 9
/-- sr_quantise. -/
def recSr (r : Nat) : Bool := flag r 10
/-- stationary_role. -/
def recRole (r : Nat) : Nat := field r 12 11
/-- stage. -/
def recStage (r : Nat) : Nat := field r 18 16
/-- epoch. -/
def recEpoch (r : Nat) : Nat := field r 39 24
/-- engine_first. -/
def recFirst (r : Nat) : Nat := field r 51 40
/-- engine_count. -/
def recCount (r : Nat) : Nat := field r 63 52
/-- predicted_cycles. -/
def recPredicted (r : Nat) : Nat := field r 95 64
/-- not_before. -/
def recNotBefore (r : Nat) : Nat := field r 159 128
/-- deadline. -/
def recDeadline (r : Nat) : Nat := field r 191 160
/-- Wait entry `k`. -/
def recWait (r k : Nat) : Nat := field r (255 + 64 * k) (192 + 64 * k)
/-- Signal entry `k`. -/
def recSignal (r k : Nat) : Nat := field r (479 + 32 * k) (448 + 32 * k)
/-- Operand entry `k`. -/
def recOperandEntry (r k : Nat) : Nat := field r (575 + 64 * k) (512 + 64 * k)
/-- Address of operand `k`; 0 for none. -/
def recOperand (r k : Nat) : Nat := recOperandEntry r k % 2 ^ 48
/-- queue_out. -/
def recQueueOut (r : Nat) : Nat := field r 799 792
/-- queue_in. -/
def recQueueIn (r : Nat) : Nat := field r 807 800
/-- priority. -/
def recPriority (r : Nat) : Nat := field r 815 808
/-- accumulate_handle. -/
def recHandle (r : Nat) : Nat := field r 831 816
/-- Bits `[hi:lo]` of the record, for fields of kind_params. -/
def recParam (r hi lo : Nat) : Nat := field r hi lo

/-- The engines of a record's set. -/
def recEngines (r : Nat) : List Nat := if recKind r = 0 then [] else span (recFirst r) (recCount r)

/-- Number of engines of a kind (Table 2.4). -/
def engineLimit (kind : Nat) : Nat :=
  match kind with
  | 1 | 2 => 2048
  | 3 | 4 => 64
  | 5 | 7 => 4
  | 6 => 20
  | 8 | 9 => 1
  | _ => 0

/-- The class of engine a kind runs on: gather and scatter share engines, and so do collective and snapshot. -/
def kindClass (kind : Nat) : EngineClass :=
  match kind with
  | 1 => .matrix | 2 => .vector | 3 => .gather | 4 => .gather | 5 => .collective | 7 => .collective
  | 6 => .update | 8 => .allocator | _ => .paging

/-- The kind of block that raises a task's events (Table 14.11; log entry 31). -/
def kindSource (kind : Nat) : Nat :=
  match kind with
  | 1 | 2 => 0x01 | 3 | 4 => 0x02 | 5 | 7 => 0x04 | 6 => 0x03 | 8 | 9 => 0x0B | _ => 0x00

/-! ### Tasks in progress -/

/-- The task of a record index. -/
def State.task? (s : State) (r : Nat) : Option Task := s.sched.tasks.find? (·.record == r)

/-- The task that runs a record: its own, or that of the tied group it belongs to (R203). -/
def State.holder? (s : State) (r : Nat) : Option Task :=
  s.sched.tasks.find? fun t => t.record == r || t.members.any (·.1 == r)

/-- The state with this task in place of the one of its record. -/
def State.setTask (s : State) (t : Task) : State :=
  { s with sched := { s.sched with tasks := s.sched.tasks.map fun u => if u.record = t.record then t else u } }

/-- Do all engines of the task run it? -/
def Task.started (t : Task) : Bool := t.waiting.isEmpty

/-- Does an engine run the task: it has started it and has not gone on to another? -/
def Task.runs (t : Task) (e : Nat) : Bool := (mapFind t.running e).isSome && !t.left.contains e

/-- The kind of block that raises a task's events. -/
def Task.source (t : Task) : Nat := kindSource (recKind t.image)

/-- The block that raises a task's events: the first engine of its set (log entry 31). -/
def Task.unit (t : Task) : Nat := recFirst t.image

/-- A task whose work is to be done: every engine has started it, it has not worked or faulted, and the mesh goes on (R449). -/
def State.working? (s : State) (r : Nat) : Option Task :=
  match s.task? r with
  | some t => if t.started && t.work == 0 && !t.stuck && !s.rst.meshStuck then some t else none
  | none => none

/-! ### Undefined and unstated results -/

/-- The master classes that write a task's results (Table 16.6): a collective's are those of the fabric ports. -/
def Task.writers (t : Task) : List Nat :=
  match recKind t.image with
  | 1 | 2 => [0]
  | 3 | 4 => [1]
  | 5 | 7 => span 0x10 32
  | 6 => [2]
  | _ => [3]

/-- Free bytes in place of a range of present memory that some of these classes may write (R6, R7; log entries 4, 12). -/
def State.scramble (s : State) (writers : List Nat) (va n : Nat) : State :=
  (pieces va n).foldl (fun s (p : Nat × Nat) =>
    let e := s.entry (p.1 / pageBytes)
    if p.1 ≥ hostWindowBase ∨ entState e = 0 ∨ entState e = 3 ∨ !writers.any fun c => s.granted c 2 p.1 then s
    else
      let bs := (List.range p.2).map fun i => (Config.freeWord 8 (s.freeCtr + i))
      ({ s with freeCtr := s.freeCtr + p.2 }).physWrite (entPhys e + p.1 % pageBytes) bs) s

/-- The task's results are undefined, reach the job's windows: they and the job's memory become free. -/
def undefinedJob {α : Type} : M α := do
  mod State.scrambleJob
  throw .undefined

/-! ### How work ends -/

/-- A task takes its fault (R56, R280, R397): what is raised, and its outputs become free (log entry 12). -/
def State.failTask (s : State) (t : Task) (outs : List (Nat × Nat)) (a : Abort) : State :=
  let s := outs.foldl (fun s q => s.scramble t.writers q.1 q.2) s
  match a with
  | .absent va => ((s.setTask { t with work := 2 }).raise 0x0201 t.source t.unit t.record va).haltWith 0x0201 t.record
  | .fault d => (s.setTask { t with work := 2 }).taskFault t.source t.unit t.record 0x09 d
  | .poison loc =>
    ((s.uncorrected loc t.record).setTask { t with work := 2, undef := true }).taskFault t.source t.unit t.record 0x09 0x0A02
  | .undefined => s.setTask { t with work := 1, undef := true }
  | .wait => s

/-- Runs the work of a task: on success the task has worked; an abort ends it as `failTask` says. `outs` are the byte
ranges of its outputs. -/
def runWork (s : State) (t : Task) (outs : List (Nat × Nat)) (body : M Unit) : Host.Outcome State Fault Refusal :=
  match body.run s with
  | .ok _ s' =>
    match s'.task? t.record with
    | some t' => .next (s'.setTask { t' with work := 1 })
    | none => .next s'
  | .error .wait _ => .next s
  | .error a s' =>
    match s'.task? t.record with
    | some t' => .next (s'.failTask t' outs a)
    | none => .next s'

/-- The state in which this change has been made to the task that runs a record; its record stays. -/
def State.modTask (s : State) (r : Nat) (f : Task → Task) : State :=
  match s.holder? r with
  | some t => { s with sched := { s.sched with tasks := s.sched.tasks.map fun u =>
      if u.record = t.record then { f u with record := u.record } else u } }
  | none => s

end Sys2Proof.Machine
end

