-- ==== Sys2Proof/Machine/Paging.lean ====
section
/-! DEFINITION. The allocator and the paging engine (R267–R287): grants and frees, backing, migrations and page tasks,
and scrubbing (R264–R266). -/

namespace Sys2Proof.Machine

/-! ### Frames (R252, R273) -/

/-- Sets `near_frames_free` and `far_frames_free` (R273, R413, R415). -/
def State.refreshFrames (s : State) : State :=
  let far := s.far.foldl (fun a q =>
    if q.2.state = 4 then a + (q.2.frames - (s.mem.farUsed.filter (· / 2 ^ 22 == q.1)).length) else a) 0
  (s.setObj oNearFramesFree (20 * stackFrames - s.mem.nearUsed.length)).setObj oFarFramesFree far

/-- Far port `h` beside its objects. -/
def State.farPort (s : State) (h : Nat) : FarPort := (mapFind s.far h).getD {}

/-- The state with this far port. -/
def State.setFar (s : State) (h : Nat) (q : FarPort) : State := { s with far := mapPut {} s.far h q }

/-- The lowest `x` from `lo` in steps of `step` that is not in `used`, below `hi`. -/
def firstFree (used : List Nat) (hi step : Nat) : Nat → Nat → Option Nat
  | 0, _ => none
  | n + 1, x => if x ≥ hi then none else if used.contains x then firstFree used hi step n (x + step) else some x

/-- The lowest free frame of a stack from frame `c` on in steps of `step`. -/
def State.freeFrame (s : State) (k c step : Nat) : Option Nat :=
  let used := s.mem.nearUsed.filterMap fun f => if f / 65536 = k then some (f % 65536) else none
  (firstFree used stackFrames step (used.length + 1) c).map (k * 65536 + ·)

/-- The stacks of a placement in the order of R273 from the preferred one. -/
def stackOrder (placement i slot : Nat) : List Nat :=
  if placement = 0 then (List.range 20).map fun d => ((i + slot) % 20 + d) % 20
  else
    let h := placement - 1
    (List.range 5).map fun d => 5 * h + ((i + slot) % 5 + d) % 5

/-- The far ports of a placement: the preferred one, then the others in ascending order (R273). -/
def farOrder (placement i slot : Nat) : List Nat :=
  if placement = 0 then
    let p := (i + slot) % 4
    p :: (List.range 4).filter (· != p)
  else [placement - 1]

/-- The near frame for page `i` of an allocation at page `v` (R254, R273), and whether its colour missed. -/
def State.findNear (s : State) (placement slot i v : Nat) : Option (Nat × Bool) :=
  let ks := stackOrder placement i slot
  match ks.findSome? fun k => s.freeFrame k (v % 32) 32 with
  | some f => some (f, false)
  | none => (ks.findSome? fun k => s.freeFrame k 0 1).map fun f => (f, true)

/-- The far frame for page `i` of an allocation (R273). -/
def State.findFar (s : State) (placement slot i : Nat) : Option Nat :=
  (farOrder placement i slot).findSome? fun h =>
    let q := s.farPort h
    if q.state ≠ 4 then none
    else
      let used := s.mem.farUsed.filterMap fun f => if f / 2 ^ 22 = h then some (f % 2 ^ 22) else none
      (firstFree used q.frames 1 (used.length + 1) 0).map (h * 2 ^ 22 + ·)

/-- Takes a near frame, counting a colour miss. -/
def State.takeNear (s : State) (f : Nat) (miss : Bool) : State :=
  let s := { s with mem := { s.mem with nearUsed := setAdd f s.mem.nearUsed } }.refreshFrames
  if miss then s.count oColourMisses else s

/-- Takes a far frame. -/
def State.takeFar (s : State) (f : Nat) : State :=
  { s with mem := { s.mem with farUsed := setAdd f s.mem.farUsed } }.refreshFrames

/-- Frees a near frame: its lines leave the cache. -/
def State.freeNear (s : State) (f : Nat) : State :=
  let s := s.dropLines (fun l => l / 8192 == f) true
  { s with mem := { s.mem with nearUsed := setDel f s.mem.nearUsed } }.refreshFrames

/-- Frees a far frame. -/
def State.freeFar (s : State) (f : Nat) : State :=
  { s with mem := { s.mem with farUsed := setDel f s.mem.farUsed } }.refreshFrames

/-- Frees what an entry's location names. -/
def State.freeLocation (s : State) (e : Nat) : State :=
  if entState e = 1 ∨ (entState e = 3 ∧ entToFar e) then s.freeNear (entLocation e)
  else if entState e = 2 ∨ entState e = 3 then s.freeFar (entLocation e)
  else s

/-- Backs a page of a live allocation by its policy (R273): false where no frame is found. -/
def State.backPage (s : State) (slot policy placement i v : Nat) : Option State :=
  if policy = 0 then
    (s.findNear placement slot i v).map fun (f, miss) =>
      (s.takeNear f miss).setEntry v (mkEntry 1 policy false 0 slot true f)
  else
    (s.findFar placement slot i).map fun f => (s.takeFar f).setEntry v (mkEntry 2 policy false 0 slot true f)

/-! ### Allocations (R267–R272) -/

/-- The lowest block of 2^order pages that no live allocation overlaps, from page `v` on; the first page and the host
window are never granted (R267, R407). -/
def freeBlock (live : List (Nat × Nat)) (order : Nat) : Nat → Nat → Option Nat
  | 0, _ => none
  | n + 1, v =>
    if v + 2 ^ order > hostWindowBase / pageBytes then none
    else match live.find? fun a => decide (a.1 < v + 2 ^ order) && decide (v < a.1 + a.2) with
      | none => some v
      | some a => freeBlock live order n (roundUp (a.1 + a.2) (2 ^ order))

/-- First page and pages of every live allocation. -/
def State.liveRanges (s : State) : List (Nat × Nat) :=
  s.mem.slots.map fun q => (q.2.base / pageBytes, 2 ^ q.2.order)

/-- Free near frames of a placement. -/
def State.nearFree (s : State) (placement : Nat) : Nat :=
  let ks := stackOrder placement 0 0
  ks.length * stackFrames - (s.mem.nearUsed.filter fun f => ks.contains (f / 65536)).length

/-- Free far frames of a placement. -/
def State.farFree (s : State) (placement : Nat) : Nat :=
  (farOrder placement 0 0).foldl (fun a h =>
    let q := s.farPort h
    if q.state = 4 then a + (q.frames - (s.mem.farUsed.filter (· / 2 ^ 22 == h)).length) else a) 0

/-- A request to the allocator (Tables 10.9, R271). -/
structure AllocArgs where
  op : Nat
  order : Nat
  policy : Nat
  placement : Nat
  unbacked : Bool
  handle : Nat
deriving DecidableEq, Repr

/-- The live allocation of a handle (R268). -/
def State.handle? (s : State) (handle : Nat) : Option (Nat × AllocSlot) :=
  match mapFind s.mem.slots (handle % 65536) with
  | some a => if a.sequence = handle / 65536 ∧ handle ≠ 0 then some (handle % 65536, a) else none
  | none => none

/-- The lowest-numbered free slot (R268). -/
def State.freeSlot (s : State) : Option Nat :=
  firstFree (s.mem.slots.map (·.1)) 65536 1 (s.mem.slots.length + 1) 0

/-- The code of the first condition of R270 that fails; 0 for none. -/
def State.allocCode (s : State) (a : AllocArgs) : Nat :=
  if a.op ≠ 1 ∧ a.op ≠ 2 then 6
  else if a.op = 1 ∧ (a.policy > 2 ∨ a.placement > 4 ∨ a.order > 19) then 6
  else if a.op = 2 then (if (s.handle? a.handle).isNone then 5 else 0)
  else if s.freeSlot.isNone then 4
  else if (freeBlock s.liveRanges a.order (s.mem.slots.length + 1) (2 ^ a.order)).isNone then 1
  else if a.unbacked then 0
  else if a.policy = 0 ∧ s.nearFree a.placement < 2 ^ a.order then 2
  else if a.policy ≠ 0 ∧ s.farFree a.placement < 2 ^ a.order then 3
  else 0

/-- Grants an allocation whose conditions hold: base, handle and the state after. -/
def State.grant (s : State) (a : AllocArgs) : Nat × Nat × State :=
  let slot := s.freeSlot.getD 0
  let v := (freeBlock s.liveRanges a.order (s.mem.slots.length + 1) (2 ^ a.order)).getD 0
  let q := mapGet 0 s.mem.sequences slot
  let q := if (q + 1) % 65536 = 0 then 1 else (q + 1) % 65536
  let s := { s with mem := { s.mem with
    slots := mapInsert s.mem.slots slot ⟨v * pageBytes, a.order, a.policy, a.placement, q⟩
    sequences := mapPut 0 s.mem.sequences slot q } }
  let s := s.setObj oAllocLive s.mem.slots.length
  let s := (List.range (2 ^ a.order)).foldl (fun s i =>
    if a.unbacked then s.setEntry (v + i) (mkEntry 0 a.policy false 0 slot true 0)
    else (s.backPage slot a.policy a.placement i (v + i)).getD s) s
  (v * pageBytes, q * 65536 + slot, s)

/-- Is a page of the allocation migrating (R272)? -/
def State.migratingIn (s : State) (a : AllocSlot) : Bool :=
  s.mem.migrations.any fun m => decide (a.base / pageBytes ≤ m.page) &&
    decide (m.page < a.base / pageBytes + 2 ^ a.order)

/-- Releases an allocation: its range, every frame that backs it, and what was asked for its pages (R272). -/
def State.release (s : State) (slot : Nat) (a : AllocSlot) : State :=
  let s := (List.range (2 ^ a.order)).foldl (fun s i =>
    let v := a.base / pageBytes + i
    let e := s.entry v
    if entState e = 0 then s.setEntry v 0 else ((s.shootdown v).freeLocation e).setEntry v 0) s
  let (first, n) := (a.base / pageBytes, 2 ^ a.order)
  { s with mem := { s.mem with
    slots := mapErase s.mem.slots slot
    freed := (first, n) :: s.mem.freed.filter (· != (first, n))
    asks := s.mem.asks.filter fun q => !(decide (first ≤ q.page) && decide (q.page < first + n)) } }.setObj oAllocLive
      (s.mem.slots.length - 1)

/-- A result of Table 10.10. -/
def allocResult (base handle code : Nat) : Nat := base <<< 80 + handle <<< 48 + code <<< 32

/-- Does the request wait for a migration (R272)? -/
def State.allocWaits (s : State) (a : AllocArgs) : Bool :=
  a.op == 2 && match s.handle? a.handle with
    | some (_, q) => s.migratingIn q
    | none => false

/-- Performs an allocation or free (R270): its result and the state after. ALLOC_EXHAUSTED is raised for codes 1–4. -/
def State.allocPerform (s : State) (a : AllocArgs) (record : Nat) : Nat × State :=
  let code := s.allocCode a
  if code ≠ 0 then
    let s := s.count oAllocFailures
    let s := if code ≤ 4 then s.raise 0x0202 0x0B 0 code a.order a.placement record else s
    (allocResult 0 0 code, s)
  else if a.op = 1 then
    let (base, h, s) := s.grant a
    (allocResult base h 0, s)
  else match s.handle? a.handle with
    | some (slot, q) => (allocResult 0 0 0, s.release slot q)
    | none => (allocResult 0 0 0, s)

/-- The request of an allocate task (Table 10.9). -/
def taskAlloc (r : Nat) : AllocArgs :=
  ⟨recParam r 855 852, recParam r 871 867, recParam r 866 865, recParam r 864 860, flag r 859, recParam r 927 896⟩

/-- The request of 16 bytes written to 0x2101:01 (R271). -/
def objectAlloc (v : Nat) : AllocArgs :=
  let op := v % 256
  ⟨if op = 3 then 0 else op, field v 15 8, field v 23 16, field v 30 24, flag v 31, field v 63 32⟩

/-- Is an allocation from 0x2101:01 pending? -/
def State.requestPending (s : State) : Bool :=
  s.mem.queue.any fun q => match q with
    | .request _ => true
    | _ => false

/-- A write to `alloc_request` (R271): queued, or ignored while another is pending. -/
def State.requestAlloc (s : State) (v : Nat) : State :=
  if s.requestPending then s.count oAllocRequestsIgnored
  else { s.setObj oAllocResult (allocResult 0 0 0xFFFF) with
    mem := { s.mem with queue := s.mem.queue ++ [.request v] } }

/-- The work of an allocate task with op alloc or free: its result is written, and a code other than 0 faults it
(R270). -/
def allocWork (t : Task) : M Unit := do
  let a := taskAlloc t.image
  let s ← get
  let code := s.allocCode a
  let (res, s') := s.allocPerform a t.record
  set s'
  writeBytes { allocInit with epoch := some (recEpoch t.image), record := t.record } .pass
    (recParam t.image 1023 976) (leBytes 16 res)
  if code ≠ 0 then throw (.fault (if code ≤ 4 then 0x0202 else 0))

/-- Takes the head of the allocator queue off. -/
def State.popAlloc (s : State) : State := { s with mem := { s.mem with queue := s.mem.queue.drop 1 } }

/-- Is this record's task at the head of the allocator queue? -/
def State.allocHead (s : State) (r : Nat) : Bool := s.mem.queue.head? == some (.task r)

/-- Runs an allocate task that has come to the head (R269, R270). -/
def State.serveAllocTask (s : State) (t : Task) : Host.Outcome State Fault Refusal :=
  if s.allocWaits (taskAlloc t.image) then .next s
  else runWork s.popAlloc t [] (allocWork t)

/-- Runs an allocate task with this op when it is at the head of the queue. -/
def State.runAlloc (s : State) (r op : Nat) : Host.Outcome State Fault Refusal :=
  match s.working? r with
  | some t =>
    if recKind t.image = 8 ∧ recParam t.image 855 852 = op ∧ s.allocHead r then s.serveAllocTask t else .next s
  | none => .next s

/-- ALLOC (R267–R270, R273). -/
def execAlloc (r : Nat) (s : State) : Host.Outcome State Fault Refusal := s.runAlloc r 1

/-- FREE (R270, R272). -/
def execFree (r : Nat) (s : State) : Host.Outcome State Fault Refusal := s.runAlloc r 2

/-- Performs a request of 0x2101:01 at the head of the queue (R271). -/
def State.serveRequest (s : State) (v : Nat) : State :=
  let a := objectAlloc v
  if s.allocWaits a then s
  else
    let (res, s) := s.popAlloc.allocPerform a 0xFFFFFFFF
    s.setObj oAllocResult res

/-- A write to `page_query` (R275): `page_entry` holds the entry of the page. -/
def State.queryPage (s : State) (va : Nat) : State := s.setObj oPageEntry (s.entry (va % 2 ^ 48 / pageBytes))

/-! ### Migrations (R281–R283) -/

/-- Is the page migrating? -/
def State.migrating (s : State) (page : Nat) : Bool := s.mem.migrations.any (·.page == page)

/-- Sets `migrating_now`. -/
def State.refreshMigrating (s : State) : State := s.setObj oMigratingNow s.mem.migrations.length

/-- Index of a page within its allocation. -/
def State.pageIndex (s : State) (page : Nat) : Nat :=
  match mapFind s.mem.slots (entSlot (s.entry page)) with
  | some a => page - a.base / pageBytes
  | none => 0

/-- Placement of a page's allocation. -/
def State.pagePlacement (s : State) (page : Nat) : Nat :=
  ((mapFind s.mem.slots (entSlot (s.entry page))).map (·.placement)).getD 0

/-- Takes the target of a migration (R273): the frame or far frame, and the state. -/
def State.takeTarget (s : State) (page : Nat) (toFar : Bool) : Option (Nat × State) :=
  let pl := s.pagePlacement page
  let slot := entSlot (s.entry page)
  let i := s.pageIndex page
  if toFar then (s.findFar pl slot i).map fun f => (f, s.takeFar f)
  else (s.findNear pl slot i page).map fun (f, miss) => (f, s.takeNear f miss)

/-- A task whose migration finds no frame faults (R284). -/
def State.migrationFails (s : State) (toFar : Bool) (asker : Option Nat) : State :=
  match asker with
  | none => s
  | some r =>
    match s.task? r with
    | none => s
    | some t =>
      let s := s.raise 0x0202 0x0B 0 (if toFar then 3 else 2) 0 0 r
      let s := { s with mem := { s.mem with asks := s.mem.asks.filter (·.asker != some r) } }
      if t.work = 2 then s else s.failTask t [] (.fault 0x0202)

/-- MIGRATION_START (R281, R282): the first ask for the page, when a migration is free and the page is not migrating. A
page that is no longer of the hot policy is not moved without a task (R283). -/
def execMigrationStart (page : Nat) (s : State) : Host.Outcome State Fault Refusal :=
  match s.mem.asks.find? (·.page == page) with
  | none => .next s
  | some ask =>
    if s.mem.migrations.length ≥ s.obj oMigrationsMax ∨ s.migrating page ∨ s.rst.meshStuck then .next s
    else
      let s := { s with mem := { s.mem with asks := s.mem.asks.erase ask } }
      let e := s.entry page
      if entState e ≠ (if ask.toFar then 1 else 2) then .next s   -- gone or already there
      else if ask.asker.isNone ∧ entPolicy e ≠ 2 then .next s      -- pinned since (R283)
      else match s.takeTarget page ask.toFar with
        | none => .next (s.migrationFails ask.toFar ask.asker)
        | some (f, s) =>
          let s := s.setEntry page (mkEntry 3 ask.policy ask.toFar (entCount e) (entSlot e) true (entLocation e))
          let s := s.shootdown page
          let s := if ask.toFar then s.dropLines (fun l => l / 8192 == entLocation e) true else s
          let s := { s with mem := { s.mem with
            migrations := s.mem.migrations ++ [(⟨page, e, ask.toFar, ask.policy, f, ask.asker⟩ : Migration)] } }
          .next s.refreshMigrating

/-- Moves the bytes of a page, none of them poisoned, from one physical address to another; the old place keeps its bytes. -/
def State.copyPage (s : State) (src dst : Nat) : State :=
  let body := s.mem.cells.filter fun c => decide (src ≤ c.1) && decide (c.1 < src + pageBytes)
  let cells := memClear s.mem.cells dst (dst + pageBytes)
  { s with mem := { s.mem with
      cells := body.foldl (fun m c => memPut m (c.1 - src + dst) c.2) cells
      poison := s.mem.poison.filter fun p => !(decide (dst ≤ p.1 * 64) && decide (p.1 * 64 < dst + pageBytes)) } }

/-- A held access that fails (R281): its task, if any, takes the fault; the host's counts as one to an absent page
(R404). -/
def State.heldFails (s : State) (h : Held) (a : Abort) : State :=
  match h.record with
  | none => if h.cls = 4 then s.count oPageAbsentAccesses else s
  | some r =>
    match s.task? r with
    | none => s
    | some t => if t.work = 2 then s else s.failTask t [] a

/-- Counts an atomic that the page's state refuses (R262). -/
def State.atomicRefused (s : State) (h : Held) : State := if h.atomic.isSome then s.count oAtomicRefusals else s

/-- Performs one held write or atomic, translated anew (Table 10.14 step 6). -/
def State.releaseHeld (s : State) (h : Held) : State :=
  let s := s.translate h.tc (h.va / pageBytes)
  let e := s.entry (h.va / pageBytes)
  let right := rightOf h.atomic
  if entState e = 0 then
    let s := (s.atomicRefused h).useFreed (h.va / pageBytes)
    (if h.record.isSome then s.count oPageAbsentAccesses else s).heldFails h (.absent h.va)
  else if !s.granted h.cls right h.va then ((s.refuse h.cls h.unit right h.va).discardMsg h.msg).heldFails h (.fault 0x0801)
  else if !s.epochOk h.epoch then s.noteStale
  else match h.atomic with
    | some op =>
      if entState e = 1 then
        s.performAtomic op (entPhys e + h.va % pageBytes) h.bytes.length (ofLe h.bytes)
      else (s.atomicRefused h).heldFails h (.fault 0)
    | none => s.storeAt h.req h.va h.bytes

/-- Releases every access held for a page, in order. -/
def State.releasePage (s : State) (page : Nat) : State :=
  let mine := s.mem.held.filter fun h => h.va / pageBytes == page
  let s := { s with mem := { s.mem with held := s.mem.held.filter fun h => h.va / pageBytes != page } }
  mine.foldl (fun s h => s.releaseHeld h) s

/-- Ends a migration (Table 10.14 steps 5 and 6); `ok` false leaves the page absent (R286, R414, Table 16.9). -/
def State.endMigration (s : State) (m : Migration) (ok : Bool) : State :=
  let oldPhys := if m.toFar then nearPhys (entLocation m.old) else farPhys (entLocation m.old)
  let newPhys := if m.toFar then farPhys m.taken else nearPhys m.taken
  let e := s.entry m.page
  let s := { s with mem := { s.mem with migrations := s.mem.migrations.filter (·.page != m.page) } }
  let s := if ok then
      let s := s.copyPage oldPhys newPhys
      let s := s.translate (farInit ((if m.toFar then m.taken else entLocation m.old) / 2 ^ 22)).tc m.page
      let s := if m.toFar then (s.addObj oStackReadBytes pageBytes).addObj oFarWriteBytes pageBytes
        else (s.addObj oFarReadBytes pageBytes).addObj oStackWriteBytes pageBytes
      let s := s.setEntry m.page (mkEntry (if m.toFar then 2 else 1) (entPolicy e) false (entCount e) (entSlot e)
        (entAllocated e) m.taken)
      let s := s.count (if m.toFar then oDemotions else oPromotions)
      if m.toFar then s.freeNear (entLocation m.old) else s.freeFar (entLocation m.old)
    else
      let s := s.setEntry m.page (mkEntry 0 (entPolicy e) false 0 (entSlot e) (entAllocated e) 0)
      if m.toFar then (s.freeNear (entLocation m.old)).freeFar m.taken
      else (s.freeFar (entLocation m.old)).freeNear m.taken
  ((s.shootdown m.page).releasePage m.page).refreshMigrating

/-- MIGRATION_COPY_DONE (R281). Poison in the page, or a refusal of the far port's migration data by the access tables,
ends it with the page absent. -/
def execMigrationCopyDone (page : Nat) (s : State) : Host.Outcome State Fault Refusal :=
  match s.mem.migrations.find? fun m => m.page == page && !s.rst.meshStuck with
  | none => .next s
  | some m =>
    let src := if m.toFar then nearPhys (entLocation m.old) else farPhys (entLocation m.old)
    let h := if m.toFar then m.taken / 2 ^ 22 else entLocation m.old / 2 ^ 22
    let right := if m.toFar then 1 else 2
    let granted := decide (s.memRights (0x30 + h) (page * pageBytes) &&& right = right)
    let s := if granted then s else s.noteDenied (0x30 + h) h (page * pageBytes) right
    match s.poisoned? src pageBytes with
    | none => .next (s.endMigration m granted)
    | some atom =>
      let s := if m.toFar then s
        else (s.count oFarPoisoned).setObj oFarLastPoison
          (h <<< 62 + (entLocation m.old % 2 ^ 22 * pageBytes + (atom * 64 - src)))
      .next (s.endMigration m false)

/-- The near page of the hot policy with the lowest access count in some stacks (R283). -/
def State.coldest (s : State) (ks : List Nat) : Option (Nat × Nat) :=
  s.mem.pages.foldl (fun b (q : Nat × Nat) =>
    if entState q.2 = 1 ∧ entPolicy q.2 = 2 ∧ ks.contains (entLocation q.2 / 65536) ∧ !s.migrating q.1 then
      match b with
      | some c => if entCount q.2 < c.2 then some (q.1, entCount q.2) else b
      | none => some (q.1, entCount q.2)
    else b) none

/-- AUTO_PROMOTE (R283): a far hot page at the threshold asks for near memory, or first for a colder page to leave. -/
def execAutoPromote (page : Nat) (s : State) : Host.Outcome State Fault Refusal :=
  let e := s.entry page
  if entState e ≠ 2 ∨ entPolicy e ≠ 2 ∨ entCount e < s.obj oPromoteThreshold ∨ s.mem.asks.any (·.page == page) then
    .next s
  else
    let pl := s.pagePlacement page
    match s.findNear pl (entSlot e) (s.pageIndex page) page with
    | some _ => .next { s with mem := { s.mem with asks := s.mem.asks ++ [⟨page, false, 2, none⟩] } }
    | none =>
      match s.coldest (stackOrder pl 0 0) with
      | some (v, n) =>
        if n * 2 ^ s.obj oDemoteRatioLog2 < entCount e ∧ !s.mem.asks.any (·.page == v) then
          .next { s with mem := { s.mem with asks := s.mem.asks ++ [⟨v, true, 2, none⟩] } }
        else .next s
      | none => .next s

/-- ACCESS_COUNT_HALVING (R278): due every `hot_window_ticks` ticks. -/
def execAccessCountHalving (s : State) : Host.Outcome State Fault Refusal :=
  if s.obj oHotWindowTicks = 0 ∨ s.tick < s.mem.lastHalving + s.obj oHotWindowTicks then .next s
  else
    let pages := s.mem.pages.map fun q =>
      if entPolicy q.2 = 2 ∧ entState q.2 ≠ 0 then (q.1, setField q.2 58 43 (entCount q.2 / 2)) else q
    .next { s with mem := { s.mem with pages := pages, lastHalving := s.tick } }

/-! ### Page tasks (R284, R285) -/

/-- First page and pages of a page task. -/
def pageRange (r : Nat) : Nat × Nat := (recParam r 1023 976 / pageBytes, recParam r 975 944)

/-- Do the pages lie in one live allocation (R284)? -/
def State.pagesOk (s : State) (first n : Nat) : Bool :=
  let slot := entSlot (s.entry first)
  decide (0 < n) && decide (first + n ≤ 2 ^ 27) && (mapFind s.mem.slots slot).isSome &&
    match mapFind s.mem.slots slot with
    | some a => decide (a.base / pageBytes ≤ first) && decide (first + n ≤ a.base / pageBytes + 2 ^ a.order)
    | none => false

/-- Asks for a migration of a page for a task. -/
def State.askFor (s : State) (page : Nat) (toFar : Bool) (policy r : Nat) : State :=
  { s with mem := { s.mem with asks := s.mem.asks ++ [⟨page, toFar, policy, some r⟩] } }

/-- One page of a promote or demote task: hot pages in the other tier move. -/
def movePage (toFar : Bool) (r page : Nat) : M Unit := do
  let e := (← get).entry page
  if entPolicy e = 2 ∧ entState e = (if toFar then 1 else 2) then mod fun s => s.askFor page toFar 2 r

/-- One page of a populate task. -/
def populatePage (r page : Nat) : M Unit := do
  let s ← get
  let e := s.entry page
  if entState e = 0 then
    match (s.shootdown page).backPage (entSlot e) (entPolicy e) (s.pagePlacement page) (s.pageIndex page) page with
    | some s' => set s'
    | none =>
      set (s.raise 0x0202 0x0B 0 (if entPolicy e = 0 then 2 else 3) 0 0 r)
      throw (.fault 0x0202)

/-- One page of a discard task. -/
def discardPage (page : Nat) : M Unit := do
  let e := (← get).entry page
  if entState e ≠ 0 then
    mod fun s => ((s.shootdown page).freeLocation e).setEntry page
      (mkEntry 0 (entPolicy e) false 0 (entSlot e) (entAllocated e) 0)

/-- One page of a set_policy task: the policy changes, counts start at 0 under the hot policy, and a page in a tier the
policy does not match moves. Absent pages are skipped. -/
def policyPage (policy r page : Nat) : M Unit := do
  let e := (← get).entry page
  if entState e = 0 then return ()
  let e' := mkEntry (entState e) policy false (if policy = 2 then 0 else entCount e) (entSlot e) (entAllocated e)
    (entLocation e)
  mod fun s => s.setEntry page e'
  if entState e = 2 ∧ policy = 0 then mod fun s => s.askFor page false policy r
  else if entState e = 1 ∧ policy = 1 then mod fun s => s.askFor page true policy r

/-- The work of a page task on its pages, first to last; a reserved op or policy, or pages outside one live allocation,
fault it (R284). -/
def pageWork (one : Task → Nat → M Unit) (t : Task) : M Unit := do
  let op := recParam t.image 943 936
  if !(← get).pagesOk (pageRange t.image).1 (pageRange t.image).2 ∨ op = 0 ∨ 5 < op ∨
      (op = 5 ∧ recParam t.image 935 934 = 3) then throw (.fault 0)
  (span (pageRange t.image).1 (pageRange t.image).2).forM (one t)

/-- Runs a page task whose op is the row's (R284): it waits while one of its pages migrates (R282). -/
def State.runPage (s : State) (r : Nat) (form : Nat → Bool) (one : Task → Nat → M Unit) : Host.Outcome State Fault Refusal :=
  match s.working? r with
  | none => .next s
  | some t =>
    let (first, n) := pageRange t.image
    let op := recParam t.image 943 936
    if recKind t.image ≠ 9 ∨ !form op then .next s
    else if s.mem.migrations.any fun m => decide (first ≤ m.page) && decide (m.page < first + n) then .next s
    else runWork s t [] (pageWork one t)

/-- PROMOTE (R284); a task with a reserved op is turned away here. -/
def execPromote (r : Nat) (s : State) : Host.Outcome State Fault Refusal :=
  s.runPage r (fun op => op == 1 || op == 0 || decide (5 < op)) fun t p => movePage false t.record p

/-- DEMOTE (R284). -/
def execDemote (r : Nat) (s : State) : Host.Outcome State Fault Refusal :=
  s.runPage r (· == 2) fun t p => movePage true t.record p

/-- POPULATE (R284). -/
def execPopulate (r : Nat) (s : State) : Host.Outcome State Fault Refusal :=
  s.runPage r (· == 3) fun t p => populatePage t.record p

/-- DISCARD (R284, R285). -/
def execDiscard (r : Nat) (s : State) : Host.Outcome State Fault Refusal :=
  s.runPage r (· == 4) fun _ p => discardPage p

/-- SET_POLICY (R284). -/
def execSetPolicy (r : Nat) (s : State) : Host.Outcome State Fault Refusal :=
  s.runPage r (· == 5) fun t p => policyPage (recParam t.image 935 934) t.record p

/-- Has a page task no migration left (R284)? -/
def State.migrationsDone (s : State) (r : Nat) : Bool :=
  !(s.mem.asks.any (·.asker == some r)) && !(s.mem.migrations.any (·.asker == some r))

/-! ### Far links and resets (R286, R287) -/

/-- Every page located on a far port becomes absent, and migrations to or from it end so (R286). -/
def State.losePort (s : State) (h : Nat) : State :=
  let hits := s.mem.migrations.filter fun m =>
    (if m.toFar then m.taken / 2 ^ 22 else entLocation m.old / 2 ^ 22) == h
  let s := hits.foldl (fun s m => s.endMigration m false) s
  let pages := s.mem.pages.filter fun q => entState q.2 == 2 && entLocation q.2 / 2 ^ 22 == h
  let s := pages.foldl (fun s q =>
    ((s.shootdown q.1).freeFar (entLocation q.2)).setEntry q.1
      (mkEntry 0 (entPolicy q.2) false 0 (entSlot q.2) (entAllocated q.2) 0)) s
  let lo := farPhys (h * 2 ^ 22)
  let hi := farPhys ((h + 1) * 2 ^ 22)
  { s with mem := { s.mem with
      cells := memClear s.mem.cells lo hi
      poison := s.mem.poison.filter fun p => !(decide (lo ≤ p.1 * 64) && decide (p.1 * 64 < hi)) } }.refreshFrames

/-- Migrations return to their old location and state, their access counts as they now are, and what they had taken is
freed (R287). -/
def State.rollbackMigrations (s : State) : State :=
  let s := s.mem.migrations.foldl (fun s m =>
    let e := s.entry m.page
    let s := s.setEntry m.page (mkEntry (entState m.old) (entPolicy e) false (entCount e) (entSlot e) (entAllocated e)
      (entLocation m.old))
    if m.toFar then s.freeFar m.taken else s.freeNear m.taken) s
  { s with mem := { s.mem with migrations := [], asks := [], held := [] } }.refreshMigrating

/-- Every allocation freed and every page absent (R287, R438). Held accesses find their pages absent; the sequences of the
slots go on (R268). -/
def State.freeAllPages (s : State) : State :=
  let held := s.mem.held
  let s := { s with mem := { s.mem with
    pages := [], nearUsed := [], farUsed := [], slots := [], freed := [], asks := [], migrations := [], held := []
    tcaches := [] } }
  ((held.foldl (fun s h => s.releaseHeld h) s).refreshFrames.refreshMigrating).setObj oAllocLive 0

end Sys2Proof.Machine
end

