-- ==== Sys2Proof/Machine/Rng.lean ====
section
/-! DEFINITION. The random block function and draws (R223, R224, R227). -/

namespace Sys2Proof.Machine

/-- Table 9.2, ROTA. -/
def rotA : List Nat := [10, 19, 23, 7, 16, 25, 12, 30, 6, 22]
/-- Table 9.2, ROTB. -/
def rotB : List Nat := [27, 5, 14, 29, 11, 3, 21, 9, 18, 13]

/-- Rotation left within 32 bits (Table 0.8). -/
def rotl32 (x : BitVec 32) (n : Nat) : BitVec 32 := x.rotateLeft n

/-- Word `j` of a 128-bit value. -/
def word32 (v j : Nat) : BitVec 32 := BitVec.ofNat 32 (v >>> (32 * j))

/-- The four words of the state of G. -/
structure Quad where
  x0 : BitVec 32
  x1 : BitVec 32
  x2 : BitVec 32
  x3 : BitVec 32
deriving DecidableEq, Repr

/-- Key word `j` of G, the fifth being the check word (R223). -/
def gKey (key j : Nat) : BitVec 32 :=
  if j = 4 then word32 key 0 ^^^ word32 key 1 ^^^ word32 key 2 ^^^ word32 key 3 ^^^ 0x6A5D39C3#32
  else word32 key j

/-- Round `r` of G. -/
def gRound (key : Nat) (q : Quad) (r : Nat) : Quad :=
  let x0 := q.x0 + q.x1
  let x1 := rotl32 q.x1 (rotA.getD r 0) ^^^ x0
  let x2 := q.x2 + q.x3
  let x3 := rotl32 q.x3 (rotB.getD r 0) ^^^ x2
  let y := x1
  let x1 := x3
  let x3 := y
  if r % 2 = 1 then
    let i := (r + 1) / 2
    ⟨x0 + gKey key (i % 5), x1 + gKey key ((i + 1) % 5), x2 + gKey key ((i + 2) % 5),
      x3 + gKey key ((i + 3) % 5) + BitVec.ofNat 32 i⟩
  else ⟨x0, x1, x2, x3⟩

/-- The block function G of R223 on a 128-bit key and counter. -/
def blockG (key ctr : Nat) : Nat :=
  let q0 : Quad := ⟨word32 ctr 0 + gKey key 0, word32 ctr 1 + gKey key 1, word32 ctr 2 + gKey key 2,
    word32 ctr 3 + gKey key 3⟩
  let q := (List.range 10).foldl (gRound key) q0
  q.x0.toNat + q.x1.toNat <<< 32 + q.x2.toNat <<< 64 + q.x3.toNat <<< 96

/-- The key of stream `s` under a job seed (R224). -/
def streamKey (seed s : Nat) : Nat := blockG seed (0xFFFFFFFF <<< 96 + s % 2 ^ 16)

/-- Draw `n` of purpose `p` for record `rec` from stream `s` at stream step `t` with key `key` (R227). -/
def drawValue (key s t rec p n : Nat) : Nat :=
  let c := (s % 2 ^ 12) <<< 116 + (t % 2 ^ 32) <<< 84 + (rec % 2 ^ 20) <<< 64 + (p % 16) <<< 60 + (n / 8) % 2 ^ 60
  (blockG key c >>> (16 * (n % 8))) % 2 ^ 16

end Sys2Proof.Machine
end

