-- ==== Sys2Proof/Machine/Tensor.lean ====
section
/-! DEFINITION. Tensor descriptors and their creation (R139–R146), coordinates and addresses, reading and writing
elements with their scales (R118, R89, R90, R147–R149), index clamping (R150, R151) and statistics blocks
(R154–R156). -/

namespace Sys2Proof.Machine

/-! ### Descriptors (Table 6.1) -/

/-- A tensor descriptor as read. Extents and strides are those below its rank. -/
structure Desc where
  addr : Nat
  base : Nat
  fmt : Nat
  scaleMode : Nat
  signed : Bool
  shard : Bool
  rank : Nat
  dims : List Nat
  strides : List Int
  planeStride : Nat
  planeMask : Nat
  stats : Nat
  scalePtr : Nat
  shardGen : Nat
  handle : Nat
  spanHigh : Int
  state : Nat
  fallback : Nat
deriving DecidableEq, Repr, Inhabited

/-- The descriptor of 1,024 bits at an address. -/
def parseDesc (addr raw : Nat) : Desc :=
  let rank := field raw 31 29
  let n := min rank 6
  { addr := addr
    base := field raw 383 336
    fmt := field raw 47 40
    scaleMode := field raw 39 36
    signed := flag raw 35
    shard := flag raw 34
    rank := rank
    dims := (List.range n).map fun k => field raw (623 + 32 * k) (592 + 32 * k)
    strides := (List.range n).map fun k => toSigned 40 (field raw (823 + 40 * k) (784 + 40 * k))
    planeStride := field raw 591 552
    planeMask := field raw 71 64
    stats := field raw 543 496
    scalePtr := field raw 495 448
    shardGen := field raw 447 416
    handle := field raw 415 384
    spanHigh := toSigned 48 (field raw 319 272)
    state := field raw 95 88
    fallback := field raw 87 80 }

/-- Extent of dimension `k`; 1 at or above the rank. -/
def Desc.dim (d : Desc) (k : Nat) : Nat := d.dims.getD k 1

/-- Number of elements. -/
def Desc.count (d : Desc) : Nat := d.dims.foldl (· * ·) 1

/-- Number of rows: runs along dimension 0 (R121). -/
def Desc.rows (d : Desc) : Nat := (d.dims.drop 1).foldl (· * ·) 1

/-- Bytes of an element of a byte format. -/
def Desc.bytes (d : Desc) : Nat := fmtBytes d.fmt

/-- Smallest element offset over all coordinates. -/
def Desc.lo (d : Desc) : Int := (d.dims.zip d.strides).foldl (fun a p => a + min 0 (p.2 * ((p.1 : Int) - 1))) 0

/-- Largest element offset over all coordinates. -/
def Desc.hi (d : Desc) : Int := (d.dims.zip d.strides).foldl (fun a p => a + max 0 (p.2 * ((p.1 : Int) - 1))) 0

/-- The coordinate at a position of the element order (R141). -/
def coordOf : List Nat → Nat → List Nat
  | [], _ => []
  | d :: ds, n => (if d = 0 then 0 else n % d) :: coordOf ds (if d = 0 then 0 else n / d)

/-- The position of a coordinate in the element order (R141). -/
def linearOf : List Nat → List Nat → Nat
  | d :: ds, c :: cs => c + d * linearOf ds cs
  | _, _ => 0

/-- The element offset of a coordinate (R141). -/
def Desc.offset (d : Desc) (c : List Nat) : Int := (c.zip d.strides).foldl (fun a p => a + (p.1 : Int) * p.2) 0

/-- The coordinate `(i0, rest)` of row `r`. -/
def Desc.at (d : Desc) (i0 r : Nat) : List Nat := i0 :: coordOf (d.dims.drop 1) r

/-- Is the tensor dense, in a format stored in bytes (R142, R323)? -/
def Desc.dense (d : Desc) : Bool :=
  !isPlanar d.fmt && d.strides == (List.range d.rank).map fun (k : Nat) => (((d.dims.take k).foldl (· * ·) 1 : Nat) : Int)

/-- Address of the scale code of a coordinate's block (R148). -/
def Desc.scaleAddr (d : Desc) (c : List Nat) : Nat :=
  let b := max 1 (blockSize d.scaleMode)
  let nb := ceilDiv (d.dim 0) b
  d.scalePtr + c.headD 0 / b + nb * linearOf (d.dims.drop 1) (c.drop 1)

/-- Length of the scale tensor (R148). -/
def Desc.scaleBytes (d : Desc) : Nat := ceilDiv (d.dim 0) (max 1 (blockSize d.scaleMode)) * d.rows

/-- Every element's offset. -/
def Desc.offsets (d : Desc) : List Int := (List.range d.count).map fun i => d.offset (coordOf d.dims i)

/-- Do two coordinates share an element offset? -/
def dupOffsets : List Int → Bool
  | a :: b :: rest => decide (a = b) || dupOffsets (b :: rest)
  | _ => false

/-- Has the descriptor a zero stride below its rank, or two coordinates at one offset (R143)? -/
def Desc.aliases (d : Desc) : Bool :=
  d.strides.any (· == 0) || dupOffsets (sortBy (fun a b => decide (a ≤ b)) d.offsets)

/-- Planes of the descriptor that an access moves (R92, R149). -/
def Desc.planes (d : Desc) : List Nat := (List.range (fmtBits d.fmt)).filter (flag d.planeMask)

/-- Byte ranges of the elements' storage, for outputs that become free. -/
def Desc.ranges (d : Desc) : List (Nat × Nat) :=
  let elems :=
    if isPlanar d.fmt then
      d.offsets.flatMap fun o => d.planes.map fun (j : Nat) => (((d.base + j * d.planeStride : Nat) + o / 8 : Int).toNat, 1)
    else d.offsets.map fun o => (((d.base : Int) + o * d.bytes).toNat, d.bytes)
  if isE8m0Mode d.scaleMode then elems ++ [(d.scalePtr, d.scaleBytes)] else elems

/-- The intervals of bytes that hold the descriptor's elements and its E8M0 scales. -/
def Desc.intervals (d : Desc) : List (Int × Int) :=
  let b : Int := d.base
  let elems : Int × Int :=
    if isPlanar d.fmt then (b, b + (fmtBits d.fmt - 1 : Nat) * d.planeStride + d.hi / 8)
    else (b + d.lo * d.bytes, b + d.hi * d.bytes + d.bytes - 1)
  if isE8m0Mode d.scaleMode then [elems, (d.scalePtr, (d.scalePtr + d.scaleBytes : Nat) - 1)] else [elems]

/-- Do two descriptors share a byte of elements or scales (R94, R194)? -/
def Desc.overlaps (a b : Desc) : Bool :=
  (a.intervals.any fun x => b.intervals.any fun y => decide (x.1 ≤ y.2) && decide (y.1 ≤ x.2)) &&
    a.ranges.any fun x => b.ranges.any fun y => decide (x.1 < y.1 + y.2) && decide (y.1 < x.1 + x.2)

/-! ### Creation (R144, R145) -/

/-- Do the bytes lie in one live allocation? -/
def State.inOne (s : State) (base n : Nat) : Bool :=
  s.liveRanges.any fun a => decide (a.1 * pageBytes ≤ base) && decide (base + n ≤ (a.1 + a.2) * pageBytes)

/-- Does the byte range `lo` to `hi` lie in the allocation? -/
def inAlloc (a : AllocSlot) (lo hi : Int) : Bool :=
  decide ((a.base : Int) ≤ lo) && decide (hi < (a.base : Int) + 2 ^ a.order * pageBytes)

/-- Does the page policy of every page of the range read pinned near? -/
def State.pinnedNear (s : State) (base n : Nat) : Bool :=
  (pieces base n).all fun p => entPolicy (s.entry (p.1 / pageBytes)) == 0

/-- Does the base lie in the host window (R408)? -/
def Desc.inHost (d : Desc) : Bool := decide (hostWindowBase ≤ d.base)

/-- Does the byte range `lo` to `hi` lie where a descriptor's elements may: in its allocation, or in the valid part of
the host window (Table 6.2, R408)? -/
def State.inReach (s : State) (d : Desc) (lo hi : Int) : Bool :=
  if d.inHost then
    decide ((hostWindowBase : Int) ≤ lo) && decide (hi < (hostWindowBase + s.obj oHostWindowBytes : Nat))
  else match s.handle? d.handle with
    | some (_, a) => inAlloc a lo hi
    | none => false

/-- Checks 0x0004, 0x0008, 0x0009 and 0x000A of Table 6.2 for a format; 0 where none fails. -/
def State.formatChecks (s : State) (d : Desc) (fmt : Nat) : Nat :=
  let w := fmtBits fmt
  let b := fmtBytes fmt
  let last := d.hi / 8
  if !scaleModeAllowed d.scaleMode fmt then 4
  else if !isPlanar fmt ∧ d.base % b ≠ 0 then 8
  else if isPlanar fmt ∧ (d.lo < 0 ∨ (d.planeStride : Int) < last + 1 ∨ d.planeMask ≥ 2 ^ w) then 9
  else
    let (lo, hi) : Int × Int :=
      if isPlanar fmt then (d.base, d.base + (w - 1 : Nat) * d.planeStride + last)
      else (d.base + d.lo * b, d.base + d.hi * b + b - 1)
    if s.inReach d lo hi then 0 else 10

/-- Checks of Table 6.2 from 0x0003 on, in order; 0 where every one passes. A descriptor of the host window names no
allocation, and passes check 0x0007 with handle 0 (R408). -/
def State.descChecks (s : State) (d : Desc) : Nat :=
  if !fmtKnown d.fmt then 3
  else if !scaleModeAllowed d.scaleMode d.fmt then 4
  else if d.rank = 0 ∨ d.rank = 7 then 5
  else if d.dims.any (· == 0) then 6
  else if (s.handle? d.handle).isNone ∧ ¬(d.inHost = true ∧ d.handle = 0) then 7
  else
    let c := s.formatChecks d d.fmt
    if c ≠ 0 then c
    else if d.fallback ≠ 0xFF ∧ (d.fallback > 0x0C ∨ s.formatChecks d d.fallback ≠ 0) then 11
    else if isE8m0Mode d.scaleMode ∧ !s.inOne d.scalePtr d.scaleBytes then 12
    else if d.scaleMode = 3 ∧ (d.scalePtr % 4 ≠ 0 ∨ !s.inOne d.scalePtr 4) then 12
    else if d.stats ≠ 0 ∧ (d.stats % 2048 ≠ 0 ∨ !s.inOne d.stats 2048 ∨ !s.pinnedNear d.stats 2048) then 13
    else 0

/-- Is a byte of the range on an absent page (or past the address space)? -/
def State.anyAbsent (s : State) (va n : Nat) : Bool :=
  decide (va + n > 2 ^ 48) || (pieces va n).any fun p => entState (s.entry (p.1 / pageBytes)) == 0

/-- Creates a descriptor from a draft (R145): the refusal code and the state written (0 for none). -/
def createDesc (ini : Init) (addr : Nat) : M (Nat × Nat) := do
  if (← get).anyAbsent addr 128 then
    mod fun s => s.count oDescriptorsRefused
    return (2, 0)
  else
    let raw ← readNat ini .keep addr 128
    let d := parseDesc addr raw
    let s ← get
    if d.state ≠ 0 then
      set (s.count oDescriptorsRefused)
      return (1, 0)
    else if addr % 128 ≠ 0 ∨ !s.inOne addr 128 then
      set (s.count oDescriptorsRefused)
      return (2, 0)
    else
      let code := s.descChecks d
      let (lo, hi) := if code = 0 then (d.lo, d.hi) else (0, 0)
      let st := if code = 0 then 1 else 2
      let atom := setField (setField (setField (setField (raw % 2 ^ 512) 319 272 (ofSigned 48 hi)) 271 224
        (ofSigned 48 lo)) 111 96 code) 95 88 st
      writeNat ini .keep addr 64 atom
      if code = 0 then mod fun s => { s with mem := { s.mem with created := mapInsert s.mem.created addr 0 } }
      mod fun s => s.count (if code = 0 then oDescriptorsCreated else oDescriptorsRefused)
      return (code, st)

/-- A write to `descriptor_create` (R144): queued, or ignored while another from this path is pending. -/
def State.requestCreate (s : State) (v : Nat) : State :=
  if s.mem.queue.any (fun q => match q with
    | .creation _ => true
    | _ => false) then s.count oDescriptorRequestsIgnored
  else { s.setObj oDescriptorResult 0xFF with mem := { s.mem with queue := s.mem.queue ++ [.creation v] } }

/-- A creation requested through the object, at the head of the queue. A refusal by the access tables writes nothing
and reports as check 0x0002 does (log entry 40). -/
def State.serveCreation (s : State) (draft : Nat) : State :=
  match (createDesc allocInit (draft % 2 ^ 48)).run s.popAlloc with
  | .ok (code, st) s' => s'.setObj oDescriptorResult (code <<< 16 + st)
  | .error _ s' => (s'.count oDescriptorsRefused).setObj oDescriptorResult (2 <<< 16)

/-- The work of a create operation: codes 1 and 2 fault the task where no descriptor was written (R145). -/
def createWork (t : Task) : M Unit := do
  let ini := { allocInit with epoch := some (recEpoch t.image), record := t.record }
  let (code, st) ← createDesc ini (recParam t.image 975 928)
  if st = 0 then
    if code = 1 ∨ code = 2 then throw (.fault 0)

/-- CREATE (R145, R269, R270): the create operation of an allocate task at the head of the queue. -/
def execCreate (r : Nat) (s : State) : Host.Outcome State Fault Refusal :=
  match s.working? r with
  | some t =>
    if recKind t.image = 8 ∧ recParam t.image 855 852 = 3 ∧ s.allocHead r then
      runWork s.popAlloc t [] (createWork t)
    else .next s
  | none => .next s

/-- An allocate task with a reserved op at the head of the queue: code 0x0006 (R270). -/
def State.serveReserved (s : State) (t : Task) : Host.Outcome State Fault Refusal :=
  runWork s.popAlloc t [] (allocWork t)

/-- ALLOCATOR_QUEUE_SERVICE (R269): the request at the head of the queue. -/
def execAllocatorQueueService (s : State) : Host.Outcome State Fault Refusal :=
  match s.mem.queue.head? with
  | none => .next s
  | some (.request v) => .next (s.serveRequest v)
  | some (.creation v) => .next (s.serveCreation v)
  | some (.task r) =>
    match s.working? r with
    | none => .next s
    | some t =>
      match recParam t.image 855 852 with
      | 1 => execAlloc r s
      | 2 => execFree r s
      | 3 => execCreate r s
      | _ => s.serveReserved t

/-! ### The working monad -/

/-- Work of an engine. -/
abbrev W := M

/-- An engine at work on a record: who it is, its stream, and the record's modes. -/
structure Ctx where
  ini : Init
  /-- number of its random stream and flag block (Table 9.1) -/
  stream : Nat
  record : Nat
  flush : Bool
  sr : Bool
  req : Req := .pass
deriving DecidableEq, Repr

/-- The context of an engine for a task. -/
def mkCtx (ini : Init) (stream record image : Nat) : Ctx :=
  { ini := { ini with epoch := some (recEpoch image), record := record }
    stream := stream, record := record, flush := recFlush image, sr := recSr image }

/-- Tile `t` at work on a record. -/
def tileCtx (t record image : Nat) : Ctx := mkCtx (tileInit t) t record image
/-- Engine `e` at work on a record. -/
def gmCtx (e record image : Nat) : Ctx := mkCtx (gmInit e) (2048 + e) record image
/-- Update unit `u` at work on a record. -/
def updCtx (u record image : Nat) : Ctx := mkCtx (updInit u) (2112 + u) record image

/-- Sets sticky flags of a block (R83). Blocks 0 to 2,131 have them: the collective engines and the slices have none. -/
def State.stick (s : State) (stream : Nat) (f : Flags) : State :=
  let b := flagsBits f
  if b = 0 ∨ stream ≥ 2132 then s
  else { s with num := { s.num with sticky := mapPut 0 s.num.sticky stream (mapGet 0 s.num.sticky stream ||| b) } }

/-- Runs arithmetic on an engine: its flags stick, and a flush marks the task (R83, R84). -/
def arith {α : Type} (c : Ctx) (x : F α) : W α := do
  let (v, f) := runF x
  modifyThe State fun s => s.stick c.stream f
  if f.flush then modifyThe State fun s => s.modTask c.record fun t => { t with flushed := true }
  return v

/-- Counts into an object. -/
def tally (key n : Nat) : W Unit := modifyThe State fun s => s.addObj key n

/-- The counts of engines with those of one engine for one block changed. -/
def binsWith (l : List Bins) (stats unit : Nat) (f : Bins → Bins) : List Bins :=
  if l.any fun b => b.stats == stats && b.unit == unit then
    l.map fun b => if b.stats = stats ∧ b.unit = unit then f b else b
  else l ++ [f { stats := stats, unit := unit }]

/-- Changes the counts of this engine for a block. -/
def binWith (c : Ctx) (stats : Nat) (f : Bins → Bins) : W Unit := do
  if stats ≠ 0 then
    modifyThe State fun s => s.modTask c.record fun t => { t with bins := binsWith t.bins stats c.ini.unit f }

/-- A value with the next integer at a key. -/
def bump (m : NatMap) (k : Nat) : NatMap := mapInsert m k (mapGet 0 m k + 1)

/-- The element histogram bin of a stored code (Table 6.5). -/
def binOf (fmt : Nat) (signed : Bool) (code : Nat) : Nat :=
  let cap (lo ef : Nat) : Nat := 1 + min (ef - lo) 61
  match floatFmt? fmt with
  | some f =>
    let v := decodeFloat f code
    let ef := field code (f.ebits + f.mbits - 1) f.mbits
    if isZero v then 0
    else if !isFin v then 63
    else if fmt = 0x01 ∨ fmt = 0x02 then cap 96 ef
    else if fmt = 0x00 ∨ fmt = 0x0D then cap 992 ef
    else if ef = 0 then 1 else 1 + ef
  | none =>
    if fmt = 0x0E then (if code = 0xFF then 63 else cap 96 code)
    else
      let v : Int := if fmt = 0x0C then (if code = 1 then 1 else if code = 3 then -1 else 0)
        else if signed then toSigned (fmtBits fmt) code else code
      if v = 0 then 0 else 1 + bitLength v.natAbs

/-- Bins a stored code (R155). -/
def binElem (c : Ctx) (d : Desc) (code : Nat) : W Unit :=
  binWith c d.stats fun b =>
    { b with fmt := some d.fmt, elements := b.elements + 1, bins := bump b.bins (binOf d.fmt d.signed code) }

/-- Bins a written scale code (R155). -/
def binScale (c : Ctx) (d : Desc) (e : Nat) : W Unit :=
  binWith c d.stats fun b =>
    { b with scaleCodes := b.scaleCodes + 1, scaleBins := bump b.scaleBins (min (e - 96) 63) }

/-- Counts a clamped access (R151). -/
def noteClamp (c : Ctx) (d : Desc) : W Unit := do
  tally oClampCount 1
  modifyThe State fun s => s.modTask c.record fun t => { t with clamps := t.clamps + 1 }
  binWith c d.stats fun b => { b with fmt := some (b.fmt.getD d.fmt), clamps := b.clamps + 1 }

/-- An integer atomic, by an engine, when the amount is not 0. -/
def addAtomic (ini : Init) (va n v : Nat) : M Unit := do
  if v ≠ 0 then
    let _ ← atomic ini .add va n v
    return ()

/-- Adds one engine's counts to its block (R156); `first` counts the task. -/
def addBins (ini : Init) (b : Bins) (first : Bool) : M Unit := do
  let tick := (← get).tick
  b.bins.forM fun p => addAtomic ini (b.stats + 0x40 + 8 * p.1) 8 p.2
  b.scaleBins.forM fun p => addAtomic ini (b.stats + 0x240 + 8 * p.1) 8 p.2
  addAtomic ini (b.stats + 40) 8 b.elements
  addAtomic ini (b.stats + 48) 8 b.scaleCodes
  addAtomic ini (b.stats + 56) 8 b.clamps
  if first then addAtomic ini (b.stats + 28) 4 1
  let _ ← atomic ini .maxU (b.stats + 32) 8 tick
  match b.fmt with
  | some f =>
    let _ ← atomic ini .exchange b.stats 4 f
    return ()
  | none => return ()

/-- Adds every engine's counts, block by block; the first to a block counts the task. -/
def addAllBins (ini : Init) : List Bins → List Nat → M Unit
  | [], _ => return ()
  | b :: rest, seen => do
    addBins { ini with unit := b.unit, tc := ini.tc + b.unit - ini.unit } b (!seen.contains b.stats)
    addAllBins ini rest (b.stats :: seen)

/-- The counts of a record's task are added, and forgotten. -/
def settleBins (ini : Init) : M Unit := do
  let bs := (((← get).task? ini.record).map (·.bins)).getD []
  mod fun s => s.modTask ini.record fun t => { t with bins := [] }
  addAllBins ini bs []

/-- Runs engine work and adds its statistics (R156). A task that faults adds what it has counted so far: the manual says
only 'when the task finishes'. DESIGN CHOICE (log entry 91). -/
def runBins (ini : Init) (w : W Unit) : M Unit :=
  tryCatch (do w; settleBins ini) fun a => do
    tryCatch (settleBins ini) fun _ => pure ()
    throw a

/-- Marks what the completion of a task notes: an event that counts tasks (Table 14.12). -/
def markEnd (r code source w2 w3 w4 : Nat) : W Unit :=
  modifyThe State fun s => s.modTask r fun t => { t with ends := t.ends ++ [mkEvent code source 0 1 t.record w2 w3 w4] }

/-! ### Reading (R118, R142, R147–R149) -/

/-- Is a use of the descriptor undefined with reach the job's windows: it is not created, or written since, or what it
names has been freed (R146), or it breaks the rule for the host window (R408)? -/
def State.descBroken (s : State) (d : Desc) : Bool :=
  d.state != 1 || mapFind s.mem.created d.addr == some 1 ||
    (!(d.inHost && d.handle == 0) && (s.handle? d.handle).isNone) ||
    (d.scaleMode != 0 && (s.freedPage (d.scalePtr / pageBytes) || d.inHost && decide (hostWindowBase ≤ d.scalePtr))) ||
    (d.stats != 0 && (s.freedPage (d.stats / pageBytes) || d.inHost && decide (hostWindowBase ≤ d.stats))) ||
    d.inHost && d.handle != 0

/-- A descriptor's bits from memory. -/
def fetchDesc (c : Ctx) (addr : Nat) : W Nat := do
  let raw ← readNat c.ini .keep addr 128
  if (← get).descBroken (parseDesc addr raw) then undefinedJob
  return raw

/-- What an engine of the task of a record read of an operand as it started. -/
def State.readOf (s : State) (record unit addr : Nat) : Option OperandRead :=
  (s.holder? record).bind fun t => t.reads.find? fun r => r.unit == unit && r.addr == addr

/-- A descriptor, as the engine read it when it started the task; from memory where it did not. -/
def getDesc (c : Ctx) (addr : Nat) : W Desc := do
  match (← get).readOf c.record c.ini.unit addr with
  | some r => return parseDesc addr r.raw
  | none => return parseDesc addr (← fetchDesc c addr)

/-- Reads a descriptor, when one is named. -/
def getDesc? (c : Ctx) (addr : Nat) : W (Option Desc) := do
  if addr = 0 then return none else return some (← getDesc c addr)

/-- The stored code at a coordinate. -/
def readCode (c : Ctx) (d : Desc) (co : List Nat) : W Nat := do
  let o := d.offset co
  if isPlanar d.fmt then
    d.planes.foldlM (fun (a : Nat) (j : Nat) => do
      let bs ← (readBytes c.ini c.req ((d.base + j * d.planeStride : Nat) + o / 8 : Int).toNat 1 : M (List Byte))
      return a + bitOf (flag (ofLe bs) (o % 8).toNat) <<< j) 0
  else
    let v ← (readNat c.ini c.req ((d.base : Int) + o * d.bytes).toNat d.bytes : M Nat)
    return v % 2 ^ fmtBits d.fmt

/-- The FP32 scale of mode 0x3, as the engine read it when it started the task, 1 in any other mode (R147). -/
def tensorScale (c : Ctx) (d : Desc) : W Num := do
  if d.scaleMode = 3 then
    match (← get).readOf c.record c.ini.unit d.addr with
    | some r => return fp32 r.scale
    | none => return fp32 (← readNat c.ini c.req d.scalePtr 4)
  else return nOne

/-- A task with this read in place of the engine's earlier one of the descriptor. -/
def Task.withRead (t : Task) (r : OperandRead) : Task :=
  { t with reads := t.reads.filter (fun q => !(q.unit == r.unit && q.addr == r.addr)) ++ [r] }

/-- An engine reads the operands of a record as it starts it: each descriptor, unless it fetched it ahead, and its FP32 scale
(R136, R147). -/
def readOperands (c : Ctx) (addrs : List Nat) : W Unit :=
  addrs.forM fun addr => do
    let raw ← match (← get).readOf c.record c.ini.unit addr with
      | some r => pure r.raw
      | none => readNat c.ini .keep addr 128
    let d := parseDesc addr raw
    if (← get).descBroken d then undefinedJob
    let scale ← if d.scaleMode = 3 then readNat c.ini c.req d.scalePtr 4 else pure 0
    modifyThe State fun s => s.modTask c.record fun t => t.withRead ⟨c.ini.unit, addr, raw, scale⟩

/-- The block scale code at a coordinate, none outside the E8M0 modes. -/
def readScaleCode (c : Ctx) (d : Desc) (co : List Nat) : W (Option Nat) := do
  if isE8m0Mode d.scaleMode then
    let v ← (readNat c.ini c.req (d.scaleAddr co) 1 : M Nat)
    return some v
  else return none

/-- Is a stored element signed (R64)? -/
def Desc.isSigned (d : Desc) : Bool := isIntFmt d.fmt && d.signed

/-- An element's value with the subnormal flush of inputs (R82), before any scale. -/
def inputValue (flush : Bool) (d : Desc) (code : Nat) : F Num :=
  let v := elemValue d.fmt d.isSigned code
  match floatFmt? d.fmt with
  | some f => flushNum f (flush && flushApplies d.fmt false) v
  | none => pure v

/-- A value times a block's scale and the implicit factor, exact (R74, R75). -/
def blockScaled (d : Desc) (scale : Option Nat) (v : Num) : Num :=
  match scale with
  | none => v
  | some e => if e = 0xFF then .nan else nScale ((e : Int) - 127 + implicitExp d.fmt) v

/-- An element read into FP32 (R118): `ts` is its tensor's scale. -/
def toWorking (flush : Bool) (d : Desc) (ts : Num) (scale : Option Nat) (code : Nat) : F Num := do
  let v ← inputValue flush d code
  let v ← rnTo fmtFp32 flush v
  let v ← if isE8m0Mode d.scaleMode then rnTo fmtFp32 flush (blockScaled d scale v) else pure v
  if d.scaleMode = 3 then mulRn flush v ts else return v

/-- An element read by R118. -/
def readElem (c : Ctx) (d : Desc) (ts : Num) (co : List Nat) : W Num := do
  let code ← readCode c d co
  let sc ← readScaleCode c d co
  arith c (toWorking c.flush d ts sc code)

/-- A row read by R118. -/
def readRow (c : Ctx) (d : Desc) (ts : Num) (r : Nat) : W (List Num) :=
  (List.range (d.dim 0)).mapM fun i => readElem c d ts (d.at i r)

/-- An element as the arrays take it: its value with block scale and implicit factor, exact (R74, R79). -/
def readExact (c : Ctx) (d : Desc) (co : List Nat) : W Num := do
  let code ← readCode c d co
  let sc ← readScaleCode c d co
  let v ← arith c (inputValue c.flush d code)
  return blockScaled d sc v

/-! ### Loads of the arrays (R153) -/

/-- An element of a stream along the reduction: its code and block scale. -/
abbrev Elem := Nat × Option Nat

/-- Does each offset follow the one before it by `step`? -/
def stepsBy (step : Int) : List Int → Bool
  | a :: b :: rest => decide (b = a + step) && stepsBy step (b :: rest)
  | _ => true

/-- The codes at element offsets that lie side by side, read at once. -/
def readSpan (c : Ctx) (d : Desc) (lo hi : Int) (offs : List Int) : W (List Nat) := do
  if isPlanar d.fmt then
    let first := lo / 8
    let planes ← d.planes.mapM fun (j : Nat) => do
      return (j, ofLe (← readBytes c.ini c.req ((d.base + j * d.planeStride : Nat) + first : Int).toNat
        (hi / 8 - first + 1).toNat))
    return offs.map fun o => planes.foldl (fun a p => a + bitOf (flag p.2 (o - 8 * first).toNat) <<< p.1) 0
  else
    let bs ← readBytes c.ini c.req ((d.base : Int) + lo * d.bytes).toNat ((hi - lo + 1).toNat * d.bytes)
    return offs.map fun o => ofLe ((bs.drop ((o - lo).toNat * d.bytes)).take d.bytes) % 2 ^ fmtBits d.fmt

/-- The scale codes of coordinates, a block's once for each run of coordinates in it. -/
def readScales (c : Ctx) (d : Desc) : Option (Nat × Nat) → List (List Nat) → W (List (Option Nat))
  | _, [] => return []
  | last, co :: rest => do
    if !isE8m0Mode d.scaleMode then return none :: (← readScales c d none rest)
    else
      let a := d.scaleAddr co
      let e ← match last with
        | some (b, e) => if a = b then pure e else readNat c.ini c.req a 1
        | none => readNat c.ini c.req a 1
      return some e :: (← readScales c d (some (a, e)) rest)

/-- The elements at coordinates, read at once where they lie side by side, and one by one elsewhere. -/
def loadRun (c : Ctx) (d : Desc) (cos : List (List Nat)) : W (List Elem) := do
  let offs := cos.map d.offset
  let codes ← match offs with
    | [] => pure []
    | a :: _ =>
      if stepsBy 1 offs || stepsBy (-1) offs then
        readSpan c d (offs.foldl min a) (offs.foldl max a) offs
      else cos.mapM (readCode c d)
  return codes.zip (← readScales c d none cos)

/-- The dimension along which the sequencer loads an operand's rows: none for element by element (R153). -/
def Desc.runDim (d : Desc) : Option Nat :=
  if (d.strides.getD 0 0).natAbs = 1 then some 0 else if (d.strides.getD 1 0).natAbs = 1 then some 1 else none

/-- Rows for columns. -/
def turned {β : Type} [Inhabited β] (l : List (List β)) : List (List β) :=
  (List.range ((l.head?.map (·.length)).getD 0)).map fun i => l.map fun r => r.getD i default

/-- Lines of an operand that run along dimension `along`, `kr` positions to a block: by rows along the lines, by rows
across them, or element by element (R153; log entry 114). -/
def loadLines (c : Ctx) (d : Desc) (along kr : Nat) (lines : List (List (List Nat))) : W (List (List Elem)) :=
  if d.runDim = some along then
    lines.mapM fun l => do return (← (chunks kr l).mapM (loadRun c d)).flatten
  else if d.runDim.isSome then do return turned (← (turned lines).mapM (loadRun c d))
  else lines.mapM fun l => do return (← l.mapM fun co => loadRun c d [co]).flatten

/-! ### Writing (R89, R90, R149) -/

/-- The byte at a virtual address as a bit-masked write finds it: the latest write held for it, else memory. -/
def State.byteSeen (s : State) (va : Nat) : Nat :=
  let held := s.mem.held.reverse.find? fun h =>
    h.atomic.isNone && decide (h.va ≤ va) && decide (va < h.va + h.bytes.length)
  match held with
  | some h => (h.bytes.getD (va - h.va) 0).toNat
  | none => (memByte s.mem.cells (entPhys (s.entry (va / pageBytes)) + va % pageBytes)).toNat

/-- A write of some bits of a byte, performed at its target (R149). -/
def writeBits (ini : Init) (req : Req) (va mask v : Nat) : M Unit := do
  let old := (← get).byteSeen va
  writeBytes ini req va [BitVec.ofNat 8 ((old &&& (255 - mask)) ||| (v &&& mask))]

/-- Writes the stored code at a coordinate. -/
def writeCode (c : Ctx) (d : Desc) (co : List Nat) (code : Nat) : W Unit := do
  let o := d.offset co
  if isPlanar d.fmt then
    d.planes.forM fun (j : Nat) =>
      (writeBits c.ini c.req ((d.base + j * d.planeStride : Nat) + o / 8 : Int).toNat (2 ^ (o % 8).toNat)
        (bitOf (flag code j) <<< (o % 8).toNat) : M Unit)
  else (writeNat c.ini c.req ((d.base : Int) + o * d.bytes).toNat d.bytes code : M Unit)

/-- A write through a descriptor with a zero stride, or with two coordinates at one offset, is undefined (R143). -/
def checkOutput (d : Desc) : W Unit := if d.aliases then undefinedJob else pure ()

/-- F of R89 for an output: RNE_FP64(factor ÷ s_o). -/
def outFactor (c : Ctx) (factor scale : Num) : W Num := arith c do return rn64 (← fDiv factor scale)

/-- Does stochastic rounding apply to a write of this format (Table 9.5)? -/
def srWrites (fmt : Nat) : Bool := fmt == 0x02 || fmt == 0x03 || (decide (0x04 ≤ fmt) && decide (fmt ≤ 0x0C))

/-- Draw `n` of purpose `p` of an engine for its record (R227, R228). -/
def draw (c : Ctx) (p n : Nat) : W Nat := do
  let s ← getThe State
  return drawValue (streamKey s.num.seed c.stream) c.stream (s.streamStep c.stream) c.record p n

/-- The draw of a written element, when one is taken: operand `op` of the tensor. -/
def writeDraw (c : Ctx) (d : Desc) (op : Nat) (co : List Nat) : W (Option Nat) := do
  if c.sr && srWrites d.fmt then
    return some (← draw c 1 (4 * linearOf d.dims co + op))
  else return none

/-- Converts values and writes them along dimension 0 from a coordinate (R89, R90): `fac` is F, `op` the operand
number of Table 9.4; `bin` says that they are binned and `mem` that they are written to memory. In an E8M0 mode the
values of each block choose its scale. The codes and scale codes are returned. -/
def writeRun (c : Ctx) (d : Desc) (op : Nat) (fac : Num) (co : List Nat) (vals : List Num) (bin : Bool := true)
    (mem : Bool := true) : W (List (Nat × Option Nat)) := do
  let i0 := co.headD 0
  let rest := co.drop 1
  let xs ← vals.mapM fun v => arith c (fMul v fac)
  let draws ← (List.range vals.length).mapM fun i => writeDraw c d op ((i0 + i) :: rest)
  let headroom := (← getThe State).obj oScaleHeadroom == 1
  let put (i code : Nat) : W Unit := do
    if mem then writeCode c d ((i0 + i) :: rest) code
    if bin then binElem c d code
  if isE8m0Mode d.scaleMode then
    let b := blockSize d.scaleMode
    let blocks := (List.range (ceilDiv (i0 + vals.length) b)).filter fun k => decide (i0 < (k + 1) * b)
    let parts ← blocks.mapM fun k => do
      let lo := max (k * b) i0 - i0
      let hi := min ((k + 1) * b) (i0 + vals.length) - i0
      let (e, codes) ← arith c (quantBlock d.fmt d.isSigned headroom (fun i => (draws.getD (lo + i) none))
        ((xs.drop lo).take (hi - lo)))
      if mem then (writeNat c.ini c.req (d.scaleAddr ((i0 + lo) :: rest)) 1 e : M Unit)
      if bin then binScale c d e
      codes.zipIdx.forM fun (p : Nat × Nat) => put (lo + p.2) p.1
      return codes.map fun (k : Nat) => (k, some e)
    return parts.flatten
  else
    (xs.zip draws).zipIdx.mapM fun (p : (Num × Option Nat) × Nat) => do
      let code ← arith c (convertTo d.fmt d.isSigned false c.flush p.1.2 p.1.1)
      put p.2 code
      return (code, none)

/-- Writes a row of values through a descriptor whose F is `fac`. -/
def writeRow (c : Ctx) (d : Desc) (op : Nat) (fac : Num) (r : Nat) (vals : List Num) : W Unit := do
  let _ ← writeRun c d op fac (d.at 0 r) vals
  return ()

/-- F of an engine other than the arrays: RNE_FP64(1 ÷ s_o) (R89). -/
def ownFactor (c : Ctx) (d : Desc) : W Num := do outFactor c nOne (← tensorScale c d)

/-! ### Indices (R150) -/

/-- The 64-bit signed integer of a value (R88, R150). -/
def toInt64 (x : Num) : F Int := do
  match x with
  | .nan => noteNanLost; return 0
  | .inf s => noteSaturate; return (if s then -2 ^ 63 else 2 ^ 63 - 1)
  | .fin _ _ _ =>
    let i := roundToInt none x
    if i < -2 ^ 63 then noteSaturate; return -2 ^ 63
    else if i > 2 ^ 63 - 1 then noteSaturate; return 2 ^ 63 - 1
    else return i

/-- An element used as an integer (R150): a code value in scale mode 0x0, else by R118 and R88. -/
def readIndex (c : Ctx) (d : Desc) (ts : Num) (co : List Nat) : W Int := do
  if isIntFmt d.fmt ∧ d.scaleMode = 0 then
    let code ← readCode c d co
    return if d.signed then toSigned (fmtBits d.fmt) code else code
  else
    let v ← readElem c d ts co
    arith c (toInt64 v)

/-- A component clamped to `0 … n − 1`, and whether it was clamped (R150). -/
def clampTo (n : Nat) (i : Int) : Nat × Bool :=
  if i < 0 then (0, true) else if i ≥ n then (n - 1, true) else (i.toNat, false)

/-- A component that selects along `dim` of a descriptor, clamped; a clamp counts (R150, R151). -/
def clampDim (c : Ctx) (d : Desc) (n : Nat) (i : Int) : W Nat := do
  let (v, cl) := clampTo n i
  if cl then noteClamp c d
  return v

/-! ### Engines of a set -/

/-- Rows of unit `u` of `units` when `per` rows are named, 0 for an even share (R121). -/
def unitRows (rows units per u : Nat) : List Nat :=
  let n := if per = 0 then ceilDiv rows units else per
  span (min (u * n) rows) (min ((u + 1) * n) rows - min (u * n) rows)

/-- Byte ranges of outputs that class `cls` may write now (R6, R7). -/
def State.outputs (s : State) (cls : Nat) (epoch : Nat) (ds : List Desc) : List (Nat × Nat) :=
  if s.obj oPlacementEpoch ≠ epoch then []
  else (ds.flatMap Desc.ranges).filter fun p => s.memRights cls (p.1 / pageBytes * pageBytes) &&& 2 == 2

/-- A descriptor as memory holds it, without an access: where a task's outputs lie. -/
def State.peekDesc (s : State) (addr : Nat) : Option Desc :=
  if addr = 0 ∨ s.anyAbsent addr 128 then none
  else
    let raw := ofLe ((pieces addr 128).flatMap fun p =>
      memBytes s.mem.cells (entPhys (s.entry (p.1 / pageBytes)) + p.1 % pageBytes) p.2)
    let d := parseDesc addr raw
    if d.state = 1 then some d else none

/-- The outputs of a task that names these descriptors as outputs. -/
def State.outsOf (s : State) (cls image : Nat) (addrs : List Nat) : List (Nat × Nat) :=
  s.outputs cls (recEpoch image) (addrs.filterMap s.peekDesc)

/-- Runs the engine work of a task. -/
def runEngines (s : State) (t : Task) (cls : Nat) (ini : Init) (outs : List Nat) (w : W Unit) :
    Host.Outcome State Fault Refusal :=
  runWork s t (s.outsOf cls t.image outs)
    (runBins { ini with epoch := some (recEpoch t.image), record := t.record } w)

/-- Undefined results with reach the task, when a condition holds. -/
def undefinedIf (b : Bool) : W Unit := if b then throw .undefined else pure ()

end Sys2Proof.Machine
end

