-- ==== Sys2Proof/Machine/Gather.lean ====
section
/-! DEFINITION. Gather tasks (R158–R174, R186–R190): rows by index, combining, routing, packing, the two sparse forms,
neuron packing and the predictor check. -/

namespace Sys2Proof.Machine

/-! ### Parameters (Table 7.2) and rows -/

/-- Units of a task's set as engine numbers. -/
def setUnits (image : Nat) : List Nat := span (recFirst image) (recCount image)

/-- op of a gather or scatter record. -/
def gatherOp (image : Nat) : Nat := recParam image 887 880

/-- Rows of each unit of a gather or scatter task, with the unit's engine. -/
def gatherShares (image rows : Nat) : List (Nat × List Nat) :=
  (setUnits image).zipIdx.map fun (e, u) => (e, unitRows rows (recCount image) (recParam image 1023 992) u)

/-- Rows that some unit takes. -/
def gatherCovered (image rows : Nat) : List Nat := (gatherShares image rows).flatMap (·.2)

/-- Bytes of `n` elements of a format. -/
def bytesOf (fmt n : Nat) : Nat := if isPlanar fmt then ceilDiv (fmtBits fmt * n) 8 else fmtBytes fmt * n

/-- Bytes of the scale codes of `n` elements of a row. -/
def scaleBytesOf (d : Desc) (n : Nat) : Nat := if isE8m0Mode d.scaleMode then ceilDiv n (blockSize d.scaleMode) else 0

/-- The context of an engine whose access may reach the host window (R409). -/
def Ctx.withHost (c : Ctx) : Ctx := { c with ini := c.ini.withHost }

/-- How a row read is requested (R160), counted with its bytes and lines. -/
def rowRead (c : Ctx) (d : Desc) (r : Nat) : W Ctx := do
  let s ← getThe State
  let n := bytesOf d.fmt (d.dim 0)
  tally oGmReadBytes (n + scaleBytesOf d (d.dim 0))
  let addrs := if isPlanar d.fmt then
      (List.range (d.dim 0)).flatMap fun i => d.planes.map fun (j : Nat) =>
        ((d.base + j * d.planeStride : Nat) + d.offset (d.at i r) / 8 : Int).toNat
    else (List.range (d.dim 0)).map fun i => ((d.base : Int) + d.offset (d.at i r) * d.bytes).toNat
  if n < s.obj oGatherDirectBytes ∧ addrs.all fun a => entNear (s.entry (a / pageBytes)) then
    tally oGmSliceReads (addrs.map (· / 256)).eraseDups.length
    return { c with req := .keep }
  else return { c with req := .pass }

/-- The codes of a row with their scale codes. -/
def rowCodes (c : Ctx) (d : Desc) (r : Nat) : W (List Elem) := do
  let c ← rowRead c d r
  loadRun c d ((List.range (d.dim 0)).map fun i => d.at i r)

/-- The codes of a row that a gather task or scatter_rows takes as a source, which may lie in the host window (R409). -/
def readCodes (c : Ctx) (d : Desc) (r : Nat) : W (List Elem) := rowCodes c.withHost d r

/-- A row read into FP32 by R118. -/
def readWorking (c : Ctx) (d : Desc) (ts : Num) (r : Nat) : W (List Num) := do
  let codes ← readCodes c d r
  codes.mapM fun (p : Nat × Option Nat) => arith c (toWorking c.flush d ts p.2 p.1)

/-- Are codes copied bit for bit between these descriptors (R159)? -/
def copies (a o : Desc) : Bool := a.fmt == o.fmt && a.scaleMode == o.scaleMode && a.isSigned == o.isSigned

/-- The code of +0 in an output's format: in E8M0 a NaN is made (R482). -/
def zeroCode (c : Ctx) (d : Desc) : W Nat := arith c (convertTo d.fmt d.isSigned false false none nZero)

/-- Writes codes copied bit for bit into a row, with the scale codes of its blocks; elements past them are +0. `pad`
says that the row is filled to its end. -/
def copyRow (c : Ctx) (o : Desc) (r : Nat) (codes : List (Nat × Option Nat)) (pad mem : Bool) :
    W (List (Nat × Option Nat)) := do
  let n := if pad then o.dim 0 else codes.length
  let b := max 1 (blockSize o.scaleMode)
  (List.range n).mapM fun i => do
    let sc : Option Nat := if isE8m0Mode o.scaleMode then
        some (((codes[i / b * b]?).bind (·.2)).getD 0) else none
    let code ← match codes[i]? with
      | some p => pure p.1
      | none => zeroCode c o
    if mem then
      if i % b = 0 then
        match sc with
        | some e =>
          (writeNat c.ini c.req (o.scaleAddr (o.at i r)) 1 e : M Unit)
          binScale c o e
        | none => pure ()
      writeCode c o (o.at i r) code
      binElem c o code
    return (code, sc)

/-- Counts the bytes of a written or delivered row. -/
def rowWritten (d : Desc) (n : Nat) : W Unit := tally oGmWriteBytes (bytesOf d.fmt n + scaleBytesOf d n)

/-- An index read by an engine, with its bytes counted. -/
def gatherIndex (c : Ctx) (d : Desc) (ts : Num) (i : Nat) : W Int := do
  tally oGmReadBytes (bytesOf d.fmt 1)
  readIndex c d ts (coordOf d.dims i)

/-- Writes an integer-valued FP32 in element order (R165, R186). -/
def writeInt (c : Ctx) (d : Desc) (op : Nat) (fac : Num) (i v : Nat) : W Unit := do
  tally oGmWriteBytes (bytesOf d.fmt 1)
  let _ ← writeRun c d op fac (coordOf d.dims i) [rn32 (nNat v)]
  return ()

/-- The row a context serves: `op` 3 is the operand number of o. -/
structure RowJob where
  a : Desc
  o : Desc
  ats : Num
  fac : Num
deriving DecidableEq, Repr

/-- One output row from a source row, weighted when a weight is named (R159, R162, R163). Elements beyond the input row
are +0 when `pad`. -/
def moveRow (c : Ctx) (j : RowJob) (src dst : Nat) (weight : Option Num) (pad mem : Bool) :
    W (List (Nat × Option Nat)) := do
  let out ← if copies j.a j.o && weight.isNone then do
      let codes ← readCodes c j.a src
      copyRow c j.o dst codes pad mem
    else do
      let xs ← readWorking c j.a j.ats src
      let ys ← match weight with
        | some w => xs.mapM fun x => arith c (mulRn c.flush w x)
        | none => pure xs
      let zs := if pad then ys ++ List.replicate (j.o.dim 0 - ys.length) nZero else ys
      writeRun c j.o 3 j.fac (j.o.at 0 dst) zs mem mem
  rowWritten j.o out.length
  return out

/-- A row of +0. -/
def zeroRow (c : Ctx) (o : Desc) (fac : Num) (r : Nat) (mem : Bool) : W (List (Nat × Option Nat)) := do
  let out ← writeRun c o 3 fac (o.at 0 r) (List.replicate (o.dim 0) nZero) mem mem
  rowWritten o (o.dim 0)
  return out

/-! ### gather_rows, combine and pack -/

/-- Operands of a gather task. -/
structure GatherArgs where
  a : Option Desc
  b : Option Desc
  c : Option Desc
  o : Option Desc
deriving DecidableEq, Repr

/-- Reads the operands of a record. -/
def gatherArgs (c : Ctx) (image : Nat) : W GatherArgs := do
  let a ← getDesc? c (recOperand image 0)
  let b ← getDesc? c (recOperand image 1)
  let cc ← getDesc? c (recOperand image 2)
  let o ← getDesc? c (recOperand image 3)
  return { a := a, b := b, c := cc, o := o }

/-- Forms row `r` of a gather_rows task (R162–R164). -/
def gatherRow (c : Ctx) (j : RowJob) (b : Desc) (bts : Num) (w : Option (Desc × Num)) (r : Nat) (mem : Bool) :
    W (List (Nat × Option Nat)) := do
  let i ← gatherIndex c b bts r
  let v ← clampDim c j.a (j.a.dim 1) i
  let weight ← match w with
    | some (d, ts) => do
      tally oGmReadBytes (bytesOf d.fmt 1)
      pure (some (← readElem c d ts (coordOf d.dims r)))
    | none => pure none
  moveRow c j v r weight true mem

/-- Are the operands of gather_rows as Table 7.3 gives? -/
def gatherRowsOk (a b o : Desc) (w : Option Desc) : Bool :=
  a.rank == 2 && o.rank == 2 && decide (a.dim 0 ≤ o.dim 0) && b.count == o.dim 1 &&
    (match w with
      | some d => d.count == o.dim 1
      | none => true)

/-- The table of a route task: offset and count of each expert (R165, R166). -/
def readTable (c : Ctx) (t : Desc) (ts : Num) : W (List (Int × Int)) :=
  (List.range (t.dim 1 - 1)).mapM fun e => do
    let off ← gatherIndex c t ts (2 * e)
    let n ← gatherIndex c t ts (2 * e + 1)
    return (off, n)

/-- Forms row `p` of a pack task (R166). -/
def packRow (c : Ctx) (j : RowJob) (b : Desc) (bts : Num) (table : List (Int × Int)) (p : Nat) (mem : Bool) :
    W (List (Nat × Option Nat)) := do
  if table.any fun q => decide (q.1 ≤ (p : Int)) && decide ((p : Int) < q.1 + q.2) then
    let i ← gatherIndex c b bts p
    let v ← clampDim c j.a (j.a.dim 1) i
    moveRow c j v p none true mem
  else zeroRow c j.o j.fac p mem

/-- Are the operands of pack as Table 7.3 gives? -/
def packOk (a b t o : Desc) : Bool :=
  a.rank == 2 && o.rank == 2 && t.rank == 2 && t.dim 0 == 2 && decide (a.dim 0 ≤ o.dim 0) &&
    decide (o.dim 1 ≤ b.count)

/-- The row job of a source and an output. -/
def rowJob (c : Ctx) (a o : Desc) : W RowJob := do
  return { a := a, o := o, ats := ← tensorScale c a, fac := ← ownFactor c o }

/-- Is the record delivered into tile SRAM (R167)? -/
def delivers (image : Nat) : Bool :=
  recKind image == 3 && flag image 871 && (gatherOp image == 1 || gatherOp image == 4)

/-- A delivered gather as its matrix task uses it: the row `r` that engine `e` forms (R167). -/
def deliverRow (g e image r : Nat) : W (List (Nat × Option Nat)) := do
  let c := gmCtx e g image
  let args ← gatherArgs c image
  match args.a, args.b, args.o with
  | some a, some b, some o =>
    let j ← rowJob c a o
    let bts ← tensorScale c b
    if gatherOp image = 1 then
      let w ← match args.c with
        | some d => do pure (some (d, ← tensorScale c d))
        | none => pure none
      undefinedIf (!gatherRowsOk a b o args.c)
      gatherRow c j b bts w r false
    else
      match args.c with
      | some t =>
        undefinedIf (!packOk a b t o)
        let table ← readTable c t (← tensorScale c t)
        packRow c j b bts table r false
      | none => throw .undefined
  | _, _, _ => throw .undefined

/-- Do a delivered gather and its matrix record go together (R167)? -/
def deliveryFits (g m : Nat) : Bool :=
  recKind m == 1 && recEpoch g == recEpoch m && recNotBefore g == recNotBefore m && recDeadline g == recDeadline m &&
    (recOperand m 0 == recOperand g 3 || recOperand m 1 == recOperand g 3)

/-- The work of a gather task: its operands, then its body, unless its rows go to a matrix task. -/
def gatherWork (partner : Bool) (body : Task → Ctx → GatherArgs → W Unit) (r : Nat) (t : Task) : W Unit := do
  undefinedIf (delivers t.image && !partner)
  if !delivers t.image then
    let c := gmCtx (recFirst t.image) r t.image
    let args ← gatherArgs c t.image
    body t c args

/-- Runs a gather task: its operands, then its units. A delivered record does nothing of its own: its matrix task forms
the rows. -/
def State.runGather (s : State) (r op : Nat) (outs : Nat → List Nat) (body : Task → Ctx → GatherArgs → W Unit) :
    Host.Outcome State Fault Refusal :=
  match s.working? r with
  | none => .next s
  | some t =>
    if recKind t.image ≠ 3 ∨ gatherOp t.image ≠ op then .next s
    else
      let partner := (s.holder? (r + 1)).any fun m => deliveryFits t.image m.image
      runEngines s t 1 (gmInit (recFirst t.image)) (if delivers t.image ∧ partner then [] else outs t.image)
        (gatherWork partner body r t)

/-- The address of operand 3. -/
def outO (image : Nat) : List Nat := [recOperand image 3]

/-- The body of gather_rows. -/
def gatherRowsBody (t : Task) (c : Ctx) (args : GatherArgs) : W Unit := do
  match args.a, args.b, args.o with
  | some a, some b, some o =>
    undefinedIf (!gatherRowsOk a b o args.c)
    checkOutput o
    let j ← rowJob c a o
    let bts ← tensorScale c b
    let w ← match args.c with
      | some d => do pure (some (d, ← tensorScale c d))
      | none => pure none
    (gatherShares t.image (o.dim 1)).forM fun (p : Nat × List Nat) =>
      p.2.forM fun r => do
        let _ ← gatherRow (gmCtx p.1 t.record t.image) j b bts w r true
        return ()
  | _, _, _ => throw .undefined

/-- GATHER_ROWS (R162–R164, R167). -/
def execGatherRows (r : Nat) (s : State) : Host.Outcome State Fault Refusal := s.runGather r 1 outO gatherRowsBody

/-- One output row of combine (R163). -/
def combineRow (c : Ctx) (a b o : Desc) (ats bts fac : Num) (w : Option (Desc × Num)) (t : Nat) : W Unit := do
  let k := b.dim 0
  let acc ← (List.range k).foldlM (fun (acc : List Num) j => do
    let i ← gatherIndex c b bts (j + k * t)
    let v ← clampDim c a (a.dim 1) i
    let xs ← readWorking c a ats v
    match w with
    | some (d, ts) =>
      tally oGmReadBytes (bytesOf d.fmt 1)
      let g ← readElem c d ts [j, t]
      (acc.zip xs).mapM fun (p : Num × Num) => arith c (fmaFl c.flush g p.2 p.1)
    | none => (acc.zip xs).mapM fun (p : Num × Num) => arith c (addRn c.flush p.1 p.2))
    (List.replicate (a.dim 0) nZero)
  let _ ← writeRun c o 3 fac (o.at 0 t) (acc ++ List.replicate (o.dim 0 - acc.length) nZero)
  rowWritten o (o.dim 0)

/-- The body of combine. -/
def combineBody (t : Task) (c : Ctx) (args : GatherArgs) : W Unit := do
  match args.a, args.b, args.o with
  | some a, some b, some o =>
    undefinedIf (a.rank ≠ 2 ∨ o.rank ≠ 2 ∨ b.rank ≠ 2 ∨ o.dim 0 < a.dim 0 ∨ b.dim 1 ≠ o.dim 1 ∨
      args.c.any fun d => d.dims != b.dims)
    checkOutput o
    let ats ← tensorScale c a
    let bts ← tensorScale c b
    let fac ← ownFactor c o
    let w ← match args.c with
      | some d => do pure (some (d, ← tensorScale c d))
      | none => pure none
    (gatherShares t.image (o.dim 1)).forM fun (p : Nat × List Nat) =>
      p.2.forM fun i => combineRow (gmCtx p.1 t.record t.image) a b o ats bts fac w i
  | _, _, _ => throw .undefined

/-- COMBINE (R163). -/
def execCombine (r : Nat) (s : State) : Host.Outcome State Fault Refusal := s.runGather r 2 outO combineBody

/-- The body of pack (R166). -/
def packBody (t : Task) (c : Ctx) (args : GatherArgs) : W Unit := do
  match args.a, args.b, args.c, args.o with
  | some a, some b, some tb, some o =>
    undefinedIf (!packOk a b tb o)
    checkOutput o
    let j ← rowJob c a o
    let bts ← tensorScale c b
    let tts ← tensorScale c tb
    (gatherShares t.image (o.dim 1)).forM fun (p : Nat × List Nat) => do
      let c := gmCtx p.1 t.record t.image
      let table ← readTable c tb tts
      p.2.forM fun r => do
        let _ ← packRow c j b bts table r true
        return ()
  | _, _, _, _ => throw .undefined

/-- PACK (R166, R167). -/
def execPack (r : Nat) (s : State) : Host.Outcome State Fault Refusal := s.runGather r 4 outO packBody

/-! ### route (R165) -/

/-- Position of each assignment, in order of element index: offset of its expert and the assignments to it before. -/
def routePlaces (offs : List Nat) : List (Nat × Nat) → NatMap → List (Nat × Nat)
  | [], _ => []
  | (i, e) :: rest, seen =>
    let q := mapGet 0 seen e
    (i, offs.getD e 0 + q) :: routePlaces offs rest (mapPut 0 seen e (q + 1))

/-- The body of route. -/
def routeBody (t : Task) (c : Ctx) (args : GatherArgs) : W Unit := do
  match args.a, args.b, args.c, args.o with
  | some a, some b, some pos, some o =>
    let experts := recParam t.image 991 960
    let n := recParam t.image 879 876
    let k := a.dim 0
    let total := a.count
    undefinedIf (experts = 0 ∨ experts > 65536 ∨ n > 8 ∨ a.rank ≠ 2 ∨ pos.dims ≠ a.dims ∨ b.dims ≠ [2, experts + 1])
    checkOutput b
    checkOutput pos
    checkOutput o
    let ats ← tensorScale c a
    let shares := gatherShares t.image total
    undefinedIf ((gatherCovered t.image total).length ≥ 2 ^ 24)
    let ids ← shares.mapM fun (p : Nat × List Nat) => do
      let c := gmCtx p.1 t.record t.image
      p.2.mapM fun i => do
        let v ← gatherIndex c a ats i
        return (i, ← clampDim c a experts v)
    let all := ids.flatten
    let counts := all.foldl (fun (m : NatMap) q => mapPut 0 m q.2 (mapGet 0 m q.2 + 1)) []
    let offs := (List.range experts).foldl (fun (l : List Nat) e =>
      l ++ [l.getLastD 0 + roundUp (mapGet 0 counts e) (2 ^ n)]) [0]
    undefinedIf (o.count < offs.getLastD 0)
    let fb ← ownFactor c b
    let fc ← ownFactor c pos
    let fo ← ownFactor c o
    (List.range (experts + 1)).forM fun e => do
      writeInt c b 1 fb (2 * e) (offs.getD e 0)
      writeInt c b 1 fb (2 * e + 1) (if e = experts then all.length else mapGet 0 counts e)
    let places := routePlaces offs all []
    shares.forM fun (p : Nat × List Nat) => do
      let c := gmCtx p.1 t.record t.image
      p.2.forM fun i => do
        tally oGmReadBytes (bytesOf a.fmt 1)
        match places.find? (·.1 == i) with
        | some (_, x) =>
          writeInt c pos 2 fc i x
          writeInt c o 3 fo x (i / k)
        | none => pure ()
  | _, _, _, _ => throw .undefined

/-- ROUTE (R165). -/
def execRoute (r : Nat) (s : State) : Host.Outcome State Fault Refusal :=
  s.runGather r 3 (fun i => [recOperand i 1, recOperand i 2, recOperand i 3]) routeBody

/-! ### The run-length form (R168–R170) -/

/-- Run bits and value bits of a dense format (Table 7.5); none for a format without the form. -/
def rleBits (fmt : Nat) : Option (Nat × Nat) :=
  if fmt = 0x04 ∨ fmt = 0x05 ∨ fmt = 0x09 then some (4, 8)
  else if fmt = 0x02 ∨ fmt = 0x03 then some (8, 16) else none

/-- Is a code +0, −0 or integer 0 (R168)? -/
def isZeroCode (d : Desc) (code : Nat) : Bool := isZero (elemValue d.fmt d.isSigned code)

/-- Is the descriptor one of a run-length form: UINT8 of rank 2? -/
def isRle (d : Desc) : Bool := d.fmt == 0x09 && !d.signed && d.rank == 2

/-- Decodes the pairs of a slot (R169): the row and the overruns. -/
def rleDecode (rb vb d0 : Nat) : List Nat → Nat → List (Nat × Nat) → Nat → List (Nat × Nat) × Nat
  | [], _, row, overruns => (row, overruns)
  | p :: rest, pos, row, overruns =>
    let run := p % 2 ^ rb
    let v := p / 2 ^ rb % 2 ^ vb
    let x := 2 ^ rb - 1
    if run = 0 ∧ v = 0 then (row, overruns)
    else if run = x then rleDecode rb vb d0 rest (pos + x * (v + 1)) row overruns
    else
      let q := pos + run
      if q < d0 then rleDecode rb vb d0 rest (q + 1) (mapInsert row q v) overruns
      else rleDecode rb vb d0 rest (q + 1) row (overruns + 1)

/-- The body of expand_rle. -/
def expandRleBody (t : Task) (_ : Ctx) (args : GatherArgs) : W Unit := do
  match args.a, args.b, args.c, args.o with
  | some a, none, none, some o =>
    match rleBits o.fmt with
    | none => throw .undefined
    | some (rb, vb) =>
      undefinedIf (!isRle a ∨ o.rank ≠ 2 ∨ a.dim 1 ≠ o.dim 1)
      checkOutput o
      let w := rb + vb
      (gatherShares t.image (o.dim 1)).forM fun (p : Nat × List Nat) => do
        let c := gmCtx p.1 t.record t.image
        p.2.forM fun r => do
          let codes ← readCodes c a r
          let bits := ofLe (codes.map fun (q : Nat × Option Nat) => BitVec.ofNat 8 q.1)
          let pairs := (List.range (8 * a.dim 0 / w)).map fun m => (bits >>> (w * m)) % 2 ^ w
          let (row, overruns) := rleDecode rb vb (o.dim 0) pairs 0 [] 0
          tally oRleOverruns overruns
          (List.range (o.dim 0)).forM fun i => do
            let code := mapGet 0 row i
            writeCode c o (o.at i r) code
            binElem c o code
          rowWritten o (o.dim 0)
  | _, _, _, _ => throw .undefined

/-- EXPAND_RLE (R169). -/
def execExpandRle (r : Nat) (s : State) : Host.Outcome State Fault Refusal := s.runGather r 5 outO expandRleBody

/-- Escapes for a run of `z` zeros (R170): the pairs and the zeros left. Fuel bounds the escapes. -/
def rleEscapes (rb vb : Nat) : Nat → Nat → List Nat × Nat
  | 0, z => ([], z)
  | fuel + 1, z =>
    let x := 2 ^ rb - 1
    if z ≥ x then
      let v := min (z / x) (2 ^ vb) - 1
      let (ps, z') := rleEscapes rb vb fuel (z - x * (v + 1))
      ((x + v <<< rb) :: ps, z')
    else ([], z)

/-- The pairs of a row's codes (R170), each with whether it carries a value. -/
def rleEncode (rb vb : Nat) (zero : Nat → Bool) : List Nat → Nat → List (Nat × Bool)
  | [], _ => []
  | v :: rest, z =>
    if zero v then rleEncode rb vb zero rest (z + 1)
    else
      let (es, z') := rleEscapes rb vb (z + 1) z
      es.map (fun e => (e, false)) ++ (z' + v <<< rb, true) :: rleEncode rb vb zero rest 0

/-- Writes a slot's bits: `n` bits of `v`; a byte covered in part is written in part, and binned as it is then stored. -/
def writeSlot (c : Ctx) (o : Desc) (r n v : Nat) : W Unit :=
  (List.range (ceilDiv n 8)).forM fun i => do
    let code := (v >>> (8 * i)) % 256
    if 8 * (i + 1) ≤ n then
      writeCode c o (o.at i r) code
      binElem c o code
    else
      let va := ((o.base : Int) + o.offset (o.at i r)).toNat
      let mask := 2 ^ (n % 8) - 1
      let old := (← getThe State).byteSeen va
      writeBits c.ini c.req va mask code
      binElem c o ((old &&& (255 - mask)) ||| (code &&& mask))

/-- The body of compress_rle. -/
def compressRleBody (t : Task) (_ : Ctx) (args : GatherArgs) : W Unit := do
  match args.a, args.b, args.c, args.o with
  | some a, none, none, some o =>
    match rleBits a.fmt with
    | none => throw .undefined
    | some (rb, vb) =>
      undefinedIf (!isRle o ∨ a.rank ≠ 2 ∨ a.dim 1 ≠ o.dim 1)
      checkOutput o
      let w := rb + vb
      let fit := 8 * o.dim 0 / w
      let drops ← (gatherShares t.image (a.dim 1)).mapM fun (p : Nat × List Nat) => do
        let c := gmCtx p.1 t.record t.image
        p.2.mapM fun r => do
          let codes ← readCodes c a r
          let pairs := rleEncode rb vb (isZeroCode a) (codes.map (·.1)) 0
          let kept := pairs.take fit
          let dropped := ((pairs.drop fit).filter (·.2)).length
          let all := kept.map (·.1) ++ (if pairs.length < fit then [0] else [])
          let bits := all.zipIdx.foldl (fun (v : Nat) (q : Nat × Nat) => v + q.1 <<< (w * q.2)) 0
          writeSlot c o r (w * all.length) bits
          rowWritten o (ceilDiv (w * all.length) 8)
          if fit < pairs.length then
            tally oRleTruncatedRows 1
            tally oDroppedValues dropped
          return (dropped, bitOf (decide (fit < pairs.length)))
      let dropped := drops.flatten.foldl (fun a q => a + q.1) 0
      if drops.flatten.any fun q => q.2 == 1 then
        markEnd t.record 0x0401 0 (min dropped (2 ^ 32 - 1)) 2 0
  | _, _, _, _ => throw .undefined

/-- COMPRESS_RLE (R170, R174). -/
def execCompressRle (r : Nat) (s : State) : Host.Outcome State Fault Refusal := s.runGather r 6 outO compressRleBody

/-! ### The 2-of-4 form (R171–R173) -/

/-- Address of the index region (R171). -/
def Desc.indexBase (d : Desc) : Nat :=
  if isPlanar d.fmt then d.base + fmtBits d.fmt * d.planeStride
  else roundUp ((d.base : Int) + (d.spanHigh + 1) * d.bytes).toNat 64

/-- Stops where the index region lies outside the values' allocation (R171). -/
def checkIndexRegion (d : Desc) : W Unit := do
  let s ← getThe State
  let n := ceilDiv (2 * d.count) 8
  let ok := match s.handle? d.handle with
    | some (_, a) => inAlloc a d.indexBase (d.indexBase + n - 1)
    | none => false
  if !ok then undefinedJob

/-- The index of stored value `j` of row `r` (R171). -/
def readIndex24 (c : Ctx) (d : Desc) (j r : Nat) : W Nat := do
  let m := j + d.dim 0 * r
  let b ← (readNat c.ini c.req (d.indexBase + m / 4) 1 : M Nat)
  return (b >>> (2 * (m % 4))) % 4

/-- Writes the index of stored value `j` of row `r`. -/
def writeIndex24 (c : Ctx) (d : Desc) (j r v : Nat) : W Unit := do
  let m := j + d.dim 0 * r
  (writeBits c.ini c.req (d.indexBase + m / 4) (3 <<< (2 * (m % 4))) (v <<< (2 * (m % 4))) : M Unit)

/-- Bytes of the indices of a row's stored values. -/
def indexBytes (d : Desc) : Nat := ceilDiv (2 * d.dim 0) 8

/-- Dense positions of the stored values of row `r`. -/
def readPositions (c : Ctx) (d : Desc) (r : Nat) : W (List Nat) :=
  (List.range (d.dim 0)).mapM fun j => do return 4 * (j / 2) + (← readIndex24 c d j r)

/-- One row of expand_2of4 (R159, R173). -/
def expand24Row (c : Ctx) (a o : Desc) (ats fac : Num) (r : Nat) : W Unit := do
  let codes ← readCodes c a r
  let pos ← readPositions c a r
  tally oGmReadBytes (indexBytes a)
  let named (i : Nat) : List (Nat × Option Nat) := (codes.zip pos).filterMap fun q => if q.2 = i then some q.1 else none
  let work (q : Nat × Option Nat) : W Num := arith c (toWorking c.flush a ats q.2 q.1)
  let value (qs : List (Nat × Option Nat)) : W Num := do
    match qs with
    | [] => return nZero
    | [q] => work q
    | q :: p :: _ =>
      let x ← work q
      let y ← work p
      arith c (addRn c.flush x y)
  if copies a o ∧ !isE8m0Mode o.scaleMode then
    (List.range (o.dim 0)).forM fun i => do
      match named i with
      | [q] =>
        writeCode c o (o.at i r) q.1
        binElem c o q.1
      | qs =>
        let _ ← writeRun c o 3 fac (o.at i r) [← value qs]
        return ()
  else
    let vs ← (List.range (o.dim 0)).mapM fun i => value (named i)
    let _ ← writeRun c o 3 fac (o.at 0 r) vs
    return ()
  rowWritten o (o.dim 0)

/-- The body of expand_2of4. -/
def expand24Body (t : Task) (c : Ctx) (args : GatherArgs) : W Unit := do
  match args.a, args.b, args.c, args.o with
  | some a, none, none, some o =>
    undefinedIf (a.rank ≠ 2 ∨ o.rank ≠ 2 ∨ a.dim 1 ≠ o.dim 1 ∨ a.dim 0 ≠ 2 * ceilDiv (o.dim 0) 4)
    checkOutput o
    checkIndexRegion a
    let ats ← tensorScale c a
    let fac ← ownFactor c o
    (gatherShares t.image (o.dim 1)).forM fun (p : Nat × List Nat) =>
      p.2.forM fun r => expand24Row (gmCtx p.1 t.record t.image) a o ats fac r
  | _, _, _, _ => throw .undefined

/-- EXPAND_2OF4 (R173). -/
def execExpand2of4 (r : Nat) (s : State) : Host.Outcome State Fault Refusal := s.runGather r 7 outO expand24Body

/-- Does magnitude `a` rank above `b` (R172)? NaN ranks above +∞. -/
def ranksAbove (a b : Num) : Bool := if isNan a then !isNan b else !isNan b && ltNum (nAbs b) (nAbs a)

/-- Insertion into positions ordered by magnitude, the lower position first among equals. -/
def insertRank (vs : List Num) (i : Nat) : List Nat → List Nat
  | [] => [i]
  | j :: rest => if ranksAbove (vs.getD i nZero) (vs.getD j nZero) then i :: j :: rest else j :: insertRank vs i rest

/-- The two kept positions of a group, ascending, and the values dropped (R172); `vs` are its values within K. -/
def keep24 (vs : List Num) : List (Nat × Bool) × Nat :=
  let nz := (List.range vs.length).filter fun i => !isZero (vs.getD i nZero)
  let ranked := nz.foldl (fun l i => insertRank vs i l) []
  let kept := ranked.take 2
  let fill := ((List.range 4).filter fun i => !kept.contains i).take (2 - kept.length)
  let all := (List.range 4).filterMap fun i =>
    if kept.contains i then some (i, true) else if fill.contains i then some (i, false) else none
  (all, nz.length - 2)

/-- One row of compress_2of4 (R159, R172): the over-full groups and the values dropped. -/
def compress24Row (c : Ctx) (a o : Desc) (ats fac : Num) (r : Nat) : W (Nat × Nat) := do
  let codes ← readCodes c a r
  let copy := copies a o && !isE8m0Mode o.scaleMode
  let vals ← codes.mapM fun (q : Nat × Option Nat) =>
    if copy then pure (elemValue a.fmt a.isSigned q.1) else arith c (toWorking c.flush a ats q.2 q.1)
  let groups := chunks 4 (codes.zip vals)
  let kept := groups.map fun g => keep24 (g.map (·.2))
  let items := (groups.zip kept).zipIdx.flatMap fun q =>
    q.1.2.1.map fun (k : Nat × Bool) => (k.1, if k.2 then (q.1.1)[k.1]? else none)
  if copy then
    items.zipIdx.forM fun q => do
      let code ← match q.1.2 with
        | some v => pure v.1.1
        | none => zeroCode c o
      writeCode c o (o.at q.2 r) code
      binElem c o code
  else
    let _ ← writeRun c o 3 fac (o.at 0 r) (items.map fun q => match q.2 with
      | some v => v.2
      | none => nZero)
    pure ()
  items.zipIdx.forM fun q => writeIndex24 c o q.2 r q.1.1
  tally oGmWriteBytes (indexBytes o)
  rowWritten o (o.dim 0)
  return ((kept.filter fun k => decide (0 < k.2)).length, kept.foldl (fun n k => n + k.2) 0)

/-- The body of compress_2of4. -/
def compress24Body (t : Task) (c : Ctx) (args : GatherArgs) : W Unit := do
  match args.a, args.b, args.c, args.o with
  | some a, none, none, some o =>
    undefinedIf (a.rank ≠ 2 ∨ o.rank ≠ 2 ∨ a.dim 1 ≠ o.dim 1 ∨ o.dim 0 ≠ 2 * ceilDiv (a.dim 0) 4)
    checkOutput o
    checkIndexRegion o
    let ats ← tensorScale c a
    let fac ← ownFactor c o
    let res ← (gatherShares t.image (a.dim 1)).mapM fun (p : Nat × List Nat) =>
      p.2.mapM fun r => compress24Row (gmCtx p.1 t.record t.image) a o ats fac r
    let groups := res.flatten.foldl (fun n q => n + q.1) 0
    let drops := res.flatten.foldl (fun n q => n + q.2) 0
    tally oOverfullGroups groups
    tally oDroppedValues drops
    if groups ≠ 0 then markEnd t.record 0x0401 0 (min drops (2 ^ 32 - 1)) 1 0
  | _, _, _, _ => throw .undefined

/-- COMPRESS_2OF4 (R172, R174). -/
def execCompress2of4 (r : Nat) (s : State) : Host.Outcome State Fault Refusal := s.runGather r 8 outO compress24Body

/-! ### Skipping inactive neurons (R186–R190) -/

/-- Plane 0 of a ternary mask: its bit for a neuron. -/
def readMask (c : Ctx) (d : Desc) (f : Nat) : W Bool := do
  let code ← readCode c { d with planeMask := 1 } (coordOf d.dims f)
  return code == 1

/-- The body of neuron_pack. -/
def neuronPackBody (t : Task) (c : Ctx) (args : GatherArgs) : W Unit := do
  match args.a, args.b, args.c, args.o with
  | some a, some b, some lst, some o =>
    let n := recParam t.image 879 876
    let layer := recParam t.image 899 888
    let rows := a.dim 1
    undefinedIf (a.rank ≠ 2 ∨ o.rank ≠ 2 ∨ o.dim 0 < a.dim 0 ∨ b.fmt ≠ 0x0C ∨ b.count ≠ rows ∨ n > 8)
    checkOutput lst
    checkOutput o
    let exact := flag ((← getThe State).obj oPredictorExactMask) layer
    let shares := gatherShares t.image rows
    let kept ← shares.mapM fun (p : Nat × List Nat) => do
      let c := gmCtx p.1 t.record t.image
      let fs ← p.2.filterM fun f => if exact then pure true else do
        tally oGmReadBytes 1
        readMask c b f
      return (p.1, fs)
    let all := kept.flatMap fun (q : Nat × List Nat) => q.2.map fun f => (q.1, f)
    let padded := roundUp all.length (2 ^ n)
    undefinedIf (lst.count < padded ∨ o.dim 1 < padded)
    let j ← rowJob c a o
    let fl ← ownFactor c lst
    all.zipIdx.forM fun (q : (Nat × Nat) × Nat) => do
      let c := gmCtx q.1.1 t.record t.image
      writeInt c lst 2 fl q.2 q.1.2
      let _ ← moveRow c j q.1.2 q.2 none false true
      return ()
    (span all.length (padded - all.length)).forM fun p => do
      writeInt c lst 2 fl p 0
      let _ ← zeroRow c o j.fac p true
      return ()
    if b.stats ≠ 0 then
      (addAtomic c.ini (b.stats + 0x4D0) 8 all.length : M Unit)
      (addAtomic c.ini (b.stats + 0x4D8) 8 ((gatherCovered t.image rows).length - all.length) : M Unit)
  | _, _, _, _ => throw .undefined

/-- NEURON_PACK (R186). -/
def execNeuronPack (r : Nat) (s : State) : Host.Outcome State Fault Refusal :=
  s.runGather r 9 (fun i => [recOperand i 2, recOperand i 3]) neuronPackBody

/-- The image in force of function slot `t` (R126, R129). -/
def State.slotImage (s : State) (t : Nat) : Nat := if t < 8 then fixedSlot t else s.obj (0x231001 + (t - 8))

/-- The largest |y| of a neuron over the tokens when it is active (R188). -/
def neuronActivity (eps : Num) (ys : List Num) : Option Num :=
  if ys.any fun y => ltNum eps (nAbs y) then
    some (ys.foldl (fun m y => if ltNum m (nAbs y) then nAbs y else m) nZero)
  else none

/-- The body of predictor_check: its own counts wait for the test at its completion (R190). -/
def predictorBody (t : Task) (c : Ctx) (args : GatherArgs) : W Unit := do
  match args.a, args.b, args.c, args.o with
  | some a, some b, some mask, none =>
    let slot := recParam t.image 875 872
    let eps := fp32 (recParam t.image 959 928)
    let layer := recParam t.image 899 888
    let s ← getThe State
    let img := s.slotImage slot
    undefinedIf (a.rank ≠ 2 ∨ b.rank ≠ 2 ∨ a.dim 0 ≠ b.dim 0 ∨ mask.fmt ≠ 0x0C ∨ mask.count ≠ b.dim 1 ∨ slotEmpty img)
    let ats ← tensorScale c a
    let bts ← tensorScale c b
    let skipped ← (List.range (b.dim 1)).filterM fun f => do
      tally oGmReadBytes 1
      return !(← readMask c mask f)
    let k := s.obj oShadowLog2Rate
    let phi := (← draw c 2 0) % 2 ^ k
    let sampled := (skipped.zipIdx.filter fun q => (q.2 + phi) % 2 ^ k == 0).map (·.1)
    let shares := gatherShares t.image sampled.length
    let res ← shares.mapM fun (p : Nat × List Nat) => do
      let c := gmCtx p.1 t.record t.image
      p.2.mapM fun i => do
        let w ← readWorking c b bts (sampled.getD i 0)
        let ys ← (List.range (a.dim 1)).mapM fun tok => do
          let x ← readWorking c a ats tok
          let z ← arith c (dotRow c.flush x w)
          arith c (evalLane img false c.flush z)
        return neuronActivity eps ys
    let hits := res.flatten.filterMap id
    let n := res.flatten.length
    tally oPredictorSampled n
    tally oPredictorMisses hits.length
    if mask.stats ≠ 0 then
      (addAtomic c.ini (mask.stats + 0x4E0) 8 n : M Unit)
      (addAtomic c.ini (mask.stats + 0x4E8) 8 hits.length : M Unit)
      (addAtomic c.ini (mask.stats + 0x4F0) 8 1 : M Unit)
      let mag := hits.foldl (fun m y => rnA40 (exactAdd m y)) nZero
      if !isZero mag then
        let _ ← (atomic c.ini (.fadd 0x0D) (mask.stats + 0x4F8) 8 (a40Code mag) : M Nat)
        pure ()
    modifyThe State fun s => s.modTask t.record fun u =>
      { u with ends := u.ends ++ [mkEvent 0x0404 u.source u.unit layer n hits.length t.record 0] }
  | _, _, _, _ => throw .undefined

/-- PREDICTOR_CHECK (R188–R190). -/
def execPredictorCheck (r : Nat) (s : State) : Host.Outcome State Fault Refusal :=
  s.runGather r 10 (fun _ => []) predictorBody

end Sys2Proof.Machine
end

