-- ==== Sys2Proof/Machine/Matrix.lean ====
section
/-! DEFINITION. Matrix tasks: classes, products, 2-of-4 mode, pairs, both gradients on a pair, tied groups, and the
shadow sampler on their drain (Matrix Arrays; R192–R204; R234–R240). -/

namespace Sys2Proof.Machine

/-! ### Parameters (Table 4.3) and classes (Table 4.1) -/

/-- slice. -/
def matSlice (image : Nat) : Nat := recParam image 895 864
/-- op. -/
def matOp (image : Nat) : Nat := recParam image 847 846
/-- paired. -/
def matPaired (image : Nat) : Bool := flag image 845
/-- sparse. -/
def matSparse (image : Nat) : Bool := flag image 844
/-- split_dim: true for slices along M. -/
def matSplitM (image : Nat) : Bool := flag image 843
/-- out_transpose. -/
def matTranspose (image : Nat) : Bool := flag image 842

/-- Arithmetic of a class. -/
inductive MatKind where
  | narrow | fp32 | fp64
deriving DecidableEq, Repr

/-- A class of Table 4.1: cells' depth p, Kr dense, ACLK per vector, longest chunk, 2-of-4 allowed, and whether it is
the 8-bit, 16-bit or FP32 class that R194 admits. -/
structure MatClass where
  p : Nat
  kr : Nat
  v : Nat
  lmax : Nat
  sparseOk : Bool
  gradOk : Bool
  kind : MatKind
deriving DecidableEq, Repr

/-- Rank of an input format by width: 0 for 2-bit to 5 for FP64; none outside Table 4.1. -/
def widthRank (fmt : Nat) : Option Nat :=
  match fmt with
  | 0x0B | 0x0C => some 0
  | 0x06 | 0x07 | 0x08 | 0x0A => some 1
  | 0x04 | 0x05 | 0x09 => some 2
  | 0x02 | 0x03 => some 3
  | 0x01 => some 4
  | 0x00 => some 5
  | _ => none

/-- The class of two input formats (R96). -/
def matClass (fa fb : Nat) : Option MatClass :=
  match widthRank fa, widthRank fb with
  | some x, some y =>
    if (x ≥ 4 ∨ y ≥ 4) ∧ x ≠ y then none
    else match max x y with
      | 0 => some ⟨4, 256, 1, 512, false, false, .narrow⟩
      | 1 => some ⟨2, 128, 1, 512, true, false, .narrow⟩
      | 2 => some ⟨1, 64, 1, 512, true, true, .narrow⟩
      | 3 => some ⟨1, 64, 2, 512, true, true, .narrow⟩
      | 4 => some ⟨1, 64, 8, 512, false, true, .fp32⟩
      | _ => some ⟨1, 64, 64, 256, false, false, .fp64⟩
  | _, _ => none

/-- The range `[u × slice, (u + 1) × slice)` cut at an extent. -/
def sliceOf (extent slice u : Nat) : List Nat :=
  let lo := min (u * slice) extent
  span lo (min ((u + 1) * slice) extent - lo)

/-- The slice in force: 0 stands for an even share rounded up to a multiple of `m` (Table 4.3, R195). -/
def sliceWidth (extent units slice m : Nat) : Nat :=
  if slice = 0 then roundUp (ceilDiv extent (max units 1)) m else slice

/-- The cycles of R106 without waits: S along the stationary operand's other dimension, L along the streamed one. -/
def passCycles (cls : MatClass) (sparse : Bool) (k s l : Nat) : Nat :=
  let kr := if sparse then 2 * cls.kr else cls.kr
  (chunks cls.lmax (List.range l)).foldl (fun a c =>
    a + ceilDiv s 32 * ceilDiv k kr * (64 + cls.v * c.length)) 0

/-! ### Operands as the arrays take them -/

/-- A line of elements along the reduction: exact values (R79), values read by R118 for the sampler, and their
positions along K. -/
structure Line where
  exact : List Num
  work : List Num
  pos : List Nat
deriving DecidableEq, Repr, Inhabited

/-- An input of a matrix task, with the gather that delivers its rows, if one does (R167). -/
structure Operand where
  d : Desc
  ts : Num
  giver : Option Task := none
deriving DecidableEq, Repr, Inhabited

/-- Lines of an operand as tile `c` loads them. Rows of a delivered one are formed, at each load, by the engine that serves
the tile (R167). -/
def loadOperand (c : Ctx) (x : Operand) (along kr : Nat) (lines : List (List (List Nat))) : W (List (List Elem)) :=
  match x.giver with
  | none => loadLines c x.d along kr lines
  | some g => do
    let e := recFirst g.image + c.stream % recCount g.image
    let rows ← (lines.flatten.map (·.getD 1 0)).eraseDups.mapM fun r => do
      return (r, ← deliverRow g.record e g.image r)
    return lines.map fun l => l.map fun co => ((mapFind rows (co.getD 1 0)).getD []).getD (co.headD 0) (0, none)

/-- A loaded line as an array takes it; `want` says that the sampler needs it. The sampler's reads set no sticky flag
(log entry 96). -/
def toLine (c : Ctx) (x : Operand) (want : Bool) (pos : List Nat) (es : List Elem) : W Line := do
  let exact ← es.mapM fun (e : Elem) => do
    let v ← arith c (inputValue c.flush x.d e.1)
    return blockScaled x.d e.2 v
  let work := if want then es.map fun e => (runF (toWorking c.flush x.d x.ts e.2 e.1)).1 else []
  return ⟨exact, work, pos⟩

/-- The pairs of a stationary line and a streamed line, position by position within K, in blocks of `n` stationary
values (R98, R100, R111). -/
def pairBlocks (n k : Nat) (st x : Line) : List (List (Num × Num)) :=
  (chunks n (st.exact.zip st.pos)).map fun b =>
    b.filterMap fun q => if q.2 < k then some (q.1, x.exact.getD q.2 nZero) else none

/-- The pairs of the whole reduction as the sampler takes them, in ascending position (R236). -/
def samplePairs (k : Nat) (st x : Line) : List (Num × Num) :=
  (sortBy (fun (a b : Num × Nat) => decide (a.2 ≤ b.2)) (st.work.zip st.pos)).filterMap fun q =>
    if q.2 < k then some (q.1, x.work.getD q.2 nZero) else none

/-! ### Accumulation (R80, R98) -/

/-- A rounding to A40, stochastic under a draw (R80, R229). -/
def roundA40 (u : Option Nat) (x : Num) : Num :=
  let y := roundPrec fmtA40 u x
  if overflows fmtA40 y then .inf (isNeg y) else y

/-- One step of the accumulation of R98: the block's products added to the accumulator and rounded once. -/
def blockStep (kind : MatKind) (u : Option Nat) (acc : Num) (ps : List (Num × Num)) : F Num := do
  match kind with
  | .fp64 => ps.foldlM (fun a p => do return rn64 (← fFma p.1 p.2 a)) acc
  | _ =>
    let prods ← ps.mapM fun p => do
      let x ← fMul p.1 p.2
      return if kind = .fp32 then rnA40 x else x
    let s ← made (acc :: prods) (prods.foldl exactAdd acc)
    return roundA40 u s

/-- Which additions round stochastically: the reduction's blocks in all, and the block at which these begin. -/
structure SrAcc where
  on : Bool
  total : Nat
  first : Nat := 0
deriving DecidableEq, Repr

/-- Accumulates blocks into a value; `lin` is the output element's linear index (R98, R228). -/
def accumulate (c : Ctx) (kind : MatKind) (sr : SrAcc) (lin : Nat) (start : Num) (blocks : List (List (Num × Num))) :
    W Num :=
  blocks.zipIdx.foldlM (fun (acc : Num) (p : List (Num × Num) × Nat) => do
    let u ← if sr.on then do pure (some (← draw c 0 (sr.total * lin + sr.first + p.2))) else pure none
    arith c (blockStep kind u acc p.1)) start

/-- Does the accumulation of a task round stochastically (Table 9.5)? -/
def State.srAccum (s : State) (kind : MatKind) (len : Nat) : Bool :=
  let t := s.obj oSrAccumThreshold
  decide (kind ≠ .fp64) && decide (t ≠ 0) && decide (t < len)

/-! ### The shadow sampler (R234–R239) -/

/-- One tile's samples of one output. -/
structure Samples where
  rows : Nat := 0
  err : Num := nZero
  ref : Num := nZero
  compared : Nat := 0
  sampled : Nat := 0
  nonfinite : Nat := 0
deriving DecidableEq, Repr, Inhabited

/-- A reference value: fused multiply-adds in the order of R122 from a start (log entry 42). -/
def reference (flush : Bool) (start : Num) (ps : List (Num × Num)) : Num :=
  (runF do
    let lanes := List.replicate 64 nZero |>.set 0 start
    let lanes ← ps.zipIdx.foldlM (fun (ls : List Num) (p : (Num × Num) × Nat) => do
      let v ← fmaFl flush p.1.1 p.1.2 (ls.getD (p.2 % 64) nZero)
      return ls.set (p.2 % 64) v) lanes
    let out ← [32, 16, 8, 4, 2, 1].foldlM (fun ls w => treeStep (addRn flush) ls w) lanes
    return out.headD nZero).1

/-- Adds one element of a sampled row (R236), in the FP32 of the vector unit, with its flush (R120). -/
def Samples.add (flush : Bool) (q : Samples) (d r : Num) : Samples :=
  if !isFin d && isFin r then { q with nonfinite := q.nonfinite + 1 }
  else
    let add (a b : Num) : Num := (runF (addRn flush a b)).1
    { q with err := add q.err (nAbs (add d (nNeg r))), ref := add q.ref (nAbs r), compared := q.compared + 1 }

/-- An output of a matrix task: its descriptor, operand number, F, its own scale, whether it is written to memory or
passed to a coupled vector record, and whether it is sampled. -/
structure Sink where
  d : Desc
  op : Nat
  fac : Num
  ts : Num
  couple : Option Nat
  sampled : Bool
deriving DecidableEq, Repr, Inhabited

/-- Is an output of a task with these input formats watched (R234)? -/
def State.watches (s : State) (cls : MatClass) (inputs : List Nat) (o : Desc) : Bool :=
  decide (o.stats ≠ 0) && decide (cls.kind ≠ .fp64) && decide (s.obj oShadowLog2Rate ≠ 0) &&
    (o.fmt :: inputs).any fun f => decide (0x04 ≤ f) && decide (f ≤ 0x0C)

/-- One element to drain: its coordinate in the output, its accumulator value, and the sampler's inputs. -/
structure Drain where
  co : List Nat
  value : Num
  start : Num
  pairs : List (Num × Num)
deriving DecidableEq, Repr, Inhabited

/-- Drains a row of `32 × parts` places (R89, R103, R104, R130, R198): `along` says that it runs along the output's
dimension 0. -/
def drainRow (c : Ctx) (k : Sink) (along : Bool) (parts phi : Nat) (row : List Drain) (q : Samples) : W Samples := do
  let mem := k.couple.isNone
  let codes ← if along then
      writeRun c k.d k.op k.fac ((row.head?.map (·.co)).getD []) (row.map (·.value)) true mem
    else do
      let es ← row.mapM fun (x : Drain) => writeRun c k.d k.op k.fac x.co [x.value] true mem
      pure es.flatten
  match k.couple with
  | some v =>
    let lins := (row.zip codes).flatMap fun (p : Drain × Elem) => [linearOf k.d.dims p.1.co, p.2.1]
    modifyThe State fun s => s.modTask v fun t =>
      { t with drained := t.drained ++ (chunks 64 lins).map fun l => c.stream :: l }
    tally oCoupledRows parts
  | none => pure ()
  let rate := 2 ^ (← getThe State).obj oShadowLog2Rate
  let q := { q with rows := q.rows + 1 }
  if k.sampled && (q.rows - 1 + phi) % rate == 0 then
    tally oShadowSamples 1
    let q := { q with sampled := q.sampled + 1 }
    return (row.zip codes).foldl (fun (q : Samples) (p : Drain × Elem) =>
      q.add c.flush (runF (toWorking c.flush k.d k.ts p.2.2 p.2.1)).1 (reference c.flush p.1.start p.1.pairs)) q
  else return q

/-- Sums the tiles' samples of an output in ascending order, adds them to its block, and answers its ratio when it
drifts (R238). -/
def settleSamples (c : Ctx) (k : Sink) (qs : List Samples) : W (Option Num) := do
  if !k.sampled then return none
  else
    let s ← getThe State
    let err := qs.foldl (fun a q => rn32 (exactAdd a q.err)) nZero
    let ref := qs.foldl (fun a q => rn32 (exactAdd a q.ref)) nZero
    let compared := qs.foldl (fun a q => a + q.compared) 0
    let nonfinite := qs.foldl (fun a q => a + q.nonfinite) 0
    let sampled := qs.foldl (fun a q => a + q.sampled) 0
    let bound := rn32 (exactMul (fp32 (s.obj oShadowDriftThreshold)) ref)
    let drifts := decide (nonfinite ≠ 0) || (decide (s.obj oShadowMinElements ≤ compared) && ltNum bound err)
    let b := k.d.stats + 0x440
    if sampled ≠ 0 then
      let _ ← (atomic c.ini (.fadd 0x0D) (b + 120) 8 (a40Code err) : M Nat)
      let _ ← (atomic c.ini (.fadd 0x0D) (b + 112) 8 (a40Code ref) : M Nat)
      (addAtomic c.ini (b + 104) 8 compared : M Unit)
      (addAtomic c.ini (b + 96) 8 sampled : M Unit)
      (addAtomic c.ini (b + 88) 8 nonfinite : M Unit)
    if drifts then
      (addAtomic c.ini (b + 80) 8 1 : M Unit)
      let _ ← (atomic c.ini .maxU (b + 72) 8 s.tick : M Nat)
      return some (rn32 (exactDiv err ref))
    else return none

/-- What completion does for drifting outputs (R238–R240): each is named with its ratio. -/
def noteDrifts (c : Ctx) (ks : List (Sink × List Samples)) : W Unit := do
  let rs ← ks.mapM fun (p : Sink × List Samples) => do return (p.1, ← settleSamples c p.1 p.2)
  rs.forM fun (p : Sink × Option Num) => do
    match p.2 with
    | some r => markEnd c.record 0x0302 0 p.1.d.addr (fp32Code r) p.1.d.fallback
    | none => pure ()

/-! ### Products on arrays (R93–R106) -/

/-- An array at work on a product: its tile and class; the parts of its reduction, by length and streamed operand; the
stationary positions of an accumulation block; where an output element goes by its stationary and streamed index, whether
a drain row runs along dimension 0 of the output and how many stationary indices it takes; its output; φ (R235); how it
loads the stationary lines of some indices, part by part; and the start of an element: its accumulator value and the
sampler's. -/
structure Arm where
  c : Ctx
  cls : MatClass
  ks : List Nat
  streams : List Operand
  block : Nat
  sr : SrAcc
  place : Nat → Nat → List Nat
  along : Bool
  cols : Nat
  sink : Sink
  phi : Nat
  load : List Nat → W (List (List Line))
  prior : List Nat → W (Num × Num)

/-- Counts of the passes of a product of reduction `k` over `s` stationary and `l` streamed indices (R106, R116): `kr`
positions, `cols` indices to a stationary block, `lmax` vectors to a chunk; `held` cell rows hold that many positions. A
cell row only partly beyond K counts as held (log entry 97). -/
def countPasses (cls : MatClass) (k kr s cols l lmax : Nat) (held : Nat → Nat) : W Unit := do
  let kb := ceilDiv k kr
  let sb := (chunks cols (List.range s)).map (·.length)
  tally oArrayReloadCycles (64 * (ceilDiv l lmax * sb.length * kb))
  tally oArrayStreamCycles (sb.length * kb * cls.v * l)
  let last := held (k - (kb - 1) * kr)
  tally oArrayPaddingCells (sb.foldl (fun a b => a + (kb - 1) * (2048 - held kr * b) + (2048 - last * b)) 0 * cls.v * l)

/-- The rows that hold values of `valid` positions along K: `p` elements to a cell, two values to a group of four in
2-of-4 mode (R95, R111). -/
def cellRows (p : Nat) (sparse : Bool) (valid : Nat) : Nat :=
  ceilDiv (if sparse then 2 * ceilDiv valid 4 else valid) p

/-- One output element: the parts of its reduction one after another (R98, R203). -/
def Arm.element (a : Arm) (si xi : Nat) (st x : List Line) : W Drain := do
  let co := a.place si xi
  let parts := (st.zip x).zip a.ks
  let (start, wstart) ← a.prior co
  let acc ← accumulate a.c a.cls.kind a.sr (linearOf a.sink.d.dims co) start
    (parts.flatMap fun p => pairBlocks a.block p.2 p.1.1 p.1.2)
  return ⟨co, acc, wstart, if a.sink.sampled then parts.flatMap fun p => samplePairs p.2 p.1.1 p.1.2 else []⟩

/-- One stationary block under one chunk: every streamed vector drains a row (R103, R106). -/
def Arm.runBlock (a : Arm) (q : Samples) (cb : List Nat) (xs : List (Nat × List (List Elem))) : W Samples := do
  let st ← a.load cb
  let lines ← xs.mapM fun (x : Nat × List (List Elem)) => do
    return (x.1, ← (a.streams.zip x.2).mapM fun (p : Operand × List Elem) => toLine a.c p.1 a.sink.sampled [] p.2)
  lines.foldlM (fun (q : Samples) (x : Nat × List Line) => do
    let row ← (cb.zip st).mapM fun (p : Nat × List Line) => a.element p.1 x.1 p.2 x.2
    drainRow a.c a.sink a.along (a.cols / 32) a.phi row q) q

/-- Arrays that share a stream run their products (R106, R108): chunk by chunk, block by block; `stream` loads the streamed
lines of some indices, part by part. `qs` is how far the sampler of each has numbered its rows. -/
def runArms (arms : List Arm) (cols lmax : Nat) (st x : List Nat) (stream : List Nat → W (List (List (List Elem))))
    (qs : List Samples) : W (List Samples) :=
  (chunks lmax x).foldlM (fun qs ch =>
    (chunks cols st).foldlM (fun qs cb => do
      let xs := ch.zip (← stream ch)
      (arms.zip qs).mapM fun (p : Arm × Samples) => p.1.runBlock p.2 cb xs) qs) qs

/-- The lines of some indices of several operands, part by part: each operand with its lines by index. -/
def loadParts (c : Ctx) (along kr : Nat) (parts : List (Operand × (Nat → List (List Nat)))) (idx : List Nat) :
    W (List (List (List Elem))) := do
  let cols ← parts.mapM fun (p : Operand × (Nat → List (List Nat))) => loadOperand c p.1 along kr (idx.map p.2)
  return turned cols

/-- The stationary lines of some indices of several operands, loaded by tile `cl` and taken by tile `c`. -/
def stationaryParts (cl c : Ctx) (along kr : Nat) (want : Bool) (parts : List (Operand × (Nat → List (List Nat))))
    (idx : List Nat) : W (List (List Line)) := do
  (← loadParts cl along kr parts idx).mapM fun es => (parts.zip es).mapM fun
    (p : (Operand × (Nat → List (List Nat))) × List Elem) => toLine c p.1.1 want (List.range p.2.length) p.2

/-- φ of a tile's sampler (R235). -/
def samplePhase (c : Ctx) : W Nat := do
  let v ← draw c 2 0
  return v % 2 ^ (← getThe State).obj oShadowLog2Rate

/-! ### Forward products (R93, R98, R108) -/

/-- Operands of a forward task as admitted. -/
structure Forward where
  a : Operand
  b : Operand
  o : Desc
  cls : MatClass
  aStat : Bool
  fac : Num
  ots : Num
  couple : Option Nat
  sampled : Bool
deriving DecidableEq, Repr

/-- Do the extents agree with R93 (R94)? `pr` for a paired task, whose stationary input and C have dimension 2 (R108). -/
def forwardFits (image : Nat) (aStat : Bool) (a b o : Desc) : Bool :=
  let sp := matSparse image
  let pr := matPaired image
  let rk (stat : Bool) : Nat := if pr && stat then 3 else 2
  let two (d : Desc) : Bool := !pr || d.dim 2 == 2
  let k (d : Desc) (stat : Bool) (other : Desc) : Bool :=
    if sp && stat then d.dim 0 == 2 * ceilDiv (other.dim 0) 4 else d.dim 0 == other.dim 0
  let (c0, c1) := if matTranspose image then (a.dim 1, b.dim 1) else (b.dim 1, a.dim 1)
  a.rank == rk aStat && b.rank == rk (!aStat) && o.rank == rk true && two o &&
    (if aStat then two a && k a true b else two b && k b true a) &&
    o.dim 0 == c0 && o.dim 1 == c1

/-- Conditions on the task that R97, R104 and R110 make undefined when they fail. -/
def forwardAllowed (image : Nat) (aStat : Bool) (cls : MatClass) (o : Desc) : Bool :=
  let slice := matSlice image
  let dim0M := matTranspose image
  let ext := o.dim 0
  (!matSparse image || cls.sparseOk) && o.fmt != 0x0E && decide (matOp image < 2) &&
  (!isE8m0Mode o.scaleMode ||
    (aStat == dim0M && (matSplitM image != dim0M || decide (slice % 32 = 0) || decide (ext ≤ slice)))) &&
  (!matPaired image || (recFirst image % 2 == 0 && recCount image % 2 == 0))

/-- The coordinates of a line at index `x` of an operand's dimension 1; `h` is its index of dimension 2. -/
def lineCoords (d : Desc) (x h : Nat) : List (List Nat) :=
  (List.range (d.dim 0)).map fun k => if d.rank = 3 then [k, x, h] else [k, x]

/-- The stationary lines of some indices of an operand in 2-of-4 form: their positions come from the index region (R111). -/
def sparseLines (c : Ctx) (x : Operand) (kr h : Nat) (want : Bool) (idx : List Nat) : W (List (List Line)) := do
  let es ← loadOperand c x 0 kr (idx.map fun i => lineCoords x.d i h)
  (idx.zip es).mapM fun (p : Nat × List Elem) => do
    let pos ← readPositions c x.d (p.1 + x.d.dim 1 * (if x.d.rank = 3 then h else 0))
    return [← toLine c x want pos p.2]

/-- What the unit `u` of a forward task takes along M and N (R105). -/
def forwardSlice (image : Nat) (f : Forward) (units u : Nat) : List Nat × List Nat :=
  let (m, n) := (f.a.d.dim 1, f.b.d.dim 1)
  let width := sliceWidth (if matSplitM image then m else n) units (matSlice image) 32
  if matSplitM image then (sliceOf m width u, List.range n) else (List.range m, sliceOf n width u)

/-- The array of tile `c` for index `h` of dimension 2 in a forward task. -/
def forwardArm (c : Ctx) (image : Nat) (f : Forward) (sx xx : Operand) (h : Nat) : W Arm := do
  let sparse := matSparse image
  let k := xx.d.dim 0
  let kr := if sparse then 2 * f.cls.kr else f.cls.kr
  let s ← getThe State
  return {
    c := c, cls := f.cls, ks := [k], streams := [xx], block := f.cls.kr
    sr := ⟨s.srAccum f.cls.kind k, ceilDiv k kr, 0⟩
    place := fun si xi =>
      let (mi, ni) := if f.aStat then (si, xi) else (xi, si)
      let base := if matTranspose image then [mi, ni] else [ni, mi]
      if f.o.rank = 3 then base ++ [h] else base
    along := f.aStat == matTranspose image
    cols := 32
    sink := ⟨f.o, 2, f.fac, f.ots, f.couple, f.sampled⟩
    phi := ← samplePhase c
    load := if sparse then sparseLines c sx f.cls.kr h f.sampled
      else stationaryParts c c 0 f.cls.kr f.sampled [(sx, fun i => lineCoords sx.d i h)]
    prior := fun co => do
      if matOp image = 1 then
        let code ← readCode c f.o co
        let sc ← readScaleCode c f.o co
        let v ← arith c (inputValue c.flush f.o code)
        let q ← arith c (fDiv (blockScaled f.o sc v) f.fac)
        return (if f.cls.kind = .fp64 then rn64 q else rnA40 q, (runF (toWorking c.flush f.o f.ots sc code)).1)
      else return (nZero, nZero) }

/-- One unit of a forward task: a tile, or the two tiles of a pair, the even of which reads each streamed vector for both
(R23, R108). -/
def forwardUnit (tiles : List Ctx) (image : Nat) (f : Forward) (units u : Nat) : W (List Samples) := do
  let (ms, ns) := forwardSlice image f units u
  if ms.isEmpty || ns.isEmpty then return tiles.map fun _ => {}
  else
    let (sx, xx) := if f.aStat then (f.a, f.b) else (f.b, f.a)
    let (ss, xs) := if f.aStat then (ms, ns) else (ns, ms)
    let kr := if matSparse image then 2 * f.cls.kr else f.cls.kr
    match tiles with
    | [] => return []
    | even :: _ =>
      let arms ← tiles.zipIdx.mapM fun (p : Ctx × Nat) => forwardArm p.1 image f sx xx p.2
      tiles.forM fun _ => countPasses f.cls (xx.d.dim 0) kr ss.length 32 xs.length f.cls.lmax
        (cellRows f.cls.p (matSparse image))
      runArms arms 32 f.cls.lmax ss xs (loadParts even 0 kr [(xx, fun i => lineCoords xx.d i 0)]) (tiles.map fun _ => {})

/-- The coupled vector record after a matrix record, when it was admitted with it (R130). -/
def State.coupledOf (s : State) (r : Nat) : Option Nat :=
  match s.task? (r + 1) with
  | some t => if recKind t.image = 2 ∧ flag t.image 854 then some (r + 1) else none
  | none => none

/-- The gather that delivers to a matrix record, when it was admitted with it (R167). -/
def State.delivererOf (s : State) (r : Nat) : Option Task :=
  match r with
  | 0 => none
  | q + 1 =>
    match s.task? q with
    | some t => if recKind t.image = 3 ∧ flag t.image 871 then some t else none
    | none => none

/-- The gather that delivers the rows of an operand at this address. -/
def giverOf (g : Option Task) (addr : Nat) : Option Task :=
  g.filter fun t => delivers t.image && recOperand t.image 3 == addr

/-- What the engines of a delivered gather counted as they formed its rows is added to its blocks (R156). -/
def settleGiver (g : Option Task) : W Unit :=
  match g with
  | some t => settleBins { gmInit (recFirst t.image) with epoch := some (recEpoch t.image), record := t.record }
  | none => pure ()

/-- The factor F of R89 of a matrix task. -/
def matFactor (c : Ctx) (sa sb so : Num) : W Num := do
  let p ← arith c (fMul sa sb)
  outFactor c p so

/-- Is a partner's output one that a coupled task can take (R130)? -/
def coupleFits (d : Desc) : Bool := (d.fmt == 0x01 || d.fmt == 0x02) && d.scaleMode == 0

/-- The tiles of a matrix task with the context of each. -/
def matTile (t : Task) (x : Nat) : Ctx := tileCtx x t.record t.image

/-- The body of a forward product (R93–R112). -/
def forwardBody (t : Task) : W Unit := do
  let img := t.image
  let c := matTile t (recFirst img)
  let a? ← getDesc? c (recOperand img 0)
  let b? ← getDesc? c (recOperand img 1)
  let o? ← getDesc? c (recOperand img 2)
  match a?, b?, o? with
  | some a, some b, some o =>
    let aStat := (if recRole img = 2 then t.role else recRole img) == 0
    match matClass a.fmt b.fmt with
    | none => throw .undefined
    | some cls =>
      undefinedIf (recOperand img 3 ≠ 0 ∨ !forwardFits img aStat a b o ∨ !forwardAllowed img aStat cls o)
      let s ← getThe State
      let couple := s.coupledOf t.record
      if couple.isNone then
        undefinedIf (o.overlaps a || o.overlaps b)
        checkOutput o
      if matSparse img then checkIndexRegion (if aStat then a else b)
      let sa ← tensorScale c a
      let sb ← tensorScale c b
      let so ← tensorScale c o
      let fac ← matFactor c sa sb so
      let sampled := s.watches cls [a.fmt, b.fmt] o
      if s.srAccum cls.kind (if matSparse img ∧ aStat then b.dim 0 else a.dim 0) then tally oSrAccumTasks 1
      let g := s.delivererOf t.record
      let f : Forward := { a := ⟨a, sa, giverOf g a.addr⟩, b := ⟨b, sb, giverOf g b.addr⟩, o := o, cls := cls
                           aStat := aStat, fac := fac, ots := so, couple := couple, sampled := sampled }
      let tiles := (span (recFirst img) (recCount img)).map (matTile t)
      let units := chunks (if matPaired img then 2 else 1) tiles
      let qs ← units.zipIdx.mapM fun (p : List Ctx × Nat) => forwardUnit p.1 img f units.length p.2
      noteDrifts c [(⟨o, 2, fac, so, couple, sampled⟩, qs.flatten)]
      settleGiver g
  | _, _, _ => throw .undefined

/-- Marks the gather that a matrix task drew its rows from as having worked; a mismatched one has undefined results
(R167). -/
def State.deliveryDone (s : State) (r : Nat) : State :=
  match s.delivererOf r, s.holder? r with
  | some g, some m =>
    if delivers g.image && g.work == 0 then
      s.setTask { g with work := 1, undef := g.undef || !deliveryFits g.image m.image }
    else s
  | _, _ => s

/-- Are the partners of a matrix record at work too (R130, R167)? -/
def State.partnersReady (s : State) (r : Nat) : Bool :=
  (match s.coupledOf r with
    | some v => ((s.task? v).map (·.started)).getD true
    | none => true) &&
  (match s.delivererOf r with
    | some g => g.started
    | none => true)

/-- Runs a forward matrix task when it has this form. -/
def State.runForward (s : State) (r : Nat) (form : Nat → Bool) : Host.Outcome State Fault Refusal :=
  match s.working? r with
  | none => .next s
  | some t =>
    if recKind t.image ≠ 1 ∨ !form t.image ∨ !s.partnersReady r then .next s
    else
      let outs := if (s.coupledOf r).isSome then [] else [recOperand t.image 2]
      match runEngines s t 0 (tileInit (recFirst t.image)) outs (forwardBody t) with
      | .next s' => .next (s'.deliveryDone r)
      | x => x

/-- MATRIX_PRODUCT (R93, R98): C := A·B; a reserved op has undefined results (R97). -/
def execMatrixProduct (r : Nat) (s : State) : Host.Outcome State Fault Refusal :=
  s.runForward r fun i => !matPaired i && (matOp i == 0 || matOp i == 3)

/-- MATRIX_ACCUMULATE (R98): C := C + A·B. -/
def execMatrixAccumulate (r : Nat) (s : State) : Host.Outcome State Fault Refusal :=
  s.runForward r fun i => !matPaired i && matOp i == 1

/-- MATRIX_PAIRED (R108): two products on each pair that share a stream. -/
def execMatrixPaired (r : Nat) (s : State) : Host.Outcome State Fault Refusal :=
  s.runForward r fun i => matPaired i && matOp i != 2

/-! ### Both gradients on a pair (R192–R204) -/

/-- A member of an op 0b10 task: its record, image and operands. -/
structure GradMember where
  record : Nat
  image : Nat
  x : Operand
  w : Operand
  dy : Operand
  dx : Option Desc
  dw : Desc
deriving DecidableEq, Repr, Inhabited

/-- Reads the operands of an op 0b10 record (R192); `g` delivers one of them, where it does (R167). -/
def gradMember (c : Ctx) (g : Option Task) (record image : Nat) : W GradMember := do
  let x? ← getDesc? c (recOperand image 0)
  let w? ← getDesc? c (recOperand image 1)
  let y? ← getDesc? c (recOperand image 2)
  let dx ← getDesc? c (recOperand image 3)
  match x?, w?, y? with
  | some x, some w, some y =>
    let dw ← getDesc c (recOperand image 1 + 128)
    return { record := record, image := image
             x := ⟨x, ← tensorScale c x, giverOf g x.addr⟩, w := ⟨w, ← tensorScale c w, giverOf g w.addr⟩
             dy := ⟨y, ← tensorScale c y, none⟩, dx := dx, dw := dw }
  | _, _, _ => throw .undefined

/-- Do a member's operands agree with Table 8.1 and R194? -/
def gradFits (g : GradMember) : Bool :=
  let k := g.w.d.dim 0
  let n := g.w.d.dim 1
  let m := g.dy.d.dim 1
  let mode (d : Desc) : Bool := (d.scaleMode == 0 || d.scaleMode == 3) && d.fmt != 0x0E
  let ok (a b : Desc) : Bool := ((matClass a.fmt b.fmt).map (·.gradOk)).getD false
  g.x.d.dims == [k, m] && g.w.d.dims == [k, n] && g.dy.d.dims == [n, m] && g.dw.dims == [k, n] && mode g.dw &&
    (match g.dx with
      | some d => d.dims == [k, m] && mode d
      | none => true) &&
    !matSparse g.image && ok g.w.d g.dy.d && ok g.x.d g.dy.d

/-- Does an output of a member overlap an input of it (R194)? A dX that a vector task takes is not written. -/
def GradMember.overlaps (g : GradMember) (coupled : Bool) : Bool :=
  ((if coupled then [] else g.dx.toList) ++ [g.dw]).any fun o => [g.x.d, g.w.d, g.dy.d].any o.overlaps

/-- The path of array pair `p` (R197): true for the gradient path. -/
def State.gradientPath (s : State) (p : Nat) : Bool := flag (s.obj oPairGradientPath) p

/-- dX of one member on the even array of a pair over the K range `ks` (R193, R198, R199). `q` is how far the array has
numbered its drain rows (R235). -/
def gradX (c : Ctx) (g : GradMember) (path : Bool) (ks : List Nat) (k : Sink) (q : Samples) : W Samples := do
  let (n, m) := (g.w.d.dim 1, g.dy.d.dim 1)
  match matClass g.w.d.fmt g.dy.d.fmt with
  | none => throw .undefined
  | some cls =>
    let (cols, lmax, kr) := if path then (64, 256, 32) else (32, 512, 64)
    let s ← getThe State
    let arm : Arm :=
      { c := c, cls := cls, ks := [n], streams := [g.dy], block := 32
        sr := ⟨s.srAccum cls.kind n, ceilDiv n 32, 0⟩
        place := fun si xi => [si, xi]
        along := true, cols := cols, sink := k, phi := ← samplePhase c
        load := stationaryParts c c 1 kr k.sampled [(g.w, fun i => (List.range n).map fun j => [i, j])]
        prior := fun _ => return (nZero, nZero) }
    countPasses cls n kr ks.length cols m lmax id
    let qs ← runArms [arm] cols lmax ks (List.range m)
      (loadParts c 0 kr [(g.dy, fun i => (List.range n).map fun j => [j, i])]) [q]
    return qs.headD q

/-- dW of a group on the odd array `c` of a pair over the K range `ks` (R193, R200, R203). The even tile `even` reads the
dY that the odd array holds (R196). -/
def gradW (even c : Ctx) (gs : List GradMember) (ks : List Nat) (k : Sink) : W Samples := do
  match gs with
  | [] => return {}
  | g :: _ =>
    let n := g.w.d.dim 1
    let ms := gs.map fun g => g.dy.d.dim 1
    match matClass g.x.d.fmt g.dy.d.fmt with
    | none => throw .undefined
    | some cls =>
      let s ← getThe State
      let arm : Arm :=
        { c := c, cls := cls, ks := ms, streams := gs.map (·.x), block := 64
          sr := ⟨s.srAccum cls.kind (ms.foldl (· + ·) 0), ms.foldl (fun a m => a + ceilDiv m 64) 0, 0⟩
          place := fun si xi => [xi, si]
          along := false, cols := 32, sink := k, phi := ← samplePhase c
          load := stationaryParts even c 1 64 k.sampled (gs.map fun g =>
            (g.dy, fun j => (List.range (g.dy.d.dim 1)).map fun i => [j, i]))
          prior := fun _ => return (nZero, nZero) }
      ms.forM fun m => countPasses cls m 64 n 32 ks.length 512 id
      let qs ← runArms [arm] 32 512 (List.range n) ks (loadParts c 1 64 (gs.map fun g =>
        (g.x, fun i => (List.range (g.dy.d.dim 1)).map fun m => [i, m]))) [{}]
      return qs.headD {}

/-- Are the members of a tied group alike as R202 and R204 ask? -/
def tiedFits (gs : List GradMember) : Bool :=
  match gs with
  | [] => false
  | g :: rest =>
    decide (gs.length ≤ 16) && rest.all fun h =>
      recFirst h.image == recFirst g.image && recCount h.image == recCount g.image &&
      recEpoch h.image == recEpoch g.image && recNotBefore h.image == recNotBefore g.image &&
      recDeadline h.image == recDeadline g.image && recPredicted h.image == recPredicted g.image &&
      recOperand h.image 1 == recOperand g.image 1 && h.w.d.dims == g.w.d.dims &&
      h.x.ts == g.x.ts && h.dy.ts == g.dy.ts

/-- The body of an op 0b10 task: one member, or the members of a tied group in index order (R193, R203). -/
def gradBody (t : Task) (members : List (Nat × Nat)) : W Unit := do
  let img := t.image
  let first := recFirst img
  let c := matTile t first
  let s ← getThe State
  let dlv := s.delivererOf t.record
  let gs ← members.mapM fun (p : Nat × Nat) => gradMember c (if p.1 = t.record then dlv else none) p.1 p.2
  let last := (gs.getLast?.map (·.record)).getD t.record
  let coupled := s.coupledOf last
  let couples (h : GradMember) : Option Nat := if h.record = last then coupled else none
  undefinedIf (!gs.all gradFits ∨ !tiedFits gs ∨ gs.any fun h => h.overlaps (couples h).isSome)
  match gs with
  | [] => throw .undefined
  | g :: _ =>
    let pairs := recCount img / 2
    let width := sliceWidth (g.w.d.dim 0) pairs (matSlice img) 64
    let inputs := gs.flatMap fun h => [h.x.d.fmt, h.w.d.fmt, h.dy.d.fmt]
    checkOutput g.dw
    let wTs ← tensorScale c g.dw
    let wFac ← matFactor c g.x.ts g.dy.ts wTs
    let clsW := (matClass g.x.d.fmt g.dy.d.fmt).getD ⟨1, 64, 1, 512, true, true, .narrow⟩
    let clsX (h : GradMember) : MatClass := (matClass h.w.d.fmt h.dy.d.fmt).getD clsW
    let kW : Sink := ⟨g.dw, 1, wFac, wTs, none, s.watches clsW inputs g.dw⟩
    if s.srAccum clsW.kind (gs.foldl (fun a g => a + g.dy.d.dim 1) 0) ||
        (gs.any fun h => h.dx.isSome && s.srAccum (clsX h).kind (h.w.d.dim 1)) then tally oSrAccumTasks 1
    let xs ← gs.mapM fun (h : GradMember) => do
      match h.dx with
      | none => return none
      | some d =>
        if (couples h).isNone then checkOutput d
        let ts ← tensorScale c d
        let fac ← matFactor c h.w.ts h.dy.ts ts
        return some (h, (⟨d, 3, fac, ts, couples h, s.watches (clsX h) inputs d⟩ : Sink))
    let parts ← (List.range pairs).mapM fun u => do
      let ks := sliceOf (g.w.d.dim 0) width u
      let even := first + 2 * u
      let ce := matTile t even
      -- the even array numbers its drain rows on through the members
      let (_, sx) ← xs.foldlM (fun (p : Nat × List Samples) (h? : Option (GradMember × Sink)) => do
        match h? with
        | none => return (p.1, p.2 ++ [({} : Samples)])
        | some (h, sink) =>
          let cm := { ce with flush := recFlush h.image, sr := recSr h.image }
          let q ← gradX cm h (s.gradientPath (even / 2)) ks sink { rows := p.1 }
          return (q.rows, p.2 ++ [q])) (0, [])
      let sw ← gradW ce (matTile t (even + 1)) gs ks kW
      return (sx, sw)
    let sinks := xs.zipIdx.filterMap fun (q : Option (GradMember × Sink) × Nat) =>
      q.1.map fun h => (h.2, parts.map fun (p : List Samples × Samples) => p.1.getD q.2 {})
    noteDrifts c (sinks ++ [(kW, parts.map (·.2))])
    settleGiver dlv

/-- Runs an op 0b10 task, tied or not. -/
def State.runGrad (s : State) (r : Nat) (tied : Bool) : Host.Outcome State Fault Refusal :=
  match s.working? r with
  | none => .next s
  | some t =>
    if recKind t.image ≠ 1 ∨ matOp t.image ≠ 2 ∨ t.members.isEmpty = tied ∨
        !((r :: t.members.map (·.1)).all s.partnersReady) then .next s
    else
      let all := (t.record, t.image) :: t.members
      let dx := all.filterMap fun p => if (s.coupledOf p.1).isSome then none else some (recOperand p.2 3)
      let outs := dx ++ all.map fun p => recOperand p.2 1 + 128
      match runEngines s t 0 (tileInit (recFirst t.image)) outs (gradBody t all) with
      | .next s' => .next (s'.deliveryDone r)
      | x => x

/-- GRADIENT_PAIR (R193). -/
def execGradientPair (r : Nat) (s : State) : Host.Outcome State Fault Refusal := s.runGrad r false

/-- TIED_GROUP (R203). -/
def execTiedGroup (r : Nat) (s : State) : Host.Outcome State Fault Refusal := s.runGrad r true

end Sys2Proof.Machine
end

