-- ==== Sys2Proof/Machine/Vector.lean ====
section
/-! DEFINITION. Vector tasks: lanes and working formats, the operations of Table 5.3, and the coupled operations
(R117–R135, R232). -/

namespace Sys2Proof.Machine

/-! ### Parameters (Table 5.2) -/

/-- alpha. -/
def vecAlpha (image : Nat) : Num := fp32 (recParam image 1023 992)
/-- beta. -/
def vecBeta (image : Nat) : Num := fp32 (recParam image 991 960)
/-- epsilon. -/
def vecEpsilon (image : Nat) : Num := fp32 (recParam image 959 928)
/-- rows_per_unit. -/
def vecRowsPer (image : Nat) : Nat := recParam image 927 896
/-- op. -/
def vecOp (image : Nat) : Nat := recParam image 871 864
/-- slot. -/
def vecSlot (image : Nat) : Nat := recParam image 863 860
/-- k. -/
def vecK (image : Nat) : Nat := recParam image 859 855
/-- coupled. -/
def vecCoupled (image : Nat) : Bool := flag image 854
/-- granule. -/
def vecGranule (image : Nat) : Nat := recParam image 853 852
/-- mean_centre. -/
def vecCentre (image : Nat) : Bool := flag image 851

/-! ### Lanes (R118–R120) -/

/-- The working format of a task's lanes (R119). -/
inductive Working where
  | fp32 | bf16 | fp64
deriving DecidableEq, Repr

/-- The layout of a working format. -/
def Working.fmt : Working → FloatFmt
  | .fp32 => fmtFp32
  | .bf16 => fmtBf16
  | .fp64 => fmtFp64

/-- One rounding to the working format; the flush of intermediates is FP32's (R120). -/
def laneRound (w : Working) (flush : Bool) (x : Num) : F Num := rnTo w.fmt (flush && decide (w = .fp32)) x

/-- A lane product. -/
def laneMul (w : Working) (flush : Bool) (a b : Num) : F Num := do laneRound w flush (← fMul a b)
/-- A lane fused multiply-add. -/
def laneFma (w : Working) (flush : Bool) (a b c : Num) : F Num := do laneRound w flush (← fFma a b c)
/-- A lane sum. -/
def laneAdd (w : Working) (flush : Bool) (a b : Num) : F Num := do laneRound w flush (← fAdd a b)
/-- A lane difference. -/
def laneSub (w : Working) (flush : Bool) (a b : Num) : F Num := laneAdd w flush a (nNeg b)

/-- An element read into the working format (R118, R119). -/
def toLane (w : Working) (flush : Bool) (d : Desc) (ts : Num) (scale : Option Nat) (code : Nat) : F Num := do
  let v ← inputValue flush d code
  let v ← laneRound w flush v
  let v ← if isE8m0Mode d.scaleMode then laneRound w flush (blockScaled d scale v) else pure v
  if d.scaleMode = 3 then laneMul w flush v ts else return v

/-- An input of a vector task with its scale. -/
structure VecIn where
  d : Desc
  ts : Num
deriving DecidableEq, Repr, Inhabited

/-- Reads one element in the working format. -/
def VecIn.elem (x : VecIn) (c : Ctx) (w : Working) (co : List Nat) : W Num := do
  let code ← readCode c x.d co
  let sc ← readScaleCode c x.d co
  arith c (toLane w c.flush x.d x.ts sc code)

/-- Reads a row in the working format. -/
def VecIn.row (x : VecIn) (c : Ctx) (w : Working) (r : Nat) : W (List Num) :=
  (List.range (x.d.dim 0)).mapM fun i => x.elem c w (x.d.at i r)

/-- Operands of a vector task. -/
structure VecArgs where
  a : Option VecIn
  b : Option VecIn
  c : Option VecIn
  o : Option VecIn
deriving DecidableEq, Repr

/-- Reads the operands; the scale of an output that a task writes before use is not needed. -/
def vecArgs (c : Ctx) (image : Nat) : W VecArgs := do
  let get (k : Nat) : W (Option VecIn) := do
    match ← getDesc? c (recOperand image k) with
    | some d => return some ⟨d, ← tensorScale c d⟩
    | none => return none
  return { a := ← get 0, b := ← get 1, c := ← get 2, o := ← get 3 }

/-- The working format of codes 0x00–0x04 over these operands (R119); none where an FP64 operand is undefined. -/
def workingOf (image : Nat) (ds : List Desc) : Option Working :=
  let op := vecOp image
  if ds.any (·.fmt == 0x00) then (if op ≤ 3 then some .fp64 else none)
  else
    let exact (x : Num) : Bool := rnTo fmtBf16 false x |>.run {} |>.1 |> fun y => y == x || eqNum y x
    if op ≤ 4 ∧ ds.all (fun d => d.fmt == 0x02 && d.scaleMode == 0) ∧ exact (vecAlpha image) ∧ exact (vecBeta image) then
      some .bf16
    else some .fp32

/-- Counts table evaluations. -/
def evaluated (n : Nat) : W Unit := tally oSfEvaluations n

/-- A table evaluation on a lane (R128). -/
def laneTable (c : Ctx) (img : Nat) (deriv : Bool) (x : Num) : W Num := do
  evaluated 1
  arith c (evalLane img deriv c.flush x)

/-! ### Division into units -/

/-- The tiles of a vector task with their rows (R121). -/
def vecShares (image rows : Nat) : List (Nat × List Nat) :=
  (setUnits image).zipIdx.map fun p => (p.1, unitRows rows (recCount image) (vecRowsPer image) p.2)

/-- A tile at work on a vector task. -/
def vecTile (t : Task) (tile : Nat) : Ctx := tileCtx tile t.record t.image

/-- Does every named operand have these extents? -/
def sameDims (a : VecIn) (xs : List (Option VecIn)) : Bool :=
  xs.all fun x => match x with
    | some y => y.d.dims == a.d.dims
    | none => false

/-- Writes values at consecutive positions of the element order from `lin` on, run by run along dimension 0. Where several
units share an output block of an E8M0 mode, each chooses the scale from its own part, and the last write stands: the manual
gives no rule. DESIGN CHOICE (log entry 111). -/
def writeLinear (c : Ctx) (d : Desc) (op : Nat) (fac : Num) : Nat → Nat → List Num → W Unit
  | 0, _, _ => return ()
  | fuel + 1, lin, vals => do
    if vals.isEmpty then return ()
    else
      let co := coordOf d.dims lin
      let n := max 1 (min vals.length (d.dim 0 - co.headD 0))
      let _ ← writeRun c d op fac co (vals.take n)
      writeLinear c d op fac fuel (lin + n) (vals.drop n)

/-- The work of a vector task: its operands, then its body. -/
def vectorWork (body : Task → VecArgs → W Unit) (t : Task) : W Unit := do
  undefinedIf (vecGranule t.image == 3)
  let args ← vecArgs (vecTile t (recFirst t.image)) t.image
  body t args

/-- Runs a vector task that is not coupled, when it has this op. -/
def State.runVector (s : State) (r op : Nat) (outs : List Nat) (body : Task → VecArgs → W Unit) :
    Host.Outcome State Fault Refusal :=
  match s.working? r with
  | none => .next s
  | some t =>
    if recKind t.image ≠ 2 ∨ vecOp t.image ≠ op ∨ vecCoupled t.image then .next s
    else
      runEngines s t 0 (tileInit (recFirst t.image)) (outs.map (recOperand t.image)) (vectorWork body t)

/-! ### Element by element (codes 0x00–0x06) -/

/-- Runs an operation on each element: `need` of b and c, and the lane function of a, b and c. -/
def elementBody (needB needC : Bool) (f : Ctx → Working → Num → Num → Num → W Num) (t : Task) (args : VecArgs) :
    W Unit := do
  match args.a, args.o with
  | some a, some o =>
    undefinedIf (args.b.isSome != needB ∨ args.c.isSome != needC ∨ !sameDims a [some o] ∨
      (needB ∧ !sameDims a [args.b]) ∨ (needC ∧ !sameDims a [args.c]))
    let ins := [some a, args.b, args.c].filterMap id
    match workingOf t.image ((ins ++ [o]).map (·.d)) with
    | none => throw .undefined
    | some w =>
      checkOutput o.d
      (vecShares t.image a.d.rows).forM fun (p : Nat × List Nat) => do
        let c := vecTile t p.1
        let fac ← outFactor c nOne o.ts
        p.2.forM fun r => do
          let xs ← a.row c w r
          let ys ← match args.b with
            | some b => b.row c w r
            | none => pure []
          let zs ← match args.c with
            | some z => z.row c w r
            | none => pure []
          let vs ← xs.zipIdx.mapM fun (q : Num × Nat) => f c w q.1 (ys.getD q.2 nZero) (zs.getD q.2 nZero)
          writeRow c o.d 3 fac r vs
  | _, _ => throw .undefined

/-- convert: o := a. -/
def convertBody (t : Task) (args : VecArgs) : W Unit := elementBody false false (fun _ _ a _ _ => return a) t args

/-- CONVERT (R125). -/
def execConvert (r : Nat) (s : State) : Host.Outcome State Fault Refusal := s.runVector r 0x00 [3] convertBody

/-- axpby: o := fma(alpha, a, RN(beta × b)). -/
def axpbyBody (t : Task) (args : VecArgs) : W Unit :=
  elementBody true false (fun c w a b _ => arith c do
    laneFma w c.flush (vecAlpha t.image) a (← laneMul w c.flush (vecBeta t.image) b)) t args

/-- AXPBY (R125). -/
def execAxpby (r : Nat) (s : State) : Host.Outcome State Fault Refusal := s.runVector r 0x01 [3] axpbyBody

/-- mul: o := a × b. -/
def mulBody (t : Task) (args : VecArgs) : W Unit :=
  elementBody true false (fun c w a b _ => arith c (laneMul w c.flush a b)) t args

/-- MUL (R125). -/
def execMul (r : Nat) (s : State) : Host.Outcome State Fault Refusal := s.runVector r 0x02 [3] mulBody

/-- fma: o := a × b + c. -/
def fmaBody (t : Task) (args : VecArgs) : W Unit :=
  elementBody true true (fun c w a b z => arith c (laneFma w c.flush a b z)) t args

/-- FMA (R125). -/
def execFma (r : Nat) (s : State) : Host.Outcome State Fault Refusal := s.runVector r 0x03 [3] fmaBody

/-- clamp: o := min(max(a, alpha), beta). -/
def clampBody (t : Task) (args : VecArgs) : W Unit :=
  elementBody false false (fun c w a _ _ =>
    arith c (laneRound w c.flush (minNum (maxNum a (vecAlpha t.image)) (vecBeta t.image)))) t args

/-- CLAMP (R125). -/
def execClamp (r : Nat) (s : State) : Host.Outcome State Fault Refusal := s.runVector r 0x04 [3] clampBody

/-- The image of a record's slot; an empty slot is undefined (R129). -/
def slotOf (slot : Nat) : W Nat := do
  let img := (← getThe State).slotImage slot
  undefinedIf (slotEmpty img)
  return img

/-- func: o := T(RN(fma(alpha, a, beta))). -/
def funcBody (t : Task) (args : VecArgs) : W Unit := do
  let img ← slotOf (vecSlot t.image)
  elementBody false false (fun c w a _ _ => do
    let x ← arith c (laneFma w c.flush (vecAlpha t.image) a (vecBeta t.image))
    laneTable c img false x) t args

/-- FUNC (R128). -/
def execFunc (r : Nat) (s : State) : Host.Outcome State Fault Refusal := s.runVector r 0x05 [3] funcBody

/-- func_grad: o := b × T'(a). -/
def funcGradBody (t : Task) (args : VecArgs) : W Unit := do
  let img ← slotOf (vecSlot t.image)
  elementBody true false (fun c w a b _ => do
    let g ← laneTable c img true a
    arith c (laneMul w c.flush b g)) t args

/-- FUNC_GRAD (R125). -/
def execFuncGrad (r : Nat) (s : State) : Host.Outcome State Fault Refusal := s.runVector r 0x06 [3] funcGradBody

/-! ### amax and quantise (R125, R232) -/

/-- The largest finite magnitude of a granule; NaN when it holds one (R125); none where it holds only infinities. -/
def amaxOf (xs : List Num) : Option Num :=
  if xs.any isNan then some .nan else if xs.any isFin then some (blockMax xs) else none

/-- The maximum of a block: of one that holds only infinities the manual gives none, and the value is free (log entry
98). -/
def amaxBlock (xs : List Num) : W Num := do
  match amaxOf xs with
  | some v => return v
  | none => return fp32 (← freeM 32)

/-- The body of amax. -/
def amaxBody (t : Task) (args : VecArgs) : W Unit := do
  match args.a, args.b, args.c, args.o with
  | some a, none, none, some o =>
    let g := vecGranule t.image
    undefinedIf ((a :: [o]).any fun x => x.d.fmt == 0x00)
    if g = 0 then
      undefinedIf (o.d.fmt ≠ 0x01 ∨ o.d.count ≠ 1)
      checkOutput o.d
      (vecShares t.image a.d.rows).forM fun (p : Nat × List Nat) => do
        if !p.2.isEmpty then
          let c := vecTile t p.1
          let xs ← p.2.mapM (a.row c .fp32)
          let _ ← (atomic c.ini .maxU o.d.base 4 (fp32Code ((amaxOf xs.flatten).getD nZero)) : M Nat)
          pure ()
    else
      let b := if g = 1 then 32 else 16
      undefinedIf (o.d.dims ≠ ceilDiv (a.d.dim 0) b :: a.d.dims.drop 1)
      checkOutput o.d
      (vecShares t.image a.d.rows).forM fun (p : Nat × List Nat) => do
        let c := vecTile t p.1
        let fac ← outFactor c nOne o.ts
        p.2.forM fun r => do
          let xs ← a.row c .fp32 r
          writeRow c o.d 3 fac r (← (chunks b xs).mapM amaxBlock)
  | _, _, _, _ => throw .undefined

/-- AMAX (R125). -/
def execAmax (r : Nat) (s : State) : Host.Outcome State Fault Refusal := s.runVector r 0x08 [3] amaxBody

/-- The scale that quantise forms for mode 0x3 (R232), an FP32 result of the vector unit (R120). -/
def quantScale (flush : Bool) (d : Desc) (a : Num) : F Num :=
  if isNan a then return .nan
  else if isZero a then return nOne
  else rnTo fmtFp32 flush (exactDiv a (fmaxTensor d.fmt d.isSigned))

/-- The body of quantise. The manual gives it for the E8M0 modes and mode 0x3 only: with an output of mode 0x0 the results are
taken as undefined, reach the task. DESIGN CHOICE (log entry 112). -/
def quantiseBody (t : Task) (args : VecArgs) : W Unit := do
  match args.a, args.c, args.o with
  | some a, none, some o =>
    let perTensor := o.d.scaleMode == 3
    undefinedIf (args.b.isSome != perTensor ∨ !sameDims a [some o] ∨ o.d.scaleMode = 0 ∨ a.d.fmt = 0x00 ∨
      (args.b.any fun b => b.d.count != 1 || b.d.fmt != 0x01))
    checkOutput o.d
    (vecShares t.image a.d.rows).forM fun (p : Nat × List Nat) => do
      let c := vecTile t p.1
      let ts ← match args.b with
        | some b => do
          let x ← b.elem c .fp32 (coordOf b.d.dims 0)
          let v ← arith c (quantScale c.flush o.d x)
          (writeNat c.ini c.req o.d.scalePtr 4 (fp32Code v) : M Unit)
          pure v
        | none => pure nOne
      let fac ← outFactor c nOne ts
      p.2.forM fun r => do writeRow c o.d 3 fac r (← a.row c .fp32 r)
  | _, _, _ => throw .undefined

/-- QUANTISE (R231, R232). -/
def execQuantise (r : Nat) (s : State) : Host.Outcome State Fault Refusal := s.runVector r 0x09 [3] quantiseBody

/-! ### Rows (R122, R132–R134) -/

/-- Do rows of these operands fit the vector part of the buffer (R123)? -/
def rowsFit (xs : List VecIn) : Bool :=
  decide (xs.foldl (fun n x => n + bytesOf x.d.fmt (x.d.dim 0)) 0 ≤ 32768)

/-- Runs a row operation whose output has operand0's rows: `f` forms an output row. -/
def rowBody (held : List VecIn) (a : VecIn) (o : VecIn) (t : Task) (f : Ctx → Nat → W (List Num)) : W Unit := do
  undefinedIf (!rowsFit held ∨ !sameDims a [some o] ∨ a.d.fmt = 0x00 ∨ o.d.fmt = 0x00)
  checkOutput o.d
  (vecShares t.image a.d.rows).forM fun (p : Nat × List Nat) => do
    let c := vecTile t p.1
    let fac ← outFactor c nOne o.ts
    p.2.forM fun r => do writeRow c o.d 3 fac r (← f c r)

/-- One row of softmax (R132). -/
def softmaxRow (c : Ctx) (exp2 recip : Nat) (alpha : Num) (xs : List Num) : W (List Num) := do
  if xs.any isNan then
    evaluated (2 * xs.length + 1)
    return xs.map fun _ => .nan
  else
    let m ← arith c (maxRow xs)
    let k ← arith c (mulRn c.flush alpha (fp32 0x3FB8AA3B))
    let es ← xs.mapM fun x => do
      let d ← arith c (do mulRn c.flush (← addRn c.flush x (nNeg m)) k)
      laneTable c exp2 false d
    let total ← arith c (sumRow c.flush es)
    let rr ← laneTable c recip false total
    evaluated xs.length
    es.mapM fun e => arith c (mulRn c.flush e rr)

/-- softmax (R132). -/
def softmaxBody (t : Task) (args : VecArgs) : W Unit := do
  match args.a, args.b, args.c, args.o with
  | some a, none, none, some o =>
    let e ← slotOf 0
    let q ← slotOf 2
    rowBody [a] a o t fun c r => do softmaxRow c e q (vecAlpha t.image) (← a.row c .fp32 r)
  | _, _, _, _ => throw .undefined

/-- SOFTMAX (R132). -/
def execSoftmax (r : Nat) (s : State) : Host.Outcome State Fault Refusal := s.runVector r 0x0A [3] softmaxBody

/-- softmax_grad (R134). -/
def softmaxGradBody (t : Task) (args : VecArgs) : W Unit := do
  match args.a, args.b, args.c, args.o with
  | some a, some b, none, some o =>
    undefinedIf (!sameDims a [some b] ∨ b.d.fmt = 0x00)
    rowBody [a, b] a o t fun c r => do
      let ys ← a.row c .fp32 r
      let dys ← b.row c .fp32 r
      let d ← arith c (dotRow c.flush ys dys)
      (ys.zip dys).mapM fun (p : Num × Num) => arith c do
        mulRn c.flush p.1 (← addRn c.flush p.2 (nNeg d))
  | _, _, _, _ => throw .undefined

/-- SOFTMAX_GRAD (R134). -/
def execSoftmaxGrad (r : Nat) (s : State) : Host.Outcome State Fault Refusal := s.runVector r 0x0B [3] softmaxGradBody

/-- RN(1 ÷ n). -/
def recipN (n : Nat) : Num := rn32 (exactDiv nOne (nNat n))

/-- r of R133 for a row: T_3(RN(RN(q × RN(1 ÷ n)) + epsilon)). -/
def normScale (c : Ctx) (rsqrt : Nat) (eps : Num) (xs : List Num) : W Num := do
  let q ← arith c (dotRow c.flush xs xs)
  let x ← arith c (do addRn c.flush (← mulRn c.flush q (recipN xs.length)) eps)
  laneTable c rsqrt false x

/-- norm (R133). -/
def normBody (t : Task) (args : VecArgs) : W Unit := do
  match args.a, args.b, args.o with
  | some a, some b, some o =>
    undefinedIf (!sameDims a [some b] ∨ b.d.fmt = 0x00 ∨
      args.c.any fun z => z.d.dim 0 != 2 || z.d.rows != a.d.rows || z.d.fmt == 0x00)
    match args.c with
    | some z => checkOutput z.d
    | none => pure ()
    let img ← slotOf 3
    rowBody [a] a o t fun c r => do
      let xs ← a.row c .fp32 r
      let (mu, xs) ← if vecCentre t.image then do
          let mu ← arith c (do mulRn c.flush (← sumRow c.flush xs) (recipN xs.length))
          let ys ← xs.mapM fun x => arith c (addRn c.flush x (nNeg mu))
          pure (mu, ys)
        else pure (nZero, xs)
      let rr ← normScale c img (vecEpsilon t.image) xs
      let bs ← b.row c .fp32 r
      match args.c with
      | some z =>
        let fac ← outFactor c nOne z.ts
        let _ ← writeRun c z.d 2 fac (z.d.at 0 r) [rr, mu]
        pure ()
      | none => pure ()
      (xs.zip bs).mapM fun (p : Num × Num) => arith c do mulRn c.flush (← mulRn c.flush p.1 rr) p.2
  | _, _, _ => throw .undefined

/-- NORM (R133). -/
def execNorm (r : Nat) (s : State) : Host.Outcome State Fault Refusal := s.runVector r 0x0C [3, 2] normBody

/-- norm_grad (R134). -/
def normGradBody (t : Task) (args : VecArgs) : W Unit := do
  match args.a, args.b, args.c, args.o with
  | some a, some b, some z, some o =>
    undefinedIf (!sameDims a [some b, some z] ∨ b.d.fmt = 0x00 ∨ z.d.fmt = 0x00)
    let img ← slotOf 3
    rowBody [a, z] a o t fun c r => do
      let xs ← a.row c .fp32 r
      let bs ← b.row c .fp32 r
      let dys ← z.row c .fp32 r
      let rr ← normScale c img (vecEpsilon t.image) xs
      let gs ← (bs.zip dys).mapM fun (p : Num × Num) => arith c (mulRn c.flush p.1 p.2)
      let hs ← xs.mapM fun x => arith c (mulRn c.flush x rr)
      let d ← arith c (dotRow c.flush gs hs)
      let dn ← arith c (mulRn c.flush d (recipN xs.length))
      (gs.zip hs).mapM fun (p : Num × Num) => arith c do
        mulRn c.flush rr (← addRn c.flush p.1 (nNeg (← mulRn c.flush p.2 dn)))
  | _, _, _, _ => throw .undefined

/-- NORM_GRAD (R134). -/
def execNormGrad (r : Nat) (s : State) : Host.Outcome State Fault Refusal := s.runVector r 0x0D [3] normGradBody

/-- row_dot (R125). -/
def rowDotBody (t : Task) (args : VecArgs) : W Unit := do
  match args.a, args.b, args.c, args.o with
  | some a, some b, none, some o =>
    undefinedIf (!sameDims a [some b] ∨ o.d.count ≠ a.d.rows ∨ [a, b, o].any fun x => x.d.fmt == 0x00)
    checkOutput o.d
    (vecShares t.image a.d.rows).forM fun (p : Nat × List Nat) => do
      let c := vecTile t p.1
      let fac ← outFactor c nOne o.ts
      let vs ← p.2.mapM fun r => do
        let xs ← a.row c .fp32 r
        let ys ← b.row c .fp32 r
        arith c (dotRow c.flush xs ys)
      writeLinear c o.d 3 fac vs.length (p.2.headD 0) vs
  | _, _, _, _ => throw .undefined

/-- ROW_DOT (R125). -/
def execRowDot (r : Nat) (s : State) : Host.Outcome State Fault Refusal := s.runVector r 0x0E [3] rowDotBody

/-- colsum (R125): a unit without rows writes +0. -/
def colsumBody (t : Task) (args : VecArgs) : W Unit := do
  match args.a, args.b, args.c, args.o with
  | some a, none, none, some o =>
    undefinedIf (o.d.dim 0 ≠ a.d.dim 0 ∨ o.d.rows ≠ recCount t.image ∨ a.d.fmt = 0x00 ∨ o.d.fmt = 0x00)
    checkOutput o.d
    (vecShares t.image a.d.rows).zipIdx.forM fun (p : (Nat × List Nat) × Nat) => do
      let c := vecTile t p.1.1
      let fac ← outFactor c nOne o.ts
      let acc ← p.1.2.foldlM (fun (acc : List Num) r => do
        let xs ← a.row c .fp32 r
        (acc.zip xs).mapM fun (q : Num × Num) => arith c (addRn c.flush q.1 q.2))
        (List.replicate (a.d.dim 0) nZero)
      writeRow c o.d 3 fac p.2 acc
  | _, _, _, _ => throw .undefined

/-- COLSUM (R125). -/
def execColsum (r : Nat) (s : State) : Host.Outcome State Fault Refusal := s.runVector r 0x0F [3] colsumBody

/-- Does element `x` come before `y` in topk, `x` at the higher index? NaN ranks below −∞ (R125). -/
def topBefore (x y : Num) : Bool := if isNan y then !isNan x else !isNan x && ltNum y x

/-- Insertion by rank, the lower index first among equals. -/
def insertTop (x : Num × Nat) : List (Num × Nat) → List (Num × Nat)
  | [] => [x]
  | y :: rest => if topBefore x.1 y.1 then x :: y :: rest else y :: insertTop x rest

/-- topk (R125). A k outside 1 to 16, for which the manual gives no consequence, is taken as undefined for the task. DESIGN
CHOICE (log entry 113). -/
def topkBody (t : Task) (args : VecArgs) : W Unit := do
  match args.a, args.b, args.c, args.o with
  | some a, none, some z, some o =>
    let k := vecK t.image
    let want := k :: a.d.dims.drop 1
    undefinedIf (k = 0 ∨ k > 16 ∨ z.d.dims ≠ want ∨ o.d.dims ≠ want ∨ !rowsFit [a] ∨
      [a, z, o].any fun x => x.d.fmt == 0x00)
    checkOutput z.d
    checkOutput o.d
    (vecShares t.image a.d.rows).forM fun (p : Nat × List Nat) => do
      let c := vecTile t p.1
      let fz ← outFactor c nOne z.ts
      let fo ← outFactor c nOne o.ts
      p.2.forM fun r => do
        let xs ← a.row c .fp32 r
        let top := (xs.zipIdx.foldl (fun l x => insertTop x l) []).take k
        writeRow c z.d 2 fz r (top.map (·.1))
        writeRow c o.d 3 fo r (top.map fun q => rn32 (nNat q.2))
  | _, _, _, _ => throw .undefined

/-- TOPK (R125). -/
def execTopk (r : Nat) (s : State) : Host.Outcome State Fault Refusal := s.runVector r 0x10 [3, 2] topkBody

/-! ### Coupled operations (R130, R135) -/

/-- The output of the partner of a coupled record: C, or dX of an op 0b10 partner. -/
def partnerOut (image : Nat) : Nat := recOperand image (if matOp image = 2 then 3 else 2)

/-- The matrix task a coupled vector record belongs to, as a member of a tied group too. -/
def State.partnerOf (s : State) (r : Nat) : Option (Task × Nat) :=
  s.sched.tasks.findSome? fun t =>
    if recKind t.image ≠ 1 ∨ r = 0 then none
    else match ((t.record, t.image) :: t.members).find? fun p => p.1 + 1 == r with
      | some p => some (t, p.2)
      | none => none

/-- Elements drained on a tile: linear index in C and code, rising. -/
def insertLin (x : Nat × Nat) : List (Nat × Nat) → List (Nat × Nat)
  | [] => [x]
  | y :: rest => if x.1 ≤ y.1 then x :: y :: rest else y :: insertLin x rest

/-- Pairs of a flat list. -/
def pairUp : List Nat → List (Nat × Nat)
  | a :: b :: rest => (a, b) :: pairUp rest
  | _ => []

/-- Runs of consecutive positions of one row of extent `d0`. -/
def linRuns (d0 : Nat) : List (Nat × Num) → List (Nat × List Num)
  | [] => []
  | (l, v) :: rest =>
    match linRuns d0 rest with
    | (m, vs) :: more => if m = l + 1 ∧ m % d0 ≠ 0 then (l, v :: vs) :: more else (l, [v]) :: (m, vs) :: more
    | [] => [(l, [v])]

/-- The body of a coupled operation: `f` forms an output element at a coordinate from the drained one. -/
def coupledBody (t : Task) (partner : Task) (pimage : Nat) (fits : VecIn → VecArgs → Bool)
    (f : Ctx → VecIn → VecArgs → List Nat → Num → W Num) : W Unit := do
  let c0 := vecTile t (recFirst t.image)
  let args ← vecArgs c0 t.image
  let alike := recFirst t.image == recFirst pimage && recCount t.image == recCount pimage &&
    recEpoch t.image == recEpoch pimage && recNotBefore t.image == recNotBefore pimage &&
    recDeadline t.image == recDeadline pimage
  match args.a, args.o, ← getDesc? c0 (partnerOut pimage) with
  | some a, some o, some cd =>
    undefinedIf (vecGranule t.image = 3 ∨ !alike ∨ partner.undef ∨ partner.work = 2 ∨ !coupleFits cd ∨ o.d.dims ≠ cd.dims ∨ a.d.dims ≠ cd.dims ∨
      !fits a args ∨ a.d.fmt = 0x00 ∨ o.d.fmt = 0x00)
    checkOutput o.d
    let tiles := (t.drained.map (·.headD 0)).eraseDups
    tiles.forM fun tile => do
      let c := vecTile t tile
      let fac ← outFactor c nOne o.ts
      let es := (t.drained.filter fun l => l.headD 0 == tile).flatMap fun l => pairUp (l.drop 1)
      let sorted := es.foldl (fun l x => insertLin x l) []
      let vals ← sorted.mapM fun (e : Nat × Nat) => do
        let g ← arith c (toWorking c.flush cd nOne none e.2)
        return (e.1, ← f c a args (coordOf cd.dims e.1) g)
      (linRuns (max 1 (o.d.dim 0)) vals).forM fun (q : Nat × List Num) => do
        let _ ← writeRun c o.d 3 fac (coordOf o.d.dims q.1) q.2
        return ()
  | _, _, _ => throw .undefined

/-- Runs a coupled task once its partner has drained. -/
def State.runCoupled (s : State) (r op : Nat) (fits : VecIn → VecArgs → Bool)
    (f : Nat → Ctx → VecIn → VecArgs → List Nat → Num → W Num) : Host.Outcome State Fault Refusal :=
  match s.working? r with
  | none => .next s
  | some t =>
    if recKind t.image ≠ 2 ∨ vecOp t.image ≠ op ∨ !vecCoupled t.image then .next s
    else match s.partnerOf r with
      | none => runEngines s t 0 (tileInit (recFirst t.image)) [recOperand t.image 3] (throw .undefined)
      | some (p, pimage) =>
        if p.work = 0 then .next s
        else runEngines s t 0 (tileInit (recFirst t.image)) [recOperand t.image 3]
          (coupledBody t p pimage fits (f t.image))

/-- Do the operands of coupled func_grad fit? -/
def coupledFuncFits (_ : VecIn) (args : VecArgs) : Bool := args.b.isNone && args.c.isNone

/-- coupled func_grad: o := g × T'(a). -/
def coupledFuncElem (image : Nat) (c : Ctx) (a : VecIn) (_ : VecArgs) (co : List Nat) (g : Num) : W Num := do
  let img ← slotOf (vecSlot image)
  let x ← a.elem c .fp32 co
  let d ← laneTable c img true x
  arith c (mulRn c.flush g d)

/-- COUPLED_FUNC_GRAD (R130). -/
def execCoupledFuncGrad (r : Nat) (s : State) : Host.Outcome State Fault Refusal :=
  s.runCoupled r 0x20 coupledFuncFits coupledFuncElem

/-- Do the operands of coupled softmax_grad fit? -/
def coupledSoftmaxFits (a : VecIn) (args : VecArgs) : Bool :=
  args.b.isNone && args.c.any fun z => z.d.count == a.d.rows && z.d.fmt != 0x00

/-- coupled softmax_grad: o := RN(a × RN(g − c[row])). -/
def coupledSoftmaxElem (_ : Nat) (c : Ctx) (a : VecIn) (args : VecArgs) (co : List Nat) (g : Num) : W Num := do
  match args.c with
  | some z =>
    let x ← a.elem c .fp32 co
    let row := linearOf (a.d.dims.drop 1) (co.drop 1)
    let d ← z.elem c .fp32 (coordOf z.d.dims row)
    arith c do mulRn c.flush x (← addRn c.flush g (nNeg d))
  | none => throw .undefined

/-- COUPLED_SOFTMAX_GRAD (R135). -/
def execCoupledSoftmaxGrad (r : Nat) (s : State) : Host.Outcome State Fault Refusal :=
  s.runCoupled r 0x21 coupledSoftmaxFits coupledSoftmaxElem

/-- Do the operands of coupled norm_grad fit? -/
def coupledNormFits (a : VecIn) (args : VecArgs) : Bool :=
  sameDims a [args.b] && !args.b.any (·.d.fmt == 0x00) && args.c.any fun z => z.d.dim 0 == 2 && z.d.rows == a.d.rows && z.d.fmt != 0x00

/-- coupled norm_grad, RMS form: o := RN(r × RN(RN(b × g) − RN(RN(a × r) × dn))). -/
def coupledNormElem (_ : Nat) (c : Ctx) (a : VecIn) (args : VecArgs) (co : List Nat) (g : Num) : W Num := do
  match args.b, args.c with
  | some b, some z =>
    let x ← a.elem c .fp32 co
    let w ← b.elem c .fp32 co
    let row := linearOf (a.d.dims.drop 1) (co.drop 1)
    let rr ← z.elem c .fp32 (z.d.at 0 row)
    let dn ← z.elem c .fp32 (z.d.at 1 row)
    let gh ← arith c (mulRn c.flush w g)
    let xh ← arith c (mulRn c.flush x rr)
    arith c do mulRn c.flush rr (← addRn c.flush gh (nNeg (← mulRn c.flush xh dn)))
  | _, _ => throw .undefined

/-- COUPLED_NORM_GRAD (R135). -/
def execCoupledNormGrad (r : Nat) (s : State) : Host.Outcome State Fault Refusal :=
  s.runCoupled r 0x22 coupledNormFits coupledNormElem

end Sys2Proof.Machine
end

