-- ==== Sys2Proof/Machine/Update.lean ====
section
/-! DEFINITION. Update tasks: the group descriptor and its schedules, the four rules, lazy rows, the skew check and what
a completed update task writes (R205–R220, R233). -/

namespace Sys2Proof.Machine

/-! ### Parameters and the group (Tables 8.5, 8.7) -/

/-- group_descriptor. -/
def updGroup (image : Nat) : Nat := recParam image 1007 960
/-- rows_list. -/
def updList (image : Nat) : Nat := recParam image 943 896
/-- rows_per_unit. -/
def updRowsPer (image : Nat) : Nat := recParam image 895 864
/-- lazy. -/
def updLazy (image : Nat) : Bool := flag image 835
/-- advance. -/
def updAdvance (image : Nat) : Bool := flag image 834

/-- rule of a group descriptor. -/
def grpRule (g : Nat) : Nat := field g 593 592
/-- nesterov. -/
def grpNesterov (g : Nat) : Bool := flag g 594
/-- step. -/
def grpStep (g : Nat) : Nat := field g 671 640
/-- lr_scale_log2. -/
def grpLog2 (g : Nat) : Int := toSigned 8 (field g 623 616)

/-- What an update task forms once (R210, R233). `eta` is η, or η̂ where the group has a per-layer factor. -/
structure UpdCtx where
  rule : Nat
  nesterov : Bool
  t : Nat
  lr : Num
  eta : Num
  wd : Num
  c : Num
  beta1 : Num
  beta2 : Num
  ob1 : Num
  ob2 : Num
  eps : Num
  eps2 : Num
  gradMult : Num
  c1 : Num
  c2 : Num
  /-- L, and r of R233 (1 when L is 0) -/
  log2 : Int
  r : Num
deriving DecidableEq, Repr

/-- An FP32 value formed by the unit, with the flush of R120. -/
def formed (c : Ctx) (x : Num) : W Num := arith c (flushNum fmtFp32 c.flush x)

/-- Reads a curve of `n` points and takes its value at `t` (R209). -/
def readCurve (c : Ctx) (addr n t : Nat) : W Num := do
  let bs ← (readBytes c.ini c.req addr (8 * n) : M (List Byte))
  let pts := (chunks 8 bs).map fun b => (ofLe (b.take 4), fp32 (ofLe (b.drop 4)))
  match curveValue pts t with
  | some v => formed c (← arith c v)
  | none => throw .undefined

/-- Forms what the task needs from its group descriptor `g` (R210). `s` is the stored scale of operand0, for R233. -/
def formGroup (c : Ctx) (g : Nat) (scale : Num) : W UpdCtx := do
  let t := (grpStep g + 1) % 2 ^ 32
  let f (hi lo : Nat) : Num := fp32 (field g hi lo)
  let lr ← readCurve c (field g 1007 960) (field g 639 632 + 1) t
  let wd ← readCurve c (field g 943 896) (field g 631 624 + 1) t
  let log2 := grpLog2 g
  let one (x : Num) : W Num := arith c (do addRn c.flush nOne (nNeg x))
  let decay ← arith c (do addRn c.flush nOne (nNeg (← mulRn c.flush lr wd)))
  let b1 := f 767 736
  let b2 := f 799 768
  let ob1 ← one b1
  let ob2 ← one b2
  let c1 ← formed c (biasCorrection b1 t)
  let c2 ← formed c (biasCorrection b2 t)
  let eta ← if log2 = 0 then pure lr else arith c (mulRn c.flush lr (nPow2 log2))
  let r ← if log2 = 0 then pure nOne else arith c (mulRn c.flush scale (nPow2 log2))
  return { rule := grpRule g, nesterov := grpNesterov g, t := t, lr := lr, eta := eta, wd := wd, c := decay
           beta1 := b1, beta2 := b2, ob1 := ob1, ob2 := ob2, eps := f 831 800, eps2 := f 863 832
           gradMult := f 895 864, c1 := c1, c2 := c2, log2 := log2, r := r }

/-! ### The rules on one element (R211, R212, R214) -/

/-- `w' := RN(fma(−eta, d, RN(w × c)))`. -/
def stepParam (fl : Bool) (u : UpdCtx) (w d : Num) : F Num := do
  fmaFl fl (nNeg u.eta) d (← mulRn fl w u.c)

/-- Rule 0: w' and b'. -/
def momentumElem (fl : Bool) (u : UpdCtx) (w g b : Num) : F (Num × Num) := do
  let b' ← fmaFl fl u.beta1 b g
  let d ← if u.nesterov then fmaFl fl u.beta1 b' g else pure b'
  return (← stepParam fl u w d, b')

/-- Rule 1: w', m' and v'. -/
def adamElem (fl : Bool) (u : UpdCtx) (w g m v : Num) : F (Num × Num × Num) := do
  let m' ← fmaFl fl u.beta1 m (← mulRn fl u.ob1 g)
  let v' ← fmaFl fl u.beta2 v (← mulRn fl u.ob2 (← mulRn fl g g))
  let den ← addRn fl (← sqrtRn fl (← divRn fl v' u.c2)) u.eps
  let q ← divRn fl (← divRn fl m' u.c1) den
  return (← stepParam fl u w q, m', v')

/-- The sign function of R214. -/
def sgn : Num → Num
  | .nan => .nan
  | x => if isZero x then nZero else if isNeg x then nInt (-1) else nOne

/-- Rule 3: w' and m'. -/
def signElem (fl : Bool) (u : UpdCtx) (w g m : Num) : F (Num × Num) := do
  let d := sgn (← fmaFl fl u.beta1 m (← mulRn fl u.ob1 g))
  let w' ← stepParam fl u w d
  let m' ← fmaFl fl u.beta2 m (← mulRn fl u.ob2 g)
  return (w', m')

/-! ### Operands (R207) -/

/-- Operands of an update task with their tensor scales. -/
structure UpdArgs where
  w : VecIn
  g : VecIn
  s2 : Option VecIn
  s3 : Option VecIn
deriving DecidableEq, Repr

/-- May a parameter tensor have this format and scale mode (R207, R233)? -/
def paramAllowed (d : Desc) (log2 : Int) : Bool :=
  if log2 ≠ 0 then (decide (1 ≤ d.fmt) && decide (d.fmt ≤ 3)) && d.scaleMode == 3
  else if decide (1 ≤ d.fmt) && decide (d.fmt ≤ 3) then d.scaleMode == 0 || d.scaleMode == 3
  else decide (4 ≤ d.fmt) && decide (d.fmt ≤ 9) && isE8m0Mode d.scaleMode

/-- Is a state tensor FP32, or BF16 where `narrow` allows it? -/
def stateAllowed (d : Desc) (narrow : Bool) : Bool := d.fmt == 1 || (narrow && d.fmt == 2)

/-- Do the operands fit the rule (Table 8.6, R217)? -/
def updFits (image rule : Nat) (log2 : Int) (a : UpdArgs) : Bool :=
  let w := a.w.d
  let lazyRows := updLazy image
  let same (d : Desc) : Bool := d.dims == w.dims
  let counted (d : Desc) : Bool := d.dims == (w.dim 0 + 1) :: w.dims.drop 1 && d.fmt == 1
  paramAllowed w log2 && decide (-126 ≤ log2) && decide (log2 ≤ 126) && same a.g.d &&
  (!lazyRows || (rule != 2 && w.rank == 2)) &&
  match rule, a.s2, a.s3 with
  | 1, some m, some v =>
    same m.d && stateAllowed m.d true && (if lazyRows then counted v.d else same v.d && stateAllowed v.d false)
  | 2, some rf, some cf =>
    w.rank == 2 && rf.d.dims == [w.dim 1] && cf.d.dims == [w.dim 0] && stateAllowed rf.d false && stateAllowed cf.d false
  | 0, some b, none | 3, some b, none => if lazyRows then counted b.d else same b.d && stateAllowed b.d true
  | _, _, _ => false

/-! ### Rows -/

/-- A row of parameters, as R118 or R233 reads it. -/
def readParams (c : Ctx) (u : UpdCtx) (x : VecIn) (r : Nat) : W (List Num) :=
  if u.log2 = 0 then readRow c x.d x.ts r
  else (List.range (x.d.dim 0)).mapM fun i => do
    let code ← readCode c x.d (x.d.at i r)
    arith c (do mulRn c.flush (← inputValue c.flush x.d code) u.r)

/-- A row of the gradient, scaled: `g := RN(g_in × grad_mult)` (R210). -/
def readGrad (c : Ctx) (u : UpdCtx) (x : VecIn) (r : Nat) : W (List Num) := do
  (← readRow c x.d x.ts r).mapM fun g => arith c (mulRn c.flush g u.gradMult)

/-- F of the parameters: 1 where R233 applies, else that of R215. -/
def paramFactor (c : Ctx) (u : UpdCtx) (x : VecIn) : W Num :=
  if u.log2 = 0 then outFactor c nOne x.ts else pure nOne

/-- The first `n` elements of a row of state. -/
def readState (c : Ctx) (x : VecIn) (n r : Nat) : W (List Num) :=
  (List.range n).mapM fun i => readElem c x.d x.ts (x.d.at i r)

/-- Updates one row by rule 0, 1 or 3 (R211, R212, R214, R215). -/
def updateRow (c : Ctx) (u : UpdCtx) (a : UpdArgs) (r : Nat) : W Unit := do
  let n := a.w.d.dim 0
  let ws ← readParams c u a.w r
  let gs ← readGrad c u a.g r
  let fw ← paramFactor c u a.w
  tally oUpdateElements n
  let wg := ws.zip gs
  match u.rule, a.s2, a.s3 with
  | 1, some m, some v =>
    let ms ← readState c m n r
    let vs ← readState c v n r
    let out ← ((wg.zip (ms.zip vs)).mapM fun (q : (Num × Num) × (Num × Num)) =>
      arith c (adamElem c.flush u q.1.1 q.1.2 q.2.1 q.2.2))
    let fm ← outFactor c nOne m.ts
    let fv ← outFactor c nOne v.ts
    writeRow c a.w.d 0 fw r (out.map fun q => q.1)
    writeRow c m.d 2 fm r (out.map fun q => q.2.1)
    writeRow c v.d 3 fv r (out.map fun q => q.2.2)
  | rule, some b, _ =>
    let bs ← readState c b n r
    let out ← ((wg.zip bs).mapM fun (q : (Num × Num) × Num) =>
      arith c (if rule = 0 then momentumElem c.flush u q.1.1 q.1.2 q.2 else signElem c.flush u q.1.1 q.1.2 q.2))
    let fb ← outFactor c nOne b.ts
    writeRow c a.w.d 0 fw r (out.map fun q => q.1)
    writeRow c b.d 2 fb r (out.map fun q => q.2)
  | _, _, _ => throw .undefined

/-- Units of an update task, with their engines. -/
def updUnits (image : Nat) : List (Nat × Nat) := (setUnits image).zipIdx

/-- Updates every row (rules 0, 1 and 3). -/
def denseBody (t : Task) (u : UpdCtx) (a : UpdArgs) : W Unit :=
  (updUnits t.image).forM fun (p : Nat × Nat) =>
    (unitRows a.w.d.rows (recCount t.image) (updRowsPer t.image) p.2).forM fun r =>
      updateRow (updCtx p.1 t.record t.image) u a r

/-- Updates one listed row (R217): its own count gives its bias corrections, and is written back. -/
def lazyRow (c : Ctx) (u : UpdCtx) (a : UpdArgs) (r : Nat) : W Unit := do
  let n := a.w.d.dim 0
  let last := if u.rule = 1 then a.s3 else a.s2
  match last with
  | none => throw .undefined
  | some x =>
    let count ← readCode c x.d (x.d.at n r)
    let tr := (count + 1) % 2 ^ 32
    let c1 ← formed c (biasCorrection u.beta1 tr)
    let c2 ← formed c (biasCorrection u.beta2 tr)
    updateRow c { u with c1 := c1, c2 := c2 } a r
    writeCode c x.d (x.d.at n r) tr
    binElem c x.d tr
    tally oUpdateLazyRows 1

/-- A listed row: every operand is accessed at it, and counts it where it is clamped (R150, R151). -/
def lazyIndex (c : Ctx) (a : UpdArgs) (i : Int) : W Nat := do
  let (v, cl) := clampTo (a.w.d.dim 1) i
  if cl then
    let states := [a.s2, a.s3].filterMap fun x => x.map fun (y : VecIn) => y.d
    ([a.w.d, a.g.d] ++ states).forM fun (d : Desc) => noteClamp c d
  return v

/-- Lazy mode (R217). -/
def lazyBody (t : Task) (u : UpdCtx) (a : UpdArgs) : W Unit := do
  let c0 := updCtx (recFirst t.image) t.record t.image
  let l ← getDesc c0 (updList t.image)
  undefinedIf (l.rank != 1)
  let ts ← tensorScale c0 l
  let shares := (updUnits t.image).map fun p => (p.1, unitRows l.count (recCount t.image) (updRowsPer t.image) p.2)
  let rows ← shares.mapM fun (p : Nat × List Nat) => do
    let c := updCtx p.1 t.record t.image
    let is ← p.2.mapM fun e => do lazyIndex c a (← readIndex c l ts [e])
    return (c, is)
  let all := rows.flatMap (·.2)
  undefinedIf (all.eraseDups.length != all.length)
  rows.forM fun (p : Ctx × List Nat) => p.2.forM fun r => lazyRow p.1 u a r

/-- Sum from +0 in order, each addition rounded. -/
def sumInOrder (c : Ctx) (xs : List Num) : W Num := arith c (xs.foldlM (fun a x => addRn c.flush a x) nZero)

/-- Rule 2 (R213), in its three phases. -/
def factoredBody (t : Task) (u : UpdCtx) (a : UpdArgs) (rf cf : VecIn) : W Unit := do
  let n0 := a.w.d.dim 0
  let n1 := a.w.d.dim 1
  let fl := recFlush t.image
  let units := (updUnits t.image).map fun p =>
    (updCtx p.1 t.record t.image, unitRows n1 (recCount t.image) (updRowsPer t.image) p.2)
  -- phase 1
  let first ← units.mapM fun (p : Ctx × List Nat) => do
    let qs ← p.2.mapM fun r => do
      (← readGrad p.1 u a.g r).mapM fun g => arith p.1 (do addRn fl (← mulRn fl g g) u.eps2)
    let rs ← qs.mapM fun q => arith p.1 (sumRow fl q)
    let pc ← (List.range n0).mapM fun j => sumInOrder p.1 (qs.map fun q => q.getD j nZero)
    return (rs, pc)
  -- phase 2
  let second ← (units.zip first).zipIdx.mapM fun (p : ((Ctx × List Nat) × (List Num × List Num)) × Nat) => do
    let c := p.1.1.1
    let blend (old total : Num) (n : Nat) : W Num := arith c do
      let mean ← mulRn fl total (← divRn fl nOne (nNat n))
      fmaFl fl u.beta2 old (← mulRn fl u.ob2 mean)
    let cols ← (List.range n0).mapM fun j => do
      let cs ← sumInOrder c (first.map fun q => q.2.getD j nZero)
      blend (← readElem c cf.d cf.ts [j]) cs n1
    let rows ← (p.1.1.2.zip p.1.2.1).mapM fun (q : Nat × Num) => do blend (← readElem c rf.d rf.ts [q.1]) q.2 n0
    let pr ← sumInOrder c rows
    return (cols, rows, pr)
  (units.zip second).zipIdx.forM fun (p : ((Ctx × List Nat) × (List Num × List Num × Num)) × Nat) => do
    let c := p.1.1.1
    match p.1.1.2.head? with
    | some r0 =>
      let _ ← writeRun c rf.d 2 (← outFactor c nOne rf.ts) [r0] p.1.2.2.1
    | none => pure ()
    if p.2 = 0 then
      let _ ← writeRun c cf.d 3 (← outFactor c nOne cf.ts) [0] p.1.2.1
  -- phase 3
  (units.zip second).forM fun (p : (Ctx × List Nat) × (List Num × List Num × Num)) => do
    let c := p.1.1
    let total ← sumInOrder c (second.map fun q => q.2.2)
    let rmean ← arith c (do mulRn fl total (← divRn fl nOne (nNat n1)))
    let fw ← paramFactor c u a.w
    (p.1.2.zip p.2.2.1).forM fun (q : Nat × Num) => do
      let ws ← readParams c u a.w q.1
      let gs ← readGrad c u a.g q.1
      let out ← ((ws.zip gs).zip p.2.1).mapM fun (e : (Num × Num) × Num) => arith c do
        let vh ← divRn fl (← divRn fl (← mulRn fl q.2 e.2) rmean) u.c2
        stepParam fl u e.1.1 (← divRn fl e.1.2 (← sqrtRn fl vh))
      tally oUpdateElements n0
      writeRow c a.w.d 0 fw q.1 out

/-! ### The skew check (R218, R219) -/

/-- STEP_SKEW of the tick with one more refused task. -/
def State.noteSkew (s : State) (unit r step lo hi cause : Nat) : State :=
  let e := mkEvent 0x0501 0x03 unit r step lo hi cause
  match s.tickEvent? 0x0501 with
  | none => s.setTickEvent e
  | some old => if r < old.w0 then s.setTickEvent e else s

/-- What the completion of an update task writes, kept in `notes` once it has worked (R216, R220, R233): the group descriptor, t, η and λ
where the task advances; the descriptor of operand0 where it is a shard; and the new scale with its address. -/
def updNotes (t : Task) (u : UpdCtx) (w : Desc) : List Nat :=
  [if updAdvance t.image then updGroup t.image else 0, u.t, fp32Code u.lr, fp32Code u.wd,
   if w.shard then w.addr else 0, if u.log2 = 0 then 0 else w.scalePtr, fp32Code (nPow2 (-u.log2))]

/-- The update itself, once the skew check has passed. -/
def updateBody (t : Task) (a : UpdArgs) (g : Nat) : W Unit := do
  let c := updCtx (recFirst t.image) t.record t.image
  undefinedIf (!updFits t.image (grpRule g) (grpLog2 g) a)
  let u ← formGroup c g a.w.ts
  checkOutput a.w.d
  [a.s2, a.s3].forM fun (x : Option VecIn) => match x with
    | some y => checkOutput y.d
    | none => pure ()
  if updLazy t.image then lazyBody t u a
  else match u.rule, a.s2, a.s3 with
    | 2, some rf, some cf => factoredBody t u a rf cf
    | _, _, _ => denseBody t u a
  modifyThe State fun s => s.modTask t.record fun t => { t with notes := updNotes t u a.w.d }

/-- Reads the operands of an update task. -/
def updArgs (c : Ctx) (image : Nat) : W UpdArgs := do
  let get (k : Nat) : W (Option VecIn) := do
    match ← getDesc? c (recOperand image k) with
    | some d => return some ⟨d, ← tensorScale c d⟩
    | none => return none
  match ← get 0, ← get 1 with
  | some w, some g => return { w := w, g := g, s2 := ← get 2, s3 := ← get 3 }
  | _, _ => throw .undefined

/-- Is the task refused by the skew check (R218)? The smallest and largest sender step recorded beside operand1, and
the flag the step's barrier carried, are compared with the group's s. A local mismatch is reported before a carried
flag. -/
def skewCause (s : State) (g companion : Nat) : Nat :=
  if field companion 31 0 ≠ grpStep g ∨ field companion 63 32 ≠ grpStep g then 1
  else if s.colls.skew then 2 else 0

/-- The mode of an update task: the rule of its group, dense, or any rule lazily. -/
def updMode (image g : Nat) : Nat := if updLazy image then 4 else grpRule g

/-- What an update task reads as it starts: its group descriptor, its companion, and why it is refused, 0 if it is not
(R218). -/
def updateStart (c : Ctx) (image : Nat) : M (Nat × Nat × Nat) := do
  if recOperand image 0 = 0 ∨ recOperand image 1 = 0 then throw .undefined
  let g ← readNat c.ini .keep (updGroup image) 128
  let comp ← readNat c.ini .keep (recOperand image 1 + 128) 16
  return (g, comp, skewCause (← get) g comp)

/-- The work of an update task: its operands, then its elements. -/
def updateWork (c : Ctx) (g : Nat) (t : Task) : W Unit := do updateBody t (← updArgs c t.image) g

/-- The tensors an update task writes: the parameters and the states (Table 8.6). -/
def updOuts (image : Nat) : List Nat := [recOperand image 0, recOperand image 2, recOperand image 3]

/-- Runs an update task whose mode is `mode`: its group descriptor is the one it read as it started. -/
def State.runUpdate (s : State) (r mode : Nat) : Host.Outcome State Fault Refusal :=
  match s.working? r with
  | none => .next s
  | some t =>
    let g := t.notes.headD 0
    if recKind t.image ≠ 6 ∨ updMode t.image g ≠ mode then .next s
    else
      let c := updCtx (recFirst t.image) t.record t.image
      runEngines s t 2 c.ini (updOuts t.image) (updateWork c g t)

/-- UPDATE_MOMENTUM_SGD (R211). -/
def execUpdateMomentumSgd (r : Nat) (s : State) : Host.Outcome State Fault Refusal := s.runUpdate r 0

/-- UPDATE_ADAMW (R212). -/
def execUpdateAdamw (r : Nat) (s : State) : Host.Outcome State Fault Refusal := s.runUpdate r 1

/-- UPDATE_FACTORED (R213). -/
def execUpdateFactored (r : Nat) (s : State) : Host.Outcome State Fault Refusal := s.runUpdate r 2

/-- UPDATE_SIGN_MOMENTUM (R214). -/
def execUpdateSignMomentum (r : Nat) (s : State) : Host.Outcome State Fault Refusal := s.runUpdate r 3

/-- UPDATE_LAZY (R217). -/
def execUpdateLazy (r : Nat) (s : State) : Host.Outcome State Fault Refusal := s.runUpdate r 4

/-- What the completion of an update task that worked writes (R216, R220, R233). -/
def finishUpdate (t : Task) : M Unit := do
  let ini := (updCtx (recFirst t.image) t.record t.image).ini
  match t.notes with
  | [grp, step, lr, wd, shard, ptr, scale] =>
    if ptr ≠ 0 then writeNat ini .keep ptr 4 scale
    if grp ≠ 0 then writeBytes ini .keep (grp + 80) (leBytes 4 step ++ leBytes 4 lr ++ leBytes 4 wd)
    if shard ≠ 0 then
      let n ← readNat ini .keep (shard + 52) 4
      writeNat ini .keep (shard + 52) 4 ((n + 1) % 2 ^ 32)
  | _ => return ()

end Sys2Proof.Machine
end

