-- ==== Sys2Proof/Machine/Scheduler.lean ====
section
/-! DEFINITION. The tick boundary and the step scheduler: checks, admission, completions, slips, halts and
steps (R35–R62), with what other chapters do at a boundary: Noon and temperatures (R459–R462), the timing tree's
corrections (R314–R317), job tables (R437, R438), Dusk (R371) and MSI-X messages (R411). -/

namespace Sys2Proof.Machine

/-! ### Records and checks -/

/-- Address of a record of the active program (R39). -/
def State.recordAddr (s : State) (i : Nat) : Nat := s.obj oActiveBase + 128 * i

/-- The cause of the first check of Table 2.5 that a record fails, 0 for none (R43, R397). `period` is the tick period
as a power of two. -/
def recordCheck (r period : Nat) : Nat :=
  let kind := recKind r
  if kind > 9 then 1
  else if kind ≠ 0 ∧ (recCount r = 0 ∨ recFirst r + recCount r > engineLimit kind) then 2
  else if kind = 1 ∧ matOp r = 2 ∧ (recFirst r % 2 = 1 ∨ recCount r % 2 = 1) then 3
  else if recDeadline r < recNotBefore r then 4
  else if recPredicted r > (recDeadline r - recNotBefore r + 1) * 2 ^ period then 5
  else if (List.range 4).any fun k => recOperand r k % 128 ≠ 0 then 6
  else if recRole r = 3 ∨ recStatus r > 3 then 7
  else 0

/-- A record as memory holds it, without an access. -/
def State.peekRecord (s : State) (i : Nat) : Option Nat :=
  let a := s.recordAddr i
  if s.anyAbsent a 128 then none
  else some (ofLe ((pieces a 128).flatMap fun p =>
    memBytes s.mem.cells (entPhys (s.entry (p.1 / pageBytes)) + p.1 % pageBytes) p.2))

/-- Writes status and measured_cycles of a record (R41). A record that cannot be written keeps its bytes. -/
def State.writeStatus (s : State) (i status measured : Nat) : State :=
  let a := s.recordAddr i
  let kind := match s.peekRecord i with
    | some r => recKind r
    | none => 0
  match (do writeNat schedInit .keep a 1 (kind + 16 * status)
            writeNat schedInit .keep (a + 12) 4 (min measured (2 ^ 32 - 1)) : M Unit).run s with
  | .ok _ s' => s'
  | .error _ s' => s'

/-- Sets the outcome of a record in this step: 1 complete, 2 faulted, 3 stale (R55). -/
def State.setOutcome (s : State) (i v : Nat) : State :=
  { s with sched := { s.sched with outcomes := mapPut 0 s.sched.outcomes i v } }

/-- The outcome of a record in this step, 0 for not run. -/
def State.outcome (s : State) (i : Nat) : Nat := mapGet 0 s.sched.outcomes i

/-- A completion counter. -/
def State.counter (s : State) (k : Nat) : Nat := mapGet 0 s.sched.counters k

/-- Credits a queue holds. -/
def State.credit (s : State) (q : Nat) : Nat := mapGet 0 s.sched.credits q

/-- The state with a queue's credits. -/
def State.setCredit (s : State) (q v : Nat) : State :=
  { s with sched := { s.sched with credits := mapPut 0 s.sched.credits q (v % 65536) } }

/-- Is every valid wait entry met (R44)? -/
def State.ready (s : State) (r : Nat) : Bool :=
  (List.range 4).all fun k =>
    let w := recWait r k
    !flag w 63 || decide (field w 31 0 ≤ s.counter (field w 59 48))

/-! ### Bookings (R49) -/

/-- Does the task use the engine of a class? -/
def Task.uses (t : Task) (cls : EngineClass) (e : Nat) : Bool :=
  recKind t.image != 0 && kindClass (recKind t.image) == cls && (recEngines t.image).contains e

/-- Booked cycles of an engine at an ACLK time, over these tasks. -/
def bookedOf (tasks : List Task) (cls : EngineClass) (e now : Nat) : Nat :=
  tasks.foldl (fun a t =>
    if !t.uses cls e then a
    else if t.waiting.contains e then a + recPredicted t.image
    else if t.left.contains e then a
    else match mapFind t.running e with
      | some st => a + (recPredicted t.image - (now - st))
      | none => a) 0

/-- Tasks waiting on an engine. -/
def State.waitingOn (s : State) (cls : EngineClass) (e : Nat) : List Task :=
  s.sched.tasks.filter fun t => t.uses cls e && t.waiting.contains e

/-- The task running on an engine. -/
def State.runningOn (s : State) (cls : EngineClass) (e : Nat) : Option Task :=
  s.sched.tasks.find? fun t => t.uses cls e && t.runs e

/-- May the engines of a record take another task (R49)? The booked cycles are those of the tasks there were at cycle 0,
`latched`; the tasks waiting are those there are, so that no engine holds more than 16. DEDUCED (log entry 99). -/
def State.enginesOpen (s : State) (latched : List Task) (r : Nat) : Bool :=
  (recEngines r).all fun e =>
    let c := kindClass (recKind r)
    decide (bookedOf latched c e s.sched.boundaryAclk ≤ 2 ^ s.obj oTickPeriodLog2) &&
      decide ((s.waitingOn c e).length < 16)

/-! ### Admission (R48–R50, R107, R130, R167, R202) -/

/-- The role the scheduler chooses: 0 for A stationary, 1 for B (R107). -/
def State.chooseRole (s : State) (r : Nat) : Nat :=
  match s.peekDesc (recOperand r 0), s.peekDesc (recOperand r 1), s.peekDesc (recOperand r 2) with
  | some a, some b, some o =>
    match matClass a.fmt b.fmt with
    | none => 1
    | some cls =>
      if matSparse r ∨ !(forwardFits r true a b o || forwardFits r false a b o) then 1
      else
        let units := if matPaired r then recCount r / 2 else recCount r
        let (m, n) := (a.dim 1, b.dim 1)
        let w := sliceWidth (if matSplitM r then m else n) units (matSlice r) 32
        let part (x : Nat) (cut : Bool) : Nat := if cut then (sliceOf x w 0).length else x
        let m' := part m (matSplitM r)
        let n' := part n (!matSplitM r)
        if passCycles cls false (a.dim 0) m' n' < passCycles cls false (b.dim 0) n' m' then 0 else 1
  | _, _, _ => 1

/-- Are consecutive records admitted only together: a delivered gather and its matrix task, a matrix task and its
coupled vector task, or two members of a tied group? -/
def linked (r q : Nat) : Bool :=
  (delivers r && recKind q == 1) ||
  (recKind r == 1 && recKind q == 2 && vecCoupled q) ||
  (recKind r == 1 && recKind q == 1 && matOp r == 2 && matOp q == 2 && recHandle r != 0 && recHandle r == recHandle q)

/-- Are two records members of one tied group (R202)? -/
def tied (r q : Nat) : Bool := recKind r == 1 && recKind q == 1 && linked r q

/-- May a record be admitted now, its engines apart (R49)? -/
def State.mayAdmit (s : State) (r : Nat) : Bool :=
  s.ready r && decide (recNotBefore r ≤ s.tick - s.obj oStepBaseTick) &&
    (recQueueOut r == 0xFF || decide (0 < s.credit (recQueueOut r)))

/-- Takes the credit of a producer (R50): a later producer of the scan finds what the earlier ones have left. DEDUCED (log
entry 99). -/
def State.takeCredit (s : State) (r : Nat) : State :=
  if recQueueOut r = 0xFF then s else s.setCredit (recQueueOut r) (s.credit (recQueueOut r) - 1)

/-- Is one record a scatter_add into a space and the other a hash_merge of it (R185)? -/
def spaceClash (r q : Nat) : Bool :=
  recKind r == 4 && recKind q == 4 && recParam r 879 876 == recParam q 879 876 &&
    ((gatherOp r == 2 && gatherOp q == 3) || (gatherOp r == 3 && gatherOp q == 2))

/-- A new task beside those that are not complete: a scatter_add and a hash_merge of its space are both undefined (R185). -/
def State.addTask (s : State) (t : Task) : State :=
  let clash := s.sched.tasks.any fun u => spaceClash u.image t.image
  let tasks := s.sched.tasks.map fun u => if spaceClash u.image t.image then { u with undef := true } else u
  { s with sched := { s.sched with tasks := tasks ++ [{ t with undef := clash }] } }

/-- Admits a record as a task of its own. -/
def State.admitFresh (s : State) (latched : List Task) (i r : Nat) : Option State :=
  if !s.enginesOpen latched r then none
  else
    let s := s.takeCredit r
    let choose := decide (recKind r = 1 ∧ matOp r ≠ 2 ∧ recRole r = 2)
    let role := if choose then s.chooseRole r else recRole r
    let s := if choose then s.count (if role = 0 then oRoleChoseA else oRoleChoseB) else s
    let t : Task :=
      { record := i, image := r, admitted := s.tick, role := role, waiting := recEngines r
        work := if recKind r = 0 then 1 else 0 }
    some (s.addTask t)

/-- Admits one record beside those of its group: `none` where it may not be admitted. A later member of a tied group
joins the group's task and books nothing more. -/
def State.admitOne (s : State) (latched : List Task) (prev : Option (Nat × Nat)) (i r : Nat) : Option State :=
  if !s.mayAdmit r then none
  else match prev with
    | some (j, q) =>
      if tied q r then
        let s := s.takeCredit r
        (s.holder? j).map fun t => s.setTask { t with members := t.members ++ [(i, r)] }
      else s.admitFresh latched i r
    | none => s.admitFresh latched i r

/-- Admits a group, all of it or nothing. -/
def State.admitGroup (s : State) (latched : List Task) : Option (Nat × Nat) → List (Nat × Nat) → Option State
  | _, [] => some s
  | prev, (i, r) :: rest =>
    match s.admitOne latched prev i r with
    | some s' => s'.admitGroup latched (some (i, r)) rest
    | none => none

/-- Counts a tied group admitted (Table 8.9). -/
def countTied (g : List (Nat × Nat)) (s : State) : State :=
  match g.map (·.2) with
  | r :: q :: rest =>
    if tied r q || (match rest with
      | x :: _ => tied q x
      | [] => false) then s.count oTiedGroups else s
  | _ => s

/-- A record examined by the scan: faulted, stale, or a candidate. A record that cannot be read is treated as an access
of a task (R265, R280, R436). A record of another epoch is skipped as soon as it is examined, whatever its waits and its
window say: the manual says only 'at admission'. DEDUCED (log entry 100). -/
def State.examine (s : State) (i : Nat) : Option Nat × State :=
  match (readNat schedInit .keep (s.recordAddr i) 128 : M Nat).run s with
  | .error (.absent va) s' => (none, ((s'.setOutcome i 2).raise 0x0201 0 0 i va).haltWith 0x0201 i)
  | .error (.poison loc) s' => (none, ((s'.uncorrected loc i).setOutcome i 2).taskFault 0 0 i 0x09 0x0A02)
  | .error (.fault d) s' => (none, (s'.setOutcome i 2).taskFault 0 0 i 0x09 d)
  | .error _ s' => (none, s')
  | .ok r s' =>
    let c := recordCheck r (s.obj oTickPeriodLog2)
    if c ≠ 0 then (none, ((s'.writeStatus i 2 0).setOutcome i 2).taskFault 0 0 i c 0)
    else if recEpoch r ≠ s.obj oPlacementEpoch then
      (none, ((s'.writeStatus i 3 0).setOutcome i 3).noteStale)
    else (some r, s')

/-- Is a record linked with one outside the group that begins or ends with it: the one before the first, or the one after
the last (R130, R167, R202)? -/
def State.groupOpen (s : State) (g : List (Nat × Nat)) : Bool :=
  (match g.head? with
    | some (i, r) => i != 0 && (s.peekRecord (i - 1)).any fun q => linked q r
    | none => false) ||
  (match g.getLast? with
    | some (i, r) => decide (i + 1 < s.obj oActiveRecords) && (s.peekRecord (i + 1)).any fun q => linked r q
    | none => false)

/-- Admits a gathered group, unless a record linked with it is no candidate with it; and counts it. -/
def State.closeGroup (s : State) (latched : List Task) (count : Nat) (g : List (Nat × Nat)) : State × Nat :=
  if s.groupOpen g || decide (count + g.length > 4096) then (s, count)
  else match s.admitGroup latched none g with
    | some s' => (countTied g s', count + g.length)
    | none => (s, count)

/-- The scan over candidates in index order, as groups: `cur` is the group being gathered, in order; `count` the records
admitted so far. At most 4,096 are admitted. -/
def State.admitAll (s : State) (latched : List Task) (count : Nat) (cur : List (Nat × Nat)) :
    List (Nat × Nat) → State
  | [] => (s.closeGroup latched count cur).1
  | (i, r) :: rest =>
    match cur.getLast? with
    | some (j, q) =>
      if j + 1 = i ∧ linked q r then s.admitAll latched count (cur ++ [(i, r)]) rest
      else
        let (s', n) := s.closeGroup latched count cur
        s'.admitAll latched n [(i, r)] rest
    | none => s.admitAll latched count [(i, r)] rest

/-- Indices the scan examines: of the 16,384 records from the lowest one not admitted, those that have neither run nor been
admitted (R49, R55). That the others of the range count towards the 16,384 is the model's reading. DEDUCED (log entry
101). -/
def State.scanRange (s : State) : List Nat :=
  let fresh (i : Nat) : Bool := s.outcome i == 0 && (s.holder? i).isNone
  match (List.range (s.obj oActiveRecords)).find? fresh with
  | none => []
  | some lo => (span lo (min 16384 (s.obj oActiveRecords - lo))).filter fresh

/-- The admission scan (R49). It reads no record over a mesh that is unusable (R449). -/
def State.admissionScan (s : State) : State :=
  if s.rst.meshStuck then s
  else
    let (cands, s) := s.scanRange.foldl (fun (p : List (Nat × Nat) × State) i =>
      match p.2.examine i with
      | (some r, s') => (p.1 ++ [(i, r)], s')
      | (none, s') => (p.1, s')) ([], s)
    s.admitAll s.sched.tasks 0 [] cands

/-! ### The order of an engine's tasks (R50), and descriptors fetched ahead (R136) -/

/-- The task an engine starts next: highest priority, then earliest deadline, then lowest record (R50). -/
def bestTask : List Task → Option Task
  | [] => none
  | t :: rest =>
    match bestTask rest with
    | none => some t
    | some u =>
      let key (x : Task) : Nat × Nat × Nat := (255 - recPriority x.image, recDeadline x.image, x.record)
      let (a, b) := (key t, key u)
      if a.1 < b.1 ∨ (a.1 = b.1 ∧ (a.2.1 < b.2.1 ∨ (a.2.1 = b.2.1 ∧ a.2.2 ≤ b.2.2))) then some t else some u

/-- The head of an engine's order: the best of its waiting tasks, but the paging engine takes them as they were admitted
(R50, R282). -/
def State.headOn (s : State) (cls : EngineClass) (e : Nat) (ok : Task → Bool) : Option Task :=
  let ts := (s.waitingOn cls e).filter ok
  if cls = .paging then ts.head? else bestTask ts

/-- The descriptors a record names: its operands, and the second output of both gradients (Tables 2.2, 8.1). -/
def recDescs (r : Nat) : List Nat :=
  ((List.range 4).map (recOperand r) ++
    (if recKind r = 1 ∧ matOp r = 2 ∧ recOperand r 1 ≠ 0 then [recOperand r 1 + 128] else [])).filter (· != 0)

/-- The records of a task with their images. -/
def Task.records (t : Task) : List (Nat × Nat) := (t.record, t.image) :: t.members

/-- Fetches the descriptors of a task on a tile, ahead of its start. -/
def fetchAhead (tile : Nat) (t : Task) : M Unit :=
  t.records.forM fun p => (recDescs p.2).forM fun addr => do
    let c := tileCtx tile p.1 p.2
    if ((← get).readOf p.1 c.ini.unit addr).isNone then
      let raw ← readNat c.ini .keep addr 128
      mod fun s => s.modTask p.1 fun t => { t with reads := t.reads ++ [⟨c.ini.unit, addr, raw, 0⟩] }

/-- While a tile's array or vector unit runs a task, its sequencer fetches the descriptors of the task it will start next
(R136). A fetch that fails has no effect: the start finds the failure again. -/
def State.prefetch (s : State) (cls : EngineClass) (tile : Nat) : State :=
  if (cls ≠ .matrix ∧ cls ≠ .vector) ∨ (s.runningOn cls tile).isNone then s
  else match s.headOn cls tile fun _ => true with
    | none => s
    | some t =>
      match (fetchAhead tile t).run s with
      | .ok _ s' => s'
      | .error _ _ => s

/-- Fetches ahead on every tile that runs a task (R136). -/
def State.prefetchAll (s : State) : State :=
  s.sched.tasks.foldl (fun s t =>
    t.running.foldl (fun s (q : Nat × Nat) => s.prefetch (kindClass (recKind t.image)) q.1) s) s

/-! ### Outputs of a task -/

/-- The descriptors through which a record writes; `coupled` says that a vector task takes what it drains (R130), and
`delivered` that a matrix task takes its rows (R167). -/
def recOuts (r : Nat) (coupled delivered : Bool) : List Nat :=
  match recKind r with
  | 1 =>
    if matOp r = 2 then (if coupled then [] else [recOperand r 3]) ++ [recOperand r 1 + 128]
    else if coupled then [] else [recOperand r 2]
  | 2 => if vecOp r = 0x0C ∨ vecOp r = 0x10 then [recOperand r 3, recOperand r 2] else [recOperand r 3]
  | 3 =>
    if delivered then []
    else match gatherOp r with
      | 3 => [recOperand r 1, recOperand r 2, recOperand r 3]
      | 9 => [recOperand r 2, recOperand r 3]
      | 10 => []
      | _ => [recOperand r 3]
  | 4 => if gatherOp r = 2 then [] else [recOperand r 3]
  | 6 => updOuts r
  | _ => []

/-- The master class of the engines of a kind. -/
def kindMaster (kind : Nat) : Nat :=
  match kind with
  | 1 | 2 => 0
  | 3 | 4 => 1
  | 6 => 2
  | _ => 3

/-- Byte ranges of the outputs of a task, with those of the members of its group. -/
def State.taskOuts (s : State) (t : Task) : List (Nat × Nat) :=
  t.records.flatMap fun p =>
    s.outsOf (kindMaster (recKind p.2)) p.2 (recOuts p.2 (s.coupledOf p.1).isSome
      (delivers p.2 && (s.holder? (p.1 + 1)).any fun m => deliveryFits p.2 m.image))

/-! ### Completion (R41, R44, R45, R50, R62) -/

/-- Adds an event that waits for the next boundary beside any other of its code. -/
def State.queueEvent (s : State) (e : EventRec) : State :=
  { s with dict := { s.dict with tickEvents := s.dict.tickEvents ++ [e] } }

/-- Puts the address of a drifting output on the fall-back list (R240). -/
def State.pushFallback (s : State) (addr : Nat) : State :=
  if s.sched.fallback.contains addr then s
  else if s.sched.fallback.length ≥ 64 then s.count oFallbacksLost
  else { s with sched := { s.sched with fallback := s.sched.fallback ++ [addr] } }

/-- Counts a task that dropped values (R174). Its record's cause is 3 where some of the tick's tasks met over-full groups
and others truncated slots, since no one task meets both. DEDUCED (log entry 102). -/
def State.noteDropped (s : State) (t : Task) (e : EventRec) : State :=
  let cause := e.w3 ||| ((s.tickEvent? 0x0401).map (·.w3)).getD 0
  let s := s.noteTask 0x0401 t.source t.unit e.w1 e.w2 cause 0
  match s.tickEvent? 0x0401 with
  | some x => s.setTickEvent { x with w3 := cause }
  | none => s

/-- Do the counts of a predictor_check task, the layer's, pass the test of R190 as it completes? -/
def State.predictorMiss (s : State) (e : EventRec) : Bool :=
  decide (s.obj oPredictorMinSamples ≤ e.w1) && decide (e.w2 * 65536 > s.obj oPredictorMissThreshold * e.w1)

/-- Counts what a completed task noted (Table 14.12): one record for each code. -/
def State.noteEnds (s : State) (t : Task) : State :=
  let first (code : Nat) : Option EventRec := t.ends.find? (·.code == code)
  let plain (s : State) (code : Nat) : State :=
    match first code with
    | some e => s.noteTask code t.source t.unit e.w1 e.w2 e.w3 0
    | none => s
  let s := match first 0x0401 with
    | some e => s.noteDropped t e
    | none => s
  let s := plain s 0x0302
  let s := if (first 0x0302).isSome then s.count oDriftTasks else s
  let s := (t.ends.filter fun e => e.code == 0x0302 && e.w4 != 0xFF).foldl (fun s e => s.pushFallback e.w2) s
  match (first 0x0404).filter s.predictorMiss with
  | none => s
  | some e =>
    match s.tickEvent? 0x0404 with
    | some old => if e.w3 < old.w3 then s.setTickEvent e else s
    | none => s.setTickEvent e

/-- Counts of every task that ends, faulted or not: clamps (R151), flushes (R84) and spills (R183). -/
def State.noteAlways (s : State) (t : Task) : State :=
  let s := if t.clamps = 0 then s
    else s.queueEvent (mkEvent 0x0402 t.source t.unit t.record (min t.clamps (2 ^ 32 - 1)) 0 0 0)
  let s := match t.ends.find? (·.code == 0x0403) with
    | some e => s.noteTask 0x0403 t.source t.unit e.w1 e.w2 e.w3 0
    | none => s
  if t.flushed then (s.noteTask 0x0301 t.source t.unit t.record 0 0 0).count oFlushTasks else s

/-- Adds the measured cycles to their counters. -/
def State.addTiming (s : State) (q : TaskTiming) : State :=
  let s := ((s.addObj oArrayStarvedCycles q.starved).addObj oArrayDrainWaitCycles q.drainWait).addObj
    oArrayRampCycles q.ramp
  let s := ((s.addObj oVectorLaneCycles q.lane).addObj oCoupledWaitCycles q.coupledWait).addObj
    oShadowWaitCycles q.shadowWait
  (s.addObj oHeldWriteCycles q.heldWrite).addObj oReadyWaitCycles q.readyWait

/-- Applies one signal entry. An undefined task's counter takes a free value (R6). A counter that passes 2^32 − 1 wraps, with
undefined results beyond the task (R46). -/
def State.signal (s : State) (undef : Bool) (e : Nat) : State :=
  if !flag e 31 then s
  else
    let k := field e 27 16
    let put (s : State) (v : Nat) : State :=
      { s with sched := { s.sched with counters := mapPut 0 s.sched.counters k v } }
    if undef then
      let (v, s) := s.takeFree 32
      put s v
    else
      let v := s.counter k + field e 15 0
      if v < 2 ^ 32 then put s v else put s.scrambleJob (v % 2 ^ 32)

/-- Ends one record of a task: its status, signals and credit (R41, R44, R50, R62). -/
def State.endRecord (s : State) (t : Task) (i r measured : Nat) : State :=
  let stale := decide (recEpoch r ≠ s.obj oPlacementEpoch)
  let status := if t.work = 2 then 2 else if stale then 3 else 1
  let s := (s.writeStatus i status measured).setOutcome i status
  let s := if status = 1 then (s.signal t.undef (recSignal r 0)).signal t.undef (recSignal r 1) else s
  if status = 2 ∨ recQueueIn r = 0xFF then s else s.setCredit (recQueueIn r) (s.credit (recQueueIn r) + 1)

/-- Has a coupled or delivering task done what its partners need? -/
def State.partnersDone (s : State) (t : Task) : Bool :=
  let mine := t.record :: t.members.map (·.1)
  (recKind t.image != 1 || mine.all fun i =>
    match s.task? (i + 1) with
    | some v => !(recKind v.image == 2 && vecCoupled v.image) || v.work != 0
    | none => true) &&
  (!delivers t.image || match s.holder? (t.record + 1) with
    | some m => recKind m.image != 1 || m.work != 0
    | none => true)

/-- Has every write and migration the task asked for ended (R44, R284)? -/
def State.settled (s : State) (r : Nat) : Bool :=
  s.mem.held.all (·.record != some r) && s.mem.asks.all (·.asker != some r) && s.mem.migrations.all (·.asker != some r)

/-- The phase of the tick at which a task ends, as its measured cycles say. -/
def State.endPhase (s : State) (t : Task) (measured : Nat) : Nat :=
  match t.running.map (·.2) with
  | [] => 0
  | a :: rest => rest.foldl min a + measured - s.sched.boundaryAclk

/-- Engines of a finished task leave it; an array with no other task has none from this phase on (R114). -/
def State.releaseEngines (s : State) (t : Task) (phase : Nat) : State :=
  let s := { s with sched := { s.sched with tasks := s.sched.tasks.filter (·.record != t.record) } }
  let s := { s with colls := { s.colls with tasks := s.colls.tasks.filter (·.record != t.record) } }
  if recKind t.image = 1 then
    (recEngines t.image).foldl (fun s e =>
      if s.sched.tasks.any fun u => u.uses .matrix e && (u.waiting.contains e || u.runs e) then s else s.setBusy e phase false) s
  else s

/-- Completes a task whose work has ended. -/
def State.complete (s : State) (t : Task) (q : TaskTiming) : State :=
  let s := s.addTiming q
  let s := t.records.foldl (fun s p => s.endRecord t p.1 p.2 q.measured) s
  let s := s.noteAlways t
  let s := if t.work = 1 then s.noteEnds t else s
  s.releaseEngines t (s.endPhase t q.measured)

/-- No cycles measured. -/
def noTiming : TaskTiming := ⟨0, 0, 0, 0, 0, 0, 0, 0, 0⟩

/-- Does another update task of the step share the group descriptor of record `r`, without exactly one of them that advances
it and waits on the counters of all the others (R216)? -/
def State.groupMisused (s : State) (r : Nat) : Bool :=
  let image (i : Nat) : Option Nat := s.peekRecord i
  let grp := (image r).map updGroup
  let all := ((List.range (s.obj oActiveRecords)).filterMap image).filter fun q =>
    recKind q == 6 && some (updGroup q) == grp && recEpoch q == s.obj oPlacementEpoch
  let waitsOn (q other : Nat) : Bool :=
    (List.range 4).any fun k => flag (recWait q k) 63 && (List.range 2).any fun j =>
      flag (recSignal other j) 31 && field (recSignal other j) 27 16 == field (recWait q k) 59 48
  match all.partition updAdvance with
  | ([a], others) => !others.all (waitsOn a)
  | (_, _) => decide (1 < all.length)

/-- What a task writes as it completes: an update task its group descriptor and shard (R216, R220). One whose step misuses
its group has undefined results beyond the task. -/
def finishTask (t : Task) : M Unit := do
  if recKind t.image = 6 ∧ t.work = 1 ∧ !t.undef then
    finishUpdate t
    if (← get).groupMisused t.record then mod State.scrambleJob

/-- TASK_COMPLETION (R44): a task whose work is done and whose writes have been accepted. -/
def execTaskCompletion (rec : Nat) (timing : TaskTiming) (s : State) : Host.Outcome State Fault Refusal :=
  match s.task? rec with
  | none => .next s
  | some t =>
    if recKind t.image = 0 ∨ !t.started ∨ t.work = 0 ∨ t.stuck ∨ !s.settled rec ∨ !s.partnersDone t then .next s
    else
      match (finishTask t).run s with
      | .error a s' => .next (s'.failTask t [] a)
      | .ok _ s' => .next (s'.complete t timing)

/-- Completes an admitted join (R42). -/
def State.endJoin (s : State) (t : Task) : State := if recKind t.image = 0 then s.complete t noTiming else s

/-- JOIN (R42). -/
def execJoin (rec : Nat) (s : State) : Host.Outcome State Fault Refusal :=
  match s.task? rec with
  | some t => .next (s.endJoin t)
  | none => .next s

/-! ### Release point (R51) -/

/-- RELEASE_POINT (R51): every transmission phase that is ready begins. -/
def execReleasePoint (s : State) : Host.Outcome State Fault Refusal :=
  .next { s with colls := { s.colls with tasks := s.colls.tasks.map fun c => { c with released := true } } }

/-! ### Steps (R54–R57, R226, R240, R339, R341, R343, R355) -/

/-- Has every record of the program run in this step (R54)? -/
def State.stepDone (s : State) : Bool :=
  s.running && s.sched.outcomes.length == s.obj oActiveRecords && s.sched.outcomes.all fun p => p.2 == 1 || p.2 == 3

/-- Credits at the capacities (R58). -/
def capacities (domain : Nat) : NatMap :=
  (List.range 255).filterMap fun q =>
    let v := (domain >>> (16 * q)) % 65536
    if v = 0 then none else some (q, v)

/-- Counters, credits and outcomes for a new step (Table 2.6). -/
def State.resetStep (s : State) : State :=
  { s with sched := { s.sched with
      counters := [], credits := capacities (s.obj oQueueCapacity), outcomes := [], slipped := [] } }

/-- A program whose records have been written since its commit has undefined results beyond the task (R59). -/
def State.settleRewrite (s : State) : State :=
  if s.sched.rewritten then
    let s := s.scrambleJob
    { s with sched := { s.sched with rewritten := false } }
  else s

/-- Latches the program of the next step: `program_base` and `program_records`, or the selected batch program (R343). -/
def State.latchProgram (s : State) : State :=
  let s := s.settleRewrite
  if s.obj oBatchSteerEnable = 1 then
    let e := batchEntry (s.obj oBatchPrograms) (s.obj oBatchSelect)
    let s := (s.setObj oActiveBase (field e 47 0)).setObj oActiveRecords (field e 95 64)
    (s.setObj oBatchActive (s.obj oBatchSelect)).setObj oMicrobatchesActive (field e 127 96)
  else (s.setObj oActiveBase (s.obj oProgramBase)).setObj oActiveRecords (s.obj oProgramRecords)

/-- Loads the steps to run of a newly committed program. -/
def State.loadSteps (s : State) : State :=
  { s.setObj oStepsRemaining (s.obj oProgramSteps) with
    sched := { s.sched with activeSteps := s.obj oProgramSteps, freshProgram := false, startAsked := false } }

/-- Steps of every stream, one on (R226). -/
def nextStreams (m : NatMap) : NatMap :=
  (List.range 2132).filterMap fun k =>
    let v := (mapGet 0 m k + 1) % 2 ^ 32
    if v = 0 then none else some (k, v)

/-- Does another created descriptor name memory of this one (R241)? -/
def State.sharesMemory (s : State) (addr : Nat) : Bool :=
  match s.peekDesc addr with
  | some d => s.mem.created.any fun p => p.1 != addr && (s.peekDesc p.1).any d.overlaps
  | none => false

/-- Rewrites one descriptor in its fall-back format (R240): undefined results, reach the job's windows, where another names
the same memory (R241; log entry 120). -/
def State.applyFallback (s : State) (addr : Nat) : State :=
  match (do
      let atom ← readNat schedInit .keep addr 64
      writeNat schedInit .keep addr 64 (setField (setField atom 47 40 (field atom 87 80)) 87 80 0xFF) : M Unit).run s with
  | .ok _ s' =>
    let s := s'.count oFallbacksApplied
    if s.sharesMemory addr then s.scrambleJob else s
  | .error _ s' => s'

/-- The fall-back list at a step boundary (R240). -/
def State.runFallbacks (s : State) : State :=
  let s := if s.obj oFallbackEnable = 1 then s.sched.fallback.foldl (fun s a => s.applyFallback a) s else s
  { s with sched := { s.sched with fallback := [] } }

/-- Leaves RUNNING for a state of Table 2.7. -/
def State.leaveRunning (s : State) (st : Nat) : State := (s.setObj oSchedulerState st).armVector 11

/-- The admission stop of a Dusk (R371). -/
def State.duskStop (s : State) : State :=
  if s.resil.duskStage = 0 then { s with resil := { s.resil with duskStage := 1 } } else s

/-- Begins a step at this boundary. -/
def State.beginStep (s : State) : State :=
  s.latchProgram.setObj oStepBaseTick s.tick

/-- What the step boundary does beside the scheduler: streams (R226), `job_step` (R355), the skew flag (R339), the sums of
squares (R341) and the fall-back list (R240). -/
def State.stepOthers (s : State) : State :=
  let num : Numerics := { s.num with streams := nextStreams s.num.streams }
  let colls : Colls := { s.colls with skew := false, noiseLocal := 0, noiseReduced := 0 }
  let s : State := { s with num := num, colls := colls }
  ((s.addObj oJobStep 1).setObj oSkewFlag 0).runFallbacks

/-- A newly committed program is no longer new. -/
def State.clearFresh (s : State) : State := 
  { s with sched := { s.sched with freshProgram := false, startAsked := false } }

/-- What follows the step just ended: the next step, or IDLE (Table 2.7). -/
def State.nextStep (s : State) : State :=
  let left := s.obj oStepsRemaining - 1
  let bounded := s.sched.activeSteps != 0
  let s := if bounded then s.setObj oStepsRemaining left else s
  if s.obj oProgramRun = 0 then (s.leaveRunning 0).clearFresh
  else if s.sched.freshProgram then s.loadSteps.beginStep
  else if bounded && left == 0 then s.leaveRunning 0
  else s.beginStep

/-- The step boundary (cycles 1–16 of Table 2.6), when its test has passed. -/
def State.passStep (s : State) : State :=
  let s := (s.resetStep.addObj oStepCounter 1).armVector 0
  let s := s.applyDue (·.dueStep (s.obj oStepCounter))
  let s := s.stepOthers
  (if 2 ≤ s.resil.dusk then s.duskStop else s).nextStep

/-- A commit of 0x2020 made in IDLE or HALTED (R57): a step begins with `program_run` 1; a halted step waits for its
tasks, and is abandoned. -/
def State.startProgram (s : State) : State :=
  if !(s.sched.freshProgram && s.sched.startAsked) then s
  else if s.obj oSchedulerState = 2 ∧ !s.sched.tasks.isEmpty then s
  else if s.obj oProgramRun = 0 then
    (s.setObj oSchedulerState 0).clearFresh
  else ((s.resetStep.loadSteps).setObj oSchedulerState 1).beginStep

/-- The step-boundary test, and the starts of R57. -/
def State.stepTest (s : State) : State :=
  if s.stepDone then s.passStep
  else if s.obj oSchedulerState = 0 ∨ s.obj oSchedulerState = 2 then s.startProgram
  else s

/-- A halt pending from the tick takes effect (R56). -/
def State.takeHalt (s : State) : State :=
  let h := s.sched.halt
  let s := { s with sched := { s.sched with halt := none } }
  match h with
  | some (cause, r) =>
    if s.running then ((s.setObj oHaltCause cause).setObj oHaltRecord r).leaveRunning 2 else s
  | none => s

/-! ### Slips (R52) -/

/-- The slip test at this counter value: the event of the tick, and the tasks counted. -/
def State.slipTest (s : State) : List EventRec × State :=
  if s.obj oSchedulerState ≠ 1 ∧ s.obj oSchedulerState ≠ 2 then ([], s)
  else
    let late := (List.range (s.obj oActiveRecords)).filterMap fun i =>
      if s.outcome i ≠ 0 ∨ s.sched.slipped.contains i then none
      else match s.peekRecord i with
        | some r => if s.obj oStepBaseTick + recDeadline r < s.tick then some (i, recStage r) else none
        | none => none
    match late with
    | [] => ([], s)
    | (i, stage) :: _ =>
      let s := { s.addObj oSlipCount late.length with
        sched := { s.sched with slipped := s.sched.slipped ++ late.map (·.1) } }
      ([mkEvent 0x0101 0 0 late.length i stage 0 0], s)

/-! ### The tick itself (R36, R314–R317) -/

/-- `offset` brought within half a period by whole ticks (R316). -/
def foldOffset (n : Nat) (offset : Int) : Int :=
  let p : Int := 2 ^ n * 16
  (offset + p / 2) % p - p / 2

/-- The length of the tick that begins, in ACLK (R314, R316). -/
def State.newLength (s : State) : Nat :=
  let n := s.obj oTickPeriodLog2
  match s.timing.corrective with
  | some o => ((2 ^ n : Nat) - roundOffset (foldOffset n o)).toNat
  | none =>
    if s.timing.synced then ((2 ^ n : Nat) - max (-16) (min 16 (roundOffset s.timing.offset))).toNat else 2 ^ n

/-- The counter increments, or first takes a larger value of the fabric's (R36, R316). After its last value it goes on from
0, for which the manual defines nothing. DESIGN CHOICE (log entry 103). -/
def State.advanceTick (s : State) : State :=
  let t := s.tick
  let (base, jumped) := match s.timing.jump with
    | some c => (max t c, decide (t < c))
    | none => (t, false)
  let s := s.setObj oTickCounter ((base + 1) % 2 ^ 64)
  let s := if jumped ∨ s.timing.corrective.isSome then s.count oTickJumps else s
  let s := { s with sched := { s.sched with boundaryAclk := s.sched.boundaryAclk + s.sched.tickLength } }
  let slew := decide (s.timing.synced ∧ s.timing.corrective.isNone ∧ s.timing.offset.natAbs > 64 * 16) && s.running
  let s := if slew then s.count oTimeSlewTicks else s
  { s with timing := { s.timing with jump := none } }

/-- Fixes the length of the tick that begins. -/
def State.setLength (s : State) : State :=
  let n := s.newLength
  { s with sched := { s.sched with tickLength := n }, timing := { s.timing with corrective := none } }

/-! ### Job tables (R437, R438) -/

/-- Everything the clearing of R437 writes with zero. -/
def State.clearAll (s : State) : State :=
  let s := s.clearSram fun _ => true
  { s.setObj oHashEntriesValid 0 with mem := { s.mem with
      cells := [], poison := [], cache := [], under := [], hash := [], spill := [] } }

/-- The boundary at which the tables are loaded, or the job ends. -/
def State.tableBoundary (s : State) : State :=
  let s := if s.obj oTableState = 1 ∧ !s.sec.clearing then
      let img := s.obj oTableImage
      let d := ofLe (sha384 (leBytes (objSize oTableImage) img))
      let s := s.clearAll
      (({ s with sec := { s.sec with image := some img } }.setObj oTableState 2).setObj oMeasurement5 d).setObj
        oTableDigest d
    else s
  if s.sec.unlock then
    let s := { s with sec := { s.sec with image := none, unlock := false } }
    (((s.freeAllPages).setObj oTableState 0).setObj oMeasurement5 0).setObj oTableDigest 0
  else s

/-! ### Power and temperature (R457–R462, R250) -/

/-- Crossings of one threshold: the events, and the sensors above it. -/
def crossings (temps : List Int) (threshold : Int) (above : List Nat) : List EventRec × List Nat :=
  temps.zipIdx.foldl (fun (p : List EventRec × List Nat) (q : Int × Nat) =>
    let e := mkEvent 0x0901 0x0E 0 q.2 (int32 q.1) (int32 threshold) 0 0
    if !p.2.contains q.2 ∧ threshold < q.1 then (p.1 ++ [e], setAdd q.2 p.2)
    else if p.2.contains q.2 ∧ q.1 ≤ threshold - 3 then (p.1 ++ [e], setDel q.2 p.2)
    else p) ([], above)

/-- Stacks at the doubled refresh rate (R250). -/
def doubled (temps : List Int) (old : Nat) : Nat :=
  (List.range 20).foldl (fun a k =>
    let t := temps.getD (68 + k) 0
    if 85 < t ∨ (flag old k ∧ 80 ≤ t) then a + 2 ^ k else a) 0

/-- What the sensors and the regulator showed over the tick that ends. -/
def State.readSensors (s : State) (env : TickEnv) : List EventRec × State :=
  let temps := env.temps.take 88
  let top (l : List Int) : Int := l.foldl max (l.headD 0)
  let (e1, warm) := crossings temps (s.obj oThermalWarnC) s.rst.warm
  let (e2, hot) := crossings temps 105 s.rst.hot
  let s := { s with rst := { s.rst with warm := warm, hot := hot } }
  let s := (s.setObj oTempMax (int32 (top temps))).setObj oTemperatures
    (ofLe (temps.flatMap fun t => leBytes 2 (ofSigned 16 t)))
  let s := (s.setObj oStackTempMax (int32 (top (temps.drop 68)))).setObj oRefreshDoubled
    (doubled temps (s.obj oRefreshDoubled))
  let s := ((s.setObj oPackagePowerW env.powerW).setObj oVcoreCurrentA env.currentA).setObj oVcoreMv env.vcoreMv
  let s := if env.regulatorFault then s.count oRegulatorFaults else s
  let s := (s.addObj oStackTurnrounds env.turnrounds).addObj oStackActivates env.activates
  (e1 ++ e2, s)

/-- Noon (R459, R461). -/
def State.noon (s : State) (env : TickEnv) : List EventRec × State :=
  let c := s.obj oNoonCap
  let s := if c < 8 then s.count oNoonTicks else s
  let p := fp32 env.powerW
  let ceiling := nNat (s.obj oPowerCeilingW)
  let hot := env.temps.any fun t => decide (105 < t)
  let c := if hot ∨ ltNum ceiling p then max (c - 1) 1
    else if c < 8 ∧ ltNum (exactMul (nNat 20) p) (exactMul (nNat 19) ceiling) then c + 1 else c
  let s := s.setObj oNoonCap c
  (if c < 8 then [mkEvent 0x0902 0x0E 0 (s.obj oPowerCeilingW) env.powerW (s.obj oNoonTicks) 0 0] else [], s)

/-! ### MSI-X (R403, R411) -/

/-- Word `k` of the MSI-X table: a vector is masked at reset. -/
def State.msixWord (s : State) (k : Nat) : Nat := mapGet (if k % 4 = 3 then 1 else 0) s.dict.msixTable k

/-- Sends a vector's message. -/
def State.sendVector (s : State) (v : Nat) : State :=
  s.emit (.msix (s.msixWord (4 * v) + 2 ^ 32 * s.msixWord (4 * v + 1)) (s.msixWord (4 * v + 2)))

/-- Signals the conditions that have arisen since the last boundary; a masked vector becomes pending. -/
def State.signalVectors (s : State) : State :=
  let conds := s.dict.msixConds
  let s := { s with dict := { s.dict with msixConds := 0 } }
  (List.range 15).foldl (fun s v =>
    if !(flag conds v && flag (s.obj oMsixEnable) v) then s
    else if s.msixWord (4 * v + 3) % 2 = 1 then
      { s with dict := { s.dict with msixPending := s.dict.msixPending ||| 2 ^ v } }
    else s.sendVector v) s

/-! ### Sticky clears (R85) -/

/-- Clears the flags written to `sticky_clear`. -/
def State.clearSticky (s : State) : State :=
  let mask := s.num.stickyClear.foldl (· ||| ·) 0 % 16
  { s with num := { s.num with
      stickyClear := []
      sticky := s.num.sticky.filterMap fun q =>
        let v := q.2 &&& (15 - mask)
        if v = 0 then none else some (q.1, v) } }

/-! ### Period, epoch, routes, batch (R38, R61, R307, R343) -/

/-- Is a period switch due at a counter value (R38)? -/
def State.periodDue (s : State) (tick : Nat) : Bool :=
  s.sched.periodNext.isSome && decide (s.obj oPeriodSwitchTick ≤ tick)

/-- Makes the new period the period in force. A RUNNING device does so all the same, with undefined results beyond the
task (R38). -/
def State.switchPeriod (s : State) : State :=
  match s.sched.periodNext with
  | some n =>
    let s := if s.running then s.scrambleJob else s
    { s.setObj oTickPeriodLog2 n with sched := { s.sched with periodNext := none } }
  | none => s

/-- PERIOD_SWITCH (R38): the switch due at the coming boundary. -/
def execPeriodSwitch (s : State) : Host.Outcome State Fault Refusal :=
  .next (if s.periodDue (s.tick + 1) then s.switchPeriod else s)

/-- Is the committed set of this group due at a counter value? -/
def CommitSet.dueFor (c : CommitSet) (g tick : Nat) : Bool := c.group == g && c.due tick

/-- EPOCH_SWITCH (R61): the switch due at the coming boundary. -/
def execEpochSwitch (s : State) : Host.Outcome State Fault Refusal :=
  .next (s.applyDue (·.dueFor 0x2050 (s.tick + 1)))

/-- ROUTE_SWITCH (R307): the switch due at the coming boundary. -/
def execRouteSwitch (s : State) : Host.Outcome State Fault Refusal :=
  .next (s.applyDue (·.dueFor 0x4110 (s.tick + 1)))

/-- BATCH_SWITCH (R343): the switch due at the coming step boundary, when the step is done. -/
def execBatchSwitch (s : State) : Host.Outcome State Fault Refusal :=
  if s.stepDone ∧ s.sched.halt.isNone then
    .next (s.applyDue fun c => c.group == 0x4210 && c.dueStep (s.obj oStepCounter + 1))
  else .next s

/-- STEP_TICK_LIMIT (R47): a step that has run for the limit without its boundary. -/
def execStepTickLimit (s : State) : Host.Outcome State Fault Refusal :=
  let limit := s.obj oStepTickLimit
  if limit ≠ 0 ∧ s.running ∧ s.sched.halt.isNone ∧ s.obj oStepBaseTick + limit ≤ s.tick then
    .next (s.taskFault 0 0 0xFFFFFFFF 0x08 0)
  else .next s

/-! ### The boundary -/

/-- What Dusk does at a boundary (R371): stops admission, or ends in QUIESCED. -/
def State.duskBoundary (s : State) : State :=
  if s.resil.duskStage = 3 ∧ s.obj oSchedulerState ≠ 3 then
    if s.running then s.leaveRunning 3 else s.setObj oSchedulerState 3
  else if s.resil.dusk = 1 ∨ (2 ≤ s.resil.dusk ∧ !s.running) then s.duskStop
  else s

/-- Does a committed set wait for the tasks of a halted step (R57)? -/
def State.setWaits (s : State) (c : CommitSet) : Bool :=
  c.group == 0x2020 && s.obj oSchedulerState == 2 && !s.sched.tasks.isEmpty

/-- The boundary's actions in the order of Table 2.6. -/
def State.boundary (s : State) (env : TickEnv) : State :=
  let s := s.sched.tasks.foldl (fun s t => s.endJoin t) s
  let s := (s.endArrays s.sched.tickLength).advanceTick
  let s := s.signalVectors
  let s := s.applyDue fun c => c.due s.tick && !s.setWaits c
  let s := if s.periodDue s.tick then s.switchPeriod else s
  let s := s.setLength.clearSticky.tableBoundary.flushCounts
  let s := s.takeHalt
  let clamped := (s.dict.tickEvents.filter fun e => e.code == 0x0402).length
  let s := s.addObj oClampTasks clamped
  let (slips, s) := s.slipTest
  let (heat, s) := s.readSensors env
  let (power, s) := s.noon env
  let s := (s.stepTest.raiseBoundary (slips ++ heat ++ power)).duskBoundary
  (if s.running ∧ s.resil.duskStage = 0 then s.admissionScan else s).prefetchAll

/-- TICK_BOUNDARY (R48). No tick passes in a reset. -/
def execTickBoundary (env : TickEnv) (s : State) : Host.Outcome State Fault Refusal :=
  .next (if s.rst.inReset then s else s.boundary env)

end Sys2Proof.Machine
end

