-- ==== Sys2Proof/Machine/Errors.lean ====
section
/-! DEFINITION. Error protection (R263–R266): the errors that scrubs and ordinary accesses meet. -/

namespace Sys2Proof.Machine

/-! ### Errors (R264, R265) -/

/-- The location code of a report (Table 10.8); `stack` is the one whose controller scrubs. -/
def State.eccLocation (s : State) (stack : Nat) (r : EccReport) : Nat :=
  let frame := stack * 65536 + r.frame % 65536
  let atom := r.atom % 32768
  match r.kind with
  | 1 =>
    let line := frame * 8192 + atom / 4
    1 <<< 60 + homeSlice line <<< 48 + (s.lineSet line % 1024 * 16 + r.way % 16) <<< 22 +
      (atom % 4 * 8 + r.word % 8) <<< 17 + bitOf r.double
  | 2 => 2 <<< 60 + (r.tile % 2048) <<< 48 + (r.word % 32) <<< 17 + bitOf r.double
  | _ => stackLocation frame atom r.double

/-- A corrected error (R264): counted, and noted for the tick's MEM_ECC_CORRECTED. -/
def State.corrected (s : State) (loc : Nat) : State :=
  let n := match s.tickEvent? 0x0A01 with
    | some e => e.w0
    | none => 0
  ((s.setObj oEccLastLocation loc).count oEccCorrected).setTickEvent
    (mkEvent 0x0A01 (eccSource loc) (field loc 59 48) (n + 1) loc 0 0 0)

/-- The task that consumes a word of a tile's SRAM, while it runs there. -/
def State.sramTask (s : State) (r : EccReport) : Option Task :=
  r.consumer.bind fun k => (s.task? k).filter fun t =>
    (recKind t.image == 1 || recKind t.image == 2) && t.work == 0 && t.runs (r.tile % 2048)

/-- An uncorrectable error (R265). In a stack or a slice it poisons the atom's data; in a tile's SRAM the task that
consumes the word faults. -/
def State.poisoned (s : State) (stack : Nat) (r : EccReport) (loc : Nat) : State :=
  if r.kind = 2 then
    match s.sramTask r with
    | some t => s.failTask t (s.taskOuts t) (.poison loc)
    | none => s.uncorrected loc 0xFFFFFFFF
  else
    let atom := nearPhys (stack * 65536 + r.frame % 65536) / 64 + r.atom % 32768
    { s with mem := { s.mem with poison := mapInsert s.mem.poison atom 0 } }.uncorrected loc 0xFFFFFFFF

/-- One error reported. -/
def State.scrubError (s : State) (stack : Nat) (r : EccReport) : State :=
  let loc := s.eccLocation stack r
  if r.double then s.poisoned stack r loc else s.corrected loc

/-- Poisoned atoms of a stack, which its scrub finds uncorrectable again (R266). -/
def State.poisonIn (s : State) (stack : Nat) : List Nat :=
  (s.mem.poison.map (·.1)).filter fun p => p * 64 / pageBytes / 65536 == stack

/-- SCRUB_PASS (R264, R266): the stack's controller reads every atom. The atoms poisoned before raise their events again,
those of the reports theirs. The table has no step for an error that an ordinary access meets, in a stack, a slice or a
tile's SRAM: such errors come among the reports. DESIGN CHOICE (log entry 92). -/
def execScrubPass (stack : Nat) (reports : List EccReport) (s : State) : Host.Outcome State Fault Refusal :=
  if stack ≥ 20 then .next s
  else
    let s := (s.poisonIn stack).foldl (fun s p => s.uncorrected (poisonLocation p) 0xFFFFFFFF) s
    .next (reports.foldl (fun s r => s.scrubError stack r) s)

end Sys2Proof.Machine
end

