-- ==== Sys2Proof/Machine/Collectives.lean ====
section
/-! DEFINITION. Collective tasks and their messages (R321–R349), and late peers (R363–R368). The rows of this family
that name a task are its local progress: they begin the task at its release point, send what may be sent, form what has
arrived, and end its work. -/

namespace Sys2Proof.Machine

/-! ### A task and its axis (Tables 12.1, 11.9; R322, R324) -/

/-- table. -/
def colTable (image : Nat) : Nat := recParam image 1023 976
/-- step_source. -/
def colStepSource (image : Nat) : Nat := recParam image 975 928
/-- root. -/
def colRoot (image : Nat) : Nat := recParam image 927 912
/-- experts_per_rank. -/
def colExperts (image : Nat) : Nat := recParam image 911 896
/-- tag. -/
def colTag (image : Nat) : Nat := recParam image 895 884
/-- op. -/
def colOp (image : Nat) : Nat := recParam image 883 876
/-- axis. -/
def colAxis (image : Nat) : Nat := recParam image 875 873
/-- reverse. -/
def colReverse (image : Nat) : Bool := flag image 872
/-- reshard. -/
def colReshard (image : Nat) : Bool := flag image 866

/-- A collective task with its axis and operands. `move` is how it moves: 1 ring, 2 full mesh, 3 tree. -/
structure CollCtx where
  t : Task
  axis : Nat
  size : Nat
  me : Nat
  base : Nat
  stride : Nat
  mask : Nat
  fwd : Nat
  kind : Nat
  move : Nat
  /-- its data is routed by R301, and not sent straight over the ports of its axis (Table 12.5, R365) -/
  routed : Bool
  src : Option Desc
  dst : Option Desc
  o2 : Option Desc
  o3 : Option Desc
  /-- the barriers of a snapshot task (R357) -/
  snap : Bool := false
deriving DecidableEq, Repr

/-- A snapshot task's record with the kind_params of its barriers: the job's, with the tag of the part (R357). -/
def midnightImage (image : Nat) : Nat :=
  image % 2 ^ 832 + Config.midnightTag.toNat <<< 884 + 8 <<< 876 + 7 <<< 873

/-- The context of a collective task. -/
def State.collCtx (s : State) (t : Task) : CollCtx :=
  let snap := recKind t.image == 7
  let t := if snap then { t with image := midnightImage t.image } else t
  let a := colAxis t.image
  let job := decide (a ≥ 6)
  let x := if job then 0 else s.obj (oAxis0 + a)
  let kind := if job then (if a = 7 then 2 else 0) else (s.obj oAxisTypes >>> (4 * a)) % 16
  let op := colOp t.image
  let size := if job then s.obj oRankCount else field x 63 48 + 1
  let move := if op = 8 then 3
    else if op = 4 ∨ op = 5 ∨ op = 7 ∨ size = 1 then 2
    else if (op = 1 ∨ op = 2) ∧ s.obj oStragglerMode = 1 then 2
    else kind
  { t := t, axis := a, size := size
    me := if job then s.obj oLogicalRank else field x 47 32
    base := if job then 0 else field x 31 16
    stride := if job then 1 else field x 15 0
    mask := field x 127 96, fwd := field x 95 64, kind := kind, move := move
    routed := decide (op = 4 ∨ op = 5 ∨ op = 7) || (decide (op = 1 ∨ op = 2) && s.obj oStragglerMode == 1)
    src := s.peekDesc (recOperand t.image 0), dst := s.peekDesc (recOperand t.image 1)
    o2 := s.peekDesc (recOperand t.image 2), o3 := s.peekDesc (recOperand t.image 3), snap := snap }

/-- Rank of a position (R324). -/
def CollCtx.rank (c : CollCtx) (j : Nat) : Nat := (c.base + j * c.stride) % 65536

/-- Position of a rank on the axis; its rank where it has none. -/
def CollCtx.pos (c : CollCtx) (r : Nat) : Nat := ((List.range c.size).find? fun j => c.rank j == r).getD r

/-- Every other position. -/
def CollCtx.others (c : CollCtx) : List Nat := (List.range c.size).filter (· != c.me)

/-- The neighbour of a direction: true for position + 1. -/
def CollCtx.next (c : CollCtx) (up : Bool) : Nat := if up then (c.me + 1) % c.size else (c.me + c.size - 1) % c.size

/-- Ports of a direction or of the tree's parent side. -/
def CollCtx.ports (c : CollCtx) (fwd : Bool) : Nat := if fwd then c.fwd else c.mask - (c.mask &&& c.fwd)

/-- Ports of the axis for full-mesh movement (R309, Table 12.5); 0 where the data is routed. -/
def CollCtx.straight (c : CollCtx) : Nat := if c.routed then 0 else c.mask

/-- Root of the tree: position root for a broadcast, else 0. -/
def CollCtx.root (c : CollCtx) : Nat := if colOp c.t.image = 6 then colRoot c.t.image else 0

/-- Position in the tree counted from its root. -/
def CollCtx.treePos (c : CollCtx) (j : Nat) : Nat := (j + c.size - c.root % c.size) % c.size

/-- Parent of a position in the tree (R332); none for the root. -/
def CollCtx.parent (c : CollCtx) (j : Nat) : Option Nat :=
  let v := c.treePos j
  if v = 0 then none else some (((v - 1) / 2 + c.root) % c.size)

/-- Children of this position, ascending. -/
def CollCtx.children (c : CollCtx) : List Nat :=
  let v := c.treePos c.me
  ([2 * v + 1, 2 * v + 2].filter fun w => decide (w < c.size)).map fun w => (w + c.root) % c.size

/-- The child of this position on the way down to `q`, within `fuel` steps. -/
def CollCtx.toward (c : CollCtx) : Nat → Nat → Option Nat
  | 0, _ => none
  | n + 1, q =>
    match c.parent q with
    | none => none
    | some p => if p = c.me then some q else c.toward n p

/-- Positions in the subtree of a position. -/
def CollCtx.subtree (c : CollCtx) (j : Nat) : List Nat :=
  (List.range c.size).filter fun q => q == j || (List.range c.size).any fun n =>
    ((List.range n).foldl (fun (x : Option Nat) _ => x.bind c.parent) (some q)) == some j

/-- Format and bytes of the destination's elements. -/
def CollCtx.fmt (c : CollCtx) : Nat := (c.dst.map (·.fmt)).getD 0x01
/-- Bytes of an element of the destination. -/
def CollCtx.eb (c : CollCtx) : Nat := fmtBytes c.fmt
/-- Elements of the full buffer: those of operand0 in a reduction. -/
def CollCtx.count (c : CollCtx) : Nat := (c.src.map (·.count)).getD 0
/-- Bytes of the full buffer in the reduction format. -/
def CollCtx.full (c : CollCtx) : Nat := c.count * c.eb
/-- Bytes of one chunk of a reduction. -/
def CollCtx.chunk (c : CollCtx) : Nat := c.full / c.size
/-- Bytes of the source as stored. -/
def CollCtx.srcBytes (c : CollCtx) : Nat := (c.src.map fun d => d.count * d.bytes).getD 0
/-- Bytes of the destination. -/
def CollCtx.dstBytes (c : CollCtx) : Nat := (c.dst.map fun d => d.count * d.bytes).getD 0

/-- The first half of a piece of `n` bytes (R332). -/
def firstHalf (n : Nat) : Nat := min n (ceilDiv n 32 * 16)

/-- Who reads a collective's local operands: the class of the lowest port of its axis, or of P(8h) (R433). -/
def CollCtx.reader (c : CollCtx) : Init :=
  let e := recFirst c.t.image
  let p := if c.axis ≥ 6 then 8 * e else ((List.range 32).find? (flag c.mask)).getD (8 * e)
  { cls := 0x10 + p, unit := p, tc := 2132 + e, epoch := some (recEpoch c.t.image), record := c.t.record }

/-- Who writes what arrives on a port; messages to itself write as its own reads. -/
def CollCtx.writer (c : CollCtx) (p : Nat) : Init :=
  if p < 32 then { portInit p with epoch := some (recEpoch c.t.image), record := c.t.record } else c.reader

/-! ### Progress -/

/-- The progress of a record. -/
def State.coll? (s : State) (r : Nat) : Option Coll := s.colls.tasks.find? (·.record == r)

/-- Changes the progress of a record. -/
def State.modColl (s : State) (r : Nat) (f : Coll → Coll) : State :=
  { s with colls := { s.colls with tasks := s.colls.tasks.map fun c => if c.record = r then f c else c } }

/-- Changes the progress of this task. -/
def CollCtx.upd (c : CollCtx) (f : Coll → Coll) : M Unit := mod fun s => s.modColl c.t.record f

/-- The progress of this task. -/
def CollCtx.coll (c : CollCtx) : M Coll := do return ((← get).coll? c.t.record).getD { record := c.t.record }

/-- Does the device hold a ready of a tag from a rank? -/
def State.readyHeld (s : State) (tag rank : Nat) : Bool := s.colls.readies.any fun r => r.tag == tag && r.rank == rank

/-- Owes a message. -/
def CollCtx.owe (c : CollCtx) (m : CollSend) : M Unit := do
  -- nothing more for an absent peer whose ready is missing (R365)
  let s ← get
  c.upd fun q =>
    if q.absent.contains m.rank && !s.readyHeld (colTag c.t.image) m.rank then q else { q with todo := q.todo ++ [m] }

/-- A map with an amount taken from a key. -/
def takeFrom (m : NatMap) (k n : Nat) : NatMap := mapPut 0 m k (mapGet 0 m k - n)

/-- A map with an amount added at a key. -/
def addTo (m : NatMap) (k n : Nat) : NatMap := mapPut 0 m k (mapGet 0 m k + n)

/-! ### Messages (Tables 12.3, 12.4; R326, R330) -/

/-- A collective header as 32 bytes. -/
def collHeader (word tag phase flags offset src norms : Nat) : List Byte :=
  leBytes 32 (word <<< 192 + (tag % 4096) <<< 180 + (phase % 16) <<< 176 + (flags % 256) <<< 168 +
    (offset % 2 ^ 40) <<< 128 + (src % 65536) <<< 112 + norms % 2 ^ 80)

/-- The UP port of a mask whose peer is the rank, with the most credits. -/
def State.axisPort (s : State) (mask rank vc : Nat) : Option Nat :=
  let ps := (List.range 32).filter fun p => flag mask p && s.linkUp p && s.obj (oPeerRank p) == rank
  s.bestChoice (ps.map fun p => (0, p, vc)) |>.map (·.1)

/-- VC of a message kind (Table 12.3): control on VC2, data on VC0. -/
def kindVc (kind : Nat) : Nat := if kind = 2 ∨ kind = 3 ∨ kind = 4 then 0 else 2

/-- Sends one message to a rank. -/
def State.sendMessage (s : State) (mask rank epoch kind axis : Nat) (data : List Byte) : State :=
  match s.axisPort mask rank (kindVc kind) with
  | some p => s.sendThrough p (kindVc kind) 0 rank epoch kind axis data
  | none => s.sendRouted (kindVc kind) 0 rank epoch kind axis data

/-- The pieces in which `n` bytes from `lo` on of a range of `len` bytes are sent: the range is split once into engine_count
parts, unit u handles part u (R326), and a message carries up to 16,352 bytes (R330). Log entry 44. -/
def unitPieces (units len lo n : Nat) : List (Nat × Nat) :=
  let part := max 16 (roundUp (ceilDiv len (max 1 units)) 16)
  (List.range (max 1 units)).flatMap fun u =>
    let a := max lo (u * part)
    let b := min (lo + n) ((u + 1) * part)
    (List.range (ceilDiv (b - a) 16352)).map fun k => (a + k * 16352, min 16352 (b - a - k * 16352))

/-- Owes a payload that lies from `lo` on in a range of `len` bytes, in the pieces its units send. -/
def CollCtx.oweParts (c : CollCtx) (len lo : Nat) (m : CollSend) : M Unit :=
  (unitPieces (recCount c.t.image) len lo m.data.length).forM fun (p : Nat × Nat) =>
    c.owe { m with offset := m.offset + (p.1 - lo), data := (m.data.drop (p.1 - lo)).take p.2 }

/-- Sends a message owed. -/
def CollCtx.send (c : CollCtx) (q : Coll) (m : CollSend) (s : State) : State :=
  let h := collHeader m.word (colTag c.t.image) q.phase m.flags m.offset c.me m.norms
  (s.sendMessage m.mask m.rank (recEpoch c.t.image) m.kind c.axis (h ++ m.data)).addObj oCollBytesSent m.data.length

/-- Sends everything owed to peers whose ready is held (R327), once the phase has been released (R51). -/
def CollCtx.flush (c : CollCtx) : M Unit := do
  let q ← c.coll
  if q.released then
    let s ← get
    let (go, stay) := q.todo.partition fun m => s.readyHeld (colTag c.t.image) m.rank
    c.upd fun q => { q with todo := stay }
    mod fun s => go.foldl (fun s m => c.send q m s) s

/-! ### Reductions (R331–R333) -/

/-- Bytes of codes. -/
def codeBytes (eb : Nat) (cs : List Nat) : List Byte := cs.flatMap (leBytes eb)

/-- Codes of bytes. -/
def bytesCodes (eb : Nat) (bs : List Byte) : List Nat := (chunks eb bs).map ofLe

/-- One rounded addition at a slice (R261). -/
def addCode (fmt a b : Nat) : Nat := atomicResult (.fadd fmt) (fmtBytes fmt) a b

/-- Adds codes at an element offset into sums, where nothing has been added yet at a `none`. -/
def overlayCodes (fmt : Nat) (acc : List (Option Nat)) (off : Nat) (cs : List Nat) : List (Option Nat) :=
  acc.zipIdx.map fun (p : Option Nat × Nat) =>
    if p.2 < off ∨ off + cs.length ≤ p.2 then p.1
    else
      let v := cs.getD (p.2 - off) 0
      some (match p.1 with
        | some a => addCode fmt a v
        | none => v)

/-- Sums of `n` elements over parts in order: element offsets and codes (R332). -/
def reduceParts (fmt n : Nat) (parts : List (Nat × List Nat)) : List (Option Nat) :=
  parts.foldl (fun acc p => overlayCodes fmt acc p.1 p.2) (List.replicate n none)

/-- Coordinates of a dense tensor in the order of its bytes. -/
def Desc.memOrder (d : Desc) : List (List Nat) :=
  sortBy (fun a b => decide (d.offset a ≤ d.offset b)) ((List.range d.count).map (coordOf d.dims))

/-- The context of a collective's reads by R118: it has no sticky flags and draws no random bits (R83, R230). -/
def CollCtx.ctx (c : CollCtx) : Ctx := mkCtx c.reader 2132 c.t.record c.t.image

/-- This device's contribution in the reduction format (R331). A value replaced by the flush marks the task (R84). -/
def CollCtx.contribution (c : CollCtx) (d : Desc) : M (List Nat) := do
  let flush := recFlush c.t.image
  let ts ← tensorScale c.ctx d
  d.memOrder.mapM fun co => do
    let code ← readCode c.ctx d co
    let sc ← readScaleCode c.ctx d co
    arith c.ctx (do convertTo c.fmt false false flush none (← toWorking flush d ts sc code))

/-- An atomic target of `n` bytes: far and absent pages refuse (R262, R331). -/
def checkTarget (va n : Nat) : M Unit :=
  (pieces va n).forM fun p => do
    let e := (← get).entry (p.1 / pageBytes)
    if entState e = 0 then
      mod fun s => s.count oAtomicRefusals
      absentPage p.1
    else if entState e = 2 then
      mod fun s => s.count oAtomicRefusals
      throw (.fault 0)

/-- Writes codes from element `e` of the destination on, as the first contributions there. -/
def CollCtx.put (c : CollCtx) (ini : Init) (e : Nat) (cs : List Nat) : M Unit := do
  match c.dst with
  | some d =>
    checkTarget (d.base + e * c.eb) (cs.length * c.eb)
    writeBytes ini .keep (d.base + e * c.eb) (codeBytes c.eb cs)
  | none => return ()

/-- Adds codes into the destination from element `e` on, at the slices (R260, R331). -/
def CollCtx.add (c : CollCtx) (ini : Init) (e : Nat) (cs : List Nat) : M Unit := do
  match c.dst with
  | some d => cs.zipIdx.forM fun (p : Nat × Nat) => do
    let _ ← atomic ini (.fadd c.fmt) (d.base + (e + p.2) * c.eb) c.eb p.1
    return ()
  | none => return ()

/-- Forms sums in the destination from element `e` on, `n` of them: of the parts in order, who writes, the offset and the
codes, the first to reach an element is written and each later one added (R331, R332). Elements that nothing reaches stay
as they were. -/
def CollCtx.addInto (c : CollCtx) (e n : Nat) (parts : List (Init × Nat × List Nat)) : M Unit := do
  let _ ← parts.foldlM (fun (seen : List Bool) (p : Init × Nat × List Nat) => do
    let cs := p.2.2.take (n - p.2.1)
    let old := (seen.drop p.2.1).take cs.length
    if old.all not then c.put p.1 (e + p.2.1) cs
    else if old.all id then c.add p.1 (e + p.2.1) cs
    else (cs.zip old).zipIdx.forM fun (q : (Nat × Bool) × Nat) =>
      if q.1.2 then c.add p.1 (e + p.2.1 + q.2) [q.1.1] else c.put p.1 (e + p.2.1 + q.2) [q.1.1]
    return seen.take p.2.1 ++ cs.map (fun _ => true) ++ seen.drop (p.2.1 + cs.length)) (List.replicate n false)
  return ()

/-- Additions that a slice performs on a partial sum that goes on to another position: they count, and the manual names no
operand in memory for them. DESIGN CHOICE (log entry 104). -/
def addsPassed (n : Nat) : M Unit := mod fun s => s.addObj oAtomicOps n

/-- Does the reduction use staging: deterministic, on a full mesh or a tree (Table 12.2)? -/
def CollCtx.staged (c : CollCtx) : Bool :=
  (colOp c.t.image == 1 || colOp c.t.image == 2) && recDeterministic c.t.image && c.move != 1 && decide (1 < c.size)

/-- Where a received contribution lies in the staging: after those of the senders before it, positions or children ascending.
The manual gives the staging's size and no layout. DESIGN CHOICE (log entry 104). -/
def CollCtx.stagePlace (c : CollCtx) (rank offset : Nat) : Nat :=
  if c.move = 3 then ((c.children.map c.rank).idxOf rank) * c.full + offset
  else (c.others.map c.rank).idxOf rank * c.chunk + (offset - c.me * c.chunk)

/-- Bytes of the staging. -/
def CollCtx.stageBytes (c : CollCtx) : Nat := (c.o2.map fun d => d.count * d.bytes).getD 0

/-- Writes a received contribution into the staging. -/
def CollCtx.stage (c : CollCtx) (ini : Init) (rank offset : Nat) (bs : List Byte) : M Unit := do
  match c.o2 with
  | some d =>
    let a := d.base + c.stagePlace rank offset
    checkTarget a bs.length
    writeBytes ini .keep a bs
  | none => return ()

/-- Writes bytes at an offset of the destination. -/
def CollCtx.place (c : CollCtx) (ini : Init) (offset : Nat) (bs : List Byte) : M Unit := do
  match (if colReshard c.t.image ∧ colOp c.t.image = 7 then c.o2 else c.dst) with
  | some d => writeBytes ini .pass (d.base + offset) bs
  | none => return ()

/-- Bytes of operand0 from an offset. -/
def CollCtx.read (c : CollCtx) (offset n : Nat) : M (List Byte) := do
  match c.src with
  | some d => readBytes c.reader .pass (d.base + offset) n
  | none => return []

/-- Codes of a byte range of this device's contribution. -/
def valRange (eb offset n : Nat) (vals : List Nat) : List Nat := (vals.drop (offset / eb)).take (n / eb)

/-- The word of a reduce message: this device's step with those met (R338). -/
def stepWord (st : Option (Nat × Nat)) : Nat :=
  match st with
  | some (lo, hi) => hi * 2 ^ 32 + lo
  | none => 0

/-- Steps of two parties together (R338). -/
def mergeSteps (a b : Option (Nat × Nat)) : Option (Nat × Nat) :=
  match a, b with
  | some x, some y => some (min x.1 y.1, max x.2 y.2)
  | some x, none => some x
  | none, y => y

/-- Steps named by a message's word, when the task carries them. -/
def CollCtx.wordSteps (c : CollCtx) (word : Nat) : Option (Nat × Nat) :=
  if colStepSource c.t.image = 0 ∨ colOp c.t.image ≠ 2 then none else some (word % 2 ^ 32, word / 2 ^ 32 % 2 ^ 32)

/-! ### Beginning a task -/

/-- The entries of a permute's mapping table (R346). -/
def CollCtx.mapping (c : CollCtx) : M (List Nat) := do
  let h ← readNat c.reader .keep (colTable c.t.image) 32
  (List.range (field h 255 224)).mapM fun i => readNat c.reader .keep (colTable c.t.image + 32 + 32 * i) 32

/-- Positions to which this device sends a ready (R327); a permute's ranks come from its table. -/
def CollCtx.readyPeers (c : CollCtx) : List Nat :=
  if colOp c.t.image = 4 ∨ colOp c.t.image = 5 ∨ c.move = 2 then c.others
  else if c.move = 1 then [c.next true, c.next false].eraseDups.filter (· != c.me)
  else c.children ++ (c.parent c.me).toList

/-- Begins a reduction (R332, Table 12.5). -/
def CollCtx.beginReduce (c : CollCtx) : M Unit := do
  match c.src with
  | none => throw .undefined
  | some d =>
    let vals ← c.contribution d
    c.upd fun q => { q with vals := vals }
    let w := stepWord (← c.coll).steps
    let cb := c.chunk
    let all := colOp c.t.image = 1
    let part (off n : Nat) : List Byte := codeBytes c.eb (valRange c.eb off n vals)
    match c.move with
    | 1 =>
      let h1 := firstHalf cb
      let (up, down) := (c.next true, c.next false)
      -- the halves that start here belong to the chunks of the positions behind
      c.oweParts cb 0 { rank := c.rank up, kind := 2, word := w, offset := down * cb, mask := c.ports true
                        data := part (down * cb) h1 }
      c.oweParts cb h1 { rank := c.rank down, kind := 2, word := w, offset := up * cb + h1, mask := c.ports false
                         data := part (up * cb + h1) (cb - h1) }
      let k := c.size - 1
      let waits := addTo (addTo [] (c.rank down) (k * h1)) (c.rank up) (k * (cb - h1))
      c.upd fun q => { q with awaitReduce := waits, awaitPlace := if all then waits else [] }
    | 3 =>
      c.upd fun q => { q with
        awaitReduce := c.children.foldl (fun m j => addTo m (c.rank j) c.full) []
        awaitPlace := match c.parent c.me with
          | some p => addTo [] (c.rank p) (if all then c.full else (c.subtree c.me).length * cb)
          | none => [] }
    | _ =>
      -- without the fixed order the own addend comes first, and the others as they arrive
      if !c.staged then
        c.put c.reader (if all then c.me * cb / c.eb else 0) (valRange c.eb (c.me * cb) cb vals)
      c.others.forM fun j =>
        c.oweParts cb 0 { rank := c.rank j, kind := 2, word := w, offset := j * cb, mask := c.straight
                          data := part (j * cb) cb }
      let waits := c.others.foldl (fun m j => addTo m (c.rank j) cb) []
      c.upd fun q => { q with awaitReduce := waits, awaitPlace := if all then waits else [] }

/-- Begins an all_gather: its own chunk is placed, and sent on its way (Table 12.5). -/
def CollCtx.beginGather (c : CollCtx) : M Unit := do
  match c.src with
  | none => throw .undefined
  | some _ =>
    let cb := c.srcBytes
    let bs ← c.read 0 cb
    let (fl, gen) := (← c.coll).mark
    c.place c.reader (c.me * cb) bs
    let m (j off : Nat) (mask : Nat) (data : List Byte) : CollSend :=
      { rank := c.rank j, kind := 3, word := gen, flags := fl, offset := off, mask := mask, data := data }
    match c.move with
    | 1 =>
      let h1 := firstHalf cb
      c.oweParts cb 0 (m (c.next true) (c.me * cb) (c.ports true) (bs.take h1))
      c.oweParts cb h1 (m (c.next false) (c.me * cb + h1) (c.ports false) (bs.drop h1))
      let k := c.size - 1
      let waits := addTo (addTo [] (c.rank (c.next false)) (k * h1)) (c.rank (c.next true)) (k * (cb - h1))
      c.upd fun q => { q with awaitPlace := waits }
    | 3 =>
      match c.parent c.me with
      | some p => c.oweParts cb 0 (m p (c.me * cb) (c.ports true) bs)
      | none => c.children.forM fun j => c.oweParts cb 0 (m j (c.me * cb) (c.ports false) bs)
      let up := c.children.foldl (fun a j => addTo a (c.rank j) ((c.subtree j).length * cb)) []
      let waits := match c.parent c.me with
        | some p => addTo up (c.rank p) (c.size * cb)
        | none => up
      c.upd fun q => { q with awaitPlace := waits }
    | _ =>
      c.others.forM fun j => c.oweParts cb 0 (m j (c.me * cb) c.straight bs)
      c.upd fun q => { q with awaitPlace := c.others.foldl (fun a j => addTo a (c.rank j) cb) [] }

/-- Begins an all_to_all (R334). -/
def CollCtx.beginAllToAll (c : CollCtx) : M Unit := do
  let cb := c.srcBytes / c.size
  let bs ← c.read 0 c.srcBytes
  c.place c.reader (c.me * cb) ((bs.drop (c.me * cb)).take cb)
  c.others.forM fun j =>
    c.oweParts cb 0 { rank := c.rank j, kind := 3, offset := c.me * cb, data := (bs.drop (j * cb)).take cb }
  c.upd fun q => { q with awaitPlace := c.others.foldl (fun a j => addTo a (c.rank j) cb) [] }

/-- Begins a broadcast (Table 12.5). -/
def CollCtx.beginBroadcast (c : CollCtx) : M Unit := do
  let n := c.dstBytes
  let h1 := firstHalf n
  if c.me = c.root then
    let bs ← c.read 0 n
    c.place c.reader 0 bs
    match c.move with
    | 1 =>
      c.oweParts n 0 { rank := c.rank (c.next true), kind := 3, mask := c.ports true, data := bs.take h1 }
      c.oweParts n h1 { rank := c.rank (c.next false), kind := 3, offset := h1, mask := c.ports false, data := bs.drop h1 }
    | 3 => c.children.forM fun j => c.oweParts n 0 { rank := c.rank j, kind := 3, mask := c.ports false, data := bs }
    | _ => c.others.forM fun j => c.oweParts n 0 { rank := c.rank j, kind := 3, mask := c.straight, data := bs }
  else
    let w : NatMap := match c.move with
      | 1 => addTo (addTo [] (c.rank (c.next false)) h1) (c.rank (c.next true)) (n - h1)
      | 3 => match c.parent c.me with
        | some p => [(c.rank p, n)]
        | none => []
      | _ => [(c.rank c.root, n)]
    c.upd fun q => { q with awaitPlace := w }

/-- Do the offsets and lengths of a mapping table break R323? -/
def mappingBroken (es : List Nat) : Bool :=
  es.any fun e => field e 175 136 % 16 != 0 || (!flag e 119 && (field e 255 216 % 16 != 0 || field e 215 176 % 16 != 0))

/-- Begins a permute (R346); the ranks that send to this device answer its readies. -/
def CollCtx.beginPermute (c : CollCtx) : M (List Nat) := do
  let es ← c.mapping
  if mappingBroken es then undefinedJob
  let self := (← get).obj oLogicalRank
  es.forM fun e => do
    if !flag e 119 then
      let bs ← c.read (field e 215 176) (field e 175 136)
      if field e 135 120 = self then c.place c.reader (field e 255 216) bs
      else c.oweParts bs.length 0 { rank := field e 135 120, kind := 3, offset := field e 255 216, data := bs }
  let ins := es.filter fun e => flag e 119 && field e 135 120 != self
  c.upd fun q => { q with awaitPlace := ins.foldl (fun a e => addTo a (field e 135 120) (field e 175 136)) [] }
  return (ins.map fun e => field e 135 120).eraseDups

/-- The route table of a dispatch: offset and count of each expert (R165). -/
def CollCtx.routeTable (c : CollCtx) : M (List (Nat × Nat)) := do
  match c.o2 with
  | none => throw .undefined
  | some d => return (← readTable c.ctx d (← tensorScale c.ctx d)).map fun p => (p.1.toNat, p.2.toNat)

/-- Experts of a position (R335). -/
def CollCtx.experts (c : CollCtx) (j : Nat) (table : List (Nat × Nat)) : List (Nat × Nat) :=
  (table.drop (j * colExperts c.t.image)).take (colExperts c.t.image)

/-- Row bytes of operand0 of an all_to_allv. -/
def CollCtx.rowBytes (c : CollCtx) : Nat := (c.src.map fun d => d.dim 0 * d.bytes).getD 0

/-- Reads row `r` of operand0, its number clamped to the rows there are (R150, R151). -/
def CollCtx.readRow (c : CollCtx) (r : Nat) : M (List Byte) := do
  match c.src with
  | some d =>
    let v ← clampDim c.ctx d d.rows r
    c.read (v * c.rowBytes) c.rowBytes
  | none => return []

/-- Begins the first phase of a dispatch: the counts (R335). -/
def CollCtx.beginDispatch (c : CollCtx) : M Unit := do
  let table ← c.routeTable
  let counts (j : Nat) : List Nat := (c.experts j table).map (·.2)
  c.others.forM fun j =>
    let bs := (counts j).flatMap (leBytes 4)
    c.oweParts bs.length 0 { rank := c.rank j, kind := 4, data := bs }
  c.upd fun q => { q with tokens := c.others.map c.rank, counts := q.counts ++ [⟨c.rank c.me, 32, 0, counts c.me⟩] }

/-- The counts a rank has sent, in the order of the experts. -/
def countsOf (q : Coll) (rank : Nat) : List Nat :=
  (sortBy (fun a b => decide (a.offset ≤ b.offset)) (q.counts.filter (·.rank == rank))).flatMap (·.codes)

/-- Rows that a device receives from each position (Table 12.7): first row and rows. -/
def CollCtx.received (c : CollCtx) (q : Coll) : List (Nat × Nat) :=
  let ns := (List.range c.size).map fun i => (countsOf q (c.rank i)).foldl (· + ·) 0
  ns.zipIdx.map fun p => ((ns.take p.2).foldl (· + ·) 0, p.1)

/-- Rows of the destination (d1). -/
def CollCtx.dstRows (c : CollCtx) : Nat := (c.dst.map (·.rows)).getD 0

/-- Writes received rows at their place, dropping those past the destination (R335). -/
def CollCtx.placeRows (c : CollCtx) (ini : Init) (first offset : Nat) (bs : List Byte) : M Unit := do
  let rb := max 1 c.rowBytes
  let start := first * rb + offset
  let room := c.dstRows * rb
  c.place ini start (bs.take (room - start))
  let lost := ceilDiv (start + bs.length) rb - max (ceilDiv start rb) c.dstRows
  if lost ≠ 0 then
    mod fun s => s.addObj oA2aOverflowRows lost
    c.upd fun q => { q with overflow := q.overflow + lost }

/-- Begins the second phase of a dispatch once every count is in (R335): the receive table, the ids, and the rows. From
2^24 rows on the results are undefined. -/
def CollCtx.beginRows (c : CollCtx) : M Unit := do
  let q ← c.coll
  let rs := c.received q
  let total := (rs.map (·.2)).foldl (· + ·) 0
  undefinedIf (decide (2 ^ 24 ≤ total))
  let f32 (n : Nat) : List Byte := leBytes 4 (fp32Code (nNat n))
  match c.o3 with
  | some d => writeBytes c.reader .keep d.base ((rs.flatMap fun p => f32 p.1 ++ f32 p.2) ++ f32 total ++ f32 total)
  | none => pure ()
  match (← get).peekDesc (colTable c.t.image) with
  | some d =>
    let ids := (List.range c.size).flatMap fun i =>
      (countsOf q (c.rank i)).zipIdx.flatMap fun p => List.replicate p.1 p.2
    writeBytes c.reader .keep d.base ((ids.take d.count).flatMap f32)
  | none => pure ()
  let table ← c.routeTable
  let rb := c.rowBytes
  (List.range c.size).forM fun j => do
    let rows := (c.experts j table).flatMap fun e => span e.1 e.2
    let bs := (← rows.mapM c.readRow).flatten
    if j = c.me then c.placeRows c.reader ((rs.getD j (0, 0)).1) 0 bs
    else c.oweParts bs.length 0 { rank := c.rank j, kind := 3, data := bs }
  let waits : NatMap := c.others.foldl (fun a i => addTo a (c.rank i) ((rs.getD i (0, 0)).2 * rb)) []
  c.upd fun q => { q with phase := 1, released := false, awaitPlace := waits, early := [] }
  -- rows that came first find their place now
  q.early.forM fun (x : EarlyRows) => do
    c.upd fun q => { q with awaitPlace := takeFrom q.awaitPlace x.rank x.bytes.length }
    c.placeRows (c.writer x.port) ((rs.getD (c.pos x.rank) (0, 0)).1) x.offset x.bytes

/-- Packed rows to which the rows returned by position `j` go, in order (R336). -/
def CollCtx.packedRows (c : CollCtx) (j : Nat) (table : List (Nat × Nat)) : List Nat :=
  (c.experts j table).flatMap fun e => span e.1 e.2

/-- Writes returned rows at their packed places, each clamped to the rows of the destination (R150, R336). -/
def CollCtx.placePacked (c : CollCtx) (ini : Init) (j offset : Nat) (bs : List Byte) (table : List (Nat × Nat)) :
    M Unit := do
  let rb := max 1 c.rowBytes
  let rows := c.packedRows j table
  -- byte ranges of one row each
  let lo := offset / rb
  (List.range (ceilDiv (offset + bs.length) rb - lo)).forM fun k => do
    let q := lo + k
    let a := max offset (q * rb)
    let b := min (offset + bs.length) ((q + 1) * rb)
    match rows[q]?, c.dst with
    | some r, some d =>
      let v ← clampDim c.ctx d d.rows r
      c.place ini (v * rb + (a - q * rb)) ((bs.drop (a - offset)).take (b - a))
    | _, _ => pure ()

/-- Begins a combine (R336). -/
def CollCtx.beginCombine (c : CollCtx) : M Unit := do
  let table ← c.routeTable
  let rb := c.rowBytes
  match c.o3 with
  | none => throw .undefined
  | some d =>
    let ts ← tensorScale c.ctx d
    let rs ← (List.range c.size).mapM fun i => do
      return ((← gatherIndex c.ctx d ts (2 * i)).toNat, (← gatherIndex c.ctx d ts (2 * i + 1)).toNat)
    rs.zipIdx.forM fun (p : (Nat × Nat) × Nat) => do
      let bs := (← (span p.1.1 p.1.2).mapM c.readRow).flatten
      if p.2 = c.me then c.placePacked c.reader p.2 0 bs table
      else c.oweParts bs.length 0 { rank := c.rank p.2, kind := 3, data := bs }
    c.upd fun q => { q with
      awaitPlace := c.others.foldl (fun a j => addTo a (c.rank j) ((c.packedRows j table).length * rb)) [] }

/-- Begins a barrier: its children and its parent are awaited (R340). -/
def CollCtx.beginBarrier (c : CollCtx) : M Unit :=
  c.upd fun q => { q with tokens := (c.children ++ (c.parent c.me).toList).map c.rank }

/-! ### The start of a task (R323–R325, R338, R344) -/

/-- Does R324 turn the task away? -/
def CollCtx.refused (c : CollCtx) : Bool :=
  let op := colOp c.t.image
  op == 0 || decide (8 < op) || c.kind == 0 || decide (3 < c.kind) || (c.axis == 7 && op != 7 && op != 8)

/-- Does a task whose operands are as they are break R323, as far as one device can see: what the peers name it cannot? -/
def CollCtx.broken (c : CollCtx) : Bool :=
  let op := colOp c.t.image
  let p := max 1 c.size
  let named := [c.src, c.dst, c.o2, c.o3].filterMap id
  let fmtOk := (c.fmt == 0x01 || c.fmt == 0x02 || c.fmt == 0x0D) && c.dst.all fun d => d.scaleMode == 0
  let rowOk := c.src.all fun a => c.dst.all fun b => a.dim 0 == b.dim 0 && a.fmt == b.fmt
  !named.all Desc.dense ||
    (match op with
      | 1 => !fmtOk || c.count % p != 0 || c.chunk % 16 != 0 || c.dst.any fun d => d.count != c.count
      | 2 => !fmtOk || c.count % p != 0 || c.chunk % 16 != 0 || c.dst.any fun d => d.count * p != c.count
      | 3 => c.srcBytes % 16 != 0 || c.dstBytes != c.srcBytes * p
      | 4 => c.count % p != 0 || c.srcBytes / p % 16 != 0 || c.dstBytes != c.srcBytes
      | 5 => c.rowBytes % 16 != 0 || !rowOk
      | 6 => c.me == c.root && c.srcBytes != c.dstBytes
      | _ => false)

/-- The operands an op needs (Table 12.2): one that is not named leaves the results undefined (log entry 16). -/
def CollCtx.complete (c : CollCtx) : Bool :=
  match colOp c.t.image with
  | 1 | 2 => c.src.isSome && c.dst.isSome && (!c.staged || c.o2.isSome)
  | 3 | 4 => c.src.isSome && c.dst.isSome
  | 5 => c.src.isSome && c.dst.isSome && c.o2.isSome && c.o3.isSome
  | 6 => c.dst.isSome && (c.me != c.root || c.src.isSome)
  | 7 => c.src.isSome && (if colReshard c.t.image then c.o2.isSome else c.dst.isSome)
  | _ => true

/-- Notes the shard's generation as an all_gather starts (R344): the flags and word of its messages. -/
def CollCtx.shardCheck (c : CollCtx) (d : Desc) : M Unit := do
  if d.shard then
    let comp := d.addr + 128
    if flag c.t.image 871 then writeNat c.reader .keep (comp + 12) 4 d.shardGen
    let old ← readNat c.reader .keep (comp + 12) 4
    let differs := decide (flag c.t.image 870 ∧ old ≠ d.shardGen)
    c.upd fun q => { q with
      changed := if differs then some (c.me, old, d.shardGen) else q.changed
      mark := (if differs then 4 else 0, d.shardGen) }

/-- Another collective task of the tag that has started and whose work goes on (R325). -/
def State.tagClash (s : State) (t : Task) : Option Task :=
  s.sched.tasks.find? fun u => u.record != t.record && recKind u.image == 5 && u.work == 0 &&
    colTag u.image == colTag t.image && (s.coll? u.record).isSome

/-- The debts and carried payloads of a tag are those of earlier tasks now (R366, R367). -/
def State.disown (s : State) (tag : Nat) : State :=
  { s with colls := { s.colls with
      debts := s.colls.debts.map fun d => if d.tag = tag then { d with own := false } else d
      carried := s.colls.carried.map fun k => if k.tag = tag then { k with own := false } else k } }

/-- What a collective task does as its engines start it: it is turned away (R324); it reads its operands (R146), and is
undefined beyond the task where they break R323 or another task runs under its tag (R325); and it notes s (R338) and the
shard's generation (R344). -/
def CollCtx.start (c : CollCtx) : M Unit := do
  if c.refused then throw (.fault 0)
  mod fun s => s.disown (colTag c.t.image)
  match (← get).tagClash c.t with
  | some u =>
    mod fun s => s.modTask u.record fun v => { v with undef := true }
    undefinedJob
  | none => pure ()
  if colOp c.t.image ≠ 8 then
    (((List.range 4).map (recOperand c.t.image) ++ (if colOp c.t.image = 5 then [colTable c.t.image] else [])).filter
      (· != 0)).forM fun a => do
        let _ ← fetchDesc c.ctx a
        return ()
    if c.broken then undefinedJob
    undefinedIf (!c.complete)
  if colOp c.t.image = 2 ∧ colStepSource c.t.image ≠ 0 then
    let g ← readNat c.reader .keep (colStepSource c.t.image) 128
    c.upd fun q => { q with steps := some (grpStep g, grpStep g), ownStep := grpStep g }
  if colOp c.t.image = 3 then
    match c.src with
    | some d => c.shardCheck d
    | none => pure ()

/-- Begins a task whose first phase a release point has released (R327). -/
def CollCtx.begin (c : CollCtx) : M Unit := do
  c.upd fun q => { q with begun := true }
  let peers ← match colOp c.t.image with
    | 1 | 2 => do c.beginReduce; pure (c.readyPeers.map c.rank)
    | 3 => do c.beginGather; pure (c.readyPeers.map c.rank)
    | 4 => do c.beginAllToAll; pure (c.readyPeers.map c.rank)
    | 5 => do
      if colReverse c.t.image then c.beginCombine else c.beginDispatch
      pure (c.readyPeers.map c.rank)
    | 6 => do c.beginBroadcast; pure (c.readyPeers.map c.rank)
    | 7 => c.beginPermute
    | _ => do c.beginBarrier; pure (c.readyPeers.map c.rank)
  let q ← c.coll
  mod fun s => peers.foldl (fun s r => c.send q { rank := r, kind := 1, flags := q.mark.1 } s) s

/-! ### Forming sums (R332, R340) -/

/-- The order of contributions: this device's at its place when `det`, else first and then as they arrived. -/
def CollCtx.ordered (c : CollCtx) (q : Coll) (det : Bool) (first last : List Nat) : List Piece :=
  if det then
    let by_ (j : Nat) : List Piece := q.pieces.filter fun p => c.pos p.rank == j
    (first.flatMap by_) ++ (⟨c.rank c.me, 32, 0, []⟩ : Piece) :: last.flatMap by_
  else (⟨c.rank c.me, 32, 0, []⟩ : Piece) :: q.pieces

/-- Forms t of this position of a tree (R332): sent up, or at the root written and sent down. -/
def CollCtx.formTree (c : CollCtx) (q : Coll) : M Unit := do
  let op := colOp c.t.image
  let cb := c.chunk
  let parts := (c.ordered q (recDeterministic c.t.image) [] c.children).map fun p =>
    (p.port, if p.codes.isEmpty then (0, q.vals) else (p.offset / c.eb, p.codes))
  let bytes := codeBytes c.eb ((reduceParts c.fmt c.count (parts.map (·.2))).map (·.getD 0))
  let chunkOf (k : Nat) : List Byte := (bytes.drop (k * cb)).take cb
  let who (port : Nat) : Init := if c.staged then c.reader else c.writer port
  match c.parent c.me with
  | some p =>
    addsPassed ((q.pieces.map (·.codes.length)).foldl (· + ·) 0)
    (List.range c.size).forM fun k =>
      c.oweParts cb 0 { rank := c.rank p, kind := 2, word := stepWord q.steps, offset := k * cb, mask := c.ports true
                        data := chunkOf k }
  | none =>
    let n := if op = 1 then c.count else cb / c.eb
    addsPassed ((q.pieces.map fun p => p.codes.length - (n - p.offset / c.eb)).foldl (· + ·) 0)
    c.addInto 0 n (parts.map fun p => (who p.1, p.2.1, p.2.2))
    if op = 1 then
      c.children.forM fun j => (List.range c.size).forM fun k =>
        c.oweParts cb 0 { rank := c.rank j, kind := 3, offset := k * cb, mask := c.ports false, data := chunkOf k }
    else
      c.others.forM fun j => match c.toward c.size j with
        | some k => c.oweParts cb 0 { rank := c.rank k, kind := 3, offset := j * cb, mask := c.ports false
                                      data := chunkOf j }
        | none => pure ()

/-- Forms the sums of this position's chunk on a full mesh (R332): in the fixed order from the staging, else they have been
formed as the addends came. An all_reduce sends them to every position. -/
def CollCtx.formMesh (c : CollCtx) (q : Coll) : M Unit := do
  let cb := c.chunk
  let own := valRange c.eb (c.me * cb) cb q.vals
  let parts := (c.ordered q (recDeterministic c.t.image) (List.range c.me) (span (c.me + 1) (c.size - c.me - 1))).map
    fun p => if p.codes.isEmpty then (0, own) else ((p.offset - c.me * cb) / c.eb, p.codes)
  if c.staged then
    c.addInto (if colOp c.t.image = 1 then c.me * cb / c.eb else 0) (cb / c.eb) (parts.map fun p => (c.reader, p.1, p.2))
  if colOp c.t.image = 1 then
    let bytes := codeBytes c.eb ((reduceParts c.fmt (cb / c.eb) parts).map (·.getD 0))
    c.others.forM fun j =>
      c.oweParts cb 0 { rank := c.rank j, kind := 3, offset := c.me * cb, mask := c.straight, data := bytes }

/-- Forms this position's sums when every contribution awaited is in. -/
def CollCtx.form (c : CollCtx) : M Unit := do
  let q ← c.coll
  if (colOp c.t.image = 1 ∨ colOp c.t.image = 2) ∧ c.move ≠ 1 ∧ q.begun ∧ !q.reduced ∧ q.awaitReduce.isEmpty then
    c.upd fun q => { q with reduced := true }
    if c.move = 3 then c.formTree q else c.formMesh q

/-- A40 sum. -/
def addA40 (a b : Nat) : Nat := a40Code (exactAdd (a40 a) (a40 b))

/-- The flags and norms of this position with those of its children, in order (R340, R332). The exit barrier of a
Midnight carries the OR of the failure flags (R357) in bit [0] (log entry 46). -/
def CollCtx.barrierSums (c : CollCtx) (q : Coll) (s : State) : Nat × Nat :=
  let skew := flag c.t.image 868
  let norms := flag c.t.image 867
  let ups := c.children.filterMap fun j => q.ups.find? fun u => u.rank == c.rank j && u.phase == q.phase
  let fl := bitOf (skew && (s.obj oSkewFlag == 1 || ups.any fun u => flag u.flags 0)) + 2 * bitOf norms
  if c.snap then
    let mine := match s.resil.midnight with
      | some m => q.phase == 1 && !m.twin && !m.far
      | none => false
    (bitOf (mine || ups.any fun u => flag u.flags 0), 0)
  else if norms then
    let (a, b) := ups.foldl (fun (p : Nat × Nat) u => (addA40 p.1 (field u.norms 79 40), addA40 p.2 (field u.norms 39 0)))
      (s.colls.noiseLocal, s.colls.noiseReduced)
    (fl, a * 2 ^ 40 + b)
  else (fl, 0)

/-- The barrier_down messages to the children. -/
def CollCtx.sendDown (c : CollCtx) (release flags norms : Nat) : M Unit :=
  c.children.forM fun j => c.owe { rank := c.rank j, kind := 6, word := release, flags := flags, norms := norms }

/-- Sends barrier_up, or at the root fixes the release tick, once every child has been heard (R340). -/
def CollCtx.barrierUp (c : CollCtx) : M Unit := do
  let q ← c.coll
  if colOp c.t.image = 8 ∧ q.begun ∧ !q.reduced ∧ c.children.all fun j => !q.tokens.contains (c.rank j) then
    let s ← get
    let (fl, norms) := c.barrierSums q s
    c.upd fun q => { q with reduced := true }
    match c.parent c.me with
    | some p => c.owe { rank := c.rank p, kind := 5, flags := fl, norms := norms }
    | none =>
      let release := s.tick + s.obj oBarrierMarginTicks
      c.upd fun q => { q with totals := (fl, norms), release := some release }
      c.sendDown release fl norms

/-! ### The end of a task -/

/-- Squares summed in A40 in element order (R341; log entry 45). -/
def sumSquares (fmt : Nat) (vs : List Nat) (start : Nat) : Nat :=
  vs.foldl (fun a v =>
    let x := (floatFmt? fmt).elim .nan fun f => decodeFloat f (v % 2 ^ fmtWidth f)
    a40Code (exactAdd (a40 a) (exactMul x x))) start

/-- Codes of a unit's part of each chunk (R326). -/
def unitCodes (eb units cb u : Nat) (vs : List Nat) : List Nat :=
  let part := roundUp (ceilDiv cb (max 1 units)) 16 / eb
  (chunks (cb / eb) vs).flatMap fun c => (c.drop (u * part)).take part

/-- A sum of squares over units in ascending order (R341). -/
def unitSquares (fmt eb units cb : Nat) (vs : List Nat) (start : Nat) : Nat :=
  (List.range units).foldl (fun a u => addA40 a (sumSquares fmt (unitCodes eb units cb u vs) 0)) start

/-- What a reduce_scatter does at its completion: noise sums (R341), the companion record (R338) and the skew flag
(R339). -/
def CollCtx.endScatter (c : CollCtx) : M Unit := do
  let q ← c.coll
  let units := recCount c.t.image
  if flag c.t.image 869 then
    match c.dst with
    | some d =>
      let out := bytesCodes c.eb (← readBytes c.reader .pass d.base c.chunk)
      mod fun s => { s with colls := { s.colls with
        noiseLocal := unitSquares c.fmt c.eb units c.chunk q.vals s.colls.noiseLocal
        noiseReduced := unitSquares c.fmt c.eb units c.chunk out s.colls.noiseReduced } }
    | none => pure ()
  match q.steps with
  | some (lo, hi) =>
    writeBytes c.reader .keep (recOperand c.t.image 1 + 128) (leBytes 4 lo ++ leBytes 4 hi ++ leBytes 4 c.size)
    if lo ≠ hi ∨ lo ≠ q.ownStep then mod fun s => s.setObj oSkewFlag 1
  | none => pure ()

/-- Adds the payloads carried for the tag into the destination; those that the task itself left behind wait for the next one
(R367). -/
def CollCtx.addCarried (c : CollCtx) : M Unit := do
  let use (k : Carried) : Bool := k.tag == colTag c.t.image && !k.own
  let mine := sortBy (fun a b => decide (a.position ≤ b.position)) ((← get).colls.carried.filter use)
  mod fun s => { s with colls := { s.colls with carried := s.colls.carried.filter fun k => !use k } }
  match c.dst with
  | none => return ()
  | some d =>
    mine.forM fun k => do
      let off := if colOp c.t.image = 2 then k.offset - c.me * c.chunk else k.offset
      (bytesCodes c.eb k.bytes).zipIdx.forM fun (p : Nat × Nat) => do
        let _ ← atomic c.reader (.fadd c.fmt) (d.base + off + p.2 * c.eb) c.eb p.1
        pure ()

/-- A page-map entry with the location, and its state, of another. -/
def backedBy (e f : Nat) : Nat := setField (setField e 23 0 (entLocation f)) 63 62 (entState f)

/-- Exchanges the backing of two allocations of a reshard, page by page (R347). Pages that are not all near keep their states
with their locations (log entry 108). -/
def State.exchange (s : State) (a b : Nat) : State :=
  match mapFind s.mem.slots (entSlot (s.entry (a / pageBytes))), mapFind s.mem.slots (entSlot (s.entry (b / pageBytes))) with
  | some x, some y =>
    let s := s.flushCounts.count oShootdowns
    let s := { s with mem := { s.mem with tcaches := [] } }
    (List.range (2 ^ min x.order y.order)).foldl (fun s i =>
      let (p, q) := (x.base / pageBytes + i, y.base / pageBytes + i)
      let (e, f) := (s.entry p, s.entry q)
      (s.setEntry p (backedBy e f)).setEntry q (backedBy f e)) s
  | _, _ => s

/-- Removes the first ready of a tag and rank. -/
def dropReady (tag rank : Nat) : List Ready → List Ready
  | [] => []
  | r :: rest => if r.tag = tag ∧ r.rank = rank then rest else r :: dropReady tag rank rest

/-- Consumes one ready of each rank that sent one for the task (R328). -/
def State.useReadies (s : State) (tag : Nat) : State :=
  let ranks := ((s.colls.readies.filter (·.tag == tag)).map (·.rank)).eraseDups
  { s with colls := { s.colls with readies := ranks.foldl (fun l r => dropReady tag r l) s.colls.readies } }

/-- SHARD_CHANGED (R345): status 0x2 and the halt of R56. -/
def State.shardChanged (s : State) (t : Task) (position old new : Nat) : State :=
  (((s.setTask { t with work := 2 }).count oShardChangedCount).raise 0x0502 t.source t.unit (colTag t.image) position old
    new).haltWith 0x0502 t.record

/-- The estimate of R342 in binary64 from the two totals. -/
def State.noiseEstimate (s : State) (l r : Num) : State :=
  let b := nNat (s.obj oNoiseExamplesPerDevice)
  let d := nNat (s.obj oNoiseDataRanks)
  let code (x : Num) : Nat := encodeFloat fmtFp64 x
  let L := rn64 (exactDiv l d)
  let R := rn64 (exactDiv r (rn64 (exactMul d d)))
  let den := rn64 (exactAdd (rn64 (exactMul d R)) (nNeg L))
  let est := if leNum den nZero then .inf false
    else rn64 (exactDiv (rn64 (exactMul (rn64 (exactMul b d)) (rn64 (exactAdd L (nNeg R))))) den)
  (((s.setObj oNoiseLocalSum (code l)).setObj oNoiseReducedSum (code r)).setObj oNoiseScale (code est)).setObj
    oNoiseTick s.tick

/-- What the end of a barrier leaves: the skew it delivers, and the estimate (R340, R342). -/
def CollCtx.endBarrier (c : CollCtx) (q : Coll) (s : State) : State :=
  let s := if flag c.t.image 868 then
      { s with colls := { s.colls with skew := s.colls.skew || flag q.totals.1 0 } } else s
  let s := if q.late then s.count oBarrierLate else s
  if flag c.t.image 867 ∧ flag q.totals.1 1 then
    s.noiseEstimate (a40 (field q.totals.2 79 40)) (a40 (field q.totals.2 39 0))
  else s

/-- Has every unit finished (R329)? -/
def CollCtx.done (c : CollCtx) (q : Coll) : Bool :=
  let op := colOp c.t.image
  q.begun && q.todo.isEmpty && q.awaitReduce.isEmpty && q.awaitPlace.isEmpty && q.tokens.isEmpty &&
    (!(op == 1 || op == 2) || c.move == 1 || q.reduced) && (op != 5 || colReverse c.t.image || q.phase == 1) &&
    (op != 8 || q.late)

/-- Ends the work of a task whose units have finished. -/
def CollCtx.finish (c : CollCtx) : M Unit := do
  let q ← c.coll
  let op := colOp c.t.image
  if op = 2 then c.endScatter
  if op = 1 ∨ op = 2 then
    c.addCarried
    if c.staged then
      match c.o2 with
      | some d => mod fun s => s.scramble c.t.writers d.base (d.count * d.bytes)
      | none => pure ()
  if op = 7 ∧ colReshard c.t.image then
    mod fun s => s.exchange ((c.src.map (·.base)).getD 0) ((c.o2.map (·.base)).getD 0)
  if op = 8 then mod (c.endBarrier q)
  settleBins c.reader
  mod fun s => (s.useReadies (colTag c.t.image)).count oCollectiveTasks
  mod fun s => s.modTask c.t.record fun t => { t with work := 1 }
  match q.changed with
  | some (p, old, new) =>
    mod fun s => match s.task? c.t.record with
      | some t => s.shardChanged t p old new
      | none => s
  | none => pure ()
  if q.overflow ≠ 0 then throw (.fault 0)

/-- Everything a task can do now. -/
def CollCtx.step (c : CollCtx) : M Unit := do
  let q ← c.coll
  if q.released ∧ !q.begun then c.begin
  c.flush
  c.form
  c.barrierUp
  let q ← c.coll
  if colOp c.t.image = 5 ∧ !colReverse c.t.image ∧ q.begun ∧ q.phase = 0 ∧ q.tokens.isEmpty ∧ q.todo.isEmpty then
    c.beginRows
  c.flush
  if c.done (← c.coll) then c.finish

/-- The memory a collective writes (Table 12.2): its destination or shadow, the staging of a reduction, and the receive table
and ids of a dispatch. -/
def CollCtx.outs (c : CollCtx) (ids : Option Desc) : List (Nat × Nat) :=
  let op := colOp c.t.image
  let ds := [if op = 7 ∧ colReshard c.t.image then c.o2 else c.dst, if op = 1 ∨ op = 2 then c.o2 else none] ++
    (if op = 5 ∧ !colReverse c.t.image then [c.o3, ids] else [])
  (ds.filterMap id).map fun d => (d.base, d.count * d.bytes)

/-- A collective task ends early: its readies are used up (R328), its outputs become free where they are undefined, and the
statistics it counted are added. -/
def State.failColl (s : State) (c : CollCtx) (t : Task) (a : Abort) : State :=
  let outs := if a = .undefined ∧ recEpoch t.image = s.obj oPlacementEpoch then c.outs (s.peekDesc (colTable t.image)) else []
  let s := if t.work = 0 then s.useReadies (colTag c.t.image) else s
  let s := if recKind t.image = 7 then { s with resil := { s.resil with midnight := none } } else s
  s.failTask t outs a

/-- Runs collective work on a task: its faults end the task (R56). -/
def State.runColl (s before : State) (c : CollCtx) (body : M Unit) : Host.Outcome State Fault Refusal :=
  match body.run s with
  | .ok _ s' => .next s'
  | .error .wait _ => .next before
  | .error a s' =>
    match s'.task? c.t.record with
    | some t => .next (s'.failColl c t a)
    | none => .next s'

/-- Runs a collective task whose op and form are those of the row. -/
def State.runCollOp (s : State) (r : Nat) (form : Nat → Bool) : Host.Outcome State Fault Refusal :=
  match s.working? r, s.coll? r with
  | some t, some q =>
    if recKind t.image ≠ 5 ∨ !form t.image ∨ !q.released then .next s
    else
      let c := s.collCtx t
      s.runColl s c c.step
  | _, _ => .next s

/-- ALL_REDUCE (R332, Table 12.5). -/
def execAllReduce (r : Nat) (s : State) : Host.Outcome State Fault Refusal :=
  s.runCollOp r fun i => colOp i == 1

/-- REDUCE_SCATTER (R332, R338). -/
def execReduceScatter (r : Nat) (s : State) : Host.Outcome State Fault Refusal := s.runCollOp r fun i => colOp i == 2

/-- ALL_GATHER (R334, R344). -/
def execAllGather (r : Nat) (s : State) : Host.Outcome State Fault Refusal := s.runCollOp r fun i => colOp i == 3

/-- ALL_TO_ALL (R334). -/
def execAllToAll (r : Nat) (s : State) : Host.Outcome State Fault Refusal := s.runCollOp r fun i => colOp i == 4

/-- ALL_TO_ALLV (R335). -/
def execAllToAllv (r : Nat) (s : State) : Host.Outcome State Fault Refusal :=
  s.runCollOp r fun i => colOp i == 5 && !colReverse i

/-- ALL_TO_ALLV_REVERSE (R336). -/
def execAllToAllvReverse (r : Nat) (s : State) : Host.Outcome State Fault Refusal :=
  s.runCollOp r fun i => colOp i == 5 && colReverse i

/-- BROADCAST (R334). -/
def execBroadcast (r : Nat) (s : State) : Host.Outcome State Fault Refusal := s.runCollOp r fun i => colOp i == 6

/-- PERMUTE (R346–R348). -/
def execPermute (r : Nat) (s : State) : Host.Outcome State Fault Refusal := s.runCollOp r fun i => colOp i == 7

/-- BARRIER (R340): a barrier whose release boundary has passed also ends here. -/
def execBarrier (r : Nat) (s : State) : Host.Outcome State Fault Refusal := s.runCollOp r fun i => colOp i == 8

/-! ### Arriving messages -/

/-- The first message delivered on a port and VC; a message to this device itself is at port 32. -/
def State.frontMsg (s : State) (p vc : Nat) : Option Msg := (s.port p).arrived.find? (·.vc == vc)

/-- Removes the first message equal to `m`. -/
def dropMsg (m : Msg) : List Msg → List Msg
  | [] => []
  | x :: rest => if x = m then rest else x :: dropMsg m rest

/-- The state without a message that has been handled. -/
def State.dropFront (s : State) (p : Nat) (m : Msg) : State :=
  let q := s.port p
  s.setPort p { q with arrived := dropMsg m q.arrived }

/-- The debt that a message is charged to (R366): one of its tag and sender with something of its kind left. -/
def State.debt? (s : State) (kind tag rank : Nat) : Option Debt :=
  s.colls.debts.find? fun d => d.tag == tag && d.rank == rank &&
    (if kind = 1 then d.readies != 0 else if kind = 4 then d.counts != 0 else (kind == 2 || kind == 3) && d.bytes != 0)

/-- Charges a message to a debt (R366, R367). -/
def State.charge (s : State) (d : Debt) (kind position offset : Nat) (bs : List Byte) : State :=
  let d' : Debt := if kind = 1 then { d with readies := d.readies - 1 }
    else if kind = 4 then { d with counts := d.counts - 1 } else { d with bytes := d.bytes - bs.length }
  let rest := s.colls.debts.erase d
  let keep := if d'.readies = 0 ∧ d'.counts = 0 ∧ d'.bytes = 0 then rest else rest ++ [d']
  let s := { s with colls := { s.colls with debts := keep } }
  let held : Nat := s.colls.carried.foldl (fun a (k : Carried) => a + k.bytes.length) 0
  if kind = 2 ∧ s.obj oLatePolicy = 1 ∧ held + bs.length ≤ s.obj oCarryBytes then
    let s := s.scramble (span 0x10 32) (s.obj oCarryBase + held) bs.length
    ({ s with colls := { s.colls with carried := s.colls.carried ++ [(⟨d.tag, position, offset, bs, d.own⟩ : Carried)] } }).noteLate
      d.tag 0 0 bs.length 0
  else if kind = 2 ∨ kind = 3 then s.noteLate d.tag 0 0 0 bs.length
  else s

/-- A collective message as its receiver takes it. -/
structure CollMsg where
  port : Nat
  rank : Nat
  word : Nat
  phase : Nat
  flags : Nat
  offset : Nat
  position : Nat
  norms : Nat
  data : List Byte
deriving DecidableEq, Repr

/-- Reads a message's collective header (Table 12.4). -/
def readColl (m : Msg) : Nat × CollMsg :=
  let h := ofLe (m.data.take 32)
  (field h 191 180, { port := m.port, rank := hdrSource m.header, word := field h 255 192, phase := field h 179 176
                      flags := field h 175 168, offset := field h 167 128, position := field h 127 112
                      norms := field h 79 0, data := m.data.drop 32 })

/-- The collective task of a tag whose first phase has begun and whose work goes on. -/
def State.tagTask (s : State) (tag : Nat) : Option Task :=
  s.sched.tasks.find? fun t => t.work == 0 && ((s.coll? t.record).map (·.begun)).getD false &&
    ((recKind t.image == 5 && colTag t.image == tag) || (recKind t.image == 7 && Config.midnightTag.toNat == tag))

/-- Handles the front message of a port and VC when it is of this kind: a message of another epoch is dropped (R62), one
that a debt expects is charged to it (R366), and any other acts on the task of its tag. -/
def State.onMessage (s : State) (port vc kind : Nat) (act : CollCtx → CollMsg → M Unit) :
    Host.Outcome State Fault Refusal :=
  match s.frontMsg port vc with
  | none => .next s
  | some m =>
    if hdrKind m.header ≠ kind then .next s
    else
      let s' := s.dropFront port m
      let (tag, x) := readColl m
      if hdrEpoch m.header ≠ s.obj oPlacementEpoch then .next s'.noteStale
      else match s'.debt? kind tag x.rank with
        | some d => .next (s'.charge d kind x.position x.offset x.data)
        | none =>
          match s'.tagTask tag with
          | none => .next s'   -- no task awaits it
          | some t =>
            let c := s'.collCtx t
            (s'.addObj oCollBytesReceived x.data.length).runColl s c (act c x)

/-- A ready leaves the ingress buffer that held it (R328); one of this device's own was in none. -/
def State.freeBuffer (s : State) (port vc : Nat) : State :=
  if port < 32 then (s.oweCredit port vc 1).pump port else s

/-- READY (R327, R328): held until a task of its tag uses it. While 16,384 are held it stays in its VC2 buffer, whose credit
goes back only once it has been taken from there. -/
def execReady (port vc : Nat) (s : State) : Host.Outcome State Fault Refusal :=
  match s.frontMsg port vc with
  | none => .next s
  | some m =>
    if hdrKind m.header ≠ 1 then .next s
    else
      let s' := s.dropFront port m
      let (tag, x) := readColl m
      if hdrEpoch m.header ≠ s.obj oPlacementEpoch then .next (s'.noteStale.freeBuffer port vc)
      else match s'.debt? 1 tag x.rank with
        | some d => .next ((s'.charge d 1 0 0 []).freeBuffer port vc)
        | none =>
          if s'.colls.readies.length ≥ 16384 then .next s
          else .next ({ s' with colls := { s'.colls with
            readies := s'.colls.readies ++ [(⟨tag, x.rank⟩ : Ready)] } }.freeBuffer port vc)

/-- A payload past the end of its region is discarded, and its task faults (R330). -/
def CollCtx.discardUnless (_ : CollCtx) (fits : Bool) : M Unit :=
  if fits then pure ()
  else do
    mod fun s => s.count oCollDiscards
    throw (.fault 0)

/-- The bytes a reduce message may reach, within the full buffer (R330): on a full mesh those of the chunk held here, the
destination or the staging; else the whole buffer. -/
def CollCtx.reduceFits (c : CollCtx) (x : CollMsg) : Bool :=
  let last := x.offset + x.data.length
  (if c.move = 2 then decide (c.me * c.chunk ≤ x.offset) && decide (last ≤ (c.me + 1) * c.chunk)
    else decide (last ≤ c.full)) &&
  (!c.staged || decide (c.stagePlace x.rank x.offset + x.data.length ≤ c.stageBytes))

/-- Adds this position's part to a partial sum of a ring, and keeps it or passes it on (R332). -/
def CollCtx.ringReduce (c : CollCtx) (x : CollMsg) : M Unit := do
  let q ← c.coll
  let codes := bytesCodes c.eb x.data
  let steps := c.wordSteps x.word
  let cb := max 1 c.chunk
  let k := x.offset / cb
  let up := decide (x.offset % cb < firstHalf cb)
  let mine := valRange c.eb x.offset x.data.length q.vals
  let data := codeBytes c.eb ((codes.zip mine).map fun p => addCode c.fmt p.1 p.2)
  if k = c.me then
    c.upd fun q => { q with steps := mergeSteps q.steps steps }
    let e := (if colOp c.t.image = 1 then x.offset else x.offset % cb) / c.eb
    c.addInto e codes.length [(c.writer x.port, 0, codes), (c.reader, 0, mine)]
    if colOp c.t.image = 1 then
      c.owe { rank := c.rank (c.next up), kind := 3, offset := x.offset, mask := c.ports up, data := data }
  else
    addsPassed codes.length
    let own := match q.steps with
      | some _ => mergeSteps steps (c.wordSteps (stepWord q.steps))
      | none => steps
    c.owe { rank := c.rank (c.next up), kind := 2, word := stepWord own, offset := x.offset, mask := c.ports up
            data := data }

/-- What a reduce message does (R331, R332): on a ring it travels on; else it goes to the staging, or is added as it comes. -/
def CollCtx.onReduce (c : CollCtx) (x : CollMsg) : M Unit := do
  c.discardUnless (c.reduceFits x)
  c.upd fun q => { q with awaitReduce := takeFrom q.awaitReduce x.rank x.data.length }
  if c.move = 1 then c.ringReduce x
  else
    let codes := bytesCodes c.eb x.data
    c.upd fun q => { q with
      pieces := if codes.isEmpty then q.pieces else q.pieces ++ [⟨x.rank, x.port, x.offset, codes⟩]
      steps := mergeSteps q.steps (c.wordSteps x.word) }
    if c.staged then c.stage (c.writer x.port) x.rank x.offset x.data
    else if c.move = 2 then
      c.add (c.writer x.port) ((if colOp c.t.image = 1 then x.offset else x.offset - c.me * c.chunk) / c.eb) codes

/-- REDUCE (R331). -/
def execReduce (port vc : Nat) (s : State) : Host.Outcome State Fault Refusal :=
  s.onMessage port vc 2 fun c x => c.onReduce x

/-- The message that passes a piece on to a position: every message of a task that found its own shard changed carries
flag [2] (R344), and that of a task that received one keeps it. -/
def CollCtx.passTo (c : CollCtx) (q : Coll) (x : CollMsg) (j mask : Nat) : M Unit :=
  c.owe { rank := c.rank j, kind := 3, word := x.word, flags := x.flags ||| q.mark.1, offset := x.offset, mask := mask
          data := x.data }

/-- Passes a piece on round the ring, unless the next position is where it began. -/
def CollCtx.passOn (c : CollCtx) (q : Coll) (x : CollMsg) (up : Bool) (origin : Nat) : M Unit := do
  if c.next up ≠ origin then c.passTo q x (c.next up) (c.ports up)

/-- Passes a piece to every child. -/
def CollCtx.passDown (c : CollCtx) (q : Coll) (x : CollMsg) : M Unit :=
  c.children.forM fun j => c.passTo q x j (c.ports false)

/-- What a place message does (R330, R334–R336). -/
def CollCtx.onPlace (c : CollCtx) (x : CollMsg) : M Unit := do
  let ini := c.writer x.port
  let op := colOp c.t.image
  let q ← c.coll
  if op = 5 then
    if !colReverse c.t.image ∧ q.phase = 0 then
      -- its place depends on counts still to come
      c.upd fun q => { q with early := q.early ++ [(⟨x.rank, x.port, x.offset, x.data⟩ : EarlyRows)] }
    else
      let table ← if colReverse c.t.image then c.routeTable else pure []
      c.discardUnless (!colReverse c.t.image ||
        decide (x.offset + x.data.length ≤ (c.packedRows (c.pos x.rank) table).length * c.rowBytes))
      c.upd fun q => { q with awaitPlace := takeFrom q.awaitPlace x.rank x.data.length }
      if colReverse c.t.image then c.placePacked ini (c.pos x.rank) x.offset x.data table
      else c.placeRows ini (((c.received q).getD (c.pos x.rank) (0, 0)).1) x.offset x.data
  else
    c.discardUnless (decide (x.offset + x.data.length ≤ (if op = 2 then c.full
      else if op = 7 ∧ colReshard c.t.image then (c.o2.map fun d => d.count * d.bytes).getD 0 else c.dstBytes)))
    c.upd fun q => { q with awaitPlace := takeFrom q.awaitPlace x.rank x.data.length }
    if flag x.flags 2 ∧ q.changed.isNone then
      -- the message names the generation of the shard whose bytes it carries, and not the recorded one (log entry 107)
      let rec_ ← freeM 32
      c.upd fun q => { q with changed := some (x.offset / max 1 c.srcBytes, rec_, x.word % 2 ^ 32) }
    if op = 2 then
      let cb := max 1 c.chunk
      let k := x.offset / cb
      if k = c.me then
        c.put ini (x.offset % cb / c.eb) (bytesCodes c.eb x.data)
      else match c.toward c.size k with
        | some j => c.owe { rank := c.rank j, kind := 3, word := x.word, offset := x.offset, mask := c.ports false
                            data := x.data }
        | none => pure ()
    else
      c.place ini x.offset x.data
      let cb := max 1 (if op = 3 then c.srcBytes else c.chunk)
      let fromParent := (c.parent c.me).map c.rank == some x.rank
      match c.move with
      | 1 =>
        let up := if op = 6 then decide (x.offset < firstHalf c.dstBytes) else decide (x.offset % cb < firstHalf cb)
        c.passOn q x up (if op = 6 then c.root else x.offset / cb)
      | 3 =>
        if op = 3 ∧ !fromParent then
          match c.parent c.me with
          | some p => c.passTo q x p (c.ports true)
          | none => c.passDown q x
        else c.passDown q x
      | _ => pure ()

/-- PLACE (R330). -/
def execPlace (port vc : Nat) (s : State) : Host.Outcome State Fault Refusal :=
  s.onMessage port vc 3 fun c x => c.onPlace x

/-- What a counts message does (R335): its sender is heard once its counts for all the experts are in. -/
def CollCtx.onCounts (c : CollCtx) (x : CollMsg) : M Unit :=
  c.upd fun q =>
    let q : Coll := { q with counts := q.counts ++ [(⟨x.rank, x.port, x.offset, bytesCodes 4 x.data⟩ : Piece)] }
    { q with tokens := q.tokens.filter fun r => r != x.rank || decide ((countsOf q r).length < colExperts c.t.image) }

/-- COUNTS (R335). -/
def execCounts (port vc : Nat) (s : State) : Host.Outcome State Fault Refusal :=
  s.onMessage port vc 4 fun c x => c.onCounts x

/-- What a barrier_up message does (R340). -/
def CollCtx.onBarrierUp (c : CollCtx) (x : CollMsg) : M Unit := do
  let up : BarrierUp := ⟨x.rank, x.phase, x.flags, x.norms⟩
  c.upd fun q => { q with
    tokens := if x.phase = q.phase then q.tokens.filter (· != x.rank) else q.tokens, ups := q.ups ++ [up] }
  c.barrierUp
  c.flush

/-- BARRIER_UP (R340). -/
def execBarrierUp (port vc : Nat) (s : State) : Host.Outcome State Fault Refusal :=
  s.onMessage port vc 5 fun c x => c.onBarrierUp x

/-- What a barrier_down message does (R340). -/
def CollCtx.onBarrierDown (c : CollCtx) (x : CollMsg) : M Unit := do
  let tick := (← get).tick
  c.upd fun q => { q with
    tokens := q.tokens.filter (· != x.rank), totals := (x.flags, x.norms), release := some (max x.word tick)
    late := decide (x.word ≤ tick) }
  c.sendDown x.word x.flags x.norms
  c.flush

/-- BARRIER_DOWN (R340): passed on to the children; one that comes after its boundary is late. -/
def execBarrierDown (port vc : Nat) (s : State) : Host.Outcome State Fault Refusal :=
  s.onMessage port vc 6 fun c x => c.onBarrierDown x

/-- BARRIER_RELEASE (R340): just before cycle 0 of the release boundary. -/
def execBarrierRelease (r : Nat) (s : State) : Host.Outcome State Fault Refusal :=
  match s.working? r, s.coll? r with
  | some t, some q =>
    let c := s.collCtx t
    match q.release with
    | some tick =>
      if recKind t.image = 5 ∧ colOp t.image = 8 ∧ q.todo.isEmpty ∧ q.tokens.isEmpty ∧ tick ≤ s.tick + 1 then
        s.runColl s c c.finish
      else .next s
    | none => .next s
  | _, _ => .next s

/-! ### Late peers (R363–R366) -/

/-- Ranks from which a task still awaits something (R363). -/
def State.awaited (s : State) (c : CollCtx) (q : Coll) : List Nat :=
  let readies := (q.todo.map (·.rank)).filter fun r => !s.readyHeld (colTag c.t.image) r
  (readies ++ q.awaitReduce.map (·.1) ++ q.awaitPlace.map (·.1) ++ q.tokens).eraseDups

/-- Has a record's contribution deadline come (R363)? -/
def State.deadlineDue (s : State) (image : Nat) : Bool :=
  decide (s.obj oStepBaseTick + recDeadline image + s.obj oGraceTicks + 1 ≤ s.tick)

/-- The lowest position of some ranks. -/
def CollCtx.lowest (c : CollCtx) (ranks : List Nat) : Nat := (ranks.map c.pos).foldl min ((ranks.map c.pos).headD 0)

/-- The strict rule (R364). -/
def State.strictAbsent (s : State) (c : CollCtx) (absent : List Nat) : State :=
  let p := c.lowest absent
  let s := (s.count oPeerAbsentTasks).raise 0x0602 0x04 c.t.unit (colTag c.t.image) absent.length p (c.rank p)
  match s.task? c.t.record with
  | some t => s.failColl c t (.fault 0x0602)
  | none => s

/-- The lenient rule (R365, R366): absent peers are no longer awaited, and leave their debts. A parent whose
barrier_down is awaited is waited for on. -/
def State.lenientAbsent (s : State) (c : CollCtx) (q : Coll) (absent : List Nat) : State :=
  let tag := colTag c.t.image
  let barrier := decide (colOp c.t.image = 8)
  let keep (r : Nat) : Bool := barrier && (c.parent c.me).map c.rank == some r
  let debt (r : Nat) : Debt :=
    { tag := tag, rank := r, readies := bitOf (!s.readyHeld tag r), counts := bitOf (!barrier && q.tokens.contains r)
      bytes := mapGet 0 q.awaitReduce r + mapGet 0 q.awaitPlace r }
  let debts := absent.map debt
  let s := s.modColl c.t.record fun q => { q with
    todo := q.todo.filter fun m => !absent.contains m.rank || s.readyHeld tag m.rank
    awaitReduce := q.awaitReduce.filter fun p => !absent.contains p.1
    awaitPlace := q.awaitPlace.filter fun p => !absent.contains p.1
    tokens := q.tokens.filter fun r => !absent.contains r || keep r
    absent := absent, deadline := true }
  let real := debts.filter fun d => d.readies != 0 || d.counts != 0 || d.bytes != 0
  ({ s with colls := { s.colls with debts := s.colls.debts ++ real } }).noteLate tag absent.length (c.lowest absent) 0 0

/-- The deadline of a collective task (R363–R365). -/
def State.collDeadline (s : State) (t : Task) : State :=
  match s.coll? t.record with
  | none => s
  | some q =>
    let c := s.collCtx t
    let absent := s.awaited c q
    if !q.begun ∨ q.deadline ∨ absent.isEmpty ∨ !s.deadlineDue t.image then s
    else if s.obj oStragglerMode = 1 then s.lenientAbsent c q absent
    else s.strictAbsent c absent

end Sys2Proof.Machine
end

