-- ==== Sys2Proof/Machine/Starts.lean ====
section
/-! DEFINITION. The start of tasks on their engines: R50, pairs (R109, R110), what an engine reads as it starts (R136,
R147), the skew check (R218), and the records whose op no rule defines. -/

namespace Sys2Proof.Machine

/-! ### Which task an engine starts (R48, R50, R109) -/

/-- Does the task start on a pair only when both arrays are free (R109)? One whose set splits a pair has undefined results
(R110), and starts array by array. -/
def pairTask (r : Nat) : Bool :=
  recKind r == 1 && (matPaired r || matOp r == 2) && recFirst r % 2 == 0 && recCount r % 2 == 0

/-- Has an engine that runs the task done its part of it, so that it may start another (R50)? The work of a task is one
step, taken once every engine of its set has started it: an engine may leave before that or after. DESIGN CHOICE (log
entry 23). -/
def Task.leaves (t : Task) : Bool := !t.stuck && (!t.started || t.work != 0)

/-- Is the engine free? -/
def State.freeOn (s : State) (cls : EngineClass) (e : Nat) : Bool := (s.runningOn cls e).all Task.leaves

/-- The task at the head of an engine's order, when the engine is free; tasks admitted in a tick start from its cycle 24
(R48). -/
def State.nextOn (s : State) (cls : EngineClass) (e phase : Nat) : Option Task :=
  if s.freeOn cls e then s.headOn cls e fun t => decide (t.admitted < s.tick) || decide (24 ≤ phase) else none

/-- The engine leaves the task it runs. -/
def State.leaveOn (s : State) (cls : EngineClass) (e : Nat) : State :=
  match s.runningOn cls e with
  | some t => s.modTask t.record fun u => { u with left := u.left ++ [e] }
  | none => s

/-- A tile, a pair or another engine begins the task of record `r` at ACLK time `now`. -/
def State.beginOn (s : State) (cls : EngineClass) (r : Nat) (es : List Nat) (now : Nat) : State :=
  (es.foldl (fun s e => s.leaveOn cls e) s).modTask r fun t =>
    { t with waiting := t.waiting.filter fun e => !es.contains e
             running := es.foldl (fun m e => mapInsert m e now) t.running }

/-! ### What an engine does as it starts a task -/

/-- Tiles: the array has a task (R114) and the SRAM is filled (R246). -/
def State.rouse (s : State) (kind phase : Nat) (es : List Nat) : State :=
  let s := if kind = 1 then es.foldl (fun s e => s.setBusy e phase true) s else s
  if kind = 1 ∨ kind = 2 then es.foldl (fun s e => s.fillSram e) s else s

/-- The context of an engine of a kind. -/
def kindCtx (kind e record image : Nat) : Ctx :=
  match kind with
  | 1 | 2 => tileCtx e record image
  | 3 | 4 => gmCtx e record image
  | _ => updCtx e record image

/-- An engine reads the operands of each record of the task it starts (R136, R147). -/
def startReads (t : Task) (e : Nat) : M Unit :=
  t.records.forM fun p => readOperands (kindCtx (recKind p.2) e p.1 p.2) (recDescs p.2)

/-- Has a record no op that a rule defines, or does its set split a pair: results undefined, reach the task (R110, R125, R162)?
A coupled record with an op of Table 5.3 that is not a coupled one, and the reverse, are taken as such. DESIGN CHOICE (log
entry 105). -/
def recBroken (r : Nat) : Bool :=
  match recKind r with
  | 1 => (matPaired r || matOp r == 2) && (recFirst r % 2 == 1 || recCount r % 2 == 1)
  | 2 =>
    let op := vecOp r
    if vecCoupled r then !(decide (0x20 ≤ op) && decide (op ≤ 0x22)) else decide (0x10 < op) || op == 0x07
  | 3 => gatherOp r == 0 || decide (10 < gatherOp r)
  | 4 => gatherOp r == 0 || decide (3 < gatherOp r)
  | _ => false

/-- A task refused by the skew check (R218): status 0x2 as it starts, STEP_SKEW for the boundary, no TASK_FAULT. Its
measured cycles are 0 (log entry 106). -/
def State.refuseUpdate (s : State) (t : Task) (step lo hi cause : Nat) : State :=
  let s := ((s.count oUpdateSkewTasks).noteSkew t.unit t.record step lo hi cause).haltWith 0x0501 t.record
  ((s.writeStatus t.record 2 0).setOutcome t.record 2).releaseEngines t 0

/-- An update task starts: the skew check, and its group descriptor is noted for its work (R218). -/
def State.startUpdate (s : State) (t : Task) : State :=
  match (updateStart (updCtx (recFirst t.image) t.record t.image) t.image).run s with
  | .ok (g, comp, cause) s' =>
    if cause = 0 then
      match s'.task? t.record with
      | some t' => s'.setTask { t' with notes := [g] }
      | none => s'
    else s'.refuseUpdate t (grpStep g) (field comp 31 0) (field comp 63 32) cause
  | .error a s' => s'.failTask t (s'.taskOuts t) a

/-- A collective or snapshot task starts (R323–R325, R338, R344). -/
def State.startColl (s : State) (t : Task) : State :=
  let s := { s with colls := { s.colls with tasks := s.colls.tasks ++ [{ record := t.record }] } }
  if recKind t.image = 7 then s
  else
    let c := s.collCtx t
    match c.start.run s with
    | .ok _ s' => s'
    | .error a s' =>
      match s'.task? t.record with
      | some t' => s'.failColl c t' a
      | none => s'

/-- What follows once every engine of the set has started the task. -/
def State.allStarted (s : State) (t : Task) : State :=
  if t.records.any fun p => recBroken p.2 then s.failTask t (s.taskOuts t) .undefined
  else match recKind t.image with
    | 5 | 7 => s.startColl t
    | 6 => s.startUpdate t
    | 8 => { s with mem := { s.mem with queue := s.mem.queue ++ [.task t.record] } }
    | _ => s

/-- The engines read, each in its turn; a failure ends the task's work. -/
def State.readAll (s : State) (r : Nat) (es : List Nat) : State :=
  es.foldl (fun s e => match s.task? r with
    | some t =>
      if t.work ≠ 0 ∨ !([1, 2, 3, 4, 6].contains (recKind t.image)) then s
      else match (startReads t e).run s with
        | .ok _ s' => s'
        | .error a s' => match s'.task? r with
          | some t' => s'.failTask t' (s'.taskOuts t') a
          | none => s'
    | none => s) s

/-- Starts the task of record `r` on some of its engines. -/
def State.startOn (s : State) (cls : EngineClass) (t : Task) (es : List Nat) (phase : Nat) : State :=
  let s := (s.beginOn cls t.record es (s.sched.boundaryAclk + phase)).rouse (recKind t.image) phase es
  let s := if pairTask t.image ∧ matOp t.image = 2 then s.count oGradPairTasks else s
  let s := s.readAll t.record es
  let s := match s.task? t.record with
    | some t' => if t'.started ∧ t'.work = 0 then s.allStarted t' else s
    | none => s
  es.foldl (fun s e => s.prefetch cls e) s

/-- The other array of a pair. -/
def mateOf (e : Nat) : Nat := if e % 2 = 0 then e + 1 else e - 1

/-- TASK_START (R50): a free engine starts the first of its waiting tasks, at this ACLK phase of the tick; a pair starts a
task of its own together (R109). -/
def execTaskStart (cls : EngineClass) (unit phase : Nat) (s : State) : Host.Outcome State Fault Refusal :=
  match (s.nextOn cls unit phase).filter fun _ => !s.rst.meshStuck with
  | none => .next s
  | some t =>
    if pairTask t.image then
      match s.nextOn cls (mateOf unit) phase with
      | some u => if u.record = t.record then .next (s.startOn cls t [unit, mateOf unit] phase) else .next s
      | none => .next s
    else .next (s.startOn cls t [unit] phase)

end Sys2Proof.Machine
end

