-- ==== Sys2Proof/Machine/Snapshot.lean ====
section
/-! DEFINITION. Snapshots, twins, restore and Dusk (R350–R373), and the deadline of collective and snapshot tasks. -/

namespace Sys2Proof.Machine

/-! ### A snapshot and its slot (Tables 13.3–13.6) -/

/-- Address of the snapshot list (Table 13.3). -/
def snapList (image : Nat) : Nat := recParam image 1023 976
/-- Address of the data cursor. -/
def snapCursor (image : Nat) : Nat := recParam image 975 928
/-- Address of the step's loss. -/
def snapLoss (image : Nat) : Nat := recParam image 927 880

/-- Bytes of one slot (R350, R357). -/
def State.slotBytes (s : State) : Nat := s.obj oTwinRegionBytes / 2

/-- Address of a held slot (R350). -/
def State.heldSlot (s : State) (q : Nat) : Nat := s.obj oTwinRegionBase + q * s.slotBytes

/-- Address of a far slot (R357). -/
def State.farSlot (s : State) (q : Nat) : Nat := s.obj oFarSnapshotBase + q * s.slotBytes

/-- Fields of a directory entry (Table 13.5). -/
def dirAddress (e : Nat) : Nat := field e 255 208
/-- Offset of a region's copy. -/
def dirOffset (e : Nat) : Nat := field e 207 160
/-- Bytes of a region. -/
def dirLength (e : Nat) : Nat := field e 159 120

/-- The directory of a list's entries: each region at the next multiple of 4 KiB from 0x20000 (Table 13.6). -/
def placeRegions : Nat → List Nat → List Nat
  | _, [] => []
  | off, e :: rest => setField e 207 160 off :: placeRegions (roundUp (off + dirLength e) 4096) rest

/-- Bytes of a slot in use. -/
def slotTotal (dir : List Nat) : Nat := dir.foldl (fun n e => max n (dirOffset e + dirLength e)) 0x20000

/-- `n` bytes of zero. -/
def zeroBytes (n : Nat) : List Byte := List.replicate n 0

/-- Bytes of a slot from 0x1000 on: masks, images and directory, then the regions with their gaps (Table 13.6). -/
def slotBody (mask path images : Nat) (dir : List Nat) (regions : List (List Byte)) : List Byte :=
  let head := leBytes 512 mask ++ leBytes 128 path ++ zeroBytes 3456 ++ leBytes 34112 images ++ zeroBytes 35520 ++
    padTo 0xD000 0 (dir.flatMap (leBytes 32))
  regions.zip dir |>.foldl (fun (b : List Byte) q =>
    padTo (dirOffset q.2 - 0x1000) 0 b ++ q.1) head

/-- The digest of R360 over the bytes of a slot from 0x1000 to its end. -/
def slotDigest (body : List Byte) : List Byte := sha384 ((chunks (2 ^ 30) body).flatMap sha384)

/-- Sets the state of a header. -/
def headerState (h st : Nat) : Nat := setField h 7 0 st

/-- Bytes 0x100 to the end of a slot. -/
def slotRest (body : List Byte) : List Byte := zeroBytes 3840 ++ body

/-! ### Copies (R357) -/

/-- Sends a header to the twin as snap_header (Table 13.1). -/
def State.twinHeader (s : State) (q header : Nat) : State := s.sendTwin 0 q 0x12 (leBytes 256 header)

/-- Sends bytes of a slot as messages of up to 16,368 bytes: snap_data or fetch_data. -/
def State.twinData (s : State) (q kind seq offset : Nat) (bs : List Byte) : State :=
  ((chunks 16368 bs).zipIdx).foldl (fun s p =>
    s.sendTwin 0 q kind (leBytes 8 (offset + p.2 * 16368) ++ leBytes 8 seq ++ p.1)) s

/-- Work that reports failure instead of ending its task. -/
def attempt (body : M Unit) : M Bool := tryCatch (do body; return true) fun _ => return false

/-- Writes a far slot's header. -/
def farHeader (ini : Init) (q header : Nat) : M Bool := do
  let s ← get
  attempt (writeBytes ini .pass (s.farSlot q) (leBytes 256 header))

/-- Writes the seal of the previous snapshot (R357 step 2). -/
def sealPrevious (ini : Init) (loss : Nat) : M Unit := do
  match (← get).resil.awaitSeal with
  | none => return ()
  | some a =>
    let h := headerState (setField a.header 1279 1248 loss) 2
    let q := field h 1023 960 % 2
    if a.far then let _ ← farHeader ini q h
    if a.twin then mod fun s => s.twinHeader q h
    mod fun s => { s with resil := { s.resil with awaitSeal := none } }

/-- The entries of a snapshot list, with their places. None: too many, or too long for a slot (R359). -/
def readList (ini : Init) (list : Nat) : M (Option (List Nat)) := do
  let h ← readNat ini .keep list 32
  let n := field h 255 224
  if n > 1024 then return none
  else
    let es ← (List.range n).mapM fun i => readNat ini .keep (list + 32 + 32 * i) 32
    let dir := placeRegions 0x20000 es
    return if slotTotal dir > (← get).slotBytes then none else some dir

/-- Is a record of the step, other than `r`, still to run (R359)? -/
def State.othersLeft (s : State) (r : Nat) : Bool :=
  (List.range (s.obj oActiveRecords)).any fun i => i != r && s.outcome i == 0

/-- Writes the copies of a snapshot (R357 step 5): `ahead` is 1 when the boundary of the step is still to come. `undef`
makes the copied bytes free (R359). -/
def writeCopies (ini : Init) (m : Midnight) (cursor : Nat) (ahead : Nat) (solo undef : Bool) : M Midnight := do
  let cur ← readNat ini .keep cursor 32
  let regions ← m.entries.mapM fun e => do
    let bs ← readBytes ini .pass (dirAddress e) (dirLength e)
    if undef then freeBytes bs.length else pure bs
  let s ← get
  let body := slotBody (s.obj oPredictorExactMask) (s.obj oPairGradientPath) (s.streamImages ahead) m.entries regions
  let digest := ofLe (slotDigest body)
  let follow ← freeM 32
  let early ← freeM 384
  let head := (s.num.seed % 2 ^ 128) <<< 1536 + cur <<< 1280 + follow <<< 1248 + m.total <<< 1152 + m.entryTick <<< 1088 +
    ((s.obj oJobStep + ahead) % 2 ^ 64) <<< 1024 + m.seq <<< 960 + (s.obj oRankCount % 2 ^ 32) <<< 928 +
    s.obj oLogicalRank <<< 912 + s.obj oPlacementEpoch <<< 896 + m.entries.length <<< 880 + bitOf solo <<< 8
  let first := early <<< 1664 + head
  let q := m.seq % 2
  let twin := s.twinned && s.obj oTwinState == 1
  if twin then mod fun s => (s.twinHeader q first).twinData q 0x11 m.seq 256 (slotRest body)
  let far ← if s.obj oFarSnapshotBase = 0 then pure false
    else if !(← farHeader ini q first) then pure false
    else attempt (writeBytes ini .pass (s.farSlot q + 256) (slotRest body))
  return { m with header := digest <<< 1664 + head, twin := twin, far := far }

/-- Closes a snapshot (R357 step 7, R361): `failed` is the OR of the failure flags. -/
def closeCopies (ini : Init) (m : Midnight) (failed : Bool) : M Unit := do
  let q := m.seq % 2
  let h := headerState m.header 1
  let s ← get
  let ticks := s.tick - m.entryTick
  let result := if failed then 3 else if m.twin ∧ m.far then 0 else if m.far then 1 else if m.twin then 2 else 3
  if result ≠ 3 then
    if m.twin then mod fun s => s.twinHeader q h
    if m.far then let _ ← farHeader ini q h
    mod fun s => ((s.setObj oSnapshotSeq m.seq).setObj oSnapshotBytesLast m.total).setObj oSnapshotTicksLast
      (ticks % 2 ^ 32)
    mod fun s => { s with resil := { s.resil with awaitSeal := some ⟨h, m.twin, m.far⟩ } }
  mod fun s => { s with resil := { s.resil with midnight := none } }
  mod fun s => s.raise 0x0701 0x0F 0 m.seq m.total ticks result

/-! ### The snapshot task (R357) -/

/-- Steps 1 to 3 of a snapshot task: does a Midnight follow? -/
def snapStart (c : CollCtx) (image : Nat) : M Bool := do
  let s ← get
  if s.resil.armed then
    let loss ← readNat c.reader .keep (snapLoss image) 4
    let want := s.obj oReplayExpected
    if loss = want then
      mod fun s => { s.count oReplayChecks with resil := { s.resil with armed := false } }
    else
      mod fun s => (s.count oReplayMismatches).raise 0x0702 0x0F 0 (s.obj oSnapshotSeq) want loss
      throw (.fault 0x0702)
  else if s.resil.awaitSeal.isSome then
    sealPrevious c.reader (← readNat c.reader .keep (snapLoss image) 4)
  let n := s.obj oSnapshotIntervalSteps
  if n = 0 ∨ (s.obj oJobStep + 1) % n ≠ 0 then return false
  else
    mod State.dropLate
    match ← readList c.reader (snapList image) with
    | none => throw (.fault 0)
    | some dir =>
      let m : Midnight := { record := c.t.record, seq := s.obj oSnapshotSeq + 1, entries := dir, total := slotTotal dir
                            entryTick := s.tick }
      mod fun s => { s with resil := { s.resil with midnight := some m } }
      return true

/-- The Midnight that a record has begun. -/
def State.midnightOf (s : State) (r : Nat) : Option Midnight := s.resil.midnight.filter (·.record == r)

/-- Moves the present barrier of a Midnight on. -/
def CollCtx.barrierStep (c : CollCtx) : M Unit := do
  let q ← c.coll
  if q.released ∧ !q.begun then c.begin
  c.barrierUp
  c.flush

/-- Has the present barrier of a Midnight been released (R340)? -/
def State.barrierOver (s : State) (q : Coll) : Bool :=
  q.begun && q.todo.isEmpty && q.tokens.isEmpty && match q.release with
    | some t => decide (t ≤ s.tick)
    | none => false

/-- Runs snapshot work on a task. -/
def State.runSnap (s : State) (r : Nat) (body : CollCtx → Nat → Coll → M Unit) : Host.Outcome State Fault Refusal :=
  match s.working? r, s.coll? r with
  | some t, some q =>
    if recKind t.image ≠ 7 then .next s
    else
      let c := s.collCtx t
      s.runColl s c (body c t.image q)
  | _, _ => .next s

/-- What SNAPSHOT does (R357). -/
def snapshotWork (r : Nat) (c : CollCtx) (image : Nat) : M Unit := do
  match (← get).midnightOf r with
  | some _ => c.barrierStep
  | none =>
    if ← snapStart c image then c.barrierStep
    else mod fun s => s.modTask r fun t => { t with work := 1 }

/-- SNAPSHOT (R357): replay, seal and due test, then the entry barrier; given again, it moves that barrier on. -/
def execSnapshot (r : Nat) (s : State) : Host.Outcome State Fault Refusal :=
  s.runSnap r fun c image _ => snapshotWork r c image

/-- Counts a barrier_down that came after its boundary (R340). -/
def noteBarrier (q : Coll) : M Unit := do
  if q.late then mod fun s => s.count oBarrierLate

/-- What MIDNIGHT_WRITE does (R357). -/
def midnightWriteWork (r : Nat) (c : CollCtx) (image : Nat) (q : Coll) : M Unit := do
  let s ← get
  match s.midnightOf r with
  | none => throw .wait
  | some m =>
    if q.phase = 1 then c.barrierStep
    else if !s.barrierOver q then throw .wait
    else
      noteBarrier q
      let m ← writeCopies c.reader { m with entryTick := q.release.getD 0 } (snapCursor image) 1 false (s.othersLeft r)
      mod fun s => { s with resil := { s.resil with midnight := some m } }
      let heard := (q.ups.filter (·.phase == 1)).map (·.rank)
      let waits := (((c.children ++ (c.parent c.me).toList).map c.rank).filter fun x => !heard.contains x)
      c.upd fun q => { q with
        phase := 1, released := false, reduced := false, release := none, late := false, tokens := waits }
      c.barrierStep

/-- MIDNIGHT_WRITE (R357): once the entry barrier has been released, the copies, then the exit barrier, which goes out
at the next release point; given again, it moves that barrier on. -/
def execMidnightWrite (r : Nat) (s : State) : Host.Outcome State Fault Refusal :=
  s.runSnap r fun c image q => midnightWriteWork r c image q

/-- What MIDNIGHT_CLOSE does (R357). -/
def midnightCloseWork (r : Nat) (c : CollCtx) (q : Coll) : M Unit := do
  let s ← get
  match s.midnightOf r with
  | none => throw .wait
  | some m =>
    if q.phase ≠ 1 ∨ !s.barrierOver q then throw .wait
    else
      noteBarrier q
      closeCopies c.reader m (flag q.totals.1 0)
      mod fun s => s.useReadies (colTag c.t.image)
      mod fun s => s.modTask r fun t => { t with work := 1 }

/-- MIDNIGHT_CLOSE (R357): once the exit barrier has been released, the final headers; the task's work ends. -/
def execMidnightClose (r : Nat) (s : State) : Host.Outcome State Fault Refusal :=
  s.runSnap r fun c _ q => midnightCloseWork r c q

/-! ### Deadlines (R362, R363) -/

/-- A Midnight whose barrier lacks a peer at its deadline (R362): the strict rules, or abandoned with result 3. -/
def State.midnightDeadline (s : State) (t : Task) : State :=
  match s.coll? t.record, s.midnightOf t.record with
  | some q, some m =>
    let c := s.collCtx t
    let absent := s.awaited c q
    if !q.begun ∨ absent.isEmpty ∨ !s.deadlineDue t.image then s
    else if s.obj oStragglerMode = 1 then
      let s := { s with resil := { s.resil with midnight := none } }
      let s := s.raise 0x0701 0x0F 0 m.seq m.total (s.tick - m.entryTick) 3
      (s.useReadies (colTag c.t.image)).modTask t.record fun t => { t with work := 1 }
    else s.strictAbsent c absent
  | _, _ => s

/-- CONTRIBUTION_DEADLINE (R363). -/
def execContributionDeadline (r : Nat) (s : State) : Host.Outcome State Fault Refusal :=
  match s.working? r with
  | some t =>
    if recKind t.image = 5 then .next (s.collDeadline t)
    else if recKind t.image = 7 then .next (s.midnightDeadline t)
    else .next s
  | none => .next s

/-! ### Twin messages (R351–R353) -/

/-- A twin message as its receiver takes it: its slot and data. -/
structure TwinMsg where
  port : Nat
  slot : Nat
  data : List Byte
deriving DecidableEq, Repr

/-- Handles the front message when it is of this kind: the checks of R352, then what it does. -/
def State.onTwin (s : State) (port vc kind : Nat) (act : TwinMsg → State → State) : State :=
  match s.frontMsg port vc with
  | none => s
  | some m =>
    if hdrKind m.header ≠ kind then s
    else
      let s := s.dropFront port m
      if s.twinned ∧ hdrSource m.header = s.obj oTwinRank then act ⟨port, hdrParam m.header % 2, m.data⟩ s
      else s.count oTwinRejects

/-- Little-endian 8-byte word `k` of a message's data. -/
def TwinMsg.word (m : TwinMsg) (k : Nat) : Nat := ofLe ((m.data.drop (8 * k)).take 8)

/-- What a twin message asks of the held slots: one whose accesses fail is discarded (R352). -/
def State.holding (s : State) (body : M Unit) : State :=
  match body.run s with
  | .ok _ s' => s'
  | .error _ s' => s'.count oTwinRejects

/-- HEARTBEAT (R353). -/
def execHeartbeat (port vc : Nat) (s : State) : Host.Outcome State Fault Refusal :=
  .next (s.onTwin port vc 0x10 fun m s =>
    let s := (s.setObj oTwinState 1).count oHeartbeatsReceived
    { s with resil := { s.resil with lastBeat := s.tick, twinTick := m.word 0, twinStep := m.word 1 } })

/-- HEARTBEAT_SEND (R353): once in each tick that is a multiple of the interval, until Dusk ends it. -/
def execHeartbeatSend (s : State) : Host.Outcome State Fault Refusal :=
  let n := s.obj oHeartbeatIntervalTicks
  if s.rst.inReset ∨ !s.twinned ∨ s.tick % max n 1 ≠ 0 ∨ 2 ≤ s.resil.duskStage ∨ s.resil.beatSent = some s.tick then
    .next s
  else
    let data := leBytes 8 s.tick ++ leBytes 8 (s.obj oJobStep) ++ leBytes 8 (s.obj oSnapshotSeq) ++
      leBytes 8 (s.obj oSchedulerState)
    let s := { s with resil := { s.resil with beatSent := some s.tick } }
    .next (s.sendTwin 2 0 0x10 data)

/-- TWIN_LOST (R353). -/
def execTwinLost (s : State) : Host.Outcome State Fault Refusal :=
  if s.obj oTwinState = 1 ∧ s.resil.lastBeat + s.obj oHeartbeatTimeoutTicks ≤ s.tick then
    .next ((s.setObj oTwinState 2).raise 0x0603 0x0F 0 (s.obj oTwinRank) s.resil.twinStep s.resil.twinTick)
  else .next s

/-- Writes bytes into a held slot; those that would pass its end are discarded (R352). -/
def State.holdBytes (s : State) (slot offset : Nat) (bs : List Byte) : State :=
  if offset + bs.length > s.slotBytes then s.count oTwinRejects
  else s.holding (writeBytes resilInit .pass (s.heldSlot slot + offset) bs)

/-- SNAP_DATA (R352). -/
def execSnapData (port vc : Nat) (s : State) : Host.Outcome State Fault Refusal :=
  .next (s.onTwin port vc 0x11 fun m s => s.holdBytes m.slot (m.word 0) (m.data.drop 16))

/-- SNAP_HEADER (R358). -/
def execSnapHeader (port vc : Nat) (s : State) : Host.Outcome State Fault Refusal :=
  .next (s.onTwin port vc 0x12 fun m s => s.holdBytes m.slot 0 m.data)

/-- Answers a fetch from a held slot (R352). -/
def State.answerFetch (s : State) (slot offset len : Nat) : State :=
  if offset + len > s.slotBytes then s.count oTwinRejects
  else s.holding (do
    let head ← readBytes resilInit .pass (s.heldSlot slot) 256
    let bs ← readBytes resilInit .pass (s.heldSlot slot + offset) len
    mod fun s => s.twinData slot 0x14 (field (ofLe head) 1023 960) offset bs)

/-- FETCH (R352). -/
def execFetch (port vc : Nat) (s : State) : Host.Outcome State Fault Refusal :=
  .next (s.onTwin port vc 0x13 fun m s => s.answerFetch m.slot (m.word 0) (m.word 1))

/-- DUSK (R353, Table 11.12): the peer of the port has announced Dusk; from the twin, it moves `twin_state`. -/
def execDusk (port vc : Nat) (s : State) : Host.Outcome State Fault Refusal :=
  match s.frontMsg port vc with
  | none => .next s
  | some m =>
    if hdrKind m.header ≠ 0x15 then .next s
    else
      let s := s.dropFront port m
      let s := if port < 32 then s.setPort port { s.port port with dusk := true } else s
      if s.twinned ∧ hdrSource m.header = s.obj oTwinRank then .next (s.setObj oTwinState 3) else .next s

/-! ### Restore (R369) -/

/-- Does a header pass step 1 of a restore? -/
def State.headerOk (s : State) (h : Nat) : Bool :=
  (field h 7 0 == 1 || field h 7 0 == 2) && field h 927 912 == s.obj oLogicalRank

/-- Bytes of a slot that have been fetched; none where one is missing. -/
def Restore.bytes (r : Restore) (offset n : Nat) : Option (List Byte) :=
  (List.range n).mapM fun i => (mapFind r.got (offset + i)).map (BitVec.ofNat 8)

/-- FETCH_DATA (R369): bytes of the restore under way. Once the header is in and passes, the rest is fetched. -/
def execFetchData (port vc : Nat) (s : State) : Host.Outcome State Fault Refusal :=
  .next (s.onTwin port vc 0x14 fun m s =>
    match s.resil.restore with
    | none => s
    | some r =>
      if r.source ≠ 0 ∨ r.slot ≠ m.slot then s
      else
        let got := (m.data.drop 16).zipIdx.foldl (fun g p => mapInsert g (m.word 0 + p.2) p.1.toNat) r.got
        let had := (r.bytes 0 256).isSome
        let r := { r with got := got }
        let s := { s with resil := { s.resil with restore := some r } }
        match r.bytes 0 256 with
        | some h =>
          let total := field (ofLe h) 1215 1152
          if !had ∧ s.headerOk (ofLe h) then
            s.sendTwin 2 r.slot 0x13 (leBytes 8 0x1000 ++ leBytes 8 (total - 0x1000))
          else s
        | none => s)

/-- Ends a restore with a status. -/
def State.endRestore (s : State) (status : Nat) : State :=
  { (s.setObj oRestoreStatus status).armVector 12 with resil := { s.resil with restore := none } }

/-- What a restore loads once its digest has matched (R369 steps 4 and 5). -/
def State.loadRestored (s : State) (h : Nat) (body : List Byte) : State :=
  let part (off n : Nat) : Nat := ofLe ((body.drop (off - 0x1000)).take n)
  let seed := field h 1663 1536
  let s := (s.setObj oJobSeed seed).loadStreams seed (part 0x2000 34112)
  let s := (s.setObj oPredictorExactMask (part 0x1000 512)).setObj oPairGradientPath (part 0x1200 128)
  let s := ((s.setObj oJobStep (field h 1087 1024)).setObj oSnapshotSeq (field h 1023 960)).setObj oRestoredCursor
    (field h 1535 1280)
  let arm := s.obj oRestoreReplay == 1 && field h 7 0 == 2
  let s := if arm then s.setObj oReplayExpected (field h 1279 1248) else s
  { s with resil := { s.resil with awaitSeal := none, armed := s.resil.armed || arm } }

/-- Steps 1 to 3 of a restore, from a way to read its slot: the status, and what to load. -/
def restoreWork (read : Nat → Nat → M (List Byte)) : M (Nat × Option (Nat × List Byte)) := do
  let h := ofLe (← read 0 256)
  if !(← get).headerOk h then return (3, none)
  else
    let body ← read 0x1000 (field h 1215 1152 - 0x1000)
    let dir := (chunks 32 ((body.drop 0x12000).take (32 * field h 895 880))).map ofLe
    dir.forM fun e => writeBytes resilInit .pass (dirAddress e) ((body.drop (dirOffset e - 0x1000)).take (dirLength e))
    if ofLe (slotDigest body) = field h 2047 1664 then return (2, some (h, body))
    else
      -- the bytes written are undefined, reach the job's windows (R369; log entry 47)
      mod fun s => (dir.foldl (fun s e => s.scramble [3] (dirAddress e) (dirLength e)) s).scrambleJob
      return (4, none)

/-- Ends a restore as its steps did. -/
def State.finishRestore (s : State) (read : Nat → Nat → M (List Byte)) : State :=
  match (restoreWork read).run s with
  | .ok (st, none) s' => s'.endRestore st
  | .ok (st, some (h, body)) s' => (s'.loadRestored h body).endRestore st
  | .error _ s' => s'.endRestore 5

/-- Has the twin sent everything the restore needs? -/
def State.fetched (s : State) (r : Restore) : Bool :=
  match r.bytes 0 256 with
  | none => false
  | some h => !s.headerOk (ofLe h) || (r.bytes 0x1000 (field (ofLe h) 1215 1152 - 0x1000)).isSome

/-- RESTORE_COMPLETE (R369): the end of the restore under way, once its source has given what it needs or is lost. -/
def execRestoreComplete (s : State) : Host.Outcome State Fault Refusal :=
  match s.resil.restore with
  | none => .next s
  | some r =>
    if r.source ≠ 0 then .next (s.finishRestore fun off n => readBytes resilInit .pass (s.farSlot r.slot + off) n)
    else if s.obj oTwinState ≠ 1 then .next (s.endRestore 5)
    else if s.fetched r then
      .next (s.finishRestore fun off n => match r.bytes off n with
        | some bs => pure bs
        | none => throw (.absent off))
    else .next s

/-! ### Dusk (R371, Table 13.8) -/

/-- The snapshot record of the active program. -/
def State.snapRecord (s : State) : Option Nat :=
  (List.range (s.obj oActiveRecords)).findSome? fun i => (s.peekRecord i).filter fun r => recKind r == 7

/-- The solo snapshot of a Dusk (R371): steps 5 and 7 of R357 without barriers. -/
def State.soloSnapshot (s : State) : State :=
  let seq := s.obj oSnapshotSeq + 1
  let none_ (s : State) : State := s.raise 0x0701 0x0F 0 seq 0 0 3
  match s.snapRecord with
  | none => none_ s
  | some image =>
    let body : M Unit := do
      match ← readList resilInit (snapList image) with
      | none => mod none_
      | some dir =>
        let m : Midnight := { record := 0, seq := seq, entries := dir, total := slotTotal dir, entryTick := s.tick }
        let m ← writeCopies resilInit m (snapCursor image) 0 true false
        closeCopies resilInit m false
    match body.run s with
    | .ok _ s' => s'
    | .error _ s' => none_ s'

/-- Is every engine idle? -/
def State.enginesIdle (s : State) : Bool :=
  s.sched.tasks.isEmpty && s.mem.queue.isEmpty && s.mem.asks.isEmpty && s.mem.migrations.isEmpty

/-- DUSK_IDLE (R371): dirty lines written back, the solo snapshot when asked for, and the dusk messages. -/
def execDuskIdle (s : State) : Host.Outcome State Fault Refusal :=
  if s.resil.duskStage ≠ 1 ∨ !s.enginesIdle then .next s
  else
    let s := s.cleanLines
    let s := if s.resil.dusk = 3 then s.soloSnapshot else s
    let s := s.upPorts.foldl (fun s p => s.sendDirect p 2 0 (s.obj (oPeerRank p)) 0x15 (zeroBytes 16)) s
    .next { s with resil := { s.resil with duskStage := 2 } }

/-- DUSK_PORT_STOP (R371): the ports stop and are held in DOWN. The manual names no cause for this end of a link: it is
a free value. -/
def execDuskPortStop (s : State) : Host.Outcome State Fault Refusal :=
  if s.resil.duskStage ≠ 2 then .next s
  else
    let s := (List.range 32).foldl (fun s p =>
      if s.link p ≤ 1 then s
      else
        let (c, s) := s.takeFree 8
        s.linkDown p 1 c) s
    .next { s with resil := { s.resil with duskStage := 3 } }

end Sys2Proof.Machine
end

