-- ==== Sys2Proof/Machine/FarPorts.lean ====
section
/-! DEFINITION. The links of the host port and the far ports (R402, R412–R417, R428). -/

namespace Sys2Proof.Machine

/-! ### The host link (R402, R417) -/

/-- The host link as DOWN, without an event. -/
def State.hostQuiet (s : State) : State :=
  let s := ((s.setObj oHostLinkState 1).setObj oHostLinkSpeed 0).setObj oHostLinkWidth 0
  { s with sec := { s.sec with ideStream := false } }

/-- The host link goes DOWN with a cause of Table 15.7, or fails to train. -/
def State.hostDown (s : State) (cause : Nat) : State := (s.hostQuiet).raise 0x0601 0x07 0 2 0 cause

/-- Is the host link held down: a reset before phase 6 of Dawn, unless phase 5 waits for an image (R450, R452)? -/
def State.hostHeld (s : State) : Bool :=
  s.rst.inReset && s.rst.level != 2 && decide (s.obj oDawnPhase < 6) && !(s.rst.needFw || s.rst.needHub)

/-- HOST_LINK_UP (R417). -/
def execHostLinkUp (speed width : Nat) (s : State) : Host.Outcome State Fault Refusal :=
  if s.obj oHostLinkState = 4 ∨ s.hostHeld then .next s
  else .next (((s.setObj oHostLinkState 4).setObj oHostLinkSpeed (speed % 256)).setObj oHostLinkWidth (width % 256))

/-- HOST_LINK_DOWN (R417): causes 1 and 3 of Table 15.7, from UP or while training. -/
def execHostLinkDown (cause : Nat) (s : State) : Host.Outcome State Fault Refusal :=
  if s.hostHeld ∨ (cause ≠ 1 ∧ cause ≠ 3) then .next s else .next (s.hostDown cause)

/-- HOT_RESET (R402): hot reset or link disable; the device goes on. -/
def execHotReset (s : State) : Host.Outcome State Fault Refusal :=
  if s.obj oHostLinkState = 4 then .next (s.hostDown 4) else .next s

/-! ### The far links (R412–R417) -/

/-- The state of a far port with its byte of `far_link_state` (R417). -/
def State.setFarState (s : State) (h : Nat) (q : FarPort) : State :=
  (s.setFar h q).setObj oFarLinkState (setField (s.obj oFarLinkState) (8 * h + 7) (8 * h) q.state)

/-- A far port goes DOWN with a cause of Table 15.7 (R286, R415, R417), or fails to train. -/
def State.farDown (s : State) (h cause : Nat) : State :=
  let s := s.setFarState h { s.farPort h with state := 1, ide := false, kept := false }
  ((s.losePort h).endSessions (40 + h)).raise 0x0601 0x06 h 1 h cause

/-- Far frames of a capacity (R413): the first 8 TiB at most. -/
def farFrames (bytes : Nat) : Nat := min bytes (2 ^ 43) / pageBytes

/-- Does a training end with cause 3: no IDE where it is required, or a digest other than the trusted one (R413, R428)? -/
def State.farRefused (s : State) (h : Nat) (f : FarFound) : Bool :=
  let ide := f.ide && decide (2 ≤ f.version)
  let trusted := s.obj (oFarTrustedDigestH0 + h)
  (s.obj oFarIdeRequired == 1 && !ide) || (trusted != 0 && f.digest != trusted)

/-- A far port UP with what firmware found (R413, R428). -/
def State.farUp (s : State) (h : Nat) (f : FarFound) : State :=
  let n := farFrames f.bytes
  let s := s.setFarState h { state := 4, frames := n, serial := f.serial, digest := f.digest
                             ide := f.ide && decide (2 ≤ f.version) }
  let s := (s.setObj (oFarCapacityH0 + h) (n * pageBytes)).setObj (oFarCertDigestH0 + h) f.digest
  let s := s.setObj oFarCxlVersions (setField (s.obj oFarCxlVersions) (8 * h + 7) (8 * h) f.version)
  let s := s.endSessions (40 + h)
  let s := if 2 ≤ f.version then
      { s with sec := { s.sec with sessions := s.sec.sessions ++ [(⟨40 + h, 0⟩ : Session)] } }.refreshSessions else s
  s.refreshFrames

/-- One training of a far port (R413, R415). -/
def State.farTrain (s : State) (h : Nat) (found : Option FarFound) : State :=
  match found with
  | none => s.farDown h 1
  | some f =>
    if s.farRefused h f then
      (s.setObj (oFarCertDigestH0 + h) f.digest).farDown h 3
    else s.farUp h f

/-- The retraining of an L1 reset (R416): an expander that is the same keeps its pages. -/
def State.farReturn (s : State) (h : Nat) (found : Option FarFound) : State :=
  let q := s.farPort h
  match found with
  | none => s.farDown h 1
  | some f =>
    if !s.farRefused h f && f.serial == q.serial && farFrames f.bytes == q.frames && (!q.ide || f.digest == q.digest) then
      s.farUp h f
    else if s.farRefused h f then s.farDown h 3
    else
      -- the manual names no cause for an expander that differs
      let (c, s) := s.takeFree 8
      s.farDown h c

/-- Phase 6 of Dawn on every far port (R413, R416). -/
def State.farDawn (s : State) (env : List (Option FarFound)) : State :=
  (List.range 4).foldl (fun s h =>
    let found := env.getD h none
    if (s.farPort h).kept then s.farReturn h found else s.farTrain h found) s

/-- FAR_LINK_LOSS (R286). -/
def execFarLinkLoss (port cause : Nat) (s : State) : Host.Outcome State Fault Refusal :=
  if port < 4 ∧ (s.farPort port).state = 4 ∧ (cause = 1 ∨ cause = 3) then .next (s.farDown port cause) else .next s

/-- FAR_REQUEST_TIMEOUT (R414). -/
def execFarRequestTimeout (port : Nat) (s : State) : Host.Outcome State Fault Refusal :=
  if port < 4 ∧ (s.farPort port).state = 4 then .next (s.farDown port 2) else .next s

/-- FAR_RETRAIN (R415): an attempt of a port that is DOWN outside a reset. -/
def execFarRetrain (port : Nat) (found : Option FarFound) (s : State) : Host.Outcome State Fault Refusal :=
  if port < 4 ∧ (s.farPort port).state ≠ 4 ∧ (!s.rst.inReset ∨ s.rst.level = 2) then .next (s.farTrain port found)
  else .next s

end Sys2Proof.Machine
end

