-- ==== Sys2Proof/Machine/Security.lean ====
section
/-! DEFINITION. Signed images and rollback floors (R422–R424), attestation (R420–R426), and the keys' readiness. -/

namespace Sys2Proof.Machine

/-! ### Images (Tables 16.2, 16.3; R422, R423) -/

/-- The parts of an image. -/
structure ImageView where
  magic : Nat
  format : Nat
  kind : Nat
  version : Nat
  /-- does the layout hold: the body's length and the whole's -/
  sized : Bool
  digest : List Byte
  modulus : List Byte
  key : List Byte
  rsaSig : Nat
  slhSig : Nat
deriving DecidableEq, Repr

/-- Reads an image. -/
def readImage (bs : List Byte) : ImageView :=
  let h := ofLe (bs.take 64)
  let n := field h 127 96
  let part (off len : Nat) : List Byte := (bs.drop (64 + n + off)).take len
  { magic := field h 63 32, format := field h 71 64, kind := field h 79 72, version := field h 95 80
    sized := n % 64 == 0 && decide (n ≤ 2 ^ 26) && bs.length == 64 + n + 17040
    digest := sha384 (bs.take (64 + n + 432)), modulus := part 0 384, key := part 384 48
    rsaSig := ofBe (part 432 384), slhSig := ofBe (part 816 16224) }

/-- Why the boot ROM refuses an image of a kind, as w1 of SIGNATURE_FAIL: [0] RSA, [1] SLH-DSA, [2] floor or format;
0 for accepted (R423). -/
def imageFaults (v : ImageView) (kind floor : Nat) : Nat :=
  let rsa := ofBe (sha384 v.modulus) == Config.rootDigestRsa.toNat &&
    Config.rsaVerify (ofBe v.modulus) (ofBe v.digest) v.rsaSig
  let slh := ofBe (sha384 v.key) == Config.rootDigestSlh.toNat && Config.slhVerify (ofBe v.key) (ofBe v.digest) v.slhSig
  let fmt := v.magic == 0x4B4E4657 && v.format == 1 && v.kind == kind && v.sized && decide (floor ≤ v.version)
  bitOf (!rsa) + 2 * bitOf (!slh) + 4 * bitOf (!fmt)

/-- The rollback floor of a kind as programmed (R424). -/
def State.floorOf (s : State) (kind : Nat) : Nat :=
  if kind = 1 then s.sec.fwFloors.getLast?.getD Config.otpFloorFw.toNat
  else s.sec.hubFloors.getLast?.getD Config.otpFloorHub.toNat

/-- Checks one image; a refused one raises SIGNATURE_FAIL. -/
def State.checkImage (s : State) (bs : List Byte) (kind : Nat) : Option ImageView × State :=
  let v := readImage bs
  match imageFaults v kind (s.floorOf kind) with
  | 0 => (some v, s)
  | f => (none, s.raise 0x0802 0x0D 0 v.kind f v.version)

/-- Runs an accepted image (R423, Table 16.5): its version, slot and measurement. -/
def State.runImage (s : State) (v : ImageView) (kind slot : Nat) : State :=
  let d := ofLe v.digest
  let s := s.setObj oBootSlots (setField (s.obj oBootSlots) (kind - 1) (kind - 1) slot)
  if kind = 1 then
    { ((s.setObj oFirmwareVersion v.version).setObj oMeasurement2 d) with rst := { s.rst with needFw := false } }
  else
    { s.setObj oMeasurement3 d with
      sec := { s.sec with hubVersion := v.version }, rst := { s.rst with needHub := false } }

/-- The boot ROM's choice between the slots of a kind (R423): the accepted image of higher version, slot 0 on a tie. -/
def State.bootSlots (s : State) (slots : List (List Byte)) (kind : Nat) : State :=
  let (best, s) := slots.zipIdx.foldl (fun (p : Option (ImageView × Nat) × State) q =>
    let (v, s) := p.2.checkImage q.1 kind
    match v, p.1 with
    | some v, none => (some (v, q.2), s)
    | some v, some b => (if b.1.version < v.version then some (v, q.2) else some b, s)
    | none, b => (b, s)) (none, s)
  match best with
  | some (v, slot) => s.runImage v kind slot
  | none =>
    if kind = 1 then { s.setObj oFirmwareVersion 0 with rst := { s.rst with needFw := true } }
    else { s with rst := { s.rst with needHub := true } }

/-- An image pushed while phase 5 waits for one (R452): its kind decides which slot it stands in for. -/
def State.pushImage (s : State) (bs : List Byte) : State :=
  if !(s.rst.needFw || s.rst.needHub) then s
  else
    let k := (readImage bs).kind
    let kind := if s.rst.needFw ∧ (k = 1 ∨ !s.rst.needHub) then 1 else 2
    match s.checkImage bs kind with
    | (some v, s) => (s.runImage v kind 0).setObj oPushStatus 2
    | (none, s) => s.setObj oPushStatus 3

/-! ### Rollback floors (R424) -/

/-- Version of a kind that is running. -/
def State.runningVersion (s : State) (kind : Nat) : Nat :=
  if kind = 1 then s.obj oFirmwareVersion % 65536 else s.sec.hubVersion

/-- Programs the next generation of a kind's floor with the version that is running: none where R424 refuses it. -/
def State.raiseFloor (s : State) (kind : Nat) : Option State :=
  if kind ≠ 1 ∧ kind ≠ 2 then none
  else
    let v := s.runningVersion kind
    let gens := if kind = 1 then s.sec.fwFloors else s.sec.hubFloors
    if v ≤ s.floorOf kind ∨ 3 ≤ gens.length then none
    else
      let s := if kind = 1 then
          { s.setObj oRollbackFloorFw v with sec := { s.sec with fwFloors := gens ++ [v] } }
        else { s.setObj oRollbackFloorHub v with sec := { s.sec with hubFloors := gens ++ [v] } }
      some s.refreshMeasurements

/-! ### SPDM (R425, R426): codes of SPDM 1.2 (PRESUMED, log entry 51) -/

/-- Digest of a measurement block (Table 16.5). -/
def State.measurement (s : State) (i : Nat) : List Byte := leBytes 48 (s.obj (oMeasurement1 + i - 1))

/-- A certificate chain that is served: one whose device certificate holds the derived key (R421). -/
def servedChain (slot : Nat) : List Byte :=
  let chain := Config.flashChain slot
  if Config.chainHolds chain (if slot = 0 then Config.publicKeys.1 else Config.publicKeys.2) then chain else []

/-- A response with both signatures over it (Table 16.4). -/
def signedResp (code : Nat) (body : List Byte) : SpdmResp :=
  .signed code body (Config.rsaSign (BitVec.ofNat 8 code :: body)) (Config.slhSign (BitVec.ofNat 8 code :: body))

/-- Sessions of a channel. -/
def State.sessionsOf (s : State) (channel : Nat) : List Session := s.sec.sessions.filter (·.channel == channel)

/-- Has a channel the session? -/
def State.hasSession (s : State) (channel id : Nat) : Bool := (s.sessionsOf channel).any (·.id == id)

/-- Ends one session of a channel. -/
def State.endSession (s : State) (channel id : Nat) : State :=
  { s with sec := { s.sec with
      sessions := s.sec.sessions.filter fun x => !(x.channel == channel && x.id == id) } }.refreshSessions

/-- ERROR ResponseNotReady until the RSA pair is ready (R420). -/
def State.needsRsa (s : State) (r : SpdmResp) : SpdmResp := if s.obj oRsaReady = 0 then .error 0x42 else r

/-- What the responder answers on channel 0 (DOE) or 1 (Felby), and the state after. -/
def State.spdm (s : State) (channel : Nat) (req : SpdmReq) : SpdmResp × State :=
  match req with
  | .getVersion => (.plain 0x04 [0x12], s)
  | .getCapabilities => (.plain 0x61 [], s)
  | .negotiateAlgorithms => (.plain 0x63 [], s)
  | .getDigests => (.plain 0x01 (sha384 (servedChain 0) ++ sha384 (servedChain 1)), s)
  | .getCertificate slot offset len =>
    (if 1 < slot then .error 0x01 else .plain 0x02 (((servedChain slot).drop offset).take len), s)
  | .challenge slot nonce =>
    (if 1 < slot then .error 0x01
     else s.needsRsa (signedResp 0x03 (sha384 (servedChain slot) ++ nonce)), s)
  | .getMeasurements index sign slot nonce =>
    let body := if index = 0xFF then (span 1 6).flatMap s.measurement else if index = 0 then [6] else s.measurement index
    (if 6 < index ∧ index ≠ 0xFF ∨ 1 < slot then .error 0x01
     else if sign then s.needsRsa (signedResp 0x60 (body ++ nonce)) else .plain 0x60 body, s)
  | .keyExchange slot body =>
    (if 1 < slot then .error 0x01 else if 4 ≤ (s.sessionsOf channel).length then .error 0x0A
     else s.needsRsa (signedResp 0x64 body), s)
  | .finish id valid =>
    if !valid then (.error 0x06, s.count oSpdmFailures)
    else if 4 ≤ (s.sessionsOf channel).length ∨ s.hasSession channel id then (.error 0x0A, s)
    else (.plain 0x65 [], { s with sec := { s.sec with
      sessions := s.sec.sessions ++ [(⟨channel, id⟩ : Session)] } }.refreshSessions)
  | .heartbeat id => (if s.hasSession channel id then .plain 0x68 [] else .error 0x02, s)
  | .keyUpdate id => (if s.hasSession channel id then .plain 0x69 [] else .error 0x02, s)
  | .endSession id => if s.hasSession channel id then (.plain 0x6C [], s.endSession channel id) else (.error 0x02, s)
  | .ideKm id establish =>
    if channel = 0 ∧ s.hasSession channel id then
      (.plain 0x7E [], { s with sec := { s.sec with ideStream := establish } })
    else (.error 0x02, s)
  | .other _ => (.error 0x07, s)

/-- Answers a request on the DOE mailbox. -/
def State.answerDoe (s : State) (req : SpdmReq) : State :=
  let (r, s) := s.spdm 0 req
  s.emit (.spdm r)

/-- Is firmware in service to answer: outside a reset? -/
def State.served (s : State) : Bool := !s.rst.inReset

/-- DOE_REQUEST (R425): over an UP host link. -/
def execDoeRequest (req : SpdmReq) (s : State) : Host.Outcome State Fault Refusal :=
  if s.served ∧ s.obj oHostLinkState = 4 then .next (s.answerDoe req) else .next s

/-- RSA_KEY_READY (R420): after Dawn has started firmware. -/
def execRsaKeyReady (s : State) : Host.Outcome State Fault Refusal :=
  if s.rst.inReset then .next s else .next (s.setObj oRsaReady 1)

/-! ### Job tables (R437) -/

/-- TABLE_CLEAR_DONE (R437): the clearing ends; every byte it writes is zero, and the next boundary loads the tables. -/
def execTableClearDone (s : State) : Host.Outcome State Fault Refusal :=
  if s.obj oTableState = 1 ∧ s.sec.clearing then
    .next { s.clearAll with sec := { s.sec with clearing := false } }
  else .next s

end Sys2Proof.Machine
end

