-- ==== Sys2Proof/Machine/Reset.lean ====
section
/-! DEFINITION. Resets, Dawn, the one-time-programmable bits, power and clocks (R441–R466). -/

namespace Sys2Proof.Machine

/-! ### The reach table (R442, R443, R455) -/

/-- Reach table as programmed (R443); the new one governs from the next reset. -/
def State.reachOtp (s : State) : Nat := s.sec.reachTables.getLast?.getD 0x3D244

/-- Level of a source (R443). -/
def State.reachOf (s : State) (source : Nat) : Nat := (s.reachOtp >>> (2 * source)) % 4

/-- Levels a source may have (Table 17.1). -/
def reachAllowed (source level : Nat) : Bool :=
  match source with
  | 0 | 5 => level == 0
  | 1 | 2 | 6 => decide (level ≤ 1)
  | 3 => decide (level ≤ 2)
  | 4 => level == 1 || level == 2
  | 7 | 8 => level == 3
  | _ => false

/-- Programs the next generation of the reach table with one entry changed (R443): none where it refuses. -/
def State.programReach (s : State) (value : Nat) : Option State :=
  let source := field value 11 8
  let level := field value 1 0
  if !reachAllowed source level ∨ 3 ≤ s.sec.reachTables.length ∨ s.running then none
  else
    let t := setField (s.obj oReachTable) (2 * source + 1) (2 * source) level
    some { s with sec := { s.sec with reachTables := s.sec.reachTables ++ [t] } }

/-- Highest valid generation of each field of Table 17.5, 2 bits each (Table 17.9; log entry 50). -/
def State.otpGenerations (s : State) : Nat :=
  s.sec.fwFloors.length <<< 12 + s.sec.hubFloors.length <<< 14 + s.sec.reachTables.length <<< 16

/-- What phase 1 of Dawn takes from the one-time-programmable bits (R455). -/
def State.readFuses (s : State) : State :=
  let s := (s.setObj oRollbackFloorFw (s.floorOf 1)).setObj oRollbackFloorHub (s.floorOf 2)
  let s := (s.setObj oOtpFloorFw (s.floorOf 1)).setObj oOtpFloorHub (s.floorOf 2)
  (s.setObj oReachTable s.reachOtp).setObj oOtpGenerations s.otpGenerations

/-! ### What each level clears (Table 17.2, R446, R447) -/

/-- Streams of the compute die's flag blocks: tiles and gather engines (Table 9.2). -/
def dieStreams : Nat := 2112

/-- What an L2 reset clears: the logic of the compute die. -/
def State.clearDie (s : State) : State :=
  let s := if s.running then s.armVector 11 else s
  let s := if s.obj oRestoreStatus = 0 then s else s.armVector 12
  let s := s.rollbackMigrations.clearSram fun _ => true
  let num : Numerics := { s.num with
    sticky := s.num.sticky.filter fun q => decide (dieStreams ≤ q.1), stickyClear := [], arrays := [] }
  let sched : Sched := { s.sched with
    tasks := [], halt := none, slipped := [], freshProgram := false, startAsked := false, rewritten := false
    periodNext := none }
  let mem : Mem := { s.mem with tcaches := [], queue := s.mem.queue.filter fun q => match q with
    | .task _ => false
    | _ => true }
  let colls : Colls := { s.colls with tasks := [] }
  let resil : Resilience := { s.resil with midnight := none, restore := none, dusk := 0, duskStage := 0 }
  let s : State := { s with
    num := num, sched := sched, mem := mem, colls := colls, resil := resil, timing := {}
    dict := { s.dict with committed := [] } }
  let s := (s.endSessions 0).endSessions 1
  (((s.setObj oSchedulerState 0).setObj oRestoreStatus 0).setObj oTwinState 0).placeInTree

/-- Link state of a port after a reset that takes it down (Table 11.11). -/
def State.portAfterReset (s : State) (p : Nat) : Nat := bitOf (flag (s.obj oPortEnable) p)

/-- A port whose hub is reset (R303, R304, R319): what was part way in is lost and counted; from UP and from a failed attach
there is LINK_DOWN, whose cause the manual does not give for such a reset: a free value. -/
def State.hubLoses (s : State) (p : Nat) : State :=
  let old := s.link p
  let s := s.addObj oAbortedMessages ((s.port p).incoming.filter (·.fate != .discard)).length
  let s := ((s.setObj (oLinkState p) (s.portAfterReset p)).setObj (oLinkRate p) 0).endSessions (2 + p)
  if old < 2 then s
  else
    let (c, s) := s.takeFree 8
    let s := (s.setObj (oLastDownCause p) c).count (oLinkDownCount p)
    if old = 2 then s else s.raise 0x0601 0x05 p 0 p c (s.obj (oPeerRank p))

/-- What an L1 reset clears beside: the hubs, and a mesh that was unusable (R6, R449). A far link is not lost by it (R416); the
host's goes down at the data-link layer (Table 15.7; log entry 116). -/
def State.clearHubs (s : State) : State :=
  let s := if s.obj oHostLinkState = 4 then s.hostDown 1 else s.hostQuiet
  let s := ((List.range 32).foldl State.hubLoses s).loseCache
  let s : State := { s with
    mem := { s.mem with spill := [] }
    colls := { s.colls with readies := [], debts := [], carried := [] }
    num := { s.num with sticky := [] }
    ports := []
    rst := { s.rst with meshStuck := false }
    dict := { s.dict with msixTable := [], msixPending := 0, msixConds := 0 } }
  (List.range 4).foldl (fun s h =>
    let q := s.farPort h
    (s.setFarState h { q with state := 1, kept := q.kept || q.state == 4 }).endSessions (40 + h)) s.refreshPortsUp.placeInTree

/-- What an L0 reset leaves: the state after reset, with what no reset clears (R445, R455). -/
def State.clearAllOf (s : State) : State :=
  let sec : Security := { fwFloors := s.sec.fwFloors, hubFloors := s.sec.hubFloors, reachTables := s.sec.reachTables }
  let t : State := { State.reset with
    pending := s.pending, out := s.out, freeCtr := s.freeCtr, sec := sec
    rst := { holding := s.rst.holding, thermTrip := s.rst.thermTrip } }
  (t.setObj oResetCause (s.obj oResetCause)).setObj oResetCount (s.obj oResetCount)

/-- Performs the clearing of a level. -/
def State.clearLevel (s : State) (level : Nat) : State :=
  if level = 0 then s.clearAllOf
  else if level = 1 then s.clearDie.clearHubs
  else s.clearDie

/-- Records a reset that is not absorbed (R445). -/
def State.recordReset (s : State) (source level : Nat) : State :=
  (s.setObj oResetCause (source <<< 8 + level)).setObj oResetCount ((s.obj oResetCount + 1) % 2 ^ 32)

/-- Starts a reset of L2 or wider at a level (R444, R445, R450). -/
def State.startReset (s : State) (source level : Nat) : State :=
  let s := s.clearLevel level
  let s := { s with rst := { s.rst with inReset := true, level := level, needFw := false, needHub := false } }
  let s := s.recordReset source level
  ((s.setObj oDawnPhase 1).setObj oFirmwareVersion 0).setObj oRsaReady 0

/-- A source asserts (R442, R444): one of equal or narrower level during a reset is absorbed. `holds` says that its
condition persists. -/
def State.assertReset (s : State) (source : Nat) (holds : Bool) : State :=
  let level := s.reachOf source
  let s := if holds then { s with rst := { s.rst with holding := setAdd source s.rst.holding } } else s
  if s.rst.inReset ∧ s.rst.level ≤ level then s else s.startReset source level

/-! ### The sources (Table 17.1) -/

/-- Core power is removed (R441): an L0 reset even within one, after which the cause and the count are cleared (R445); no
trip of the thermal logic lasts (log entry 119). -/
def State.losePower (s : State) : State :=
  let s := s.startReset 0 0
  let s := { s with rst := { s.rst with holding := setAdd 0 (setDel 5 s.rst.holding), thermTrip := false } }
  (s.setObj oResetCause 0).setObj oResetCount 1

/-- POWER_ON_RESET (R442, R465). -/
def execPowerOnReset (removed : Bool) (s : State) : Host.Outcome State Fault Refusal :=
  .next (if removed then s.losePower else s.assertReset 0 true)

/-- PERST (R442). -/
def execPerst (s : State) : Host.Outcome State Fault Refusal := .next (s.assertReset 1 true)

/-- SYS_RST (R442). -/
def execSysRst (s : State) : Host.Outcome State Fault Refusal := .next (s.assertReset 2 true)

/-- WATCHDOG_EXPIRY (R453): the watchdog runs once phase 5 has started firmware. -/
def execWatchdogExpiry (s : State) : Host.Outcome State Fault Refusal :=
  if s.rst.inReset ∧ s.obj oDawnPhase ≤ 5 then .next s else .next (s.assertReset 4 false)

/-- THERMAL_TRIP (R463). -/
def execThermalTrip (temps : List Int) (s : State) : Host.Outcome State Fault Refusal :=
  if temps.any fun t => decide (115 ≤ t) then
    let s := s.assertReset 5 true
    .next { s with rst := { s.rst with thermTrip := true } }
  else .next s

/-- A source's condition has ended. -/
def State.releaseSource (s : State) (source : Nat) : State :=
  { s with rst := { s.rst with holding := setDel source s.rst.holding } }

/-- THERMAL_TRIP_RELEASE (R463). -/
def execThermalTripRelease (temps : List Int) (s : State) : Host.Outcome State Fault Refusal :=
  if s.rst.thermTrip ∧ temps.all fun t => decide (t < 100) then
    let s := s.releaseSource 5
    .next { s with rst := { s.rst with thermTrip := false } }
  else .next s

/-- RESET_RELEASE (R444): power-on, PERST# or SYS_RST_N. -/
def execResetRelease (source : Nat) (s : State) : Host.Outcome State Fault Refusal :=
  if source < 3 then .next (s.releaseSource source) else .next s

/-- TWIN_RESET_REQUEST (R354, R352). -/
def execTwinResetRequest (port vc : Nat) (s : State) : Host.Outcome State Fault Refusal :=
  .next (s.onTwin port vc 0x16 fun _ s => if s.obj oTwinResetEnable = 1 then s.assertReset 6 false else s)

/-! ### Resets of one block (R449) -/

/-- A transfer of a block that is reset may be part-way across the mesh: whether the mesh goes on is undefined (R6, R449), a
free bit. A command is one step and shows no transfer half done: one may be wherever a task runs on the tile, or a message is
part way through the port. DESIGN CHOICE (log entry 110). -/
def State.mayStick (s : State) (partWay : Bool) : State :=
  if !partWay then s
  else
    let (b, s) := s.takeFree 1
    { s with rst := { s.rst with meshStuck := s.rst.meshStuck || b == 1 } }

/-- Does a task run on tile `n`? -/
def Task.onTile (t : Task) (n : Nat) : Bool := (recKind t.image == 1 || recKind t.image == 2) && t.runs n

/-- A task that runs on tile `n` never finishes there, and its results are undefined. -/
def Task.strand (n : Nat) (t : Task) : Task := if t.onTile n then { t with stuck := true, undef := true } else t

/-- A tile is reset: its SRAM, translation cache, flags and array; tasks on it never finish, and their outputs are free (log
entry 12). -/
def State.resetTile (s : State) (n : Nat) : State :=
  let hit := s.sched.tasks.filter (·.onTile n)
  let s := (hit.flatMap s.taskOuts).foldl (fun s q => s.scramble [0] q.1 q.2) s
  let s := (s.mayStick !hit.isEmpty).clearSram (· == n)
  { s with
    sched := { s.sched with tasks := s.sched.tasks.map (Task.strand n) }
    mem := { s.mem with tcaches := mapErase s.mem.tcaches n }
    num := { s.num with sticky := mapErase s.num.sticky n, arrays := mapErase s.num.arrays n } }

/-- Is a message part-way across the mesh at a port: in, or out? -/
def State.crossing (s : State) (p : Nat) : Bool :=
  (s.port p).incoming.any (fun i => i.fate != .open && i.fate != .discard) || !(s.port p).queue.isEmpty ||
    s.ports.any (fun q => q.2.incoming.any (Incoming.cutTo p))

/-- A port is reset: DOWN with cause 5. -/
def State.resetPort (s : State) (p : Nat) : State := (s.mayStick (s.crossing p)).linkDown p (s.portAfterReset p) 5

/-! ### Dawn (R450–R452, Table 17.3) -/

/-- The phase after one, at the level of the reset under way. -/
def State.phaseAfter (s : State) (k : Nat) : Nat :=
  if s.rst.level = 2 ∧ (k = 3 ∨ k = 5) then k + 2 else k + 1

/-- Moves to the next phase. -/
def State.nextPhase (s : State) (k : Nat) : State := s.setObj oDawnPhase (s.phaseAfter k)

/-- Phase 5 (R423): the choice of images, and the measurements of what is running. -/
def State.bootPhase (s : State) (env : DawnEnv) : State :=
  let s := (s.bootSlots env.fwSlots 1).bootSlots env.hubSlots 2
  (s.setObj oMeasurement1 Config.bootRomDigest.toNat).refreshMeasurements

/-- Phase 7 (R451). -/
def State.selfTest (s : State) (env : DawnEnv) : State :=
  let bad := (List.range 2048).filter env.failedTiles.contains
  let s := (List.range 32).foldl State.pump { s with rst := { s.rst with inReset := false } }
  match bad with
  | [] => (((s.setObj oSelftestFailedTiles 0).setObj oSelftestFirstTile 0xFFFF).setObj oDawnPhase 0xFF).setObj oDawnMs
      (env.ms % 2 ^ 32)
  | t :: _ =>
    ((s.setObj oSelftestFailedTiles bad.length).setObj oSelftestFirstTile t).raise 0x0102 0x01 t 0xFFFFFFFF 0x0A t

/-- Does phase 5 wait for an image (R452)? -/
def State.waitsImage (s : State) : Bool := s.rst.needFw || s.rst.needHub

/-- One phase's work, and the phase after it. -/
def State.dawnPhase (s : State) (env : DawnEnv) : State :=
  match s.obj oDawnPhase with
  | 1 => s.readFuses.nextPhase 1
  | 2 => (s.emit (.pmbus Config.setpointMv)).nextPhase 2
  | 5 =>
    let s := s.bootPhase env
    if s.waitsImage then s else s.nextPhase 5
  | 6 => (s.farDawn env.far).nextPhase 6
  | 7 => s.selfTest env
  | k => s.nextPhase k

/-- DAWN_PHASE_DONE (R450): no phase ends while a source holds the device in reset, or while phase 5 waits. -/
def execDawnPhaseDone (env : DawnEnv) (s : State) : Host.Outcome State Fault Refusal :=
  if s.rst.inReset ∧ s.rst.holding.isEmpty ∧ !s.waitsImage then .next (s.dawnPhase env) else .next s

/-- The push of an image goes on with Dawn once nothing is missing (R452). -/
def State.pushAndGo (s : State) (bs : List Byte) : State :=
  if !s.waitsImage then s
  else
    let s := s.pushImage bs
    if s.waitsImage then s else s.nextPhase 5

/-! ### Lands (R454, Tables 17.4, 18.5) -/

/-- What a land shows: driven by its function, pulled up and not driven, low, or released. -/
inductive Land where
  | driven | pulledUp | low | released
deriving DecidableEq, Repr

/-- A group that a reset leaves undriven until a phase of Dawn. -/
def State.landFrom (s : State) (phase : Nat) (l2 : Bool) : Land :=
  if s.rst.inReset && (l2 || s.rst.level != 2) && decide (s.obj oDawnPhase < phase) then .pulledUp else .driven

/-- PMB_SCL and PMB_SDA. -/
def State.pmbusLand (s : State) : Land := s.landFrom 2 false

/-- The xSPI lands. -/
def State.xspiLand (s : State) : Land := s.landFrom 5 true

/-- THERM_TRIP_N (R463). -/
def State.thermTripLand (s : State) : Land := if s.rst.thermTrip then .low else .released

/-- TDO: the board keeps the test access port in Test-Logic-Reset (R473). -/
def tdoLand : Land := .pulledUp

/-- Is a record's class notified (R393, R475)? -/
def State.classOn (s : State) (e : EventRec) : Bool := flag (s.obj oEventNotifyMask) (e.code / 256 - 1)

/-- ALERT_N (R475, Table 17.4): low while the log holds an unacknowledged record of a class that is notified, released in a
reset (log entry 118). -/
def State.alertLand (s : State) : Land :=
  if !s.rst.inReset && s.dict.log.any (fun e => s.classOn e && decide (s.obj oEventAckedSeq ≤ e.seq)) then .low
  else .released

/-! ### Power and clocks (R460, R465) -/

/-- VCORE_OVERCURRENT (R460): at a step cycle of cohort 0 with the current above 2,300 A. The arrays' levels follow the new cap
as their cycles go on (log entry 26). -/
def execVcoreOvercurrent (currentA : Nat) (s : State) : Host.Outcome State Fault Refusal :=
  if currentA ≤ 2300 then .next s
  else .next (s.setObj oNoonCap (max (s.obj oNoonCap - 1) 1))

/-- REFCLK_LOSS (R465): the ports that the clock feeds go down with cause 1. -/
def execRefclkLoss (clk : RefClk) (s : State) : Host.Outcome State Fault Refusal :=
  match clk with
  | .fab => .next ((List.range 32).foldl (fun s p => s.linkDown p 1 1) s)
  | .pcie =>
    let s := if s.obj oHostLinkState = 4 then s.hostDown 1 else s
    .next ((List.range 4).foldl (fun s h => if (s.farPort h).state = 4 then s.farDown h 1 else s) s)

end Sys2Proof.Machine
end

