-- ==== Sys2Proof/Machine/Dictionary.lean ====
section
/-! DEFINITION. Access to the object dictionary (R374–R387, R432, R435, R436): values, rights, writes, commits, BAR0 and
the transfer window. -/

namespace Sys2Proof.Machine

/-! ### Values -/

/-- A record of the event log as its 64 bytes hold it (Table 14.9). -/
def eventImage (e : EventRec) : Nat :=
  let w (x : Nat) : Nat := x % 2 ^ 64
  w e.seq + w e.tick <<< 64 + (e.code % 65536) <<< 128 + (e.source % 256) <<< 144 + (e.unit % 2 ^ 32) <<< 160 +
    w e.w0 <<< 192 + w e.w1 <<< 256 + w e.w2 <<< 320 + w e.w3 <<< 384 + w e.w4 <<< 448

/-- Entries of a map at multiples of a width. -/
def packMap (width : Nat) (m : NatMap) : Nat := m.foldl (fun a p => a + (p.2 % 2 ^ width) <<< (width * p.1)) 0

/-- A header held in memory, zeros where its page is absent (Table 13.9). -/
def State.headerAt (s : State) (configured : Bool) (va : Nat) : Nat :=
  if !configured ∨ s.anyAbsent va 256 then 0
  else ofLe ((pieces va 256).flatMap fun p =>
    memBytes s.mem.cells (entPhys (s.entry (p.1 / pageBytes)) + p.1 % pageBytes) p.2)

/-- The OR of every block's sticky flags (Table 3.10). -/
def State.stickySummary (s : State) : Nat := s.num.sticky.foldl (fun a p => a ||| p.2) 0 % 16

/-- FLUSH flags by tile (Table 3.10). -/
def State.flushMap (s : State) : Nat :=
  s.num.sticky.foldl (fun a p => if p.1 < 2048 ∧ flag p.2 0 then a + 2 ^ p.1 else a) 0

/-- Byte of a code in `event_counts` (Table 14.13). -/
def eventCountByte (code : Nat) : Nat := 8 * (4 * (code / 256 - 1) + code % 256 - 1)

/-- The value that a read of the object returns (R375, R377), `tick_phase` apart. -/
def State.objectValue (s : State) (d : ObjDef) : Nat :=
  let key := objKey d.index d.sub
  if d.sub = 0 then d.dflt
  else match key with
    | 0x203001 => packMap 32 s.sched.counters
    | 0x204002 => packMap 16 s.sched.credits
    | 0x260101 => s.stickySummary
    | 0x260103 => s.flushMap
    | 0x261002 => s.streamImages 0
    | 0x262005 => packMap 64 (s.sched.fallback.zipIdx.map fun p => (p.2, p.1))
    | 0x500101 => s.headerAt s.twinned (s.heldSlot 0)
    | 0x500102 => s.headerAt s.twinned (s.heldSlot 1)
    | 0x500103 => s.headerAt (s.obj oFarSnapshotBase != 0) (s.farSlot 0)
    | 0x500104 => s.headerAt (s.obj oFarSnapshotBase != 0) (s.farSlot 1)
    | 0x700005 => ofLe (servedChain 0)
    | 0x700006 => ofLe (servedChain 1)
    | 0x900001 => s.dict.log.foldl (fun a e => a + eventImage e <<< (512 * (e.seq % 4096))) 0
    | 0x900005 => s.dict.eventCounts.foldl (fun a p => a + p.2 <<< (8 * eventCountByte p.1)) 0
    | _ => if d.access = .staged then s.pendObj key else s.obj key

/-- Reads the object: `tick_phase` is the time within the tick, which the model does not keep (log entry 55). -/
def readObject (d : ObjDef) : M Nat := do
  if d.index = 0x2000 ∧ d.sub = 2 then freeM 32 else return (← get).objectValue d

/-! ### Rights (Table 14.2; R432, R435, R436) -/

/-- Felby status codes (Table 14.7). -/
abbrev stOk : Nat := 0
/-- No such index or sub-index. -/
abbrev stNoObject : Nat := 1
/-- Read of a wo object. -/
abbrev stNotReadable : Nat := 2
/-- Write to a const or ro object. -/
abbrev stNotWritable : Nat := 3
/-- Lengths that do not fit. -/
abbrev stSize : Nat := 4
/-- A value that is refused. -/
abbrev stValue : Nat := 5
/-- A commit that is refused. -/
abbrev stCommitRefused : Nat := 6
/-- A segment out of order. -/
abbrev stSegment : Nat := 7
/-- Refused by an access table or for want of a session. -/
abbrev stDenied : Nat := 8

/-- Is the path's session or stream what R427 and R432 require for this access? -/
def State.sessionOk (s : State) (p : Path) (index : Nat) (write : Bool) : Bool :=
  match p with
  | .core _ => true
  | .host ide => ide || s.obj oHostIdeRequired == 0
  | .mgmt _ secured =>
    let open_ := secured && !(s.sessionsOf 1).isEmpty
    let guarded := (decide (0x7000 ≤ index) && decide (index ≤ 0x71FF)) || (decide (0x8000 ≤ index) && decide (index ≤ 0x80FF))
    match s.obj oMgmtSecureMode with
    | 0 => true
    | 1 => open_ || !(write && guarded)
    | _ => open_ || (!write && index / 256 == 0x10)

/-- Do the access tables grant the access (R434, R435)? -/
def State.tableOk (s : State) (p : Path) (index sub : Nat) (write : Bool) : Bool :=
  let grant (sect : Nat) : Bool := flag (s.dictRights sect index) (bitOf write)
  if (!write && index / 256 == 0x10) || (index == 0x7100 && sub == 2) then true
  else match p with
    | .core _ => true
    | .host _ => grant 0
    | .mgmt _ _ => grant 1

/-- A refusal by session or table: counted, with ACCESS_DENIED (R436). The address word is index and sub-index (log
entry 52). -/
def State.denyObject (s : State) (p : Path) (index sub : Nat) (write : Bool) : State :=
  let w := if write then 2 else 1
  match p with
  | .core u => s.noteDenied 3 u (objKey index sub) w
  | .host _ => s.noteDenied 4 0 (objKey index sub) w
  | .mgmt port _ => s.noteDenied 5 port (objKey index sub) w

/-- The right of an access by this path: existence, the object's right, then session and tables. -/
def access (p : Path) (index sub : Nat) (write : Bool) : M (Nat × Option ObjDef) := do
  let s ← get
  match objDef? index sub with
  | none => return (stNoObject, none)
  | some d =>
    if !write ∧ d.access = .wo then return (stNotReadable, none)
    else if write ∧ (d.access = .const ∨ d.access = .ro) then return (stNotWritable, none)
    else if !s.sessionOk p index write then
      -- a request of the host outside its stream is a refused access (R427); a missing session only a status (R432)
      match p with
      | .mgmt _ _ => return (stDenied, none)
      | _ =>
        mod fun s => s.denyObject p index sub write
        return (stDenied, none)
    else if !s.tableOk p index sub write then
      mod fun s => s.denyObject p index sub write
      return (stDenied, none)
    else return (stOk, some d)

/-! ### Writes -/

/-- A commit or a discard of a group (R379, R380): its status. Group 0x5030 cannot be withdrawn, its pending values
can. -/
def commitValue (g v : Nat) : M Nat := do
  if v = 0 then
    mod fun s => s.discardGroup g
    return stOk
  else
    let (ok, s) := (← get).commitGroup g
    set s
    return if ok then stOk else stCommitRefused

/-- Starts Dusk (R371): once, and only by the values 1 to 3. -/
def State.requestDusk (s : State) (v : Nat) : State :=
  if s.resil.dusk = 0 ∧ 1 ≤ v ∧ v ≤ 3 then { s with resil := { s.resil with dusk := v } } else s

/-- Ends the job at the next boundary (R438): none where the write has no effect. -/
def State.requestUnlock (s : State) (v : Nat) : Option State :=
  if v ≠ 0 ∧ s.obj oTableState = 2 ∧ !s.running then some { s with sec := { s.sec with unlock := true } } else none

/-- A change, or the status VALUE where it is refused (log entry 53). -/
def orValue (s : Option State) : M Nat := do
  match s with
  | some s => set s; return stOk
  | none => return stValue

/-- What a write to a wo object does, its commits apart. -/
def performWrite (key v : Nat) (bytes : List Byte) : M Nat := do
  let s ← get
  match key with
  | 0x218001 => set (s.requestCreate v); return stOk
  | 0x210101 => set (s.requestAlloc v); return stOk
  | 0x210201 => set (s.queryPage v); return stOk
  | 0x260102 => set { s with num := { s.num with stickyClear := s.num.stickyClear ++ [v % 16] } }; return stOk
  | 0x504001 => set (s.requestDusk v); return stOk
  | 0x700003 => orValue (s.raiseFloor v)
  | 0x710002 => orValue (s.requestUnlock v)
  | 0x800001 => if v = 0x5A then set (s.assertReset 3 false)
                return stOk
  | 0x800101 => if v < 2048 then set ((s.resetTile v).recordReset 7 3)
                return stOk
  | 0x800102 => if v < 32 then set ((s.resetPort v).recordReset 8 3)
                return stOk
  | 0x801001 => orValue (s.programReach v)
  | 0x802001 => set (s.pushAndGo bytes); return stOk
  | _ => return stOk

/-- `n` copies of a pattern of `w` bits, one after another. -/
def repeated (w n pat : Nat) : Nat := (2 ^ (w * n) - 1) / (2 ^ w - 1) * pat

/-- The low `n` bits set, but for bits `hi` to `lo`. -/
def bitsBut (n hi lo : Nat) : Nat := setField (2 ^ n - 1) hi lo 0

/-- A value without the reserved bits of its object, which read as zero whatever is written (R14): Tables 5.5, 11.8, 12.9,
16.7 and 16.8. Those of a counter image are no such bits: its commit tests them (R225). -/
def dropReserved (key v : Nat) : Nat :=
  match key with
  | 0x411003 => v &&& repeated 32 65536 (2 ^ 32 - 2)
  | 0x421004 => v &&& repeated 128 16 (bitsBut 128 63 48)
  | 0x711001 => v &&& (2 ^ 512 - 1 + (repeated 128 672 (bitsBut 128 51 3)) <<< 512 +
      (repeated 128 32 (bitsBut 128 95 2)) <<< (8 * 10816))
  | _ => if 0x231001 ≤ key ∧ key ≤ 0x231008 then setField (setField v 31 16 0) 511 320 0 else v

/-- Does the number of bytes fit the object? An image may be shorter than the largest (Table 17.9). -/
def sizeFits (d : ObjDef) (n : Nat) : Bool := n == d.size || (d.index == 0x8020 && decide (n ≤ d.size))

/-- Writes the whole value of an object (R376, R377, R379): the status. -/
def writeObject (p : Path) (index sub : Nat) (bytes : List Byte) : M Nat := do
  match ← access p index sub true with
  | (st, none) => return st
  | (_, some d) =>
    let v := ofLe bytes
    if !sizeFits d bytes.length then return stSize
    else if d.ty = .bool ∧ 1 < v then return stValue
    else if sub = 0xFF then commitValue index v
    else match d.access with
      | .staged =>
        mod fun s => s.setPend (objKey index sub) (dropReserved (objKey index sub) v)
        return stOk
      | .rw =>
        mod fun s => s.setObj (objKey index sub) v
        return stOk
      | _ => performWrite (objKey index sub) v bytes

/-- Runs dictionary work. -/
def runDict (s : State) (body : M Unit) : Host.Outcome State Fault Refusal :=
  match body.run s with
  | .ok _ s' => .next s'
  | .error _ s' => .next s'

/-! ### Paths -/

/-- Has a posted write of the host not yet been accepted (R405)? -/
def State.hostHolds (s : State) : Bool := s.mem.held.any (·.cls == 4)

/-- Is a path in service: the host's link up and its writes accepted, the management port up, the cores running? -/
def State.pathOpen (s : State) (p : Path) : Bool :=
  match p with
  | .host _ => s.obj oHostLinkState == 4 && !s.rst.inReset && !s.hostHolds
  | .mgmt port _ => flag (s.obj oMgmtPortsUp) port && decide (port < 2) && !s.rst.inReset
  | .core _ => !s.rst.inReset

/-- May the host use the transfer window: also while phase 5 waits for an image (R452)? -/
def State.windowOpen (s : State) : Bool :=
  s.obj oHostLinkState == 4 && (!s.rst.inReset || s.waitsImage) && !s.hostHolds

/-- Counts an access that BAR0 ignores (R386). -/
def ignored : M Unit := mod fun s => s.count oBar0Ignored

/-- Payload bytes that the host has sent (0x6000:0A; log entry 117). -/
def State.tookHost (s : State) (n : Nat) : State := s.addObj oHostBytesIn n

/-- A host write in a reset (R448): dropped, and counted in an L2 reset. -/
def State.hostDropped (s : State) : State :=
  if s.rst.inReset ∧ s.rst.level = 2 ∧ s.obj oHostLinkState = 4 then s.count oBar0Ignored else s

/-- Counts a slot write that had no effect (R386; Table 16.9). -/
def slotOutcome (st : Nat) : M Unit := do
  if st = stNoObject ∨ st = stNotWritable ∨ st = stSize ∨ st = stDenied then ignored

/-- A write of an object's whole value by a path: the host's goes to the object's slot, or through the window where the
object has none (R385). -/
def State.pathWrite (s : State) (p : Path) (index sub : Nat) (bytes : List Byte) : Host.Outcome State Fault Refusal :=
  let slot := ((objDef? index sub).map isScalarSlot).getD true
  match p with
  | .host _ =>
    if (if slot then s.pathOpen p else s.windowOpen) then
      runDict (s.tookHost bytes.length) do
        let st ← writeObject p index sub bytes
        if slot then slotOutcome st
    else .next s.hostDropped
  | _ => if s.pathOpen p then runDict s (do let _ ← writeObject p index sub bytes) else .next s

/-! ### Segments (R390) -/

/-- Drops the assembly of a requester. -/
def State.dropAssembly (s : State) (req : Nat) : State :=
  { s with dict := { s.dict with assemblies := s.dict.assemblies.filter (·.requester != req) } }

/-- One segment of a value: appended in order, and the value applied whole at the last. -/
def segment (p : Path) (req index sub offset : Nat) (bytes : List Byte) (last : Bool) : M Nat := do
  match ← access p index sub true with
  | (st, none) => return st
  | (_, some d) =>
    let key := objKey index sub
    let old := ((← get).dict.assemblies.find? fun a => a.requester == req && a.key == key).map (·.bytes)
    let sofar := if offset = 0 then some [] else old.filter (·.length == offset)
    mod fun s => if old.isNone then s.dropAssembly req else s
    match sofar with
    | none =>
      mod fun s => s.dropAssembly req
      return stSegment
    | some b =>
      if offset + bytes.length > d.size then return stSize
      else
        let b := b ++ bytes
        mod fun s => s.dropAssembly req
        if last then
          if sizeFits d b.length then writeObject p index sub b else return stSize
        else
          mod fun s => { s with dict := { s.dict with assemblies := s.dict.assemblies ++ [(⟨req, key, b⟩ : Assembly)] } }
          return stOk

/-- Reads bytes of an object: the status, and the bytes. -/
def readBytesOf (p : Path) (index sub offset n : Nat) : M (Nat × List Byte) := do
  match ← access p index sub false with
  | (st, none) => return (st, [])
  | (_, some d) =>
    if offset + n > d.size then return (stSize, [])
    else
      let v ← readObject d
      return (stOk, ((leBytes d.size v).drop offset).take n)

/-! ### The transfer window (R387, Table 14.4) -/

/-- The window's state after a transfer, with vector 13 (Table 15.5). -/
def windowDone (status : Nat) : M Unit :=
  mod fun s => ({ s with dict := { s.dict with window := { s.dict.window with status := status, state := 2 } } }).armVector 13

/-- Bytes of the window's buffer. -/
def Window.bytes (w : Window) (n : Nat) : List Byte := (List.range n).map fun i => BitVec.ofNat 8 (mapGet 0 w.buffer i)

/-- The window's buffer with bytes from an offset. -/
def Window.fill (w : Window) (offset : Nat) (bs : List Byte) : Window :=
  { w with buffer := bs.zipIdx.foldl (fun m p => mapPut 0 m (offset + p.2) p.1.toNat) w.buffer }

/-- A command of the window: 1 read, 2 segment, 3 last segment. Every transfer ends before the next command is looked
at, so the state busy is never met (log entry 56). -/
def windowCommand (ide : Bool) (cmd : Nat) : M Unit := do
  let w := (← get).dict.window
  let p : Path := .host ide
  if w.length = 0 ∨ 65536 < w.length then
    if cmd ≠ 0 then windowDone stSize
  else match cmd with
    | 1 =>
      let (st, bs) ← readBytesOf p w.index w.sub w.offset w.length
      if st = stOk then
        mod fun s => { s with dict := { s.dict with window := s.dict.window.fill 0 bs } }
      windowDone st
    | 2 => windowDone (← segment p 0 w.index w.sub w.offset (w.bytes w.length) false)
    | 3 => windowDone (← segment p 0 w.index w.sub w.offset (w.bytes w.length) true)
    | _ => pure ()

/-- A window command by the host. -/
def State.windowRow (s : State) (ide : Bool) (cmd : Nat) : Host.Outcome State Fault Refusal :=
  if s.windowOpen then runDict (s.tookHost 8) (windowCommand ide cmd) else .next s.hostDropped

/-- WINDOW_READ (R387). -/
def execWindowRead (ide : Bool) (s : State) : Host.Outcome State Fault Refusal := s.windowRow ide 1

/-- WINDOW_WRITE_SEGMENT (R387, R390). -/
def execWindowWriteSegment (ide : Bool) (s : State) : Host.Outcome State Fault Refusal := s.windowRow ide 2

/-- WINDOW_WRITE_LAST (R387, R390). -/
def execWindowWriteLast (ide : Bool) (s : State) : Host.Outcome State Fault Refusal := s.windowRow ide 3

/-! ### BAR0 (R384–R387, R403) -/

/-- A write to a window register, by its byte offset. -/
def windowRegister (ide : Bool) (offset v : Nat) : M Unit := do
  let setW (f : Window → Window) : M Unit :=
    mod fun s => { s with dict := { s.dict with window := f s.dict.window } }
  match offset with
  | 0x00 => setW fun w => { w with index := field v 23 8, sub := field v 7 0 }
  | 0x08 => setW fun w => { w with offset := field v 31 0 }
  | 0x10 => setW fun w => { w with length := field v 16 0 }
  | 0x18 => windowCommand ide (field v 1 0)
  | _ => pure ()

/-- Writes words of the MSI-X table (R403, R411): a vector unmasked while it is pending sends its message. -/
def State.writeMsix (s : State) (offset : Nat) (bytes : List Byte) : State :=
  let s := (chunks 4 bytes).zipIdx.foldl (fun s p =>
    let k := offset / 4 + p.2
    { s with dict := { s.dict with msixTable := mapPut (if k % 4 = 3 then 1 else 0) s.dict.msixTable k (ofLe p.1) } }) s
  (List.range 64).foldl (fun s v =>
    if flag s.dict.msixPending v && flag (s.obj oMsixEnable) v && s.msixWord (4 * v + 3) % 2 == 0 then
      let s := s.sendVector v
      { s with dict := { s.dict with msixPending := s.dict.msixPending - 2 ^ v } }
    else s) s

/-- Is an access 1, 2, 4 or 8 bytes and aligned to its size? -/
def natural (offset n : Nat) : Bool := [1, 2, 4, 8].contains n && offset % n == 0

/-- A host write to BAR0 at an offset. -/
def bar0Write (ide : Bool) (offset : Nat) (bytes : List Byte) : M Unit := do
  let n := bytes.length
  if 0x5000000 ≤ offset ∧ offset < 0x5010000 then
    if n = 8 ∧ offset % 8 = 0 then windowRegister ide (offset - 0x5000000) (ofLe bytes)
  else if 0x5010000 ≤ offset ∧ offset < 0x5020000 then
    mod fun s => { s with dict := { s.dict with
      window := s.dict.window.fill (offset - 0x5010000) (bytes.take (0x5020000 - offset)) } }
  else if 0x5020000 ≤ offset ∧ offset < 0x5021000 then
    if (n = 4 ∨ n = 8) ∧ offset % n = 0 ∧ offset < 0x5020400 then mod fun s => s.writeMsix (offset - 0x5020000) bytes
  else
    let index := offset / 0x800
    let sub := offset % 0x800 / 8
    match objDef? index sub with
    | none => ignored
    | some d =>
      if !natural offset n ∨ offset % 8 ≠ 0 ∨ n < d.size ∨ !isScalarSlot d then ignored
      else slotOutcome (← writeObject (.host ide) index sub (bytes.take d.size))

/-- A window register of 8 bytes (Table 14.4). -/
def State.windowWord (s : State) (offset : Nat) : Nat :=
  let w := s.dict.window
  match offset with
  | 0x00 => 256 * w.index + w.sub
  | 0x08 => w.offset
  | 0x10 => w.length
  | 0x20 => 256 * w.status + w.state
  | 0x28 => match objDef? w.index w.sub with
    | some d => d.size
    | none => 0
  | _ => 0

/-- A word of 4 bytes of the MSI-X table and its pending bits (R403). -/
def State.msixRead (s : State) (offset : Nat) : Nat :=
  if offset < 0x400 then s.msixWord (offset / 4)
  else if offset = 0x800 then s.dict.msixPending % 2 ^ 32
  else if offset = 0x804 then s.dict.msixPending / 2 ^ 32
  else 0

/-- What the slot of an object reads as, 8 bytes (R384–R386): zero where the object's right or the access table refuses
the read (Table 16.9). -/
def slotRead (ide : Bool) (index sub : Nat) : M Nat := do
  match ← access (.host ide) index sub false with
  | (_, some d) =>
    let s ← get
    return if isScalarSlot d then s.objectValue d else d.size
  | (_, none) => return 0

/-- What a host read of BAR0 finds outside a reset, and the state after (R384–R387, R403). -/
def State.bar0Value (s : State) (ide : Bool) (offset n : Nat) : List Byte × State :=
  if 0x5020000 ≤ offset ∧ offset < 0x5021000 then
    let o := offset - 0x5020000
    if n = 4 ∧ o % 4 = 0 then (leBytes 4 (s.msixRead o), s)
    else if n = 8 ∧ o % 8 = 0 then (leBytes 4 (s.msixRead o) ++ leBytes 4 (s.msixRead (o + 4)), s)
    else (zeroBytes n, s)
  else if !natural offset n then (zeroBytes n, s.count oBar0Ignored)
  else if 0x5010000 ≤ offset ∧ offset < 0x5020000 then
    ((s.dict.window.bytes (offset - 0x5010000 + n)).drop (offset - 0x5010000), s)
  else
    let at8 (v : Nat) : List Byte := ((leBytes 8 v).drop (offset % 8)).take n
    if 0x5000000 ≤ offset ∧ offset < 0x5010000 then (at8 (s.windowWord (offset / 8 * 8 - 0x5000000)), s)
    else match (slotRead ide (offset / 0x800) (offset % 0x800 / 8)).run s with
      | .ok v s' => (at8 v, s')
      | .error _ s' => (zeroBytes n, s')

/-- The bytes that a host read of BAR0 returns, and the state after: all ones in an L2 reset (R448). The opcode table has
no row for it: it is how the host sees the objects. -/
def State.bar0Read (s : State) (ide : Bool) (offset n : Nat) : List Byte × State :=
  let (bs, s') := if s.rst.inReset ∧ !s.waitsImage then (List.replicate n 0xFF, s) else s.bar0Value ide offset n
  (bs, s'.addObj oHostBytesOut n)

/-- OBJECT_WRITE (R379, R384): a write by the host at a BAR0 offset, or by a control core. -/
def execObjectWrite (w : DictWrite) (s : State) : Host.Outcome State Fault Refusal :=
  match w with
  | .bar0 ide offset bytes =>
    let window := decide (0x5000000 ≤ offset) && decide (offset < 0x5020000)
    if (if window then s.windowOpen else s.pathOpen (.host ide)) then
      runDict (s.tookHost bytes.length) (bar0Write ide offset bytes)
    else .next s.hostDropped
  | .core unit index sub bytes => s.pathWrite (.core unit) index sub bytes

/-! ### Objects with a behaviour of their own -/

/-- DESCRIPTOR_CREATE (R144). -/
def execDescriptorCreate (p : Path) (value : Nat) (s : State) : Host.Outcome State Fault Refusal :=
  s.pathWrite p 0x2180 1 (leBytes 8 value)

/-- ALLOC_REQUEST (R271). -/
def execAllocRequest (p : Path) (value : Nat) (s : State) : Host.Outcome State Fault Refusal :=
  s.pathWrite p 0x2101 1 (leBytes 16 value)

/-- PAGE_QUERY (R275). -/
def execPageQuery (p : Path) (value : Nat) (s : State) : Host.Outcome State Fault Refusal :=
  s.pathWrite p 0x2102 1 (leBytes 8 value)

/-- STICKY_CLEAR (R85). -/
def execStickyClear (p : Path) (value : Nat) (s : State) : Host.Outcome State Fault Refusal :=
  s.pathWrite p 0x2601 2 (leBytes 1 value)

/-- ROLLBACK_RAISE (R424). -/
def execRollbackRaise (p : Path) (value : Nat) (s : State) : Host.Outcome State Fault Refusal :=
  s.pathWrite p 0x7000 3 (leBytes 1 value)

/-- TABLE_UNLOCK (R438). -/
def execTableUnlock (p : Path) (value : Nat) (s : State) : Host.Outcome State Fault Refusal :=
  s.pathWrite p 0x7100 2 (leBytes 1 value)

/-- RESET_REQUEST (R442). -/
def execResetRequest (p : Path) (value : Nat) (s : State) : Host.Outcome State Fault Refusal :=
  s.pathWrite p 0x8000 1 (leBytes 1 value)

/-- TILE_RESET (R449). -/
def execTileReset (p : Path) (value : Nat) (s : State) : Host.Outcome State Fault Refusal :=
  s.pathWrite p 0x8001 1 (leBytes 2 value)

/-- PORT_RESET (R449). -/
def execPortReset (p : Path) (value : Nat) (s : State) : Host.Outcome State Fault Refusal :=
  s.pathWrite p 0x8001 2 (leBytes 1 value)

/-- REACH_PROGRAM (R443). -/
def execReachProgram (p : Path) (value : Nat) (s : State) : Host.Outcome State Fault Refusal :=
  s.pathWrite p 0x8010 1 (leBytes 2 value)

/-- FIRMWARE_PUSH (R452): the whole image, assembled. -/
def execFirmwarePush (p : Path) (image : List Byte) (s : State) : Host.Outcome State Fault Refusal :=
  s.pathWrite p 0x8020 1 image

/-- DUSK_TICK (R371). -/
def execDuskTick (p : Path) (s : State) : Host.Outcome State Fault Refusal := s.pathWrite p 0x5040 1 [0x01]

/-- DUSK_STEP (R371). -/
def execDuskStep (p : Path) (s : State) : Host.Outcome State Fault Refusal := s.pathWrite p 0x5040 1 [0x02]

/-- DUSK_SNAPSHOT (R371). -/
def execDuskSnapshot (p : Path) (s : State) : Host.Outcome State Fault Refusal := s.pathWrite p 0x5040 1 [0x03]

/-! ### Commits (R379–R383, Table 14.3) -/

/-- COMMIT_DISCARD (R380). -/
def execCommitDiscard (p : Path) (group : Nat) (s : State) : Host.Outcome State Fault Refusal :=
  s.pathWrite p group 0xFF [0x00]

/-- Writes 0x01 to a group's commit. -/
def State.commitRow (s : State) (p : Path) (g : Nat) : Host.Outcome State Fault Refusal := s.pathWrite p g 0xFF [0x01]

/-- COMMIT_TICK (R35, R38). -/
def execCommitTick (p : Path) (s : State) : Host.Outcome State Fault Refusal := s.commitRow p 0x2010
/-- COMMIT_PROGRAM (R57). -/
def execCommitProgram (p : Path) (s : State) : Host.Outcome State Fault Refusal := s.commitRow p 0x2020
/-- COMMIT_QUEUES (R58). -/
def execCommitQueues (p : Path) (s : State) : Host.Outcome State Fault Refusal := s.commitRow p 0x2040
/-- COMMIT_EPOCH (R61). -/
def execCommitEpoch (p : Path) (s : State) : Host.Outcome State Fault Refusal := s.commitRow p 0x2050
/-- COMMIT_PAGING (R288). -/
def execCommitPaging (p : Path) (s : State) : Host.Outcome State Fault Refusal := s.commitRow p 0x2110
/-- COMMIT_GRADIENT_PATH (R197). -/
def execCommitGradientPath (p : Path) (s : State) : Host.Outcome State Fault Refusal := s.commitRow p 0x2210
/-- COMMIT_FN_SLOTS (R129). -/
def execCommitFnSlots (p : Path) (s : State) : Host.Outcome State Fault Refusal := s.commitRow p 0x2310
/-- COMMIT_GATHER (R191). -/
def execCommitGather (p : Path) (s : State) : Host.Outcome State Fault Refusal := s.commitRow p 0x2410
/-- COMMIT_PREDICTOR_EXACT (R187). -/
def execCommitPredictorExact (p : Path) (s : State) : Host.Outcome State Fault Refusal := s.commitRow p 0x2420
/-- COMMIT_SEED (R225). -/
def execCommitSeed (p : Path) (s : State) : Host.Outcome State Fault Refusal := s.commitRow p 0x2610
/-- COMMIT_SHADOW (R245). -/
def execCommitShadow (p : Path) (s : State) : Host.Outcome State Fault Refusal := s.commitRow p 0x2620
/-- COMMIT_ROUNDING (R245). -/
def execCommitRounding (p : Path) (s : State) : Host.Outcome State Fault Refusal := s.commitRow p 0x2630
/-- COMMIT_SCRUB (R288). -/
def execCommitScrub (p : Path) (s : State) : Host.Outcome State Fault Refusal := s.commitRow p 0x3020
/-- COMMIT_HASH (R177). -/
def execCommitHash (p : Path) (s : State) : Host.Outcome State Fault Refusal := s.commitRow p 0x3110
/-- COMMIT_PORTS (R320). -/
def execCommitPorts (p : Path) (s : State) : Host.Outcome State Fault Refusal := s.commitRow p 0x4001
/-- COMMIT_ROUTES (R307). -/
def execCommitRoutes (p : Path) (s : State) : Host.Outcome State Fault Refusal := s.commitRow p 0x4110
/-- COMMIT_AXES (R310). -/
def execCommitAxes (p : Path) (s : State) : Host.Outcome State Fault Refusal := s.commitRow p 0x4120
/-- COMMIT_COLLECTIVE (R349). -/
def execCommitCollective (p : Path) (s : State) : Host.Outcome State Fault Refusal := s.commitRow p 0x4202
/-- COMMIT_BATCH (R343). -/
def execCommitBatch (p : Path) (s : State) : Host.Outcome State Fault Refusal := s.commitRow p 0x4210
/-- COMMIT_TWIN (R373). -/
def execCommitTwin (p : Path) (s : State) : Host.Outcome State Fault Refusal := s.commitRow p 0x5010
/-- COMMIT_STRAGGLER (R368). -/
def execCommitStraggler (p : Path) (s : State) : Host.Outcome State Fault Refusal := s.commitRow p 0x5020
/-- COMMIT_RESTORE (R369). -/
def execCommitRestore (p : Path) (s : State) : Host.Outcome State Fault Refusal := s.commitRow p 0x5030
/-- COMMIT_HOST_WINDOW (R406). -/
def execCommitHostWindow (p : Path) (s : State) : Host.Outcome State Fault Refusal := s.commitRow p 0x6010
/-- COMMIT_MSIX (R418). -/
def execCommitMsix (p : Path) (s : State) : Host.Outcome State Fault Refusal := s.commitRow p 0x6020
/-- COMMIT_FAR_IDE (R418). -/
def execCommitFarIde (p : Path) (s : State) : Host.Outcome State Fault Refusal := s.commitRow p 0x3210
/-- COMMIT_SECURITY (R440). -/
def execCommitSecurity (p : Path) (s : State) : Host.Outcome State Fault Refusal := s.commitRow p 0x7010
/-- COMMIT_LINK_POLICY (R440). -/
def execCommitLinkPolicy (p : Path) (s : State) : Host.Outcome State Fault Refusal := s.commitRow p 0x7020
/-- COMMIT_FAR_TRUST (R440). -/
def execCommitFarTrust (p : Path) (s : State) : Host.Outcome State Fault Refusal := s.commitRow p 0x7030
/-- COMMIT_TABLE (R437). -/
def execCommitTable (p : Path) (s : State) : Host.Outcome State Fault Refusal := s.commitRow p 0x7110
/-- COMMIT_WATCHDOG (R466). -/
def execCommitWatchdog (p : Path) (s : State) : Host.Outcome State Fault Refusal := s.commitRow p 0x8002
/-- COMMIT_POWER (R466). -/
def execCommitPower (p : Path) (s : State) : Host.Outcome State Fault Refusal := s.commitRow p 0x8030
/-- COMMIT_THERMAL (R466). -/
def execCommitThermal (p : Path) (s : State) : Host.Outcome State Fault Refusal := s.commitRow p 0x8110
/-- COMMIT_MGMT (R398). -/
def execCommitMgmt (p : Path) (s : State) : Host.Outcome State Fault Refusal := s.commitRow p 0x1110
/-- COMMIT_NOTIFY (R393). -/
def execCommitNotify (p : Path) (s : State) : Host.Outcome State Fault Refusal := s.commitRow p 0x9010

end Sys2Proof.Machine
end

