-- ==== Sys2Proof/Machine/Felby.lean ====
section
/-! DEFINITION. Felby on the management ports (R388–R393), and the ports themselves (R396, R398). -/

namespace Sys2Proof.Machine

/-! ### Frames (Table 14.5) -/

/-- A Felby frame's fields. -/
structure Felby where
  dest : Nat
  source : Nat
  version : Nat
  type : Nat
  flags : Nat
  seq : Nat
  length : Nat
  index : Nat
  sub : Nat
  pad : Nat
  offset : Nat
  data : List Byte
deriving DecidableEq, Repr

/-- Reads a frame from its destination address on; addresses keep their first octet in the low byte. -/
def readFelby (bs : List Byte) : Felby :=
  let n (b w : Nat) : Nat := ofLe ((bs.drop b).take w)
  let len := n 20 2
  { dest := n 0 6, source := n 6 6, version := n 14 1, type := n 15 1, flags := n 17 1, seq := n 18 2, length := len
    index := n 22 2, sub := n 24 1, pad := n 25 1, offset := n 26 4, data := (bs.drop 30).take len }

/-- Is the EtherType Felby's? -/
def isFelby (bs : List Byte) : Bool := (bs.drop 12).take 2 == [0x88, 0xB5]

/-- The address of a management port. -/
def macOf (port : Nat) : Nat := if port = 0 then Config.mac0 else Config.mac1

/-- Is a management port in service? -/
def State.mgmtUp (s : State) (port : Nat) : Bool := decide (port < 2) && flag (s.obj oMgmtPortsUp) port

/-- Does R388 accept the frame? Its header is complete with 30 bytes. -/
def accepts (f : FelbyFrame) : Bool :=
  let x := readFelby f.bytes
  let broadcast := x.dest == 2 ^ 48 - 1 && (x.type == 1 || x.type == 3) && x.index / 256 == 0x10
  f.fcsOk && decide (30 ≤ f.bytes.length) && (x.dest == macOf f.port || broadcast)

/-- A frame of the device after its addresses: padded to 60 bytes in all. -/
def felbyBody (version type status flags seq index sub offset length : Nat) (data : List Byte) : List Byte :=
  padTo (max 48 (18 + data.length)) 0 (([0x88, 0xB5] : List Byte) ++ leBytes 1 version ++ leBytes 1 type ++
    leBytes 1 status ++ leBytes 1 flags ++ leBytes 2 seq ++ leBytes 2 length ++ leBytes 2 index ++ leBytes 1 sub ++
    leBytes 1 0 ++ leBytes 4 offset ++ data)

/-- A whole frame from a port. -/
def felbyFrame (port dest : Nat) (body : List Byte) : List Byte := leBytes 6 dest ++ leBytes 6 (macOf port) ++ body

/-- Sends a frame on a port that is in service. -/
def State.sendFrame (s : State) (port : Nat) (o : Out) : State := if s.mgmtUp port then s.emit o else s

/-- A response to a request (R389): its type OR 0x80, in its version. -/
def response (f : FelbyFrame) (version status : Nat) (data : List Byte) (length : Nat) : Out :=
  let x := readFelby f.bytes
  .frame f.port (felbyFrame f.port x.source
    (felbyBody version (x.type % 128 + 128) status (x.flags &&& 4) x.seq x.index x.sub x.offset length data))

/-! ### Requests (R388–R392) -/

/-- Keeps a response (R391): eight requesters per port, the least recently heard first. -/
def State.keep (s : State) (k : Kept) : State :=
  let others := s.dict.kept.filter fun q => !(q.port == k.port && q.source == k.source)
  let mine := others.filter (·.port == k.port)
  let others := if 8 ≤ mine.length then
      match mine.head? with
      | some oldest => others.filter (· != oldest)
      | none => others
    else others
  { s with dict := { s.dict with kept := others ++ [k] } }

/-- The kept response that a request repeats within 1 s (R391). -/
def State.keptFor (s : State) (f : FelbyFrame) : Option Kept :=
  let x := readFelby f.bytes
  s.dict.kept.find? fun k =>
    k.port == f.port && k.source == x.source && k.seq == x.seq && decide (f.timeMs ≤ k.timeMs + 1000)

/-- Largest L of a version (Table 14.8). -/
def largestL (version : Nat) : Nat := if version = 1 then 256 else 1024

/-- A secured frame's data as it opens, in an open session (R432; log entry 54). -/
def State.openedData (s : State) (f : FelbyFrame) : Option (List Byte) :=
  if (s.sessionsOf 1).isEmpty then none else f.opened

/-- A requester's number among the assemblies (R390). -/
def requester (f : FelbyFrame) : Nat := 1 + f.port + 2 * (readFelby f.bytes).source

/-- What answers a request. -/
inductive Answer where
  | frame (status : Nat) (data : List Byte) (length : Nat)
  | spdm (resp : SpdmResp)
deriving DecidableEq, Repr

/-- Answers an accepted request: duplicates first (R391), then version, form and session, then what it does. -/
def request (f : FelbyFrame) (act : Felby → Path → M Answer) : M Unit := do
  let s ← get
  let x := readFelby f.bytes
  match s.keptFor f with
  | some k =>
    set ((s.count oFelbyDuplicates).keep k |>.sendFrame f.port k.response)
  | none =>
    let secured := flag x.flags 2
    let reply (o : Out) : M Unit := mod fun s =>
      ((s.count oFelbyRequests).keep ⟨f.port, x.source, x.seq, f.timeMs, o⟩).sendFrame f.port o
    if x.version = 0 ∨ 3 < x.version then reply (response f 3 0x09 (leBytes 1 (s.obj oFelbyVersions)) 1)
    else if 8 ≤ x.flags ∨ x.pad ≠ 0 ∨ (secured ∧ x.version ≠ 3) then reply (response f x.version 0x0A [] 0)
    else
      let data := if secured then s.openedData f else some x.data
      match data with
      | none => reply (response f x.version stDenied [] 0)
      | some data =>
        match ← act { x with data := data } (.mgmt f.port secured) with
        | .frame st bs n => reply (response f x.version st bs n)
        | .spdm r =>
          reply (.spdmFrame f.port (felbyFrame f.port x.source
            (felbyBody x.version 0x85 0 (x.flags &&& 4) x.seq x.index x.sub x.offset 0 [])) r)

/-- A frame that arrives as one of some types: a frame R388 does not accept is discarded and counted; nothing is
received in a reset or on a port out of service. -/
def State.onFrame (s : State) (f : FelbyFrame) (types : Nat → Bool) (act : Felby → Path → M Answer) :
    Host.Outcome State Fault Refusal :=
  if s.rst.inReset ∨ !s.mgmtUp f.port ∨ !isFelby f.bytes then .next s
  else if !accepts f then .next (s.count oFelbyDiscards)
  else if !types (readFelby f.bytes).type then .next s
  else runDict s (request f act)

/-- A READ (R388, R390): for a scalar, L = 0 reads it whole. -/
def felbyReadWork (x : Felby) (p : Path) : M Answer := do
  let whole := match objDef? x.index x.sub with
    | some d => if isScalarSlot d ∧ x.length = 0 then d.size else x.length
    | none => x.length
  if largestL x.version < x.length then return .frame stSize [] 0
  else
    let (st, bs) ← readBytesOf p x.index x.sub x.offset whole
    return .frame st bs bs.length

/-- FELBY_READ (R390). -/
def execFelbyRead (f : FelbyFrame) (s : State) : Host.Outcome State Fault Refusal :=
  s.onFrame f (· == 0x01) felbyReadWork

/-- A WRITE (R390): a segment where flag [0] says so, else the whole value. -/
def felbyWriteWork (f : FelbyFrame) (x : Felby) (p : Path) : M Answer := do
  let st ← if largestL x.version < x.length then pure stSize
    else if flag x.flags 0 then segment p (requester f) x.index x.sub x.offset x.data (flag x.flags 1)
    else do
      let same := objKey x.index x.sub
      let req := requester f
      -- a WRITE of another object discards the requester's assembly
      mod fun s => { s with dict := { s.dict with
        assemblies := s.dict.assemblies.filter fun a => a.requester != req || a.key == same } }
      if x.offset ≠ 0 then
        match ← access p x.index x.sub true with
        | (st, none) => pure st
        | _ => pure stSize
      else writeObject p x.index x.sub x.data
  return .frame st [] 0

/-- FELBY_WRITE (R390). -/
def execFelbyWrite (f : FelbyFrame) (s : State) : Host.Outcome State Fault Refusal :=
  s.onFrame f (· == 0x02) (felbyWriteWork f)

/-- A DESCRIBE (Table 14.6): also of wo objects. -/
def felbyDescribeWork (x : Felby) (p : Path) : M Answer := do
  match objDef? x.index x.sub with
  | none => return .frame stNoObject [] 0
  | some d =>
    let s ← get
    if !s.sessionOk p x.index false then return .frame stDenied [] 0
    else if !s.tableOk p x.index x.sub false then
      set (s.denyObject p x.index x.sub false)
      return .frame stDenied [] 0
    else
      let dflt := if 8 < d.size then 0 else d.dflt
      return .frame stOk (leBytes 1 (typeCode d.ty) ++ leBytes 1 (accessCode d.access) ++ leBytes 2 0 ++
        leBytes 4 d.size ++ leBytes 8 dflt) 16

/-- FELBY_DESCRIBE (R388). -/
def execFelbyDescribe (f : FelbyFrame) (s : State) : Host.Outcome State Fault Refusal :=
  s.onFrame f (· == 0x03) felbyDescribeWork

/-- FELBY_SPDM (R425): version 3 only; outside it the type is unknown. -/
def execFelbySpdm (f : FelbyFrame) (req : SpdmReq) (s : State) : Host.Outcome State Fault Refusal :=
  s.onFrame f (· == 0x05) fun x _ => do
    if x.version ≠ 3 then return .frame 0x0A [] 0
    else
      let (r, s) := (← get).spdm 1 req
      set s
      return .spdm r

/-- FELBY_UNKNOWN_TYPE (R388): answered as MALFORMED; one with bit [7] set is discarded. -/
def execFelbyUnknownType (f : FelbyFrame) (s : State) : Host.Outcome State Fault Refusal :=
  let t := (readFelby f.bytes).type
  if 0x80 ≤ t ∧ t ≠ 0x84 then
    if s.rst.inReset ∨ !s.mgmtUp f.port ∨ !isFelby f.bytes then .next s else .next (s.count oFelbyDiscards)
  else s.onFrame f (fun t => decide (t < 0x80) && t != 1 && t != 2 && t != 3 && t != 5) fun _ _ => return .frame 0x0A [] 0

/-- FELBY_FRAME_DISCARD (R388, R392): a frame that is not accepted, or finds sixteen waiting. -/
def execFelbyFrameDiscard (f : FelbyFrame) (s : State) : Host.Outcome State Fault Refusal :=
  if s.rst.inReset ∨ !s.mgmtUp f.port ∨ !isFelby f.bytes then .next s else .next (s.count oFelbyDiscards)

/-! ### Event notification (R393) -/

/-- Is notification on: a destination, a version that has it, and not stalled? -/
def State.notifies (s : State) : Bool :=
  s.obj oEventDestination != 0 && (s.obj oEventVersion == 2 || s.obj oEventVersion == 3) && s.obj oEventStalled == 0 &&
    !s.rst.inReset

/-- Up to `n` notified records in order, and the sequence below which they and the skipped ones lie. -/
def State.gatherEvents (s : State) : Nat → List EventRec → List EventRec × Nat → List EventRec × Nat
  | _, [], r => r
  | 0, _, r => r
  | n + 1, e :: rest, (got, _) =>
    if s.classOn e then s.gatherEvents n rest (got ++ [e], e.seq + 1)
    else s.gatherEvents (n + 1) rest (got, e.seq + 1)

/-- Sends the outstanding frame. -/
def State.sendEvent (s : State) (o : Outstanding) : State :=
  let s := { s with dict := { s.dict with outstanding := some o } }
  (s.count oEventFramesSent).sendFrame o.port
    (.frame o.port (felbyFrame o.port (s.obj oEventDestination) o.body))

/-- EVENT_SEND (R393): the next frame, once the previous one has been acknowledged. -/
def execEventSend (timeMs : Nat) (s : State) : Host.Outcome State Fault Refusal :=
  if !s.notifies ∨ s.dict.outstanding.isSome then .next s
  else
    let from_ := s.obj oEventAckedSeq
    let (got, upTo) := s.gatherEvents 16 (s.dict.log.filter fun e => decide (from_ ≤ e.seq)) ([], from_)
    match got with
    | [] => .next (s.setObj oEventAckedSeq upTo)
    | first :: _ =>
      let data := got.flatMap fun e => leBytes 64 (eventImage e)
      let seq := s.dict.eventSeq
      let body := felbyBody (s.obj oEventVersion) 0x04 0 0 seq 0 0 (first.seq % 2 ^ 32) data.length data
      let s := { s with dict := { s.dict with eventSeq := (seq + 1) % 65536 } }
      .next (s.sendEvent { seq := seq, upTo := upTo, body := body, sentMs := timeMs, port := 0, resends := 0 })

/-- EVENT_RETRY (R393): `event_retries` resends on M0, as many sends on M1, and then the stall. -/
def execEventRetry (timeMs : Nat) (s : State) : Host.Outcome State Fault Refusal :=
  match s.dict.outstanding with
  | none => .next s
  | some o =>
    if !s.notifies ∨ timeMs < o.sentMs + s.obj oEventRetryMs then .next s
    else
      let n := s.obj oEventRetries
      if o.resends < n then .next (s.sendEvent { o with sentMs := timeMs, resends := o.resends + 1 })
      else if o.port = 0 then .next (s.sendEvent { o with sentMs := timeMs, port := 1, resends := 1 })
      else .next (s.setObj oEventStalled 1)

/-- EVENT_ACK (R393): any from the destination clears the stall; one with the frame's seq acknowledges its records. -/
def execEventAck (f : FelbyFrame) (s : State) : Host.Outcome State Fault Refusal :=
  let x := readFelby f.bytes
  if s.rst.inReset ∨ !s.mgmtUp f.port ∨ !isFelby f.bytes then .next s
  else if !accepts f then .next (s.count oFelbyDiscards)
  else if x.type ≠ 0x84 ∨ s.obj oEventDestination = 0 ∨ x.source ≠ s.obj oEventDestination then .next s
  else
    let stalled := s.obj oEventStalled == 1
    let s := s.setObj oEventStalled 0
    match s.dict.outstanding with
    | none => .next s
    | some o =>
      if x.seq = o.seq then
        let s := s.setObj oEventAckedSeq o.upTo
        .next { s with dict := { s.dict with outstanding := none } }
      else if stalled then .next { s with dict := { s.dict with outstanding := some { o with port := 0, resends := 0 } } }
      else .next s

/-! ### The ports (R396, R398) -/

/-- MANAGEMENT_PORT_UP (R398). -/
def execManagementPortUp (port : Nat) (s : State) : Host.Outcome State Fault Refusal :=
  if port < 2 then .next (s.setObj oMgmtPortsUp (s.obj oMgmtPortsUp ||| 2 ^ port)) else .next s

/-- MANAGEMENT_PORT_DOWN (R396): LINK_DOWN with port kind 3; the manual codes no cause, which is a free value. -/
def execManagementPortDown (port : Nat) (s : State) : Host.Outcome State Fault Refusal :=
  if s.mgmtUp port then
    let s := s.setObj oMgmtPortsUp (s.obj oMgmtPortsUp - 2 ^ port)
    let (c, s) := s.takeFree 64
    .next (s.raise 0x0601 0x08 port 3 port c)
  else .next s

end Sys2Proof.Machine
end

