-- ==== Sys2Proof/Machine/HostPort.lean ====
section
/-! DEFINITION. The host's accesses to device memory (R401, R404, R405), and the device's to the host's (R410). -/

namespace Sys2Proof.Machine

/-- May the host's memory accesses run: the link is up, the hubs are not in reset, its posted writes have been accepted
(R405, R448), and the mesh goes on (R449)? -/
def State.hostMemory (s : State) : Bool :=
  s.obj oHostLinkState == 4 && (!s.rst.inReset || s.rst.level == 2) && !s.hostHolds &&
    !s.rst.meshStuck

/-- A request outside the stream that `host_ide_required` asks for: a refused access (R427, R436), handled as an absent
page (R404). -/
def State.hostUnkeyed (s : State) (va kind : Nat) : State := (s.noteDenied 4 0 va kind).count oPageAbsentAccesses

/-- Is the request outside the stream where one is required? -/
def State.needsStream (s : State) (ide : Bool) : Bool := !ide && s.obj oHostIdeRequired == 1

/-- BAR2's bytes (Table 15.2). -/
def State.bar2Bytes (s : State) : Nat := 2 ^ s.obj oBar2SizeLog2

/-- Completes a host read. -/
def State.complete_ (s : State) (bs : List Byte) : State := (s.addObj oHostBytesOut bs.length).emit (.completion bs)

/-- A host access that is refused by the tables is handled as one to an absent page (R404). -/
def State.asAbsent (s : State) (a : Abort) : State :=
  match a with
  | .fault _ => s.count oPageAbsentAccesses
  | _ => s

/-- A read at a device address (R404, R265, R280): what cannot be read returns 0xFF in every byte. -/
def State.hostRead (s : State) (va n : Nat) : State :=
  match (readBytes hostInit .pass va n).run s with
  | .ok bs s' => s'.complete_ bs
  | .error (.poison loc) s' =>
    (s'.uncorrected loc 0xFFFFFFFF).emit .poisoned
  | .error (.fault 0) s' =>
    if va < hostWindowBase then s'.emit .poisoned else (s'.count oPageAbsentAccesses).complete_ (List.replicate n 0xFF)
  | .error a s' => (s'.asAbsent a).complete_ (List.replicate n 0xFF)

/-- HOST_BAR2_READ (R404). A read past BAR2 is unsupported (R401). -/
def execHostBar2Read (ide : Bool) (offset len : Nat) (s : State) : Host.Outcome State Fault Refusal :=
  if !s.hostMemory then .next s
  else if s.bar2Bytes < offset + len then .next ((s.count oHostUnsupported).emit .unsupported)
  else
    let va := s.obj oBar2WindowBase + offset
    if s.needsStream ide then .next ((s.hostUnkeyed va 1).complete_ (List.replicate len 0xFF))
    else .next (s.hostRead va len)

/-- One piece of a host write: dropped where it is refused or its page is absent (R280). -/
def State.hostWritePiece (s : State) (va : Nat) (bs : List Byte) : State :=
  match (writeBytes hostInit .pass va bs).run s with
  | .ok _ s' => s'
  | .error a s' => s'.asAbsent a

/-- HOST_BAR2_WRITE (R404, R405). -/
def execHostBar2Write (ide : Bool) (offset : Nat) (bytes : List Byte) (s : State) : Host.Outcome State Fault Refusal :=
  if !s.hostMemory then .next s
  else if s.bar2Bytes < offset + bytes.length then .next (s.count oHostUnsupported)
  else
    let va := s.obj oBar2WindowBase + offset
    let s := s.addObj oHostBytesIn bytes.length
    if s.needsStream ide then .next (s.hostUnkeyed va 2)
    else .next ((pieces va bytes.length).foldl (fun s p => s.hostWritePiece p.1 (takeRange va bytes p)) s)

/-- HOST_UNSUPPORTED_REQUEST (R401). -/
def execHostUnsupportedRequest (s : State) : Host.Outcome State Fault Refusal :=
  if s.obj oHostLinkState = 4 then .next ((s.count oHostUnsupported).emit .unsupported) else .next s

/-- Does a task name a descriptor in the host window as a source of rows (R409)? -/
def State.readsHost (s : State) (t : Task) : Bool :=
  (recKind t.image == 3 || recKind t.image == 4) && (List.range 4).any fun k =>
    match s.peekDesc (recOperand t.image k) with
    | some d => decide (hostWindowBase ≤ d.base)
    | none => false

/-- HOST_READ_TIMEOUT (R410): a task that waits for the host's memory faults as R409 says. -/
def execHostReadTimeout (r : Nat) (s : State) : Host.Outcome State Fault Refusal :=
  match s.working? r with
  | some t => if s.readsHost t then .next ((s.count oHostRequestErrors).failTask t (s.taskOuts t) (.fault 0)) else .next s
  | none => .next s

end Sys2Proof.Machine
end

