-- ==== Sys2Proof/Machine/Scatter.lean ====
section
/-! DEFINITION. Scatter tasks and the hash accumulator (R175–R185). -/

namespace Sys2Proof.Machine

/-- The work of a scatter task: its operands, then its body. -/
def scatterWork (body : Task → Ctx → GatherArgs → W Unit) (r : Nat) (t : Task) : W Unit := do
  let c := gmCtx (recFirst t.image) r t.image
  let args ← gatherArgs c t.image
  body t c args

/-- Runs a scatter task: its operands, then its body. -/
def State.runScatter (s : State) (r op : Nat) (outs : Nat → List Nat) (body : Task → Ctx → GatherArgs → W Unit) :
    Host.Outcome State Fault Refusal :=
  match s.working? r with
  | none => .next s
  | some t =>
    if recKind t.image ≠ 4 ∨ gatherOp t.image ≠ op then .next s
    else
      runEngines s t 1 (gmInit (recFirst t.image)) (outs t.image) (scatterWork body r t)

/-! ### scatter_rows (R176) -/

/-- A row to be written: its source codes, converted or copied, without a write (R159, R176). -/
def scatterCodes (c : Ctx) (j : RowJob) (src dst : Nat) (mem : Bool) : W (List (Nat × Option Nat)) := do
  let out ← moveRow c j src dst none false mem
  if !mem then
    out.forM fun (p : Nat × Option Nat) => binElem c j.o p.1
    let b := max 1 (blockSize j.o.scaleMode)
    out.zipIdx.forM fun (p : (Nat × Option Nat) × Nat) => do
      if p.2 % b = 0 then
        match p.1.2 with
        | some e => binScale c j.o e
        | none => pure ()
  return out

/-- One of `n` candidates, kept for each place: the choice R29 leaves to the device (log entry 41). -/
def chooseFor (n key : Nat) (chosen : NatMap) : W (Nat × NatMap) := do
  match mapFind chosen key with
  | some i => return (i, chosen)
  | none =>
    let v ← (freeM 64 : M Nat)
    return (v % n, mapInsert chosen key (v % n))

/-- Writes one destination row from several candidate rows: each 64-byte atom from one of them, and each byte of a
plane (R149, R176). -/
def writeChosen (c : Ctx) (o : Desc) (dst : Nat) (cands : List (List (Nat × Option Nat))) : W Unit := do
  let n := cands.length
  let len := (cands.map List.length).foldl max 0
  let pick (i k : Nat) : Nat × Option Nat := (cands.getD k []).getD i (0, none)
  let b := max 1 (blockSize o.scaleMode)
  let _ ← (List.range len).foldlM (fun (chosen : NatMap) i => do
    let co := o.at i dst
    let off := o.offset co
    let chosen ← if isE8m0Mode o.scaleMode ∧ i % b = 0 then do
        let (k, chosen) ← chooseFor n (2 ^ 60 + o.scaleAddr co / 64) chosen
        match (pick i k).2 with
        | some e => (writeNat c.ini c.req (o.scaleAddr co) 1 e : M Unit)
        | none => pure ()
        pure chosen
      else pure chosen
    if isPlanar o.fmt then
      o.planes.foldlM (fun (chosen : NatMap) (j : Nat) => do
        let va := ((o.base + j * o.planeStride : Nat) + off / 8 : Int).toNat
        let (k, chosen) ← chooseFor n (2 ^ 61 + va) chosen
        let bit := bitOf (flag (pick i k).1 j) <<< (off % 8).toNat
        (writeBits c.ini c.req va (2 ^ (off % 8).toNat) bit : M Unit)
        return chosen) chosen
    else
      let va := ((o.base : Int) + off * o.bytes).toNat
      let (k, chosen) ← chooseFor n (va / 64) chosen
      writeCode c o co (pick i k).1
      return chosen) []
  return ()

/-- The body of scatter_rows. -/
def scatterRowsBody (t : Task) (c : Ctx) (args : GatherArgs) : W Unit := do
  match args.a, args.b, args.c, args.o with
  | some a, some b, none, some o =>
    undefinedIf (a.rank ≠ 2 ∨ o.rank ≠ 2 ∨ o.dim 0 < a.dim 0 ∨ b.count ≠ a.dim 1)
    checkOutput o
    let j ← rowJob c a o
    let bts ← tensorScale c b
    let rows ← (gatherShares t.image (a.dim 1)).mapM fun (p : Nat × List Nat) => do
      let c := gmCtx p.1 t.record t.image
      p.2.mapM fun r => do
        let i ← gatherIndex c b bts r
        return (p.1, r, ← clampDim c o (o.dim 1) i)
    let all := rows.flatten
    (all.map fun q => q.2.2).eraseDups.forM fun v => do
      let mine := all.filter fun q => q.2.2 == v
      match mine with
      | [(e, r, _)] =>
        let _ ← scatterCodes (gmCtx e t.record t.image).withHost j r v true
        pure ()
      | _ =>
        let cands ← mine.mapM fun (q : Nat × Nat × Nat) => scatterCodes (gmCtx q.1 t.record t.image) j q.2.1 v false
        writeChosen c.withHost o v cands
  | _, _, _, _ => throw .undefined

/-- SCATTER_ROWS (R176). -/
def execScatterRows (r : Nat) (s : State) : Host.Outcome State Fault Refusal := s.runScatter r 1 outO scatterRowsBody

/-! ### The hash accumulator (R177–R182) -/

/-- Home slice and first line of a key (R179); `lines` is Ls. -/
def hashHome (key space tag lines : Nat) : Nat × Nat :=
  let h := ((key ^^^ (space <<< 28) % 2 ^ 32 ^^^ (tag <<< 20) % 2 ^ 32) * 0x9E3779B1) % 2 ^ 32
  (h / 2 ^ 26, if lines = 0 then 0 else (h % 2 ^ 26) >>> (26 - lines.log2))

/-- A contribution (R178): its engine's tag, row, key, and the codes of its value or lanes. -/
structure Contribution where
  tag : Nat
  row : Nat
  key : Nat
  vector : Bool
  space : Nat
  lanes : List Nat
deriving DecidableEq, Repr

/-- Lane sums of an entry (R180): A40 for a scalar, FP32 for a vector. -/
def foldLanes (vector : Bool) (a b : List Nat) : F (List Nat) :=
  (a.zip b).mapM fun p => do
    if vector then return encodeFloat fmtFp32 (rn32 (← fAdd (fp32 p.1) (fp32 p.2)))
    else return encodeFloat fmtA40 (rnA40 (← fAdd (a40 p.1) (a40 p.2)))

/-- The entry a contribution goes to: the matching one, else the first free place in probe order (R180). -/
def State.hashPlace (s : State) (c : Contribution) : Option (HashEntry ⊕ (Nat × Nat × Nat)) :=
  let lines := s.hashLines
  if lines = 0 then none
  else
    let (slice, line0) := hashHome c.key c.space c.tag lines
    let probe := (List.range 8).map fun j => (line0 + j) % lines
    let here := s.mem.hash.filter fun e => e.slice == slice
    let hit := probe.findSome? fun l => here.find? fun e =>
      e.line == l && e.vector == c.vector && e.key == c.key && e.space == c.space && e.tag == c.tag
    match hit with
    | some e => some (.inl e)
    | none =>
      let free := probe.findSome? fun l =>
        let es := here.filter (·.line == l)
        if es.isEmpty then some (slice, l, 0)
        else if c.vector ∨ es.any (·.vector) then none
        else ((List.range 16).find? fun p => !(es.any (·.place == p))).map fun p => (slice, l, p)
      free.map .inr

/-- Sets `hash_entries_valid`. -/
def State.refreshHash (s : State) : State := s.setObj oHashEntriesValid s.mem.hash.length

/-- Length of a slice's spill part (R177). -/
def State.spillPart (s : State) : Nat := s.obj oHashSpillBytes / 64 / 64 * 64

/-- Address of a slice's spill part. -/
def State.spillBase (s : State) (slice : Nat) : Nat := s.obj oHashSpillBase + slice * s.spillPart

/-- Bytes of a spill record (Table 7.10). -/
def spillBytes (vector : Bool) : Nat := if vector then 192 else 64

/-- The bytes of a spill record. -/
def spillRecord (c : Contribution) : List Byte :=
  let head := c.row <<< 72 + c.key <<< 40 + c.space <<< 36 + c.tag <<< 29 + bitOf c.vector
  leBytes 32 head ++
    (if c.vector then c.lanes.flatMap (leBytes 4) ++ leBytes 32 0
     else leBytes 8 (c.lanes.headD 0) ++ leBytes 24 0)

/-- A contribution that spills (R182): was it kept? -/
def State.spillOne (s : State) (c : Contribution) : Bool × State :=
  let slice := (hashHome c.key c.space c.tag s.hashLines).1
  let ptr := mapGet 0 s.mem.spill slice
  let va := s.spillBase slice + ptr
  let n := spillBytes c.vector
  let near := (pieces va n).all fun p => entNear (s.entry (p.1 / pageBytes))
  if ptr + n > s.spillPart ∨ !near then (false, s.count oHashSpillOverflows)
  else
    let bs := spillRecord c
    let s := (pieces va n).foldl (fun s p =>
      s.physWrite (entPhys (s.entry (p.1 / pageBytes)) + p.1 % pageBytes) (takeRange va bs p)) s
    (true, ({ s with mem := { s.mem with spill := mapPut 0 s.mem.spill slice (ptr + n) } }.count
      oHashSpillRecords).count oHashContributions)

/-- What became of a contribution. -/
inductive HashFate where
  | entered | spilled | lost
deriving DecidableEq, Repr

/-- Performs one hash-accumulate, an atomic of the home slice (R180, Table 10.7). A slice keeps no sticky flags (R83). -/
def State.hashAccumulate (s : State) (c : Contribution) : HashFate × State :=
  let s := s.count oAtomicOps
  match s.hashPlace c with
  | some (.inl e) =>
    let e' := { e with lanes := (runF (foldLanes c.vector e.lanes c.lanes)).1 }
    (.entered, { s with mem := { s.mem with hash := s.mem.hash.map fun x => if x = e then e' else x } }.count
      oHashContributions)
  | some (.inr (slice, line, place)) =>
    let e : HashEntry := ⟨slice, line, place, c.vector, c.space, c.tag, c.key, c.lanes⟩
    (.entered, ({ s with mem := { s.mem with hash := s.mem.hash ++ [e] } }.count oHashContributions).refreshHash)
  | none =>
    let r := s.spillOne c
    (if r.1 then .spilled else .lost, r.2)

/-- The contributions of one source row (R178). -/
def rowContributions (image tag row v d0 : Nat) (lanes : List Nat) : List Contribution :=
  let space := recParam image 879 876
  if flag image 875 then
    (chunks 32 lanes).zipIdx.map fun p => ⟨tag, row, v * ceilDiv d0 32 + p.2, true, space, padTo 32 0 p.1⟩
  else lanes.zipIdx.map fun p => ⟨tag, row, v * d0 + p.2, false, space, [p.1]⟩

/-- A lane of a contribution: the element in the entry's format, times the weight, rounded once (R178). -/
def contributionLane (c : Ctx) (a : Desc) (ats : Num) (vector : Bool) (w : Option Num) (p : Nat × Option Nat) :
    W Nat := do
  if vector then
    let x ← arith c (toWorking c.flush a ats p.2 p.1)
    match w with
    | some g => do return encodeFloat fmtFp32 (← arith c (mulRn c.flush x g))
    | none => return encodeFloat fmtFp32 x
  else
    let v ← arith c (inputValue c.flush a p.1)
    let x := blockScaled a p.2 v
    let y ← if a.scaleMode = 3 then arith c (fMul x ats) else pure x
    match w with
    | some g => do return encodeFloat fmtA40 (← arith c (do rnTo fmtA40 false (← fMul y g)))
    | none => do return encodeFloat fmtA40 (← arith c (rnTo fmtA40 false y))

/-- The atomic right at the destination elements of a contribution (R435). -/
def checkContribution (c : Ctx) (o : Desc) (v : Nat) (k : Contribution) (d0 : Nat) : W Unit := do
  let lo := if k.vector then (k.key - v * ceilDiv d0 32) * 32 else k.key - v * d0
  let n := if k.vector then min 32 (d0 - lo) else 1
  (List.range n).forM fun i => do
    let va := if isPlanar o.fmt then ((o.base : Int) + o.offset (o.at (lo + i) v) / 8).toNat
      else ((o.base : Int) + o.offset (o.at (lo + i) v) * o.bytes).toNat
    (checkRights c.ini 4 va : M Unit)

/-- Interleaves the units' contributions: which unit's next one is performed is the device's choice (R181; log entry
41). With one unit left the order is its own. Fuel is the number of contributions. -/
def interleave : Nat → List (List Contribution) → W (List Contribution)
  | 0, _ => return []
  | fuel + 1, qs => do
    let qs := qs.filter fun q => !q.isEmpty
    match qs with
    | [] => return []
    | [q] => return q
    | _ =>
      let i := (← (freeM 64 : M Nat)) % qs.length
      match qs.getD i [] with
      | c :: rest => return c :: (← interleave fuel (qs.set i rest))
      | [] => return []

/-- A scatter_add admitted beside a hash_merge of its space, or the merge beside it: both are undefined, reach the job's
windows (R185). The scheduler marked them as it admitted the second. -/
def meetsMerge (t : Task) : W Unit := if t.undef then undefinedJob else pure ()

/-- The body of scatter_add. -/
def scatterAddBody (t : Task) (c : Ctx) (args : GatherArgs) : W Unit := do
  meetsMerge t
  match args.a, args.b, args.o with
  | some a, some b, some o =>
    undefinedIf (a.rank ≠ 2 ∨ o.rank ≠ 2 ∨ o.dim 0 < a.dim 0 ∨ b.count ≠ a.dim 1 ∨
      args.c.any fun d => d.count != a.dim 1)
    let det := recDeterministic t.image
    let vector := flag t.image 875
    let d0 := o.dim 0
    let ats ← tensorScale c a
    let bts ← tensorScale c b
    let w ← match args.c with
      | some d => do pure (some (d, ← tensorScale c d))
      | none => pure none
    let queues ← (gatherShares t.image (a.dim 1)).mapM fun (p : Nat × List Nat) => do
      let c := gmCtx p.1 t.record t.image
      let parts ← p.2.mapM fun r => do
        let i ← gatherIndex c b bts r
        let v ← clampDim c o (o.dim 1) i
        let weight ← match w with
          | some (d, ts) => do
            tally oGmReadBytes (bytesOf d.fmt 1)
            pure (some (← readElem c d ts (coordOf d.dims r)))
          | none => pure none
        let codes ← rowCodes c a r
        let lanes ← codes.mapM (contributionLane c a ats vector weight)
        let ks := rowContributions t.image (if det then 1 + p.1 else 0) r v d0 lanes
        if ks.any fun k => decide (k.key ≥ 2 ^ 32) then undefinedJob
        ks.forM fun k => checkContribution c o v k d0
        return ks.map fun k => { k with key := k.key % 2 ^ 32 }
      return parts.flatten
    let order ← interleave (queues.foldl (fun n q => n + q.length) 0) queues
    let stale := !(← getThe State).epochOk c.ini.epoch
    let fates ← order.mapM fun k => do
      if stale then
        modifyThe State State.noteStale
        return HashFate.entered
      else
        let (f, s) := (← getThe State).hashAccumulate k
        set s
        return f
    let spilled := (fates.filter (· == .spilled)).length
    if spilled ≠ 0 then markEnd t.record 0x0403 0 spilled 0 0
    if fates.any (· == .lost) then throw (.fault 0)
  | _, _, _ => throw .undefined

/-- SCATTER_ADD (R178–R183). -/
def execScatterAdd (r : Nat) (s : State) : Host.Outcome State Fault Refusal :=
  s.runScatter r 2 (fun _ => []) scatterAddBody

/-! ### hash_merge (R184) -/

/-- A spill record as read: its address, and what it contributes. -/
structure SpillRead where
  va : Nat
  slice : Nat
  consumed : Bool
  entry : Contribution
deriving DecidableEq, Repr

/-- The spill records of a slice from byte `off` of its part to `hi`. -/
def readSpills (c : Ctx) (slice base hi : Nat) : Nat → Nat → W (List SpillRead)
  | 0, _ => return []
  | fuel + 1, off => do
    if off + 64 > hi then return []
    else
      let head ← (readNat c.ini .pass (base + off) 32 : M Nat)
      let vector := flag head 0
      let n := spillBytes vector
      let body ← (readNat c.ini .pass (base + off + 32) (n - 32) : M Nat)
      let lanes := if vector then (List.range 32).map fun i => field body (32 * i + 31) (32 * i) else [body % 2 ^ 40]
      let r : SpillRead := ⟨base + off, slice, flag head 28,
        ⟨field head 35 29, field head 103 72, field head 71 40, vector, field head 39 36, lanes⟩⟩
      return r :: (← readSpills c slice base hi fuel (off + n))

/-- Insertion into ascending row, keeping buffer order. -/
def insertSpill (r : SpillRead) : List SpillRead → List SpillRead
  | [] => [r]
  | q :: rest => if r.entry.row < q.entry.row then r :: q :: rest else q :: insertSpill r rest

/-- Lanes of +0. -/
def zeroLanes (vector : Bool) : List Nat := List.replicate (if vector then 32 else 1) 0

/-- P(g) of a tag: its entries' value, or the sum of its records (R184). -/
def partialOf (vector : Bool) (es : List HashEntry) (rs : List SpillRead) (tag : Nat) : F (Option (List Nat)) :=
  let records (start : List Nat) (q : List SpillRead) : F (Option (List Nat)) := do
    return some (← q.foldlM (fun a r => foldLanes vector a r.entry.lanes) start)
  match es.find? (·.tag == tag), (rs.filter (·.entry.tag == tag)).foldl (fun l r => insertSpill r l) [] with
  | none, [] => return none
  | some e, q => records e.lanes q
  | none, q => records (zeroLanes vector) q

/-- The fold of one key (R184). -/
def foldKey (vector : Bool) (es : List HashEntry) (rs : List SpillRead) : F (List Nat) :=
  (List.range 65).foldlM (fun acc g => do
    match ← partialOf vector es rs g with
    | some p => foldLanes vector acc p
    | none => return acc) (zeroLanes vector)

/-- Writes the destination of one key (R184). -/
def mergeKey (c : Ctx) (o : Desc) (ts fac : Num) (vector accumulate : Bool) (key : Nat) (lanes : List Nat) : W Unit := do
  let d0 := o.dim 0
  let per := if vector then ceilDiv d0 32 else d0
  let row ← clampDim c o (o.dim 1) (key / per : Nat)
  let i0 := if vector then key % per * 32 else key % per
  let vals ← ((lanes.take (d0 - i0)).zipIdx).mapM fun (p : Nat × Nat) => do
    let x := if vector then fp32 p.1 else a40 p.1
    if accumulate then
      let y ← readElem c o ts (o.at (i0 + p.2) row)
      arith c (do rnTo (if vector then fmtFp32 else fmtA40) (c.flush && vector) (← fAdd y x))
    else return x
  let _ ← writeRun c o 3 fac (o.at i0 row) vals
  if accumulate then tally oGmReadBytes (bytesOf o.fmt vals.length + scaleBytesOf o vals.length)
  rowWritten o vals.length

/-- Slices of unit `u` of a merge. -/
def mergeSlices (units u : Nat) : List Nat := (List.range 64).filter fun x => x % units == u

/-- The body of hash_merge. -/
def hashMergeBody (t : Task) (c : Ctx) (args : GatherArgs) : W Unit := do
  match args.a, args.b, args.c, args.o with
  | none, none, none, some o =>
    meetsMerge t
    undefinedIf (o.rank ≠ 2)
    let space := recParam t.image 879 876
    let vector := flag t.image 875
    let acc := flag t.image 874
    checkOutput o
    let ts ← tensorScale c o
    let fac ← ownFactor c o
    let units := recCount t.image
    let s ← getThe State
    let recs ← (List.range 64).mapM fun slice => do
      let c := gmCtx (recFirst t.image + slice % units) t.record t.image
      readSpills c slice (s.spillBase slice) (mapGet 0 s.mem.spill slice) (mapGet 0 s.mem.spill slice) 0
    let all := recs.flatten
    tally oGmReadBytes (all.foldl (fun n r => n + spillBytes r.entry.vector) 0)
    let mine := all.filter fun r => !r.consumed && r.entry.vector == vector && r.entry.space == space
    let es := s.mem.hash.filter fun e => e.vector == vector && e.space == space
    let keys := (es.map (·.key) ++ mine.map (·.entry.key)).eraseDups
    keys.forM fun key => do
      let u := (hashHome key space 0 s.hashLines).1 % units
      let c := gmCtx (recFirst t.image + u) t.record t.image
      mergeKey c o ts fac vector acc key
        (← arith c (foldKey vector (es.filter (·.key == key)) (mine.filter (·.entry.key == key))))
    -- consumed marks are the device's own writes into the spill region
    mine.forM fun r => do
      let b ← (readNat c.ini .pass (r.va + 3) 1 : M Nat)
      modifyThe State fun s =>
        s.physWrite (entPhys (s.entry ((r.va + 3) / pageBytes)) + (r.va + 3) % pageBytes) [BitVec.ofNat 8 (b ||| 16)]
    let left := (all.filter fun r => !r.consumed && !(r.entry.vector == vector && r.entry.space == space)).map (·.slice)
    modifyThe State fun s =>
      ({ s with mem := { s.mem with
          hash := s.mem.hash.filter fun e => !(e.vector == vector && e.space == space)
          spill := s.mem.spill.filter fun p => left.contains p.1 } }).refreshHash
  | _, _, _, _ => throw .undefined

/-- HASH_MERGE (R184). -/
def execHashMerge (r : Nat) (s : State) : Host.Outcome State Fault Refusal := s.runScatter r 3 outO hashMergeBody

end Sys2Proof.Machine
end

