-- ==== Sys2Proof/Machine/Dispatch.lean ====
section
/-! DEFINITION. One arm per command: its meaning. -/

namespace Sys2Proof.Machine

/-- The effect of a command on everything but the queue. -/
def exec (i : Instr) (s : State) : Host.Outcome State Fault Refusal :=
  match i with
  | .tickBoundary env => Sys2Proof.Machine.execTickBoundary env s
  | .releasePoint => Sys2Proof.Machine.execReleasePoint s
  | .periodSwitch => Sys2Proof.Machine.execPeriodSwitch s
  | .epochSwitch => Sys2Proof.Machine.execEpochSwitch s
  | .routeSwitch => Sys2Proof.Machine.execRouteSwitch s
  | .batchSwitch => Sys2Proof.Machine.execBatchSwitch s
  | .stepTickLimit => Sys2Proof.Machine.execStepTickLimit s
  | .taskStart cls unit phase => Sys2Proof.Machine.execTaskStart cls unit phase s
  | .taskCompletion rec timing => Sys2Proof.Machine.execTaskCompletion rec timing s
  | .join rec => Sys2Proof.Machine.execJoin rec s
  | .matrixProduct rec => Sys2Proof.Machine.execMatrixProduct rec s
  | .matrixAccumulate rec => Sys2Proof.Machine.execMatrixAccumulate rec s
  | .matrixPaired rec => Sys2Proof.Machine.execMatrixPaired rec s
  | .gradientPair rec => Sys2Proof.Machine.execGradientPair rec s
  | .tiedGroup rec => Sys2Proof.Machine.execTiedGroup rec s
  | .convert rec => Sys2Proof.Machine.execConvert rec s
  | .axpby rec => Sys2Proof.Machine.execAxpby rec s
  | .mul rec => Sys2Proof.Machine.execMul rec s
  | .fma rec => Sys2Proof.Machine.execFma rec s
  | .clamp rec => Sys2Proof.Machine.execClamp rec s
  | .func rec => Sys2Proof.Machine.execFunc rec s
  | .funcGrad rec => Sys2Proof.Machine.execFuncGrad rec s
  | .amax rec => Sys2Proof.Machine.execAmax rec s
  | .quantise rec => Sys2Proof.Machine.execQuantise rec s
  | .softmax rec => Sys2Proof.Machine.execSoftmax rec s
  | .softmaxGrad rec => Sys2Proof.Machine.execSoftmaxGrad rec s
  | .norm rec => Sys2Proof.Machine.execNorm rec s
  | .normGrad rec => Sys2Proof.Machine.execNormGrad rec s
  | .rowDot rec => Sys2Proof.Machine.execRowDot rec s
  | .colsum rec => Sys2Proof.Machine.execColsum rec s
  | .topk rec => Sys2Proof.Machine.execTopk rec s
  | .coupledFuncGrad rec => Sys2Proof.Machine.execCoupledFuncGrad rec s
  | .coupledSoftmaxGrad rec => Sys2Proof.Machine.execCoupledSoftmaxGrad rec s
  | .coupledNormGrad rec => Sys2Proof.Machine.execCoupledNormGrad rec s
  | .gatherRows rec => Sys2Proof.Machine.execGatherRows rec s
  | .combine rec => Sys2Proof.Machine.execCombine rec s
  | .route rec => Sys2Proof.Machine.execRoute rec s
  | .pack rec => Sys2Proof.Machine.execPack rec s
  | .expandRle rec => Sys2Proof.Machine.execExpandRle rec s
  | .compressRle rec => Sys2Proof.Machine.execCompressRle rec s
  | .expand2of4 rec => Sys2Proof.Machine.execExpand2of4 rec s
  | .compress2of4 rec => Sys2Proof.Machine.execCompress2of4 rec s
  | .neuronPack rec => Sys2Proof.Machine.execNeuronPack rec s
  | .predictorCheck rec => Sys2Proof.Machine.execPredictorCheck rec s
  | .scatterRows rec => Sys2Proof.Machine.execScatterRows rec s
  | .scatterAdd rec => Sys2Proof.Machine.execScatterAdd rec s
  | .hashMerge rec => Sys2Proof.Machine.execHashMerge rec s
  | .allReduce rec => Sys2Proof.Machine.execAllReduce rec s
  | .reduceScatter rec => Sys2Proof.Machine.execReduceScatter rec s
  | .allGather rec => Sys2Proof.Machine.execAllGather rec s
  | .allToAll rec => Sys2Proof.Machine.execAllToAll rec s
  | .allToAllv rec => Sys2Proof.Machine.execAllToAllv rec s
  | .allToAllvReverse rec => Sys2Proof.Machine.execAllToAllvReverse rec s
  | .broadcast rec => Sys2Proof.Machine.execBroadcast rec s
  | .permute rec => Sys2Proof.Machine.execPermute rec s
  | .barrier rec => Sys2Proof.Machine.execBarrier rec s
  | .updateMomentumSgd rec => Sys2Proof.Machine.execUpdateMomentumSgd rec s
  | .updateAdamw rec => Sys2Proof.Machine.execUpdateAdamw rec s
  | .updateFactored rec => Sys2Proof.Machine.execUpdateFactored rec s
  | .updateSignMomentum rec => Sys2Proof.Machine.execUpdateSignMomentum rec s
  | .updateLazy rec => Sys2Proof.Machine.execUpdateLazy rec s
  | .snapshot rec => Sys2Proof.Machine.execSnapshot rec s
  | .midnightWrite rec => Sys2Proof.Machine.execMidnightWrite rec s
  | .midnightClose rec => Sys2Proof.Machine.execMidnightClose rec s
  | .alloc rec => Sys2Proof.Machine.execAlloc rec s
  | .free rec => Sys2Proof.Machine.execFree rec s
  | .create rec => Sys2Proof.Machine.execCreate rec s
  | .allocatorQueueService => Sys2Proof.Machine.execAllocatorQueueService s
  | .promote rec => Sys2Proof.Machine.execPromote rec s
  | .demote rec => Sys2Proof.Machine.execDemote rec s
  | .populate rec => Sys2Proof.Machine.execPopulate rec s
  | .discard rec => Sys2Proof.Machine.execDiscard rec s
  | .setPolicy rec => Sys2Proof.Machine.execSetPolicy rec s
  | .migrationStart page => Sys2Proof.Machine.execMigrationStart page s
  | .migrationCopyDone page => Sys2Proof.Machine.execMigrationCopyDone page s
  | .autoPromote page => Sys2Proof.Machine.execAutoPromote page s
  | .accessCountHalving => Sys2Proof.Machine.execAccessCountHalving s
  | .scrubPass stack reports => Sys2Proof.Machine.execScrubPass stack reports s
  | .hostBar2Read ide offset len => Sys2Proof.Machine.execHostBar2Read ide offset len s
  | .hostBar2Write ide offset bytes => Sys2Proof.Machine.execHostBar2Write ide offset bytes s
  | .hostUnsupportedRequest => Sys2Proof.Machine.execHostUnsupportedRequest s
  | .hostReadTimeout rec => Sys2Proof.Machine.execHostReadTimeout rec s
  | .hotReset => Sys2Proof.Machine.execHotReset s
  | .objectWrite w => Sys2Proof.Machine.execObjectWrite w s
  | .windowRead ide => Sys2Proof.Machine.execWindowRead ide s
  | .windowWriteSegment ide => Sys2Proof.Machine.execWindowWriteSegment ide s
  | .windowWriteLast ide => Sys2Proof.Machine.execWindowWriteLast ide s
  | .descriptorCreate p value => Sys2Proof.Machine.execDescriptorCreate p value s
  | .allocRequest p value => Sys2Proof.Machine.execAllocRequest p value s
  | .pageQuery p value => Sys2Proof.Machine.execPageQuery p value s
  | .stickyClear p value => Sys2Proof.Machine.execStickyClear p value s
  | .rollbackRaise p value => Sys2Proof.Machine.execRollbackRaise p value s
  | .tableUnlock p value => Sys2Proof.Machine.execTableUnlock p value s
  | .resetRequest p value => Sys2Proof.Machine.execResetRequest p value s
  | .tileReset p value => Sys2Proof.Machine.execTileReset p value s
  | .portReset p value => Sys2Proof.Machine.execPortReset p value s
  | .reachProgram p value => Sys2Proof.Machine.execReachProgram p value s
  | .firmwarePush p image => Sys2Proof.Machine.execFirmwarePush p image s
  | .duskTick p => Sys2Proof.Machine.execDuskTick p s
  | .duskStep p => Sys2Proof.Machine.execDuskStep p s
  | .duskSnapshot p => Sys2Proof.Machine.execDuskSnapshot p s
  | .duskIdle => Sys2Proof.Machine.execDuskIdle s
  | .duskPortStop => Sys2Proof.Machine.execDuskPortStop s
  | .commitDiscard p group => Sys2Proof.Machine.execCommitDiscard p group s
  | .commitTick p => Sys2Proof.Machine.execCommitTick p s
  | .commitProgram p => Sys2Proof.Machine.execCommitProgram p s
  | .commitQueues p => Sys2Proof.Machine.execCommitQueues p s
  | .commitEpoch p => Sys2Proof.Machine.execCommitEpoch p s
  | .commitPaging p => Sys2Proof.Machine.execCommitPaging p s
  | .commitGradientPath p => Sys2Proof.Machine.execCommitGradientPath p s
  | .commitFnSlots p => Sys2Proof.Machine.execCommitFnSlots p s
  | .commitGather p => Sys2Proof.Machine.execCommitGather p s
  | .commitPredictorExact p => Sys2Proof.Machine.execCommitPredictorExact p s
  | .commitSeed p => Sys2Proof.Machine.execCommitSeed p s
  | .commitShadow p => Sys2Proof.Machine.execCommitShadow p s
  | .commitRounding p => Sys2Proof.Machine.execCommitRounding p s
  | .commitScrub p => Sys2Proof.Machine.execCommitScrub p s
  | .commitHash p => Sys2Proof.Machine.execCommitHash p s
  | .commitPorts p => Sys2Proof.Machine.execCommitPorts p s
  | .commitRoutes p => Sys2Proof.Machine.execCommitRoutes p s
  | .commitAxes p => Sys2Proof.Machine.execCommitAxes p s
  | .commitCollective p => Sys2Proof.Machine.execCommitCollective p s
  | .commitBatch p => Sys2Proof.Machine.execCommitBatch p s
  | .commitTwin p => Sys2Proof.Machine.execCommitTwin p s
  | .commitStraggler p => Sys2Proof.Machine.execCommitStraggler p s
  | .commitRestore p => Sys2Proof.Machine.execCommitRestore p s
  | .restoreComplete => Sys2Proof.Machine.execRestoreComplete s
  | .commitHostWindow p => Sys2Proof.Machine.execCommitHostWindow p s
  | .commitMsix p => Sys2Proof.Machine.execCommitMsix p s
  | .commitFarIde p => Sys2Proof.Machine.execCommitFarIde p s
  | .commitSecurity p => Sys2Proof.Machine.execCommitSecurity p s
  | .commitLinkPolicy p => Sys2Proof.Machine.execCommitLinkPolicy p s
  | .commitFarTrust p => Sys2Proof.Machine.execCommitFarTrust p s
  | .commitTable p => Sys2Proof.Machine.execCommitTable p s
  | .tableClearDone => Sys2Proof.Machine.execTableClearDone s
  | .commitWatchdog p => Sys2Proof.Machine.execCommitWatchdog p s
  | .commitPower p => Sys2Proof.Machine.execCommitPower p s
  | .commitThermal p => Sys2Proof.Machine.execCommitThermal p s
  | .commitMgmt p => Sys2Proof.Machine.execCommitMgmt p s
  | .commitNotify p => Sys2Proof.Machine.execCommitNotify p s
  | .felbyRead f => Sys2Proof.Machine.execFelbyRead f s
  | .felbyWrite f => Sys2Proof.Machine.execFelbyWrite f s
  | .felbyDescribe f => Sys2Proof.Machine.execFelbyDescribe f s
  | .felbySpdm f req => Sys2Proof.Machine.execFelbySpdm f req s
  | .felbyUnknownType f => Sys2Proof.Machine.execFelbyUnknownType f s
  | .eventAck f => Sys2Proof.Machine.execEventAck f s
  | .eventSend timeMs => Sys2Proof.Machine.execEventSend timeMs s
  | .eventRetry timeMs => Sys2Proof.Machine.execEventRetry timeMs s
  | .doeRequest req => Sys2Proof.Machine.execDoeRequest req s
  | .dataFlitReceive port flit => Sys2Proof.Machine.execDataFlitReceive port flit s
  | .idleFlitReceive port flit => Sys2Proof.Machine.execIdleFlitReceive port flit s
  | .nakReceive port flit => Sys2Proof.Machine.execNakReceive port flit s
  | .timestampReceive port flit => Sys2Proof.Machine.execTimestampReceive port flit s
  | .abortReceive port flit => Sys2Proof.Machine.execAbortReceive port flit s
  | .attachReceive port flit info => Sys2Proof.Machine.execAttachReceive port flit info s
  | .keyUpdateReceive port flit => Sys2Proof.Machine.execKeyUpdateReceive port flit s
  | .timestampSend port phase => Sys2Proof.Machine.execTimestampSend port phase s
  | .keyUpdateSend port slot => Sys2Proof.Machine.execKeyUpdateSend port slot s
  | .messageForward port vc => Sys2Proof.Machine.execMessageForward port vc s
  | .ready port vc => Sys2Proof.Machine.execReady port vc s
  | .reduce port vc => Sys2Proof.Machine.execReduce port vc s
  | .place port vc => Sys2Proof.Machine.execPlace port vc s
  | .counts port vc => Sys2Proof.Machine.execCounts port vc s
  | .barrierUp port vc => Sys2Proof.Machine.execBarrierUp port vc s
  | .barrierDown port vc => Sys2Proof.Machine.execBarrierDown port vc s
  | .barrierRelease rec => Sys2Proof.Machine.execBarrierRelease rec s
  | .contributionDeadline rec => Sys2Proof.Machine.execContributionDeadline rec s
  | .heartbeat port vc => Sys2Proof.Machine.execHeartbeat port vc s
  | .heartbeatSend => Sys2Proof.Machine.execHeartbeatSend s
  | .twinLost => Sys2Proof.Machine.execTwinLost s
  | .snapData port vc => Sys2Proof.Machine.execSnapData port vc s
  | .snapHeader port vc => Sys2Proof.Machine.execSnapHeader port vc s
  | .fetch port vc => Sys2Proof.Machine.execFetch port vc s
  | .fetchData port vc => Sys2Proof.Machine.execFetchData port vc s
  | .dusk port vc => Sys2Proof.Machine.execDusk port vc s
  | .twinResetRequest port vc => Sys2Proof.Machine.execTwinResetRequest port vc s
  | .retrainInterval port => Sys2Proof.Machine.execRetrainInterval port s
  | .trainingComplete port peerRates => Sys2Proof.Machine.execTrainingComplete port peerRates s
  | .trainingTimeout port => Sys2Proof.Machine.execTrainingTimeout port s
  | .attachComplete port evidence => Sys2Proof.Machine.execAttachComplete port evidence s
  | .laneSignalLoss port => Sys2Proof.Machine.execLaneSignalLoss port s
  | .noFlitTimeout port => Sys2Proof.Machine.execNoFlitTimeout port s
  | .farLinkLoss port cause => Sys2Proof.Machine.execFarLinkLoss port cause s
  | .farRetrain port found => Sys2Proof.Machine.execFarRetrain port found s
  | .farRequestTimeout port => Sys2Proof.Machine.execFarRequestTimeout port s
  | .refclkLoss clk => Sys2Proof.Machine.execRefclkLoss clk s
  | .powerOnReset removed => Sys2Proof.Machine.execPowerOnReset removed s
  | .perst => Sys2Proof.Machine.execPerst s
  | .sysRst => Sys2Proof.Machine.execSysRst s
  | .watchdogExpiry => Sys2Proof.Machine.execWatchdogExpiry s
  | .thermalTrip temps => Sys2Proof.Machine.execThermalTrip temps s
  | .thermalTripRelease temps => Sys2Proof.Machine.execThermalTripRelease temps s
  | .vcoreOvercurrent currentA => Sys2Proof.Machine.execVcoreOvercurrent currentA s
  | .dawnPhaseDone env => Sys2Proof.Machine.execDawnPhaseDone env s
  | .rsaKeyReady => Sys2Proof.Machine.execRsaKeyReady s
  | .resetRelease source => Sys2Proof.Machine.execResetRelease source s
  | .hostLinkUp speed width => Sys2Proof.Machine.execHostLinkUp speed width s
  | .hostLinkDown cause => Sys2Proof.Machine.execHostLinkDown cause s
  | .managementPortDown port => Sys2Proof.Machine.execManagementPortDown port s
  | .managementPortUp port => Sys2Proof.Machine.execManagementPortUp port s
  | .felbyFrameDiscard f => Sys2Proof.Machine.execFelbyFrameDiscard f s

end Sys2Proof.Machine
end

