-- ==== Sys2Proof/Safety.lean ====
section
/-! DEFINITION. What a run keeps: the bounds of the state, and what no command and no task may do, in the terms the claims
use. -/

namespace Sys2Proof.Safety

open Sys2Proof.Machine

/-- Every key of a map is above `k`. -/
def Above {β : Type} (k : Nat) (m : List (Nat × β)) : Prop := ∀ p ∈ m, k < p.1

/-- The keys of a map rise. -/
def Rising {β : Type} : List (Nat × β) → Prop
  | [] => True
  | p :: m => Above p.1 m ∧ Rising m

/-- The bounds the manual puts on what the state holds, and the canonical form of memory: the cells rise and list no
default byte; the event log holds at most 4,096 records (R394), the fall-back list 64 addresses (R240), and 16,384
readies are held (R328). Values of objects are listed in rising order, active and pending. -/
structure Sound (s : State) : Prop where
  objs : Rising s.dict.objs
  pend : Rising s.dict.pend
  cells : memWf s.mem.cells = true
  log : s.dict.log.length ≤ 4096
  fallback : s.sched.fallback.length ≤ 64
  readies : s.colls.readies.length ≤ 16384

/-- What every command keeps: the queue of commands; what has been sent, to which it may only add; the count of free
values, which never falls; the generations programmed into OTP, to which it may only add (R424, R443); and the bounds
of `Sound`. -/
structure Keeps (s t : State) : Prop where
  pending : t.pending = s.pending
  out : s.out <+: t.out
  free : s.freeCtr ≤ t.freeCtr
  fw : s.sec.fwFloors <+: t.sec.fwFloors
  hub : s.sec.hubFloors <+: t.sec.hubFloors
  reach : s.sec.reachTables <+: t.sec.reachTables
  sound : Sound s → Sound t

/-! ### What the work of a task may change -/

/-- The objects that the work of a matrix, vector, gather, scatter or update task may change: its counters and those of
memory, of the access tables (those that count a refused access of a message's delivery among them, since every access is
checked by one operation) and of the event log. -/
def workObjs : List Nat := [
  oArrayReloadCycles, oArrayStreamCycles, oArrayPaddingCells, oGradPairTasks, oSfEvaluations, oCoupledRows,
  oSrAccumTasks, oShadowSamples, oDroppedValues, oGmReadBytes, oGmWriteBytes, oGmSliceReads, oOverfullGroups,
  oRleTruncatedRows, oRleOverruns, oPredictorSampled, oPredictorMisses, oHashContributions, oHashEntriesValid,
  oHashSpillRecords, oHashSpillOverflows, oUpdateElements, oUpdateLazyRows, oUpdateSkewTasks, oClampCount,
  oStackReadBytes, oStackWriteBytes, oCacheHits, oCacheMisses, oCacheWritebacks, oAtomicOps, oAtomicRefusals,
  oTranslationMisses, oPageAbsentAccesses, oFarReadBytes, oFarWriteBytes, oFarPoisoned, oFarLastPoison, oHostBytesIn,
  oHostBytesOut, oHostRequestErrors, oStaleCount, oDeniedCount, oCollDiscards, oEccUncorrected, oEccLastLocation, oEventSeqNext,
  oEventSeqOldest, oEventsOverwritten]

/-- What the work of a task leaves as it is, objects, memory, streams and the tasks themselves apart. -/
abbrev workFrame (s : State) :=
  (s.pending, s.ports, s.timing, s.colls, s.sec, s.rst, s.far, s.resil,
    (s.sched.outcomes, s.sched.counters, s.sched.credits, s.sched.slipped, s.sched.activeSteps, s.sched.freshProgram,
      s.sched.startAsked, s.sched.periodNext, s.sched.boundaryAclk, s.sched.tickLength, s.sched.fallback),
    (s.num.seed, s.num.stickyClear, s.num.arrays),
    (s.dict.pend, s.dict.committed, s.dict.window, s.dict.assemblies, s.dict.kept, s.dict.eventSeq,
      s.dict.outstanding, s.dict.msixTable, s.dict.msixPending),
    (s.mem.nearUsed, s.mem.farUsed, s.mem.slots, s.mem.sequences, s.mem.queue, s.mem.asks, s.mem.migrations,
      s.mem.lastHalving))

/-- A page-map entry but for its access count, bits [58:43] (Table 10.12). -/
def entPlace (e : Nat) : Nat × Nat := (e / 2 ^ 59, e % 2 ^ 43)

/-- What the work of a task keeps: all that every command keeps; the frame; the places of all pages; the records that are
tasks; and every object that is not among `workObjs`. -/
structure Works (s t : State) : Prop where
  keeps : Keeps s t
  frame : workFrame t = workFrame s
  places : ∀ p, entPlace (t.entry p) = entPlace (s.entry p)
  records : t.sched.tasks.map (·.record) = s.sched.tasks.map (·.record)
  objs : Rising s.dict.objs → Rising t.dict.objs ∧ ∀ k, k ∉ workObjs → t.obj k = s.obj k

/-! ### The work of the compute commands -/

/-- A task without what its engines have read ahead, which of them have gone on to another task, and whether its results
are undefined. -/
def Task.settledPart (t : Task) : Task := { t with reads := [], left := [], undef := false }

/-- Work with its task's epoch and record, as the engines run it. -/
def engineWork (t : Task) (ini : Init) (w : W Unit) : M Unit :=
  runBins { ini with epoch := some (recEpoch t.image), record := t.record } w

/-- A task whose work is due, when its record has this form. -/
def dueTask (s : State) (r : Nat) (form : Task → Bool) : Option Task := (s.working? r).filter form

/-- The work of a forward matrix command (R93, R98, R108). The delivery that it takes ends with it. -/
def forwardJob (s : State) (r : Nat) (form : Nat → Bool) : Option (State × Task × M Unit) :=
  (dueTask s r fun t => recKind t.image == 1 && form t.image && s.partnersReady r).map fun t =>
    (s, t, engineWork t (tileInit (recFirst t.image)) (forwardBody t))

/-- The work of both gradients on a pair, tied or not (R193, R203). -/
def gradJob (s : State) (r : Nat) (tied : Bool) : Option (State × Task × M Unit) :=
  (dueTask s r fun t => recKind t.image == 1 && matOp t.image == 2 && t.members.isEmpty != tied &&
      (r :: t.members.map (·.1)).all s.partnersReady).map fun t =>
    (s, t, engineWork t (tileInit (recFirst t.image)) (gradBody t ((t.record, t.image) :: t.members)))

/-- The work of a vector command (R125). -/
def vectorJob (s : State) (r op : Nat) (body : Task → VecArgs → W Unit) : Option (State × Task × M Unit) :=
  (dueTask s r fun t => recKind t.image == 2 && vecOp t.image == op && !vecCoupled t.image).map fun t =>
    (s, t, engineWork t (tileInit (recFirst t.image)) (vectorWork body t))

/-- The work of a coupled vector command whose partner has drained (R130). -/
def coupledJob (s : State) (r op : Nat) (fits : VecIn → VecArgs → Bool)
    (f : Nat → Ctx → VecIn → VecArgs → List Nat → Machine.Num → W Machine.Num) : Option (State × Task × M Unit) :=
  match dueTask s r (fun t => recKind t.image == 2 && vecOp t.image == op && vecCoupled t.image), s.partnerOf r with
  | some t, some (p, pimage) =>
    if p.work = 0 then none
    else some (s, t, engineWork t (tileInit (recFirst t.image)) (coupledBody t p pimage fits (f t.image)))
  | some t, none => some (s, t, engineWork t (tileInit (recFirst t.image)) (throw .undefined))
  | none, _ => none

/-- The work of a gather command (R158). -/
def gatherJob (s : State) (r op : Nat) (body : Task → Ctx → GatherArgs → W Unit) : Option (State × Task × M Unit) :=
  (dueTask s r fun t => recKind t.image == 3 && gatherOp t.image == op).map fun t =>
    (s, t, engineWork t (gmInit (recFirst t.image))
      (gatherWork ((s.holder? (r + 1)).any fun m => deliveryFits t.image m.image) body r t))

/-- The work of a scatter command (R175). -/
def scatterJob (s : State) (r op : Nat) (body : Task → Ctx → GatherArgs → W Unit) : Option (State × Task × M Unit) :=
  (dueTask s r fun t => recKind t.image == 4 && gatherOp t.image == op).map fun t =>
    (s, t, engineWork t (gmInit (recFirst t.image)) (scatterWork body r t))

/-- The work of an update command (R210), with its group as it was read at the start (R218). -/
def updateJob (s : State) (r mode : Nat) : Option (State × Task × M Unit) :=
  (dueTask s r fun t => recKind t.image == 6 && updMode t.image (t.notes.headD 0) == mode).map fun t =>
    (s, t, engineWork t (updCtx (recFirst t.image) t.record t.image).ini
      (updateWork (updCtx (recFirst t.image) t.record t.image) (t.notes.headD 0) t))

/-- What a compute command is about to do: the state its work starts from, its task, and the work. None for the other
commands, and for a command whose task is not due. -/
def workOf (c : Instr) (s : State) : Option (State × Task × M Unit) :=
  match c with
  | .matrixProduct r => forwardJob s r fun i => !matPaired i && (matOp i == 0 || matOp i == 3)
  | .matrixAccumulate r => forwardJob s r fun i => !matPaired i && matOp i == 1
  | .matrixPaired r => forwardJob s r fun i => matPaired i && matOp i != 2
  | .gradientPair r => gradJob s r false
  | .tiedGroup r => gradJob s r true
  | .convert r => vectorJob s r 0x00 convertBody
  | .axpby r => vectorJob s r 0x01 axpbyBody
  | .mul r => vectorJob s r 0x02 mulBody
  | .fma r => vectorJob s r 0x03 fmaBody
  | .clamp r => vectorJob s r 0x04 clampBody
  | .func r => vectorJob s r 0x05 funcBody
  | .funcGrad r => vectorJob s r 0x06 funcGradBody
  | .amax r => vectorJob s r 0x08 amaxBody
  | .quantise r => vectorJob s r 0x09 quantiseBody
  | .softmax r => vectorJob s r 0x0A softmaxBody
  | .softmaxGrad r => vectorJob s r 0x0B softmaxGradBody
  | .norm r => vectorJob s r 0x0C normBody
  | .normGrad r => vectorJob s r 0x0D normGradBody
  | .rowDot r => vectorJob s r 0x0E rowDotBody
  | .colsum r => vectorJob s r 0x0F colsumBody
  | .topk r => vectorJob s r 0x10 topkBody
  | .coupledFuncGrad r => coupledJob s r 0x20 coupledFuncFits coupledFuncElem
  | .coupledSoftmaxGrad r => coupledJob s r 0x21 coupledSoftmaxFits coupledSoftmaxElem
  | .coupledNormGrad r => coupledJob s r 0x22 coupledNormFits coupledNormElem
  | .gatherRows r => gatherJob s r 1 gatherRowsBody
  | .combine r => gatherJob s r 2 combineBody
  | .route r => gatherJob s r 3 routeBody
  | .pack r => gatherJob s r 4 packBody
  | .expandRle r => gatherJob s r 5 expandRleBody
  | .compressRle r => gatherJob s r 6 compressRleBody
  | .expand2of4 r => gatherJob s r 7 expand24Body
  | .compress2of4 r => gatherJob s r 8 compress24Body
  | .neuronPack r => gatherJob s r 9 neuronPackBody
  | .predictorCheck r => gatherJob s r 10 predictorBody
  | .scatterRows r => scatterJob s r 1 scatterRowsBody
  | .scatterAdd r => scatterJob s r 2 scatterAddBody
  | .hashMerge r => scatterJob s r 3 hashMergeBody
  | .updateMomentumSgd r => updateJob s r 0
  | .updateAdamw r => updateJob s r 1
  | .updateFactored r => updateJob s r 2
  | .updateSignMomentum r => updateJob s r 3
  | .updateLazy r => updateJob s r 4
  | _ => none

/-- Is the command one of the 42 compute commands? -/
def Computes (c : Instr) : Prop :=
  match c with
  | .matrixProduct _ | .matrixAccumulate _ | .matrixPaired _ | .gradientPair _ | .tiedGroup _ | .convert _ | .axpby _
  | .mul _ | .fma _ | .clamp _ | .func _ | .funcGrad _ | .amax _ | .quantise _ | .softmax _ | .softmaxGrad _ | .norm _
  | .normGrad _ | .rowDot _ | .colsum _ | .topk _ | .coupledFuncGrad _ | .coupledSoftmaxGrad _ | .coupledNormGrad _
  | .gatherRows _ | .combine _ | .route _ | .pack _ | .expandRle _ | .compressRle _ | .expand2of4 _ | .compress2of4 _
  | .neuronPack _ | .predictorCheck _ | .scatterRows _ | .scatterAdd _ | .hashMerge _ | .updateMomentumSgd _
  | .updateAdamw _ | .updateFactored _ | .updateSignMomentum _ | .updateLazy _ => True
  | _ => False

/-! ### What the paging engine and the allocator may change -/

/-- The objects that paging may change beside those of `workObjs`: what the allocator answers, and the counts of frames,
migrations and requests (Tables 10.9–10.15, 6.9). -/
def pageObjs : List Nat := [
  oNearFramesFree, oFarFramesFree, oMigratingNow, oDemotions, oPromotions, oShootdowns, oColourMisses, oAllocLive,
  oAllocFailures, oAllocResult, oEccCorrected, oDescriptorResult, oDescriptorsRefused, oDescriptorsCreated]

/-- What paging leaves as it is, objects, memory and tasks apart. -/
abbrev pageFrame (s : State) :=
  (s.pending, s.ports, s.timing, s.colls, s.sec, s.rst, s.far, s.resil,
    (s.sched.outcomes, s.sched.counters, s.sched.credits, s.sched.slipped, s.sched.activeSteps, s.sched.freshProgram,
      s.sched.startAsked, s.sched.periodNext, s.sched.boundaryAclk, s.sched.tickLength, s.sched.fallback),
    (s.num.seed, s.num.stickyClear, s.num.arrays),
    (s.dict.pend, s.dict.committed, s.dict.window, s.dict.assemblies, s.dict.kept, s.dict.eventSeq,
      s.dict.outstanding, s.dict.msixTable, s.dict.msixPending))

/-- What paging keeps: all that every command keeps; the frame; the records that are tasks; and every object but those of
`workObjs` and `pageObjs`. -/
structure Pages (s t : State) : Prop where
  keeps : Keeps s t
  frame : pageFrame t = pageFrame s
  records : t.sched.tasks.map (·.record) = s.sched.tasks.map (·.record)
  objs : Rising s.dict.objs → Rising t.dict.objs ∧ ∀ k, k ∉ workObjs → k ∉ pageObjs → t.obj k = s.obj k

/-- Is the command one of the allocator's or the paging engine's (10.9–10.15, 6.5)? -/
def PagingCommand (c : Instr) : Prop :=
  match c with
  | .alloc _ | .free _ | .create _ | .allocatorQueueService | .promote _ | .demote _ | .populate _ | .discard _
  | .setPolicy _ | .migrationStart _ | .migrationCopyDone _ | .autoPromote _ | .accessCountHalving
  | .scrubPass _ _ => True
  | _ => False

/-- The work of an allocate task with this op, at the head of its queue and not waiting for a migration (R269, R272). -/
def allocJob (s : State) (r op : Nat) : Option (State × Task × M Unit) :=
  (dueTask s r fun t => recKind t.image == 8 && recParam t.image 855 852 == op && s.allocHead r &&
    !s.allocWaits (taskAlloc t.image)).map fun t => (s.popAlloc, t, allocWork t)

/-- The work of a create operation at the head of the allocator queue (R145). -/
def createJob (s : State) (r : Nat) : Option (State × Task × M Unit) :=
  (dueTask s r fun t => recKind t.image == 8 && recParam t.image 855 852 == 3 && s.allocHead r).map fun t =>
    (s.popAlloc, t, createWork t)

/-- The work of a page task none of whose pages migrates (R282, R284). -/
def pageJob (s : State) (r : Nat) (form : Nat → Bool) (one : Task → Nat → M Unit) : Option (State × Task × M Unit) :=
  (dueTask s r fun t => recKind t.image == 9 && form (recParam t.image 943 936) &&
    !(s.mem.migrations.any fun m => decide ((pageRange t.image).1 ≤ m.page) &&
      decide (m.page < (pageRange t.image).1 + (pageRange t.image).2))).map fun t => (s, t, pageWork one t)

/-- What a command of an allocate or page task is about to do, as `workOf` says it of the compute commands. -/
def pagingOf (c : Instr) (s : State) : Option (State × Task × M Unit) :=
  match c with
  | .alloc r => allocJob s r 1
  | .free r => allocJob s r 2
  | .create r => createJob s r
  | .promote r => pageJob s r (fun op => op == 1 || op == 0 || decide (5 < op)) fun t p => movePage false t.record p
  | .demote r => pageJob s r (· == 2) fun t p => movePage true t.record p
  | .populate r => pageJob s r (· == 3) fun t p => populatePage t.record p
  | .discard r => pageJob s r (· == 4) fun _ p => discardPage p
  | .setPolicy r => pageJob s r (· == 5) fun t p => policyPage (recParam t.image 935 934) t.record p
  | _ => none

/-! ### What collectives, snapshots and the twin's messages may change -/

/-- The objects that a collective, a snapshot, a deadline or a message of the twin may change beside those of `workObjs`
(Tables 11.13, 12.10, 13.10 and others). -/
def collObjs : List Nat := [
  oMisroutedMessages, oUnroutableMessages, oShootdowns, oCollectiveTasks, oCollBytesSent, oCollBytesReceived,
  oA2aOverflowRows, oShardChangedCount, oSkewFlag, oNoiseLocalSum, oNoiseReducedSum, oNoiseScale, oNoiseTick,
  oBarrierLate, oLateBytesCarried, oLateBytesDropped, oPeerAbsentTasks, oReplayChecks, oReplayMismatches, oSnapshotSeq,
  oSnapshotBytesLast, oSnapshotTicksLast, oTwinState, oHeartbeatsReceived, oTwinRejects]

/-- What they leave as it is, objects, memory, tasks, ports and their own progress apart. -/
abbrev collFrame (s : State) :=
  (s.pending, s.timing, s.sec, s.rst, s.far,
    (s.sched.outcomes, s.sched.counters, s.sched.credits, s.sched.slipped, s.sched.activeSteps, s.sched.freshProgram,
      s.sched.startAsked, s.sched.periodNext, s.sched.boundaryAclk, s.sched.tickLength, s.sched.fallback),
    (s.num.seed, s.num.stickyClear, s.num.arrays),
    (s.dict.pend, s.dict.committed, s.dict.window, s.dict.assemblies, s.dict.kept, s.dict.eventSeq,
      s.dict.outstanding, s.dict.msixTable, s.dict.msixPending),
    (s.mem.nearUsed, s.mem.farUsed, s.mem.slots, s.mem.sequences, s.mem.queue, s.mem.asks, s.mem.migrations,
      s.mem.lastHalving))

/-- What they keep: all that every command keeps; the frame; the records that are tasks; and every object but those of
`workObjs` and `collObjs` and the counts of payload bytes of the 32 ports. -/
structure Collects (s t : State) : Prop where
  keeps : Keeps s t
  frame : collFrame t = collFrame s
  records : t.sched.tasks.map (·.record) = s.sched.tasks.map (·.record)
  objs : Rising s.dict.objs → Rising t.dict.objs ∧
    ∀ k, k ∉ workObjs → k ∉ collObjs → (∀ p, p < 32 → k ≠ oTxPayloadBytes p) → t.obj k = s.obj k

/-- Is the command one of the collectives, their messages, the snapshots, the deadlines or the twin (12, 13)? -/
def CollectiveCommand (c : Instr) : Prop :=
  match c with
  | .allReduce _ | .reduceScatter _ | .allGather _ | .allToAll _ | .allToAllv _ | .allToAllvReverse _ | .broadcast _
  | .permute _ | .barrier _ | .ready _ _ | .reduce _ _ | .place _ _ | .counts _ _ | .barrierUp _ _ | .barrierDown _ _
  | .barrierRelease _ | .contributionDeadline _ | .snapshot _ | .midnightWrite _ | .midnightClose _ | .heartbeat _ _
  | .heartbeatSend | .twinLost | .snapData _ _ | .snapHeader _ _ | .fetch _ _ | .fetchData _ _ | .dusk _ _
  | .duskIdle => True
  | _ => False

/-- The work of a collective task whose form is that of its row, and whose phase a release point has released. -/
def collectJob (s : State) (r : Nat) (form : Nat → Bool) : Option (State × CollCtx × M Unit) :=
  match s.working? r, s.coll? r with
  | some t, some q =>
    if recKind t.image = 5 ∧ form t.image = true ∧ q.released = true then some (s, s.collCtx t, (s.collCtx t).step) else none
  | _, _ => none

/-- The message of a kind at the front of a port and VC that acts on a task: one of the current placement epoch that no
debt expects (R62, R366), with the state in which its bytes have been counted. -/
def actsOn (s : State) (port vc kind : Nat) : Option (State × CollCtx × CollMsg) :=
  match s.frontMsg port vc with
  | none => none
  | some m =>
    let u := s.dropFront port m
    let (tag, x) := readColl m
    if hdrKind m.header ≠ kind ∨ hdrEpoch m.header ≠ s.obj oPlacementEpoch ∨ (u.debt? kind tag x.rank).isSome = true then none
    else (u.tagTask tag).map fun t => (u.addObj oCollBytesReceived x.data.length, u.collCtx t, x)

/-- What such a message does. -/
def messageJob (s : State) (port vc kind : Nat) (act : CollCtx → CollMsg → M Unit) : Option (State × CollCtx × M Unit) :=
  (actsOn s port vc kind).map fun p => (p.1, p.2.1, act p.2.1 p.2.2)

/-- The work of a snapshot task. -/
def snapJob (s : State) (r : Nat) (body : CollCtx → Nat → Coll → M Unit) : Option (State × CollCtx × M Unit) :=
  match s.working? r, s.coll? r with
  | some t, some q => if recKind t.image = 7 then some (s, s.collCtx t, body (s.collCtx t) t.image q) else none
  | _, _ => none

/-- What a command of a collective or snapshot task, or a message for one, is about to do, as `workOf` says it of the
compute commands. -/
def collectiveOf (c : Instr) (s : State) : Option (State × CollCtx × M Unit) :=
  match c with
  | .allReduce r => collectJob s r fun i => colOp i == 1
  | .reduceScatter r => collectJob s r fun i => colOp i == 2
  | .allGather r => collectJob s r fun i => colOp i == 3
  | .allToAll r => collectJob s r fun i => colOp i == 4
  | .allToAllv r => collectJob s r fun i => colOp i == 5 && !colReverse i
  | .allToAllvReverse r => collectJob s r fun i => colOp i == 5 && colReverse i
  | .broadcast r => collectJob s r fun i => colOp i == 6
  | .permute r => collectJob s r fun i => colOp i == 7
  | .barrier r => collectJob s r fun i => colOp i == 8
  | .reduce p v => messageJob s p v 2 fun c x => c.onReduce x
  | .place p v => messageJob s p v 3 fun c x => c.onPlace x
  | .counts p v => messageJob s p v 4 fun c x => c.onCounts x
  | .barrierUp p v => messageJob s p v 5 fun c x => c.onBarrierUp x
  | .barrierDown p v => messageJob s p v 6 fun c x => c.onBarrierDown x
  | .snapshot r => snapJob s r fun c image _ => snapshotWork r c image
  | .midnightWrite r => snapJob s r fun c image q => midnightWriteWork r c image q
  | .midnightClose r => snapJob s r fun c _ q => midnightCloseWork r c q
  | _ => none

/-- Port, VC and kind of the message that a command of the six collective kinds handles (Table 12.3). -/
def collectiveMessage (c : Instr) : Option (Nat × Nat × Nat) :=
  match c with
  | .ready p v => some (p, v, 1)
  | .reduce p v => some (p, v, 2)
  | .place p v => some (p, v, 3)
  | .counts p v => some (p, v, 4)
  | .barrierUp p v => some (p, v, 5)
  | .barrierDown p v => some (p, v, 6)
  | _ => none

/-- Port, VC and kind of the message that a command of the twin's kinds handles (Table 13.1). -/
def twinMessage (c : Instr) : Option (Nat × Nat × Nat) :=
  match c with
  | .heartbeat p v => some (p, v, 0x10)
  | .snapData p v => some (p, v, 0x11)
  | .snapHeader p v => some (p, v, 0x12)
  | .fetch p v => some (p, v, 0x13)
  | .fetchData p v => some (p, v, 0x14)
  | _ => none

/-! ### Writes to the dictionary -/

/-- May this path write this object now: it is in service (R448), has the session or stream it needs (R427, R432), and
the access tables grant it (R435)? -/
structure MayWrite (s : State) (p : Path) (index sub : Nat) : Prop where
  open_ : s.pathOpen p = true
  session : s.sessionOk p index true = true
  table : s.tableOk p index sub true = true

/-- The state in which a path's write of `n` bytes is performed: a write of the host has been counted in its payload
bytes (0x6000:0A). -/
def writeBy (p : Path) (n : Nat) (s : State) : State :=
  match p with
  | .host _ => s.tookHost n
  | _ => s

/-- The path and group of a commit command (Table 14.3); none for the other commands. -/
def commitOf (c : Instr) : Option (Path × Nat) :=
  match c with
  | .commitTick p => some (p, 0x2010)
  | .commitProgram p => some (p, 0x2020)
  | .commitQueues p => some (p, 0x2040)
  | .commitEpoch p => some (p, 0x2050)
  | .commitPaging p => some (p, 0x2110)
  | .commitGradientPath p => some (p, 0x2210)
  | .commitFnSlots p => some (p, 0x2310)
  | .commitGather p => some (p, 0x2410)
  | .commitPredictorExact p => some (p, 0x2420)
  | .commitSeed p => some (p, 0x2610)
  | .commitShadow p => some (p, 0x2620)
  | .commitRounding p => some (p, 0x2630)
  | .commitScrub p => some (p, 0x3020)
  | .commitHash p => some (p, 0x3110)
  | .commitPorts p => some (p, 0x4001)
  | .commitRoutes p => some (p, 0x4110)
  | .commitAxes p => some (p, 0x4120)
  | .commitCollective p => some (p, 0x4202)
  | .commitBatch p => some (p, 0x4210)
  | .commitTwin p => some (p, 0x5010)
  | .commitStraggler p => some (p, 0x5020)
  | .commitRestore p => some (p, 0x5030)
  | .commitHostWindow p => some (p, 0x6010)
  | .commitMsix p => some (p, 0x6020)
  | .commitFarIde p => some (p, 0x3210)
  | .commitSecurity p => some (p, 0x7010)
  | .commitLinkPolicy p => some (p, 0x7020)
  | .commitFarTrust p => some (p, 0x7030)
  | .commitTable p => some (p, 0x7110)
  | .commitWatchdog p => some (p, 0x8002)
  | .commitPower p => some (p, 0x8030)
  | .commitThermal p => some (p, 0x8110)
  | .commitMgmt p => some (p, 0x1110)
  | .commitNotify p => some (p, 0x9010)
  | _ => none

/-! ### Resets -/

/-- What the start of a reset of source `n` at level `l` leaves (R444, R445, R446, R450): the device is in reset at that
level, in phase 1 of Dawn; the cause and the count are recorded; no task, no commit and no Dusk or restore is left, and
the scheduler is IDLE. An L0 reset clears memory; an L2 reset leaves memory's bytes and the event log. The generations
programmed into OTP stay. -/
structure Begins (s t : State) (n l : Nat) : Prop where
  inReset : t.rst.inReset = true
  level : t.rst.level = l
  phase : t.obj oDawnPhase = 1
  cause : t.obj oResetCause = n <<< 8 + l
  count : t.obj oResetCount = (s.obj oResetCount + 1) % 2 ^ 32
  idle : t.obj oSchedulerState = 0
  tasks : t.sched.tasks = []
  commits : t.dict.committed = []
  dusk : t.resil.dusk = 0 ∧ t.resil.restore = none
  memory : l = 0 → t.mem = {} ∧ t.dict.log = []
  cells : l = 2 → t.mem.cells = s.mem.cells ∧ t.dict.log = s.dict.log
  fuses : t.sec.fwFloors = s.sec.fwFloors ∧ t.sec.hubFloors = s.sec.hubFloors ∧ t.sec.reachTables = s.sec.reachTables

/-- Does the command assert a source of reset of Table 17.1 in this state, and which? -/
def sourceOf (c : Instr) (s : State) : Option Nat :=
  match c with
  | .powerOnReset false => some 0
  | .perst => some 1
  | .sysRst => some 2
  | .watchdogExpiry => if s.rst.inReset ∧ s.obj oDawnPhase ≤ 5 then none else some 4
  | .thermalTrip temps => if temps.any fun t => decide (115 ≤ t) then some 5 else none
  | _ => none

end Sys2Proof.Safety
end

