-- ==== Sys2Proof/WellFormed.lean ====
section
/-! DEFINITION. Which commands the outside can form: their operands lie in the ranges the manual gives them. `exec`
is total on every command, so nothing rests on this beyond a statement's own hypotheses (log entry 57). -/

namespace Sys2Proof

/-- A management port is M0 or M1, a control core one of K0–K15 (Table 16.6). -/
def Path.wellFormed : Path → Bool
  | .host _ => true
  | .mgmt port _ => decide (port < 2)
  | .core unit => decide (unit < 16)

/-- BAR0 has 128 MiB (Table 15.2); an object's index has 16 bits and its sub-index 8. -/
def DictWrite.wellFormed : DictWrite → Bool
  | .bar0 _ offset bytes => decide (0 < bytes.length) && decide (offset + bytes.length ≤ 2 ^ 27)
  | .core unit index sub bytes =>
    decide (unit < 16) && decide (index < 2 ^ 16) && decide (sub < 2 ^ 8) && decide (0 < bytes.length)

/-- How many engines a class has (Table 2.4). -/
def EngineClass.units : EngineClass → Nat
  | .matrix | .vector => 2048
  | .gather => 64
  | .collective => 4
  | .update => 20
  | .allocator | .paging => 1

/-- 88 sensors (R462), and readings that fit their objects. -/
def TickEnv.wellFormed (e : TickEnv) : Bool :=
  e.temps.length == 88 && decide (e.powerW < 2 ^ 32) && decide (e.currentA < 2 ^ 32) && decide (e.vcoreMv < 2 ^ 16)

/-- A stack holds 65,536 frames of 32,768 atoms. -/
def EccReport.wellFormed (r : EccReport) : Bool :=
  decide (r.kind < 3) && decide (r.frame < 65536) && decide (r.atom < 32768) && decide (r.way < 16) && decide (r.tile < 2048) &&
    decide (r.word < 32) && (r.consumer.all fun k => decide (k < 1048576))

/-- A frame comes in on M0 or M1 and holds at least its two addresses and its EtherType. -/
def FelbyFrame.wellFormed (f : FelbyFrame) : Bool := decide (f.port < 2) && decide (14 ≤ f.bytes.length)

/-- A nonce has 32 bytes; a certificate slot is a nibble. -/
def SpdmReq.wellFormed : SpdmReq → Bool
  | .challenge slot nonce => decide (slot < 16) && nonce.length == 32
  | .getMeasurements index _ slot nonce => decide (index < 256) && decide (slot < 16) && nonce.length == 32
  | .getCertificate slot _ _ => decide (slot < 16)
  | .keyExchange slot _ => decide (slot < 16)
  | .getVersion | .getCapabilities | .negotiateAlgorithms | .getDigests | .finish _ _ | .heartbeat _ | .keyUpdate _
  | .endSession _ | .ideKm _ _ | .other _ => true

/-- A flit has 272 bytes (Table 11.2). -/
def RxFlit.wellFormed (f : RxFlit) : Bool := f.bytes.length == 272

/-- A rank has 16 bits, a serial 64, and a peer 32 ports. -/
def AttachInfo.wellFormed (i : AttachInfo) : Bool :=
  decide (i.rank < 2 ^ 16) && decide (i.serial < 2 ^ 64) && decide (i.port < 32)

/-- An expander's serial has 64 bits. -/
def FarFound.wellFormed (f : FarFound) : Bool := decide (f.serial < 2 ^ 64)

/-- Four far ports, and 2,048 tiles. -/
def DawnEnv.wellFormed (e : DawnEnv) : Bool :=
  e.far.length == 4 && e.far.all (·.all (·.wellFormed)) && e.failedTiles.all fun t => decide (t < 2048)

/-- A program has at most 1,048,576 records (Table 2.1). -/
def recordOk (r : Nat) : Bool := decide (r < 2 ^ 20)

/-- Fabric ports P0–P31. -/
def fabricOk (p : Nat) : Bool := decide (p < 32)

/-- Where a delivered message waits: its ingress port, or 32 for a message of the device to itself (R301). -/
def arrivalOk (p : Nat) : Bool := decide (p ≤ 32)

/-- Far ports F0–F3. -/
def farOk (h : Nat) : Bool := decide (h < 4)

/-- A command that the outside can form. -/
def Instr.wellFormed (c : Instr) : Bool :=
  match c with
  | .tickBoundary env => env.wellFormed
  | .releasePoint | .periodSwitch | .epochSwitch | .routeSwitch | .batchSwitch | .stepTickLimit
  | .allocatorQueueService | .accessCountHalving | .hostUnsupportedRequest | .hotReset | .duskIdle
  | .duskPortStop | .restoreComplete | .tableClearDone | .heartbeatSend | .twinLost | .perst | .sysRst
  | .watchdogExpiry | .rsaKeyReady => true
  | .taskStart cls unit phase => decide (unit < cls.units) && phase < 2 ^ 16
  | .taskCompletion r _ => recordOk r
  | .join r | .matrixProduct r | .matrixAccumulate r | .matrixPaired r | .gradientPair r | .tiedGroup r
  | .convert r | .axpby r | .mul r | .fma r | .clamp r | .func r | .funcGrad r | .amax r | .quantise r
  | .softmax r | .softmaxGrad r | .norm r | .normGrad r | .rowDot r | .colsum r | .topk r | .coupledFuncGrad r
  | .coupledSoftmaxGrad r | .coupledNormGrad r | .gatherRows r | .combine r | .route r | .pack r | .expandRle r
  | .compressRle r | .expand2of4 r | .compress2of4 r | .neuronPack r | .predictorCheck r | .scatterRows r
  | .scatterAdd r | .hashMerge r | .allReduce r | .reduceScatter r | .allGather r | .allToAll r | .allToAllv r
  | .allToAllvReverse r | .broadcast r | .permute r | .barrier r | .updateMomentumSgd r | .updateAdamw r
  | .updateFactored r | .updateSignMomentum r | .updateLazy r | .snapshot r | .midnightWrite r
  | .midnightClose r | .alloc r | .free r | .create r | .promote r | .demote r | .populate r | .discard r
  | .setPolicy r | .hostReadTimeout r | .barrierRelease r | .contributionDeadline r => recordOk r
  | .migrationStart page | .migrationCopyDone page | .autoPromote page => decide (page < 2 ^ 27)
  | .scrubPass stack reports => decide (stack < 20) && reports.all (·.wellFormed)
  | .hostBar2Read _ offset len => decide (0 < len) && decide (offset + len < 2 ^ 64)
  | .hostBar2Write _ offset bytes => decide (0 < bytes.length) && decide (offset + bytes.length < 2 ^ 64)
  | .objectWrite w => w.wellFormed
  | .windowRead _ | .windowWriteSegment _ | .windowWriteLast _ => true
  | .descriptorCreate p value | .allocRequest p value | .pageQuery p value | .stickyClear p value
  | .rollbackRaise p value | .tableUnlock p value | .resetRequest p value | .tileReset p value
  | .portReset p value | .reachProgram p value => p.wellFormed && decide (value < 2 ^ 64)
  | .firmwarePush p _ => p.wellFormed
  | .duskTick p | .duskStep p | .duskSnapshot p | .commitTick p | .commitProgram p | .commitQueues p
  | .commitEpoch p | .commitPaging p | .commitGradientPath p | .commitFnSlots p | .commitGather p
  | .commitPredictorExact p | .commitSeed p | .commitShadow p | .commitRounding p | .commitScrub p
  | .commitHash p | .commitPorts p | .commitRoutes p | .commitAxes p | .commitCollective p | .commitBatch p
  | .commitTwin p | .commitStraggler p | .commitRestore p | .commitHostWindow p | .commitMsix p
  | .commitFarIde p | .commitSecurity p | .commitLinkPolicy p | .commitFarTrust p | .commitTable p
  | .commitWatchdog p | .commitPower p | .commitThermal p | .commitMgmt p | .commitNotify p => p.wellFormed
  | .commitDiscard p group => p.wellFormed && decide (group < 2 ^ 16)
  | .felbyRead f | .felbyWrite f | .felbyDescribe f | .felbyUnknownType f | .eventAck f | .felbyFrameDiscard f =>
    f.wellFormed
  | .felbySpdm f req => f.wellFormed && req.wellFormed
  | .eventSend _ | .eventRetry _ => true
  | .doeRequest req => req.wellFormed
  | .dataFlitReceive port flit | .idleFlitReceive port flit | .nakReceive port flit
  | .timestampReceive port flit | .abortReceive port flit | .keyUpdateReceive port flit =>
    fabricOk port && flit.wellFormed
  | .attachReceive port flit info => fabricOk port && flit.wellFormed && info.wellFormed
  | .timestampSend port phase => fabricOk port && decide (phase < 2 ^ 16)
  | .keyUpdateSend port slot => fabricOk port && decide (slot < 2 ^ 64)
  | .messageForward port vc => fabricOk port && decide (vc < 4)
  | .ready port vc | .reduce port vc | .place port vc | .counts port vc
  | .barrierUp port vc | .barrierDown port vc | .heartbeat port vc | .snapData port vc | .snapHeader port vc
  | .fetch port vc | .fetchData port vc | .dusk port vc | .twinResetRequest port vc =>
    arrivalOk port && decide (vc < 4)
  | .retrainInterval port | .trainingTimeout port | .laneSignalLoss port | .noFlitTimeout port => fabricOk port
  | .farRequestTimeout port => farOk port
  | .managementPortDown port | .managementPortUp port => decide (port < 2)
  | .trainingComplete port rates => fabricOk port && decide (rates < 2 ^ 8)
  | .attachComplete port e => fabricOk port && decide (e.certSerial < 2 ^ 64)
  | .farLinkLoss port cause => farOk port && decide (cause < 2 ^ 8)
  | .farRetrain port found => farOk port && found.all (·.wellFormed)
  | .refclkLoss _ => true
  | .powerOnReset _ => true
  | .thermalTrip temps | .thermalTripRelease temps => temps.length == 88
  | .vcoreOvercurrent current => decide (current < 2 ^ 32)
  | .dawnPhaseDone env => env.wellFormed
  | .resetRelease source => decide (source < 9)
  | .hostLinkUp speed width => decide (1 ≤ speed ∧ speed ≤ 4) && (width == 4 || width == 8 || width == 16)
  | .hostLinkDown cause => decide (cause < 2 ^ 8)

end Sys2Proof
end

