-- ==== Sys2Proof/Certificates/Slice0/Obligations.lean ====
section
/-! DEFINITION. What is claimed of the model. A statement that the manual does not state in so many words says so in its
docstring. -/

section

open Sys2Proof Sys2Proof.Machine Sys2Proof.Safety

/-! ### The queue, the step and what every step keeps -/

/-- A step runs the command at the front of the queue, with the queue's rest. With no command waiting the block idles: a
step changes nothing, which is the model's choice (log entry 2). -/
def Obligations.StepRunsFront : Prop :=
  (∀ (c : Instr) (rest : List Instr) (s : State), s.pending = c :: rest → step s = exec c (s.withPending rest)) ∧
  ∀ s : State, s.pending = [] → step s = .next s

/-- After reset every object has its default, as its active and as its pending value (R15, R379). The values are those of
the object tables, as for the tick period 2^12 ACLK (R35), the counter 0, the scheduler IDLE, the ports, heartbeats and
limits named here. Nothing is admitted, committed, logged, pending or sent. That every byte of memory reads 0 is the
model's choice (log entry 3), and that Dawn has ended is how it takes the state after reset (log entry 1). -/
def Obligations.ResetLeavesDefaults : Prop :=
  (∀ k, State.reset.obj k = objDefault k ∧ State.reset.pendObj k = objDefault k) ∧
  State.reset.obj oTickPeriodLog2 = 12 ∧ State.reset.tick = 0 ∧ State.reset.obj oSchedulerState = 0 ∧
  State.reset.obj oMigrationsMax = 16 ∧ State.reset.obj oHeartbeatIntervalTicks = 4 ∧
  State.reset.obj oHeartbeatTimeoutTicks = 256 ∧ State.reset.obj oBarrierMarginTicks = 2 ∧
  State.reset.obj oLinkRekeyFlitsLog2 = 36 ∧ State.reset.obj oNoonCap = 8 ∧ State.reset.obj oDawnPhase = 0xFF ∧
  (∀ p, p < 32 → State.reset.link p = 1) ∧ State.reset.sched.tasks = [] ∧ State.reset.dict.committed = [] ∧
  State.reset.dict.log = [] ∧ State.reset.pending = [] ∧ State.reset.out = [] ∧ State.reset.rst.inReset = false ∧
  ∀ a, memByte State.reset.mem.cells a = 0

/-- The state after reset is within the bounds of `Sound`. -/
def Obligations.ResetIsSound : Prop := Sound State.reset

/-- Every step that goes on keeps the bounds of `Sound`. -/
def Obligations.StepsKeepSound : Prop := ∀ s t : State, Sound s → step s = .next t → Sound t

/-- Every step that goes on takes one command from the queue's front and adds none; only adds to what has been sent and
to the generations programmed into the OTP; and never takes a free value twice. -/
def Obligations.StepsKeepHistory : Prop :=
  ∀ s t : State, step s = .next t →
    t.pending = s.pending.drop 1 ∧ s.out <+: t.out ∧ s.freeCtr ≤ t.freeCtr ∧
    s.sec.fwFloors <+: t.sec.fwFloors ∧ s.sec.hubFloors <+: t.sec.hubFloors ∧ s.sec.reachTables <+: t.sec.reachTables

/-- Every command answers a next state, whatever the state: none is refused and none stops the model, since the manual gives
each of them an effect, undefined results among them (R6). -/
def Obligations.EveryCommandAnswers : Prop := ∀ (c : Instr) (s : State), ∃ t, exec c s = .next t

/-! ### Number formats -/

/-- The codes of the ten floating-point formats and E8M0. A code that is not special has the value of R65, where
`.fin s m x` is (-1)^s × m × 2^x. The special codes are those of Table 3.3, and the NaN written is the canonical one (R66).
An E8M0 code from 0x00 to 0xFE has the value 2^(e - 127), and 0xFF is NaN; so an element of format 0x0E enters (R72). The
code written for the value of a code is that code, NaN apart. -/
def Obligations.NumberCodesAgree : Prop :=
  (∀ (fmt code e fr : Nat) (f : FloatFmt) (s : Bool), floatFmt? fmt = some f →
    s = flag code (f.ebits + f.mbits) → e = field code (f.ebits + f.mbits - 1) f.mbits → fr = code % 2 ^ f.mbits →
    (fmt ∈ [0x00, 0x01, 0x02, 0x03, 0x05, 0x0D] → e = 2 ^ f.ebits - 1 →
      decodeFloat f code = if fr = 0 then .inf s else .nan) ∧
    (fmt = 0x04 → code % 128 = 0x7F → decodeFloat f code = .nan) ∧
    (¬(fmt ∈ [0x00, 0x01, 0x02, 0x03, 0x05, 0x0D] ∧ e = 2 ^ f.ebits - 1) → ¬(fmt = 0x04 ∧ code % 128 = 0x7F) →
      (e ≠ 0 → decodeFloat f code = .fin s (2 ^ f.mbits + fr) ((e : Int) - f.bias - f.mbits)) ∧
      (e = 0 → decodeFloat f code = .fin s fr (1 - (f.bias : Int) - f.mbits)))) ∧
  encodeFloat fmtFp64 .nan = 0x7FF8000000000000 ∧ encodeFloat fmtA40 .nan = 0x7FF8000000 ∧
  encodeFloat fmtFp32 .nan = 0x7FC00000 ∧ encodeFloat fmtBf16 .nan = 0x7FC0 ∧ encodeFloat fmtFp16 .nan = 0x7E00 ∧
  encodeFloat fmtE4M3 .nan = 0x7F ∧ encodeFloat fmtE5M2 .nan = 0x7E ∧
  (∀ (fmt code : Nat) (f : FloatFmt), floatFmt? fmt = some f → code < 2 ^ fmtWidth f → decodeFloat f code ≠ .nan →
    encodeFloat f (decodeFloat f code) = code) ∧
  (∀ code, code < 255 → e8m0Value code = .fin false 1 ((code : Int) - 127)) ∧ e8m0Value 255 = .nan ∧
  ∀ signed code, elemValue 0x0E signed code = e8m0Value code

/-- Rounding of `m × 2^e` to a multiple of `2^q` (R81, R229). It is exact where `q` is not above `e`. Else without a draw
the multiple is a nearest one, and the even one of two; with a draw it is the one below, or, where the sixteen bits below
the rounding point and the draw reach 65,536, the next. -/
def Obligations.RoundingIsNearest : Prop :=
  (∀ (u : Option Nat) (m : Nat) (e q : Int), q ≤ e → roundMult u m e q = m * 2 ^ (e - q).toNat) ∧
  (∀ (m d k : Nat) (e q : Int), e < q → d = 2 ^ (q - e).toNat → k = roundMult none m e q →
    2 * (k * d) ≤ 2 * m + d ∧ 2 * m ≤ 2 * (k * d) + d ∧
    (2 * (k * d) = 2 * m + d ∨ 2 * m = 2 * (k * d) + d → k % 2 = 0)) ∧
  (∀ (u m d : Nat) (e q : Int), e < q → d = 2 ^ (q - e).toNat →
    roundMult (some u) m e q = if 65536 ≤ m % d * 65536 / d + u then m / d + 1 else m / d)

/-! ### Compute commands -/

/-- The work of a compute command changes memory, streams, its task and the counters of the manual, and nothing else:
ports, collectives, security, reset, resilience, the scheduler's counters and credits, staged values, the allocator and
the places of all pages stay as they are. -/
def Obligations.ComputeFrame : Prop := ∀ (c : Instr) (s t : State), Computes c → exec c s = .next t → Works s t

/-- A compute command whose task is due, and none of whose accesses aborts, completes its work: the task has worked. -/
def Obligations.ComputeCompletes : Prop :=
  ∀ (c : Instr) (s u v : State) (t : Machine.Task) (m : M Unit), workOf c s = some (u, t, m) → m.run u = .ok () v →
    ∃ x t', exec c s = .next x ∧ Works s x ∧ x.task? t.record = some t' ∧ t'.work = 1

/-! ### The scheduler -/

/-- A tick boundary outside a reset carries out the actions of Table 2.6 in their order (R48); in a reset no tick passes
(R448). -/
def Obligations.TickBoundaryCompletes : Prop :=
  ∀ (env : TickEnv) (s : State),
    (s.rst.inReset = false → exec (.tickBoundary env) s = .next (s.boundary env)) ∧
    (s.rst.inReset = true → exec (.tickBoundary env) s = .next s)

/-- The tick counter counts: a boundary adds 1 to it, first taking a larger value that the fabric's reference asks for
(R36, R316). It changes no other object but the counts of jumps and of slewed ticks, and the running tick's length is
added to the time of the last boundary. -/
def Obligations.TickCounterCounts : Prop :=
  ∀ s : State, Sound s →
    s.advanceTick.tick = (max s.tick (s.timing.jump.getD 0) + 1) % 2 ^ 64 ∧
    s.advanceTick.sched.boundaryAclk = s.sched.boundaryAclk + s.sched.tickLength ∧
    ∀ k, k ≠ oTickCounter → k ≠ oTickJumps → k ≠ oTimeSlewTicks → s.advanceTick.obj k = s.obj k

/-- The four switches put the values in force that were committed for them: the period that waits (R38), the placement
epoch (R61), rank, rank count and route table (R307), and the batch program (R343). Every other object of the first two
stays as it is. -/
def Obligations.SwitchesTakeEffect : Prop :=
  (∀ (s : State) (n : Nat), Sound s → s.sched.periodNext = some n → s.obj oPeriodSwitchTick ≤ s.tick + 1 →
    ∃ t, exec .periodSwitch s = .next t ∧ t.obj oTickPeriodLog2 = n ∧ t.sched.periodNext = none ∧
      ∀ k, k ≠ oTickPeriodLog2 → t.obj k = s.obj k) ∧
  (∀ (s : State) (c : CommitSet) (v : Nat), Sound s → c.group = 0x2050 → (c.vals.map (·.1)).Nodup →
    (s.dict.committed.filter fun d => d.dueFor 0x2050 (s.tick + 1)) = [c] → mapFind c.vals oPlacementEpoch = some v →
    ∃ t, exec .epochSwitch s = .next t ∧ t.obj oPlacementEpoch = v ∧
      t.dict.committed = (s.dict.committed.filter fun d => !d.dueFor 0x2050 (s.tick + 1)) ∧
      ∀ k, k ∉ c.vals.map (·.1) → t.obj k = s.obj k) ∧
  (∀ (s : State) (c : CommitSet) (rank count table : Nat), Sound s → c.group = 0x4110 → (c.vals.map (·.1)).Nodup →
    (s.dict.committed.filter fun d => d.dueFor 0x4110 (s.tick + 1)) = [c] → mapFind c.vals oRankNext = some rank →
    mapFind c.vals oRankCountNext = some count → mapFind c.vals oRouteTableNext = some table →
    ∃ t, exec .routeSwitch s = .next t ∧ t.obj oLogicalRank = rank ∧ t.obj oRankCount = count ∧
      t.obj oRouteTableActive = table ∧
      t.dict.committed = s.dict.committed.filter fun d => !d.dueFor 0x4110 (s.tick + 1)) ∧
  (∀ (s : State) (c : CommitSet) (v : Nat), Sound s → c.group = 0x4210 → (c.vals.map (·.1)).Nodup →
    s.stepDone = true → s.sched.halt = none →
    (s.dict.committed.filter fun d => d.group == 0x4210 && d.dueStep (s.obj oStepCounter + 1)) = [c] →
    mapFind c.vals oBatchSelect = some v →
    ∃ t, exec .batchSwitch s = .next t ∧ t.obj oBatchSelect = v ∧
      t.dict.committed = s.dict.committed.filter fun d => !(d.group == 0x4210 && d.dueStep (s.obj oStepCounter + 1)))

/-- A step that has run for `step_tick_limit` ticks without its boundary raises TASK_FAULT of cause 0x08 for record
0xFFFFFFFF, and the halt with that record takes effect at the next boundary (R47, R56). -/
def Obligations.StepTickLimitHalts : Prop :=
  ∀ s : State, Sound s → s.obj oStepTickLimit ≠ 0 → s.running = true → s.sched.halt = none →
    s.obj oStepBaseTick + s.obj oStepTickLimit ≤ s.tick →
    ∃ t, exec .stepTickLimit s = .next t ∧ t.sched.halt = some (0x0102, 0xFFFFFFFF) ∧
      t.dict.log.getLast? = some ⟨s.obj oEventSeqNext, s.tick, 0x0102, 0, 0, 0xFFFFFFFF, 0x08, 0, 0, 0⟩ ∧
      t.takeHalt.obj oSchedulerState = 2 ∧ t.takeHalt.obj oHaltRecord = 0xFFFFFFFF ∧
      t.takeHalt.obj oHaltCause = 0x0102 ∧ t.sched.tasks = s.sched.tasks ∧ t.mem = s.mem

/-- A free engine starts the first of its waiting tasks (R50): it no longer waits and runs the task from this time of the
tick, while every other task stays as it is, but for what engines have read ahead (R136), for the task that the engine has
left, and for a collective whose tag the task takes too, which has undefined results (R325). A task of a pair starts on both arrays, when both have it first (R109). An update task that its skew check
refuses has status 0x2 from its start, and the scheduler halts (R218). -/
def Obligations.TaskStartsOnEngine : Prop :=
  ∀ (cls : EngineClass) (unit phase : Nat) (s : State) (t : Machine.Task), s.rst.meshStuck = false →
    s.nextOn cls unit phase = some t → s.holder? t.record = some t →
    (pairTask t.image = false →
      ∃ u, exec (.taskStart cls unit phase) s = .next u ∧
        ((∃ t', u.task? t.record = some t' ∧ unit ∉ t'.waiting ∧ t'.image = t.image ∧
            mapFind t'.running unit = some (s.sched.boundaryAclk + phase)) ∨
          (recKind t.image = 6 ∧ u.task? t.record = none ∧ u.outcome t.record = 2 ∧
            u.sched.halt.isSome = true)) ∧
        ∀ r, r ≠ t.record → (u.task? r).map Safety.Task.settledPart = (s.task? r).map Safety.Task.settledPart) ∧
    (∀ v, pairTask t.image = true → s.nextOn cls (mateOf unit) phase = some v → v.record = t.record →
      ∃ u t', exec (.taskStart cls unit phase) s = .next u ∧ u.task? t.record = some t' ∧ unit ∉ t'.waiting ∧
        mateOf unit ∉ t'.waiting ∧ t'.image = t.image ∧
        mapFind t'.running unit = some (s.sched.boundaryAclk + phase) ∧
        mapFind t'.running (mateOf unit) = some (s.sched.boundaryAclk + phase) ∧
        ∀ r, r ≠ t.record → (u.task? r).map Safety.Task.settledPart = (s.task? r).map Safety.Task.settledPart)

/-- A task whose work has ended completes (R44, R50): it leaves the tasks, and each of its records has its outcome:
faulted, stale under another placement epoch, or complete. An admitted join completes in the same way (R42). -/
def Obligations.TaskCompletionRecordsOutcome : Prop :=
  (∀ (r : Nat) (q : TaskTiming) (s v : State) (t : Machine.Task), Sound s → s.task? r = some t → recKind t.image ≠ 0 →
    t.started = true → t.work ≠ 0 → t.stuck = false → (t.record :: t.members.map (·.1)).Nodup → s.settled r = true →
    s.partnersDone t = true → (finishTask t).run s = .ok () v →
    ∃ u, exec (.taskCompletion r q) s = .next u ∧ u.task? r = none ∧
      ∀ p ∈ (t.record, t.image) :: t.members,
        u.outcome p.1 = if t.work = 2 then 2 else if recEpoch p.2 ≠ s.obj oPlacementEpoch then 3 else 1) ∧
  (∀ (r : Nat) (s : State) (t : Machine.Task), Sound s → s.task? r = some t → recKind t.image = 0 → t.work = 1 →
    t.members = [] →
    ∃ u, exec (.join r) s = .next u ∧ u.task? r = none ∧
      u.outcome r = if recEpoch t.image ≠ s.obj oPlacementEpoch then 3 else 1)

/-- At the release point every transmission phase that is ready may begin (R51); nothing else changes. -/
def Obligations.ReleasePointReleases : Prop :=
  ∀ s : State, ∃ t, exec .releasePoint s = .next t ∧ (∀ c ∈ t.colls.tasks, c.released = true) ∧
    t.colls.tasks.map (fun c => { c with released := false }) = s.colls.tasks.map (fun c => { c with released := false }) ∧
    t = { s with colls := { s.colls with tasks := t.colls.tasks } }

/-! ### Staged groups -/

/-- A commit that is not refused is accepted (R379–R383): `commit_result` says so, the pending values stay, and the set
waits for its effect point, in place of an earlier commit of its group; no active value of another group changes. Groups
0x5030 and 0x7110 take effect at once: the restore of R369 starts, and the tables of R437 are being loaded. -/
def Obligations.CommitsAreAccepted : Prop :=
  ∀ (c : Instr) (p : Path) (g : Nat) (s : State), Sound s → commitOf c = some (p, g) → MayWrite s p g 0xFF →
    s.commitRefused g (s.pendingSet g) = false →
    ∃ t, exec c s = .next t ∧ t.obj oCommitResult = g <<< 16 ∧ t.dict.pend = s.dict.pend ∧
      (g ≠ 0x5030 → g ≠ 0x7110 →
        t.dict.committed = s.dict.committed.filter (·.group != g) ++
          [⟨g, s.pendingSet g, s.effectPoint g (s.pendingSet g)⟩] ∧
        ∀ k, k ≠ oCommitResult → k ≠ oEventStalled → k ≠ oLateBytesDropped → t.obj k = (writeBy p 1 s).obj k) ∧
      (g = 0x5030 → ∃ r, t.resil.restore = some r ∧ r.got = [] ∧ r.source = s.pendObj oRestoreSource) ∧
      (g = 0x7110 → t.obj oTableState = 1 ∧ t.sec.clearing = true ∧ t.obj oTableImage = s.pendObj oTableImage)

/-- A commit that is refused changes `commit_result` and, for the tables of R437, the code of the refusal, and no other
object; committed sets, pending values, memory and ports stay as they are (R381, R383). -/
def Obligations.CommitsAreRefused : Prop :=
  ∀ (c : Instr) (p : Path) (g : Nat) (s : State), Sound s → commitOf c = some (p, g) → MayWrite s p g 0xFF →
    s.commitRefused g (s.pendingSet g) = true →
    ∃ t, exec c s = .next t ∧ t.obj oCommitResult = g <<< 16 + 1 ∧
      (∀ k, k ≠ oCommitResult → k ≠ oTableRefuseCode → t.obj k = (writeBy p 1 s).obj k) ∧
      t.dict.pend = s.dict.pend ∧ t.dict.committed = s.dict.committed ∧ t.mem = s.mem ∧ t.ports = s.ports ∧
      t.sched = s.sched ∧ t.resil = s.resil ∧ t.sec = s.sec

/-! ### Objects with a behaviour of their own -/

/-- The requests written to objects. A descriptor creation and an allocator request join the allocator queue, or are
counted as ignored while one of their kind waits (R144, R271); a page query answers with the page's entry (R275); a
clearing of sticky flags waits for the boundary (R85). -/
def Obligations.RequestsAreTaken : Prop :=
  ∀ (p : Path) (v : Nat) (s : State), Sound s →
    (MayWrite s p 0x2180 1 → (∀ d, AllocReq.creation d ∉ s.mem.queue) →
      ∃ t, exec (.descriptorCreate p v) s = .next t ∧ t.mem.queue = s.mem.queue ++ [.creation (v % 2 ^ 64)] ∧
        t.obj oDescriptorResult = 0xFF ∧ ∀ k, k ≠ oDescriptorResult → t.obj k = (writeBy p 8 s).obj k) ∧
    (MayWrite s p 0x2180 1 → (∃ d, AllocReq.creation d ∈ s.mem.queue) →
      ∃ t, exec (.descriptorCreate p v) s = .next t ∧ t.mem = s.mem ∧
        t.obj oDescriptorRequestsIgnored = (s.obj oDescriptorRequestsIgnored + 1) % 2 ^ 64 ∧
        ∀ k, k ≠ oDescriptorRequestsIgnored → t.obj k = (writeBy p 8 s).obj k) ∧
    (MayWrite s p 0x2101 1 → (∀ d, AllocReq.request d ∉ s.mem.queue) →
      ∃ t, exec (.allocRequest p v) s = .next t ∧ t.mem.queue = s.mem.queue ++ [.request (v % 2 ^ 128)] ∧
        field (t.obj oAllocResult) 47 32 = 0xFFFF ∧ ∀ k, k ≠ oAllocResult → t.obj k = (writeBy p 16 s).obj k) ∧
    (MayWrite s p 0x2101 1 → (∃ d, AllocReq.request d ∈ s.mem.queue) →
      ∃ t, exec (.allocRequest p v) s = .next t ∧ t.mem = s.mem ∧
        t.obj oAllocRequestsIgnored = (s.obj oAllocRequestsIgnored + 1) % 2 ^ 64 ∧
        ∀ k, k ≠ oAllocRequestsIgnored → t.obj k = (writeBy p 16 s).obj k) ∧
    (MayWrite s p 0x2102 1 →
      ∃ t, exec (.pageQuery p v) s = .next t ∧ t.obj oPageEntry = s.entry (v % 2 ^ 48 / 2 ^ 21) ∧ t.mem = s.mem ∧
        ∀ k, k ≠ oPageEntry → t.obj k = (writeBy p 8 s).obj k) ∧
    (MayWrite s p 0x2601 2 →
      ∃ t, exec (.stickyClear p v) s = .next t ∧
        t = { writeBy p 1 s with num := { s.num with stickyClear := s.num.stickyClear ++ [v % 16] } })

/-- Programming what cannot be undone. ROLLBACK_RAISE programs the running version as the next generation of its kind's
floor (R424), and REACH_PROGRAM the reach table with one level changed (R443); both add one generation, the fourth is
refused, and a refused write changes nothing. TABLE_UNLOCK ends a job at the next boundary, outside a running step
(R438). -/
def Obligations.ProgrammingAddsOneGeneration : Prop :=
  ∀ (p : Path) (v : Nat) (s : State), Sound s →
    (MayWrite s p 0x7000 3 → v % 256 = 1 → s.floorOf 1 < s.obj oFirmwareVersion % 65536 → s.sec.fwFloors.length < 3 →
      ∃ t, exec (.rollbackRaise p v) s = .next t ∧ t.sec.fwFloors = s.sec.fwFloors ++ [s.obj oFirmwareVersion % 65536] ∧
        t.obj oRollbackFloorFw = s.obj oFirmwareVersion % 65536 ∧ t.sec.hubFloors = s.sec.hubFloors) ∧
    (MayWrite s p 0x7000 3 → v % 256 = 2 → s.floorOf 2 < s.sec.hubVersion → s.sec.hubFloors.length < 3 →
      ∃ t, exec (.rollbackRaise p v) s = .next t ∧ t.sec.hubFloors = s.sec.hubFloors ++ [s.sec.hubVersion] ∧
        t.obj oRollbackFloorHub = s.sec.hubVersion ∧ t.sec.fwFloors = s.sec.fwFloors) ∧
    (MayWrite s p 0x7000 3 → (v % 256 ≠ 1 ∨ s.obj oFirmwareVersion % 65536 ≤ s.floorOf 1 ∨ 3 ≤ s.sec.fwFloors.length) →
      (v % 256 ≠ 2 ∨ s.sec.hubVersion ≤ s.floorOf 2 ∨ 3 ≤ s.sec.hubFloors.length) →
      exec (.rollbackRaise p v) s = .next (writeBy p 1 s)) ∧
    (MayWrite s p 0x8010 1 → reachAllowed (field v 11 8) (field v 1 0) = true → s.sec.reachTables.length < 3 →
      s.running = false →
      ∃ t g, exec (.reachProgram p v) s = .next t ∧ t.sec.reachTables = s.sec.reachTables ++ [g] ∧
        g / 4 ^ field v 11 8 % 4 = field v 1 0 ∧
        (∀ n, n ≠ field v 11 8 → g / 4 ^ n % 4 = s.obj oReachTable / 4 ^ n % 4) ∧
        t = { writeBy p 2 s with sec := t.sec }) ∧
    (MayWrite s p 0x8010 1 → (reachAllowed (field v 11 8) (field v 1 0) = false ∨ 3 ≤ s.sec.reachTables.length ∨
      s.running = true) → exec (.reachProgram p v) s = .next (writeBy p 2 s)) ∧
    (MayWrite s p 0x7100 2 → v % 256 ≠ 0 → s.obj oTableState = 2 → s.running = false →
      ∃ t, exec (.tableUnlock p v) s = .next t ∧ t = { writeBy p 1 s with sec := { s.sec with unlock := true } } ∧
        t.tableBoundary.obj oTableState = 0) ∧
    (MayWrite s p 0x7100 2 → (v % 256 = 0 ∨ s.obj oTableState ≠ 2 ∨ s.running = true) →
      exec (.tableUnlock p v) s = .next (writeBy p 1 s))

/-- A write of 1, 2 or 3 to `dusk_request` starts Dusk at its first, second or third stage, once (R371). -/
def Obligations.DuskStartsOnce : Prop :=
  ∀ (p : Path) (s : State), Sound s → MayWrite s p 0x5040 1 →
    (s.resil.dusk = 0 →
      exec (.duskTick p) s = .next { writeBy p 1 s with resil := { s.resil with dusk := 1 } } ∧
      exec (.duskStep p) s = .next { writeBy p 1 s with resil := { s.resil with dusk := 2 } } ∧
      exec (.duskSnapshot p) s = .next { writeBy p 1 s with resil := { s.resil with dusk := 3 } }) ∧
    (s.resil.dusk ≠ 0 → exec (.duskTick p) s = .next (writeBy p 1 s) ∧
      exec (.duskStep p) s = .next (writeBy p 1 s) ∧ exec (.duskSnapshot p) s = .next (writeBy p 1 s))

/-- A control core's write of a staged object's whole value makes it the pending value, and changes nothing else (R376,
R379), but for the bits that its object's layout reserves, which read as zero (R14). A write of an object that only reads
changes nothing. -/
def Obligations.CoreWriteSetsObject : Prop :=
  ∀ (u index sub : Nat) (bytes : List Byte) (d : ObjDef) (s : State), Sound s → MayWrite s (.core u) index sub →
    objDef? index sub = some d → sub ≠ 0xFF → bytes.length = d.size → (d.ty = .bool → ofLe bytes ≤ 1) →
    (d.access = .const ∨ d.access = .ro → exec (.objectWrite (.core u index sub bytes)) s = .next s) ∧
    (d.access = .staged → ∃ t, exec (.objectWrite (.core u index sub bytes)) s = .next t ∧
      t.pendObj (objKey index sub) = dropReserved (objKey index sub) (ofLe bytes) ∧ (∀ k, k ≠ objKey index sub → t.pendObj k = s.pendObj k) ∧
      t = { s with dict := { s.dict with pend := t.dict.pend } })

/-- A commit of 0 takes a group's waiting commit away and gives its pending values those in force (R380): active values
other than `commit_result` stay. -/
def Obligations.DiscardWithdrawsCommit : Prop :=
  ∀ (c : Instr) (p : Path) (g : Nat) (s : State), Sound s → commitOf c = some (p, g) → MayWrite s p g 0xFF →
    ∃ t, exec (.commitDiscard p g) s = .next t ∧ t.obj oCommitResult = g <<< 16 + 2 ∧
      t.dict.committed = s.dict.committed.filter (·.group != g) ∧
      (∀ k, k ∈ groupMembers g → k ≠ oStreamCounters → t.pendObj k = s.obj k) ∧
      (∀ k, k ∉ groupMembers g → t.pendObj k = s.pendObj k) ∧
      (∀ k, k ≠ oCommitResult → t.obj k = (writeBy p 1 s).obj k) ∧
      t.mem = s.mem ∧ t.ports = s.ports

/-! ### Resets, Dawn, power and clocks -/

/-- A source of reset starts a reset at the level its reach gives it (R442, R444, R445), unless a reset as wide is under
way already: then nothing but the sources that hold the device in reset changes. -/
def Obligations.SourceStartsReset : Prop :=
  ∀ (c : Instr) (s : State) (n : Nat), Sound s → sourceOf c s = some n →
    (¬(s.rst.inReset = true ∧ s.rst.level ≤ s.reachOf n) → ∃ t, exec c s = .next t ∧ Begins s t n (s.reachOf n)) ∧
    (s.rst.inReset = true ∧ s.rst.level ≤ s.reachOf n →
      ∃ t, exec c s = .next t ∧ t = { s with rst := t.rst } ∧ t.rst.inReset = true ∧ t.rst.level = s.rst.level)

/-- The other ways into a reset: power removed, an L0 reset whatever goes on (R441), which also clears the cause (R445);
0x5A written to `reset_request`
(R442); and a twin's request, where it is enabled (R354). -/
def Obligations.RequestStartsReset : Prop :=
  ∀ s : State, Sound s →
    (∃ t, exec (.powerOnReset true) s = .next t ∧ t.rst.inReset = true ∧ t.rst.level = 0 ∧ t.rst.thermTrip = false ∧
      0 ∈ t.rst.holding ∧ t.obj oResetCause = 0 ∧ t.obj oResetCount = 1 ∧ t.obj oDawnPhase = 1 ∧ t.mem.cells = [] ∧
      t.dict.log = []) ∧
    (∀ (p : Path) (v : Nat), MayWrite s p 0x8000 1 → s.rst.inReset = false →
      (v % 256 = 0x5A → ∃ t, exec (.resetRequest p v) s = .next t ∧ Begins s t 3 (s.reachOf 3)) ∧
      (v % 256 ≠ 0x5A → exec (.resetRequest p v) s = .next (writeBy p 1 s))) ∧
    (∀ (port vc : Nat) (m : Msg), s.frontMsg port vc = some m → hdrKind m.header = 0x16 → s.twinned = true →
      hdrSource m.header = s.obj oTwinRank → s.obj oTwinResetEnable = 1 → s.rst.inReset = false →
      ∃ t, exec (.twinResetRequest port vc) s = .next t ∧ Begins (s.dropFront port m) t 6 (s.reachOf 6))

/-- The end of a source's condition: the three pins and power stop holding the device (R444), and THERM_TRIP_N is
released once every sensor reads below 100 °C (R463). -/
def Obligations.ReleaseEndsHolding : Prop :=
  ∀ s : State,
    (∀ n, n < 3 → ∃ t, exec (.resetRelease n) s = .next t ∧ n ∉ t.rst.holding ∧
      (∀ m, m ≠ n → (m ∈ t.rst.holding ↔ m ∈ s.rst.holding)) ∧ t = { s with rst := { s.rst with holding := t.rst.holding } }) ∧
    (∀ temps : List Int, s.rst.thermTrip = true → (∀ x ∈ temps, x < 100) →
      ∃ t, exec (.thermalTripRelease temps) s = .next t ∧ t.rst.thermTrip = false ∧ 5 ∉ t.rst.holding) ∧
    (∀ temps : List Int, (∃ x ∈ temps, 100 ≤ x) → exec (.thermalTripRelease temps) s = .next s)

/-- Dawn runs its phases in order (R450, R451, R455): a phase ends only when nothing holds the device in reset. Phase 1
takes the floors and the reach table from OTP, phase 5 waits while a kind of image is missing, and phase 7 ends the
reset: with 0xFF where every tile passes, else at phase 7 with the count of failing tiles, the first of them and
TASK_FAULT of cause 0x0A. An L2 reset skips phases 4 and 6. -/
def Obligations.DawnRunsItsPhases : Prop :=
  ∀ (env : DawnEnv) (s : State), Sound s → s.rst.inReset = true → s.rst.holding = [] → s.waitsImage = false →
    (∀ k, s.obj oDawnPhase = k → k ≠ 5 → k ≠ 7 →
      ∃ t, exec (.dawnPhaseDone env) s = .next t ∧ (k ≠ 6 → t.rst.inReset = true) ∧
        t.obj oDawnPhase = (if s.rst.level = 2 ∧ k = 3 then 5 else k + 1) ∧
        (k = 1 → t.obj oReachTable = s.reachOtp ∧ t.obj oRollbackFloorFw = s.floorOf 1 ∧
          t.obj oRollbackFloorHub = s.floorOf 2)) ∧
    (s.obj oDawnPhase = 5 →
      ∃ t, exec (.dawnPhaseDone env) s = .next t ∧ t.rst.inReset = true ∧
        t.obj oDawnPhase = if t.waitsImage then 5 else if s.rst.level = 2 then 7 else 6) ∧
    (s.obj oDawnPhase = 7 → (∀ x ∈ env.failedTiles, 2048 ≤ x) →
      ∃ t, exec (.dawnPhaseDone env) s = .next t ∧ t.rst.inReset = false ∧ t.obj oDawnPhase = 0xFF ∧
        t.obj oSelftestFailedTiles = 0 ∧ t.obj oSelftestFirstTile = 0xFFFF) ∧
    (∀ n, s.obj oDawnPhase = 7 → n < 2048 → n ∈ env.failedTiles → (∀ x ∈ env.failedTiles, n ≤ x) →
      ∃ t, exec (.dawnPhaseDone env) s = .next t ∧ t.rst.inReset = false ∧ t.obj oDawnPhase = 7 ∧
        t.obj oSelftestFirstTile = n ∧
        t.dict.log.getLast? = some ⟨s.obj oEventSeqNext, s.tick, 0x0102, 0x01, n, 0xFFFFFFFF, 0x0A, n, 0, 0⟩)

/-- A reset of one block (R449). A tile's translation cache, sticky flags and array level go, and the tasks on it never
finish, with undefined results; a port goes DOWN with cause 5, or DISABLED, and LINK_DOWN is raised. Where no transfer of
the block can be part-way across the mesh, the mesh goes on; where one can, whether it does is free (log entry 110). A
number that is no block's has no effect. -/
def Obligations.BlockResets : Prop :=
  ∀ (p : Path) (v n : Nat) (s : State), Sound s →
    (MayWrite s p 0x8001 1 → n = v % 2 ^ 16 → n < 2048 →
      ∃ t, exec (.tileReset p v) s = .next t ∧ t.obj oResetCause = 0x0703 ∧
        t.obj oResetCount = (s.obj oResetCount + 1) % 2 ^ 32 ∧ t.num.arrays = mapErase s.num.arrays n ∧
        t.num.sticky = mapErase s.num.sticky n ∧ t.mem.tcaches = mapErase s.mem.tcaches n ∧
        (∀ x ∈ s.sched.tasks, (recKind x.image = 1 ∨ recKind x.image = 2) → x.runs n = true →
          ∃ y ∈ t.sched.tasks, y.record = x.record ∧ y.stuck = true ∧ y.undef = true) ∧
        ((∀ x ∈ s.sched.tasks, x.onTile n = false) → t.rst.meshStuck = s.rst.meshStuck ∧ t.sched = s.sched)) ∧
    (MayWrite s p 0x8001 1 → 2048 ≤ v % 2 ^ 16 → exec (.tileReset p v) s = .next (writeBy p 2 s)) ∧
    (MayWrite s p 0x8001 2 → n = v % 256 → n < 32 → s.link n = 4 →
      ∃ t, exec (.portReset p v) s = .next t ∧ t.obj oResetCause = 0x0803 ∧
        t.obj oResetCount = (s.obj oResetCount + 1) % 2 ^ 32 ∧
        t.link n = bitOf (flag (s.obj oPortEnable) n) ∧ t.obj (oLastDownCause n) = 5 ∧
        t.dict.log.getLast? = some ⟨s.obj oEventSeqNext, s.tick, 0x0601, 0x05, n, 0, n, 5, s.obj (oPeerRank n), 0⟩ ∧
        (s.crossing n = false → t.rst = s.rst)) ∧
    (MayWrite s p 0x8001 2 → 32 ≤ v % 256 → exec (.portReset p v) s = .next (writeBy p 1 s))

/-- An image pushed while phase 5 waits for one (R452) is accepted or refused as `push_status` then says; an accepted one
runs, and phase 5 ends when no image is missing any more; a refused one raises SIGNATURE_FAIL (R423). Outside that wait
a push has no effect. -/
def Obligations.PushedImageIsChecked : Prop :=
  ∀ (ide : Bool) (image : List Byte) (s : State), Sound s → s.windowOpen = true →
    s.sessionOk (.host ide) 0x8020 true = true → s.tableOk (.host ide) 0x8020 1 true = true →
    image.length ≤ 67125968 →
    (s.waitsImage = false → exec (.firmwarePush (.host ide) image) s = .next (s.tookHost image.length)) ∧
    (s.rst.needFw = true → s.rst.needHub = false → imageFaults (readImage image) 1 (s.floorOf 1) = 0 →
      ∃ t, exec (.firmwarePush (.host ide) image) s = .next t ∧ t.obj oPushStatus = 2 ∧ t.rst.needFw = false ∧
        t.obj oFirmwareVersion = (readImage image).version ∧
        t.obj oDawnPhase = if s.rst.level = 2 then 7 else 6) ∧
    (∀ f, s.rst.needFw = true → s.rst.needHub = false → imageFaults (readImage image) 1 (s.floorOf 1) = f → f ≠ 0 →
      ∃ t, exec (.firmwarePush (.host ide) image) s = .next t ∧ t.obj oPushStatus = 3 ∧ t.rst.needFw = true ∧
        t.obj oDawnPhase = s.obj oDawnPhase ∧
        t.dict.log.getLast? = some ⟨s.obj oEventSeqNext, s.tick, 0x0802, 0x0D, 0, (readImage image).kind, f,
          (readImage image).version, 0, 0⟩)

/-- A step above 2,300 A lowers `noon_cap` by one, not below 1 (R460). A lost reference clock takes the ports it feeds
down (R465). RSA_KEY_READY sets `rsa_ready` outside a reset (R420). The end of a job's clearing leaves every byte of memory
zero and the accumulator empty (R437). -/
def Obligations.PowerClocksAndKeys : Prop :=
  ∀ s : State, Sound s →
    (∀ a, 2300 < a →
      exec (.vcoreOvercurrent a) s = .next (s.setObj oNoonCap (max (s.obj oNoonCap - 1) 1))) ∧
    (∀ a, a ≤ 2300 → exec (.vcoreOvercurrent a) s = .next s) ∧
    (∃ t, exec (.refclkLoss .fab) s = .next t ∧ (∀ p, p < 32 → t.link p ≤ 1) ∧ t.mem = s.mem ∧ t.sched = s.sched) ∧
    (∃ t, exec (.refclkLoss .pcie) s = .next t ∧ t.obj oHostLinkState ≠ 4 ∧ (∀ p, p < 32 → t.link p = s.link p) ∧
      ∀ h, h < 4 → (s.farPort h).state = 4 → field (t.obj oFarLinkState) (8 * h + 7) (8 * h) = 1) ∧
    (s.rst.inReset = false → exec .rsaKeyReady s = .next (s.setObj oRsaReady 1)) ∧
    (s.rst.inReset = true → exec .rsaKeyReady s = .next s) ∧
    (s.obj oTableState = 1 → s.sec.clearing = true →
      ∃ t, exec .tableClearDone s = .next t ∧ t.sec.clearing = false ∧ (∀ a, memByte t.mem.cells a = 0) ∧
        t.mem.poison = [] ∧ t.mem.hash = [] ∧ t.mem.spill = [] ∧ t.obj oHashEntriesValid = 0 ∧
        (∀ k, k ≠ oHashEntriesValid → t.obj k = s.obj k) ∧ t.sched = s.sched ∧ t.mem.pages = s.mem.pages) ∧
    (s.sec.clearing = false → exec .tableClearDone s = .next s)

/-! ### The allocator and the paging engine -/

/-- What a command of the allocator or the paging engine changes: memory, the page map and frames, its tasks, and the
objects of `workObjs` and `pageObjs`, and nothing else. -/
def Obligations.PagingFrame : Prop := ∀ (c : Instr) (s t : State), PagingCommand c → exec c s = .next t → Pages s t

/-- A command of an allocate or page task whose task is due, and whose work is not aborted, completes it: the task has
worked. -/
def Obligations.PagingCompletes : Prop :=
  ∀ (c : Instr) (s u v : State) (t : Machine.Task) (m : M Unit), pagingOf c s = some (u, t, m) → m.run u = .ok () v →
    ∃ t', v.task? t.record = some t' ∧ exec c s = .next (v.setTask { t' with work := 1 })

/-- The allocator serves the request at the head of its queue (R269, R271): the answer stands in `alloc_result`, code
0x0005 for a handle that names no live allocation and 0x0006 for a request out of its ranges (R270); an empty queue
changes nothing. -/
def Obligations.AllocatorServesHead : Prop :=
  ∀ (v : Nat) (s : State), Sound s →
    (s.mem.queue.head? = some (.request v) → s.allocWaits (objectAlloc v) = false →
      ∃ t, exec .allocatorQueueService s = .next t ∧
        t.obj oAllocResult = (s.popAlloc.allocPerform (objectAlloc v) 0xFFFFFFFF).1 ∧
        (v % 256 = 2 → s.handle? (field v 63 32) = none → field (t.obj oAllocResult) 47 32 = 5) ∧
        (v % 256 = 1 → 19 < field v 15 8 → field (t.obj oAllocResult) 47 32 = 6) ∧
        (v % 256 = 0 ∨ v % 256 = 3 → field (t.obj oAllocResult) 47 32 = 6)) ∧
    (s.mem.queue = [] → exec .allocatorQueueService s = .next s)

/-- A migration begins with the first ask for its page, when one is free (R281, R282): its entry says it migrates, what
it takes is its own, and `migrating_now` counts it. When its copy is done, the page migrates no more. -/
def Obligations.MigrationsBeginAndEnd : Prop :=
  (∀ (page f : Nat) (ask : MigrationAsk) (s x : State), Sound s → s.mem.asks.find? (·.page == page) = some ask →
    s.rst.meshStuck = false → (ask.asker.isSome = true ∨ entPolicy (s.entry page) = 2) → ask.policy < 4 →
    s.mem.migrations.length < s.obj oMigrationsMax → s.migrating page = false →
    entState (s.entry page) = (if ask.toFar then 1 else 2) →
    State.takeTarget { s with mem := { s.mem with asks := s.mem.asks.erase ask } } page ask.toFar = some (f, x) →
    ∃ t, exec (.migrationStart page) s = .next t ∧ entState (t.entry page) = 3 ∧
      t.mem.migrations = s.mem.migrations ++ [⟨page, s.entry page, ask.toFar, ask.policy, f, ask.asker⟩] ∧
      t.mem.asks = s.mem.asks.erase ask ∧ t.obj oMigratingNow = s.mem.migrations.length + 1) ∧
  (∀ (page : Nat) (s : State), Sound s → s.rst.meshStuck = false → s.migrating page = true →
    ∃ t, exec (.migrationCopyDone page) s = .next t ∧ t.migrating page = false ∧
      t.mem.migrations = s.mem.migrations.filter (·.page != page) ∧ t.obj oMigratingNow = t.mem.migrations.length)

/-- A far page of the hot policy at its threshold asks for near memory when a frame is free (R283); every count of a hot
page is halved when the window has passed (R278); a stack's scrub reports what it met and what was poisoned before (R266):
an uncorrectable error poisons its atom, or fails the task that consumes the word of a tile's SRAM (R265). -/
def Obligations.PagingUpkeep : Prop :=
  (∀ (page f : Nat) (b : Bool) (s : State), entState (s.entry page) = 2 → entPolicy (s.entry page) = 2 →
    s.obj oPromoteThreshold ≤ entCount (s.entry page) → (∀ a ∈ s.mem.asks, a.page ≠ page) →
    s.findNear (s.pagePlacement page) (entSlot (s.entry page)) (s.pageIndex page) page = some (f, b) →
    exec (.autoPromote page) s =
      .next { s with mem := { s.mem with asks := s.mem.asks ++ [⟨page, false, 2, none⟩] } }) ∧
  (∀ s : State, s.obj oHotWindowTicks ≠ 0 → s.mem.lastHalving + s.obj oHotWindowTicks ≤ s.tick →
    ∃ t, exec .accessCountHalving s = .next t ∧ t.mem.lastHalving = s.tick ∧
      ∀ p, t.entry p = if entPolicy (s.entry p) = 2 ∧ entState (s.entry p) ≠ 0 then
        setField (s.entry p) 58 43 (entCount (s.entry p) / 2) else s.entry p) ∧
  (∀ (stack : Nat) (r : EccReport) (s : State), Sound s → stack < 20 →
    (r.double = true → r.kind ≠ 2 →
      ∃ t, exec (.scrubPass stack [r]) s = .next t ∧
        mapFind t.mem.poison (nearPhys (stack * 65536 + r.frame % 65536) / 64 + r.atom % 32768) = some 0 ∧
        t.obj oEccUncorrected = (s.obj oEccUncorrected + (s.poisonIn stack).length + 1) % 2 ^ 64 ∧
        t.obj oEccLastLocation = s.eccLocation stack r ∧ t.mem.cells = s.mem.cells) ∧
    (∀ q, r.double = true → r.kind = 2 → s.sramTask r = some q →
      ∃ t, exec (.scrubPass stack [r]) s = .next t ∧ t.task? q.record = some { q with work := 2, undef := true } ∧
        t.sched.halt.isSome = true) ∧
    (r.double = false →
      ∃ t, exec (.scrubPass stack [r]) s = .next t ∧ t.mem = s.mem ∧
        t.obj oEccCorrected = (s.obj oEccCorrected + 1) % 2 ^ 64 ∧ t.obj oEccLastLocation = s.eccLocation stack r))

/-! ### Fabric ports -/

/-- The life of a link (R318, R319, R429): training, the attach, and the ends of a link with their causes, of which
1 and 3 read as 6 once the peer has announced Dusk. A trained port sends its attach flit first. An attach without a
completed session, or whose checks fail, takes the port DOWN with cause 4, and a failed check raises SIGNATURE_FAIL of kind
0x10 for the certificates, 0x11 for the signatures or the measurement. -/
def Obligations.LinkLife : Prop :=
  ∀ (p : Nat) (s : State), Sound s → p < 32 →
    (s.link p = 1 → s.quiesced = false → exec (.retrainInterval p) s = .next (s.setObj (oLinkState p) 2)) ∧
    (∀ r, s.link p = 2 → (s.obj oPortRates >>> (8 * p)) % 8 &&& r % 8 ≠ 0 →
      ∃ t h pl more, exec (.trainingComplete p r) s = .next t ∧ t.link p = 3 ∧
        (∀ k, k ≠ oLinkState p → t.obj k = s.obj k) ∧ t.out = s.out ++ .flit p h pl (wireFlit none 0 h pl) :: more ∧
        h % 4 = 3 ∧ pl = padTo 240 0 (3 :: Config.attachBody (s.obj oLogicalRank) Config.serial p)) ∧
    (s.link p = 2 → ∃ t, exec (.trainingTimeout p) s = .next t ∧ t.link p = 1 ∧
      t.obj (oLastDownCause p) = (if (s.port p).dusk = true then 6 else 1)) ∧
    (s.link p = 4 → ∃ t, exec (.laneSignalLoss p) s = .next t ∧ t.link p = 1 ∧
      t.obj (oLastDownCause p) = (if (s.port p).dusk = true then 6 else 1)) ∧
    (s.link p = 3 → ∃ t, exec (.laneSignalLoss p) s = .next t ∧ t.link p = 1 ∧ t.obj (oLastDownCause p) = 4) ∧
    (s.link p = 4 → ∃ t, exec (.noFlitTimeout p) s = .next t ∧ t.link p = 1 ∧
      t.obj (oLastDownCause p) = (if (s.port p).dusk = true then 6 else 3)) ∧
    (s.link p = 3 → ∃ t, exec (.noFlitTimeout p) s = .next t ∧ t.link p = 1 ∧ t.obj (oLastDownCause p) = 4) ∧
    (∀ e : AttachEvidence, s.link p = 3 →
      ((s.port p).peerSerial = none ∨ e.completed = false ∨ s.obj oRsaReady = 0 →
        ∃ t, exec (.attachComplete p e) s = .next t ∧ t.link p = 1 ∧ t.obj (oLastDownCause p) = 4 ∧
          t.obj oSpdmFailures = (s.obj oSpdmFailures + 1) % 2 ^ 64) ∧
      ∀ serial, (s.port p).peerSerial = some serial → e.completed = true → s.obj oRsaReady ≠ 0 →
        (e.chainsOk = false ∨ e.certSerial ≠ serial →
          ∃ t, exec (.attachComplete p e) s = .next t ∧ t.link p = 1 ∧ t.obj (oLastDownCause p) = 4 ∧
            ∃ x ∈ t.dict.log, x.code = 0x0802 ∧ x.w0 = 0x10) ∧
        (e.chainsOk = true → e.certSerial = serial →
          (e.signaturesOk = false ∨ (s.obj oPeerPolicy = 1 ∧ e.measurement2 ≠ s.obj oMeasurement2)) →
          ∃ t, exec (.attachComplete p e) s = .next t ∧ t.link p = 1 ∧ t.obj (oLastDownCause p) = 4 ∧
            ∃ x ∈ t.dict.log, x.code = 0x0802 ∧ x.w0 = 0x11) ∧
        (e.chainsOk = true → e.certSerial = serial → e.signaturesOk = true →
          (s.obj oPeerPolicy = 1 → e.measurement2 = s.obj oMeasurement2) →
          ∃ t, exec (.attachComplete p e) s = .next t ∧ t.link p = 4 ∧ t.sec.sessions = s.sec.sessions ++ [⟨2 + p, 0⟩] ∧
            t.obj oSpdmSessions = t.sec.sessions.length ∧ t.obj (oLinkRate p) = (s.port p).rate))

/-- What a received flit does, by what its checks find (R295–R297, R304, R318, R430). One that cannot be corrected is
counted and answered with a nak; an intact one brings credits and acknowledges what the replay buffer held. A data flit is
taken in, on an ATTACHING link on VC3 alone; a nak resends the replay buffer, and takes the link down at the ninth time in
succession; a control flit acts as its type says. -/
def Obligations.FlitsAreTakenIn : Prop :=
  ∀ (p : Nat) (f : RxFlit) (s u : State) (r : FlitResult), Sound s → p < 32 → s.receiving p = true →
    s.checkFlit p f = (r, u) →
    (correctFlit f.bytes = none → r = .bad ∧ u.obj (oFecUncorrectable p) = (s.obj (oFecUncorrectable p) + 1) % 2 ^ 64 ∧
      ((s.port p).nakSent = false →
        ∃ h w, h % 4 = 2 ∧ u.out = s.out ++ [.flit p h (List.replicate 240 0) w])) ∧
    (∀ bs n h pl, correctFlit f.bytes = some (bs, n) → s.openFlit p bs f.slot = some (h, pl) → r ≠ .bad ∧
      (u.port p).credits = (s.port p).credits.set (field h 9 8)
        ((s.port p).credits.getD (field h 9 8) 0 + field h 7 2) ∧
      (∀ e ∈ (s.port p).replay.head?, e.1 = field h 21 12 → (u.port p).replay = (s.port p).replay.drop 1)) ∧
    (r = .bad → exec (.dataFlitReceive p f) s = .next u ∧ exec (.idleFlitReceive p f) s = .next u ∧
      exec (.nakReceive p f) s = .next u ∧ exec (.abortReceive p f) s = .next u) ∧
    (r = .idle → exec (.idleFlitReceive p f) s = .next (u.pump p)) ∧
    (r = .outOfOrder → exec (.dataFlitReceive p f) s = .next (u.pump p)) ∧
    (∀ vc pl, r = .data vc pl → (s.link p = 3 → vc = 3) →
      exec (.dataFlitReceive p f) s = .next ((u.takeData p vc pl).pump p)) ∧
    (r = .nak → (u.port p).replay = [] → exec (.nakReceive p f) s = .next (u.pump p)) ∧
    (r = .nak → (u.port p).replay ≠ [] → (u.port p).resends < 8 →
      exec (.nakReceive p f) s =
        .next (((u.setPort p { u.port p with resends := (u.port p).resends + 1 }).resendAll p).pump p)) ∧
    (r = .nak → (u.port p).replay ≠ [] → 8 ≤ (u.port p).resends →
      ∃ t, exec (.nakReceive p f) s = .next t ∧ t.link p = 1 ∧ t.obj (oLastDownCause p) = 2) ∧
    (∀ pl, r = .control pl → pl.headD 0 = 1 →
      exec (.timestampReceive p f) s = .next ((u.takeStamp p (readStamp pl f.time)).pump p)) ∧
    (∀ pl i, r = .control pl → pl.headD 0 = 2 → (u.port p).incoming.find? (·.vc == (pl.getD 1 0).toNat % 4) = some i →
      i.fate ≠ .discard →
      ∃ t, exec (.abortReceive p f) s = .next t ∧
        t.obj oAbortedMessages = (u.obj oAbortedMessages + 1) % 2 ^ 64 ∧ t.mem = u.mem ∧ t.sched = u.sched) ∧
    (∀ pl info, r = .control pl → pl.headD 0 = 3 → s.link p = 3 →
      ∃ t, exec (.attachReceive p f info) s = .next t ∧ t.obj (oPeerRank p) = info.rank % 65536 ∧
        t.obj (oPeerPort p) = info.port % 256 ∧ t.mem = u.mem ∧ t.sched = u.sched) ∧
    (∀ pl k, r = .control pl → pl.headD 0 = 4 → s.link p = 4 → (u.port p).rxKey = some k →
      exec (.keyUpdateReceive p f) s =
        .next ((u.setPort p { u.port p with rxKey := some { k with next := some (k.base + ofLe ((pl.drop 2).take 8)) } }).pump p))

/-- What a link sends of itself: one timestamp in each tick after phase 512, with the device's place in the timing tree
and its counter (R311); the announcement of a new key 1,024 slots ahead, once the key is old enough (R430). -/
def Obligations.LinksSend : Prop :=
  (∀ (p phase : Nat) (s : State), s.link p = 4 → 512 * 16 < phase → (s.port p).stampedTick ≠ some s.tick →
    ∃ payload, payload.headD 0 = 1 ∧ payload.length = 50 ∧
      exec (.timestampSend p phase) s =
        .next ((s.setPort p { s.port p with stampedTick := some s.tick }).sendControl p payload) ∧
      (readStamp payload 0).distance = s.obj oTimeDistance % 256 ∧
      (readStamp payload 0).refRank = s.obj oTimeReferenceRank % 65536 ∧
      (readStamp payload 0).refSerial = s.timing.refSerial % 2 ^ 64 ∧
      (readStamp payload 0).counter = s.tick % 2 ^ 64 ∧
      (readStamp payload 0).tx = (s.tick * 2 ^ (s.obj oTickPeriodLog2) * 16 + phase) % 2 ^ 64) ∧
  (∀ (p phase : Nat) (s : State), s.link p = 4 → (phase ≤ 512 * 16 ∨ (s.port p).stampedTick = some s.tick) →
    exec (.timestampSend p phase) s = .next s) ∧
  (∀ (p slot : Nat) (k : LinkKey) (s : State), s.link p = 4 → (s.port p).txKey = some k → k.next = none →
    (s.port p).txSlot ≤ slot → k.base + 2 ^ s.obj oLinkRekeyFlitsLog2 ≤ slot →
    ∃ x, x = s.setPort p { s.port p with txKey := some { k with next := some (slot + 1024) }, txSlot := slot } ∧
      exec (.keyUpdateSend p slot) s =
        .next (x.sendControl p ([4, BitVec.ofNat 8 (k.generation + 1)] ++ leBytes 8 (slot - k.base + 1024))))

/-- What becomes of a message part way in, chosen once (R301, R305). One that is not for this rank is discarded and counted
where its hops are used up, where its rank has no entry, or where no port of its entry is UP; else what has come of it is
queued on the best port of its entry, a hop less in its header, and counted. One for this rank is delivered when it is
whole. -/
def Obligations.MessagesAreForwarded : Prop :=
  ∀ (p vc h : Nat) (i : Incoming) (s : State), Sound s → p < 32 → (s.port p).incoming.find? (·.vc == vc) = some i →
    h = ofLe (i.bytes.take 16) →
    (i.fate ≠ .open → exec (.messageForward p vc) s = .next s) ∧
    (i.fate = .open → hdrDest h ≠ s.obj oLogicalRank →
      (hdrHops h = 0 ∨ flag (s.routeEntry (hdrDest h)) 1 = false →
        ∃ t, exec (.messageForward p vc) s = .next t ∧
          t.obj oMisroutedMessages = (s.obj oMisroutedMessages + 1) % 2 ^ 64 ∧ t.mem = s.mem ∧ t.sched = s.sched) ∧
      (hdrHops h ≠ 0 → flag (s.routeEntry (hdrDest h)) 1 = true →
        (s.routeChoices (s.routeEntry (hdrDest h)) vc = [] →
          ∃ t, exec (.messageForward p vc) s = .next t ∧
            t.obj oUnroutableMessages = (s.obj oUnroutableMessages + 1) % 2 ^ 64 ∧ t.mem = s.mem ∧ t.sched = s.sched) ∧
        (∀ e evc, s.bestChoice (s.routeChoices (s.routeEntry (hdrDest h)) vc) = some (e, evc) →
          ∃ t x : State, exec (.messageForward p vc) s = .next t ∧ t = x.queueFlits e (markLast evc (4 * p + vc)
              (chunks 240 (leBytes 16 (setField h 23 20 (hdrHops h - 1)) ++ i.bytes.drop 16))
              (decide (hdrFlits h * 240 ≤ i.bytes.length))) ∧
            t.obj oForwardedMessages = (s.obj oForwardedMessages + 1) % 2 ^ 64 ∧ t.mem = s.mem ∧ t.sched = s.sched))) ∧
    (i.fate = .open → hdrDest h = s.obj oLogicalRank →
      ∃ t, exec (.messageForward p vc) s = .next t ∧ t.obj oForwardedMessages = s.obj oForwardedMessages ∧
        t.obj oUnroutableMessages = s.obj oUnroutableMessages ∧ t.mem = s.mem ∧ t.sched = s.sched ∧
        (hdrFlits h * 240 ≤ i.bytes.length → kindDefined (hdrKind h) = true →
          (t.port p).arrived = (s.port p).arrived ++ [⟨p, vc, h, (i.bytes.drop 16).take (hdrLength h)⟩]))

/-! ### The host, the expanders and the management ports -/

/-- The host link comes up with the speed and width that training found, and goes down with a cause and LINK_DOWN;
memory and every other object stay (R402, R417). -/
def Obligations.HostLinkChanges : Prop :=
  ∀ s : State, Sound s →
    (∀ speed width, s.obj oHostLinkState ≠ 4 → s.hostHeld = false →
      ∃ t, exec (.hostLinkUp speed width) s = .next t ∧ t.obj oHostLinkState = 4 ∧ t.obj oHostLinkSpeed = speed % 256 ∧
        t.obj oHostLinkWidth = width % 256 ∧
        (∀ k, k ≠ oHostLinkState → k ≠ oHostLinkSpeed → k ≠ oHostLinkWidth → t.obj k = s.obj k) ∧ t.mem = s.mem) ∧
    (∀ c n, (c = .hotReset ∧ n = 4 ∧ s.obj oHostLinkState = 4) ∨
        (c = .hostLinkDown n ∧ (n = 1 ∨ n = 3) ∧ s.hostHeld = false) →
      ∃ t, exec c s = .next t ∧ t.obj oHostLinkState = 1 ∧ t.obj oHostLinkSpeed = 0 ∧ t.obj oHostLinkWidth = 0 ∧
        t.sec.ideStream = false ∧ t.mem = s.mem ∧
        t.dict.log.getLast? = some ⟨s.obj oEventSeqNext, s.tick, 0x0601, 0x07, 0, 2, 0, n, 0, 0⟩ ∧
        ∀ k, k ≠ oHostLinkState → k ≠ oHostLinkSpeed → k ≠ oHostLinkWidth → k ≠ oEventSeqNext → k ≠ oEventSeqOldest →
          k ≠ oEventsOverwritten → t.obj k = s.obj k)

/-- A far port that is lost, times out or finds no expander goes DOWN with its cause, LINK_DOWN is raised, and its
memory's contents are gone; one that trains is UP with what firmware found (R286, R413–R415). The other ports stay. -/
def Obligations.FarLinkChanges : Prop :=
  ∀ (h : Nat) (s : State), Sound s → h < 4 →
    (∀ c n, (c = .farLinkLoss h n ∧ (n = 1 ∨ n = 3) ∧ (s.farPort h).state = 4) ∨
        (c = .farRequestTimeout h ∧ n = 2 ∧ (s.farPort h).state = 4) ∨
        (c = .farRetrain h none ∧ n = 1 ∧ (s.farPort h).state ≠ 4 ∧ s.rst.inReset = false) →
      ∃ t, exec c s = .next t ∧
        (∀ q, q < 4 → field (t.obj oFarLinkState) (8 * q + 7) (8 * q) =
          if q = h then 1 else field (s.obj oFarLinkState) (8 * q + 7) (8 * q)) ∧
        (∀ q, q ≠ h → t.farPort q = s.farPort q) ∧
        (∀ a, farPhys (h * 2 ^ 22) ≤ a → a < farPhys ((h + 1) * 2 ^ 22) → memByte t.mem.cells a = 0) ∧
        ∃ e, t.dict.log.getLast? = some e ∧ e.code = 0x0601 ∧ e.source = 0x06 ∧ e.unit = h ∧ e.w0 = 1 ∧ e.w1 = h ∧
          e.w2 = n) ∧
    (∀ f, (s.farPort h).state ≠ 4 → s.rst.inReset = false → s.farRefused h f = false →
      ∃ t, exec (.farRetrain h (some f)) s = .next t ∧
        (∀ q, q < 4 → field (t.obj oFarLinkState) (8 * q + 7) (8 * q) =
          if q = h then 4 else field (s.obj oFarLinkState) (8 * q + 7) (8 * q)) ∧
        t.obj (oFarCapacityH0 + h) = farFrames f.bytes * pageBytes ∧ t.obj (oFarCertDigestH0 + h) = f.digest ∧
        (∀ q, q ≠ h → t.farPort q = s.farPort q) ∧ t.mem = s.mem)

/-- A management port comes into service, or goes out of it with LINK_DOWN of port kind 3 (R396, R398). -/
def Obligations.ManagementPortChanges : Prop :=
  ∀ (p : Nat) (s : State), Sound s → p < 2 →
    (∃ t, exec (.managementPortUp p) s = .next t ∧ flag (t.obj oMgmtPortsUp) p = true ∧
      ∀ k, k ≠ oMgmtPortsUp → t.obj k = s.obj k) ∧
    (flag (s.obj oMgmtPortsUp) p = true →
      ∃ t e, exec (.managementPortDown p) s = .next t ∧ flag (t.obj oMgmtPortsUp) p = false ∧
        t.dict.log.getLast? = some e ∧ e.code = 0x0601 ∧ e.source = 0x08 ∧ e.unit = p ∧ e.w0 = 3 ∧ e.w1 = p ∧
        ∀ k, k ≠ oMgmtPortsUp → k ≠ oEventSeqNext → k ≠ oEventSeqOldest → k ≠ oEventsOverwritten → t.obj k = s.obj k)

/-- The host's accesses through BAR2 (R279, R401, R404, R427). Past BAR2 they are unsupported. Within one page that is
near or far and that the tables grant, a write stores its bytes at the page's place and no other byte of memory changes;
a read returns the bytes there. A read outside a stream that is required returns 0xFF in every byte. -/
def Obligations.HostMemoryAccess : Prop :=
  ∀ (ide : Bool) (off n : Nat) (bs : List Byte) (s : State), Sound s → s.hostMemory = true →
    (s.bar2Bytes < off + n →
      ∃ t, exec (.hostBar2Read ide off n) s = .next t ∧ t.out = s.out ++ [.unsupported] ∧
        t.obj oHostUnsupported = (s.obj oHostUnsupported + 1) % 2 ^ 64 ∧ t.mem = s.mem) ∧
    (s.bar2Bytes < off + bs.length →
      ∃ t, exec (.hostBar2Write ide off bs) s = .next t ∧ t.out = s.out ∧
        t.obj oHostUnsupported = (s.obj oHostUnsupported + 1) % 2 ^ 64 ∧ t.mem = s.mem) ∧
    (off + n ≤ s.bar2Bytes → s.needsStream ide = true →
      ∃ t, exec (.hostBar2Read ide off n) s = .next t ∧ t.out = s.out ++ [.completion (List.replicate n 0xFF)] ∧
        t.mem.cells = s.mem.cells) ∧
    (∀ va e, va = s.obj oBar2WindowBase + off → e = s.entry (va / pageBytes) → s.needsStream ide = false →
      (entState e = 1 ∨ entState e = 2) →
      (0 < n → off + n ≤ s.bar2Bytes → va + n ≤ hostWindowBase → va % pageBytes + n ≤ pageBytes →
        s.granted 4 1 va = true → s.poisoned? (entPhys e + va % pageBytes) n = none →
        ∃ t, exec (.hostBar2Read ide off n) s = .next t ∧ t.mem.cells = s.mem.cells ∧
          t.out = s.out ++ [.completion (memBytes s.mem.cells (entPhys e + va % pageBytes) n)]) ∧
      (bs ≠ [] → off + bs.length ≤ s.bar2Bytes → va + bs.length ≤ hostWindowBase →
        va % pageBytes + bs.length ≤ pageBytes → s.granted 4 2 va = true →
        ∃ t, exec (.hostBar2Write ide off bs) s = .next t ∧ t.out = s.out ∧
          ∀ a, memByte t.mem.cells a =
            if entPhys e + va % pageBytes ≤ a ∧ a < entPhys e + va % pageBytes + bs.length then
              bs.getD (a - (entPhys e + va % pageBytes)) 0 else memByte s.mem.cells a))

/-- A request that a BAR cannot serve is answered as unsupported and counted (R401). A task that waits for the host's
memory when its read times out faults (R409, R410). -/
def Obligations.HostErrors : Prop :=
  ∀ s : State, Sound s →
    (s.obj oHostLinkState = 4 → ∃ t, exec .hostUnsupportedRequest s = .next t ∧ t.out = s.out ++ [.unsupported] ∧
      t.obj oHostUnsupported = (s.obj oHostUnsupported + 1) % 2 ^ 64 ∧ t.mem = s.mem) ∧
    (∀ r x, s.working? r = some x → s.readsHost x = true →
      ∃ t, exec (.hostReadTimeout r) s = .next t ∧
        t.obj oHostRequestErrors = (s.obj oHostRequestErrors + 1) % 2 ^ 64 ∧ t.sched.halt.isSome = true ∧
        ∃ y, t.task? r = some y ∧ y.work = 2)

/-- The transfer window (R387): a length of 0 or beyond its buffer ends with status SIZE; otherwise a read ends with the
status and the bytes of the object, and a segment with the status of R390. The write that starts it counts among the host's
bytes (the model's choice, log entry 117). Where the window is not in service the command is dropped. -/
def Obligations.WindowTransfers : Prop :=
  ∀ (ide : Bool) (s : State), Sound s →
    (s.windowOpen = false → exec (.windowRead ide) s = .next s.hostDropped ∧
      exec (.windowWriteSegment ide) s = .next s.hostDropped ∧ exec (.windowWriteLast ide) s = .next s.hostDropped) ∧
    (s.windowOpen = true → (s.dict.window.length = 0 ∨ 65536 < s.dict.window.length) →
      ∀ c, (c = .windowRead ide ∨ c = .windowWriteSegment ide ∨ c = .windowWriteLast ide) →
        ∃ t, exec c s = .next t ∧ t.dict.window = { s.dict.window with status := 0x04, state := 2 } ∧
          (∀ k, k ≠ oHostBytesIn → t.obj k = s.obj k) ∧ t.mem = s.mem) ∧
    (s.windowOpen = true → 0 < s.dict.window.length → s.dict.window.length ≤ 65536 →
      (∀ st bs u, (readBytesOf (.host ide) s.dict.window.index s.dict.window.sub s.dict.window.offset
          s.dict.window.length).run (s.tookHost 8) = .ok (st, bs) u →
        ∃ t, exec (.windowRead ide) s = .next t ∧
          t.dict.window = { (if st = 0 then u.dict.window.fill 0 bs else u.dict.window) with status := st, state := 2 } ∧
          t.mem = u.mem) ∧
      (∀ last st u, (Machine.segment (.host ide) 0 s.dict.window.index s.dict.window.sub s.dict.window.offset
          (s.dict.window.bytes s.dict.window.length) last).run (s.tookHost 8) = .ok st u →
        ∃ t, exec (if last then .windowWriteLast ide else .windowWriteSegment ide) s = .next t ∧
          t.dict.window = { u.dict.window with status := st, state := 2 } ∧ t.mem = u.mem ∧ ∀ k, t.obj k = u.obj k))

/-! ### Felby, events and SPDM -/

/-- A Felby frame (R388–R391). One that is not accepted is discarded and counted. One that repeats a request within a
second is answered by the response that was kept, and does nothing else. Any other is answered with the status and data
of what it asks for: a read or a description by the object, a write by storing it, an unknown type as MALFORMED. -/
def Obligations.FelbyAnswers : Prop :=
  ∀ (f : FelbyFrame) (x : Felby) (s : State), Sound s → s.rst.inReset = false → s.mgmtUp f.port = true →
    isFelby f.bytes = true → readFelby f.bytes = x →
    exec (.felbyFrameDiscard f) s = .next (s.count oFelbyDiscards) ∧
    (accepts f = false → exec (.felbyRead f) s = .next (s.count oFelbyDiscards) ∧
      exec (.felbyWrite f) s = .next (s.count oFelbyDiscards) ∧
      exec (.felbyDescribe f) s = .next (s.count oFelbyDiscards)) ∧
    (∀ c k, accepts f = true → s.keptFor f = some k →
      (c = .felbyRead f ∧ x.type = 1 ∨ c = .felbyWrite f ∧ x.type = 2 ∨ c = .felbyDescribe f ∧ x.type = 3) →
      ∃ t, exec c s = .next t ∧ t.out = s.out ++ [k.response] ∧
        t.obj oFelbyDuplicates = (s.obj oFelbyDuplicates + 1) % 2 ^ 64 ∧
        (∀ j, j ≠ oFelbyDuplicates → t.obj j = s.obj j) ∧ t.mem = s.mem) ∧
    (∀ c (act : Felby → Path → M Answer) st bs n u, accepts f = true → s.keptFor f = none → 1 ≤ x.version →
      x.version ≤ 3 → x.flags < 4 → x.pad = 0 →
      (c = .felbyRead f ∧ x.type = 1 ∧ act = felbyReadWork ∨ c = .felbyWrite f ∧ x.type = 2 ∧ act = felbyWriteWork f ∨
        c = .felbyDescribe f ∧ x.type = 3 ∧ act = felbyDescribeWork ∨
        c = .felbyUnknownType f ∧ x.type = 4 ∧ act = fun _ _ => return .frame 0x0A [] 0) →
      (act x (.mgmt f.port false)).run s = .ok (.frame st bs n) u → u.mgmtUp f.port = true →
      ∃ t, exec c s = .next t ∧ t.out = u.out ++ [response f x.version st bs n] ∧
        t.obj oFelbyRequests = (u.obj oFelbyRequests + 1) % 2 ^ 64 ∧
        (∀ j, j ≠ oFelbyRequests → t.obj j = u.obj j) ∧ t.mem = u.mem) ∧
    (∀ req, accepts f = true → s.keptFor f = none → x.version = 3 → x.flags < 4 → x.pad = 0 → x.type = 5 →
      ∃ t head, exec (.felbySpdm f req) s = .next t ∧
        t.out = (s.spdm 1 req).2.out ++ [.spdmFrame f.port head (s.spdm 1 req).1] ∧ t.sec = (s.spdm 1 req).2.sec)

/-- Event notification (R393). A frame carries the next records, up to sixteen, once the last has been acknowledged; it
is sent again when its time has passed, on M0 and then on M1, and the stall follows; an acknowledgement of its sequence
number moves `event_acked_seq` past its records and ends the stall. -/
def Obligations.EventsAreNotified : Prop :=
  ∀ s : State, Sound s →
    (∀ (time upTo : Nat) (first : EventRec) (rest : List EventRec), s.notifies = true → s.dict.outstanding = none →
      s.gatherEvents 16 (s.dict.log.filter fun e => decide (s.obj oEventAckedSeq ≤ e.seq)) ([], s.obj oEventAckedSeq) =
        (first :: rest, upTo) →
      ∃ t o, exec (.eventSend time) s = .next t ∧ t.dict.outstanding = some o ∧ o.seq = s.dict.eventSeq ∧
        o.upTo = upTo ∧ o.port = 0 ∧ o.sentMs = time ∧ o.resends = 0 ∧ t.dict.eventSeq = (s.dict.eventSeq + 1) % 65536 ∧
        t.obj oEventFramesSent = (s.obj oEventFramesSent + 1) % 2 ^ 64 ∧ t.dict.log = s.dict.log) ∧
    (∀ (time : Nat) (o : Outstanding), s.dict.outstanding = some o → s.notifies = true →
      o.sentMs + s.obj oEventRetryMs ≤ time →
      (o.resends < s.obj oEventRetries → ∃ t, exec (.eventRetry time) s = .next t ∧
        t.dict.outstanding = some { o with sentMs := time, resends := o.resends + 1 }) ∧
      (s.obj oEventRetries ≤ o.resends → o.port = 0 → ∃ t, exec (.eventRetry time) s = .next t ∧
        t.dict.outstanding = some { o with sentMs := time, port := 1, resends := 1 }) ∧
      (s.obj oEventRetries ≤ o.resends → o.port ≠ 0 → ∃ t, exec (.eventRetry time) s = .next t ∧
        t.obj oEventStalled = 1 ∧ t.dict.outstanding = some o)) ∧
    (∀ (f : FelbyFrame) (o : Outstanding), s.rst.inReset = false → s.obj oEventDestination ≠ 0 →
      s.mgmtUp f.port = true → isFelby f.bytes = true →
      accepts f = true → (readFelby f.bytes).type = 0x84 → (readFelby f.bytes).source = s.obj oEventDestination →
      s.dict.outstanding = some o → (readFelby f.bytes).seq = o.seq →
      ∃ t, exec (.eventAck f) s = .next t ∧ t.obj oEventAckedSeq = o.upTo ∧ t.obj oEventStalled = 0 ∧
        t.dict.outstanding = none ∧ t.dict.log = s.dict.log)

/-- ALERT_N (R475, Table 17.4) follows the log's records: it goes low when a link of an UP port is lost and that class of
event is notified, is released once every notified record of the log is acknowledged, and in every reset. -/
def Obligations.AlertFollowsEvents : Prop :=
  ∀ s : State, Sound s →
    (∀ p, s.rst.inReset = false → p < 32 → s.link p = 4 → flag (s.obj oEventNotifyMask) 5 = true →
      s.obj oEventAckedSeq ≤ s.obj oEventSeqNext →
      ∃ t, exec (.laneSignalLoss p) s = .next t ∧ t.alertLand = .low) ∧
    (∀ (f : FelbyFrame) (o : Outstanding), s.rst.inReset = false → s.obj oEventDestination ≠ 0 →
      s.mgmtUp f.port = true → isFelby f.bytes = true → accepts f = true → (readFelby f.bytes).type = 0x84 →
      (readFelby f.bytes).source = s.obj oEventDestination → s.dict.outstanding = some o →
      (readFelby f.bytes).seq = o.seq → (∀ e ∈ s.dict.log, s.classOn e = true → e.seq < o.upTo) →
      ∃ t, exec (.eventAck f) s = .next t ∧ t.alertLand = .released) ∧
    (∀ c n, sourceOf c s = some n → ∃ t, exec c s = .next t ∧ t.alertLand = .released)

/-- A request on the DOE mailbox is answered on an UP host link (R425): ones that need the RSA pair by
ResponseNotReady until it is ready (R420), an unsigned measurement by its block's digest (R426), and a fifth session by
an error; a finished handshake opens a session. -/
def Obligations.DoeAnswers : Prop :=
  ∀ s : State, Sound s → s.rst.inReset = false → s.obj oHostLinkState = 4 →
    (∀ req, ∃ t, exec (.doeRequest req) s = .next t ∧ t.out = (s.spdm 0 req).2.out ++ [.spdm (s.spdm 0 req).1] ∧
      t.mem = s.mem) ∧
    (∀ slot nonce, slot ≤ 1 → s.obj oRsaReady = 0 →
      exec (.doeRequest (.challenge slot nonce)) s = .next (s.emit (.spdm (.error 0x42)))) ∧
    (∀ i slot nonce, 1 ≤ i → i ≤ 6 → slot ≤ 1 → exec (.doeRequest (.getMeasurements i false slot nonce)) s =
      .next (s.emit (.spdm (.plain 0x60 (leBytes 48 (s.obj (oMeasurement1 + i - 1))))))) ∧
    (∀ id, (s.sessionsOf 0).length < 4 → s.hasSession 0 id = false →
      ∃ t, exec (.doeRequest (.finish id true)) s = .next t ∧ t.sec.sessions = s.sec.sessions ++ [⟨0, id⟩] ∧
        t.obj oSpdmSessions = s.sec.sessions.length + 1)

/-! ### Collectives -/

/-- What a command of a collective, a snapshot, a deadline or the twin changes: memory, tasks, ports, the progress of
collectives and of snapshots, and the objects of `workObjs` and `collObjs`, and nothing else. -/
def Obligations.CollectiveFrame : Prop :=
  ∀ (c : Instr) (s t : State), CollectiveCommand c → exec c s = .next t → Collects s t

/-- A command of a collective or snapshot task, or a message for one, completes when its work is not aborted; a fault of
the work ends its task with status 0x2 and halts the scheduler at the next boundary (R56, R329). -/
def Obligations.CollectivesComplete : Prop :=
  ∀ (c : Instr) (s u v : State) (x : CollCtx) (m : M Unit), collectiveOf c s = some (u, x, m) →
    (m.run u = .ok () v → exec c s = .next v) ∧
    (∀ d t, m.run u = .error (.fault d) v → v.task? x.t.record = some t →
      ∃ y, exec c s = .next y ∧ y.task? x.t.record = some { t with work := 2 } ∧ y.sched.halt.isSome = true)

/-- What messages do to the progress of their task. Counts are kept by rank, which is no longer awaited once they are as many
as the experts (R335). A contribution is kept for the sum on a tree without staging (R331, R332), and on a ring its sum with
this position's part goes on. A barrier_up is kept, and at the root the last child's fixes the release tick; a barrier_down
gives it, late where its boundary has passed (R340). -/
def Obligations.MessagesActOnTasks : Prop :=
  ∀ (port vc : Nat) (s u : State) (c : CollCtx) (x : CollMsg) (q : Coll), Sound s → u.coll? c.t.record = some q →
    (actsOn s port vc 4 = some (u, c, x) →
      ∃ t q', exec (.counts port vc) s = .next t ∧ t.coll? c.t.record = some q' ∧
        q'.counts = q.counts ++ [⟨x.rank, x.port, x.offset, bytesCodes 4 x.data⟩] ∧
        q'.tokens = (q.tokens.filter fun r => r != x.rank || decide ((countsOf q' r).length < colExperts c.t.image)) ∧
        t.mem = s.mem ∧ t.sched = s.sched) ∧
    (actsOn s port vc 2 = some (u, c, x) → c.reduceFits x = true → c.move = 3 → c.staged = false →
      bytesCodes c.eb x.data ≠ [] →
      ∃ t q', exec (.reduce port vc) s = .next t ∧ t.coll? c.t.record = some q' ∧
        q'.awaitReduce = takeFrom q.awaitReduce x.rank x.data.length ∧
        q'.pieces = q.pieces ++ [⟨x.rank, x.port, x.offset, bytesCodes c.eb x.data⟩] ∧ t.mem = s.mem ∧
        t.sched = s.sched) ∧
    (actsOn s port vc 2 = some (u, c, x) → c.reduceFits x = true → c.move = 1 → x.offset / max 1 c.chunk ≠ c.me →
      (∀ r, r ∉ q.absent) →
      ∃ t q' m, exec (.reduce port vc) s = .next t ∧ t.coll? c.t.record = some q' ∧
        q'.awaitReduce = takeFrom q.awaitReduce x.rank x.data.length ∧ q'.todo = q.todo ++ [m] ∧ m.kind = 2 ∧
        m.offset = x.offset ∧
        m.rank = c.rank (c.next (decide (x.offset % max 1 c.chunk < firstHalf (max 1 c.chunk)))) ∧
        m.data = codeBytes c.eb (((bytesCodes c.eb x.data).zip (valRange c.eb x.offset x.data.length q.vals)).map fun p =>
          addCode c.fmt p.1 p.2) ∧ t.mem = s.mem ∧ t.sched = s.sched) ∧
    (actsOn s port vc 5 = some (u, c, x) →
      ∃ t q', exec (.barrierUp port vc) s = .next t ∧ t.coll? c.t.record = some q' ∧
        q'.ups = q.ups ++ [⟨x.rank, x.phase, x.flags, x.norms⟩] ∧
        q'.tokens = (if x.phase = q.phase then q.tokens.filter (· != x.rank) else q.tokens) ∧
        (c.parent c.me = none → colOp c.t.image = 8 → q.begun = true → q.reduced = false →
          (∀ j ∈ c.children, c.rank j ∉ q'.tokens) → q'.release = some (s.tick + s.obj oBarrierMarginTicks)) ∧
        t.mem = s.mem ∧ t.sched = s.sched) ∧
    (actsOn s port vc 6 = some (u, c, x) →
      ∃ t q', exec (.barrierDown port vc) s = .next t ∧ t.coll? c.t.record = some q' ∧
        q'.tokens = q.tokens.filter (· != x.rank) ∧ q'.totals = (x.flags, x.norms) ∧
        q'.release = some (max x.word s.tick) ∧ q'.late = decide (x.word ≤ s.tick) ∧
        t.mem = s.mem ∧ t.sched = s.sched)

/-- What becomes of a collective message before it reaches a task. One of another placement epoch is dropped and counted
(R62); one that a debt expects is charged to it, and no task sees it (R366). A ready is held while fewer than 16,384
are, and stays in its buffer while that many are (R328); a ready leaves its buffer, whose credit goes back, as it is taken
from there (R297). -/
def Obligations.MessagesAreScreened : Prop :=
  ∀ (c : Instr) (port vc kind : Nat) (s : State) (m : Msg), Sound s → collectiveMessage c = some (port, vc, kind) →
    s.frontMsg port vc = some m → hdrKind m.header = kind →
    (hdrEpoch m.header ≠ s.obj oPlacementEpoch →
      ∃ t, exec c s = .next (if kind = 1 then t.freeBuffer port vc else t) ∧
        t.obj oStaleCount = (s.obj oStaleCount + 1) % 2 ^ 64 ∧ (∀ k, k ≠ oStaleCount → t.obj k = s.obj k) ∧
        t.ports = (s.dropFront port m).ports ∧ t.colls = s.colls ∧ t.sched = s.sched ∧ t.mem = s.mem) ∧
    (∀ d, hdrEpoch m.header = s.obj oPlacementEpoch →
      s.debt? kind (readColl m).1 (readColl m).2.rank = some d →
      ∃ t, exec c s = .next (if kind = 1 then t.freeBuffer port vc else t) ∧ t.ports = (s.dropFront port m).ports ∧
        t.colls.tasks = s.colls.tasks ∧ t.colls.readies = s.colls.readies ∧ t.sched = s.sched) ∧
    (kind = 1 → hdrEpoch m.header = s.obj oPlacementEpoch →
      s.debt? 1 (readColl m).1 (readColl m).2.rank = none →
      (s.colls.readies.length < 16384 →
        ∃ t : State, exec c s = .next (t.freeBuffer port vc) ∧
          t.colls.readies = s.colls.readies ++ [⟨(readColl m).1, (readColl m).2.rank⟩] ∧
          t.ports = (s.dropFront port m).ports ∧ t.dict = s.dict ∧ t.sched = s.sched ∧ t.mem = s.mem) ∧
      (16384 ≤ s.colls.readies.length → exec c s = .next s))

/-- A barrier whose release boundary comes ends (R340): its task has worked, the readies of its tag are used, one of each
rank (R328), and it delivers the skew flag it carries. -/
def Obligations.BarriersEnd : Prop :=
  ∀ (r tick : Nat) (s : State) (t : Machine.Task) (q : Coll), Sound s → s.working? r = some t → s.holder? r = some t →
    t.bins = [] → s.coll? r = some q → recKind t.image = 5 → colOp t.image = 8 → q.todo = [] → q.tokens = [] → q.release = some tick → tick ≤ s.tick + 1 →
    q.changed = none → q.overflow = 0 →
    ∃ u, exec (.barrierRelease r) s = .next u ∧ u.task? r = some { t with work := 1 } ∧
      u.obj oCollectiveTasks = (s.obj oCollectiveTasks + 1) % 2 ^ 64 ∧
      u.colls.readies = (s.useReadies (colTag t.image)).colls.readies ∧
      (flag t.image 868 = true → u.colls.skew = (s.colls.skew || flag q.totals.1 0)) ∧
      (flag t.image 868 = false → u.colls.skew = s.colls.skew) ∧
      u.obj oBarrierLate = (if q.late then (s.obj oBarrierLate + 1) % 2 ^ 64 else s.obj oBarrierLate) ∧ u.mem = s.mem ∧
      u.ports = s.ports

/-! ### Late peers, twins, restore and Dusk -/

/-- The deadline of a collective task with absent peers. In strict mode the task faults, PEER_ABSENT is raised, and the
scheduler halts (R364). In lenient mode the task waits for them no longer and goes on, and what they still owe becomes
debts (R365, R366). A Midnight that lacks a peer is abandoned in lenient mode, with result 3 (R362). -/
def Obligations.LatePeers : Prop :=
  ∀ (r : Nat) (s : State) (t : Machine.Task) (q : Coll) (c : CollCtx), Sound s → s.working? r = some t →
    s.holder? r = some t → s.coll? r = some q → c = s.collCtx t → q.begun = true → s.awaited c q ≠ [] → s.deadlineDue t.image = true →
    ((recKind t.image = 5 ∧ q.deadline = false ∨ recKind t.image = 7 ∧ (s.midnightOf r).isSome = true) →
      s.obj oStragglerMode ≠ 1 →
      ∃ u, exec (.contributionDeadline r) s = .next u ∧ u.task? r = some { t with work := 2 } ∧
        u.sched.halt.isSome = true ∧ u.obj oPeerAbsentTasks = (s.obj oPeerAbsentTasks + 1) % 2 ^ 64 ∧
        (∃ e ∈ u.dict.log, e.code = 0x0602 ∧ e.w0 = colTag c.t.image ∧ e.w1 = (s.awaited c q).length ∧
          e.w2 = c.lowest (s.awaited c q) ∧ e.w3 = c.rank (c.lowest (s.awaited c q))) ∧ u.mem = s.mem) ∧
    (recKind t.image = 5 → q.deadline = false → s.obj oStragglerMode = 1 →
      ∃ u q', exec (.contributionDeadline r) s = .next u ∧ u.coll? r = some q' ∧ q'.deadline = true ∧
        q'.absent = s.awaited c q ∧ (∀ p ∈ q'.awaitReduce ++ q'.awaitPlace, p.1 ∉ s.awaited c q) ∧
        s.colls.debts <+: u.colls.debts ∧ u.sched = s.sched ∧ u.mem = s.mem ∧ ∀ k, u.obj k = s.obj k) ∧
    (∀ m, recKind t.image = 7 → s.midnightOf r = some m → s.obj oStragglerMode = 1 →
      ∃ u, exec (.contributionDeadline r) s = .next u ∧ u.task? r = some { t with work := 1 } ∧
        u.resil.midnight = none ∧ u.sched.halt = s.sched.halt ∧
        u.dict.log.getLast? = some ⟨s.obj oEventSeqNext, s.tick, 0x0701, 0x0F, 0, m.seq, m.total, s.tick - m.entryTick, 3, 0⟩)

/-- Messages of the twin. One that is not from the configured twin is rejected and counted (R352). A heartbeat is kept
(R353); bytes of a snapshot go to the slot held for the twin, unless they would pass its end; a fetch is answered with
the bytes of that slot; bytes fetched join the restore under way (R369). Dusk is noted of the peer (R353). -/
def Obligations.TwinMessages : Prop :=
  ∀ (port vc : Nat) (s : State) (m : Msg) (x : TwinMsg), Sound s → s.frontMsg port vc = some m →
    x = ⟨port, hdrParam m.header % 2, m.data⟩ →
    (∀ c kind, twinMessage c = some (port, vc, kind) → hdrKind m.header = kind →
      ¬(s.twinned = true ∧ hdrSource m.header = s.obj oTwinRank) →
      ∃ t, exec c s = .next t ∧ t.obj oTwinRejects = (s.obj oTwinRejects + 1) % 2 ^ 64 ∧
        (∀ k, k ≠ oTwinRejects → t.obj k = s.obj k) ∧ t.resil = s.resil ∧ t.mem = s.mem) ∧
    (s.twinned = true → hdrSource m.header = s.obj oTwinRank →
      (hdrKind m.header = 0x10 →
        ∃ t, exec (.heartbeat port vc) s = .next t ∧ t.obj oTwinState = 1 ∧ t.resil.lastBeat = s.tick ∧
          t.resil.twinTick = x.word 0 ∧ t.resil.twinStep = x.word 1 ∧
          t.obj oHeartbeatsReceived = (s.obj oHeartbeatsReceived + 1) % 2 ^ 64 ∧ t.mem = s.mem) ∧
      (∀ c off bs a, (c = .snapData port vc ∧ hdrKind m.header = 0x11 ∧ off = x.word 0 ∧ bs = m.data.drop 16 ∨
          c = .snapHeader port vc ∧ hdrKind m.header = 0x12 ∧ off = 0 ∧ bs = m.data) →
        a = s.heldSlot x.slot + off →
        (s.slotBytes < off + bs.length → ∃ t, exec c s = .next t ∧
          t.obj oTwinRejects = (s.obj oTwinRejects + 1) % 2 ^ 64 ∧ t.mem = s.mem) ∧
        (off + bs.length ≤ s.slotBytes → bs ≠ [] → a + bs.length ≤ hostWindowBase →
          a % pageBytes + bs.length ≤ pageBytes →
          (entState (s.entry (a / pageBytes)) = 1 ∨ entState (s.entry (a / pageBytes)) = 2) → s.granted 3 2 a = true →
          ∃ t, exec c s = .next t ∧ t.resil = s.resil ∧
            ∀ b, memByte t.mem.cells b =
              if entPhys (s.entry (a / pageBytes)) + a % pageBytes ≤ b ∧
                  b < entPhys (s.entry (a / pageBytes)) + a % pageBytes + bs.length then
                bs.getD (b - (entPhys (s.entry (a / pageBytes)) + a % pageBytes)) 0 else memByte s.mem.cells b)) ∧
      (hdrKind m.header = 0x13 → s.slotBytes < x.word 0 + x.word 1 →
        ∃ t, exec (.fetch port vc) s = .next t ∧ t.obj oTwinRejects = (s.obj oTwinRejects + 1) % 2 ^ 64 ∧
          t.out = s.out ∧ t.mem = s.mem) ∧
      (hdrKind m.header = 0x13 → x.word 0 + x.word 1 ≤ s.slotBytes → ∀ u v head bs,
        (readBytes resilInit .pass (s.heldSlot x.slot) 256).run (s.dropFront port m) = .ok head u →
        (readBytes resilInit .pass (s.heldSlot x.slot + x.word 0) (x.word 1)).run u = .ok bs v →
        exec (.fetch port vc) s = .next (v.twinData x.slot 0x14 (field (ofLe head) 1023 960) (x.word 0) bs)) ∧
      (hdrKind m.header = 0x14 → s.resil.restore = none → exec (.fetchData port vc) s = .next (s.dropFront port m)) ∧
      (∀ r, hdrKind m.header = 0x14 → s.resil.restore = some r → r.source = 0 → r.slot = x.slot →
        ∃ t r', exec (.fetchData port vc) s = .next t ∧ t.resil.restore = some r' ∧ r'.source = 0 ∧ r'.slot = r.slot ∧
          (∀ i b, (m.data.drop 16)[i]? = some b → mapFind r'.got (x.word 0 + i) = some b.toNat) ∧
          (∀ i, (i < x.word 0 ∨ x.word 0 + (m.data.length - 16) ≤ i) → mapFind r'.got i = mapFind r.got i))) ∧
    (hdrKind m.header = 0x15 →
      ∃ t, exec (.dusk port vc) s = .next t ∧ (port < 32 → (t.port port).dusk = true) ∧
        t.obj oTwinState =
          (if s.twinned = true ∧ hdrSource m.header = s.obj oTwinRank then 3 else s.obj oTwinState) ∧
        (∀ k, k ≠ oTwinState → t.obj k = s.obj k) ∧ t.mem = s.mem)

/-- Heartbeats (R353). One goes out in each tick that is a multiple of the interval, with the tick, the job step, the last
snapshot and the scheduler's state. A twin unheard for the timeout is lost: `twin_state` moves and TWIN_LOST is raised. -/
def Obligations.HeartbeatsKeepTwins : Prop :=
  ∀ s : State, Sound s →
    (s.rst.inReset = false → s.twinned = true → s.tick % max (s.obj oHeartbeatIntervalTicks) 1 = 0 →
      s.resil.duskStage < 2 → s.resil.beatSent ≠ some s.tick →
      exec .heartbeatSend s =
        .next ({ s with resil := { s.resil with beatSent := some s.tick } }.sendTwin 2 0 0x10
          (leBytes 8 s.tick ++ leBytes 8 (s.obj oJobStep) ++ leBytes 8 (s.obj oSnapshotSeq) ++
            leBytes 8 (s.obj oSchedulerState)))) ∧
    ((s.twinned = false ∨ s.tick % max (s.obj oHeartbeatIntervalTicks) 1 ≠ 0 ∨ s.resil.beatSent = some s.tick) →
      exec .heartbeatSend s = .next s) ∧
    (s.obj oTwinState = 1 → s.resil.lastBeat + s.obj oHeartbeatTimeoutTicks ≤ s.tick →
      ∃ t, exec .twinLost s = .next t ∧ t.obj oTwinState = 2 ∧
        t.dict.log.getLast? = some ⟨s.obj oEventSeqNext, s.tick, 0x0603, 0x0F, 0, s.obj oTwinRank, s.resil.twinStep,
          s.resil.twinTick, 0, 0⟩ ∧ t.mem = s.mem ∧ t.sched = s.sched) ∧
    ((s.obj oTwinState ≠ 1 ∨ s.tick < s.resil.lastBeat + s.obj oHeartbeatTimeoutTicks) → exec .twinLost s = .next s)

/-- The end of a restore (R369). From a twin that is not alive it ends with status 5; a header that does not pass ends it
with status 3; a restore whose digest matches loads the step, the seed's streams, the cursor and the sequence number, and
arms the replay where one is asked for (one armed before stays armed); in every case no restore is then under way. -/
def Obligations.RestoreEnds : Prop :=
  ∀ s : State, Sound s →
    (s.resil.restore = none → exec .restoreComplete s = .next s) ∧
    (∀ r, s.resil.restore = some r → r.source = 0 → s.obj oTwinState ≠ 1 →
      ∃ t, exec .restoreComplete s = .next t ∧ t.obj oRestoreStatus = 5 ∧ t.resil.restore = none ∧
        (∀ k, k ≠ oRestoreStatus → t.obj k = s.obj k) ∧ t.mem = s.mem) ∧
    (∀ r h, s.resil.restore = some r → r.source = 0 → s.obj oTwinState = 1 → r.bytes 0 256 = some h →
      s.headerOk (ofLe h) = false →
      ∃ t, exec .restoreComplete s = .next t ∧ t.obj oRestoreStatus = 3 ∧ t.resil.restore = none ∧
        (∀ k, k ≠ oRestoreStatus → t.obj k = s.obj k) ∧ t.mem = s.mem) ∧
    (∀ r, s.resil.restore = some r → r.source ≠ 0 →
      ∃ t, exec .restoreComplete s = .next t ∧ t.resil.restore = none ∧ 2 ≤ t.obj oRestoreStatus ∧
        t.obj oRestoreStatus ≤ 5) ∧
    (∀ r h body u, s.resil.restore = some r → r.source ≠ 0 →
      (restoreWork fun off n => readBytes resilInit .pass (s.farSlot r.slot + off) n).run s = .ok (2, some (h, body)) u →
      ∃ t, exec .restoreComplete s = .next t ∧ t.obj oRestoreStatus = 2 ∧ t.obj oJobStep = field h 1087 1024 ∧
        t.obj oSnapshotSeq = field h 1023 960 ∧ t.obj oRestoredCursor = field h 1535 1280 ∧
        t.obj oJobSeed = field h 1663 1536 ∧ t.resil.awaitSeal = none ∧
        t.resil.armed = (u.resil.armed || (u.obj oRestoreReplay == 1 && field h 7 0 == 2)) ∧ t.mem = u.mem)

/-- Dusk (R371, Table 13.8). Once every engine is idle, dirty lines are written back and the dusk messages go; then the
ports stop and are held DOWN. -/
def Obligations.DuskStopsDevice : Prop :=
  ∀ s : State, Sound s →
    (s.resil.duskStage = 1 → s.enginesIdle = true →
      ∃ t, exec .duskIdle s = .next t ∧ t.resil.duskStage = 2 ∧
        (s.resil.dusk ≠ 3 → t.mem.cells = s.mem.cells ∧ (∀ q ∈ t.mem.cache, ∀ l ∈ q.2, l.dirty = false) ∧
          t.sched = s.sched ∧ t.resil = { s.resil with duskStage := 2 })) ∧
    ((s.resil.duskStage ≠ 1 ∨ s.enginesIdle = false) → exec .duskIdle s = .next s) ∧
    (s.resil.duskStage = 2 →
      ∃ t, exec .duskPortStop s = .next t ∧ t.resil.duskStage = 3 ∧ (∀ p, p < 32 → t.link p ≤ 1) ∧ t.mem = s.mem ∧
        t.sched = s.sched) ∧
    (s.resil.duskStage ≠ 2 → exec .duskPortStop s = .next s)

end
end

