-- ==== Sys2Proof/Laws/Maps.lean ====
section
/-! SUPPORT. Maps held as rising lists of pairs: their canonical form, and reading after writing; memory among them. -/

namespace Sys2Proof.Safety

open Sys2Proof.Machine

section Maps

variable {β : Type}

theorem Above.nil {k : Nat} : Above k ([] : List (Nat × β)) := fun _ h => by cases h

theorem Above.cons {k a : Nat} {v : β} {m : List (Nat × β)} (h : k < a) (t : Above k m) : Above k ((a, v) :: m) := by
  intro p hp
  rcases List.mem_cons.1 hp with rfl | hp
  · exact h
  · exact t p hp

theorem Above.mono {k j : Nat} {m : List (Nat × β)} (h : Above k m) (l : j ≤ k) : Above j m :=
  fun p hp => Nat.lt_of_le_of_lt l (h p hp)

theorem mapFind_above {k : Nat} {m : List (Nat × β)} (h : Above k m) {j : Nat} (l : j ≤ k) : mapFind m j = none := by
  induction m with
  | nil => rfl
  | cons q m ih =>
    obtain ⟨a, v⟩ := q
    have ha : k < a := h (a, v) List.mem_cons_self
    have : a ≠ j := by omega
    simp only [mapFind, if_neg this]
    exact ih fun p hp => h p (List.mem_cons_of_mem _ hp)

theorem above_mapErase {k j : Nat} {m : List (Nat × β)} (h : Above j m) : Above j (mapErase m k) := by
  induction m with
  | nil => exact h
  | cons q m ih =>
    obtain ⟨a, v⟩ := q
    have ht : Above j m := fun p hp => h p (List.mem_cons_of_mem _ hp)
    simp only [mapErase]
    split
    · exact ih ht
    · exact Above.cons (h (a, v) List.mem_cons_self) (ih ht)

theorem above_mapInsert {k j : Nat} {v : β} {m : List (Nat × β)} (h : Above j m) (l : j < k) :
    Above j (mapInsert m k v) := by
  induction m with
  | nil => exact Above.cons l Above.nil
  | cons q m ih =>
    obtain ⟨a, w⟩ := q
    have ha : j < a := h (a, w) List.mem_cons_self
    have ht : Above j m := fun p hp => h p (List.mem_cons_of_mem _ hp)
    simp only [mapInsert]
    split
    · exact Above.cons l (Above.cons ha ht)
    · split
      · exact Above.cons l ht
      · exact Above.cons ha (ih ht)

theorem above_filter {j : Nat} {m : List (Nat × β)} {p : Nat × β → Bool} (h : Above j m) : Above j (m.filter p) :=
  fun q hq => h q (List.mem_filter.1 hq).1

theorem rising_mapErase {k : Nat} {m : List (Nat × β)} (h : Rising m) : Rising (mapErase m k) := by
  induction m with
  | nil => exact h
  | cons q m ih =>
    obtain ⟨a, v⟩ := q
    simp only [mapErase]
    split
    · exact ih h.2
    · exact ⟨above_mapErase h.1, ih h.2⟩

theorem rising_mapInsert {k : Nat} {v : β} {m : List (Nat × β)} (h : Rising m) : Rising (mapInsert m k v) := by
  induction m with
  | nil => exact ⟨Above.nil, trivial⟩
  | cons q m ih =>
    obtain ⟨a, w⟩ := q
    simp only [mapInsert]
    split
    · rename_i l
      exact ⟨Above.cons l (h.1.mono (Nat.le_of_lt l)), h⟩
    · split
      · rename_i e
        exact ⟨e ▸ h.1, h.2⟩
      · exact ⟨above_mapInsert h.1 (by simp only; omega), ih h.2⟩

theorem rising_filter {m : List (Nat × β)} {p : Nat × β → Bool} (h : Rising m) : Rising (m.filter p) := by
  induction m with
  | nil => exact h
  | cons q m ih =>
    simp only [List.filter_cons]
    split
    · exact ⟨above_filter h.1, ih h.2⟩
    · exact ih h.2

theorem mapFind_mapInsert {k j : Nat} {v : β} {m : List (Nat × β)} :
    mapFind (mapInsert m k v) j = if j = k then some v else mapFind m j := by
  induction m with
  | nil =>
    simp only [mapInsert, mapFind]
    by_cases e : j = k
    · rw [if_pos e, if_pos e.symm]
    · rw [if_neg e, if_neg (Ne.symm e)]
  | cons q m ih =>
    obtain ⟨a, w⟩ := q
    simp only [mapInsert]
    split
    · simp only [mapFind]
      by_cases e : j = k
      · rw [if_pos e, if_pos e.symm]
      · rw [if_neg e, if_neg (Ne.symm e)]
    · split
      · rename_i e
        subst e
        simp only [mapFind]
        by_cases e : j = k
        · rw [if_pos e, if_pos e.symm]
        · rw [if_neg e, if_neg (Ne.symm e), if_neg (Ne.symm e)]
      · simp only [mapFind]
        by_cases e : a = j
        · have : j ≠ k := by omega
          rw [if_pos e, if_neg this, if_pos e]
        · rw [if_neg e, ih, if_neg e]

theorem mapFind_mapErase {k j : Nat} {m : List (Nat × β)} :
    mapFind (mapErase m k) j = if j = k then none else mapFind m j := by
  induction m with
  | nil => simp [mapErase, mapFind]
  | cons q m ih =>
    obtain ⟨a, w⟩ := q
    simp only [mapErase]
    split
    · rename_i e
      subst e
      rw [ih]
      by_cases e : j = a
      · rw [if_pos e, if_pos e]
      · simp only [mapFind, if_neg e, if_neg (Ne.symm e)]
    · rename_i n
      simp only [mapFind]
      by_cases e : a = j
      · have : j ≠ k := by omega
        rw [if_pos e, if_neg this, if_pos e]
      · rw [if_neg e, ih, if_neg e]

variable [DecidableEq β] {d : β}

/-- The canonical form by head and tail. -/
theorem mapWf_cons {a : Nat} {v : β} {m : List (Nat × β)} :
    mapWf d ((a, v) :: m) = true ↔ v ≠ d ∧ Above a m ∧ mapWf d m = true := by
  induction m generalizing a v with
  | nil =>
    simp only [mapWf, decide_eq_true_eq]
    exact ⟨fun h => ⟨h, Above.nil, trivial⟩, fun h => h.1⟩
  | cons q m ih =>
    obtain ⟨b, w⟩ := q
    simp only [mapWf, Bool.and_eq_true, decide_eq_true_eq]
    constructor
    · rintro ⟨⟨h1, h2⟩, h3⟩
      exact ⟨h1, Above.cons h2 ((ih.1 h3).2.1.mono (Nat.le_of_lt h2)), h3⟩
    · rintro ⟨h1, h2, h3⟩
      exact ⟨⟨h1, h2 (b, w) List.mem_cons_self⟩, h3⟩

/-- Removing a key keeps the canonical form. -/
theorem mapWf_mapErase {k : Nat} {m : List (Nat × β)} (h : mapWf d m = true) : mapWf d (mapErase m k) = true := by
  induction m with
  | nil => exact h
  | cons q m ih =>
    obtain ⟨a, v⟩ := q
    obtain ⟨h1, h2, h3⟩ := mapWf_cons.1 h
    simp only [mapErase]
    split
    · exact ih h3
    · exact mapWf_cons.2 ⟨h1, above_mapErase h2, ih h3⟩

/-- Putting a value other than the default keeps the canonical form. -/
theorem mapWf_mapInsert {k : Nat} {v : β} {m : List (Nat × β)} (h : mapWf d m = true) (hv : v ≠ d) :
    mapWf d (mapInsert m k v) = true := by
  induction m with
  | nil => simpa [mapInsert, mapWf] using hv
  | cons q m ih =>
    obtain ⟨a, w⟩ := q
    obtain ⟨h1, h2, h3⟩ := mapWf_cons.1 h
    simp only [mapInsert]
    split
    · rename_i l
      exact mapWf_cons.2 ⟨hv, Above.cons l (h2.mono (Nat.le_of_lt l)), h⟩
    · split
      · rename_i e
        exact mapWf_cons.2 ⟨hv, e ▸ h2, h3⟩
      · exact mapWf_cons.2 ⟨h1, above_mapInsert h2 (by omega), ih h3⟩

/-- A write keeps the canonical form. -/
theorem mapWf_mapPut {k : Nat} {v : β} {m : List (Nat × β)} (h : mapWf d m = true) : mapWf d (mapPut d m k v) = true := by
  unfold mapPut
  split
  · exact mapWf_mapErase h
  · exact mapWf_mapInsert h ‹_›

/-- Leaving entries out keeps the canonical form. -/
theorem mapWf_filter {m : List (Nat × β)} {p : Nat × β → Bool} (h : mapWf d m = true) : mapWf d (m.filter p) = true := by
  induction m with
  | nil => exact h
  | cons q m ih =>
    obtain ⟨a, v⟩ := q
    obtain ⟨h1, h2, h3⟩ := mapWf_cons.1 h
    simp only [List.filter_cons]
    split
    · exact mapWf_cons.2 ⟨h1, above_filter h2, ih h3⟩
    · exact ih h3

theorem rising_of_mapWf {m : List (Nat × β)} (h : mapWf d m = true) : Rising m := by
  induction m with
  | nil => trivial
  | cons q m ih =>
    obtain ⟨-, h2, h3⟩ := mapWf_cons.1 h
    exact ⟨h2, ih h3⟩

theorem rising_mapPut {k : Nat} {v : β} {m : List (Nat × β)} (h : Rising m) : Rising (mapPut d m k v) := by
  unfold mapPut
  split
  · exact rising_mapErase h
  · exact rising_mapInsert h

/-! ### Reading after writing -/

/-- What a key reads as after a write: the value written there, what it read before elsewhere. -/
theorem mapGet_mapPut {k j : Nat} {v : β} {m : List (Nat × β)} :
    mapGet d (mapPut d m k v) j = if j = k then v else mapGet d m j := by
  unfold mapGet mapPut
  split
  · rename_i e
    rw [mapFind_mapErase]
    split
    · simp [e]
    · rfl
  · rw [mapFind_mapInsert]
    split <;> rfl

/-- Any map reads as written at the key written. -/
theorem mapGet_mapPut_self {k : Nat} {v : β} {m : List (Nat × β)} (h : v ≠ d) : mapGet d (mapPut d m k v) k = v := by
  unfold mapGet mapPut
  rw [if_neg h, mapFind_mapInsert, if_pos rfl]
  rfl

/-- Any map reads as before at other keys, when what is written is not the default. -/
theorem mapGet_mapPut_ne {k j : Nat} {v : β} {m : List (Nat × β)} (h : v ≠ d) (n : j ≠ k) :
    mapGet d (mapPut d m k v) j = mapGet d m j := by
  unfold mapGet mapPut
  rw [if_neg h, mapFind_mapInsert, if_neg n]

end Maps

/-! ### Objects -/

/-- An object after one was set. -/
theorem obj_setObj {s : State} {key k v : Nat} (_ : Rising s.dict.objs) :
    (s.setObj key v).obj k = if k = key then v else s.obj k := by
  show (mapFind (mapPut (objDefault key) s.dict.objs key v) k).getD (objDefault k) = _
  by_cases e : k = key
  · subst e
    rw [if_pos rfl]
    exact (mapGet_mapPut (d := objDefault k)).trans (if_pos rfl)
  · rw [if_neg e]
    unfold mapPut State.obj
    split
    · rw [mapFind_mapErase, if_neg e]
    · rw [mapFind_mapInsert, if_neg e]

theorem obj_setObj_ne {s : State} {key k v : Nat} (h : Rising s.dict.objs) (n : k ≠ key) :
    (s.setObj key v).obj k = s.obj k := by
  rw [obj_setObj h, if_neg n]

/-! ### Memory -/

/-- A byte after a byte was written. -/
theorem memByte_memPut {m : List Host.Cell} {a x : Nat} {b : Byte} :
    memByte (memPut m a b) x = if x = a then b else memByte m x :=
  mapGet_mapPut

/-- Writing a byte keeps memory canonical. -/
theorem memWf_memPut {m : List Host.Cell} {a : Nat} {b : Byte} (h : memWf m = true) : memWf (memPut m a b) = true :=
  mapWf_mapPut h

/-- Writing bytes keeps memory canonical. -/
theorem memWf_memPutAll {m : List Host.Cell} {a : Nat} {bs : List Byte} (h : memWf m = true) :
    memWf (memPutAll m a bs) = true := by
  induction bs generalizing m a with
  | nil => exact h
  | cons b bs ih => exact ih (memWf_memPut h)

/-- Clearing a range keeps memory canonical. -/
theorem memWf_memClear {m : List Host.Cell} {lo hi : Nat} (h : memWf m = true) : memWf (memClear m lo hi) = true :=
  mapWf_filter h

/-- Writes one after another keep memory canonical. -/
theorem memWf_foldl {α : Type} {f : α → Nat} {g : α → Byte} {l : List α} {m : List Host.Cell} (h : memWf m = true) :
    memWf (l.foldl (fun m x => memPut m (f x) (g x)) m) = true := by
  induction l generalizing m with
  | nil => exact h
  | cons a l ih => exact ih (memWf_memPut h)

/-- A byte after bytes were written: the byte written there, inside their range; what it was, outside. -/
theorem memByte_memPutAll {m : List Host.Cell} {a x : Nat} {bs : List Byte} :
    memByte (memPutAll m a bs) x = if a ≤ x ∧ x < a + bs.length then bs.getD (x - a) 0 else memByte m x := by
  induction bs generalizing m a with
  | nil =>
    have : ¬ (a ≤ x ∧ x < a + 0) := by omega
    simp only [memPutAll, List.length_nil, if_neg this]
  | cons b bs ih =>
    simp only [memPutAll, List.length_cons]
    rw [ih, memByte_memPut]
    by_cases e : x = a
    · subst e
      have h1 : ¬ (x + 1 ≤ x ∧ x < x + 1 + bs.length) := by omega
      have h2 : x ≤ x ∧ x < x + (bs.length + 1) := by omega
      rw [if_neg h1, if_pos rfl, if_pos h2]
      simp
    · by_cases l : a + 1 ≤ x ∧ x < a + 1 + bs.length
      · have h2 : a ≤ x ∧ x < a + (bs.length + 1) := by omega
        rw [if_pos l, if_pos h2]
        have : x - a = (x - (a + 1)) + 1 := by omega
        rw [this, List.getD_cons_succ]
      · have h2 : ¬ (a ≤ x ∧ x < a + (bs.length + 1)) := by omega
        rw [if_neg l, if_neg e, if_neg h2]

end Sys2Proof.Safety
end

