-- ==== Sys2Proof/Laws/State.lean ====
section
/-! SUPPORT. What each plain update of the state leaves in every field: true by unfolding, so that no proof unfolds a
record update. -/

namespace Sys2Proof.Machine

/-! ### setObj -/

@[simp] theorem State.setObj_pending (s : State) (k v : Nat) : (s.setObj k v).pending = s.pending := rfl
@[simp] theorem State.setObj_out (s : State) (k v : Nat) : (s.setObj k v).out = s.out := rfl
@[simp] theorem State.setObj_freeCtr (s : State) (k v : Nat) : (s.setObj k v).freeCtr = s.freeCtr := rfl
@[simp] theorem State.setObj_dict_objs (s : State) (k v : Nat) :
    (s.setObj k v).dict.objs = mapPut (objDefault k) s.dict.objs k v := rfl
@[simp] theorem State.setObj_dict_pend (s : State) (k v : Nat) : (s.setObj k v).dict.pend = s.dict.pend := rfl
@[simp] theorem State.setObj_dict_committed (s : State) (k v : Nat) : (s.setObj k v).dict.committed = s.dict.committed := rfl
@[simp] theorem State.setObj_dict_window (s : State) (k v : Nat) : (s.setObj k v).dict.window = s.dict.window := rfl
@[simp] theorem State.setObj_dict_assemblies (s : State) (k v : Nat) : (s.setObj k v).dict.assemblies = s.dict.assemblies := rfl
@[simp] theorem State.setObj_dict_log (s : State) (k v : Nat) : (s.setObj k v).dict.log = s.dict.log := rfl
@[simp] theorem State.setObj_dict_eventCounts (s : State) (k v : Nat) : (s.setObj k v).dict.eventCounts = s.dict.eventCounts := rfl
@[simp] theorem State.setObj_dict_tickEvents (s : State) (k v : Nat) : (s.setObj k v).dict.tickEvents = s.dict.tickEvents := rfl
@[simp] theorem State.setObj_dict_kept (s : State) (k v : Nat) : (s.setObj k v).dict.kept = s.dict.kept := rfl
@[simp] theorem State.setObj_dict_eventSeq (s : State) (k v : Nat) : (s.setObj k v).dict.eventSeq = s.dict.eventSeq := rfl
@[simp] theorem State.setObj_dict_outstanding (s : State) (k v : Nat) : (s.setObj k v).dict.outstanding = s.dict.outstanding := rfl
@[simp] theorem State.setObj_dict_msixTable (s : State) (k v : Nat) : (s.setObj k v).dict.msixTable = s.dict.msixTable := rfl
@[simp] theorem State.setObj_dict_msixPending (s : State) (k v : Nat) : (s.setObj k v).dict.msixPending = s.dict.msixPending := rfl
@[simp] theorem State.setObj_dict_msixConds (s : State) (k v : Nat) : (s.setObj k v).dict.msixConds = s.dict.msixConds := rfl
@[simp] theorem State.setObj_sched (s : State) (k v : Nat) : (s.setObj k v).sched = s.sched := rfl
@[simp] theorem State.setObj_num (s : State) (k v : Nat) : (s.setObj k v).num = s.num := rfl
@[simp] theorem State.setObj_mem (s : State) (k v : Nat) : (s.setObj k v).mem = s.mem := rfl
@[simp] theorem State.setObj_ports (s : State) (k v : Nat) : (s.setObj k v).ports = s.ports := rfl
@[simp] theorem State.setObj_timing (s : State) (k v : Nat) : (s.setObj k v).timing = s.timing := rfl
@[simp] theorem State.setObj_colls (s : State) (k v : Nat) : (s.setObj k v).colls = s.colls := rfl
@[simp] theorem State.setObj_sec (s : State) (k v : Nat) : (s.setObj k v).sec = s.sec := rfl
@[simp] theorem State.setObj_rst (s : State) (k v : Nat) : (s.setObj k v).rst = s.rst := rfl
@[simp] theorem State.setObj_far (s : State) (k v : Nat) : (s.setObj k v).far = s.far := rfl
@[simp] theorem State.setObj_resil (s : State) (k v : Nat) : (s.setObj k v).resil = s.resil := rfl

/-! ### setPend -/

@[simp] theorem State.setPend_pending (s : State) (k v : Nat) : (s.setPend k v).pending = s.pending := rfl
@[simp] theorem State.setPend_out (s : State) (k v : Nat) : (s.setPend k v).out = s.out := rfl
@[simp] theorem State.setPend_freeCtr (s : State) (k v : Nat) : (s.setPend k v).freeCtr = s.freeCtr := rfl
@[simp] theorem State.setPend_dict_objs (s : State) (k v : Nat) : (s.setPend k v).dict.objs = s.dict.objs := rfl
@[simp] theorem State.setPend_dict_pend (s : State) (k v : Nat) :
    (s.setPend k v).dict.pend = mapPut (objDefault k) s.dict.pend k v := rfl
@[simp] theorem State.setPend_dict_committed (s : State) (k v : Nat) : (s.setPend k v).dict.committed = s.dict.committed := rfl
@[simp] theorem State.setPend_dict_window (s : State) (k v : Nat) : (s.setPend k v).dict.window = s.dict.window := rfl
@[simp] theorem State.setPend_dict_assemblies (s : State) (k v : Nat) : (s.setPend k v).dict.assemblies = s.dict.assemblies := rfl
@[simp] theorem State.setPend_dict_log (s : State) (k v : Nat) : (s.setPend k v).dict.log = s.dict.log := rfl
@[simp] theorem State.setPend_dict_eventCounts (s : State) (k v : Nat) : (s.setPend k v).dict.eventCounts = s.dict.eventCounts := rfl
@[simp] theorem State.setPend_dict_tickEvents (s : State) (k v : Nat) : (s.setPend k v).dict.tickEvents = s.dict.tickEvents := rfl
@[simp] theorem State.setPend_dict_kept (s : State) (k v : Nat) : (s.setPend k v).dict.kept = s.dict.kept := rfl
@[simp] theorem State.setPend_dict_eventSeq (s : State) (k v : Nat) : (s.setPend k v).dict.eventSeq = s.dict.eventSeq := rfl
@[simp] theorem State.setPend_dict_outstanding (s : State) (k v : Nat) : (s.setPend k v).dict.outstanding = s.dict.outstanding := rfl
@[simp] theorem State.setPend_dict_msixTable (s : State) (k v : Nat) : (s.setPend k v).dict.msixTable = s.dict.msixTable := rfl
@[simp] theorem State.setPend_dict_msixPending (s : State) (k v : Nat) : (s.setPend k v).dict.msixPending = s.dict.msixPending := rfl
@[simp] theorem State.setPend_dict_msixConds (s : State) (k v : Nat) : (s.setPend k v).dict.msixConds = s.dict.msixConds := rfl
@[simp] theorem State.setPend_sched (s : State) (k v : Nat) : (s.setPend k v).sched = s.sched := rfl
@[simp] theorem State.setPend_num (s : State) (k v : Nat) : (s.setPend k v).num = s.num := rfl
@[simp] theorem State.setPend_mem (s : State) (k v : Nat) : (s.setPend k v).mem = s.mem := rfl
@[simp] theorem State.setPend_ports (s : State) (k v : Nat) : (s.setPend k v).ports = s.ports := rfl
@[simp] theorem State.setPend_timing (s : State) (k v : Nat) : (s.setPend k v).timing = s.timing := rfl
@[simp] theorem State.setPend_colls (s : State) (k v : Nat) : (s.setPend k v).colls = s.colls := rfl
@[simp] theorem State.setPend_sec (s : State) (k v : Nat) : (s.setPend k v).sec = s.sec := rfl
@[simp] theorem State.setPend_rst (s : State) (k v : Nat) : (s.setPend k v).rst = s.rst := rfl
@[simp] theorem State.setPend_far (s : State) (k v : Nat) : (s.setPend k v).far = s.far := rfl
@[simp] theorem State.setPend_resil (s : State) (k v : Nat) : (s.setPend k v).resil = s.resil := rfl
@[simp] theorem State.setPend_obj (s : State) (k v : Nat) (j : Nat) : (s.setPend k v).obj j = s.obj j := rfl

/-! ### emit -/

@[simp] theorem State.emit_pending (s : State) (o : Out) : (s.emit o).pending = s.pending := rfl
@[simp] theorem State.emit_out (s : State) (o : Out) : (s.emit o).out = s.out ++ [o] := rfl
@[simp] theorem State.emit_freeCtr (s : State) (o : Out) : (s.emit o).freeCtr = s.freeCtr := rfl
@[simp] theorem State.emit_dict (s : State) (o : Out) : (s.emit o).dict = s.dict := rfl
@[simp] theorem State.emit_sched (s : State) (o : Out) : (s.emit o).sched = s.sched := rfl
@[simp] theorem State.emit_num (s : State) (o : Out) : (s.emit o).num = s.num := rfl
@[simp] theorem State.emit_mem (s : State) (o : Out) : (s.emit o).mem = s.mem := rfl
@[simp] theorem State.emit_ports (s : State) (o : Out) : (s.emit o).ports = s.ports := rfl
@[simp] theorem State.emit_timing (s : State) (o : Out) : (s.emit o).timing = s.timing := rfl
@[simp] theorem State.emit_colls (s : State) (o : Out) : (s.emit o).colls = s.colls := rfl
@[simp] theorem State.emit_sec (s : State) (o : Out) : (s.emit o).sec = s.sec := rfl
@[simp] theorem State.emit_rst (s : State) (o : Out) : (s.emit o).rst = s.rst := rfl
@[simp] theorem State.emit_far (s : State) (o : Out) : (s.emit o).far = s.far := rfl
@[simp] theorem State.emit_resil (s : State) (o : Out) : (s.emit o).resil = s.resil := rfl
@[simp] theorem State.emit_obj (s : State) (o : Out) (j : Nat) : (s.emit o).obj j = s.obj j := rfl

/-! ### takeFree -/

@[simp] theorem State.takeFree_pending (s : State) (w : Nat) : (State.takeFree w s).2.pending = s.pending := rfl
@[simp] theorem State.takeFree_out (s : State) (w : Nat) : (State.takeFree w s).2.out = s.out := rfl
@[simp] theorem State.takeFree_freeCtr (s : State) (w : Nat) : (State.takeFree w s).2.freeCtr = s.freeCtr + 1 := rfl
@[simp] theorem State.takeFree_dict (s : State) (w : Nat) : (State.takeFree w s).2.dict = s.dict := rfl
@[simp] theorem State.takeFree_sched (s : State) (w : Nat) : (State.takeFree w s).2.sched = s.sched := rfl
@[simp] theorem State.takeFree_num (s : State) (w : Nat) : (State.takeFree w s).2.num = s.num := rfl
@[simp] theorem State.takeFree_mem (s : State) (w : Nat) : (State.takeFree w s).2.mem = s.mem := rfl
@[simp] theorem State.takeFree_ports (s : State) (w : Nat) : (State.takeFree w s).2.ports = s.ports := rfl
@[simp] theorem State.takeFree_timing (s : State) (w : Nat) : (State.takeFree w s).2.timing = s.timing := rfl
@[simp] theorem State.takeFree_colls (s : State) (w : Nat) : (State.takeFree w s).2.colls = s.colls := rfl
@[simp] theorem State.takeFree_sec (s : State) (w : Nat) : (State.takeFree w s).2.sec = s.sec := rfl
@[simp] theorem State.takeFree_rst (s : State) (w : Nat) : (State.takeFree w s).2.rst = s.rst := rfl
@[simp] theorem State.takeFree_far (s : State) (w : Nat) : (State.takeFree w s).2.far = s.far := rfl
@[simp] theorem State.takeFree_resil (s : State) (w : Nat) : (State.takeFree w s).2.resil = s.resil := rfl
@[simp] theorem State.takeFree_obj (s : State) (w : Nat) (j : Nat) : (State.takeFree w s).2.obj j = s.obj j := rfl

/-! ### armVector -/

@[simp] theorem State.armVector_pending (s : State) (v : Nat) : (s.armVector v).pending = s.pending := rfl
@[simp] theorem State.armVector_out (s : State) (v : Nat) : (s.armVector v).out = s.out := rfl
@[simp] theorem State.armVector_freeCtr (s : State) (v : Nat) : (s.armVector v).freeCtr = s.freeCtr := rfl
@[simp] theorem State.armVector_dict_objs (s : State) (v : Nat) : (s.armVector v).dict.objs = s.dict.objs := rfl
@[simp] theorem State.armVector_dict_pend (s : State) (v : Nat) : (s.armVector v).dict.pend = s.dict.pend := rfl
@[simp] theorem State.armVector_dict_committed (s : State) (v : Nat) : (s.armVector v).dict.committed = s.dict.committed := rfl
@[simp] theorem State.armVector_dict_window (s : State) (v : Nat) : (s.armVector v).dict.window = s.dict.window := rfl
@[simp] theorem State.armVector_dict_assemblies (s : State) (v : Nat) : (s.armVector v).dict.assemblies = s.dict.assemblies := rfl
@[simp] theorem State.armVector_dict_log (s : State) (v : Nat) : (s.armVector v).dict.log = s.dict.log := rfl
@[simp] theorem State.armVector_dict_eventCounts (s : State) (v : Nat) : (s.armVector v).dict.eventCounts = s.dict.eventCounts := rfl
@[simp] theorem State.armVector_dict_tickEvents (s : State) (v : Nat) : (s.armVector v).dict.tickEvents = s.dict.tickEvents := rfl
@[simp] theorem State.armVector_dict_kept (s : State) (v : Nat) : (s.armVector v).dict.kept = s.dict.kept := rfl
@[simp] theorem State.armVector_dict_eventSeq (s : State) (v : Nat) : (s.armVector v).dict.eventSeq = s.dict.eventSeq := rfl
@[simp] theorem State.armVector_dict_outstanding (s : State) (v : Nat) : (s.armVector v).dict.outstanding = s.dict.outstanding := rfl
@[simp] theorem State.armVector_dict_msixTable (s : State) (v : Nat) : (s.armVector v).dict.msixTable = s.dict.msixTable := rfl
@[simp] theorem State.armVector_dict_msixPending (s : State) (v : Nat) : (s.armVector v).dict.msixPending = s.dict.msixPending := rfl
@[simp] theorem State.armVector_dict_msixConds (s : State) (v : Nat) :
    (s.armVector v).dict.msixConds = s.dict.msixConds ||| (1 <<< v) := rfl
@[simp] theorem State.armVector_sched (s : State) (v : Nat) : (s.armVector v).sched = s.sched := rfl
@[simp] theorem State.armVector_num (s : State) (v : Nat) : (s.armVector v).num = s.num := rfl
@[simp] theorem State.armVector_mem (s : State) (v : Nat) : (s.armVector v).mem = s.mem := rfl
@[simp] theorem State.armVector_ports (s : State) (v : Nat) : (s.armVector v).ports = s.ports := rfl
@[simp] theorem State.armVector_timing (s : State) (v : Nat) : (s.armVector v).timing = s.timing := rfl
@[simp] theorem State.armVector_colls (s : State) (v : Nat) : (s.armVector v).colls = s.colls := rfl
@[simp] theorem State.armVector_sec (s : State) (v : Nat) : (s.armVector v).sec = s.sec := rfl
@[simp] theorem State.armVector_rst (s : State) (v : Nat) : (s.armVector v).rst = s.rst := rfl
@[simp] theorem State.armVector_far (s : State) (v : Nat) : (s.armVector v).far = s.far := rfl
@[simp] theorem State.armVector_resil (s : State) (v : Nat) : (s.armVector v).resil = s.resil := rfl
@[simp] theorem State.armVector_obj (s : State) (v : Nat) (j : Nat) : (s.armVector v).obj j = s.obj j := rfl

/-! ### setTickEvent -/

@[simp] theorem State.setTickEvent_pending (s : State) (e : EventRec) : (s.setTickEvent e).pending = s.pending := rfl
@[simp] theorem State.setTickEvent_out (s : State) (e : EventRec) : (s.setTickEvent e).out = s.out := rfl
@[simp] theorem State.setTickEvent_freeCtr (s : State) (e : EventRec) : (s.setTickEvent e).freeCtr = s.freeCtr := rfl
@[simp] theorem State.setTickEvent_dict_objs (s : State) (e : EventRec) : (s.setTickEvent e).dict.objs = s.dict.objs := rfl
@[simp] theorem State.setTickEvent_dict_pend (s : State) (e : EventRec) : (s.setTickEvent e).dict.pend = s.dict.pend := rfl
@[simp] theorem State.setTickEvent_dict_committed (s : State) (e : EventRec) : (s.setTickEvent e).dict.committed = s.dict.committed := rfl
@[simp] theorem State.setTickEvent_dict_window (s : State) (e : EventRec) : (s.setTickEvent e).dict.window = s.dict.window := rfl
@[simp] theorem State.setTickEvent_dict_assemblies (s : State) (e : EventRec) : (s.setTickEvent e).dict.assemblies = s.dict.assemblies := rfl
@[simp] theorem State.setTickEvent_dict_log (s : State) (e : EventRec) : (s.setTickEvent e).dict.log = s.dict.log := rfl
@[simp] theorem State.setTickEvent_dict_eventCounts (s : State) (e : EventRec) : (s.setTickEvent e).dict.eventCounts = s.dict.eventCounts := rfl
@[simp] theorem State.setTickEvent_dict_tickEvents (s : State) (e : EventRec) :
    (s.setTickEvent e).dict.tickEvents = s.dict.tickEvents.filter (·.code != e.code) ++ [e] := rfl
@[simp] theorem State.setTickEvent_dict_kept (s : State) (e : EventRec) : (s.setTickEvent e).dict.kept = s.dict.kept := rfl
@[simp] theorem State.setTickEvent_dict_eventSeq (s : State) (e : EventRec) : (s.setTickEvent e).dict.eventSeq = s.dict.eventSeq := rfl
@[simp] theorem State.setTickEvent_dict_outstanding (s : State) (e : EventRec) : (s.setTickEvent e).dict.outstanding = s.dict.outstanding := rfl
@[simp] theorem State.setTickEvent_dict_msixTable (s : State) (e : EventRec) : (s.setTickEvent e).dict.msixTable = s.dict.msixTable := rfl
@[simp] theorem State.setTickEvent_dict_msixPending (s : State) (e : EventRec) : (s.setTickEvent e).dict.msixPending = s.dict.msixPending := rfl
@[simp] theorem State.setTickEvent_dict_msixConds (s : State) (e : EventRec) : (s.setTickEvent e).dict.msixConds = s.dict.msixConds := rfl
@[simp] theorem State.setTickEvent_sched (s : State) (e : EventRec) : (s.setTickEvent e).sched = s.sched := rfl
@[simp] theorem State.setTickEvent_num (s : State) (e : EventRec) : (s.setTickEvent e).num = s.num := rfl
@[simp] theorem State.setTickEvent_mem (s : State) (e : EventRec) : (s.setTickEvent e).mem = s.mem := rfl
@[simp] theorem State.setTickEvent_ports (s : State) (e : EventRec) : (s.setTickEvent e).ports = s.ports := rfl
@[simp] theorem State.setTickEvent_timing (s : State) (e : EventRec) : (s.setTickEvent e).timing = s.timing := rfl
@[simp] theorem State.setTickEvent_colls (s : State) (e : EventRec) : (s.setTickEvent e).colls = s.colls := rfl
@[simp] theorem State.setTickEvent_sec (s : State) (e : EventRec) : (s.setTickEvent e).sec = s.sec := rfl
@[simp] theorem State.setTickEvent_rst (s : State) (e : EventRec) : (s.setTickEvent e).rst = s.rst := rfl
@[simp] theorem State.setTickEvent_far (s : State) (e : EventRec) : (s.setTickEvent e).far = s.far := rfl
@[simp] theorem State.setTickEvent_resil (s : State) (e : EventRec) : (s.setTickEvent e).resil = s.resil := rfl
@[simp] theorem State.setTickEvent_obj (s : State) (e : EventRec) (j : Nat) : (s.setTickEvent e).obj j = s.obj j := rfl

/-! ### setTask -/

@[simp] theorem State.setTask_pending (s : State) (t : Task) : (s.setTask t).pending = s.pending := rfl
@[simp] theorem State.setTask_out (s : State) (t : Task) : (s.setTask t).out = s.out := rfl
@[simp] theorem State.setTask_freeCtr (s : State) (t : Task) : (s.setTask t).freeCtr = s.freeCtr := rfl
@[simp] theorem State.setTask_dict (s : State) (t : Task) : (s.setTask t).dict = s.dict := rfl
@[simp] theorem State.setTask_sched_outcomes (s : State) (t : Task) : (s.setTask t).sched.outcomes = s.sched.outcomes := rfl
@[simp] theorem State.setTask_sched_counters (s : State) (t : Task) : (s.setTask t).sched.counters = s.sched.counters := rfl
@[simp] theorem State.setTask_sched_credits (s : State) (t : Task) : (s.setTask t).sched.credits = s.sched.credits := rfl
@[simp] theorem State.setTask_sched_tasks (s : State) (t : Task) :
    (s.setTask t).sched.tasks = s.sched.tasks.map fun u => if u.record = t.record then t else u := rfl
@[simp] theorem State.setTask_sched_halt (s : State) (t : Task) : (s.setTask t).sched.halt = s.sched.halt := rfl
@[simp] theorem State.setTask_sched_slipped (s : State) (t : Task) : (s.setTask t).sched.slipped = s.sched.slipped := rfl
@[simp] theorem State.setTask_sched_activeSteps (s : State) (t : Task) : (s.setTask t).sched.activeSteps = s.sched.activeSteps := rfl
@[simp] theorem State.setTask_sched_freshProgram (s : State) (t : Task) : (s.setTask t).sched.freshProgram = s.sched.freshProgram := rfl
@[simp] theorem State.setTask_sched_startAsked (s : State) (t : Task) : (s.setTask t).sched.startAsked = s.sched.startAsked := rfl
@[simp] theorem State.setTask_sched_rewritten (s : State) (t : Task) : (s.setTask t).sched.rewritten = s.sched.rewritten := rfl
@[simp] theorem State.setTask_sched_periodNext (s : State) (t : Task) : (s.setTask t).sched.periodNext = s.sched.periodNext := rfl
@[simp] theorem State.setTask_sched_boundaryAclk (s : State) (t : Task) : (s.setTask t).sched.boundaryAclk = s.sched.boundaryAclk := rfl
@[simp] theorem State.setTask_sched_tickLength (s : State) (t : Task) : (s.setTask t).sched.tickLength = s.sched.tickLength := rfl
@[simp] theorem State.setTask_sched_fallback (s : State) (t : Task) : (s.setTask t).sched.fallback = s.sched.fallback := rfl
@[simp] theorem State.setTask_num (s : State) (t : Task) : (s.setTask t).num = s.num := rfl
@[simp] theorem State.setTask_mem (s : State) (t : Task) : (s.setTask t).mem = s.mem := rfl
@[simp] theorem State.setTask_ports (s : State) (t : Task) : (s.setTask t).ports = s.ports := rfl
@[simp] theorem State.setTask_timing (s : State) (t : Task) : (s.setTask t).timing = s.timing := rfl
@[simp] theorem State.setTask_colls (s : State) (t : Task) : (s.setTask t).colls = s.colls := rfl
@[simp] theorem State.setTask_sec (s : State) (t : Task) : (s.setTask t).sec = s.sec := rfl
@[simp] theorem State.setTask_rst (s : State) (t : Task) : (s.setTask t).rst = s.rst := rfl
@[simp] theorem State.setTask_far (s : State) (t : Task) : (s.setTask t).far = s.far := rfl
@[simp] theorem State.setTask_resil (s : State) (t : Task) : (s.setTask t).resil = s.resil := rfl
@[simp] theorem State.setTask_obj (s : State) (t : Task) (j : Nat) : (s.setTask t).obj j = s.obj j := rfl

/-! ### setOutcome -/

@[simp] theorem State.setOutcome_pending (s : State) (i v : Nat) : (s.setOutcome i v).pending = s.pending := rfl
@[simp] theorem State.setOutcome_out (s : State) (i v : Nat) : (s.setOutcome i v).out = s.out := rfl
@[simp] theorem State.setOutcome_freeCtr (s : State) (i v : Nat) : (s.setOutcome i v).freeCtr = s.freeCtr := rfl
@[simp] theorem State.setOutcome_dict (s : State) (i v : Nat) : (s.setOutcome i v).dict = s.dict := rfl
@[simp] theorem State.setOutcome_sched_counters (s : State) (i v : Nat) : (s.setOutcome i v).sched.counters = s.sched.counters := rfl
@[simp] theorem State.setOutcome_sched_credits (s : State) (i v : Nat) : (s.setOutcome i v).sched.credits = s.sched.credits := rfl
@[simp] theorem State.setOutcome_sched_tasks (s : State) (i v : Nat) : (s.setOutcome i v).sched.tasks = s.sched.tasks := rfl
@[simp] theorem State.setOutcome_sched_halt (s : State) (i v : Nat) : (s.setOutcome i v).sched.halt = s.sched.halt := rfl
@[simp] theorem State.setOutcome_sched_slipped (s : State) (i v : Nat) : (s.setOutcome i v).sched.slipped = s.sched.slipped := rfl
@[simp] theorem State.setOutcome_sched_activeSteps (s : State) (i v : Nat) : (s.setOutcome i v).sched.activeSteps = s.sched.activeSteps := rfl
@[simp] theorem State.setOutcome_sched_freshProgram (s : State) (i v : Nat) : (s.setOutcome i v).sched.freshProgram = s.sched.freshProgram := rfl
@[simp] theorem State.setOutcome_sched_startAsked (s : State) (i v : Nat) : (s.setOutcome i v).sched.startAsked = s.sched.startAsked := rfl
@[simp] theorem State.setOutcome_sched_rewritten (s : State) (i v : Nat) : (s.setOutcome i v).sched.rewritten = s.sched.rewritten := rfl
@[simp] theorem State.setOutcome_sched_periodNext (s : State) (i v : Nat) : (s.setOutcome i v).sched.periodNext = s.sched.periodNext := rfl
@[simp] theorem State.setOutcome_sched_boundaryAclk (s : State) (i v : Nat) : (s.setOutcome i v).sched.boundaryAclk = s.sched.boundaryAclk := rfl
@[simp] theorem State.setOutcome_sched_tickLength (s : State) (i v : Nat) : (s.setOutcome i v).sched.tickLength = s.sched.tickLength := rfl
@[simp] theorem State.setOutcome_sched_fallback (s : State) (i v : Nat) : (s.setOutcome i v).sched.fallback = s.sched.fallback := rfl
@[simp] theorem State.setOutcome_num (s : State) (i v : Nat) : (s.setOutcome i v).num = s.num := rfl
@[simp] theorem State.setOutcome_mem (s : State) (i v : Nat) : (s.setOutcome i v).mem = s.mem := rfl
@[simp] theorem State.setOutcome_ports (s : State) (i v : Nat) : (s.setOutcome i v).ports = s.ports := rfl
@[simp] theorem State.setOutcome_timing (s : State) (i v : Nat) : (s.setOutcome i v).timing = s.timing := rfl
@[simp] theorem State.setOutcome_colls (s : State) (i v : Nat) : (s.setOutcome i v).colls = s.colls := rfl
@[simp] theorem State.setOutcome_sec (s : State) (i v : Nat) : (s.setOutcome i v).sec = s.sec := rfl
@[simp] theorem State.setOutcome_rst (s : State) (i v : Nat) : (s.setOutcome i v).rst = s.rst := rfl
@[simp] theorem State.setOutcome_far (s : State) (i v : Nat) : (s.setOutcome i v).far = s.far := rfl
@[simp] theorem State.setOutcome_resil (s : State) (i v : Nat) : (s.setOutcome i v).resil = s.resil := rfl
@[simp] theorem State.setOutcome_obj (s : State) (i v : Nat) (j : Nat) : (s.setOutcome i v).obj j = s.obj j := rfl

/-! ### setCredit -/

@[simp] theorem State.setCredit_pending (s : State) (q v : Nat) : (s.setCredit q v).pending = s.pending := rfl
@[simp] theorem State.setCredit_out (s : State) (q v : Nat) : (s.setCredit q v).out = s.out := rfl
@[simp] theorem State.setCredit_freeCtr (s : State) (q v : Nat) : (s.setCredit q v).freeCtr = s.freeCtr := rfl
@[simp] theorem State.setCredit_dict (s : State) (q v : Nat) : (s.setCredit q v).dict = s.dict := rfl
@[simp] theorem State.setCredit_sched_outcomes (s : State) (q v : Nat) : (s.setCredit q v).sched.outcomes = s.sched.outcomes := rfl
@[simp] theorem State.setCredit_sched_counters (s : State) (q v : Nat) : (s.setCredit q v).sched.counters = s.sched.counters := rfl
@[simp] theorem State.setCredit_sched_tasks (s : State) (q v : Nat) : (s.setCredit q v).sched.tasks = s.sched.tasks := rfl
@[simp] theorem State.setCredit_sched_halt (s : State) (q v : Nat) : (s.setCredit q v).sched.halt = s.sched.halt := rfl
@[simp] theorem State.setCredit_sched_slipped (s : State) (q v : Nat) : (s.setCredit q v).sched.slipped = s.sched.slipped := rfl
@[simp] theorem State.setCredit_sched_activeSteps (s : State) (q v : Nat) : (s.setCredit q v).sched.activeSteps = s.sched.activeSteps := rfl
@[simp] theorem State.setCredit_sched_freshProgram (s : State) (q v : Nat) : (s.setCredit q v).sched.freshProgram = s.sched.freshProgram := rfl
@[simp] theorem State.setCredit_sched_startAsked (s : State) (q v : Nat) : (s.setCredit q v).sched.startAsked = s.sched.startAsked := rfl
@[simp] theorem State.setCredit_sched_rewritten (s : State) (q v : Nat) : (s.setCredit q v).sched.rewritten = s.sched.rewritten := rfl
@[simp] theorem State.setCredit_sched_periodNext (s : State) (q v : Nat) : (s.setCredit q v).sched.periodNext = s.sched.periodNext := rfl
@[simp] theorem State.setCredit_sched_boundaryAclk (s : State) (q v : Nat) : (s.setCredit q v).sched.boundaryAclk = s.sched.boundaryAclk := rfl
@[simp] theorem State.setCredit_sched_tickLength (s : State) (q v : Nat) : (s.setCredit q v).sched.tickLength = s.sched.tickLength := rfl
@[simp] theorem State.setCredit_sched_fallback (s : State) (q v : Nat) : (s.setCredit q v).sched.fallback = s.sched.fallback := rfl
@[simp] theorem State.setCredit_num (s : State) (q v : Nat) : (s.setCredit q v).num = s.num := rfl
@[simp] theorem State.setCredit_mem (s : State) (q v : Nat) : (s.setCredit q v).mem = s.mem := rfl
@[simp] theorem State.setCredit_ports (s : State) (q v : Nat) : (s.setCredit q v).ports = s.ports := rfl
@[simp] theorem State.setCredit_timing (s : State) (q v : Nat) : (s.setCredit q v).timing = s.timing := rfl
@[simp] theorem State.setCredit_colls (s : State) (q v : Nat) : (s.setCredit q v).colls = s.colls := rfl
@[simp] theorem State.setCredit_sec (s : State) (q v : Nat) : (s.setCredit q v).sec = s.sec := rfl
@[simp] theorem State.setCredit_rst (s : State) (q v : Nat) : (s.setCredit q v).rst = s.rst := rfl
@[simp] theorem State.setCredit_far (s : State) (q v : Nat) : (s.setCredit q v).far = s.far := rfl
@[simp] theorem State.setCredit_resil (s : State) (q v : Nat) : (s.setCredit q v).resil = s.resil := rfl
@[simp] theorem State.setCredit_obj (s : State) (q v : Nat) (j : Nat) : (s.setCredit q v).obj j = s.obj j := rfl

/-! ### setEntry -/

@[simp] theorem State.setEntry_pending (s : State) (p e : Nat) : (s.setEntry p e).pending = s.pending := rfl
@[simp] theorem State.setEntry_out (s : State) (p e : Nat) : (s.setEntry p e).out = s.out := rfl
@[simp] theorem State.setEntry_freeCtr (s : State) (p e : Nat) : (s.setEntry p e).freeCtr = s.freeCtr := rfl
@[simp] theorem State.setEntry_dict (s : State) (p e : Nat) : (s.setEntry p e).dict = s.dict := rfl
@[simp] theorem State.setEntry_sched (s : State) (p e : Nat) : (s.setEntry p e).sched = s.sched := rfl
@[simp] theorem State.setEntry_num (s : State) (p e : Nat) : (s.setEntry p e).num = s.num := rfl
@[simp] theorem State.setEntry_mem_cells (s : State) (p e : Nat) : (s.setEntry p e).mem.cells = s.mem.cells := rfl
@[simp] theorem State.setEntry_mem_poison (s : State) (p e : Nat) : (s.setEntry p e).mem.poison = s.mem.poison := rfl
@[simp] theorem State.setEntry_mem_cache (s : State) (p e : Nat) : (s.setEntry p e).mem.cache = s.mem.cache := rfl
@[simp] theorem State.setEntry_mem_under (s : State) (p e : Nat) : (s.setEntry p e).mem.under = s.mem.under := rfl
@[simp] theorem State.setEntry_mem_pages (s : State) (p e : Nat) :
    (s.setEntry p e).mem.pages = mapPut 0 s.mem.pages p e := rfl
@[simp] theorem State.setEntry_mem_nearUsed (s : State) (p e : Nat) : (s.setEntry p e).mem.nearUsed = s.mem.nearUsed := rfl
@[simp] theorem State.setEntry_mem_farUsed (s : State) (p e : Nat) : (s.setEntry p e).mem.farUsed = s.mem.farUsed := rfl
@[simp] theorem State.setEntry_mem_slots (s : State) (p e : Nat) : (s.setEntry p e).mem.slots = s.mem.slots := rfl
@[simp] theorem State.setEntry_mem_sequences (s : State) (p e : Nat) : (s.setEntry p e).mem.sequences = s.mem.sequences := rfl
@[simp] theorem State.setEntry_mem_freed (s : State) (p e : Nat) : (s.setEntry p e).mem.freed = s.mem.freed := rfl
@[simp] theorem State.setEntry_mem_created (s : State) (p e : Nat) : (s.setEntry p e).mem.created = s.mem.created := rfl
@[simp] theorem State.setEntry_mem_queue (s : State) (p e : Nat) : (s.setEntry p e).mem.queue = s.mem.queue := rfl
@[simp] theorem State.setEntry_mem_asks (s : State) (p e : Nat) : (s.setEntry p e).mem.asks = s.mem.asks := rfl
@[simp] theorem State.setEntry_mem_migrations (s : State) (p e : Nat) : (s.setEntry p e).mem.migrations = s.mem.migrations := rfl
@[simp] theorem State.setEntry_mem_held (s : State) (p e : Nat) : (s.setEntry p e).mem.held = s.mem.held := rfl
@[simp] theorem State.setEntry_mem_tcaches (s : State) (p e : Nat) : (s.setEntry p e).mem.tcaches = s.mem.tcaches := rfl
@[simp] theorem State.setEntry_mem_hash (s : State) (p e : Nat) : (s.setEntry p e).mem.hash = s.mem.hash := rfl
@[simp] theorem State.setEntry_mem_spill (s : State) (p e : Nat) : (s.setEntry p e).mem.spill = s.mem.spill := rfl
@[simp] theorem State.setEntry_mem_lastHalving (s : State) (p e : Nat) : (s.setEntry p e).mem.lastHalving = s.mem.lastHalving := rfl
@[simp] theorem State.setEntry_ports (s : State) (p e : Nat) : (s.setEntry p e).ports = s.ports := rfl
@[simp] theorem State.setEntry_timing (s : State) (p e : Nat) : (s.setEntry p e).timing = s.timing := rfl
@[simp] theorem State.setEntry_colls (s : State) (p e : Nat) : (s.setEntry p e).colls = s.colls := rfl
@[simp] theorem State.setEntry_sec (s : State) (p e : Nat) : (s.setEntry p e).sec = s.sec := rfl
@[simp] theorem State.setEntry_rst (s : State) (p e : Nat) : (s.setEntry p e).rst = s.rst := rfl
@[simp] theorem State.setEntry_far (s : State) (p e : Nat) : (s.setEntry p e).far = s.far := rfl
@[simp] theorem State.setEntry_resil (s : State) (p e : Nat) : (s.setEntry p e).resil = s.resil := rfl
@[simp] theorem State.setEntry_obj (s : State) (p e : Nat) (j : Nat) : (s.setEntry p e).obj j = s.obj j := rfl

/-! ### setPort -/

@[simp] theorem State.setPort_pending (s : State) (p : Nat) (q : Port) : (s.setPort p q).pending = s.pending := rfl
@[simp] theorem State.setPort_out (s : State) (p : Nat) (q : Port) : (s.setPort p q).out = s.out := rfl
@[simp] theorem State.setPort_freeCtr (s : State) (p : Nat) (q : Port) : (s.setPort p q).freeCtr = s.freeCtr := rfl
@[simp] theorem State.setPort_dict (s : State) (p : Nat) (q : Port) : (s.setPort p q).dict = s.dict := rfl
@[simp] theorem State.setPort_sched (s : State) (p : Nat) (q : Port) : (s.setPort p q).sched = s.sched := rfl
@[simp] theorem State.setPort_num (s : State) (p : Nat) (q : Port) : (s.setPort p q).num = s.num := rfl
@[simp] theorem State.setPort_mem (s : State) (p : Nat) (q : Port) : (s.setPort p q).mem = s.mem := rfl
@[simp] theorem State.setPort_ports (s : State) (p : Nat) (q : Port) : (s.setPort p q).ports = mapPut {} s.ports p q := rfl
@[simp] theorem State.setPort_timing (s : State) (p : Nat) (q : Port) : (s.setPort p q).timing = s.timing := rfl
@[simp] theorem State.setPort_colls (s : State) (p : Nat) (q : Port) : (s.setPort p q).colls = s.colls := rfl
@[simp] theorem State.setPort_sec (s : State) (p : Nat) (q : Port) : (s.setPort p q).sec = s.sec := rfl
@[simp] theorem State.setPort_rst (s : State) (p : Nat) (q : Port) : (s.setPort p q).rst = s.rst := rfl
@[simp] theorem State.setPort_far (s : State) (p : Nat) (q : Port) : (s.setPort p q).far = s.far := rfl
@[simp] theorem State.setPort_resil (s : State) (p : Nat) (q : Port) : (s.setPort p q).resil = s.resil := rfl
@[simp] theorem State.setPort_obj (s : State) (p : Nat) (q : Port) (j : Nat) : (s.setPort p q).obj j = s.obj j := rfl

/-! ### setFar -/

@[simp] theorem State.setFar_pending (s : State) (h : Nat) (q : FarPort) : (s.setFar h q).pending = s.pending := rfl
@[simp] theorem State.setFar_out (s : State) (h : Nat) (q : FarPort) : (s.setFar h q).out = s.out := rfl
@[simp] theorem State.setFar_freeCtr (s : State) (h : Nat) (q : FarPort) : (s.setFar h q).freeCtr = s.freeCtr := rfl
@[simp] theorem State.setFar_dict (s : State) (h : Nat) (q : FarPort) : (s.setFar h q).dict = s.dict := rfl
@[simp] theorem State.setFar_sched (s : State) (h : Nat) (q : FarPort) : (s.setFar h q).sched = s.sched := rfl
@[simp] theorem State.setFar_num (s : State) (h : Nat) (q : FarPort) : (s.setFar h q).num = s.num := rfl
@[simp] theorem State.setFar_mem (s : State) (h : Nat) (q : FarPort) : (s.setFar h q).mem = s.mem := rfl
@[simp] theorem State.setFar_ports (s : State) (h : Nat) (q : FarPort) : (s.setFar h q).ports = s.ports := rfl
@[simp] theorem State.setFar_timing (s : State) (h : Nat) (q : FarPort) : (s.setFar h q).timing = s.timing := rfl
@[simp] theorem State.setFar_colls (s : State) (h : Nat) (q : FarPort) : (s.setFar h q).colls = s.colls := rfl
@[simp] theorem State.setFar_sec (s : State) (h : Nat) (q : FarPort) : (s.setFar h q).sec = s.sec := rfl
@[simp] theorem State.setFar_rst (s : State) (h : Nat) (q : FarPort) : (s.setFar h q).rst = s.rst := rfl
@[simp] theorem State.setFar_far (s : State) (h : Nat) (q : FarPort) : (s.setFar h q).far = mapPut {} s.far h q := rfl
@[simp] theorem State.setFar_resil (s : State) (h : Nat) (q : FarPort) : (s.setFar h q).resil = s.resil := rfl
@[simp] theorem State.setFar_obj (s : State) (h : Nat) (q : FarPort) (j : Nat) : (s.setFar h q).obj j = s.obj j := rfl

/-! ### withPending -/

@[simp] theorem State.withPending_pending (s : State) (q : List Instr) : (s.withPending q).pending = q := rfl
@[simp] theorem State.withPending_out (s : State) (q : List Instr) : (s.withPending q).out = s.out := rfl
@[simp] theorem State.withPending_freeCtr (s : State) (q : List Instr) : (s.withPending q).freeCtr = s.freeCtr := rfl
@[simp] theorem State.withPending_dict (s : State) (q : List Instr) : (s.withPending q).dict = s.dict := rfl
@[simp] theorem State.withPending_sched (s : State) (q : List Instr) : (s.withPending q).sched = s.sched := rfl
@[simp] theorem State.withPending_num (s : State) (q : List Instr) : (s.withPending q).num = s.num := rfl
@[simp] theorem State.withPending_mem (s : State) (q : List Instr) : (s.withPending q).mem = s.mem := rfl
@[simp] theorem State.withPending_ports (s : State) (q : List Instr) : (s.withPending q).ports = s.ports := rfl
@[simp] theorem State.withPending_timing (s : State) (q : List Instr) : (s.withPending q).timing = s.timing := rfl
@[simp] theorem State.withPending_colls (s : State) (q : List Instr) : (s.withPending q).colls = s.colls := rfl
@[simp] theorem State.withPending_sec (s : State) (q : List Instr) : (s.withPending q).sec = s.sec := rfl
@[simp] theorem State.withPending_rst (s : State) (q : List Instr) : (s.withPending q).rst = s.rst := rfl
@[simp] theorem State.withPending_far (s : State) (q : List Instr) : (s.withPending q).far = s.far := rfl
@[simp] theorem State.withPending_resil (s : State) (q : List Instr) : (s.withPending q).resil = s.resil := rfl
@[simp] theorem State.withPending_obj (s : State) (q : List Instr) (j : Nat) : (s.withPending q).obj j = s.obj j := rfl

end Sys2Proof.Machine
end

