-- ==== Sys2Proof/Laws/Frames.lean ====
section
/-! SUPPORT. What the shared operations on objects, events and committed sets leave as it was. -/

namespace Sys2Proof.Safety

open Sys2Proof.Machine

/-- Setting an object keeps the list rising. -/
theorem rising_setObj {s : State} {k v : Nat} (h : Rising s.dict.objs) : Rising (s.setObj k v).dict.objs := rising_mapPut h
/-- Objects depend on their list alone. -/
theorem obj_congr {s t : State} (h : t.dict.objs = s.dict.objs) (k : Nat) : t.obj k = s.obj k := by
  unfold State.obj; rw [h]
/-- Counting keeps the list rising. -/
theorem rising_addObj {s : State} {k n : Nat} (h : Rising s.dict.objs) : Rising (s.addObj k n).dict.objs := by
  unfold State.addObj; split
  · exact h
  · exact rising_setObj h
/-- Counting changes one object. -/
theorem addObj_obj {s : State} {k n j : Nat} (h : Rising s.dict.objs) (hj : j ≠ k) : (s.addObj k n).obj j = s.obj j := by
  unfold State.addObj; split
  · rfl
  · exact obj_setObj_ne h hj

/-- Counting leaves the log, the scheduler and memory. -/
theorem addObj_out {s : State} {k n : Nat} : (s.addObj k n).dict.log = s.dict.log ∧ (s.addObj k n).sched = s.sched ∧
   (s.addObj k n).mem = s.mem := by unfold State.addObj; split <;> exact ⟨rfl, rfl, rfl⟩

/-- The objects an event changes. -/
theorem raise_objs {s : State} {code src unit a b c d e : Nat} :
    (s.raise code src unit a b c d e).dict.objs =
      (if 4096 ≤ s.dict.log.length then
        (((s.setObj oEventSeqNext (s.obj oEventSeqNext + 1)).addObj oEventsOverwritten 1).addObj oEventSeqOldest 1)
      else s.setObj oEventSeqNext (s.obj oEventSeqNext + 1)).dict.objs := by
  unfold State.raise State.appendEvent State.armVector State.count
  by_cases f : 4096 ≤ s.dict.log.length
  · simp only [f, decide_true, if_true]
    unfold State.addObj
    simp only [if_neg (show ¬ (1 : Nat) = 0 by decide)]
    rfl
  · simp only [f, decide_false, if_false, Bool.false_eq_true]
    rfl

/-- All that raising an event does to objects, log, scheduler and memory. -/
theorem raise_frame {s : State} {code src unit a b c d e : Nat} (h : Rising s.dict.objs) :
    Rising (s.raise code src unit a b c d e).dict.objs ∧
    (s.raise code src unit a b c d e).dict.log.getLast? = some ⟨s.obj oEventSeqNext, s.tick, code, src, unit, a, b, c, d, e⟩ ∧
    (s.raise code src unit a b c d e).sched = s.sched ∧ (s.raise code src unit a b c d e).mem = s.mem ∧
    ∀ k, k ≠ oEventSeqNext → k ≠ oEventSeqOldest → k ≠ oEventsOverwritten →
      (s.raise code src unit a b c d e).obj k = s.obj k := by
  refine ⟨?_, ?_, ?_, ?_, ?_⟩
  · rw [raise_objs]
    by_cases f : 4096 ≤ s.dict.log.length
    · rw [if_pos f]; with_reducible exact rising_addObj (rising_addObj (rising_setObj h))
    · rw [if_neg f]; exact rising_setObj h
  · unfold State.raise State.appendEvent State.armVector State.count
    dsimp only
    split
    · rw [addObj_out.1, addObj_out.1]
      simp [mkEvent]
    · simp [mkEvent]
  · unfold State.raise State.appendEvent State.armVector State.count
    dsimp only
    split
    · rw [addObj_out.2.1, addObj_out.2.1]; rfl
    · rfl
  · unfold State.raise State.appendEvent State.armVector State.count
    dsimp only
    split
    · rw [addObj_out.2.2, addObj_out.2.2]; rfl
    · rfl
  · intro k h1 h2 h3
    rw [obj_congr (raise_objs (s := s)) k]
    split
    · rw [addObj_obj (rising_addObj (rising_setObj h)) h2, addObj_obj (rising_setObj h) h3, obj_setObj_ne h h1]
    · exact obj_setObj_ne h h1

/-- Setting a set active keeps the list rising. -/
theorem setActive_rising {vals : NatMap} {s : State} (h : Rising s.dict.objs) : Rising (s.setActive vals).dict.objs := by
  unfold State.setActive
  induction vals generalizing s with
  | nil => exact h
  | cons q l ih => exact ih (rising_setObj h)

/-- A set changes none but its own objects. -/
theorem setActive_none {vals : NatMap} {s : State} {k : Nat} (h : Rising s.dict.objs) (n : k ∉ vals.map (·.1)) :
    (s.setActive vals).obj k = s.obj k := by
  unfold State.setActive
  induction vals generalizing s with
  | nil => rfl
  | cons q l ih =>
    simp only [List.map_cons, List.mem_cons, not_or] at n
    exact (ih (rising_setObj h) n.2).trans (obj_setObj_ne h n.1)

/-- A set gives its objects their values. -/
theorem setActive_some {vals : NatMap} {s : State} {k v : Nat} (h : Rising s.dict.objs) (n : (vals.map (·.1)).Nodup)
    (e : mapFind vals k = some v) : (s.setActive vals).obj k = v := by
  unfold State.setActive
  induction vals generalizing s with
  | nil => cases e
  | cons q l ih =>
    obtain ⟨a, b⟩ := q
    simp only [List.map_cons, List.nodup_cons] at n
    unfold mapFind at e
    split at e
    · rename_i ha
      cases e; subst ha
      exact (setActive_none (rising_setObj h) n.1).trans (by rw [obj_setObj h, if_pos rfl])
    · exact ih (rising_setObj h) n.2 e

/-- A set leaves the other commits. -/
theorem setActive_dict {vals : NatMap} {s : State} : (s.setActive vals).dict.committed = s.dict.committed := by
  unfold State.setActive
  induction vals generalizing s with
  | nil => rfl
  | cons q l ih => exact ih

/-- Applying the one set that is due. -/
theorem applyDue_one {s : State} {p : CommitSet → Bool} {c : CommitSet} (h : s.dict.committed.filter p = [c]) :
    s.applyDue p = State.applySet { s with dict := { s.dict with committed := s.dict.committed.filter fun c => !p c } } c := by
  unfold State.applyDue
  rw [h]; rfl

/-- What undefined results in the job's windows change: the count of free values, and bytes of memory. -/
def Scrambles (s t : State) : Prop :=
  ∃ n c u p, t = { s with freeCtr := n, mem := { s.mem with cells := c, under := u, poison := p } }

theorem Scrambles.refl (s : State) : Scrambles s s := ⟨s.freeCtr, s.mem.cells, s.mem.under, s.mem.poison, rfl⟩

theorem Scrambles.trans {a b c : State} (h : Scrambles a b) (k : Scrambles b c) : Scrambles a c := by
  obtain ⟨_, _, _, _, rfl⟩ := h
  obtain ⟨n, c, u, p, rfl⟩ := k
  exact ⟨n, c, u, p, rfl⟩

theorem Scrambles.dict {s t : State} (h : Scrambles s t) : t.dict = s.dict := by
  obtain ⟨_, _, _, _, rfl⟩ := h; rfl

theorem Scrambles.obj {s t : State} (h : Scrambles s t) (k : Nat) : t.obj k = s.obj k := obj_congr (by rw [h.dict]) k

theorem scrambleByte_scrambles (s : State) : Scrambles s s.scrambleByte := by
  unfold State.scrambleByte
  dsimp only
  split
  · exact ⟨_, _, _, _, rfl⟩
  · exact ⟨_, _, _, _, rfl⟩

theorem scrambleJob_scrambles (s : State) : Scrambles s s.scrambleJob := by
  unfold State.scrambleJob
  split
  · dsimp only
    have step : ∀ (l : List Nat) (x : State), Scrambles s x → Scrambles s (l.foldl (fun s _ => s.scrambleByte) x) := by
      intro l
      induction l with
      | nil => exact fun x h => h
      | cons _ l ih => exact fun x h => ih _ (h.trans (scrambleByte_scrambles x))
    exact step _ _ ⟨_, _, _, _, rfl⟩
  · exact .refl s

theorem scramble_scrambles {s0 s : State} (ws : List Nat) (va n : Nat) (h : Scrambles s0 s) : Scrambles s0 (s.scramble ws va n) := by
  unfold State.scramble
  generalize pieces va n = l
  induction l generalizing s with
  | nil => exact h
  | cons p l ih =>
    rw [List.foldl_cons]
    refine ih ?_
    dsimp only
    split
    · exact h
    · exact h.trans ⟨_, _, _, _, rfl⟩

theorem scrambles_fold {s0 s : State} (ws : List Nat) (l : List (Nat × Nat)) (h : Scrambles s0 s) :
    Scrambles s0 (l.foldl (fun s q => s.scramble ws q.1 q.2) s) := by
  induction l generalizing s with
  | nil => exact h
  | cons p l ih => exact ih (scramble_scrambles ws p.1 p.2 h)

theorem checkRanks_scrambles (s : State) : Scrambles s s.checkRanks := by
  unfold State.checkRanks
  split
  · exact scrambleJob_scrambles s
  · exact .refl s

/-- What placing a device in the timing tree changes. -/
theorem placeInTree_frame {s : State} (h : Rising s.dict.objs) : Rising s.placeInTree.dict.objs ∧
    s.placeInTree.dict.committed = s.dict.committed ∧
    ∀ k, k ≠ oTimeReferenceRank → k ≠ oTimeDistance → k ≠ oTimeParentPort → s.placeInTree.obj k = s.obj k := by
  have three : ∀ (x : State) (a b c : Nat), Rising x.dict.objs → 
      Rising (((x.setObj oTimeReferenceRank a).setObj oTimeDistance b).setObj oTimeParentPort c).dict.objs ∧
      (((x.setObj oTimeReferenceRank a).setObj oTimeDistance b).setObj oTimeParentPort c).dict.committed = x.dict.committed ∧
      ∀ k, k ≠ oTimeReferenceRank → k ≠ oTimeDistance → k ≠ oTimeParentPort →
        (((x.setObj oTimeReferenceRank a).setObj oTimeDistance b).setObj oTimeParentPort c).obj k = x.obj k := by
    intro x a b c hx
    refine ⟨rising_setObj (rising_setObj (rising_setObj hx)), rfl, fun k h1 h2 h3 => ?_⟩
    rw [obj_setObj_ne (rising_setObj (rising_setObj hx)) h3, obj_setObj_ne (rising_setObj hx) h2, obj_setObj_ne hx h1]
  unfold State.placeInTree
  dsimp only
  split
  · exact three _ _ _ _ h
  · split
    · exact three _ _ _ _ h
    · split
      · exact ⟨h, rfl, fun _ _ _ _ => rfl⟩
      · exact three _ _ _ _ h

/-- What forming the measurements changes. -/
theorem refresh_frame {s : State} (h : Rising s.dict.objs) :
    s.refreshMeasurements.dict.committed = s.dict.committed ∧
    ∀ k, k ≠ oMeasurement4 → k ≠ oMeasurement6 → s.refreshMeasurements.obj k = s.obj k := by
  unfold State.refreshMeasurements
  refine ⟨rfl, fun k h1 h2 => ?_⟩
  rw [obj_setObj_ne (rising_setObj h) h2, obj_setObj_ne h h1]

/-- The effect of group 0x2050. -/
theorem applySet_2050 {s : State} {c : CommitSet} (h : c.group = 0x2050) : s.applySet c = s.setActive c.vals := by
  unfold State.applySet; rw [h]; rfl
/-- The effect of group 0x4210. -/
theorem applySet_4210 {s : State} {c : CommitSet} (h : c.group = 0x4210) : s.applySet c = s.setActive c.vals := by
  unfold State.applySet; rw [h]; rfl

/-- The effect of group 0x4110. -/
theorem applySet_4110 {s : State} {c : CommitSet} (h : c.group = 0x4110) : s.applySet c =
    (let s := s.setActive c.vals
    let s := ((s.setObj oLogicalRank (s.obj oRankNext)).setObj oRankCount (s.obj oRankCountNext)).setObj
      oRouteTableActive (s.obj oRouteTableNext)
    s.placeInTree.checkRanks.refreshMeasurements) := by
  unfold State.applySet; rw [h]; rfl

end Sys2Proof.Safety
end

