-- ==== Sys2Proof/Laws/Sends.lean ====
section
/-! SUPPORT. Everything that sending on a link does keeps `Sends`. -/

namespace Sys2Proof.Safety

open Sys2Proof.Machine

/-- What sending a message or a flit leaves as it is, objects, ports and what has been sent apart. -/
abbrev sendFrame (s : State) :=
  (s.pending, s.freeCtr, s.sched, s.num, s.mem, s.timing, s.colls, s.sec, s.rst, s.far, s.resil,
    (s.dict.pend, s.dict.committed, s.dict.window, s.dict.assemblies, s.dict.log, s.dict.eventCounts,
      s.dict.tickEvents, s.dict.kept, s.dict.eventSeq, s.dict.outstanding, s.dict.msixTable, s.dict.msixPending,
      s.dict.msixConds))

/-- What sending on ports of `f` keeps: the frame, what has been sent before, and every object but the counts of payload
bytes of those ports and of messages that found no way (Tables 11.13, 11.14). -/
structure SendsOn (f : Nat → Prop) (s t : State) : Prop where
  frame : sendFrame t = sendFrame s
  out : s.out <+: t.out
  objs : Rising s.dict.objs → Rising t.dict.objs ∧
    ∀ k, k ≠ oMisroutedMessages → k ≠ oUnroutableMessages → (∀ p, f p → k ≠ oTxPayloadBytes p) → t.obj k = s.obj k

/-- What sending on some ports keeps. -/
abbrev Sends := SendsOn fun _ => True

theorem SendsOn.refl {f : Nat → Prop} (s : State) : SendsOn f s s := ⟨rfl, List.prefix_rfl, fun h => ⟨h, fun _ _ _ _ => rfl⟩⟩

theorem SendsOn.trans {f : Nat → Prop} {a b c : State} (h : SendsOn f a b) (k : SendsOn f b c) : SendsOn f a c :=
  ⟨k.frame.trans h.frame, h.out.trans k.out, fun r =>
    ⟨(k.objs (h.objs r).1).1, fun j a b d => ((k.objs (h.objs r).1).2 j a b d).trans ((h.objs r).2 j a b d)⟩⟩

theorem setPort_sends {f : Nat → Prop} {s0 s : State} (p : Nat) (q : Port) (h : SendsOn f s0 s) : SendsOn f s0 (s.setPort p q) :=
  ⟨h.frame, h.out, h.objs⟩

theorem emit_sends {f : Nat → Prop} {s0 s : State} (o : Out) (h : SendsOn f s0 s) : SendsOn f s0 (s.emit o) :=
  ⟨h.frame, h.out.trans (List.prefix_append _ _), h.objs⟩

theorem addObj_sends {f : Nat → Prop} {s0 s : State} (k n : Nat)
    (c : k = oMisroutedMessages ∨ k = oUnroutableMessages ∨ ∃ p, f p ∧ k = oTxPayloadBytes p) (h : SendsOn f s0 s) :
    SendsOn f s0 (s.addObj k n) := by
  refine h.trans ?_
  unfold State.addObj
  split
  · exact SendsOn.refl s
  · refine ⟨rfl, List.prefix_rfl, fun r => ⟨rising_setObj r, fun j a b d => obj_setObj_ne r ?_⟩⟩
    rcases c with rfl | rfl | ⟨p, hp, rfl⟩
    · exact a
    · exact b
    · exact d p hp

theorem emitFlit_sends {f : Nat → Prop} {s0 s : State} (p header : Nat) (b : List Byte) (h : SendsOn f s0 s) :
    SendsOn f s0 (s.emitFlit p header b) := by
  unfold State.emitFlit
  exact emit_sends _ (setPort_sends _ _ h)

theorem oweCredit_sends {f : Nat → Prop} {s0 s : State} (p vc n : Nat) (h : SendsOn f s0 s) : SendsOn f s0 (s.oweCredit p vc n) :=
  setPort_sends _ _ h

theorem leaveBuffer_sends {f : Nat → Prop} {s0 s : State} (x : TxFlit) (h : SendsOn f s0 s) : SendsOn f s0 (s.leaveBuffer x) := by
  unfold State.leaveBuffer
  split
  · exact oweCredit_sends _ _ _ h
  · exact h

/-- A fold of steps that keep the frame keeps it. -/
theorem fold_sends {α : Type} {f : Nat → Prop} {s0 : State} {g : State → α → State}
    (hg : ∀ s a, SendsOn f s0 s → SendsOn f s0 (g s a)) (l : List α) {s : State} (h : SendsOn f s0 s) :
    SendsOn f s0 (l.foldl g s) := by
  induction l generalizing s with
  | nil => exact h
  | cons a l ih => exact ih (hg s a h)

theorem returnCredits_sends {f : Nat → Prop} {s0 s : State} (p : Nat) (h : SendsOn f s0 s) : SendsOn f s0 (s.returnCredits p) := by
  unfold State.returnCredits
  split
  · exact h
  · refine fold_sends (fun s _ h => ?_) _ h
    dsimp only
    split
    · exact h
    · exact emitFlit_sends _ _ _ (setPort_sends _ _ h)

theorem returnAll_sends {f : Nat → Prop} {s0 s : State} (h : SendsOn f s0 s) : SendsOn f s0 s.returnAll :=
  fold_sends (fun _ p h => returnCredits_sends p h) _ h

theorem sendFlit_sends {f : Nat → Prop} {s0 s : State} (p : Nat) (x : TxFlit) (h : SendsOn f s0 s) (hp : f p) :
    SendsOn f s0 (s.sendFlit p x) := by
  unfold State.sendFlit
  apply leaveBuffer_sends
  split
  · exact addObj_sends _ _ (.inr (.inr ⟨p, hp, rfl⟩)) (emitFlit_sends _ _ _ (setPort_sends _ _ h))
  · exact emitFlit_sends _ _ _ (setPort_sends _ _ h)

theorem sendMany_sends {f : Nat → Prop} {s0 s : State} (p n : Nat) (h : SendsOn f s0 s) (hp : f p) : SendsOn f s0 (s.sendMany p n) := by
  induction n generalizing s with
  | zero => exact h
  | succ n ih =>
    unfold State.sendMany
    split
    · exact h
    · exact ih (sendFlit_sends p _ h hp)

theorem pump_sends {f : Nat → Prop} {s0 s : State} (p : Nat) (h : SendsOn f s0 s) (hp : f p) : SendsOn f s0 (s.pump p) := by
  unfold State.pump
  apply returnAll_sends
  split
  · exact sendMany_sends p _ h hp
  · exact h

theorem queueFlits_sends {f : Nat → Prop} {s0 s : State} (p : Nat) (fs : List TxFlit) (h : SendsOn f s0 s) (hp : f p) :
    SendsOn f s0 (s.queueFlits p fs) := pump_sends p (setPort_sends _ _ h) hp

theorem sendControl_sends {f : Nat → Prop} {s0 s : State} (p : Nat) (b : List Byte) (h : SendsOn f s0 s) (hp : f p) :
    SendsOn f s0 (s.sendControl p b) := queueFlits_sends p _ h hp

theorem sendDirect_sends {f : Nat → Prop} {s0 s : State} (p vc param dest kind : Nat) (data : List Byte) (h : SendsOn f s0 s) (hp : f p) :
    SendsOn f s0 (s.sendDirect p vc param dest kind data) := by
  unfold State.sendDirect
  dsimp only
  split
  · exact queueFlits_sends _ _ h hp
  · exact addObj_sends _ _ (.inr (.inl rfl)) h

theorem sendThrough_sends {f : Nat → Prop} {s0 s : State} (p vc param dest epoch kind axis : Nat) (data : List Byte) (h : SendsOn f s0 s) (hp : f p) :
    SendsOn f s0 (s.sendThrough p vc param dest epoch kind axis data) := by
  unfold State.sendThrough
  dsimp only
  split
  · exact queueFlits_sends _ _ h hp
  · exact addObj_sends _ _ (.inr (.inl rfl)) h

/-- The best of some choices is one of them. -/
theorem choice_lt {s : State} {l : List (Nat × Nat × Nat)} {p v : Nat} (h : ∀ c ∈ l, c.2.1 < 32) (e : s.bestChoice l = some (p, v)) :
    p < 32 := by
  cases l with
  | nil => cases e
  | cons c rest =>
    have key : ∀ (l : List (Nat × Nat × Nat)) (b : Nat × Nat × Nat), b.2.1 < 32 → (∀ c ∈ l, c.2.1 < 32) → ∀ f : Nat × Nat × Nat → Nat,
        (l.foldl (fun b x => if f b < f x then x else b) b).2.1 < 32 := by
      intro l
      induction l with
      | nil => exact fun b hb _ _ => hb
      | cons a l ih =>
        intro b hb hl f
        rw [List.foldl_cons]
        refine ih _ ?_ (fun c hc => hl c (List.mem_cons_of_mem _ hc)) f
        split
        · exact hl a List.mem_cons_self
        · exact hb
    unfold State.bestChoice at e
    have k := key rest c (h c List.mem_cons_self) (fun x hx => h x (List.mem_cons_of_mem _ hx)) fun c => (s.port c.2.1).credits.getD c.2.2 0
    injection e with e
    rw [e] at k
    exact k

/-- A routing entry names ports of 5 bits. -/
theorem routeChoices_lt (s : State) {e v : Nat} : ∀ c ∈ s.routeChoices e v, c.2.1 < 32 := by
  intro c hc
  unfold State.routeChoices at hc
  obtain ⟨i, -, hi⟩ := List.mem_filterMap.mp hc
  dsimp only at hi
  split at hi
  · injection hi with hi
    rw [← hi]
    show field _ _ _ < 32
    unfold field
    rw [show 16 + 5 * i + 1 - (12 + 5 * i) = 5 by omega]
    exact Nat.mod_lt _ (by decide)
  · cases hi

theorem sendRouted_sends {f : Nat → Prop} {s0 s : State} (vc param dest epoch kind axis : Nat) (data : List Byte) (h : SendsOn f s0 s) (hf : ∀ p, p < 32 → f p) :
    SendsOn f s0 (s.sendRouted vc param dest epoch kind axis data) := by
  unfold State.sendRouted
  dsimp only
  split
  · exact setPort_sends _ _ h
  · split
    · exact addObj_sends _ _ (.inl rfl) h
    · split
      · exact addObj_sends _ _ (.inr (.inl rfl)) h
      · rename_i p v e
        exact queueFlits_sends _ _ h (hf _ (choice_lt (routeChoices_lt s) e))

theorem sendTwin_sends {f : Nat → Prop} {s0 s : State} (vc param kind : Nat) (data : List Byte) (h : SendsOn f s0 s) (hf : ∀ p, p < 32 → f p) :
    SendsOn f s0 (s.sendTwin vc param kind data) := by
  unfold State.sendTwin
  dsimp only
  split
  · rename_i p v e
    refine sendDirect_sends _ _ _ _ _ _ h (hf _ (choice_lt (fun c hc => ?_) e))
    obtain ⟨q, hq, rfl⟩ := List.mem_map.mp hc
    exact List.mem_range.mp (List.mem_filter.mp hq).1
  · exact sendRouted_sends _ _ _ _ _ _ _ h hf

end Sys2Proof.Safety
end

