-- ==== Sys2Proof/Laws/Passes.lean ====
section
/-! SUPPORT. How a property of states passes through the model's ways of putting work together, said once for every
property. -/

namespace Sys2Proof.Safety

open Sys2Proof.Machine

variable {P : State → Prop} {α β γ : Type}

theorem Pass.ite {a b : State} {c : Prop} [Decidable c] (h : P a) (k : P b) : P (if c then a else b) := by
  by_cases e : c
  · rw [if_pos e]; exact h
  · rw [if_neg e]; exact k

/-- Names a local change of state. -/
theorem Pass.cutF {x : State → State} {p : Prop} (h : ∀ y, P y → P (x y)) (k : (∀ y, P y → P (x y)) → p) : p := k h

theorem Pass.cutFa {x : State → α → State} {p : Prop} (h : ∀ y a, P y → P (x y a))
    (k : (∀ y a, P y → P (x y a)) → p) : p := k h

theorem Pass.cutaF {x : α → State → State} {p : Prop} (h : ∀ a y, P y → P (x a y))
    (k : (∀ a y, P y → P (x a y)) → p) : p := k h

/-- Names an intermediate state. -/
theorem Pass.cut {x : State} {p : Prop} (h : P x) (k : P x → p) : p := k h

theorem Pass.of_snd {b : State} {p : α × State} {a : α} (h : P p.2) (e : p = (a, b)) : P b := by rw [e] at h; exact h

theorem Pass.of_fst {b : State} {p : State × α} {a : α} (h : P p.1) (e : p = (b, a)) : P b := by rw [e] at h; exact h

theorem Pass.foldl {x : State} {f : State → α → State} {l : List α} (h : P x) (k : ∀ y a, P y → P (f y a)) :
    P (l.foldl f x) := by
  induction l generalizing x with
  | nil => exact h
  | cons a l ih => exact ih (k x a h)

theorem Pass.foldlSnd {f : β × State → α → β × State} {l : List α} {x : β × State} (h : P x.2)
    (k : ∀ y a, P y.2 → P (f y a).2) : P (l.foldl f x).2 := by
  induction l generalizing x with
  | nil => exact h
  | cons a l ih => exact ih (k x a h)

/-! ### An optional state -/

/-- An optional state has the property where it is some. -/
structure PassOpt (P : State → Prop) (o : Option State) : Prop where
  of_eq : ∀ t, o = some t → P t

theorem PassOpt.none : PassOpt P none := ⟨by intro _ e; cases e⟩

theorem PassOpt.some {t : State} (h : P t) : PassOpt P (some t) := ⟨fun _ e => Option.some.inj e ▸ h⟩

theorem PassOpt.of {t : State} {o : Option State} (h : PassOpt P o) (e : o = .some t) : P t := h.of_eq t e

theorem PassOpt.map {o : Option α} {f : α → State} (h : ∀ a, P (f a)) : PassOpt P (o.map f) := by
  cases o with
  | none => exact .none
  | some a => exact .some (h a)

theorem PassOpt.getD {d : State} {o : Option State} (h : PassOpt P o) (k : P d) : P (o.getD d) := by
  cases o with
  | none => exact k
  | some a => exact h.of rfl

theorem PassOpt.ite {a b : Option State} {c : Prop} [Decidable c] (h : PassOpt P a) (k : PassOpt P b) :
    PassOpt P (if c then a else b) := by
  by_cases e : c
  · rw [if_pos e]; exact h
  · rw [if_neg e]; exact k

/-! ### Outcomes -/

/-- An outcome is a next state that has the property. -/
structure PassO (P : State → Prop) (o : Host.Outcome State Fault Refusal) : Prop where
  answers : ∃ t, o = .next t ∧ P t

theorem PassO.next {t : State} (h : P t) : PassO P (.next t) := ⟨t, rfl, h⟩

theorem PassO.of {t : State} {o : Host.Outcome State Fault Refusal} (h : PassO P o) (e : o = .next t) : P t := by
  obtain ⟨u, e', k⟩ := h.answers
  cases e'.symm.trans e
  exact k

theorem PassO.ite {a b : Host.Outcome State Fault Refusal} {c : Prop} [Decidable c] (h : PassO P a) (k : PassO P b) :
    PassO P (if c then a else b) := by
  by_cases e : c
  · rw [if_pos e]; exact h
  · rw [if_neg e]; exact k

/-! ### Work -/

/-- The work keeps the property, whether it ends well or is aborted. -/
structure PassM (P : State → Prop) (m : M α) : Prop where
  of_run : ∀ s, P s → match m.run s with
    | .ok _ t => P t
    | .error _ t => P t

theorem PassM.ok {s t : State} {m : M α} {a : α} (h : PassM P m) (hs : P s) (e : m.run s = .ok a t) : P t := by
  have := h.of_run s hs
  rw [e] at this
  exact this

theorem PassM.error {s t : State} {m : M α} {a : Abort} (h : PassM P m) (hs : P s) (e : m.run s = .error a t) : P t := by
  have := h.of_run s hs
  rw [e] at this
  exact this

theorem PassM.pure {a : α} : PassM P (Pure.pure a : M α) := ⟨fun _ h => h⟩

theorem PassM.throw {e : Abort} : PassM P (MonadExcept.throw e : M α) := ⟨fun _ h => h⟩

theorem PassM.bind {m : M α} {f : α → M β} (h : PassM P m) (k : ∀ a, PassM P (f a)) : PassM P (m >>= f) := by
  constructor
  intro s hs
  have h1 := h.of_run s hs
  show match EStateM.bind m f s with
    | .ok _ t => P t
    | .error _ t => P t
  unfold EStateM.bind
  change match m s with
    | .ok _ t => P t
    | .error _ t => P t at h1
  cases e : m s with
  | ok a t => rw [e] at h1; exact (k a).of_run t h1
  | error a t => rw [e] at h1; exact h1

theorem PassM.getBind {f : State → M β} (k : ∀ x, P x → PassM P (f x)) : PassM P (MonadState.get >>= f) :=
  ⟨fun s hs => (k s hs).of_run s hs⟩

theorem PassM.get : PassM P (MonadState.get : M State) := ⟨fun _ h => h⟩

theorem PassM.getThe {f : State → M β} (k : ∀ x, P x → PassM P (f x)) : PassM P (getThe State >>= f) :=
  ⟨fun s hs => (k s hs).of_run s hs⟩

theorem PassM.set {x : State} (h : P x) : PassM P (MonadStateOf.set x : M PUnit) := ⟨fun _ _ => h⟩

theorem PassM.mod {f : State → State} (h : ∀ x, P x → P (f x)) : PassM P (Machine.mod f) := ⟨fun s hs => h s hs⟩

theorem PassM.modify {f : State → State} (h : ∀ x, P x → P (f x)) : PassM P (modifyThe State f : M PUnit) :=
  ⟨fun s hs => h s hs⟩

theorem PassM.catch {m : M α} {f : Abort → M α} (h : PassM P m) (k : ∀ e, PassM P (f e)) :
    PassM P (MonadExcept.tryCatch m f) := by
  constructor
  intro s hs
  have h1 := h.of_run s hs
  show match EStateM.tryCatch m f s with
    | .ok _ t => P t
    | .error _ t => P t
  unfold EStateM.tryCatch
  change match m s with
    | .ok _ t => P t
    | .error _ t => P t at h1
  cases e : m s with
  | ok a t => rw [e] at h1; exact h1
  | error a t => rw [e] at h1; exact (k a).of_run t h1

theorem PassM.forM {l : List α} {f : α → M PUnit} (k : ∀ a, PassM P (f a)) : PassM P (l.forM f) := by
  induction l with
  | nil => exact PassM.pure
  | cons a l ih => exact PassM.bind (k a) fun _ => ih

theorem PassM.mapM {l : List α} {f : α → M β} (k : ∀ a, PassM P (f a)) : PassM P (l.mapM f) := by
  induction l with
  | nil => exact PassM.pure
  | cons a l ih =>
    rw [List.mapM_cons]
    exact PassM.bind (k a) fun _ => PassM.bind ih fun _ => PassM.pure

theorem PassM.foldlM {l : List α} {f : β → α → M β} {b : β} (k : ∀ b a, PassM P (f b a)) : PassM P (l.foldlM f b) := by
  induction l generalizing b with
  | nil => exact PassM.pure
  | cons a l ih => exact PassM.bind (k b a) fun _ => ih

theorem PassM.filterM {l : List α} {f : α → M Bool} (k : ∀ a, PassM P (f a)) : PassM P (l.filterM f) := by
  have aux : ∀ l r, PassM P (List.filterAuxM f l r) := by
    intro l
    induction l with
    | nil => intro r; exact PassM.pure
    | cons a l ih => intro r; exact PassM.bind (k a) fun _ => ih _
  exact PassM.bind (aux l []) fun _ => PassM.pure

theorem PassM.ite {a b : M α} {c : Prop} [Decidable c] (h : PassM P a) (k : PassM P b) :
    PassM P (if c then a else b) := by
  by_cases e : c
  · rw [if_pos e]; exact h
  · rw [if_neg e]; exact k

theorem PassM.mapMem {l : List α} {f : α → M β} (k : ∀ a ∈ l, PassM P (f a)) : PassM P (l.mapM f) := by
  induction l with
  | nil => exact PassM.pure
  | cons a l ih =>
    rw [List.mapM_cons]
    exact PassM.bind (k a List.mem_cons_self) fun _ =>
      PassM.bind (ih fun b h => k b (List.mem_cons_of_mem _ h)) fun _ => PassM.pure

/-- Names a continuation. -/
theorem PassM.cut {x : α → M β} {p : Prop} (h : ∀ a, PassM P (x a)) (k : (∀ a, PassM P (x a)) → p) : p := k h

theorem PassM.cut2 {x : α → γ → M β} {p : Prop} (h : ∀ a b, PassM P (x a b))
    (k : (∀ a b, PassM P (x a b)) → p) : p := k h

theorem PassM.cut3 {δ : Type} {x : α → γ → δ → M β} {p : Prop} (h : ∀ a b c, PassM P (x a b c))
    (k : (∀ a b c, PassM P (x a b c)) → p) : p := k h

/-- Names a piece of work. -/
theorem PassM.cut0 {x : M β} {p : Prop} (h : PassM P x) (k : PassM P x → p) : p := k h

/-! ### Work with what is known of its result -/

/-- The work keeps the property, and what it answers satisfies `Q`. -/
structure PassR (P : State → Prop) (Q : α → Prop) (m : M α) : Prop where
  of_run : ∀ s, P s → match m.run s with
    | .ok a t => P t ∧ Q a
    | .error _ t => P t

theorem PassR.pure {Q : α → Prop} {a : α} (h : Q a) : PassR P Q (Pure.pure a : M α) := ⟨fun _ k => ⟨k, h⟩⟩

theorem PassR.getThe {Q : β → Prop} {f : State → M β} (k : ∀ x, P x → PassR P Q (f x)) :
    PassR P Q (getThe State >>= f) := ⟨fun s hs => (k s hs).of_run s hs⟩

theorem PassR.bind {Q : β → Prop} {m : M α} {f : α → M β} (h : PassM P m) (k : ∀ a, PassR P Q (f a)) :
    PassR P Q (m >>= f) := by
  constructor
  intro s hs
  have h1 := h.of_run s hs
  show match EStateM.bind m f s with
    | .ok b t => P t ∧ Q b
    | .error _ t => P t
  unfold EStateM.bind
  change match m s with
    | .ok _ t => P t
    | .error _ t => P t at h1
  cases e : m s with
  | ok a t => rw [e] at h1; exact (k a).of_run t h1
  | error a t => rw [e] at h1; exact h1

theorem PassR.use {Q : α → Prop} {m : M α} {f : α → M β} (h : PassR P Q m) (k : ∀ a, Q a → PassM P (f a)) :
    PassM P (m >>= f) := by
  constructor
  intro s hs
  have h1 := h.of_run s hs
  show match EStateM.bind m f s with
    | .ok _ t => P t
    | .error _ t => P t
  unfold EStateM.bind
  change match m s with
    | .ok a t => P t ∧ Q a
    | .error _ t => P t at h1
  cases e : m s with
  | ok a t => rw [e] at h1; exact (k a h1.2).of_run t h1.1
  | error a t => rw [e] at h1; exact h1

theorem PassR.then {R : β → Prop} {Q : α → Prop} {m : M α} {f : α → M β} (h : PassR P Q m)
    (k : ∀ a, Q a → PassR P R (f a)) : PassR P R (m >>= f) := by
  constructor
  intro s hs
  have h1 := h.of_run s hs
  show match EStateM.bind m f s with
    | .ok b t => P t ∧ R b
    | .error _ t => P t
  unfold EStateM.bind
  change match m s with
    | .ok a t => P t ∧ Q a
    | .error _ t => P t at h1
  cases e : m s with
  | ok a t => rw [e] at h1; exact (k a h1.2).of_run t h1.1
  | error a t => rw [e] at h1; exact h1

theorem PassR.mapM {Q : β → Prop} {l : List α} {f : α → M β} (k : ∀ a, PassR P Q (f a)) :
    PassR P (fun bs => ∀ b ∈ bs, Q b) (l.mapM f) := by
  induction l with
  | nil => exact PassR.pure (fun _ h => by cases h)
  | cons a l ih =>
    rw [List.mapM_cons]
    refine (k a).then fun b hb => ih.then fun bs hbs => PassR.pure fun x hx => ?_
    cases hx with
    | head => exact hb
    | tail _ h => exact hbs x h

/-- Work that keeps a relation to where it began keeps every property that the relation carries on. -/
theorem PassM.carry {R : State → State → Prop} {m : M α} (h : ∀ s, PassM (R s) m) (refl : ∀ s, R s s)
    (k : ∀ s t, P s → R s t → P t) : PassM P m := by
  constructor
  intro s hs
  have h1 := (h s).of_run s (refl s)
  cases e : m.run s with
  | ok a t => rw [e] at h1; exact k s t hs h1
  | error a t => rw [e] at h1; exact k s t hs h1

theorem PassO.carry {R : State → State → Prop} {s : State} {o : Host.Outcome State Fault Refusal} (h : PassO (R s) o)
    (hs : P s) (k : ∀ s t, P s → R s t → P t) : PassO P o := by
  obtain ⟨t, e, ht⟩ := h.answers
  exact ⟨t, e, k s t hs ht⟩

theorem PassOpt.carry {R : State → State → Prop} {s : State} {o : Option State} (h : PassOpt (R s) o)
    (hs : P s) (k : ∀ s t, P s → R s t → P t) : PassOpt P o := ⟨fun t e => k s t hs (h.of_eq t e)⟩

end Sys2Proof.Safety
end

