-- ==== Sys2Proof/Laws/Keeps.lean ====
section
/-! SUPPORT. What no command can do, said once: the ways in which a change of state keeps what `Keeps` names. -/

namespace Sys2Proof.Safety

open Sys2Proof.Machine

theorem Keeps.refl (s : State) : Keeps s s :=
  ⟨rfl, List.prefix_rfl, Nat.le_refl _, List.prefix_rfl, List.prefix_rfl, List.prefix_rfl, id⟩

theorem Keeps.trans {a b c : State} (h : Keeps a b) (k : Keeps b c) : Keeps a c :=
  ⟨k.pending.trans h.pending, h.out.trans k.out, Nat.le_trans h.free k.free, h.fw.trans k.fw, h.hub.trans k.hub,
    h.reach.trans k.reach, fun g => k.sound (h.sound g)⟩

/-- A change that leaves every part named by `Keeps` as it was. -/
theorem Keeps.upd {s0 x : State} {d : Dict} {sc : Sched} {nm : Numerics} {mm : Mem} {po : List (Nat × Port)}
    {ti : Timing} {co : Colls} {se : Security} {rs : ResetState} {fa : List (Nat × FarPort)} {re : Resilience}
    (h : Keeps s0 x) (ho : d.objs = x.dict.objs) (hp : d.pend = x.dict.pend) (h1 : d.log = x.dict.log) (h2 : sc.fallback = x.sched.fallback) (h3 : mm.cells = x.mem.cells)
    (h4 : co.readies = x.colls.readies) (h5 : se.fwFloors = x.sec.fwFloors) (h6 : se.hubFloors = x.sec.hubFloors)
    (h7 : se.reachTables = x.sec.reachTables) :
    Keeps s0 (State.mk x.pending x.out x.freeCtr d sc nm mm po ti co se rs fa re) :=
  ⟨h.pending, h.out, h.free, h5 ▸ h.fw, h6 ▸ h.hub, h7 ▸ h.reach, fun g =>
    ⟨ho ▸ (h.sound g).objs, hp ▸ (h.sound g).pend, h3 ▸ (h.sound g).cells, h1 ▸ (h.sound g).log, h2 ▸ (h.sound g).fallback, h4 ▸ (h.sound g).readies⟩⟩

/-- The same, where the bounded parts may also shrink. -/
theorem Keeps.shrink {s0 x : State} {d : Dict} {sc : Sched} {nm : Numerics} {mm : Mem} {po : List (Nat × Port)}
    {ti : Timing} {co : Colls} {se : Security} {rs : ResetState} {fa : List (Nat × FarPort)} {re : Resilience}
    (h : Keeps s0 x) (ho : Rising x.dict.objs → Rising d.objs) (hp : Rising x.dict.pend → Rising d.pend)
    (h1 : d.log.length ≤ x.dict.log.length) (h2 : sc.fallback.length ≤ x.sched.fallback.length)
    (h3 : memWf x.mem.cells = true → memWf mm.cells = true) (h4 : co.readies.length ≤ x.colls.readies.length)
    (h5 : x.sec.fwFloors <+: se.fwFloors) (h6 : x.sec.hubFloors <+: se.hubFloors)
    (h7 : x.sec.reachTables <+: se.reachTables) :
    Keeps s0 (State.mk x.pending x.out x.freeCtr d sc nm mm po ti co se rs fa re) :=
  ⟨h.pending, h.out, h.free, h.fw.trans h5, h.hub.trans h6, h.reach.trans h7, fun g =>
    ⟨ho (h.sound g).objs, hp (h.sound g).pend, h3 (h.sound g).cells, Nat.le_trans h1 (h.sound g).log, Nat.le_trans h2 (h.sound g).fallback,
      Nat.le_trans h4 (h.sound g).readies⟩⟩

/-- The same, where memory comes from another state that keeps. -/
theorem Keeps.updMem {s0 x y : State} {mm : Mem} (h : Keeps s0 x) (h3 : mm.cells = y.mem.cells) (k : Keeps s0 y) :
    Keeps s0 (State.mk x.pending x.out x.freeCtr x.dict x.sched x.num mm x.ports x.timing x.colls x.sec x.rst x.far
      x.resil) :=
  ⟨h.pending, h.out, h.free, h.fw, h.hub, h.reach, fun g => ⟨(h.sound g).objs, (h.sound g).pend, h3 ▸ (k.sound g).cells,
    (h.sound g).log, (h.sound g).fallback, (h.sound g).readies⟩⟩

/-- The same, where the scheduler's part comes from another state that keeps. -/
theorem Keeps.updSched {s0 x y : State} {sc : Sched} (h : Keeps s0 x) (h2 : sc.fallback = y.sched.fallback)
    (k : Keeps s0 y) :
    Keeps s0 (State.mk x.pending x.out x.freeCtr x.dict sc x.num x.mem x.ports x.timing x.colls x.sec x.rst x.far
      x.resil) :=
  ⟨h.pending, h.out, h.free, h.fw, h.hub, h.reach, fun g => ⟨(h.sound g).objs, (h.sound g).pend, (h.sound g).cells,
    (h.sound g).log, h2 ▸ (k.sound g).fallback, (h.sound g).readies⟩⟩

/-- The same, where the security part comes from another state that keeps. -/
theorem Keeps.updSec {s0 x y : State} {se : Security} {rs : ResetState} (h : Keeps s0 x) (h5 : se.fwFloors = y.sec.fwFloors)
    (h6 : se.hubFloors = y.sec.hubFloors) (h7 : se.reachTables = y.sec.reachTables) (k : Keeps s0 y) :
    Keeps s0 (State.mk x.pending x.out x.freeCtr x.dict x.sched x.num x.mem x.ports x.timing x.colls se rs x.far
      x.resil) :=
  ⟨h.pending, h.out, h.free, h5 ▸ k.fw, h6 ▸ k.hub, h7 ▸ k.reach, fun g => ⟨(h.sound g).objs, (h.sound g).pend,
    (h.sound g).cells, (h.sound g).log, (h.sound g).fallback, (h.sound g).readies⟩⟩

/-- Free values taken. -/
theorem Keeps.addFree {s0 x : State} {n : Nat} (h : Keeps s0 x) :
    Keeps s0 (State.mk x.pending x.out (x.freeCtr + n) x.dict x.sched x.num x.mem x.ports x.timing x.colls x.sec x.rst
      x.far x.resil) :=
  ⟨h.pending, h.out, Nat.le_trans h.free (Nat.le_add_right _ _), h.fw, h.hub, h.reach, fun g => ⟨(h.sound g).objs,
    (h.sound g).pend, (h.sound g).cells, (h.sound g).log, (h.sound g).fallback, (h.sound g).readies⟩⟩

/-- Memory changed in a way that keeps its form. -/
theorem Keeps.changeMem {s0 x : State} {mm : Mem} (h : Keeps s0 x) (k : memWf x.mem.cells = true → memWf mm.cells = true) :
    Keeps s0 (State.mk x.pending x.out x.freeCtr x.dict x.sched x.num mm x.ports x.timing x.colls x.sec x.rst x.far
      x.resil) :=
  h.shrink id id (Nat.le_refl _) (Nat.le_refl _) k (Nat.le_refl _) List.prefix_rfl List.prefix_rfl List.prefix_rfl

/-- The scheduler's part changed in a way that keeps the fall-back list within its bound. -/
theorem Keeps.changeSched {s0 x : State} {sc : Sched} (h : Keeps s0 x)
    (k : x.sched.fallback.length ≤ 64 → sc.fallback.length ≤ 64) :
    Keeps s0 (State.mk x.pending x.out x.freeCtr x.dict sc x.num x.mem x.ports x.timing x.colls x.sec x.rst x.far
      x.resil) :=
  ⟨h.pending, h.out, h.free, h.fw, h.hub, h.reach, fun g => ⟨(h.sound g).objs, (h.sound g).pend, (h.sound g).cells,
    (h.sound g).log, k (h.sound g).fallback, (h.sound g).readies⟩⟩

/-- The collectives' part changed in a way that keeps the readies within their bound. -/
theorem Keeps.changeColls {s0 x : State} {co : Colls} (h : Keeps s0 x)
    (k : x.colls.readies.length ≤ 16384 → co.readies.length ≤ 16384) :
    Keeps s0 (State.mk x.pending x.out x.freeCtr x.dict x.sched x.num x.mem x.ports x.timing co x.sec x.rst x.far
      x.resil) :=
  ⟨h.pending, h.out, h.free, h.fw, h.hub, h.reach, fun g => ⟨(h.sound g).objs, (h.sound g).pend, (h.sound g).cells,
    (h.sound g).log, (h.sound g).fallback, k (h.sound g).readies⟩⟩

/-- Generations programmed. -/
theorem Keeps.program {s0 x y : State} {se : Security} (h : Keeps s0 x) (k : Keeps s0 y)
    (h5 : y.sec.fwFloors <+: se.fwFloors) (h6 : y.sec.hubFloors <+: se.hubFloors)
    (h7 : y.sec.reachTables <+: se.reachTables) :
    Keeps s0 (State.mk x.pending x.out x.freeCtr x.dict x.sched x.num x.mem x.ports x.timing x.colls se x.rst x.far
      x.resil) :=
  ⟨h.pending, h.out, h.free, k.fw.trans h5, k.hub.trans h6, k.reach.trans h7, fun g => ⟨(h.sound g).objs,
    (h.sound g).pend, (h.sound g).cells, (h.sound g).log, (h.sound g).fallback, (h.sound g).readies⟩⟩

/-! ### The primitive changes -/

/-- An object set. -/
theorem setObj_kept {s0 s : State} (key v : Nat) (h : Keeps s0 s) : Keeps s0 (s.setObj key v) :=
  h.shrink rising_mapPut id (Nat.le_refl _) (Nat.le_refl _) id (Nat.le_refl _) List.prefix_rfl
    List.prefix_rfl List.prefix_rfl

/-- Something sent. -/
theorem emit_kept {s0 s : State} (o : Out) (h : Keeps s0 s) : Keeps s0 (s.emit o) :=
  ⟨h.pending, h.out.trans (List.prefix_append _ _), h.free, h.fw, h.hub, h.reach, fun g => ⟨(h.sound g).objs,
    (h.sound g).pend, (h.sound g).cells, (h.sound g).log, (h.sound g).fallback, (h.sound g).readies⟩⟩

/-- A record appended to the log, which holds 4,096 at most. -/
theorem appendLog_kept {s0 s : State} {e : EventRec} {c : NatMap} (h : Keeps s0 s) :
    Keeps s0 { s with dict := { s.dict with
      log := (if decide (4096 ≤ s.dict.log.length) = true then s.dict.log.drop 1 else s.dict.log) ++ [e]
      eventCounts := c } } := by
  refine ⟨h.pending, h.out, h.free, h.fw, h.hub, h.reach, fun g => ⟨(h.sound g).objs, (h.sound g).pend,
    (h.sound g).cells, ?_, (h.sound g).fallback, (h.sound g).readies⟩⟩
  have l := (h.sound g).log
  show List.length (_ ++ _) ≤ _
  by_cases f : 4096 ≤ s.dict.log.length
  · simp only [f, decide_true, if_true, List.length_append, List.length_drop, List.length_cons, List.length_nil]
    omega
  · simp only [f, decide_false, Bool.false_eq_true, if_false, List.length_append, List.length_cons, List.length_nil]
    omega

end Sys2Proof.Safety
end

