-- ==== Sys2Proof/Laws/Works.lean ====
section
/-! SUPPORT. What the work of a task can do, said once: the ways in which a change of state keeps what `Works` names. -/

namespace Sys2Proof.Safety

open Sys2Proof.Machine

theorem Works.refl (s : State) : Works s s := ⟨.refl s, rfl, fun _ => rfl, rfl, fun h => ⟨h, fun _ _ => rfl⟩⟩

theorem Works.trans {a b c : State} (h : Works a b) (k : Works b c) : Works a c :=
  ⟨h.keeps.trans k.keeps, k.frame.trans h.frame, fun p => (k.places p).trans (h.places p), k.records.trans h.records,
    fun r => ⟨(k.objs (h.objs r).1).1, fun j n => ((k.objs (h.objs r).1).2 j n).trans ((h.objs r).2 j n)⟩⟩

/-- A change beside which everything that `Works` names is kept. -/
theorem Works.change {s0 x : State} {fc : Nat} {d : Dict} {sc : Sched} {nm : Numerics} {mm : Mem} (h : Works s0 x)
    (hk : Keeps s0 (State.mk x.pending x.out fc d sc nm mm x.ports x.timing x.colls x.sec x.rst x.far x.resil))
    (ho : d.objs = x.dict.objs) (hp : mm.pages = x.mem.pages) (ht : sc.tasks = x.sched.tasks)
    (hf : workFrame (State.mk x.pending x.out fc d sc nm mm x.ports x.timing x.colls x.sec x.rst x.far x.resil) =
      workFrame x) :
    Works s0 (State.mk x.pending x.out fc d sc nm mm x.ports x.timing x.colls x.sec x.rst x.far x.resil) := by
  refine ⟨hk, hf.trans h.frame, fun p => ?_, ?_, fun r => ?_⟩
  · show entPlace (mapGet 0 mm.pages p) = _
    rw [hp]
    exact h.places p
  · show sc.tasks.map (·.record) = _
    rw [ht]
    exact h.records
  · show Rising d.objs ∧ ∀ k, k ∉ workObjs → (mapFind d.objs k).getD (objDefault k) = _
    rw [ho]
    exact h.objs r

/-- A change that leaves every part named by `Works` as it was. -/
theorem Works.upd {s0 x : State} {d : Dict} {sc : Sched} {nm : Numerics} {mm : Mem} (h : Works s0 x)
    (ho : d.objs = x.dict.objs) (hd : d.pend = x.dict.pend) (hl : d.log = x.dict.log)
    (hb : sc.fallback = x.sched.fallback) (hc : mm.cells = x.mem.cells) (hp : mm.pages = x.mem.pages)
    (ht : sc.tasks = x.sched.tasks)
    (hf : workFrame (State.mk x.pending x.out x.freeCtr d sc nm mm x.ports x.timing x.colls x.sec x.rst x.far x.resil) =
      workFrame x) :
    Works s0 (State.mk x.pending x.out x.freeCtr d sc nm mm x.ports x.timing x.colls x.sec x.rst x.far x.resil) :=
  h.change (h.keeps.upd ho hd hl hb hc rfl rfl rfl rfl) ho hp ht hf

/-- Memory changed in a way that keeps its form. -/
theorem Works.changeMem {s0 x : State} {mm : Mem} (h : Works s0 x) (k : memWf x.mem.cells = true → memWf mm.cells = true)
    (hp : mm.pages = x.mem.pages)
    (hf : workFrame (State.mk x.pending x.out x.freeCtr x.dict x.sched x.num mm x.ports x.timing x.colls x.sec x.rst x.far
      x.resil) = workFrame x) :
    Works s0 (State.mk x.pending x.out x.freeCtr x.dict x.sched x.num mm x.ports x.timing x.colls x.sec x.rst x.far
      x.resil) :=
  h.change (h.keeps.changeMem k) rfl hp rfl hf

/-- Free values taken. -/
theorem Works.addFree {s0 x : State} {n : Nat} (h : Works s0 x) :
    Works s0 (State.mk x.pending x.out (x.freeCtr + n) x.dict x.sched x.num x.mem x.ports x.timing x.colls x.sec x.rst
      x.far x.resil) :=
  h.change h.keeps.addFree rfl rfl rfl rfl

end Sys2Proof.Safety
end

