-- ==== Sys2Proof/Laws/WorksOps.lean ====
section
/-! SUPPORT. The parts of the work of tasks in Machine/Ops.lean change only what `Works` allows. -/

namespace Sys2Proof.Safety

open Sys2Proof.Machine

theorem setObj_works {s0 s : State} (key v : Nat) (h : Works s0 s) (hk : key ∈ workObjs) : Works s0 (s.setObj key v) := by
  refine ⟨setObj_kept _ _ h.keeps, h.frame, h.places, h.records, fun r => ?_⟩
  obtain ⟨r1, r2⟩ := h.objs r
  refine ⟨rising_mapPut r1, fun k hn => ?_⟩
  have hne : k ≠ key := fun e => hn (e ▸ hk)
  rw [← r2 k hn]
  exact obj_setObj_ne r1 hne

theorem addObj_works {s0 : State} {s : State} (key n : Nat) (h_s : Works s0 s) (hk : key ∈ workObjs) :
    Works s0 (State.addObj s key n) := by
  unfold State.addObj
  repeat' with_reducible first | assumption | apply setObj_works | apply Pass.ite (P := Works s0)

theorem count_works {s0 : State} {s : State} (key : Nat) (h_s : Works s0 s) (hk : key ∈ workObjs) :
    Works s0 (State.count s key) := by
  unfold State.count
  repeat' with_reducible first | assumption | apply addObj_works

theorem takeFree_works {s0 s : State} (w : Nat) (h : Works s0 s) : Works s0 (State.takeFree w s).2 :=
  h.addFree

theorem emit_works {s0 s : State} (o : Out) (h : Works s0 s) : Works s0 (s.emit o) :=
  ⟨emit_kept _ h.keeps, h.frame, h.places, h.records, h.objs⟩

theorem armVector_works {s0 : State} {s : State} (v : Nat) (h_s : Works s0 s) :
    Works s0 (State.armVector s v) := by
  unfold State.armVector
  repeat' first
    | (extract_lets -underBinder +onlyGivenNames x; guard_hyp x : Dict := _; have x := trivial)
    | (with_reducible refine Works.upd ?_ rfl rfl rfl rfl rfl rfl rfl rfl; with_reducible assumption)

theorem appendEvent_works {s0 s : State} (e : EventRec) (h : Works s0 s) : Works s0 (s.appendEvent e) := by
  unfold State.appendEvent
  extract_lets seq e' full log d s1 s2 s3
  have h1 : Works s0 s1 := h.change (appendLog_kept h.keeps) rfl rfl rfl rfl
  have h3 : Works s0 s3 := by
    unfold s3
    split
    · exact addObj_works _ _ (count_works _ (setObj_works _ _ h1 (by decide)) (by decide)) (by decide)
    · exact setObj_works _ _ h1 (by decide)
  exact armVector_works _ h3

theorem raise_works {s0 : State} {s : State} (code source unit : Nat) (w0 : Nat) (w1 : Nat) (w2 : Nat) (w3 : Nat) (w4 : Nat) (h_s : Works s0 s) :
    Works s0 (State.raise s code source unit w0 w1 w2 w3 w4) := by
  unfold State.raise
  repeat' with_reducible first | assumption | apply appendEvent_works

theorem setTickEvent_works {s0 : State} {s : State} (e : EventRec) (h_s : Works s0 s) :
    Works s0 (State.setTickEvent s e) := by
  unfold State.setTickEvent
  repeat' first
    | (extract_lets -underBinder +onlyGivenNames x; guard_hyp x : Dict := _; have x := trivial)
    | (with_reducible refine Works.upd ?_ rfl rfl rfl rfl rfl rfl rfl rfl; with_reducible assumption)

theorem noteStale_works {s0 : State} {s : State} (h_s : Works s0 s) :
    Works s0 (State.noteStale s) := by
  unfold State.noteStale
  repeat' first
    | with_reducible assumption
    | decide
    | (extract_lets -underBinder +onlyGivenNames x; first
      | (with_reducible refine Pass.cut (P := Works s0) (x := x) ?_ fun hx => ?_; rotate_left; clear_value x; have x := trivial; rotate_left; unfold x; clear x)
      | (guard_hyp x : _ := _; clear_value x; have x := trivial))
    | with_reducible first | apply count_works | apply setTickEvent_works

theorem noteDenied_works {s0 : State} {s : State} (cls unit address kind : Nat) (h_s : Works s0 s) :
    Works s0 (State.noteDenied s cls unit address kind) := by
  unfold State.noteDenied
  repeat' first
    | with_reducible assumption
    | decide
    | (extract_lets -underBinder +onlyGivenNames x; with_reducible refine Pass.cut (P := Works s0) (x := x) ?_ fun hx => ?_; rotate_left; clear_value x; have x := trivial; rotate_left; unfold x; clear x)
    | with_reducible first | apply count_works | apply setTickEvent_works
    | split

theorem uncorrected_works {s0 : State} {s : State} (loc record : Nat) (h_s : Works s0 s) :
    Works s0 (State.uncorrected s loc record) := by
  unfold State.uncorrected
  repeat' first
    | with_reducible assumption
    | decide
    | with_reducible first | apply setObj_works | apply count_works | apply raise_works

theorem haltWith_works {s0 : State} {s : State} (cause record : Nat) (h_s : Works s0 s) :
    Works s0 (State.haltWith s cause record) := by
  unfold State.haltWith
  repeat' first
    | with_reducible assumption
    | (extract_lets -underBinder +onlyGivenNames x; guard_hyp x : Sched := _; have x := trivial)
    | split
    | (with_reducible refine Works.upd ?_ rfl rfl rfl rfl rfl rfl rfl rfl; with_reducible assumption)

theorem taskFault_works {s0 : State} {s : State} (source unit record cause detail : Nat) (h_s : Works s0 s) :
    Works s0 (State.taskFault s source unit record cause detail) := by
  unfold State.taskFault
  repeat' with_reducible first | assumption | apply raise_works | apply haltWith_works

theorem mod_works {s0 : State} (f : State → State) (h_f : ∀ y : State, Works s0 y → Works s0 (f y)) :
    PassM (Works s0) (mod f) := PassM.mod h_f

theorem freeM_works {s0 : State} (w : Nat) :
    PassM (Works s0) (freeM w : M Nat) := by
  unfold freeM
  repeat' first
    | intro _
    | with_reducible first
        | assumption | apply takeFree_works | apply PassM.pure | apply PassM.getBind | apply PassM.set
        | apply PassM.bind

end Sys2Proof.Safety
end

