-- ==== Sys2Proof/Laws/WorksMemory.lean ====
section
/-! SUPPORT. The parts of the work of tasks in Machine/Memory.lean change only what `Works` allows. -/

namespace Sys2Proof.Safety

open Sys2Proof.Machine

theorem writeBack_works {s0 : State} {s : State} (line : Nat) (h_s : Works s0 s) :
    Works s0 (State.writeBack s line) := by
  unfold State.writeBack
  repeat' first
    | with_reducible assumption
    | decide
    | (extract_lets -underBinder +onlyGivenNames x; first
      | (with_reducible refine Pass.cut (P := Works s0) (x := x) ?_ fun hx => ?_; rotate_left; clear_value x; have x := trivial; rotate_left; unfold x; clear x)
      | (guard_hyp x : Mem := _; have x := trivial))
    | with_reducible first | apply addObj_works | apply count_works
    | (with_reducible refine Works.upd ?_ rfl rfl rfl rfl rfl rfl rfl rfl; with_reducible assumption)

theorem touchLine_works {s0 : State} {s : State} (req : Req) (write : Bool) (line bytes : Nat) (h_s : Works s0 s) :
    Works s0 (State.touchLine s req write line bytes) := by
  unfold State.touchLine
  repeat' first
    | with_reducible assumption
    | decide
    | (extract_lets -underBinder +onlyGivenNames x; first
      | (with_reducible refine Pass.cut (P := Works s0) (x := x) ?_ fun hx => ?_; rotate_left; clear_value x; have x := trivial; rotate_left; unfold x; clear x)
      | (guard_hyp x : Mem := _; have x := trivial)
      | (guard_hyp x : _ := _; clear_value x; have x := trivial))
    | with_reducible first
        | apply addObj_works | apply count_works | apply writeBack_works | apply Pass.ite (P := Works s0)
    | split
    | (with_reducible refine Works.upd ?_ rfl rfl rfl rfl rfl rfl rfl rfl; with_reducible assumption)

theorem physWrite_works {s0 s : State} (a : Nat) (bs : List Byte) (h : Works s0 s) :
    Works s0 (s.physWrite a bs) :=
  h.changeMem memWf_memPutAll rfl rfl

theorem touch_works {s0 : State} {s : State} (req : Req) (write : Bool) (a n : Nat) (h_s : Works s0 s) :
    Works s0 (State.touch s req write a n) := by
  unfold State.touch
  repeat' first
    | intro _
    | with_reducible first | assumption | apply touchLine_works | apply Pass.foldl (P := Works s0)

theorem entPlace_setField (e v : Nat) : entPlace (setField e 58 43 v) = entPlace e := by
  unfold entPlace setField field
  simp only [Nat.shiftLeft_eq, Nat.shiftRight_eq_div_pow, Nat.reduceAdd, Nat.reduceSub, Nat.reducePow]
  exact Prod.ext (by simp only; omega) (by simp only; omega)

theorem setEntry_works {s0 s : State} (page e : Nat) (h : Works s0 s) (he : e ≠ 0)
    (hp : entPlace e = entPlace (s.entry page)) : Works s0 (s.setEntry page e) := by
  refine ⟨h.keeps.changeMem id, h.frame, fun p => ?_, h.records, h.objs⟩
  refine Eq.trans ?_ (h.places p)
  show entPlace (mapGet 0 (mapPut 0 s.mem.pages page e) p) = entPlace (mapGet 0 s.mem.pages p)
  by_cases g : p = page
  · subst g
    rw [mapGet_mapPut_self he]
    exact hp
  · rw [mapGet_mapPut_ne he g]

theorem addCount_works {s0 s : State} (page n : Nat) (h : Works s0 s) : Works s0 (s.addCount page n) := by
  unfold State.addCount
  extract_lets e
  split
  · exact h
  · rename_i hc
    have hs := entPlace_setField e (min 65535 (entCount e + n))
    refine setEntry_works _ _ h (fun hz => hc (.inr (.inr ?_))) hs
    rw [hz] at hs
    have h2 : e / 2 ^ 59 = 0 := (congrArg Prod.fst hs).symm
    unfold entState field
    rw [Nat.shiftRight_eq_div_pow]
    omega

theorem translate_works {s0 : State} {s : State} (tc page : Nat) (h_s : Works s0 s) :
    Works s0 (State.translate s tc page) := by
  unfold State.translate
  repeat' first
    | with_reducible assumption
    | decide
    | (extract_lets -underBinder +onlyGivenNames x; first
      | (with_reducible refine Pass.cut (P := Works s0) (x := x) ?_ fun hx => ?_; rotate_left; clear_value x; have x := trivial; rotate_left; unfold x; clear x)
      | (guard_hyp x : Mem := _; have x := trivial)
      | (guard_hyp x : _ := _; clear_value x; have x := trivial))
    | with_reducible first
        | apply count_works | apply touchLine_works | apply addCount_works | apply Pass.ite (P := Works s0)
    | split
    | (with_reducible refine Works.upd ?_ rfl rfl rfl rfl rfl rfl rfl rfl; with_reducible assumption)

theorem scrambleByte_works {s0 : State} {s : State} (h_s : Works s0 s) :
    Works s0 (State.scrambleByte s) := by
  unfold State.scrambleByte
  repeat' first
    | with_reducible first
        | assumption | apply takeFree_works | apply physWrite_works | apply Pass.ite (P := Works s0)

theorem scrambleJob_works {s0 : State} {s : State} (h_s : Works s0 s) :
    Works s0 (State.scrambleJob s) := by
  unfold State.scrambleJob
  repeat' first
    | intro _
    | with_reducible first
        | assumption | apply takeFree_works | apply scrambleByte_works | apply Pass.foldl (P := Works s0)
        | apply Pass.ite (P := Works s0)

theorem refuse_works {s0 : State} {s : State} (cls unit right va : Nat) (h_s : Works s0 s) :
    Works s0 (State.refuse s cls unit right va) := by
  unfold State.refuse
  repeat' with_reducible first | assumption | apply noteDenied_works

theorem discardMsg_works {s0 : State} {s : State} (msg : Bool) (h_s : Works s0 s) :
    Works s0 (State.discardMsg s msg) := by
  unfold State.discardMsg
  repeat' first
    | with_reducible assumption
    | decide
    | with_reducible first | apply count_works | apply Pass.ite (P := Works s0)

theorem checkRights_works {s0 : State} (i : Init) (right va : Nat) :
    PassM (Works s0) (checkRights i right va : M Unit) := by
  unfold checkRights
  repeat' first
    | intro _
    | with_reducible first
        | assumption | apply refuse_works | apply discardMsg_works | apply PassM.pure | apply PassM.throw
        | apply PassM.getBind | apply PassM.set | apply PassM.bind | apply PassM.ite

theorem useFreed_works {s0 : State} {s : State} (page : Nat) (h_s : Works s0 s) :
    Works s0 (State.useFreed s page) := by
  unfold State.useFreed
  repeat' with_reducible first | assumption | apply scrambleJob_works | apply Pass.ite (P := Works s0)

theorem absentPage_works {s0 : State} {α : Type} (va : Nat) :
    PassM (Works s0) (absentPage va : M α) := by
  unfold absentPage
  repeat' first
    | intro _
    | with_reducible assumption
    | decide
    | with_reducible first
        | apply count_works | apply mod_works | apply useFreed_works | apply PassM.throw | apply PassM.bind

theorem checkHostLink_works {s0 : State}  :
    PassM (Works s0) (checkHostLink : M Unit) := by
  unfold checkHostLink
  repeat' first
    | intro _
    | with_reducible assumption
    | decide
    | with_reducible first
        | apply count_works | apply PassM.pure | apply PassM.throw | apply PassM.getBind | apply PassM.set
        | apply PassM.bind | apply PassM.ite

theorem freeBytes_works {s0 : State} (n : Nat) :
    PassM (Works s0) (freeBytes n : M (List Byte)) := by
  unfold freeBytes
  repeat' first
    | intro _
    | with_reducible first | apply freeM_works | apply PassM.pure | apply PassM.bind | apply PassM.mapM

theorem readPiece_works {s0 : State} (i : Init) (req : Req) (va n : Nat) :
    PassM (Works s0) (readPiece i req va n : M (List Byte)) := by
  unfold readPiece
  repeat' first
    | intro _
    | with_reducible assumption
    | decide
    | (extract_lets -underBinder +onlyGivenNames x; first
      | (with_reducible refine PassM.cut (P := Works s0) (x := x) ?_ fun hx => ?_; rotate_left; clear_value x; have x := trivial; rotate_left; unfold x; clear x)
      | (guard_hyp x : _ := _; clear_value x; have x := trivial))
    | with_reducible first
        | apply setObj_works | apply addObj_works | apply count_works | apply emit_works | apply mod_works
        | apply touch_works | apply translate_works | apply checkRights_works | apply absentPage_works
        | apply checkHostLink_works | apply freeBytes_works | apply PassM.pure | apply PassM.throw
        | apply PassM.getBind | apply PassM.bind | apply_assumption -exfalso -symm | apply Pass.ite (P := Works s0)
        | apply PassM.ite
    | split

theorem readBytes_works {s0 : State} (i : Init) (req : Req) (va n : Nat) :
    PassM (Works s0) (readBytes i req va n : M (List Byte)) := by
  unfold readBytes
  repeat' first
    | intro _
    | with_reducible first
        | apply absentPage_works | apply readPiece_works | apply PassM.pure | apply PassM.bind | apply PassM.mapM
        | apply PassM.ite

theorem storeAt_works {s0 : State} {s : State} (req : Req) (va : Nat) (bs : List Byte) (h_s : Works s0 s) :
    Works s0 (State.storeAt s req va bs) := by
  unfold State.storeAt
  repeat' first
    | with_reducible assumption
    | decide
    | (extract_lets -underBinder +onlyGivenNames x; first
      | (with_reducible refine Pass.cut (P := Works s0) (x := x) ?_ fun hx => ?_; rotate_left; clear_value x; have x := trivial; rotate_left; unfold x; clear x)
      | (guard_hyp x : _ := _; clear_value x; have x := trivial))
    | with_reducible first
        | apply addObj_works | apply physWrite_works | apply touch_works | apply Pass.ite (P := Works s0)

theorem hold_works {s0 : State} {s : State} (i : Init) (req : Req) (va : Nat) (bs : List Byte) (op : Option AtomicOp) (h_s : Works s0 s) :
    Works s0 (State.hold s i req va bs op) := by
  unfold State.hold
  repeat' first
    | (extract_lets -underBinder +onlyGivenNames x; guard_hyp x : Mem := _; have x := trivial)
    | split
    | (with_reducible refine Works.upd ?_ rfl rfl rfl rfl rfl rfl rfl rfl; with_reducible assumption)

theorem noteRewrite_works {s0 : State} {s : State} (i : Init) (va n : Nat) (h_s : Works s0 s) :
    Works s0 (State.noteRewrite s i va n) := by
  unfold State.noteRewrite
  repeat' first
    | with_reducible assumption
    | (extract_lets -underBinder +onlyGivenNames x; first
      | (with_reducible refine Pass.cut (P := Works s0) (x := x) ?_ fun hx => ?_; rotate_left; clear_value x; have x := trivial; rotate_left; unfold x; clear x)
      | (guard_hyp x : Sched := _; have x := trivial)
      | (guard_hyp x : Mem := _; have x := trivial))
    | with_reducible apply Pass.ite (P := Works s0)
    | (with_reducible refine Works.upd ?_ rfl rfl rfl rfl rfl rfl rfl rfl; with_reducible assumption)

theorem writePiece_works {s0 : State} (i : Init) (req : Req) (va : Nat) (bs : List Byte) :
    PassM (Works s0) (writePiece i req va bs : M Unit) := by
  unfold writePiece
  repeat' first
    | intro _
    | with_reducible assumption
    | decide
    | (extract_lets -underBinder +onlyGivenNames x; first
      | (with_reducible refine PassM.cut (P := Works s0) (x := x) ?_ fun hx => ?_; rotate_left; clear_value x; have x := trivial; rotate_left; unfold x; clear x)
      | (guard_hyp x : _ := _; clear_value x; have x := trivial))
    | with_reducible first
        | apply addObj_works | apply emit_works | apply noteStale_works | apply mod_works | apply translate_works
        | apply checkRights_works | apply absentPage_works | apply checkHostLink_works | apply storeAt_works
        | apply hold_works | apply noteRewrite_works | apply PassM.throw | apply PassM.getBind | apply PassM.bind
        | apply_assumption -exfalso -symm | apply PassM.ite
    | split

theorem writeBytes_works {s0 : State} (i : Init) (req : Req) (va : Nat) (bs : List Byte) :
    PassM (Works s0) (writeBytes i req va bs : M Unit) := by
  unfold writeBytes
  repeat' first
    | intro _
    | with_reducible first | apply absentPage_works | apply writePiece_works | apply PassM.forM | apply PassM.ite

theorem readNat_works {s0 : State} (i : Init) (req : Req) (va n : Nat) :
    PassM (Works s0) (readNat i req va n : M Nat) := by
  unfold readNat
  repeat' first
    | intro _
    | with_reducible first | apply readBytes_works | apply PassM.pure | apply PassM.bind

theorem writeNat_works {s0 : State} (i : Init) (req : Req) (va n v : Nat) :
    PassM (Works s0) (writeNat i req va n v : M Unit) := by
  unfold writeNat
  repeat' with_reducible apply writeBytes_works

theorem performAtomic_works {s0 : State} {s : State} (op : AtomicOp) (a n v : Nat) (h_s : Works s0 s) :
    Works s0 (State.performAtomic s op a n v) := by
  unfold State.performAtomic
  repeat' first
    | with_reducible assumption
    | decide
    | (extract_lets -underBinder +onlyGivenNames x; with_reducible refine Pass.cut (P := Works s0) (x := x) ?_ fun hx => ?_; rotate_left; clear_value x; have x := trivial; rotate_left; unfold x; clear x)
    | with_reducible first | apply count_works | apply physWrite_works | apply touch_works

theorem atomic_works {s0 : State} (i : Init) (op : AtomicOp) (va n v : Nat) :
    PassM (Works s0) (atomic i op va n v : M Nat) := by
  unfold atomic
  repeat' first
    | intro _
    | with_reducible assumption
    | decide
    | (extract_lets -underBinder +onlyGivenNames x; first
      | (with_reducible refine PassM.cut (P := Works s0) (x := x) ?_ fun hx => ?_; rotate_left; clear_value x; have x := trivial; rotate_left; unfold x; clear x)
      | (guard_hyp x : _ := _; clear_value x; have x := trivial))
    | with_reducible first
        | apply count_works | apply noteStale_works | apply mod_works | apply translate_works | apply checkRights_works
        | apply absentPage_works | apply hold_works | apply performAtomic_works | apply PassM.pure | apply PassM.throw
        | apply PassM.getBind | apply PassM.bind | apply_assumption -exfalso -symm | apply PassM.ite
    | split

end Sys2Proof.Safety
end

