-- ==== Sys2Proof/Laws/WorksTasks.lean ====
section
/-! SUPPORT. The parts of the work of tasks in Machine/Tasks.lean change only what `Works` allows. -/

namespace Sys2Proof.Safety

open Sys2Proof.Machine

theorem setTask_works {s0 s : State} (t : Machine.Task) (h : Works s0 s) : Works s0 (s.setTask t) := by
  refine ⟨h.keeps.upd rfl rfl rfl rfl rfl rfl rfl rfl rfl, h.frame, h.places, ?_, h.objs⟩
  rw [← h.records]
  show (s.sched.tasks.map fun u => if u.record = t.record then t else u).map (·.record) = _
  rw [List.map_map]
  apply List.map_congr_left
  intro u _
  show (if u.record = t.record then t else u).record = u.record
  split
  · rename_i g
    exact g.symm
  · rfl

theorem scramble_works {s0 : State} {s : State} (writers : List Nat) (va n : Nat) (h_s : Works s0 s) :
    Works s0 (State.scramble s writers va n) := by
  unfold State.scramble
  repeat' first
    | intro _
    | with_reducible assumption
    | (extract_lets -underBinder +onlyGivenNames x; guard_hyp x : _ := _; clear_value x; have x := trivial)
    | with_reducible first
        | apply physWrite_works | apply Pass.foldl (P := Works s0) | apply Pass.ite (P := Works s0)
        | apply Works.addFree

theorem undefinedJob_works {s0 : State} {α : Type} :
    PassM (Works s0) (undefinedJob : M α) := by
  unfold undefinedJob
  repeat' first
    | intro _
    | with_reducible first
        | assumption | apply mod_works | apply scrambleJob_works | apply PassM.throw | apply PassM.bind

theorem failTask_works {s0 : State} {s : State} (t : Machine.Task) (outs : List (Nat × Nat)) (a : Abort) (h_s : Works s0 s) :
    Works s0 (State.failTask s t outs a) := by
  unfold State.failTask
  repeat' first
    | intro _
    | with_reducible assumption
    | (extract_lets -underBinder +onlyGivenNames x; with_reducible refine Pass.cut (P := Works s0) (x := x) ?_ fun hx => ?_; rotate_left; clear_value x; have x := trivial; rotate_left; unfold x; clear x)
    | with_reducible first
        | apply raise_works | apply uncorrected_works | apply haltWith_works | apply taskFault_works
        | apply setTask_works | apply scramble_works | apply Pass.foldl (P := Works s0)
    | split

theorem runWork_works {s0 : State} {s : State} (t : Machine.Task) (outs : List (Nat × Nat)) (body : M Unit) (h_s : Works s0 s) (h_body : PassM (Works s0) (body )) :
    PassO (Works s0) (runWork s t outs body) := by
  unfold runWork
  repeat' first
    | with_reducible first | assumption | apply setTask_works | apply failTask_works | apply PassO.next
    | split
    | refine PassM.ok ?_ ?_ (by with_reducible assumption)
    | refine PassM.error ?_ ?_ (by with_reducible assumption)

theorem modTask_works {s0 s : State} (r : Nat) (f : Machine.Task → Machine.Task) (h : Works s0 s) : Works s0 (s.modTask r f) := by
  unfold State.modTask
  split
  · refine ⟨h.keeps.upd rfl rfl rfl rfl rfl rfl rfl rfl rfl, h.frame, h.places, ?_, h.objs⟩
    rw [← h.records]
    show (s.sched.tasks.map fun u => if u.record = _ then _ else u).map (·.record) = _
    rw [List.map_map]
    apply List.map_congr_left
    intro u _
    dsimp only [Function.comp]
    split <;> rfl
  · exact h

end Sys2Proof.Safety
end

