-- ==== Sys2Proof/Laws/WorksTensor.lean ====
section
/-! SUPPORT. The parts of the work of tasks in Machine/Tensor.lean change only what `Works` allows. -/

namespace Sys2Proof.Safety

open Sys2Proof.Machine

theorem stick_works {s0 : State} {s : State} (stream : Nat) (f : Flags) (h_s : Works s0 s) :
    Works s0 (State.stick s stream f) := by
  unfold State.stick
  repeat' first
    | with_reducible assumption
    | (extract_lets -underBinder +onlyGivenNames x; first
      | (guard_hyp x : Numerics := _; have x := trivial)
      | (guard_hyp x : _ := _; clear_value x; have x := trivial))
    | with_reducible apply Pass.ite (P := Works s0)
    | (with_reducible refine Works.upd ?_ rfl rfl rfl rfl rfl rfl rfl rfl; with_reducible assumption)

theorem arith_works {s0 : State} {α : Type} (c : Ctx) (x : F α) :
    PassM (Works s0) (arith c x : W α) := by
  unfold arith
  repeat' first
    | intro _
    | with_reducible assumption
    | (extract_lets -underBinder +onlyGivenNames x; with_reducible refine PassM.cut (P := Works s0) (x := x) ?_ fun hx => ?_; rotate_left; clear_value x; have x := trivial; rotate_left; unfold x; clear x)
    | with_reducible first
        | apply modTask_works | apply stick_works | apply PassM.pure | apply PassM.modify | apply PassM.bind
        | apply_assumption -exfalso -symm | apply PassM.ite

theorem tally_works {s0 : State} (key n : Nat) (hk : key ∈ workObjs) :
    PassM (Works s0) (tally key n : W Unit) := by
  unfold tally
  repeat' first
    | with_reducible assumption
    | intro _
    | with_reducible first | apply addObj_works | apply PassM.modify

theorem binWith_works {s0 : State} (c : Ctx) (stats : Nat) (f : Bins → Bins) :
    PassM (Works s0) (binWith c stats f : W Unit) := by
  unfold binWith
  repeat' first
    | intro _
    | with_reducible first
        | assumption | apply modTask_works | apply PassM.pure | apply PassM.modify | apply PassM.ite

theorem binElem_works {s0 : State} (c : Ctx) (d : Desc) (code : Nat) :
    PassM (Works s0) (binElem c d code : W Unit) := by
  unfold binElem
  repeat' with_reducible apply binWith_works

theorem binScale_works {s0 : State} (c : Ctx) (d : Desc) (e : Nat) :
    PassM (Works s0) (binScale c d e : W Unit) := by
  unfold binScale
  repeat' with_reducible apply binWith_works

theorem noteClamp_works {s0 : State} (c : Ctx) (d : Desc) :
    PassM (Works s0) (noteClamp c d : W Unit) := by
  unfold noteClamp
  repeat' first
    | intro _
    | with_reducible assumption
    | decide
    | with_reducible first
        | apply modTask_works | apply tally_works | apply binWith_works | apply PassM.modify | apply PassM.bind

theorem addAtomic_works {s0 : State} (ini : Init) (va n v : Nat) :
    PassM (Works s0) (addAtomic ini va n v : M Unit) := by
  unfold addAtomic
  repeat' first
    | intro _
    | with_reducible first | apply atomic_works | apply PassM.pure | apply PassM.bind | apply PassM.ite

theorem addBins_works {s0 : State} (ini : Init) (b : Bins) (first : Bool) :
    PassM (Works s0) (addBins ini b first : M Unit) := by
  unfold addBins
  repeat' first
    | intro _
    | (extract_lets -underBinder +onlyGivenNames x; first
      | (with_reducible refine PassM.cut (P := Works s0) (x := x) ?_ fun hx => ?_; rotate_left; clear_value x; have x := trivial; rotate_left; unfold x; clear x)
      | (guard_hyp x : _ := _; clear_value x; have x := trivial))
    | with_reducible first
        | apply atomic_works | apply addAtomic_works | apply PassM.pure | apply PassM.getBind | apply PassM.bind
        | apply PassM.forM | apply_assumption -exfalso -symm | apply PassM.ite
    | split

theorem addAllBins_works {s0 : State} (ini : Init) (bs : List Bins) (seen : List Nat) :
    PassM (Works s0) (addAllBins ini bs seen) := by
  induction bs generalizing seen with
  | nil => exact PassM.pure
  | cons b bs ih => exact PassM.bind (addBins_works _ _ _) fun _ => ih _

theorem settleBins_works {s0 : State} (ini : Init) :
    PassM (Works s0) (settleBins ini : M Unit) := by
  unfold settleBins
  repeat' first
    | intro _
    | with_reducible assumption
    | (extract_lets -underBinder +onlyGivenNames x; guard_hyp x : _ := _; clear_value x; have x := trivial)
    | with_reducible first
        | apply mod_works | apply modTask_works | apply addAllBins_works | apply PassM.getBind | apply PassM.bind

theorem runBins_works {s0 : State} (ini : Init) (w : W Unit) (h_w : PassM (Works s0) (w )) :
    PassM (Works s0) (runBins ini w : M Unit) := by
  unfold runBins
  repeat' first
    | intro _
    | with_reducible first
        | assumption | apply settleBins_works | apply PassM.pure | apply PassM.throw | apply PassM.bind
        | apply PassM.catch

theorem markEnd_works {s0 : State} (r code source w2 w3 w4 : Nat) :
    PassM (Works s0) (markEnd r code source w2 w3 w4 : W Unit) := by
  unfold markEnd
  repeat' first
    | intro _
    | with_reducible first | assumption | apply modTask_works | apply PassM.modify

theorem fetchDesc_works {s0 : State} (c : Ctx) (addr : Nat) :
    PassM (Works s0) (fetchDesc c addr : W Nat) := by
  unfold fetchDesc
  repeat' first
    | intro _
    | (extract_lets -underBinder +onlyGivenNames x; with_reducible refine PassM.cut (P := Works s0) (x := x) ?_ fun hx => ?_; rotate_left; clear_value x; have x := trivial; rotate_left; unfold x; clear x)
    | with_reducible first
        | apply readNat_works | apply undefinedJob_works | apply PassM.pure | apply PassM.getBind | apply PassM.bind
        | apply_assumption -exfalso -symm | apply PassM.ite

theorem getDesc_works {s0 : State} (c : Ctx) (addr : Nat) :
    PassM (Works s0) (getDesc c addr : W Desc) := by
  unfold getDesc
  repeat' first
    | intro _
    | with_reducible first | apply fetchDesc_works | apply PassM.pure | apply PassM.getBind | apply PassM.bind
    | split

theorem getDesc?_works {s0 : State} (c : Ctx) (addr : Nat) :
    PassM (Works s0) (getDesc? c addr : W (Option Desc)) := by
  unfold getDesc?
  repeat' first
    | intro _
    | with_reducible first | apply getDesc_works | apply PassM.pure | apply PassM.bind | apply PassM.ite

theorem readCode_works {s0 : State} (c : Ctx) (d : Desc) (co : List Nat) :
    PassM (Works s0) (readCode c d co : W Nat) := by
  unfold readCode
  repeat' first
    | intro _
    | (extract_lets -underBinder +onlyGivenNames x; guard_hyp x : _ := _; clear_value x; have x := trivial)
    | with_reducible first
        | apply readBytes_works | apply readNat_works | apply PassM.pure | apply PassM.bind | apply PassM.foldlM
        | apply PassM.ite

theorem tensorScale_works {s0 : State} (c : Ctx) (d : Desc) :
    PassM (Works s0) (tensorScale c d : W Machine.Num) := by
  unfold tensorScale
  repeat' first
    | intro _
    | with_reducible first
        | apply readNat_works | apply PassM.pure | apply PassM.getBind | apply PassM.bind | apply PassM.ite
    | split

theorem readScaleCode_works {s0 : State} (c : Ctx) (d : Desc) (co : List Nat) :
    PassM (Works s0) (readScaleCode c d co : W (Option Nat)) := by
  unfold readScaleCode
  repeat' first
    | intro _
    | with_reducible first | apply readNat_works | apply PassM.pure | apply PassM.bind | apply PassM.ite

theorem readElem_works {s0 : State} (c : Ctx) (d : Desc) (ts : Machine.Num) (co : List Nat) :
    PassM (Works s0) (readElem c d ts co : W Machine.Num) := by
  unfold readElem
  repeat' first
    | intro _
    | with_reducible first
        | apply arith_works | apply readCode_works | apply readScaleCode_works | apply PassM.bind

theorem readRow_works {s0 : State} (c : Ctx) (d : Desc) (ts : Machine.Num) (r : Nat) :
    PassM (Works s0) (readRow c d ts r : W (List Machine.Num)) := by
  unfold readRow
  repeat' first
    | intro _
    | with_reducible first | apply readElem_works | apply PassM.mapM

theorem readSpan_works {s0 : State} (c : Ctx) (d : Desc) (lo hi : Int) (offs : List Int) :
    PassM (Works s0) (readSpan c d lo hi offs : W (List Nat)) := by
  unfold readSpan
  repeat' first
    | intro _
    | (extract_lets -underBinder +onlyGivenNames x; guard_hyp x : _ := _; clear_value x; have x := trivial)
    | with_reducible first
        | apply readBytes_works | apply PassM.pure | apply PassM.bind | apply PassM.mapM | apply PassM.ite

theorem readScales_works {s0 : State} (c : Ctx) (d : Desc) (e0 : Option (Nat × Nat)) (e1 : List (List Nat)) :
    PassM (Works s0) (readScales c d e0 e1 : W (List (Option Nat))) := by
  induction e1 generalizing e0 with
  | nil => unfold readScales; exact PassM.pure
  | cons a l ih =>
    unfold readScales
    repeat' first
      | intro _
      | (extract_lets -underBinder +onlyGivenNames x; first
        | (with_reducible refine PassM.cut (P := Works s0) (x := x) ?_ fun hx => ?_; rotate_left; clear_value x; have x := trivial; rotate_left; unfold x; clear x)
        | (guard_hyp x : _ := _; clear_value x; have x := trivial))
      | with_reducible first
          | apply ih | apply readNat_works | apply PassM.pure | apply PassM.bind | apply_assumption -exfalso -symm
          | apply PassM.ite
      | split

theorem loadRun_works {s0 : State} (c : Ctx) (d : Desc) (cos : List (List Nat)) :
    PassM (Works s0) (loadRun c d cos : W (List Elem)) := by
  unfold loadRun
  repeat' first
    | intro _
    | (extract_lets -underBinder +onlyGivenNames x; first
      | (with_reducible refine PassM.cut (P := Works s0) (x := x) ?_ fun hx => ?_; rotate_left; clear_value x; have x := trivial; rotate_left; unfold x; clear x)
      | (guard_hyp x : _ := _; clear_value x; have x := trivial))
    | with_reducible first
        | apply readCode_works | apply readSpan_works | apply readScales_works | apply PassM.pure | apply PassM.bind
        | apply PassM.mapM | apply_assumption -exfalso -symm | apply PassM.ite
    | split

theorem loadLines_works {s0 : State} (c : Ctx) (d : Desc) (along kr : Nat) (lines : List (List (List Nat))) :
    PassM (Works s0) (loadLines c d along kr lines : W (List (List Elem))) := by
  unfold loadLines
  repeat' first
    | intro _
    | with_reducible first
        | apply loadRun_works | apply PassM.pure | apply PassM.bind | apply PassM.mapM | apply PassM.ite

theorem writeBits_works {s0 : State} (ini : Init) (req : Req) (va mask v : Nat) :
    PassM (Works s0) (writeBits ini req va mask v : M Unit) := by
  unfold writeBits
  repeat' first
    | intro _
    | (extract_lets -underBinder +onlyGivenNames x; guard_hyp x : _ := _; clear_value x; have x := trivial)
    | with_reducible first | apply writeBytes_works | apply PassM.getBind

theorem writeCode_works {s0 : State} (c : Ctx) (d : Desc) (co : List Nat) (code : Nat) :
    PassM (Works s0) (writeCode c d co code : W Unit) := by
  unfold writeCode
  repeat' first
    | intro _
    | (extract_lets -underBinder +onlyGivenNames x; guard_hyp x : _ := _; clear_value x; have x := trivial)
    | with_reducible first | apply writeNat_works | apply writeBits_works | apply PassM.forM | apply PassM.ite

theorem checkOutput_works {s0 : State} (d : Desc) :
    PassM (Works s0) (checkOutput d : W Unit) := by
  unfold checkOutput
  repeat' with_reducible first | apply undefinedJob_works | apply PassM.pure | apply PassM.ite

theorem outFactor_works {s0 : State} (c : Ctx) (factor scale : Machine.Num) :
    PassM (Works s0) (outFactor c factor scale : W Machine.Num) := by
  unfold outFactor
  repeat' with_reducible apply arith_works

theorem draw_works {s0 : State} (c : Ctx) (p n : Nat) :
    PassM (Works s0) (draw c p n : W Nat) := by
  unfold draw
  repeat' first
    | intro _
    | with_reducible first | apply PassM.pure | apply PassM.getThe

theorem writeDraw_works {s0 : State} (c : Ctx) (d : Desc) (op : Nat) (co : List Nat) :
    PassM (Works s0) (writeDraw c d op co : W (Option Nat)) := by
  unfold writeDraw
  repeat' first
    | intro _
    | with_reducible first | apply draw_works | apply PassM.pure | apply PassM.bind | apply PassM.ite

theorem writeRun_works {s0 : State} (c : Ctx) (d : Desc) (op : Nat) (fac : Machine.Num) (co : List Nat) (vals : List Machine.Num) (bin : Bool) (mem : Bool) :
    PassM (Works s0) (writeRun c d op fac co vals bin mem : W (List (Nat × Option Nat))) := by
  unfold writeRun
  repeat' first
    | intro _
    | (extract_lets -underBinder +onlyGivenNames x; first
      | (with_reducible refine PassM.cut (P := Works s0) (x := x) ?_ fun hx => ?_; rotate_left; clear_value x; have x := trivial; rotate_left; unfold x; clear x)
      | (with_reducible refine PassM.cut2 (P := Works s0) (x := x) ?_ fun hx => ?_; rotate_left; clear_value x; have x := trivial; rotate_left; unfold x; clear x)
      | (guard_hyp x : _ := _; clear_value x; have x := trivial))
    | with_reducible first
        | apply writeNat_works | apply arith_works | apply binElem_works | apply binScale_works | apply writeCode_works
        | apply writeDraw_works | apply PassM.pure | apply PassM.getThe | apply PassM.bind | apply PassM.forM
        | apply PassM.mapM | apply_assumption -exfalso -symm | apply PassM.ite

theorem writeRow_works {s0 : State} (c : Ctx) (d : Desc) (op : Nat) (fac : Machine.Num) (r : Nat) (vals : List Machine.Num) :
    PassM (Works s0) (writeRow c d op fac r vals : W Unit) := by
  unfold writeRow
  repeat' first
    | intro _
    | with_reducible first | apply writeRun_works | apply PassM.pure | apply PassM.bind

theorem ownFactor_works {s0 : State} (c : Ctx) (d : Desc) :
    PassM (Works s0) (ownFactor c d : W Machine.Num) := by
  unfold ownFactor
  repeat' first
    | intro _
    | with_reducible first | apply tensorScale_works | apply outFactor_works | apply PassM.bind

theorem readIndex_works {s0 : State} (c : Ctx) (d : Desc) (ts : Machine.Num) (co : List Nat) :
    PassM (Works s0) (readIndex c d ts co : W Int) := by
  unfold readIndex
  repeat' first
    | intro _
    | with_reducible first
        | apply arith_works | apply readCode_works | apply readElem_works | apply PassM.pure | apply PassM.bind
        | apply PassM.ite

theorem clampDim_works {s0 : State} (c : Ctx) (d : Desc) (n : Nat) (i : Int) :
    PassM (Works s0) (clampDim c d n i : W Nat) := by
  unfold clampDim
  repeat' first
    | intro _
    | with_reducible first | apply noteClamp_works | apply PassM.pure | apply PassM.bind | apply PassM.ite

theorem runEngines_works {s0 : State} {s : State} (t : Machine.Task) (cls : Nat) (ini : Init) (outs : List Nat) (w : W Unit) (h_s : Works s0 s) (h_w : PassM (Works s0) (w )) :
    PassO (Works s0) (runEngines s t cls ini outs w) := by
  unfold runEngines
  repeat' with_reducible first | assumption | apply runWork_works | apply runBins_works

theorem undefinedIf_works {s0 : State} (b : Bool) :
    PassM (Works s0) (undefinedIf b : W Unit) := by
  unfold undefinedIf
  repeat' with_reducible first | apply PassM.pure | apply PassM.throw | apply PassM.ite

end Sys2Proof.Safety
end

