-- ==== Sys2Proof/Laws/WorksGather.lean ====
section
/-! SUPPORT. The parts of the work of tasks in Machine/Gather.lean change only what `Works` allows. -/

namespace Sys2Proof.Safety

open Sys2Proof.Machine

theorem rowRead_works {s0 : State} (c : Ctx) (d : Desc) (r : Nat) :
    PassM (Works s0) (rowRead c d r : W Ctx) := by
  unfold rowRead
  repeat' first
    | intro _
    | decide
    | (extract_lets -underBinder +onlyGivenNames x; guard_hyp x : _ := _; clear_value x; have x := trivial)
    | with_reducible first
        | apply tally_works | apply PassM.pure | apply PassM.getThe | apply PassM.bind | apply PassM.ite

theorem rowCodes_works {s0 : State} (c : Ctx) (d : Desc) (r : Nat) :
    PassM (Works s0) (rowCodes c d r : W (List Elem)) := by
  unfold rowCodes
  repeat' first
    | intro _
    | with_reducible first | apply loadRun_works | apply rowRead_works | apply PassM.bind

theorem readCodes_works {s0 : State} (c : Ctx) (d : Desc) (r : Nat) :
    PassM (Works s0) (readCodes c d r : W (List Elem)) := by
  unfold readCodes
  repeat' with_reducible apply rowCodes_works

theorem readWorking_works {s0 : State} (c : Ctx) (d : Desc) (ts : Machine.Num) (r : Nat) :
    PassM (Works s0) (readWorking c d ts r : W (List Machine.Num)) := by
  unfold readWorking
  repeat' first
    | intro _
    | with_reducible first | apply arith_works | apply readCodes_works | apply PassM.bind | apply PassM.mapM

theorem zeroCode_works {s0 : State} (c : Ctx) (d : Desc) :
    PassM (Works s0) (zeroCode c d : W Nat) := by
  unfold zeroCode
  repeat' with_reducible apply arith_works

theorem copyRow_works {s0 : State} (c : Ctx) (o : Desc) (r : Nat) (codes : List (Nat × Option Nat)) (pad mem : Bool) :
    PassM (Works s0) (copyRow c o r codes pad mem : W (List (Nat × Option Nat))) := by
  unfold copyRow
  repeat' first
    | intro _
    | (extract_lets -underBinder +onlyGivenNames x; first
      | (with_reducible refine PassM.cut (P := Works s0) (x := x) ?_ fun hx => ?_; rotate_left; clear_value x; have x := trivial; rotate_left; unfold x; clear x)
      | (guard_hyp x : _ := _; clear_value x; have x := trivial))
    | with_reducible first
        | apply writeNat_works | apply binElem_works | apply binScale_works | apply writeCode_works
        | apply zeroCode_works | apply PassM.pure | apply PassM.bind | apply PassM.mapM
        | apply_assumption -exfalso -symm | apply PassM.ite
    | split

theorem rowWritten_works {s0 : State} (d : Desc) (n : Nat) :
    PassM (Works s0) (rowWritten d n : W Unit) := by
  unfold rowWritten
  repeat' first
    | decide
    | with_reducible apply tally_works

theorem gatherIndex_works {s0 : State} (c : Ctx) (d : Desc) (ts : Machine.Num) (i : Nat) :
    PassM (Works s0) (gatherIndex c d ts i : W Int) := by
  unfold gatherIndex
  repeat' first
    | intro _
    | decide
    | with_reducible first | apply tally_works | apply readIndex_works | apply PassM.bind

theorem writeInt_works {s0 : State} (c : Ctx) (d : Desc) (op : Nat) (fac : Machine.Num) (i v : Nat) :
    PassM (Works s0) (writeInt c d op fac i v : W Unit) := by
  unfold writeInt
  repeat' first
    | intro _
    | decide
    | with_reducible first | apply tally_works | apply writeRun_works | apply PassM.pure | apply PassM.bind

theorem moveRow_works {s0 : State} (c : Ctx) (j : RowJob) (src dst : Nat) (weight : Option Machine.Num) (pad mem : Bool) :
    PassM (Works s0) (moveRow c j src dst weight pad mem : W (List (Nat × Option Nat))) := by
  unfold moveRow
  repeat' first
    | intro _
    | (extract_lets -underBinder +onlyGivenNames x; first
      | (with_reducible refine PassM.cut (P := Works s0) (x := x) ?_ fun hx => ?_; rotate_left; clear_value x; have x := trivial; rotate_left; unfold x; clear x)
      | (guard_hyp x : _ := _; clear_value x; have x := trivial))
    | with_reducible first
        | apply arith_works | apply writeRun_works | apply readCodes_works | apply readWorking_works
        | apply copyRow_works | apply rowWritten_works | apply PassM.pure | apply PassM.bind | apply PassM.mapM
        | apply_assumption -exfalso -symm | apply PassM.ite
    | split

theorem zeroRow_works {s0 : State} (c : Ctx) (o : Desc) (fac : Machine.Num) (r : Nat) (mem : Bool) :
    PassM (Works s0) (zeroRow c o fac r mem : W (List (Nat × Option Nat))) := by
  unfold zeroRow
  repeat' first
    | intro _
    | with_reducible first | apply writeRun_works | apply rowWritten_works | apply PassM.pure | apply PassM.bind

theorem gatherArgs_works {s0 : State} (c : Ctx) (image : Nat) :
    PassM (Works s0) (gatherArgs c image : W GatherArgs) := by
  unfold gatherArgs
  repeat' first
    | intro _
    | with_reducible first | apply getDesc?_works | apply PassM.pure | apply PassM.bind

theorem gatherRow_works {s0 : State} (c : Ctx) (j : RowJob) (b : Desc) (bts : Machine.Num) (w : Option (Desc × Machine.Num)) (r : Nat) (mem : Bool) :
    PassM (Works s0) (gatherRow c j b bts w r mem : W (List (Nat × Option Nat))) := by
  unfold gatherRow
  repeat' first
    | intro _
    | decide
    | (extract_lets -underBinder +onlyGivenNames x; with_reducible refine PassM.cut (P := Works s0) (x := x) ?_ fun hx => ?_; rotate_left; clear_value x; have x := trivial; rotate_left; unfold x; clear x)
    | with_reducible first
        | apply tally_works | apply readElem_works | apply clampDim_works | apply gatherIndex_works
        | apply moveRow_works | apply PassM.pure | apply PassM.bind | apply_assumption -exfalso -symm
    | split

theorem readTable_works {s0 : State} (c : Ctx) (t : Desc) (ts : Machine.Num) :
    PassM (Works s0) (readTable c t ts : W (List (Int × Int))) := by
  unfold readTable
  repeat' first
    | intro _
    | with_reducible first | apply gatherIndex_works | apply PassM.pure | apply PassM.bind | apply PassM.mapM

theorem packRow_works {s0 : State} (c : Ctx) (j : RowJob) (b : Desc) (bts : Machine.Num) (table : List (Int × Int)) (p : Nat) (mem : Bool) :
    PassM (Works s0) (packRow c j b bts table p mem : W (List (Nat × Option Nat))) := by
  unfold packRow
  repeat' first
    | intro _
    | with_reducible first
        | apply clampDim_works | apply gatherIndex_works | apply moveRow_works | apply zeroRow_works | apply PassM.bind
        | apply PassM.ite

theorem rowJob_works {s0 : State} (c : Ctx) (a o : Desc) :
    PassM (Works s0) (rowJob c a o : W RowJob) := by
  unfold rowJob
  repeat' first
    | intro _
    | with_reducible first
        | apply tensorScale_works | apply ownFactor_works | apply PassM.pure | apply PassM.bind

theorem deliverRow_works {s0 : State} (g e image r : Nat) :
    PassM (Works s0) (deliverRow g e image r : W (List (Nat × Option Nat))) := by
  unfold deliverRow
  repeat' first
    | intro _
    | (extract_lets -underBinder +onlyGivenNames x; first
      | (with_reducible refine PassM.cut (P := Works s0) (x := x) ?_ fun hx => ?_; rotate_left; clear_value x; have x := trivial; rotate_left; unfold x; clear x)
      | (guard_hyp x : _ := _; clear_value x; have x := trivial))
    | with_reducible first
        | apply tensorScale_works | apply undefinedIf_works | apply gatherArgs_works | apply gatherRow_works
        | apply readTable_works | apply packRow_works | apply rowJob_works | apply PassM.pure | apply PassM.throw
        | apply PassM.bind | apply_assumption -exfalso -symm | apply PassM.ite
    | split

theorem gatherWork_works {s0 : State} (partner : Bool) (body : Machine.Task → Ctx → GatherArgs → W Unit) (r : Nat) (t : Machine.Task) (h_body : ∀ a0 a1 a2, PassM (Works s0) (body a0 a1 a2)) :
    PassM (Works s0) (gatherWork partner body r t : W Unit) := by
  unfold gatherWork
  repeat' first
    | intro _
    | (extract_lets -underBinder +onlyGivenNames x; guard_hyp x : _ := _; clear_value x; have x := trivial)
    | with_reducible first
        | apply h_body | apply undefinedIf_works | apply gatherArgs_works | apply PassM.pure | apply PassM.bind
        | apply PassM.ite

theorem runGather_works {s0 : State} {s : State} (r op : Nat) (outs : Nat → List Nat) (body : Machine.Task → Ctx → GatherArgs → W Unit) (h_s : Works s0 s) (h_body : ∀ a0 a1 a2, PassM (Works s0) (body a0 a1 a2)) :
    PassO (Works s0) (State.runGather s r op outs body) := by
  unfold State.runGather
  repeat' first
    | intro _
    | with_reducible assumption
    | (extract_lets -underBinder +onlyGivenNames x; guard_hyp x : _ := _; clear_value x; have x := trivial)
    | with_reducible first
        | apply h_body | apply runEngines_works | apply gatherWork_works | apply PassO.next | apply PassO.ite
    | split

theorem gatherRowsBody_works {s0 : State} (t : Machine.Task) (c : Ctx) (args : GatherArgs) :
    PassM (Works s0) (gatherRowsBody t c args : W Unit) := by
  unfold gatherRowsBody
  repeat' first
    | intro _
    | (extract_lets -underBinder +onlyGivenNames x; with_reducible refine PassM.cut (P := Works s0) (x := x) ?_ fun hx => ?_; rotate_left; clear_value x; have x := trivial; rotate_left; unfold x; clear x)
    | with_reducible first
        | apply tensorScale_works | apply checkOutput_works | apply undefinedIf_works | apply gatherRow_works
        | apply rowJob_works | apply PassM.pure | apply PassM.throw | apply PassM.bind | apply PassM.forM
        | apply_assumption -exfalso -symm
    | split

theorem execGatherRows_works {s0 : State} (r : Nat) {s : State} (h_s : Works s0 s) :
    PassO (Works s0) (execGatherRows r s) := by
  unfold execGatherRows
  repeat' first
    | intro _
    | with_reducible first | assumption | apply runGather_works | apply gatherRowsBody_works

theorem combineRow_works {s0 : State} (c : Ctx) (a b o : Desc) (ats bts fac : Machine.Num) (w : Option (Desc × Machine.Num)) (t : Nat) :
    PassM (Works s0) (combineRow c a b o ats bts fac w t : W Unit) := by
  unfold combineRow
  repeat' first
    | intro _
    | decide
    | (extract_lets -underBinder +onlyGivenNames x; guard_hyp x : _ := _; clear_value x; have x := trivial)
    | with_reducible first
        | apply arith_works | apply tally_works | apply readElem_works | apply writeRun_works | apply clampDim_works
        | apply readWorking_works | apply rowWritten_works | apply gatherIndex_works | apply PassM.bind
        | apply PassM.mapM | apply PassM.foldlM
    | split

theorem combineBody_works {s0 : State} (t : Machine.Task) (c : Ctx) (args : GatherArgs) :
    PassM (Works s0) (combineBody t c args : W Unit) := by
  unfold combineBody
  repeat' first
    | intro _
    | (extract_lets -underBinder +onlyGivenNames x; with_reducible refine PassM.cut (P := Works s0) (x := x) ?_ fun hx => ?_; rotate_left; clear_value x; have x := trivial; rotate_left; unfold x; clear x)
    | with_reducible first
        | apply tensorScale_works | apply checkOutput_works | apply ownFactor_works | apply undefinedIf_works
        | apply combineRow_works | apply PassM.pure | apply PassM.throw | apply PassM.bind | apply PassM.forM
        | apply_assumption -exfalso -symm
    | split

theorem execCombine_works {s0 : State} (r : Nat) {s : State} (h_s : Works s0 s) :
    PassO (Works s0) (execCombine r s) := by
  unfold execCombine
  repeat' first
    | intro _
    | with_reducible first | assumption | apply runGather_works | apply combineBody_works

theorem packBody_works {s0 : State} (t : Machine.Task) (c : Ctx) (args : GatherArgs) :
    PassM (Works s0) (packBody t c args : W Unit) := by
  unfold packBody
  repeat' first
    | intro _
    | (extract_lets -underBinder +onlyGivenNames x; guard_hyp x : _ := _; clear_value x; have x := trivial)
    | with_reducible first
        | apply tensorScale_works | apply checkOutput_works | apply undefinedIf_works | apply readTable_works
        | apply packRow_works | apply rowJob_works | apply PassM.pure | apply PassM.throw | apply PassM.bind
        | apply PassM.forM
    | split

theorem execPack_works {s0 : State} (r : Nat) {s : State} (h_s : Works s0 s) :
    PassO (Works s0) (execPack r s) := by
  unfold execPack
  repeat' first
    | intro _
    | with_reducible first | assumption | apply runGather_works | apply packBody_works

theorem routeBody_works {s0 : State} (t : Machine.Task) (c : Ctx) (args : GatherArgs) :
    PassM (Works s0) (routeBody t c args : W Unit) := by
  unfold routeBody
  repeat' first
    | intro _
    | decide
    | (extract_lets -underBinder +onlyGivenNames x; guard_hyp x : _ := _; clear_value x; have x := trivial)
    | with_reducible first
        | apply tally_works | apply tensorScale_works | apply checkOutput_works | apply ownFactor_works
        | apply clampDim_works | apply undefinedIf_works | apply gatherIndex_works | apply writeInt_works
        | apply PassM.pure | apply PassM.throw | apply PassM.bind | apply PassM.forM | apply PassM.mapM
    | split

theorem execRoute_works {s0 : State} (r : Nat) {s : State} (h_s : Works s0 s) :
    PassO (Works s0) (execRoute r s) := by
  unfold execRoute
  repeat' first
    | intro _
    | with_reducible first | assumption | apply runGather_works | apply routeBody_works

theorem expandRleBody_works {s0 : State} (t : Machine.Task) (u1 : Ctx) (args : GatherArgs) :
    PassM (Works s0) (expandRleBody t u1 args : W Unit) := by
  unfold expandRleBody
  repeat' first
    | intro _
    | decide
    | (extract_lets -underBinder +onlyGivenNames x; guard_hyp x : _ := _; clear_value x; have x := trivial)
    | with_reducible first
        | apply tally_works | apply binElem_works | apply writeCode_works | apply checkOutput_works
        | apply undefinedIf_works | apply readCodes_works | apply rowWritten_works | apply PassM.throw
        | apply PassM.bind | apply PassM.forM
    | split

theorem execExpandRle_works {s0 : State} (r : Nat) {s : State} (h_s : Works s0 s) :
    PassO (Works s0) (execExpandRle r s) := by
  unfold execExpandRle
  repeat' first
    | intro _
    | with_reducible first | assumption | apply runGather_works | apply expandRleBody_works

theorem writeSlot_works {s0 : State} (c : Ctx) (o : Desc) (r n v : Nat) :
    PassM (Works s0) (writeSlot c o r n v : W Unit) := by
  unfold writeSlot
  repeat' first
    | intro _
    | (extract_lets -underBinder +onlyGivenNames x; guard_hyp x : _ := _; clear_value x; have x := trivial)
    | with_reducible first
        | apply binElem_works | apply writeBits_works | apply writeCode_works | apply PassM.getThe | apply PassM.bind
        | apply PassM.forM | apply PassM.ite

theorem compressRleBody_works {s0 : State} (t : Machine.Task) (u1 : Ctx) (args : GatherArgs) :
    PassM (Works s0) (compressRleBody t u1 args : W Unit) := by
  unfold compressRleBody
  repeat' first
    | intro _
    | decide
    | (extract_lets -underBinder +onlyGivenNames x; first
      | (with_reducible refine PassM.cut (P := Works s0) (x := x) ?_ fun hx => ?_; rotate_left; clear_value x; have x := trivial; rotate_left; unfold x; clear x)
      | (guard_hyp x : _ := _; clear_value x; have x := trivial))
    | with_reducible first
        | apply tally_works | apply markEnd_works | apply checkOutput_works | apply undefinedIf_works
        | apply readCodes_works | apply rowWritten_works | apply writeSlot_works | apply PassM.pure
        | apply PassM.throw | apply PassM.bind | apply PassM.mapM | apply_assumption -exfalso -symm | apply PassM.ite
    | split

theorem execCompressRle_works {s0 : State} (r : Nat) {s : State} (h_s : Works s0 s) :
    PassO (Works s0) (execCompressRle r s) := by
  unfold execCompressRle
  repeat' first
    | intro _
    | with_reducible first | assumption | apply runGather_works | apply compressRleBody_works

theorem checkIndexRegion_works {s0 : State} (d : Desc) :
    PassM (Works s0) (checkIndexRegion d : W Unit) := by
  unfold checkIndexRegion
  repeat' first
    | intro _
    | (extract_lets -underBinder +onlyGivenNames x; guard_hyp x : _ := _; clear_value x; have x := trivial)
    | with_reducible first | apply undefinedJob_works | apply PassM.pure | apply PassM.getThe | apply PassM.ite

theorem readIndex24_works {s0 : State} (c : Ctx) (d : Desc) (j r : Nat) :
    PassM (Works s0) (readIndex24 c d j r : W Nat) := by
  unfold readIndex24
  repeat' first
    | intro _
    | (extract_lets -underBinder +onlyGivenNames x; guard_hyp x : _ := _; clear_value x; have x := trivial)
    | with_reducible first | apply readNat_works | apply PassM.pure | apply PassM.bind

theorem writeIndex24_works {s0 : State} (c : Ctx) (d : Desc) (j r v : Nat) :
    PassM (Works s0) (writeIndex24 c d j r v : W Unit) := by
  unfold writeIndex24
  repeat' first
    | (extract_lets -underBinder +onlyGivenNames x; guard_hyp x : _ := _; clear_value x; have x := trivial)
    | with_reducible apply writeBits_works

theorem readPositions_works {s0 : State} (c : Ctx) (d : Desc) (r : Nat) :
    PassM (Works s0) (readPositions c d r : W (List Nat)) := by
  unfold readPositions
  repeat' first
    | intro _
    | with_reducible first | apply readIndex24_works | apply PassM.pure | apply PassM.bind | apply PassM.mapM

theorem expand24Row_works {s0 : State} (c : Ctx) (a o : Desc) (ats fac : Machine.Num) (r : Nat) :
    PassM (Works s0) (expand24Row c a o ats fac r : W Unit) := by
  unfold expand24Row
  repeat' first
    | intro _
    | decide
    | (extract_lets -underBinder +onlyGivenNames x; first
      | (with_reducible refine PassM.cut (P := Works s0) (x := x) ?_ fun hx => ?_; rotate_left; clear_value x; have x := trivial; rotate_left; unfold x; clear x)
      | (guard_hyp x : _ := _; clear_value x; have x := trivial))
    | with_reducible first
        | apply arith_works | apply tally_works | apply binElem_works | apply writeCode_works | apply writeRun_works
        | apply readCodes_works | apply rowWritten_works | apply readPositions_works | apply PassM.pure
        | apply PassM.bind | apply PassM.forM | apply PassM.mapM | apply_assumption -exfalso -symm | apply PassM.ite
    | split

theorem expand24Body_works {s0 : State} (t : Machine.Task) (c : Ctx) (args : GatherArgs) :
    PassM (Works s0) (expand24Body t c args : W Unit) := by
  unfold expand24Body
  repeat' first
    | intro _
    | with_reducible first
        | apply tensorScale_works | apply checkOutput_works | apply ownFactor_works | apply undefinedIf_works
        | apply checkIndexRegion_works | apply expand24Row_works | apply PassM.throw | apply PassM.bind
        | apply PassM.forM
    | split

theorem execExpand2of4_works {s0 : State} (r : Nat) {s : State} (h_s : Works s0 s) :
    PassO (Works s0) (execExpand2of4 r s) := by
  unfold execExpand2of4
  repeat' first
    | intro _
    | with_reducible first | assumption | apply runGather_works | apply expand24Body_works

theorem compress24Row_works {s0 : State} (c : Ctx) (a o : Desc) (ats fac : Machine.Num) (r : Nat) :
    PassM (Works s0) (compress24Row c a o ats fac r : W (Nat × Nat)) := by
  unfold compress24Row
  repeat' first
    | intro _
    | decide
    | (extract_lets -underBinder +onlyGivenNames x; first
      | (with_reducible refine PassM.cut (P := Works s0) (x := x) ?_ fun hx => ?_; rotate_left; clear_value x; have x := trivial; rotate_left; unfold x; clear x)
      | (guard_hyp x : _ := _; clear_value x; have x := trivial))
    | with_reducible first
        | apply arith_works | apply tally_works | apply binElem_works | apply writeCode_works | apply writeRun_works
        | apply readCodes_works | apply zeroCode_works | apply rowWritten_works | apply writeIndex24_works
        | apply PassM.pure | apply PassM.bind | apply PassM.forM | apply PassM.mapM | apply_assumption -exfalso -symm
        | apply PassM.ite
    | split

theorem compress24Body_works {s0 : State} (t : Machine.Task) (c : Ctx) (args : GatherArgs) :
    PassM (Works s0) (compress24Body t c args : W Unit) := by
  unfold compress24Body
  repeat' first
    | intro _
    | decide
    | (extract_lets -underBinder +onlyGivenNames x; guard_hyp x : _ := _; clear_value x; have x := trivial)
    | with_reducible first
        | apply tally_works | apply markEnd_works | apply tensorScale_works | apply checkOutput_works
        | apply ownFactor_works | apply undefinedIf_works | apply checkIndexRegion_works | apply compress24Row_works
        | apply PassM.pure | apply PassM.throw | apply PassM.bind | apply PassM.mapM | apply PassM.ite
    | split

theorem execCompress2of4_works {s0 : State} (r : Nat) {s : State} (h_s : Works s0 s) :
    PassO (Works s0) (execCompress2of4 r s) := by
  unfold execCompress2of4
  repeat' first
    | intro _
    | with_reducible first | assumption | apply runGather_works | apply compress24Body_works

theorem readMask_works {s0 : State} (c : Ctx) (d : Desc) (f : Nat) :
    PassM (Works s0) (readMask c d f : W Bool) := by
  unfold readMask
  repeat' first
    | intro _
    | with_reducible first | apply readCode_works | apply PassM.pure | apply PassM.bind

theorem neuronPackBody_works {s0 : State} (t : Machine.Task) (c : Ctx) (args : GatherArgs) :
    PassM (Works s0) (neuronPackBody t c args : W Unit) := by
  unfold neuronPackBody
  repeat' first
    | intro _
    | decide
    | (extract_lets -underBinder +onlyGivenNames x; guard_hyp x : _ := _; clear_value x; have x := trivial)
    | with_reducible first
        | apply tally_works | apply addAtomic_works | apply checkOutput_works | apply ownFactor_works
        | apply undefinedIf_works | apply writeInt_works | apply moveRow_works | apply zeroRow_works
        | apply rowJob_works | apply readMask_works | apply PassM.pure | apply PassM.throw | apply PassM.getThe
        | apply PassM.bind | apply PassM.forM | apply PassM.filterM | apply PassM.mapM | apply PassM.ite
    | split

theorem execNeuronPack_works {s0 : State} (r : Nat) {s : State} (h_s : Works s0 s) :
    PassO (Works s0) (execNeuronPack r s) := by
  unfold execNeuronPack
  repeat' first
    | intro _
    | with_reducible first | assumption | apply runGather_works | apply neuronPackBody_works

theorem predictorBody_works {s0 : State} (t : Machine.Task) (c : Ctx) (args : GatherArgs) :
    PassM (Works s0) (predictorBody t c args : W Unit) := by
  unfold predictorBody
  repeat' first
    | intro _
    | with_reducible assumption
    | decide
    | (extract_lets -underBinder +onlyGivenNames x; first
      | (with_reducible refine PassM.cut (P := Works s0) (x := x) ?_ fun hx => ?_; rotate_left; clear_value x; have x := trivial; rotate_left; unfold x; clear x)
      | (guard_hyp x : _ := _; clear_value x; have x := trivial))
    | with_reducible first
        | apply atomic_works | apply modTask_works | apply arith_works | apply tally_works | apply addAtomic_works
        | apply tensorScale_works | apply draw_works | apply undefinedIf_works | apply readWorking_works
        | apply readMask_works | apply PassM.pure | apply PassM.throw | apply PassM.getThe | apply PassM.modify
        | apply PassM.bind | apply PassM.filterM | apply PassM.mapM | apply_assumption -exfalso -symm
        | apply PassM.ite
    | split

theorem execPredictorCheck_works {s0 : State} (r : Nat) {s : State} (h_s : Works s0 s) :
    PassO (Works s0) (execPredictorCheck r s) := by
  unfold execPredictorCheck
  repeat' first
    | intro _
    | with_reducible first | assumption | apply runGather_works | apply predictorBody_works

end Sys2Proof.Safety
end

