-- ==== Sys2Proof/Laws/WorksScatter.lean ====
section
/-! SUPPORT. The parts of the work of tasks in Machine/Scatter.lean change only what `Works` allows. -/

namespace Sys2Proof.Safety

open Sys2Proof.Machine

theorem scatterWork_works {s0 : State} (body : Machine.Task → Ctx → GatherArgs → W Unit) (r : Nat) (t : Machine.Task) (h_body : ∀ a0 a1 a2, PassM (Works s0) (body a0 a1 a2)) :
    PassM (Works s0) (scatterWork body r t : W Unit) := by
  unfold scatterWork
  repeat' first
    | intro _
    | (extract_lets -underBinder +onlyGivenNames x; guard_hyp x : _ := _; clear_value x; have x := trivial)
    | with_reducible first | apply h_body | apply gatherArgs_works | apply PassM.bind

theorem runScatter_works {s0 : State} {s : State} (r op : Nat) (outs : Nat → List Nat) (body : Machine.Task → Ctx → GatherArgs → W Unit) (h_s : Works s0 s) (h_body : ∀ a0 a1 a2, PassM (Works s0) (body a0 a1 a2)) :
    PassO (Works s0) (State.runScatter s r op outs body) := by
  unfold State.runScatter
  repeat' first
    | intro _
    | with_reducible first
        | assumption | apply h_body | apply runEngines_works | apply scatterWork_works | apply PassO.next
        | apply PassO.ite
    | split

theorem scatterCodes_works {s0 : State} (c : Ctx) (j : RowJob) (src dst : Nat) (mem : Bool) :
    PassM (Works s0) (scatterCodes c j src dst mem : W (List (Nat × Option Nat))) := by
  unfold scatterCodes
  repeat' first
    | intro _
    | (extract_lets -underBinder +onlyGivenNames x; first
      | (with_reducible refine PassM.cut (P := Works s0) (x := x) ?_ fun hx => ?_; rotate_left; clear_value x; have x := trivial; rotate_left; unfold x; clear x)
      | (guard_hyp x : _ := _; clear_value x; have x := trivial))
    | with_reducible first
        | apply binElem_works | apply binScale_works | apply moveRow_works | apply PassM.pure | apply PassM.bind
        | apply PassM.forM | apply_assumption -exfalso -symm | apply PassM.ite
    | split

theorem chooseFor_works {s0 : State} (n key : Nat) (chosen : NatMap) :
    PassM (Works s0) (chooseFor n key chosen : W (Nat × NatMap)) := by
  unfold chooseFor
  repeat' first
    | intro _
    | with_reducible first | apply freeM_works | apply PassM.pure | apply PassM.bind
    | split

theorem writeChosen_works {s0 : State} (c : Ctx) (o : Desc) (dst : Nat) (cands : List (List (Nat × Option Nat))) :
    PassM (Works s0) (writeChosen c o dst cands : W Unit) := by
  unfold writeChosen
  repeat' first
    | intro _
    | (extract_lets -underBinder +onlyGivenNames x; first
      | (with_reducible refine PassM.cut (P := Works s0) (x := x) ?_ fun hx => ?_; rotate_left; clear_value x; have x := trivial; rotate_left; unfold x; clear x)
      | (guard_hyp x : _ := _; clear_value x; have x := trivial))
    | with_reducible first
        | apply writeNat_works | apply writeBits_works | apply writeCode_works | apply chooseFor_works
        | apply PassM.pure | apply PassM.bind | apply PassM.foldlM | apply_assumption -exfalso -symm | apply PassM.ite
    | split

theorem scatterRowsBody_works {s0 : State} (t : Machine.Task) (c : Ctx) (args : GatherArgs) :
    PassM (Works s0) (scatterRowsBody t c args : W Unit) := by
  unfold scatterRowsBody
  repeat' first
    | intro _
    | (extract_lets -underBinder +onlyGivenNames x; guard_hyp x : _ := _; clear_value x; have x := trivial)
    | with_reducible first
        | apply tensorScale_works | apply checkOutput_works | apply clampDim_works | apply undefinedIf_works
        | apply gatherIndex_works | apply rowJob_works | apply scatterCodes_works | apply writeChosen_works
        | apply PassM.pure | apply PassM.throw | apply PassM.bind | apply PassM.forM | apply PassM.mapM
    | split

theorem execScatterRows_works {s0 : State} (r : Nat) {s : State} (h_s : Works s0 s) :
    PassO (Works s0) (execScatterRows r s) := by
  unfold execScatterRows
  repeat' first
    | intro _
    | with_reducible first | assumption | apply runScatter_works | apply scatterRowsBody_works

theorem refreshHash_works {s0 : State} {s : State} (h_s : Works s0 s) :
    Works s0 (State.refreshHash s) := by
  unfold State.refreshHash
  repeat' first
    | with_reducible assumption
    | decide
    | with_reducible apply setObj_works

theorem spillOne_works {s0 : State} {s : State} (c : Contribution) (h_s : Works s0 s) :
    Works s0 (State.spillOne s c).2 := by
  unfold State.spillOne
  repeat' first
    | intro _
    | with_reducible assumption
    | decide
    | (extract_lets -underBinder +onlyGivenNames x; first
      | (with_reducible refine Pass.cut (P := Works s0) (x := x) ?_ fun hx => ?_; rotate_left; clear_value x; have x := trivial; rotate_left; unfold x; clear x)
      | (guard_hyp x : Mem := _; have x := trivial)
      | (guard_hyp x : _ := _; clear_value x; have x := trivial))
    | with_reducible first | apply count_works | apply physWrite_works | apply Pass.foldl (P := Works s0)
    | split
    | (with_reducible refine Works.upd ?_ rfl rfl rfl rfl rfl rfl rfl rfl; with_reducible assumption)

theorem hashAccumulate_works {s0 s : State} (c : Contribution) (h : Works s0 s) :
    Works s0 (State.hashAccumulate s c).2 := by
  unfold State.hashAccumulate
  extract_lets x
  have hx : Works s0 x := count_works _ h (by decide)
  clear_value x
  split
  · exact count_works _ (hx.upd rfl rfl rfl rfl rfl rfl rfl rfl) (by decide)
  · exact refreshHash_works (count_works _ (hx.upd rfl rfl rfl rfl rfl rfl rfl rfl) (by decide))
  · exact spillOne_works c hx

theorem contributionLane_works {s0 : State} (c : Ctx) (a : Desc) (ats : Machine.Num) (vector : Bool) (w : Option Machine.Num) (p : Nat × Option Nat) :
    PassM (Works s0) (contributionLane c a ats vector w p : W Nat) := by
  unfold contributionLane
  repeat' first
    | intro _
    | (extract_lets -underBinder +onlyGivenNames x; first
      | (with_reducible refine PassM.cut (P := Works s0) (x := x) ?_ fun hx => ?_; rotate_left; clear_value x; have x := trivial; rotate_left; unfold x; clear x)
      | (guard_hyp x : _ := _; clear_value x; have x := trivial))
    | with_reducible first
        | apply arith_works | apply PassM.pure | apply PassM.bind | apply_assumption -exfalso -symm | apply PassM.ite
    | split

theorem checkContribution_works {s0 : State} (c : Ctx) (o : Desc) (v : Nat) (k : Contribution) (d0 : Nat) :
    PassM (Works s0) (checkContribution c o v k d0 : W Unit) := by
  unfold checkContribution
  repeat' first
    | intro _
    | (extract_lets -underBinder +onlyGivenNames x; guard_hyp x : _ := _; clear_value x; have x := trivial)
    | with_reducible first | apply checkRights_works | apply PassM.forM

theorem interleave_works {s0 : State} (e0 : Nat) (e1 : List (List Contribution)) :
    PassM (Works s0) (interleave e0 e1 : W (List Contribution)) := by
  induction e0 generalizing e1 with
  | zero => unfold interleave; exact PassM.pure
  | succ n ih =>
    unfold interleave
    repeat' first
      | intro _
      | (extract_lets -underBinder +onlyGivenNames x; guard_hyp x : _ := _; clear_value x; have x := trivial)
      | with_reducible first | apply ih | apply freeM_works | apply PassM.pure | apply PassM.bind
      | split

theorem meetsMerge_works {s0 : State} (t : Machine.Task) :
    PassM (Works s0) (meetsMerge t : W Unit) := by
  unfold meetsMerge
  repeat' with_reducible first | apply undefinedJob_works | apply PassM.pure | apply PassM.ite

theorem scatterAddBody_works {s0 : State} (t : Machine.Task) (c : Ctx) (args : GatherArgs) :
    PassM (Works s0) (scatterAddBody t c args : W Unit) := by
  unfold scatterAddBody
  repeat' first
    | intro _
    | with_reducible assumption
    | decide
    | (extract_lets -underBinder +onlyGivenNames x; first
      | (with_reducible refine PassM.cut (P := Works s0) (x := x) ?_ fun hx => ?_; rotate_left; clear_value x; have x := trivial; rotate_left; unfold x; clear x)
      | (guard_hyp x : _ := _; clear_value x; have x := trivial))
    | with_reducible first
        | apply noteStale_works | apply undefinedJob_works | apply tally_works | apply markEnd_works
        | apply tensorScale_works | apply readElem_works | apply clampDim_works | apply undefinedIf_works
        | apply rowCodes_works | apply gatherIndex_works | apply hashAccumulate_works | apply contributionLane_works
        | apply checkContribution_works | apply interleave_works | apply meetsMerge_works | apply PassM.pure
        | apply PassM.throw | apply PassM.getThe | apply PassM.set | apply PassM.modify | apply PassM.bind
        | apply PassM.forM | apply PassM.mapM | apply_assumption -exfalso -symm | apply PassM.ite
    | split

theorem execScatterAdd_works {s0 : State} (r : Nat) {s : State} (h_s : Works s0 s) :
    PassO (Works s0) (execScatterAdd r s) := by
  unfold execScatterAdd
  repeat' first
    | intro _
    | with_reducible first | assumption | apply runScatter_works | apply scatterAddBody_works

theorem readSpills_works {s0 : State} (c : Ctx) (slice base hi : Nat) (e0 : Nat) (e1 : Nat) :
    PassM (Works s0) (readSpills c slice base hi e0 e1 : W (List SpillRead)) := by
  induction e0 generalizing e1 with
  | zero => unfold readSpills; exact PassM.pure
  | succ n ih =>
    unfold readSpills
    repeat' first
      | intro _
      | (extract_lets -underBinder +onlyGivenNames x; guard_hyp x : _ := _; clear_value x; have x := trivial)
      | with_reducible first
          | apply ih | apply readNat_works | apply PassM.pure | apply PassM.bind | apply PassM.ite

theorem mergeKey_works {s0 : State} (c : Ctx) (o : Desc) (ts fac : Machine.Num) (vector accumulate : Bool) (key : Nat) (lanes : List Nat) :
    PassM (Works s0) (mergeKey c o ts fac vector accumulate key lanes : W Unit) := by
  unfold mergeKey
  repeat' first
    | intro _
    | decide
    | (extract_lets -underBinder +onlyGivenNames x; first
      | (with_reducible refine PassM.cut (P := Works s0) (x := x) ?_ fun hx => ?_; rotate_left; clear_value x; have x := trivial; rotate_left; unfold x; clear x)
      | (guard_hyp x : _ := _; clear_value x; have x := trivial))
    | with_reducible first
        | apply arith_works | apply tally_works | apply readElem_works | apply writeRun_works | apply clampDim_works
        | apply rowWritten_works | apply PassM.pure | apply PassM.bind | apply PassM.mapM
        | apply_assumption -exfalso -symm | apply PassM.ite

theorem hashMergeBody_works {s0 : State} (t : Machine.Task) (c : Ctx) (args : GatherArgs) :
    PassM (Works s0) (hashMergeBody t c args : W Unit) := by
  unfold hashMergeBody
  repeat' first
    | intro _
    | with_reducible assumption
    | decide
    | (extract_lets -underBinder +onlyGivenNames x; first
      | (guard_hyp x : Mem := _; have x := trivial)
      | (guard_hyp x : _ := _; clear_value x; have x := trivial))
    | with_reducible first
        | apply physWrite_works | apply readNat_works | apply arith_works | apply tally_works | apply tensorScale_works
        | apply checkOutput_works | apply ownFactor_works | apply undefinedIf_works | apply refreshHash_works
        | apply meetsMerge_works | apply readSpills_works | apply mergeKey_works | apply PassM.throw
        | apply PassM.getThe | apply PassM.modify | apply PassM.bind | apply PassM.forM | apply PassM.mapM
    | split
    | (with_reducible refine Works.upd ?_ rfl rfl rfl rfl rfl rfl rfl rfl; with_reducible assumption)

theorem execHashMerge_works {s0 : State} (r : Nat) {s : State} (h_s : Works s0 s) :
    PassO (Works s0) (execHashMerge r s) := by
  unfold execHashMerge
  repeat' first
    | intro _
    | with_reducible first | assumption | apply runScatter_works | apply hashMergeBody_works

end Sys2Proof.Safety
end

