-- ==== Sys2Proof/Laws/WorksMatrix.lean ====
section
/-! SUPPORT. The parts of the work of tasks in Machine/Matrix.lean change only what `Works` allows. -/

namespace Sys2Proof.Safety

open Sys2Proof.Machine

theorem loadOperand_works {s0 : State} (c : Ctx) (x : Operand) (along kr : Nat) (lines : List (List (List Nat))) :
    PassM (Works s0) (loadOperand c x along kr lines : W (List (List Elem))) := by
  unfold loadOperand
  repeat' first
    | intro _
    | (extract_lets -underBinder +onlyGivenNames x; guard_hyp x : _ := _; clear_value x; have x := trivial)
    | with_reducible first
        | apply loadLines_works | apply deliverRow_works | apply PassM.pure | apply PassM.bind | apply PassM.mapM
    | split

theorem toLine_works {s0 : State} (c : Ctx) (x : Operand) (want : Bool) (pos : List Nat) (es : List Elem) :
    PassM (Works s0) (toLine c x want pos es : W Line) := by
  unfold toLine
  repeat' first
    | intro _
    | (extract_lets -underBinder +onlyGivenNames x; guard_hyp x : _ := _; clear_value x; have x := trivial)
    | with_reducible first | apply arith_works | apply PassM.pure | apply PassM.bind | apply PassM.mapM

theorem accumulate_works {s0 : State} (c : Ctx) (kind : MatKind) (sr : SrAcc) (lin : Nat) (start : Machine.Num) (blocks : List (List (Machine.Num × Machine.Num))) :
    PassM (Works s0) (accumulate c kind sr lin start blocks : W Machine.Num) := by
  unfold accumulate
  repeat' first
    | intro _
    | (extract_lets -underBinder +onlyGivenNames x; with_reducible refine PassM.cut (P := Works s0) (x := x) ?_ fun hx => ?_; rotate_left; clear_value x; have x := trivial; rotate_left; unfold x; clear x)
    | with_reducible first
        | apply arith_works | apply draw_works | apply PassM.pure | apply PassM.bind | apply PassM.foldlM
        | apply_assumption -exfalso -symm | apply PassM.ite

theorem drainRow_works {s0 : State} (c : Ctx) (k : Sink) (along : Bool) (parts phi : Nat) (row : List Drain) (q : Samples) :
    PassM (Works s0) (drainRow c k along parts phi row q : W Samples) := by
  unfold drainRow
  repeat' first
    | intro _
    | with_reducible assumption
    | decide
    | (extract_lets -underBinder +onlyGivenNames x; first
      | (with_reducible refine PassM.cut (P := Works s0) (x := x) ?_ fun hx => ?_; rotate_left; clear_value x; have x := trivial; rotate_left; unfold x; clear x)
      | (guard_hyp x : _ := _; clear_value x; have x := trivial))
    | with_reducible first
        | apply modTask_works | apply tally_works | apply writeRun_works | apply PassM.pure | apply PassM.getThe
        | apply PassM.modify | apply PassM.bind | apply PassM.mapM | apply_assumption -exfalso -symm | apply PassM.ite
    | split

theorem settleSamples_works {s0 : State} (c : Ctx) (k : Sink) (qs : List Samples) :
    PassM (Works s0) (settleSamples c k qs : W (Option Machine.Num)) := by
  unfold settleSamples
  repeat' first
    | intro _
    | (extract_lets -underBinder +onlyGivenNames x; first
      | (with_reducible refine PassM.cut (P := Works s0) (x := x) ?_ fun hx => ?_; rotate_left; clear_value x; have x := trivial; rotate_left; unfold x; clear x)
      | (guard_hyp x : _ := _; clear_value x; have x := trivial))
    | with_reducible first
        | apply atomic_works | apply addAtomic_works | apply PassM.pure | apply PassM.getThe | apply PassM.bind
        | apply_assumption -exfalso -symm | apply PassM.ite

theorem noteDrifts_works {s0 : State} (c : Ctx) (ks : List (Sink × List Samples)) :
    PassM (Works s0) (noteDrifts c ks : W Unit) := by
  unfold noteDrifts
  repeat' first
    | intro _
    | with_reducible first
        | apply markEnd_works | apply settleSamples_works | apply PassM.pure | apply PassM.bind | apply PassM.forM
        | apply PassM.mapM
    | split

theorem countPasses_works {s0 : State} (cls : MatClass) (k kr s cols l lmax : Nat) (held : Nat → Nat) :
    PassM (Works s0) (countPasses cls k kr s cols l lmax held : W Unit) := by
  unfold countPasses
  repeat' first
    | intro _
    | decide
    | (extract_lets -underBinder +onlyGivenNames x; guard_hyp x : _ := _; clear_value x; have x := trivial)
    | with_reducible first | apply tally_works | apply PassM.bind

/-- The parts of an array's work that are work themselves pass. -/
structure ArmPasses (P : State → Prop) (a : Arm) : Prop where
  prior : ∀ co, PassM P (a.prior co)
  load : ∀ cb, PassM P (a.load cb)

theorem Arm_element_works {s0 : State} (a : Arm) (si xi : Nat) (st x : List Line) (h_a : ArmPasses (Works s0) a) :
    PassM (Works s0) (Arm.element a si xi st x : W Drain) := by
  unfold Arm.element
  repeat' first
    | intro _
    | (extract_lets -underBinder +onlyGivenNames x; guard_hyp x : _ := _; clear_value x; have x := trivial)
    | with_reducible first | apply h_a.prior | apply accumulate_works | apply PassM.pure | apply PassM.bind

theorem Arm_runBlock_works {s0 : State} (a : Arm) (q : Samples) (cb : List Nat) (xs : List (Nat × List (List Elem))) (h_a : ArmPasses (Works s0) a) :
    PassM (Works s0) (Arm.runBlock a q cb xs : W Samples) := by
  unfold Arm.runBlock
  repeat' first
    | intro _
    | with_reducible first
        | assumption | apply h_a.load | apply toLine_works | apply drainRow_works | apply Arm_element_works
        | apply PassM.pure | apply PassM.bind | apply PassM.mapM | apply PassM.foldlM

theorem runArms_works {s0 : State} (arms : List Arm) (cols lmax : Nat) (st x : List Nat)
    (stream : List Nat → W (List (List (List Elem)))) (qs : List Samples)
    (h_arms : ∀ a ∈ arms, ArmPasses (Works s0) a) (h_stream : ∀ ch, PassM (Works s0) (stream ch)) :
    PassM (Works s0) (runArms arms cols lmax st x stream qs) :=
  PassM.foldlM fun _ ch => PassM.foldlM fun _ _ => PassM.bind (h_stream ch) fun _ =>
    PassM.mapMem fun p hp => Arm_runBlock_works _ _ _ _ (h_arms p.1 (List.of_mem_zip hp).1)

theorem loadParts_works {s0 : State} (c : Ctx) (along kr : Nat) (parts : List (Operand × (Nat → List (List Nat)))) (idx : List Nat) :
    PassM (Works s0) (loadParts c along kr parts idx : W (List (List (List Elem)))) := by
  unfold loadParts
  repeat' first
    | intro _
    | with_reducible first | apply loadOperand_works | apply PassM.pure | apply PassM.bind | apply PassM.mapM

theorem stationaryParts_works {s0 : State} (cl c : Ctx) (along kr : Nat) (want : Bool) (parts : List (Operand × (Nat → List (List Nat)))) (idx : List Nat) :
    PassM (Works s0) (stationaryParts cl c along kr want parts idx : W (List (List Line))) := by
  unfold stationaryParts
  repeat' first
    | intro _
    | with_reducible first | apply toLine_works | apply loadParts_works | apply PassM.bind | apply PassM.mapM

theorem samplePhase_works {s0 : State} (c : Ctx) :
    PassM (Works s0) (samplePhase c : W Nat) := by
  unfold samplePhase
  repeat' first
    | intro _
    | with_reducible first | apply draw_works | apply PassM.pure | apply PassM.getThe | apply PassM.bind

theorem sparseLines_works {s0 : State} (c : Ctx) (x : Operand) (kr h : Nat) (want : Bool) (idx : List Nat) :
    PassM (Works s0) (sparseLines c x kr h want idx : W (List (List Line))) := by
  unfold sparseLines
  repeat' first
    | intro _
    | with_reducible first
        | apply readPositions_works | apply loadOperand_works | apply toLine_works | apply PassM.pure | apply PassM.bind
        | apply PassM.mapM

theorem forwardArm_works {s0 : State} (c : Ctx) (image : Nat) (f : Forward) (sx xx : Operand) (h : Nat) :
    PassR (Works s0) (ArmPasses (Works s0)) (forwardArm c image f sx xx h) := by
  unfold forwardArm
  extract_lets sparse k kr
  refine PassR.getThe fun s _ => PassR.bind (samplePhase_works c) fun _ => PassR.pure ⟨fun co => ?_, fun cb => ?_⟩
  · dsimp only
    refine PassM.ite (PassM.bind (readCode_works _ _ _) fun _ => PassM.bind (readScaleCode_works _ _ _) fun _ =>
      PassM.bind (arith_works _ _) fun _ => PassM.bind (arith_works _ _) fun _ => PassM.pure) PassM.pure
  · dsimp only
    by_cases g : sparse = true
    · rw [if_pos g]; exact sparseLines_works _ _ _ _ _ _
    · rw [if_neg g]; exact stationaryParts_works _ _ _ _ _ _ _

theorem forwardUnit_works {s0 : State} (tiles : List Ctx) (image : Nat) (f : Forward) (units u : Nat) :
    PassM (Works s0) (forwardUnit tiles image f units u) := by
  unfold forwardUnit
  split
  refine PassM.ite PassM.pure ?_
  split
  split
  extract_lets kr
  split
  · exact PassM.pure
  · exact (PassR.mapM fun p => forwardArm_works _ _ _ _ _ _).use fun arms h =>
      PassM.bind (PassM.forM fun _ => countPasses_works _ _ _ _ _ _ _ _) fun _ =>
        runArms_works _ _ _ _ _ _ _ h fun _ => loadParts_works _ _ _ _ _

theorem settleGiver_works {s0 : State} (g : Option Machine.Task) :
    PassM (Works s0) (settleGiver g : W Unit) := by
  unfold settleGiver
  repeat' first
    | (extract_lets -underBinder +onlyGivenNames x; guard_hyp x : _ := _; clear_value x; have x := trivial)
    | with_reducible first | apply settleBins_works | apply PassM.pure
    | split

theorem matFactor_works {s0 : State} (c : Ctx) (sa sb so : Machine.Num) :
    PassM (Works s0) (matFactor c sa sb so : W Machine.Num) := by
  unfold matFactor
  repeat' first
    | intro _
    | with_reducible first | apply arith_works | apply outFactor_works | apply PassM.bind

theorem forwardBody_works {s0 : State} (t : Machine.Task) :
    PassM (Works s0) (forwardBody t : W Unit) := by
  unfold forwardBody
  repeat' first
    | intro _
    | decide
    | (extract_lets -underBinder +onlyGivenNames x; first
      | (with_reducible refine PassM.cut (P := Works s0) (x := x) ?_ fun hx => ?_; rotate_left; clear_value x; have x := trivial; rotate_left; unfold x; clear x)
      | (guard_hyp x : _ := _; clear_value x; have x := trivial))
    | with_reducible first
        | apply tally_works | apply getDesc?_works | apply tensorScale_works | apply checkOutput_works
        | apply undefinedIf_works | apply checkIndexRegion_works | apply noteDrifts_works | apply forwardUnit_works
        | apply settleGiver_works | apply matFactor_works | apply PassM.throw | apply PassM.getThe | apply PassM.bind
        | apply PassM.mapM | apply_assumption -exfalso -symm | apply PassM.ite
    | split

theorem deliveryDone_works {s0 : State} {s : State} (r : Nat) (h_s : Works s0 s) :
    Works s0 (State.deliveryDone s r) := by
  unfold State.deliveryDone
  repeat' first
    | with_reducible first | assumption | apply setTask_works | apply Pass.ite (P := Works s0)
    | split

theorem runForward_works {s0 : State} {s : State} (r : Nat) (form : Nat → Bool) (h_s : Works s0 s) :
    PassO (Works s0) (State.runForward s r form) := by
  unfold State.runForward
  repeat' first
    | with_reducible assumption
    | (extract_lets -underBinder +onlyGivenNames x; guard_hyp x : _ := _; clear_value x; have x := trivial)
    | with_reducible first
        | apply runEngines_works | apply forwardBody_works | apply deliveryDone_works | apply PassO.next
        | apply PassO.ite
    | split
    | refine PassO.of ?_ (by with_reducible assumption)

theorem execMatrixProduct_works {s0 : State} (r : Nat) {s : State} (h_s : Works s0 s) :
    PassO (Works s0) (execMatrixProduct r s) := by
  unfold execMatrixProduct
  repeat' with_reducible first | assumption | apply runForward_works

theorem execMatrixAccumulate_works {s0 : State} (r : Nat) {s : State} (h_s : Works s0 s) :
    PassO (Works s0) (execMatrixAccumulate r s) := by
  unfold execMatrixAccumulate
  repeat' with_reducible first | assumption | apply runForward_works

theorem execMatrixPaired_works {s0 : State} (r : Nat) {s : State} (h_s : Works s0 s) :
    PassO (Works s0) (execMatrixPaired r s) := by
  unfold execMatrixPaired
  repeat' with_reducible first | assumption | apply runForward_works

theorem gradMember_works {s0 : State} (c : Ctx) (g : Option Machine.Task) (record image : Nat) :
    PassM (Works s0) (gradMember c g record image : W GradMember) := by
  unfold gradMember
  repeat' first
    | intro _
    | with_reducible first
        | apply getDesc_works | apply getDesc?_works | apply tensorScale_works | apply PassM.pure | apply PassM.throw
        | apply PassM.bind
    | split

theorem gradX_works {s0 : State} (c : Ctx) (g : GradMember) (path : Bool) (ks : List Nat) (k : Sink) (q : Samples) :
    PassM (Works s0) (gradX c g path ks k q) := by
  unfold gradX
  split
  split
  · exact PassM.throw
  · split
    refine PassM.getThe fun s _ => PassM.bind (samplePhase_works c) fun _ => PassM.bind (countPasses_works _ _ _ _ _ _ _ _)
      fun _ => PassM.bind (runArms_works _ _ _ _ _ _ _ (fun a ha => ?_) fun _ => loadParts_works _ _ _ _ _) fun _ => PassM.pure
    rw [List.mem_singleton] at ha
    subst ha
    exact ⟨fun _ => PassM.pure, fun _ => stationaryParts_works _ _ _ _ _ _ _⟩

theorem gradW_works {s0 : State} (even c : Ctx) (gs : List GradMember) (ks : List Nat) (k : Sink) :
    PassM (Works s0) (gradW even c gs ks k) := by
  unfold gradW
  split
  · exact PassM.pure
  · extract_lets n ms
    split
    · exact PassM.throw
    · refine PassM.getThe fun s _ => PassM.bind (samplePhase_works c) fun _ => PassM.bind
        (PassM.forM fun _ => countPasses_works _ _ _ _ _ _ _ _) fun _ => PassM.bind
        (runArms_works _ _ _ _ _ _ _ (fun a ha => ?_) fun _ => loadParts_works _ _ _ _ _) fun _ => PassM.pure
      rw [List.mem_singleton] at ha
      subst ha
      exact ⟨fun _ => PassM.pure, fun _ => stationaryParts_works _ _ _ _ _ _ _⟩

theorem gradBody_works {s0 : State} (t : Machine.Task) (members : List (Nat × Nat)) :
    PassM (Works s0) (gradBody t members : W Unit) := by
  unfold gradBody
  repeat' first
    | intro _
    | decide
    | (extract_lets -underBinder +onlyGivenNames x; first
      | (with_reducible refine PassM.cut (P := Works s0) (x := x) ?_ fun hx => ?_; rotate_left; clear_value x; have x := trivial; rotate_left; unfold x; clear x)
      | (guard_hyp x : _ := _; clear_value x; have x := trivial))
    | with_reducible first
        | apply tally_works | apply tensorScale_works | apply checkOutput_works | apply undefinedIf_works
        | apply noteDrifts_works | apply settleGiver_works | apply matFactor_works | apply gradMember_works
        | apply gradX_works | apply gradW_works | apply PassM.pure | apply PassM.throw | apply PassM.getThe
        | apply PassM.bind | apply PassM.mapM | apply PassM.foldlM | apply_assumption -exfalso -symm | apply PassM.ite
    | split

theorem runGrad_works {s0 : State} {s : State} (r : Nat) (tied : Bool) (h_s : Works s0 s) :
    PassO (Works s0) (State.runGrad s r tied) := by
  unfold State.runGrad
  repeat' first
    | with_reducible assumption
    | (extract_lets -underBinder +onlyGivenNames x; guard_hyp x : _ := _; clear_value x; have x := trivial)
    | with_reducible first
        | apply runEngines_works | apply deliveryDone_works | apply gradBody_works | apply PassO.next | apply PassO.ite
    | split
    | refine PassO.of ?_ (by with_reducible assumption)

theorem execGradientPair_works {s0 : State} (r : Nat) {s : State} (h_s : Works s0 s) :
    PassO (Works s0) (execGradientPair r s) := by
  unfold execGradientPair
  repeat' with_reducible first | assumption | apply runGrad_works

theorem execTiedGroup_works {s0 : State} (r : Nat) {s : State} (h_s : Works s0 s) :
    PassO (Works s0) (execTiedGroup r s) := by
  unfold execTiedGroup
  repeat' with_reducible first | assumption | apply runGrad_works

end Sys2Proof.Safety
end

