-- ==== Sys2Proof/Laws/WorksVector.lean ====
section
/-! SUPPORT. The parts of the work of tasks in Machine/Vector.lean change only what `Works` allows. -/

namespace Sys2Proof.Safety

open Sys2Proof.Machine

theorem VecIn_elem_works {s0 : State} (x : VecIn) (c : Ctx) (w : Working) (co : List Nat) :
    PassM (Works s0) (VecIn.elem x c w co : W Machine.Num) := by
  unfold VecIn.elem
  repeat' first
    | intro _
    | with_reducible first
        | apply arith_works | apply readCode_works | apply readScaleCode_works | apply PassM.bind

theorem VecIn_row_works {s0 : State} (x : VecIn) (c : Ctx) (w : Working) (r : Nat) :
    PassM (Works s0) (VecIn.row x c w r : W (List Machine.Num)) := by
  unfold VecIn.row
  repeat' first
    | intro _
    | with_reducible first | apply VecIn_elem_works | apply PassM.mapM

theorem vecArgs_works {s0 : State} (c : Ctx) (image : Nat) :
    PassM (Works s0) (vecArgs c image : W VecArgs) := by
  unfold vecArgs
  repeat' first
    | intro _
    | (extract_lets -underBinder +onlyGivenNames x; with_reducible refine PassM.cut (P := Works s0) (x := x) ?_ fun hx => ?_; rotate_left; clear_value x; have x := trivial; rotate_left; unfold x; clear x)
    | with_reducible first
        | apply getDesc?_works | apply tensorScale_works | apply PassM.pure | apply PassM.bind
        | apply_assumption -exfalso -symm
    | split

theorem evaluated_works {s0 : State} (n : Nat) :
    PassM (Works s0) (evaluated n : W Unit) := by
  unfold evaluated
  repeat' first
    | decide
    | with_reducible apply tally_works

theorem laneTable_works {s0 : State} (c : Ctx) (img : Nat) (deriv : Bool) (x : Machine.Num) :
    PassM (Works s0) (laneTable c img deriv x : W Machine.Num) := by
  unfold laneTable
  repeat' first
    | intro _
    | with_reducible first | apply arith_works | apply evaluated_works | apply PassM.bind

theorem writeLinear_works {s0 : State} (c : Ctx) (d : Desc) (op : Nat) (fac : Machine.Num) (e0 : Nat) (e1 : Nat) (e2 : List Machine.Num) :
    PassM (Works s0) (writeLinear c d op fac e0 e1 e2 : W Unit) := by
  induction e0 generalizing e1 e2 with
  | zero => unfold writeLinear; exact PassM.pure
  | succ n ih =>
    unfold writeLinear
    repeat' first
      | intro _
      | (extract_lets -underBinder +onlyGivenNames x; guard_hyp x : _ := _; clear_value x; have x := trivial)
      | with_reducible first
          | apply ih | apply writeRun_works | apply PassM.pure | apply PassM.bind | apply PassM.ite

theorem vectorWork_works {s0 : State} (body : Machine.Task → VecArgs → W Unit) (t : Machine.Task) (h_body : ∀ a0 a1, PassM (Works s0) (body a0 a1)) :
    PassM (Works s0) (vectorWork body t : W Unit) := by
  unfold vectorWork
  repeat' first
    | intro _
    | with_reducible first | apply h_body | apply undefinedIf_works | apply vecArgs_works | apply PassM.bind

theorem runVector_works {s0 : State} {s : State} (r op : Nat) (outs : List Nat) (body : Machine.Task → VecArgs → W Unit) (h_s : Works s0 s) (h_body : ∀ a0 a1, PassM (Works s0) (body a0 a1)) :
    PassO (Works s0) (State.runVector s r op outs body) := by
  unfold State.runVector
  repeat' first
    | intro _
    | with_reducible first
        | assumption | apply h_body | apply runEngines_works | apply vectorWork_works | apply PassO.next
        | apply PassO.ite
    | split

theorem elementBody_works {s0 : State} (needB needC : Bool) (f : Ctx → Working → Machine.Num → Machine.Num → Machine.Num → W Machine.Num) (t : Machine.Task) (args : VecArgs) (h_f : ∀ a0 a1 a2 a3 a4, PassM (Works s0) (f a0 a1 a2 a3 a4)) :
    PassM (Works s0) (elementBody needB needC f t args : W Unit) := by
  unfold elementBody
  repeat' first
    | intro _
    | (extract_lets -underBinder +onlyGivenNames x; first
      | (with_reducible refine PassM.cut (P := Works s0) (x := x) ?_ fun hx => ?_; rotate_left; clear_value x; have x := trivial; rotate_left; unfold x; clear x)
      | (guard_hyp x : _ := _; clear_value x; have x := trivial))
    | with_reducible first
        | apply h_f | apply checkOutput_works | apply outFactor_works | apply writeRow_works | apply undefinedIf_works
        | apply VecIn_row_works | apply PassM.pure | apply PassM.throw | apply PassM.bind | apply PassM.forM
        | apply PassM.mapM | apply_assumption -exfalso -symm
    | split

theorem convertBody_works {s0 : State} (t : Machine.Task) (args : VecArgs) :
    PassM (Works s0) (convertBody t args : W Unit) := by
  unfold convertBody
  repeat' first
    | intro _
    | with_reducible first | apply elementBody_works | apply PassM.pure

theorem execConvert_works {s0 : State} (r : Nat) {s : State} (h_s : Works s0 s) :
    PassO (Works s0) (execConvert r s) := by
  unfold execConvert
  repeat' first
    | intro _
    | with_reducible first | assumption | apply runVector_works | apply convertBody_works

theorem axpbyBody_works {s0 : State} (t : Machine.Task) (args : VecArgs) :
    PassM (Works s0) (axpbyBody t args : W Unit) := by
  unfold axpbyBody
  repeat' first
    | intro _
    | with_reducible first | apply arith_works | apply elementBody_works

theorem execAxpby_works {s0 : State} (r : Nat) {s : State} (h_s : Works s0 s) :
    PassO (Works s0) (execAxpby r s) := by
  unfold execAxpby
  repeat' first
    | intro _
    | with_reducible first | assumption | apply runVector_works | apply axpbyBody_works

theorem mulBody_works {s0 : State} (t : Machine.Task) (args : VecArgs) :
    PassM (Works s0) (mulBody t args : W Unit) := by
  unfold mulBody
  repeat' first
    | intro _
    | with_reducible first | apply arith_works | apply elementBody_works

theorem execMul_works {s0 : State} (r : Nat) {s : State} (h_s : Works s0 s) :
    PassO (Works s0) (execMul r s) := by
  unfold execMul
  repeat' first
    | intro _
    | with_reducible first | assumption | apply runVector_works | apply mulBody_works

theorem fmaBody_works {s0 : State} (t : Machine.Task) (args : VecArgs) :
    PassM (Works s0) (fmaBody t args : W Unit) := by
  unfold fmaBody
  repeat' first
    | intro _
    | with_reducible first | apply arith_works | apply elementBody_works

theorem execFma_works {s0 : State} (r : Nat) {s : State} (h_s : Works s0 s) :
    PassO (Works s0) (execFma r s) := by
  unfold execFma
  repeat' first
    | intro _
    | with_reducible first | assumption | apply runVector_works | apply fmaBody_works

theorem clampBody_works {s0 : State} (t : Machine.Task) (args : VecArgs) :
    PassM (Works s0) (clampBody t args : W Unit) := by
  unfold clampBody
  repeat' first
    | intro _
    | with_reducible first | apply arith_works | apply elementBody_works

theorem execClamp_works {s0 : State} (r : Nat) {s : State} (h_s : Works s0 s) :
    PassO (Works s0) (execClamp r s) := by
  unfold execClamp
  repeat' first
    | intro _
    | with_reducible first | assumption | apply runVector_works | apply clampBody_works

theorem slotOf_works {s0 : State} (slot : Nat) :
    PassM (Works s0) (slotOf slot : W Nat) := by
  unfold slotOf
  repeat' first
    | intro _
    | (extract_lets -underBinder +onlyGivenNames x; guard_hyp x : _ := _; clear_value x; have x := trivial)
    | with_reducible first | apply undefinedIf_works | apply PassM.pure | apply PassM.getThe | apply PassM.bind

theorem funcBody_works {s0 : State} (t : Machine.Task) (args : VecArgs) :
    PassM (Works s0) (funcBody t args : W Unit) := by
  unfold funcBody
  repeat' first
    | intro _
    | with_reducible first
        | apply arith_works | apply laneTable_works | apply elementBody_works | apply slotOf_works | apply PassM.bind

theorem execFunc_works {s0 : State} (r : Nat) {s : State} (h_s : Works s0 s) :
    PassO (Works s0) (execFunc r s) := by
  unfold execFunc
  repeat' first
    | intro _
    | with_reducible first | assumption | apply runVector_works | apply funcBody_works

theorem funcGradBody_works {s0 : State} (t : Machine.Task) (args : VecArgs) :
    PassM (Works s0) (funcGradBody t args : W Unit) := by
  unfold funcGradBody
  repeat' first
    | intro _
    | with_reducible first
        | apply arith_works | apply laneTable_works | apply elementBody_works | apply slotOf_works | apply PassM.bind

theorem execFuncGrad_works {s0 : State} (r : Nat) {s : State} (h_s : Works s0 s) :
    PassO (Works s0) (execFuncGrad r s) := by
  unfold execFuncGrad
  repeat' first
    | intro _
    | with_reducible first | assumption | apply runVector_works | apply funcGradBody_works

theorem amaxBlock_works {s0 : State} (xs : List Machine.Num) :
    PassM (Works s0) (amaxBlock xs : W Machine.Num) := by
  unfold amaxBlock
  repeat' first
    | intro _
    | with_reducible first | apply freeM_works | apply PassM.pure | apply PassM.bind
    | split

theorem amaxBody_works {s0 : State} (t : Machine.Task) (args : VecArgs) :
    PassM (Works s0) (amaxBody t args : W Unit) := by
  unfold amaxBody
  repeat' first
    | intro _
    | (extract_lets -underBinder +onlyGivenNames x; guard_hyp x : _ := _; clear_value x; have x := trivial)
    | with_reducible first
        | apply atomic_works | apply checkOutput_works | apply outFactor_works | apply writeRow_works
        | apply undefinedIf_works | apply VecIn_row_works | apply amaxBlock_works | apply PassM.pure
        | apply PassM.throw | apply PassM.bind | apply PassM.forM | apply PassM.mapM | apply PassM.ite
    | split

theorem execAmax_works {s0 : State} (r : Nat) {s : State} (h_s : Works s0 s) :
    PassO (Works s0) (execAmax r s) := by
  unfold execAmax
  repeat' first
    | intro _
    | with_reducible first | assumption | apply runVector_works | apply amaxBody_works

theorem quantiseBody_works {s0 : State} (t : Machine.Task) (args : VecArgs) :
    PassM (Works s0) (quantiseBody t args : W Unit) := by
  unfold quantiseBody
  repeat' first
    | intro _
    | (extract_lets -underBinder +onlyGivenNames x; first
      | (with_reducible refine PassM.cut (P := Works s0) (x := x) ?_ fun hx => ?_; rotate_left; clear_value x; have x := trivial; rotate_left; unfold x; clear x)
      | (guard_hyp x : _ := _; clear_value x; have x := trivial))
    | with_reducible first
        | apply writeNat_works | apply arith_works | apply checkOutput_works | apply outFactor_works
        | apply writeRow_works | apply undefinedIf_works | apply VecIn_elem_works | apply VecIn_row_works
        | apply PassM.pure | apply PassM.throw | apply PassM.bind | apply PassM.forM | apply_assumption -exfalso -symm
    | split

theorem execQuantise_works {s0 : State} (r : Nat) {s : State} (h_s : Works s0 s) :
    PassO (Works s0) (execQuantise r s) := by
  unfold execQuantise
  repeat' first
    | intro _
    | with_reducible first | assumption | apply runVector_works | apply quantiseBody_works

theorem rowBody_works {s0 : State} (held : List VecIn) (a : VecIn) (o : VecIn) (t : Machine.Task) (f : Ctx → Nat → W (List Machine.Num)) (h_f : ∀ a0 a1, PassM (Works s0) (f a0 a1)) :
    PassM (Works s0) (rowBody held a o t f : W Unit) := by
  unfold rowBody
  repeat' first
    | intro _
    | (extract_lets -underBinder +onlyGivenNames x; guard_hyp x : _ := _; clear_value x; have x := trivial)
    | with_reducible first
        | apply h_f | apply checkOutput_works | apply outFactor_works | apply writeRow_works | apply undefinedIf_works
        | apply PassM.bind | apply PassM.forM

theorem softmaxRow_works {s0 : State} (c : Ctx) (exp2 recip : Nat) (alpha : Machine.Num) (xs : List Machine.Num) :
    PassM (Works s0) (softmaxRow c exp2 recip alpha xs : W (List Machine.Num)) := by
  unfold softmaxRow
  repeat' first
    | intro _
    | with_reducible first
        | apply arith_works | apply evaluated_works | apply laneTable_works | apply PassM.pure | apply PassM.bind
        | apply PassM.mapM | apply PassM.ite

theorem softmaxBody_works {s0 : State} (t : Machine.Task) (args : VecArgs) :
    PassM (Works s0) (softmaxBody t args : W Unit) := by
  unfold softmaxBody
  repeat' first
    | intro _
    | with_reducible first
        | apply VecIn_row_works | apply slotOf_works | apply rowBody_works | apply softmaxRow_works | apply PassM.throw
        | apply PassM.bind
    | split

theorem execSoftmax_works {s0 : State} (r : Nat) {s : State} (h_s : Works s0 s) :
    PassO (Works s0) (execSoftmax r s) := by
  unfold execSoftmax
  repeat' first
    | intro _
    | with_reducible first | assumption | apply runVector_works | apply softmaxBody_works

theorem softmaxGradBody_works {s0 : State} (t : Machine.Task) (args : VecArgs) :
    PassM (Works s0) (softmaxGradBody t args : W Unit) := by
  unfold softmaxGradBody
  repeat' first
    | intro _
    | with_reducible first
        | apply arith_works | apply undefinedIf_works | apply VecIn_row_works | apply rowBody_works | apply PassM.throw
        | apply PassM.bind | apply PassM.mapM
    | split

theorem execSoftmaxGrad_works {s0 : State} (r : Nat) {s : State} (h_s : Works s0 s) :
    PassO (Works s0) (execSoftmaxGrad r s) := by
  unfold execSoftmaxGrad
  repeat' first
    | intro _
    | with_reducible first | assumption | apply runVector_works | apply softmaxGradBody_works

theorem normScale_works {s0 : State} (c : Ctx) (rsqrt : Nat) (eps : Machine.Num) (xs : List Machine.Num) :
    PassM (Works s0) (normScale c rsqrt eps xs : W Machine.Num) := by
  unfold normScale
  repeat' first
    | intro _
    | with_reducible first | apply arith_works | apply laneTable_works | apply PassM.bind

theorem normBody_works {s0 : State} (t : Machine.Task) (args : VecArgs) :
    PassM (Works s0) (normBody t args : W Unit) := by
  unfold normBody
  repeat' first
    | intro _
    | (extract_lets -underBinder +onlyGivenNames x; with_reducible refine PassM.cut (P := Works s0) (x := x) ?_ fun hx => ?_; rotate_left; clear_value x; have x := trivial; rotate_left; unfold x; clear x)
    | with_reducible first
        | apply arith_works | apply checkOutput_works | apply outFactor_works | apply writeRun_works
        | apply undefinedIf_works | apply VecIn_row_works | apply slotOf_works | apply rowBody_works
        | apply normScale_works | apply PassM.pure | apply PassM.throw | apply PassM.bind | apply PassM.mapM
        | apply_assumption -exfalso -symm | apply PassM.ite
    | split

theorem execNorm_works {s0 : State} (r : Nat) {s : State} (h_s : Works s0 s) :
    PassO (Works s0) (execNorm r s) := by
  unfold execNorm
  repeat' first
    | intro _
    | with_reducible first | assumption | apply runVector_works | apply normBody_works

theorem normGradBody_works {s0 : State} (t : Machine.Task) (args : VecArgs) :
    PassM (Works s0) (normGradBody t args : W Unit) := by
  unfold normGradBody
  repeat' first
    | intro _
    | with_reducible first
        | apply arith_works | apply undefinedIf_works | apply VecIn_row_works | apply slotOf_works | apply rowBody_works
        | apply normScale_works | apply PassM.throw | apply PassM.bind | apply PassM.mapM
    | split

theorem execNormGrad_works {s0 : State} (r : Nat) {s : State} (h_s : Works s0 s) :
    PassO (Works s0) (execNormGrad r s) := by
  unfold execNormGrad
  repeat' first
    | intro _
    | with_reducible first | assumption | apply runVector_works | apply normGradBody_works

theorem rowDotBody_works {s0 : State} (t : Machine.Task) (args : VecArgs) :
    PassM (Works s0) (rowDotBody t args : W Unit) := by
  unfold rowDotBody
  repeat' first
    | intro _
    | (extract_lets -underBinder +onlyGivenNames x; guard_hyp x : _ := _; clear_value x; have x := trivial)
    | with_reducible first
        | apply arith_works | apply checkOutput_works | apply outFactor_works | apply undefinedIf_works
        | apply VecIn_row_works | apply writeLinear_works | apply PassM.throw | apply PassM.bind | apply PassM.forM
        | apply PassM.mapM
    | split

theorem execRowDot_works {s0 : State} (r : Nat) {s : State} (h_s : Works s0 s) :
    PassO (Works s0) (execRowDot r s) := by
  unfold execRowDot
  repeat' first
    | intro _
    | with_reducible first | assumption | apply runVector_works | apply rowDotBody_works

theorem colsumBody_works {s0 : State} (t : Machine.Task) (args : VecArgs) :
    PassM (Works s0) (colsumBody t args : W Unit) := by
  unfold colsumBody
  repeat' first
    | intro _
    | (extract_lets -underBinder +onlyGivenNames x; guard_hyp x : _ := _; clear_value x; have x := trivial)
    | with_reducible first
        | apply arith_works | apply checkOutput_works | apply outFactor_works | apply writeRow_works
        | apply undefinedIf_works | apply VecIn_row_works | apply PassM.throw | apply PassM.bind | apply PassM.forM
        | apply PassM.mapM | apply PassM.foldlM
    | split

theorem execColsum_works {s0 : State} (r : Nat) {s : State} (h_s : Works s0 s) :
    PassO (Works s0) (execColsum r s) := by
  unfold execColsum
  repeat' first
    | intro _
    | with_reducible first | assumption | apply runVector_works | apply colsumBody_works

theorem topkBody_works {s0 : State} (t : Machine.Task) (args : VecArgs) :
    PassM (Works s0) (topkBody t args : W Unit) := by
  unfold topkBody
  repeat' first
    | intro _
    | (extract_lets -underBinder +onlyGivenNames x; guard_hyp x : _ := _; clear_value x; have x := trivial)
    | with_reducible first
        | apply checkOutput_works | apply outFactor_works | apply writeRow_works | apply undefinedIf_works
        | apply VecIn_row_works | apply PassM.throw | apply PassM.bind | apply PassM.forM
    | split

theorem execTopk_works {s0 : State} (r : Nat) {s : State} (h_s : Works s0 s) :
    PassO (Works s0) (execTopk r s) := by
  unfold execTopk
  repeat' first
    | intro _
    | with_reducible first | assumption | apply runVector_works | apply topkBody_works

theorem coupledBody_works {s0 : State} (t : Machine.Task) (partner : Machine.Task) (pimage : Nat) (fits : VecIn → VecArgs → Bool) (f : Ctx → VecIn → VecArgs → List Nat → Machine.Num → W Machine.Num) (h_f : ∀ a0 a1 a2 a3 a4, PassM (Works s0) (f a0 a1 a2 a3 a4)) :
    PassM (Works s0) (coupledBody t partner pimage fits f : W Unit) := by
  unfold coupledBody
  repeat' first
    | intro _
    | (extract_lets -underBinder +onlyGivenNames x; guard_hyp x : _ := _; clear_value x; have x := trivial)
    | with_reducible first
        | apply h_f | apply arith_works | apply getDesc?_works | apply checkOutput_works | apply outFactor_works
        | apply writeRun_works | apply undefinedIf_works | apply vecArgs_works | apply PassM.pure | apply PassM.throw
        | apply PassM.bind | apply PassM.forM | apply PassM.mapM
    | split

theorem runCoupled_works {s0 : State} {s : State} (r op : Nat) (fits : VecIn → VecArgs → Bool) (f : Nat → Ctx → VecIn → VecArgs → List Nat → Machine.Num → W Machine.Num) (h_s : Works s0 s) (h_f : ∀ a0 a1 a2 a3 a4 a5, PassM (Works s0) (f a0 a1 a2 a3 a4 a5)) :
    PassO (Works s0) (State.runCoupled s r op fits f) := by
  unfold State.runCoupled
  repeat' first
    | intro _
    | with_reducible first
        | assumption | apply h_f | apply runEngines_works | apply coupledBody_works | apply PassM.throw
        | apply PassO.next | apply PassO.ite
    | split

theorem coupledFuncElem_works {s0 : State} (image : Nat) (c : Ctx) (a : VecIn) (u3 : VecArgs) (co : List Nat) (g : Machine.Num) :
    PassM (Works s0) (coupledFuncElem image c a u3 co g : W Machine.Num) := by
  unfold coupledFuncElem
  repeat' first
    | intro _
    | with_reducible first
        | apply arith_works | apply VecIn_elem_works | apply laneTable_works | apply slotOf_works | apply PassM.bind

theorem execCoupledFuncGrad_works {s0 : State} (r : Nat) {s : State} (h_s : Works s0 s) :
    PassO (Works s0) (execCoupledFuncGrad r s) := by
  unfold execCoupledFuncGrad
  repeat' first
    | intro _
    | with_reducible first | assumption | apply runCoupled_works | apply coupledFuncElem_works

theorem coupledSoftmaxElem_works {s0 : State} (u0 : Nat) (c : Ctx) (a : VecIn) (args : VecArgs) (co : List Nat) (g : Machine.Num) :
    PassM (Works s0) (coupledSoftmaxElem u0 c a args co g : W Machine.Num) := by
  unfold coupledSoftmaxElem
  repeat' first
    | intro _
    | (extract_lets -underBinder +onlyGivenNames x; guard_hyp x : _ := _; clear_value x; have x := trivial)
    | with_reducible first | apply arith_works | apply VecIn_elem_works | apply PassM.throw | apply PassM.bind
    | split

theorem execCoupledSoftmaxGrad_works {s0 : State} (r : Nat) {s : State} (h_s : Works s0 s) :
    PassO (Works s0) (execCoupledSoftmaxGrad r s) := by
  unfold execCoupledSoftmaxGrad
  repeat' first
    | intro _
    | with_reducible first | assumption | apply runCoupled_works | apply coupledSoftmaxElem_works

theorem coupledNormElem_works {s0 : State} (u0 : Nat) (c : Ctx) (a : VecIn) (args : VecArgs) (co : List Nat) (g : Machine.Num) :
    PassM (Works s0) (coupledNormElem u0 c a args co g : W Machine.Num) := by
  unfold coupledNormElem
  repeat' first
    | intro _
    | (extract_lets -underBinder +onlyGivenNames x; guard_hyp x : _ := _; clear_value x; have x := trivial)
    | with_reducible first | apply arith_works | apply VecIn_elem_works | apply PassM.throw | apply PassM.bind
    | split

theorem execCoupledNormGrad_works {s0 : State} (r : Nat) {s : State} (h_s : Works s0 s) :
    PassO (Works s0) (execCoupledNormGrad r s) := by
  unfold execCoupledNormGrad
  repeat' first
    | intro _
    | with_reducible first | assumption | apply runCoupled_works | apply coupledNormElem_works

end Sys2Proof.Safety
end

