-- ==== Sys2Proof/Laws/WorksUpdate.lean ====
section
/-! SUPPORT. The parts of the work of tasks in Machine/Update.lean change only what `Works` allows. -/

namespace Sys2Proof.Safety

open Sys2Proof.Machine

theorem formed_works {s0 : State} (c : Ctx) (x : Machine.Num) :
    PassM (Works s0) (formed c x : W Machine.Num) := by
  unfold formed
  repeat' with_reducible apply arith_works

theorem readCurve_works {s0 : State} (c : Ctx) (addr n t : Nat) :
    PassM (Works s0) (readCurve c addr n t : W Machine.Num) := by
  unfold readCurve
  repeat' first
    | intro _
    | (extract_lets -underBinder +onlyGivenNames x; guard_hyp x : _ := _; clear_value x; have x := trivial)
    | with_reducible first
        | apply readBytes_works | apply arith_works | apply formed_works | apply PassM.throw | apply PassM.bind
    | split

theorem formGroup_works {s0 : State} (c : Ctx) (g : Nat) (scale : Machine.Num) :
    PassM (Works s0) (formGroup c g scale : W UpdCtx) := by
  unfold formGroup
  repeat' first
    | intro _
    | (extract_lets -underBinder +onlyGivenNames x; first
      | (with_reducible refine PassM.cut (P := Works s0) (x := x) ?_ fun hx => ?_; rotate_left; clear_value x; have x := trivial; rotate_left; unfold x; clear x)
      | (guard_hyp x : _ := _; clear_value x; have x := trivial))
    | with_reducible first
        | apply arith_works | apply formed_works | apply readCurve_works | apply PassM.pure | apply PassM.bind
        | apply_assumption -exfalso -symm | apply PassM.ite

theorem readParams_works {s0 : State} (c : Ctx) (u : UpdCtx) (x : VecIn) (r : Nat) :
    PassM (Works s0) (readParams c u x r : W (List Machine.Num)) := by
  unfold readParams
  repeat' first
    | intro _
    | with_reducible first
        | apply arith_works | apply readCode_works | apply readRow_works | apply PassM.bind | apply PassM.mapM
        | apply PassM.ite

theorem readGrad_works {s0 : State} (c : Ctx) (u : UpdCtx) (x : VecIn) (r : Nat) :
    PassM (Works s0) (readGrad c u x r : W (List Machine.Num)) := by
  unfold readGrad
  repeat' first
    | intro _
    | with_reducible first | apply arith_works | apply readRow_works | apply PassM.bind | apply PassM.mapM

theorem paramFactor_works {s0 : State} (c : Ctx) (u : UpdCtx) (x : VecIn) :
    PassM (Works s0) (paramFactor c u x : W Machine.Num) := by
  unfold paramFactor
  repeat' with_reducible first | apply outFactor_works | apply PassM.pure | apply PassM.ite

theorem readState_works {s0 : State} (c : Ctx) (x : VecIn) (n r : Nat) :
    PassM (Works s0) (readState c x n r : W (List Machine.Num)) := by
  unfold readState
  repeat' first
    | intro _
    | with_reducible first | apply readElem_works | apply PassM.mapM

theorem updateRow_works {s0 : State} (c : Ctx) (u : UpdCtx) (a : UpdArgs) (r : Nat) :
    PassM (Works s0) (updateRow c u a r : W Unit) := by
  unfold updateRow
  repeat' first
    | intro _
    | decide
    | (extract_lets -underBinder +onlyGivenNames x; guard_hyp x : _ := _; clear_value x; have x := trivial)
    | with_reducible first
        | apply arith_works | apply tally_works | apply outFactor_works | apply writeRow_works | apply readParams_works
        | apply readGrad_works | apply paramFactor_works | apply readState_works | apply PassM.throw
        | apply PassM.bind | apply PassM.mapM
    | split

theorem denseBody_works {s0 : State} (t : Machine.Task) (u : UpdCtx) (a : UpdArgs) :
    PassM (Works s0) (denseBody t u a : W Unit) := by
  unfold denseBody
  repeat' first
    | intro _
    | with_reducible first | apply updateRow_works | apply PassM.forM

theorem lazyRow_works {s0 : State} (c : Ctx) (u : UpdCtx) (a : UpdArgs) (r : Nat) :
    PassM (Works s0) (lazyRow c u a r : W Unit) := by
  unfold lazyRow
  repeat' first
    | intro _
    | decide
    | (extract_lets -underBinder +onlyGivenNames x; guard_hyp x : _ := _; clear_value x; have x := trivial)
    | with_reducible first
        | apply tally_works | apply binElem_works | apply readCode_works | apply writeCode_works | apply formed_works
        | apply updateRow_works | apply PassM.throw | apply PassM.bind
    | split

theorem lazyIndex_works {s0 : State} (c : Ctx) (a : UpdArgs) (i : Int) :
    PassM (Works s0) (lazyIndex c a i : W Nat) := by
  unfold lazyIndex
  repeat' first
    | intro _
    | (extract_lets -underBinder +onlyGivenNames x; guard_hyp x : _ := _; clear_value x; have x := trivial)
    | with_reducible first
        | apply noteClamp_works | apply PassM.pure | apply PassM.bind | apply PassM.forM | apply PassM.ite

theorem lazyBody_works {s0 : State} (t : Machine.Task) (u : UpdCtx) (a : UpdArgs) :
    PassM (Works s0) (lazyBody t u a : W Unit) := by
  unfold lazyBody
  repeat' first
    | intro _
    | (extract_lets -underBinder +onlyGivenNames x; guard_hyp x : _ := _; clear_value x; have x := trivial)
    | with_reducible first
        | apply getDesc_works | apply tensorScale_works | apply readIndex_works | apply undefinedIf_works
        | apply lazyRow_works | apply lazyIndex_works | apply PassM.pure | apply PassM.bind | apply PassM.forM
        | apply PassM.mapM

theorem sumInOrder_works {s0 : State} (c : Ctx) (xs : List Machine.Num) :
    PassM (Works s0) (sumInOrder c xs : W Machine.Num) := by
  unfold sumInOrder
  repeat' with_reducible apply arith_works

theorem factoredBody_works {s0 : State} (t : Machine.Task) (u : UpdCtx) (a : UpdArgs) (rf cf : VecIn) :
    PassM (Works s0) (factoredBody t u a rf cf : W Unit) := by
  unfold factoredBody
  repeat' first
    | intro _
    | decide
    | (extract_lets -underBinder +onlyGivenNames x; first
      | (with_reducible refine PassM.cut (P := Works s0) (x := x) ?_ fun hx => ?_; rotate_left; clear_value x; have x := trivial; rotate_left; unfold x; clear x)
      | (with_reducible refine PassM.cut3 (P := Works s0) (x := x) ?_ fun hx => ?_; rotate_left; clear_value x; have x := trivial; rotate_left; unfold x; clear x)
      | (guard_hyp x : _ := _; clear_value x; have x := trivial))
    | with_reducible first
        | apply arith_works | apply tally_works | apply readElem_works | apply outFactor_works | apply writeRun_works
        | apply writeRow_works | apply readParams_works | apply readGrad_works | apply paramFactor_works
        | apply sumInOrder_works | apply PassM.pure | apply PassM.bind | apply PassM.forM | apply PassM.mapM
        | apply_assumption -exfalso -symm | apply PassM.ite
    | split

theorem updateBody_works {s0 : State} (t : Machine.Task) (a : UpdArgs) (g : Nat) :
    PassM (Works s0) (updateBody t a g : W Unit) := by
  unfold updateBody
  repeat' first
    | intro _
    | with_reducible assumption
    | (extract_lets -underBinder +onlyGivenNames x; first
      | (with_reducible refine PassM.cut (P := Works s0) (x := x) ?_ fun hx => ?_; rotate_left; clear_value x; have x := trivial; rotate_left; unfold x; clear x)
      | (guard_hyp x : _ := _; clear_value x; have x := trivial))
    | with_reducible first
        | apply modTask_works | apply checkOutput_works | apply undefinedIf_works | apply formGroup_works
        | apply denseBody_works | apply lazyBody_works | apply factoredBody_works | apply PassM.pure
        | apply PassM.modify | apply PassM.bind | apply PassM.forM | apply_assumption -exfalso -symm | apply PassM.ite
    | split

theorem updArgs_works {s0 : State} (c : Ctx) (image : Nat) :
    PassM (Works s0) (updArgs c image : W UpdArgs) := by
  unfold updArgs
  repeat' first
    | intro _
    | (extract_lets -underBinder +onlyGivenNames x; with_reducible refine PassM.cut (P := Works s0) (x := x) ?_ fun hx => ?_; rotate_left; clear_value x; have x := trivial; rotate_left; unfold x; clear x)
    | with_reducible first
        | apply getDesc?_works | apply tensorScale_works | apply PassM.pure | apply PassM.throw | apply PassM.bind
        | apply_assumption -exfalso -symm
    | split

theorem updateWork_works {s0 : State} (c : Ctx) (g : Nat) (t : Machine.Task) :
    PassM (Works s0) (updateWork c g t : W Unit) := by
  unfold updateWork
  repeat' first
    | intro _
    | with_reducible first | apply updateBody_works | apply updArgs_works | apply PassM.bind

theorem runUpdate_works {s0 : State} {s : State} (r mode : Nat) (h_s : Works s0 s) :
    PassO (Works s0) (State.runUpdate s r mode) := by
  unfold State.runUpdate
  repeat' first
    | with_reducible assumption
    | (extract_lets -underBinder +onlyGivenNames x; guard_hyp x : _ := _; clear_value x; have x := trivial)
    | with_reducible first | apply runEngines_works | apply updateWork_works | apply PassO.next | apply PassO.ite
    | split

theorem execUpdateMomentumSgd_works {s0 : State} (r : Nat) {s : State} (h_s : Works s0 s) :
    PassO (Works s0) (execUpdateMomentumSgd r s) := by
  unfold execUpdateMomentumSgd
  repeat' with_reducible first | assumption | apply runUpdate_works

theorem execUpdateAdamw_works {s0 : State} (r : Nat) {s : State} (h_s : Works s0 s) :
    PassO (Works s0) (execUpdateAdamw r s) := by
  unfold execUpdateAdamw
  repeat' with_reducible first | assumption | apply runUpdate_works

theorem execUpdateFactored_works {s0 : State} (r : Nat) {s : State} (h_s : Works s0 s) :
    PassO (Works s0) (execUpdateFactored r s) := by
  unfold execUpdateFactored
  repeat' with_reducible first | assumption | apply runUpdate_works

theorem execUpdateSignMomentum_works {s0 : State} (r : Nat) {s : State} (h_s : Works s0 s) :
    PassO (Works s0) (execUpdateSignMomentum r s) := by
  unfold execUpdateSignMomentum
  repeat' with_reducible first | assumption | apply runUpdate_works

theorem execUpdateLazy_works {s0 : State} (r : Nat) {s : State} (h_s : Works s0 s) :
    PassO (Works s0) (execUpdateLazy r s) := by
  unfold execUpdateLazy
  repeat' with_reducible first | assumption | apply runUpdate_works

end Sys2Proof.Safety
end

