-- ==== Sys2Proof/Laws/Collects.lean ====
section
/-! SUPPORT. What collectives, snapshots and the twin's messages can do, said once: the ways in which a change of state
keeps what `Collects` names. -/

namespace Sys2Proof.Safety

open Sys2Proof.Machine

theorem Collects.refl (s : State) : Collects s s := ⟨.refl s, rfl, rfl, fun h => ⟨h, fun _ _ _ _ => rfl⟩⟩

theorem Collects.trans {a b c : State} (h : Collects a b) (k : Collects b c) : Collects a c :=
  ⟨h.keeps.trans k.keeps, k.frame.trans h.frame, k.records.trans h.records, fun r =>
    ⟨(k.objs (h.objs r).1).1, fun j n m o => ((k.objs (h.objs r).1).2 j n m o).trans ((h.objs r).2 j n m o)⟩⟩

/-- The work of a task is among what a collective may do. -/
theorem Works.collects {s t : State} (h : Works s t) : Collects s t := by
  refine ⟨h.keeps, ?_, h.records, fun r => ⟨(h.objs r).1, fun k n _ _ => (h.objs r).2 k n⟩⟩
  have f := h.frame
  simp only [workFrame, collFrame, Prod.mk.injEq] at f ⊢
  obtain ⟨a, -, b, -, c, d, e, -, f⟩ := f
  exact ⟨a, b, c, d, e, f⟩

/-- Sending is among what a command may do. -/
theorem SendsOn.keeps {f : Nat → Prop} {s t : State} (k : SendsOn f s t) (hr : Rising s.dict.objs → Rising t.dict.objs) :
    Keeps s t := by
  have e := k.frame
  simp only [sendFrame, Prod.mk.injEq] at e
  obtain ⟨h1, h2, h3, -, h5, -, h7, h8, -, -, -, h12, -, -, -, h16, -⟩ := e
  exact ⟨h1, k.out, Nat.le_of_eq h2.symm, h8 ▸ List.prefix_rfl, h8 ▸ List.prefix_rfl, h8 ▸ List.prefix_rfl, fun g =>
    ⟨hr g.objs, h12 ▸ g.pend, h5 ▸ g.cells, h16 ▸ g.log, h3 ▸ g.fallback, h7 ▸ g.readies⟩⟩

/-- Sending on a port changes only what `Collects` allows. -/
theorem Collects.sends {a b c : State} (h : Collects a b) (k : SendsOn (· < 32) b c) : Collects a c := by
  have f := k.frame
  simp only [sendFrame, Prod.mk.injEq] at f
  refine h.trans ⟨k.keeps fun r => (k.objs r).1, ?_, by rw [f.2.2.1], fun r => ⟨(k.objs r).1, fun j _ n m =>
    (k.objs r).2 j ?_ ?_ m⟩⟩
  · obtain ⟨h1, -, h3, h4, h5, h6, -, h8, h9, h10, -, d1, d2, d3, d4, -, -, -, d8, d9, d10, d11, d12, -⟩ := f
    simp only [collFrame, h1, h3, h4, h5, h6, h8, h9, h10, d1, d2, d3, d4, d8, d9, d10, d11, d12]
  · rintro rfl; exact n (by decide)
  · rintro rfl; exact n (by decide)

/-- A change beside which everything that `Collects` names is kept. -/
theorem Collects.change {s0 x : State} {fc : Nat} {d : Dict} {sc : Sched} {nm : Numerics} {mm : Mem}
    {po : List (Nat × Port)} {co : Colls} {re : Resilience} (h : Collects s0 x)
    (hk : Keeps s0 (State.mk x.pending x.out fc d sc nm mm po x.timing co x.sec x.rst x.far re))
    (ho : d.objs = x.dict.objs) (ht : sc.tasks.map (·.record) = x.sched.tasks.map (·.record))
    (hf : collFrame (State.mk x.pending x.out fc d sc nm mm po x.timing co x.sec x.rst x.far re) = collFrame x) :
    Collects s0 (State.mk x.pending x.out fc d sc nm mm po x.timing co x.sec x.rst x.far re) := by
  refine ⟨hk, hf.trans h.frame, ht.trans h.records, fun r => ?_⟩
  show Rising d.objs ∧ ∀ k, k ∉ workObjs → k ∉ collObjs → (∀ p, p < 32 → k ≠ oTxPayloadBytes p) →
    (mapFind d.objs k).getD (objDefault k) = _
  rw [ho]
  exact h.objs r

/-- A change that leaves every part named by `Collects` as it was. -/
theorem Collects.upd {s0 x : State} {d : Dict} {sc : Sched} {nm : Numerics} {mm : Mem} {po : List (Nat × Port)}
    {co : Colls} {re : Resilience} (h : Collects s0 x)
    (ho : d.objs = x.dict.objs) (hd : d.pend = x.dict.pend) (hl : d.log = x.dict.log)
    (hb : sc.fallback = x.sched.fallback) (hc : mm.cells = x.mem.cells) (hr : co.readies = x.colls.readies)
    (ht : sc.tasks = x.sched.tasks)
    (hf : collFrame (State.mk x.pending x.out x.freeCtr d sc nm mm po x.timing co x.sec x.rst x.far re) = collFrame x) :
    Collects s0 (State.mk x.pending x.out x.freeCtr d sc nm mm po x.timing co x.sec x.rst x.far re) :=
  h.change (h.keeps.upd ho hd hl hb hc hr rfl rfl rfl) ho (ht ▸ rfl) hf

/-- The collectives' part changed in a way that keeps the readies within their bound. -/
theorem Collects.changeColls {s0 x : State} {co : Colls} (h : Collects s0 x)
    (k : x.colls.readies.length ≤ 16384 → co.readies.length ≤ 16384) :
    Collects s0 (State.mk x.pending x.out x.freeCtr x.dict x.sched x.num x.mem x.ports x.timing co x.sec x.rst x.far
      x.resil) :=
  h.change (h.keeps.changeColls k) rfl rfl rfl

/-- Memory changed in a way that keeps its form. -/
theorem Collects.changeMem {s0 x : State} {mm : Mem} (h : Collects s0 x)
    (k : memWf x.mem.cells = true → memWf mm.cells = true)
    (hf : collFrame (State.mk x.pending x.out x.freeCtr x.dict x.sched x.num mm x.ports x.timing x.colls x.sec x.rst x.far
      x.resil) = collFrame x) :
    Collects s0 (State.mk x.pending x.out x.freeCtr x.dict x.sched x.num mm x.ports x.timing x.colls x.sec x.rst x.far
      x.resil) :=
  h.change (h.keeps.changeMem k) rfl rfl hf

/-- Free values taken. -/
theorem Collects.addFree {s0 x : State} {n : Nat} (h : Collects s0 x) :
    Collects s0 (State.mk x.pending x.out (x.freeCtr + n) x.dict x.sched x.num x.mem x.ports x.timing x.colls x.sec x.rst
      x.far x.resil) :=
  h.change h.keeps.addFree rfl rfl rfl

end Sys2Proof.Safety
end

