-- ==== Sys2Proof/Laws/CollectsOps.lean ====
section
/-! SUPPORT. The parts of collectives and snapshots in Machine/Ops.lean change only what `Collects` allows. -/

namespace Sys2Proof.Safety

open Sys2Proof.Machine

theorem setObj_collects {s0 s : State} (key v : Nat) (h : Collects s0 s) (hk : key ∈ workObjs ∨ key ∈ collObjs) :
    Collects s0 (s.setObj key v) := by
  refine ⟨setObj_kept _ _ h.keeps, h.frame, h.records, fun r => ?_⟩
  obtain ⟨r1, r2⟩ := h.objs r
  refine ⟨rising_mapPut r1, fun k n m o => ?_⟩
  have hne : k ≠ key := fun e => hk.elim (fun x => n (e ▸ x)) fun x => m (e ▸ x)
  rw [← r2 k n m o]
  exact obj_setObj_ne r1 hne

theorem addObj_collects {s0 : State} {s : State} (key n : Nat) (h_s : Collects s0 s) (hk : key ∈ workObjs ∨ key ∈ collObjs) :
    Collects s0 (State.addObj s key n) := by
  unfold State.addObj
  repeat' with_reducible first | assumption | apply setObj_collects | apply Pass.ite (P := Collects s0)

theorem count_collects {s0 : State} {s : State} (key : Nat) (h_s : Collects s0 s) (hk : key ∈ workObjs ∨ key ∈ collObjs) :
    Collects s0 (State.count s key) := by
  unfold State.count
  repeat' with_reducible first | assumption | apply addObj_collects

theorem emit_collects {s0 : State} {s : State} (o : Out) (h_s : Collects s0 s) :
    Collects s0 (State.emit s o) :=
  h_s.trans (Works.collects (emit_works _ (Works.refl _)))

theorem raise_collects {s0 : State} {s : State} (code source unit : Nat) (w0 : Nat) (w1 : Nat) (w2 : Nat) (w3 : Nat) (w4 : Nat) (h_s : Collects s0 s) :
    Collects s0 (State.raise s code source unit w0 w1 w2 w3 w4) :=
  h_s.trans (Works.collects (raise_works _ _ _ _ _ _ _ _ (Works.refl _)))

theorem setTickEvent_collects {s0 : State} {s : State} (e : EventRec) (h_s : Collects s0 s) :
    Collects s0 (State.setTickEvent s e) :=
  h_s.trans (Works.collects (setTickEvent_works _ (Works.refl _)))

theorem noteStale_collects {s0 : State} {s : State} (h_s : Collects s0 s) :
    Collects s0 (State.noteStale s) :=
  h_s.trans (Works.collects (noteStale_works (Works.refl _)))

theorem haltWith_collects {s0 : State} {s : State} (cause record : Nat) (h_s : Collects s0 s) :
    Collects s0 (State.haltWith s cause record) :=
  h_s.trans (Works.collects (haltWith_works _ _ (Works.refl _)))

theorem mod_collects {s0 : State} (f : State → State) (h_f : ∀ y : State, Collects s0 y → Collects s0 (f y)) :
    PassM (Collects s0) (mod f) := PassM.mod h_f

theorem freeM_collects {s0 : State} (w : Nat) :
    PassM (Collects s0) (freeM w : M Nat) :=
  .carry (fun _ => freeM_works _) Works.refl fun _ _ h k => h.trans (Works.collects k)

end Sys2Proof.Safety
end

