-- ==== Sys2Proof/Laws/CollectsMemory.lean ====
section
/-! SUPPORT. The parts of collectives and snapshots in Machine/Memory.lean change only what `Collects` allows. -/

namespace Sys2Proof.Safety

open Sys2Proof.Machine

theorem setEntry_collects {s0 : State} {s : State} (page e : Nat) (h_s : Collects s0 s) :
    Collects s0 (State.setEntry s page e) := by
  unfold State.setEntry
  repeat' first
    | (extract_lets -underBinder +onlyGivenNames x; guard_hyp x : Mem := _; have x := trivial)
    | (with_reducible refine Collects.upd ?_ rfl rfl rfl rfl rfl rfl rfl rfl; with_reducible assumption)

theorem writeBack_collects {s0 : State} {s : State} (line : Nat) (h_s : Collects s0 s) :
    Collects s0 (State.writeBack s line) :=
  h_s.trans (Works.collects (writeBack_works _ (Works.refl _)))

theorem dropLines_collects {s0 : State} {s : State} (p : Nat → Bool) (writeBack : Bool) (h_s : Collects s0 s) :
    Collects s0 (State.dropLines s p writeBack) := by
  unfold State.dropLines
  repeat' first
    | intro _
    | with_reducible assumption
    | (extract_lets -underBinder +onlyGivenNames x; first
      | (with_reducible refine Pass.cut (P := Collects s0) (x := x) ?_ fun hx => ?_; rotate_left; clear_value x; have x := trivial; rotate_left; unfold x; clear x)
      | (guard_hyp x : Mem := _; have x := trivial)
      | (guard_hyp x : _ := _; clear_value x; have x := trivial))
    | with_reducible first
        | apply writeBack_collects | apply Pass.foldl (P := Collects s0) | apply Pass.ite (P := Collects s0)
    | (with_reducible refine Collects.upd ?_ rfl rfl rfl rfl rfl rfl rfl rfl; with_reducible assumption)

theorem cleanLines_collects {s0 : State} {s : State} (h_s : Collects s0 s) :
    Collects s0 (State.cleanLines s) := by
  unfold State.cleanLines
  repeat' first
    | intro _
    | with_reducible assumption
    | (extract_lets -underBinder +onlyGivenNames x; first
      | (with_reducible refine Pass.cut (P := Collects s0) (x := x) ?_ fun hx => ?_; rotate_left; clear_value x; have x := trivial; rotate_left; unfold x; clear x)
      | (guard_hyp x : Mem := _; have x := trivial)
      | (guard_hyp x : _ := _; clear_value x; have x := trivial))
    | with_reducible first
        | apply writeBack_collects | apply Pass.foldl (P := Collects s0) | apply Pass.ite (P := Collects s0)
    | (with_reducible refine Collects.upd ?_ rfl rfl rfl rfl rfl rfl rfl rfl; with_reducible assumption)

theorem addCount_collects {s0 : State} {s : State} (page n : Nat) (h_s : Collects s0 s) :
    Collects s0 (State.addCount s page n) :=
  h_s.trans (Works.collects (addCount_works _ _ (Works.refl _)))

theorem shootdown_collects {s0 : State} {s : State} (page : Nat) (h_s : Collects s0 s) :
    Collects s0 (State.shootdown s page) := by
  unfold State.shootdown
  repeat' first
    | with_reducible assumption
    | decide
    | (extract_lets -underBinder +onlyGivenNames x; first
      | (with_reducible refine Pass.cut (P := Collects s0) (x := x) ?_ fun hx => ?_; rotate_left; clear_value x; have x := trivial; rotate_left; unfold x; clear x)
      | (guard_hyp x : Mem := _; have x := trivial)
      | (guard_hyp x : _ := _; clear_value x; have x := trivial))
    | with_reducible first | apply count_collects | apply addCount_collects
    | (with_reducible refine Collects.upd ?_ rfl rfl rfl rfl rfl rfl rfl rfl; with_reducible assumption)

theorem flushCounts_collects {s0 : State} {s : State} (h_s : Collects s0 s) :
    Collects s0 (State.flushCounts s) := by
  unfold State.flushCounts
  repeat' first
    | intro _
    | with_reducible assumption
    | (extract_lets -underBinder +onlyGivenNames x; first
      | (with_reducible refine Pass.cut (P := Collects s0) (x := x) ?_ fun hx => ?_; rotate_left; clear_value x; have x := trivial; rotate_left; unfold x; clear x)
      | (guard_hyp x : Mem := _; have x := trivial)
      | (guard_hyp x : _ := _; clear_value x; have x := trivial))
    | with_reducible first | apply addCount_collects | apply Pass.foldl (P := Collects s0)
    | (with_reducible refine Collects.upd ?_ rfl rfl rfl rfl rfl rfl rfl rfl; with_reducible assumption)

theorem absentPage_collects {s0 : State} {α : Type} (va : Nat) :
    PassM (Collects s0) (absentPage va : M α) :=
  .carry (fun _ => absentPage_works _) Works.refl fun _ _ h k => h.trans (Works.collects k)

theorem freeBytes_collects {s0 : State} (n : Nat) :
    PassM (Collects s0) (freeBytes n : M (List Byte)) :=
  .carry (fun _ => freeBytes_works _) Works.refl fun _ _ h k => h.trans (Works.collects k)

theorem readBytes_collects {s0 : State} (i : Init) (req : Req) (va n : Nat) :
    PassM (Collects s0) (readBytes i req va n : M (List Byte)) :=
  .carry (fun _ => readBytes_works _ _ _ _) Works.refl fun _ _ h k => h.trans (Works.collects k)

theorem writeBytes_collects {s0 : State} (i : Init) (req : Req) (va : Nat) (bs : List Byte) :
    PassM (Collects s0) (writeBytes i req va bs : M Unit) :=
  .carry (fun _ => writeBytes_works _ _ _ _) Works.refl fun _ _ h k => h.trans (Works.collects k)

theorem readNat_collects {s0 : State} (i : Init) (req : Req) (va n : Nat) :
    PassM (Collects s0) (readNat i req va n : M Nat) :=
  .carry (fun _ => readNat_works _ _ _ _) Works.refl fun _ _ h k => h.trans (Works.collects k)

theorem atomic_collects {s0 : State} (i : Init) (op : AtomicOp) (va n v : Nat) :
    PassM (Collects s0) (atomic i op va n v : M Nat) :=
  .carry (fun _ => atomic_works _ _ _ _ _) Works.refl fun _ _ h k => h.trans (Works.collects k)

end Sys2Proof.Safety
end

