-- ==== Sys2Proof/Laws/CollectsLinks.lean ====
section
/-! SUPPORT. The parts of collectives and snapshots in Machine/Links.lean change only what `Collects` allows. -/

namespace Sys2Proof.Safety

open Sys2Proof.Machine

theorem setPort_collects {s0 s : State} (p : Nat) (q : Port) (h : Collects s0 s) : Collects s0 (s.setPort p q) :=
  h.sends (setPort_sends p q (SendsOn.refl s))

theorem sendRouted_collects {s0 s : State} (vc param dest epoch kind axis : Nat) (data : List Byte) (h : Collects s0 s) :
    Collects s0 (s.sendRouted vc param dest epoch kind axis data) :=
  h.sends (sendRouted_sends _ _ _ _ _ _ _ (SendsOn.refl s) fun _ l => l)

theorem sendThrough_collects {s0 s : State} (p vc param dest epoch kind axis : Nat) (data : List Byte) (h : Collects s0 s)
    (hp : p < 32) : Collects s0 (s.sendThrough p vc param dest epoch kind axis data) :=
  h.sends (sendThrough_sends _ _ _ _ _ _ _ _ (SendsOn.refl s) hp)

theorem sendDirect_collects {s0 s : State} (p vc param dest kind : Nat) (data : List Byte) (h : Collects s0 s)
    (hp : p < 32) : Collects s0 (s.sendDirect p vc param dest kind data) :=
  h.sends (sendDirect_sends _ _ _ _ _ _ (SendsOn.refl s) hp)

theorem sendTwin_collects {s0 s : State} (vc param kind : Nat) (data : List Byte) (h : Collects s0 s) :
    Collects s0 (s.sendTwin vc param kind data) :=
  h.sends (sendTwin_sends _ _ _ _ (SendsOn.refl s) fun _ l => l)

end Sys2Proof.Safety
end

