-- ==== Sys2Proof/Laws/CollectsCommit.lean ====
section
/-! SUPPORT. The parts of collectives and snapshots in Machine/Commit.lean change only what `Collects` allows. -/

namespace Sys2Proof.Safety

open Sys2Proof.Machine

theorem noteLate_collects {s0 : State} {s : State} (tag absent position carried dropped : Nat) (h_s : Collects s0 s) :
    Collects s0 (State.noteLate s tag absent position carried dropped) := by
  unfold State.noteLate
  repeat' first
    | with_reducible assumption
    | decide
    | (extract_lets -underBinder +onlyGivenNames x; first
      | (with_reducible refine Pass.cut (P := Collects s0) (x := x) ?_ fun hx => ?_; rotate_left; clear_value x; have x := trivial; rotate_left; unfold x; clear x)
      | (guard_hyp x : _ := _; clear_value x; have x := trivial))
    | with_reducible first | apply addObj_collects | apply setTickEvent_collects
    | split

theorem dropLate_collects {s0 : State} {s : State} (h_s : Collects s0 s) :
    Collects s0 (State.dropLate s) := by
  unfold State.dropLate
  repeat' first
    | with_reducible assumption
    | (extract_lets -underBinder +onlyGivenNames x; first
      | (with_reducible refine Pass.cut (P := Collects s0) (x := x) ?_ fun hx => ?_; rotate_left; clear_value x; have x := trivial; rotate_left; unfold x; clear x)
      | (guard_hyp x : Colls := _; have x := trivial)
      | (guard_hyp x : _ := _; clear_value x; have x := trivial))
    | with_reducible first | apply noteLate_collects | apply Pass.ite (P := Collects s0)
    | (with_reducible refine Collects.upd ?_ rfl rfl rfl rfl rfl rfl rfl rfl; with_reducible assumption)

end Sys2Proof.Safety
end

