-- ==== Sys2Proof/Laws/CollectsTasks.lean ====
section
/-! SUPPORT. The parts of collectives and snapshots in Machine/Tasks.lean change only what `Collects` allows. -/

namespace Sys2Proof.Safety

open Sys2Proof.Machine

theorem setTask_collects {s0 : State} {s : State} (t : Machine.Task) (h_s : Collects s0 s) :
    Collects s0 (State.setTask s t) :=
  h_s.trans (Works.collects (setTask_works _ (Works.refl _)))

theorem scramble_collects {s0 : State} {s : State} (writers : List Nat) (va n : Nat) (h_s : Collects s0 s) :
    Collects s0 (State.scramble s writers va n) :=
  h_s.trans (Works.collects (scramble_works _ _ _ (Works.refl _)))

theorem undefinedJob_collects {s0 : State} {α : Type} :
    PassM (Collects s0) (undefinedJob : M α) :=
  .carry (fun _ => undefinedJob_works ) Works.refl fun _ _ h k => h.trans (Works.collects k)

theorem failTask_collects {s0 : State} {s : State} (t : Machine.Task) (outs : List (Nat × Nat)) (a : Abort) (h_s : Collects s0 s) :
    Collects s0 (State.failTask s t outs a) :=
  h_s.trans (Works.collects (failTask_works _ _ _ (Works.refl _)))

theorem modTask_collects {s0 : State} {s : State} (r : Nat) (f : Machine.Task → Machine.Task) (h_s : Collects s0 s) :
    Collects s0 (State.modTask s r f) :=
  h_s.trans (Works.collects (modTask_works _ _ (Works.refl _)))

end Sys2Proof.Safety
end

