-- ==== Sys2Proof/Laws/CollectsTensor.lean ====
section
/-! SUPPORT. The parts of collectives and snapshots in Machine/Tensor.lean change only what `Collects` allows. -/

namespace Sys2Proof.Safety

open Sys2Proof.Machine

theorem arith_collects {s0 : State} {α : Type} (c : Ctx) (x : F α) :
    PassM (Collects s0) (arith c x : W α) :=
  .carry (fun _ => arith_works _ _) Works.refl fun _ _ h k => h.trans (Works.collects k)

theorem settleBins_collects {s0 : State} (ini : Init) :
    PassM (Collects s0) (settleBins ini : M Unit) :=
  .carry (fun _ => settleBins_works _) Works.refl fun _ _ h k => h.trans (Works.collects k)

theorem readCode_collects {s0 : State} (c : Ctx) (d : Desc) (co : List Nat) :
    PassM (Collects s0) (readCode c d co : W Nat) :=
  .carry (fun _ => readCode_works _ _ _) Works.refl fun _ _ h k => h.trans (Works.collects k)

theorem tensorScale_collects {s0 : State} (c : Ctx) (d : Desc) :
    PassM (Collects s0) (tensorScale c d : W Machine.Num) :=
  .carry (fun _ => tensorScale_works _ _) Works.refl fun _ _ h k => h.trans (Works.collects k)

theorem readScaleCode_collects {s0 : State} (c : Ctx) (d : Desc) (co : List Nat) :
    PassM (Collects s0) (readScaleCode c d co : W (Option Nat)) :=
  .carry (fun _ => readScaleCode_works _ _ _) Works.refl fun _ _ h k => h.trans (Works.collects k)

theorem readRow_collects {s0 : State} (c : Ctx) (d : Desc) (ts : Machine.Num) (r : Nat) :
    PassM (Collects s0) (readRow c d ts r : W (List Machine.Num)) :=
  .carry (fun _ => readRow_works _ _ _ _) Works.refl fun _ _ h k => h.trans (Works.collects k)

theorem clampDim_collects {s0 : State} (c : Ctx) (d : Desc) (n : Nat) (i : Int) :
    PassM (Collects s0) (clampDim c d n i : W Nat) :=
  .carry (fun _ => clampDim_works _ _ _ _) Works.refl fun _ _ h k => h.trans (Works.collects k)

theorem undefinedIf_collects {s0 : State} (b : Bool) :
    PassM (Collects s0) (undefinedIf b : W Unit) :=
  .carry (fun _ => undefinedIf_works _) Works.refl fun _ _ h k => h.trans (Works.collects k)

end Sys2Proof.Safety
end

