-- ==== Sys2Proof/Laws/CollectsGather.lean ====
section
/-! SUPPORT. The parts of collectives and snapshots in Machine/Gather.lean change only what `Collects` allows. -/

namespace Sys2Proof.Safety

open Sys2Proof.Machine

theorem gatherIndex_collects {s0 : State} (c : Ctx) (d : Desc) (ts : Machine.Num) (i : Nat) :
    PassM (Collects s0) (gatherIndex c d ts i : W Int) :=
  .carry (fun _ => gatherIndex_works _ _ _ _) Works.refl fun _ _ h k => h.trans (Works.collects k)

theorem readTable_collects {s0 : State} (c : Ctx) (t : Desc) (ts : Machine.Num) :
    PassM (Collects s0) (readTable c t ts : W (List (Int × Int))) :=
  .carry (fun _ => readTable_works _ _ _) Works.refl fun _ _ h k => h.trans (Works.collects k)

end Sys2Proof.Safety
end

