-- ==== Sys2Proof/Laws/CollectsVector.lean ====
section
/-! SUPPORT. The parts of collectives and snapshots in Machine/Vector.lean change only what `Collects` allows. -/

namespace Sys2Proof.Safety

open Sys2Proof.Machine

theorem VecIn_row_collects {s0 : State} (x : VecIn) (c : Ctx) (w : Working) (r : Nat) :
    PassM (Collects s0) (VecIn.row x c w r : W (List Machine.Num)) :=
  .carry (fun _ => VecIn_row_works _ _ _ _) Works.refl fun _ _ h k => h.trans (Works.collects k)

end Sys2Proof.Safety
end

