-- ==== Sys2Proof/Laws/CollectsCollectives.lean ====
section
/-! SUPPORT. The parts of collectives and snapshots in Machine/Collectives.lean change only what `Collects` allows. -/

namespace Sys2Proof.Safety

open Sys2Proof.Machine

theorem modColl_collects {s0 : State} {s : State} (r : Nat) (f : Coll → Coll) (h_s : Collects s0 s) :
    Collects s0 (State.modColl s r f) := by
  unfold State.modColl
  repeat' first
    | (extract_lets -underBinder +onlyGivenNames x; guard_hyp x : Colls := _; have x := trivial)
    | (with_reducible refine Collects.upd ?_ rfl rfl rfl rfl rfl rfl rfl rfl; with_reducible assumption)

theorem CollCtx_upd_collects {s0 : State} (c : CollCtx) (f : Coll → Coll) :
    PassM (Collects s0) (CollCtx.upd c f : M Unit) := by
  unfold CollCtx.upd
  repeat' first
    | intro _
    | with_reducible first | assumption | apply mod_collects | apply modColl_collects

theorem CollCtx_coll_collects {s0 : State} (c : CollCtx) :
    PassM (Collects s0) (CollCtx.coll c : M Coll) := by
  unfold CollCtx.coll
  repeat' first
    | intro _
    | with_reducible first | apply PassM.pure | apply PassM.getBind

theorem CollCtx_owe_collects {s0 : State} (c : CollCtx) (m : CollSend) :
    PassM (Collects s0) (CollCtx.owe c m : M Unit) := by
  unfold CollCtx.owe
  repeat' first
    | intro _
    | with_reducible first | apply CollCtx_upd_collects | apply PassM.getBind

theorem sendMessage_collects {s0 s : State} (mask rank epoch kind axis : Nat) (data : List Byte) (h_s : Collects s0 s) :
    Collects s0 (State.sendMessage s mask rank epoch kind axis data) := by
  unfold State.sendMessage
  split
  · rename_i p e
    refine sendThrough_collects _ _ _ _ _ _ _ _ h_s ?_
    unfold State.axisPort at e
    obtain ⟨⟨a, b⟩, e2, rfl⟩ := Option.map_eq_some_iff.mp e
    refine choice_lt (fun c hc => ?_) e2
    obtain ⟨q, hq, rfl⟩ := List.mem_map.mp hc
    exact List.mem_range.mp (List.mem_filter.mp hq).1
  · exact sendRouted_collects _ _ _ _ _ _ _ h_s

theorem CollCtx_oweParts_collects {s0 : State} (c : CollCtx) (len lo : Nat) (m : CollSend) :
    PassM (Collects s0) (CollCtx.oweParts c len lo m : M Unit) := by
  unfold CollCtx.oweParts
  repeat' first
    | intro _
    | with_reducible first | apply CollCtx_owe_collects | apply PassM.forM

theorem CollCtx_send_collects {s0 : State} (c : CollCtx) (q : Coll) (m : CollSend) {s : State} (h_s : Collects s0 s) :
    Collects s0 (CollCtx.send c q m s) := by
  unfold CollCtx.send
  repeat' first
    | with_reducible assumption
    | decide
    | (extract_lets -underBinder +onlyGivenNames x; guard_hyp x : _ := _; clear_value x; have x := trivial)
    | with_reducible first | apply addObj_collects | apply sendMessage_collects

theorem CollCtx_flush_collects {s0 : State} (c : CollCtx) :
    PassM (Collects s0) (CollCtx.flush c : M Unit) := by
  unfold CollCtx.flush
  repeat' first
    | intro _
    | with_reducible first
        | assumption | apply mod_collects | apply CollCtx_upd_collects | apply CollCtx_coll_collects | apply CollCtx_send_collects
        | apply PassM.pure | apply PassM.getBind | apply PassM.bind | apply Pass.foldl (P := Collects s0)
        | apply PassM.ite

theorem CollCtx_contribution_collects {s0 : State} (c : CollCtx) (d : Desc) :
    PassM (Collects s0) (CollCtx.contribution c d : M (List Nat)) := by
  unfold CollCtx.contribution
  repeat' first
    | intro _
    | (extract_lets -underBinder +onlyGivenNames x; guard_hyp x : _ := _; clear_value x; have x := trivial)
    | with_reducible first
        | apply arith_collects | apply readCode_collects | apply tensorScale_collects | apply readScaleCode_collects
        | apply PassM.bind | apply PassM.mapM

theorem checkTarget_collects {s0 : State} (va n : Nat) :
    PassM (Collects s0) (checkTarget va n : M Unit) := by
  unfold checkTarget
  repeat' first
    | intro _
    | with_reducible assumption
    | decide
    | (extract_lets -underBinder +onlyGivenNames x; guard_hyp x : _ := _; clear_value x; have x := trivial)
    | with_reducible first
        | apply count_collects | apply mod_collects | apply absentPage_collects | apply PassM.pure | apply PassM.throw
        | apply PassM.getBind | apply PassM.bind | apply PassM.forM | apply PassM.ite

theorem CollCtx_put_collects {s0 : State} (c : CollCtx) (ini : Init) (e : Nat) (cs : List Nat) :
    PassM (Collects s0) (CollCtx.put c ini e cs : M Unit) := by
  unfold CollCtx.put
  repeat' first
    | intro _
    | with_reducible first
        | apply writeBytes_collects | apply checkTarget_collects | apply PassM.pure | apply PassM.bind
    | split

theorem CollCtx_add_collects {s0 : State} (c : CollCtx) (ini : Init) (e : Nat) (cs : List Nat) :
    PassM (Collects s0) (CollCtx.add c ini e cs : M Unit) := by
  unfold CollCtx.add
  repeat' first
    | intro _
    | with_reducible first | apply atomic_collects | apply PassM.pure | apply PassM.bind | apply PassM.forM
    | split

theorem CollCtx_addInto_collects {s0 : State} (c : CollCtx) (e n : Nat) (parts : List (Init × Nat × List Nat)) :
    PassM (Collects s0) (CollCtx.addInto c e n parts : M Unit) := by
  unfold CollCtx.addInto
  repeat' first
    | intro _
    | (extract_lets -underBinder +onlyGivenNames x; first
      | (with_reducible refine PassM.cut (P := Collects s0) (x := x) ?_ fun hx => ?_; rotate_left; clear_value x; have x := trivial; rotate_left; unfold x; clear x)
      | (guard_hyp x : _ := _; clear_value x; have x := trivial))
    | with_reducible first
        | apply CollCtx_put_collects | apply CollCtx_add_collects | apply PassM.pure | apply PassM.bind | apply PassM.forM
        | apply PassM.foldlM | apply_assumption -exfalso -symm | apply PassM.ite

theorem addsPassed_collects {s0 : State} (n : Nat) :
    PassM (Collects s0) (addsPassed n : M Unit) := by
  unfold addsPassed
  repeat' first
    | intro _
    | with_reducible assumption
    | decide
    | with_reducible first | apply addObj_collects | apply mod_collects

theorem CollCtx_stage_collects {s0 : State} (c : CollCtx) (ini : Init) (rank offset : Nat) (bs : List Byte) :
    PassM (Collects s0) (CollCtx.stage c ini rank offset bs : M Unit) := by
  unfold CollCtx.stage
  repeat' first
    | intro _
    | (extract_lets -underBinder +onlyGivenNames x; guard_hyp x : _ := _; clear_value x; have x := trivial)
    | with_reducible first
        | apply writeBytes_collects | apply checkTarget_collects | apply PassM.pure | apply PassM.bind
    | split

theorem CollCtx_place_collects {s0 : State} (c : CollCtx) (ini : Init) (offset : Nat) (bs : List Byte) :
    PassM (Collects s0) (CollCtx.place c ini offset bs : M Unit) := by
  unfold CollCtx.place
  repeat' first
    | with_reducible first | apply writeBytes_collects | apply PassM.pure
    | split

theorem CollCtx_read_collects {s0 : State} (c : CollCtx) (offset n : Nat) :
    PassM (Collects s0) (CollCtx.read c offset n : M (List Byte)) := by
  unfold CollCtx.read
  repeat' first
    | with_reducible first | apply readBytes_collects | apply PassM.pure
    | split

theorem CollCtx_mapping_collects {s0 : State} (c : CollCtx) :
    PassM (Collects s0) (CollCtx.mapping c : M (List Nat)) := by
  unfold CollCtx.mapping
  repeat' first
    | intro _
    | with_reducible first | apply readNat_collects | apply PassM.bind | apply PassM.mapM

theorem CollCtx_beginReduce_collects {s0 : State} (c : CollCtx) :
    PassM (Collects s0) (CollCtx.beginReduce c : M Unit) := by
  unfold CollCtx.beginReduce
  split
  · exact PassM.throw
  · refine PassM.bind (CollCtx_contribution_collects _ _) fun _ => PassM.bind (CollCtx_upd_collects _ _) fun _ =>
      PassM.bind (CollCtx_coll_collects _) fun _ => ?_
    extract_lets w cb all part h1 k waits rest
    have hr : ∀ u, PassM (Collects s0) (rest u) := fun _ =>
      PassM.bind (PassM.forM fun _ => CollCtx_oweParts_collects _ _ _ _) fun _ => CollCtx_upd_collects _ _
    clear_value rest
    split
    · split
      exact PassM.bind (CollCtx_oweParts_collects _ _ _ _) fun _ => PassM.bind (CollCtx_oweParts_collects _ _ _ _) fun _ =>
        CollCtx_upd_collects _ _
    · exact CollCtx_upd_collects _ _
    · split
      · exact PassM.bind (CollCtx_put_collects _ _ _ _) hr
      · exact hr ⟨⟩

theorem CollCtx_beginGather_collects {s0 : State} (c : CollCtx) :
    PassM (Collects s0) (CollCtx.beginGather c : M Unit) := by
  unfold CollCtx.beginGather
  repeat' first
    | intro _
    | (extract_lets -underBinder +onlyGivenNames x; first
      | (with_reducible refine PassM.cut (P := Collects s0) (x := x) ?_ fun hx => ?_; rotate_left; clear_value x; have x := trivial; rotate_left; unfold x; clear x)
      | (guard_hyp x : _ := _; clear_value x; have x := trivial))
    | with_reducible first
        | apply CollCtx_upd_collects | apply CollCtx_coll_collects | apply CollCtx_oweParts_collects | apply CollCtx_place_collects
        | apply CollCtx_read_collects | apply PassM.throw | apply PassM.bind | apply PassM.forM
        | apply_assumption -exfalso -symm
    | split

theorem CollCtx_beginAllToAll_collects {s0 : State} (c : CollCtx) :
    PassM (Collects s0) (CollCtx.beginAllToAll c : M Unit) := by
  unfold CollCtx.beginAllToAll
  repeat' first
    | intro _
    | (extract_lets -underBinder +onlyGivenNames x; guard_hyp x : _ := _; clear_value x; have x := trivial)
    | with_reducible first
        | apply CollCtx_upd_collects | apply CollCtx_oweParts_collects | apply CollCtx_place_collects | apply CollCtx_read_collects
        | apply PassM.bind | apply PassM.forM

theorem CollCtx_beginBroadcast_collects {s0 : State} (c : CollCtx) :
    PassM (Collects s0) (CollCtx.beginBroadcast c : M Unit) := by
  unfold CollCtx.beginBroadcast
  repeat' first
    | intro _
    | (extract_lets -underBinder +onlyGivenNames x; guard_hyp x : _ := _; clear_value x; have x := trivial)
    | with_reducible first
        | apply CollCtx_upd_collects | apply CollCtx_oweParts_collects | apply CollCtx_place_collects | apply CollCtx_read_collects
        | apply PassM.bind | apply PassM.forM | apply PassM.ite
    | split

theorem CollCtx_beginPermute_collects {s0 : State} (c : CollCtx) :
    PassM (Collects s0) (CollCtx.beginPermute c : M (List Nat)) := by
  unfold CollCtx.beginPermute
  repeat' first
    | intro _
    | (extract_lets -underBinder +onlyGivenNames x; first
      | (with_reducible refine PassM.cut (P := Collects s0) (x := x) ?_ fun hx => ?_; rotate_left; clear_value x; have x := trivial; rotate_left; unfold x; clear x)
      | (guard_hyp x : _ := _; clear_value x; have x := trivial))
    | with_reducible first
        | apply undefinedJob_collects | apply CollCtx_upd_collects | apply CollCtx_oweParts_collects | apply CollCtx_place_collects
        | apply CollCtx_read_collects | apply CollCtx_mapping_collects | apply PassM.pure | apply PassM.getBind
        | apply PassM.bind | apply PassM.forM | apply_assumption -exfalso -symm | apply PassM.ite

theorem CollCtx_routeTable_collects {s0 : State} (c : CollCtx) :
    PassM (Collects s0) (CollCtx.routeTable c : M (List (Nat × Nat))) := by
  unfold CollCtx.routeTable
  repeat' first
    | intro _
    | with_reducible first
        | apply tensorScale_collects | apply readTable_collects | apply PassM.pure | apply PassM.throw | apply PassM.bind
    | split

theorem CollCtx_readRow_collects {s0 : State} (c : CollCtx) (r : Nat) :
    PassM (Collects s0) (CollCtx.readRow c r : M (List Byte)) := by
  unfold CollCtx.readRow
  repeat' first
    | intro _
    | with_reducible first
        | apply clampDim_collects | apply CollCtx_read_collects | apply PassM.pure | apply PassM.bind
    | split

theorem CollCtx_beginDispatch_collects {s0 : State} (c : CollCtx) :
    PassM (Collects s0) (CollCtx.beginDispatch c : M Unit) := by
  unfold CollCtx.beginDispatch
  repeat' first
    | intro _
    | (extract_lets -underBinder +onlyGivenNames x; guard_hyp x : _ := _; clear_value x; have x := trivial)
    | with_reducible first
        | apply CollCtx_upd_collects | apply CollCtx_oweParts_collects | apply CollCtx_routeTable_collects | apply PassM.bind
        | apply PassM.forM

theorem CollCtx_placeRows_collects {s0 : State} (c : CollCtx) (ini : Init) (first offset : Nat) (bs : List Byte) :
    PassM (Collects s0) (CollCtx.placeRows c ini first offset bs : M Unit) := by
  unfold CollCtx.placeRows
  repeat' first
    | intro _
    | with_reducible assumption
    | decide
    | (extract_lets -underBinder +onlyGivenNames x; guard_hyp x : _ := _; clear_value x; have x := trivial)
    | with_reducible first
        | apply addObj_collects | apply mod_collects | apply CollCtx_upd_collects | apply CollCtx_place_collects | apply PassM.pure
        | apply PassM.bind | apply PassM.ite

theorem CollCtx_beginRows_collects {s0 : State} (c : CollCtx) :
    PassM (Collects s0) (CollCtx.beginRows c : M Unit) := by
  unfold CollCtx.beginRows
  repeat' first
    | intro _
    | (extract_lets -underBinder +onlyGivenNames x; first
      | (with_reducible refine PassM.cut (P := Collects s0) (x := x) ?_ fun hx => ?_; rotate_left; clear_value x; have x := trivial; rotate_left; unfold x; clear x)
      | (guard_hyp x : _ := _; clear_value x; have x := trivial))
    | with_reducible first
        | apply writeBytes_collects | apply undefinedIf_collects | apply CollCtx_upd_collects | apply CollCtx_coll_collects
        | apply CollCtx_oweParts_collects | apply CollCtx_routeTable_collects | apply CollCtx_readRow_collects
        | apply CollCtx_placeRows_collects | apply PassM.getBind | apply PassM.bind | apply PassM.forM | apply PassM.mapM
        | apply_assumption -exfalso -symm | apply PassM.ite
    | split

theorem CollCtx_placePacked_collects {s0 : State} (c : CollCtx) (ini : Init) (j offset : Nat) (bs : List Byte) (table : List (Nat × Nat)) :
    PassM (Collects s0) (CollCtx.placePacked c ini j offset bs table : M Unit) := by
  unfold CollCtx.placePacked
  repeat' first
    | intro _
    | (extract_lets -underBinder +onlyGivenNames x; guard_hyp x : _ := _; clear_value x; have x := trivial)
    | with_reducible first
        | apply clampDim_collects | apply CollCtx_place_collects | apply PassM.pure | apply PassM.bind | apply PassM.forM
    | split

theorem CollCtx_beginCombine_collects {s0 : State} (c : CollCtx) :
    PassM (Collects s0) (CollCtx.beginCombine c : M Unit) := by
  unfold CollCtx.beginCombine
  repeat' first
    | intro _
    | (extract_lets -underBinder +onlyGivenNames x; guard_hyp x : _ := _; clear_value x; have x := trivial)
    | with_reducible first
        | apply tensorScale_collects | apply gatherIndex_collects | apply CollCtx_upd_collects | apply CollCtx_oweParts_collects
        | apply CollCtx_routeTable_collects | apply CollCtx_readRow_collects | apply CollCtx_placePacked_collects
        | apply PassM.pure | apply PassM.throw | apply PassM.bind | apply PassM.forM | apply PassM.mapM
        | apply PassM.ite
    | split

theorem CollCtx_beginBarrier_collects {s0 : State} (c : CollCtx) :
    PassM (Collects s0) (CollCtx.beginBarrier c : M Unit) := by
  unfold CollCtx.beginBarrier
  repeat' with_reducible apply CollCtx_upd_collects

theorem CollCtx_begin_collects {s0 : State} (c : CollCtx) :
    PassM (Collects s0) (CollCtx.begin c : M Unit) := by
  unfold CollCtx.begin
  repeat' first
    | intro _
    | with_reducible assumption
    | (extract_lets -underBinder +onlyGivenNames x; with_reducible refine PassM.cut (P := Collects s0) (x := x) ?_ fun hx => ?_; rotate_left; clear_value x; have x := trivial; rotate_left; unfold x; clear x)
    | with_reducible first
        | apply mod_collects | apply CollCtx_upd_collects | apply CollCtx_coll_collects | apply CollCtx_send_collects
        | apply CollCtx_beginReduce_collects | apply CollCtx_beginGather_collects | apply CollCtx_beginAllToAll_collects
        | apply CollCtx_beginBroadcast_collects | apply CollCtx_beginPermute_collects | apply CollCtx_beginDispatch_collects
        | apply CollCtx_beginCombine_collects | apply CollCtx_beginBarrier_collects | apply PassM.pure | apply PassM.bind
        | apply Pass.foldl (P := Collects s0) | apply_assumption -exfalso -symm | apply PassM.ite
    | split

theorem CollCtx_formTree_collects {s0 : State} (c : CollCtx) (q : Coll) :
    PassM (Collects s0) (CollCtx.formTree c q : M Unit) := by
  unfold CollCtx.formTree
  repeat' first
    | intro _
    | (extract_lets -underBinder +onlyGivenNames x; guard_hyp x : _ := _; clear_value x; have x := trivial)
    | with_reducible first
        | apply CollCtx_oweParts_collects | apply CollCtx_addInto_collects | apply addsPassed_collects | apply PassM.pure
        | apply PassM.bind | apply PassM.forM | apply PassM.ite
    | split

theorem CollCtx_formMesh_collects {s0 : State} (c : CollCtx) (q : Coll) :
    PassM (Collects s0) (CollCtx.formMesh c q : M Unit) := by
  unfold CollCtx.formMesh
  repeat' first
    | intro _
    | (extract_lets -underBinder +onlyGivenNames x; first
      | (with_reducible refine PassM.cut (P := Collects s0) (x := x) ?_ fun hx => ?_; rotate_left; clear_value x; have x := trivial; rotate_left; unfold x; clear x)
      | (guard_hyp x : _ := _; clear_value x; have x := trivial))
    | with_reducible first
        | apply CollCtx_oweParts_collects | apply CollCtx_addInto_collects | apply PassM.pure | apply PassM.bind
        | apply PassM.forM | apply_assumption -exfalso -symm | apply PassM.ite

theorem CollCtx_form_collects {s0 : State} (c : CollCtx) :
    PassM (Collects s0) (CollCtx.form c : M Unit) := by
  unfold CollCtx.form
  repeat' first
    | intro _
    | with_reducible first
        | apply CollCtx_upd_collects | apply CollCtx_coll_collects | apply CollCtx_formTree_collects
        | apply CollCtx_formMesh_collects | apply PassM.pure | apply PassM.bind | apply PassM.ite

theorem CollCtx_sendDown_collects {s0 : State} (c : CollCtx) (release flags norms : Nat) :
    PassM (Collects s0) (CollCtx.sendDown c release flags norms : M Unit) := by
  unfold CollCtx.sendDown
  repeat' first
    | intro _
    | with_reducible first | apply CollCtx_owe_collects | apply PassM.forM

theorem CollCtx_barrierUp_collects {s0 : State} (c : CollCtx) :
    PassM (Collects s0) (CollCtx.barrierUp c : M Unit) := by
  unfold CollCtx.barrierUp
  repeat' first
    | intro _
    | (extract_lets -underBinder +onlyGivenNames x; guard_hyp x : _ := _; clear_value x; have x := trivial)
    | with_reducible first
        | apply CollCtx_upd_collects | apply CollCtx_coll_collects | apply CollCtx_owe_collects | apply CollCtx_sendDown_collects
        | apply PassM.pure | apply PassM.getBind | apply PassM.bind | apply PassM.ite
    | split

theorem CollCtx_endScatter_collects {s0 : State} (c : CollCtx) :
    PassM (Collects s0) (CollCtx.endScatter c : M Unit) := by
  unfold CollCtx.endScatter
  repeat' first
    | intro _
    | with_reducible assumption
    | decide
    | (extract_lets -underBinder +onlyGivenNames x; first
      | (with_reducible refine PassM.cut (P := Collects s0) (x := x) ?_ fun hx => ?_; rotate_left; clear_value x; have x := trivial; rotate_left; unfold x; clear x)
      | (guard_hyp x : Colls := _; have x := trivial)
      | (guard_hyp x : _ := _; clear_value x; have x := trivial))
    | with_reducible first
        | apply setObj_collects | apply mod_collects | apply readBytes_collects | apply writeBytes_collects
        | apply CollCtx_coll_collects | apply PassM.pure | apply PassM.bind | apply_assumption -exfalso -symm
        | apply PassM.ite
    | split
    | (with_reducible refine Collects.upd ?_ rfl rfl rfl rfl rfl rfl rfl rfl; with_reducible assumption)

theorem CollCtx_addCarried_collects {s0 : State} (c : CollCtx) :
    PassM (Collects s0) (CollCtx.addCarried c : M Unit) := by
  unfold CollCtx.addCarried
  repeat' first
    | intro _
    | (extract_lets -underBinder +onlyGivenNames x; first
      | (guard_hyp x : Colls := _; have x := trivial)
      | (guard_hyp x : _ := _; clear_value x; have x := trivial))
    | with_reducible first
        | apply mod_collects | apply atomic_collects | apply PassM.pure | apply PassM.getBind | apply PassM.bind
        | apply PassM.forM
    | split
    | (with_reducible refine Collects.upd ?_ rfl rfl rfl rfl rfl rfl rfl rfl; with_reducible assumption)

theorem exchange_collects {s0 : State} {s : State} (a b : Nat) (h_s : Collects s0 s) :
    Collects s0 (State.exchange s a b) := by
  unfold State.exchange
  repeat' first
    | intro _
    | with_reducible assumption
    | decide
    | (extract_lets -underBinder +onlyGivenNames x; first
      | (with_reducible refine Pass.cut (P := Collects s0) (x := x) ?_ fun hx => ?_; rotate_left; clear_value x; have x := trivial; rotate_left; unfold x; clear x)
      | (guard_hyp x : Mem := _; have x := trivial))
    | with_reducible first
        | apply count_collects | apply setEntry_collects | apply flushCounts_collects | apply Pass.foldl (P := Collects s0)
    | split
    | (with_reducible refine Collects.upd ?_ rfl rfl rfl rfl rfl rfl rfl rfl; with_reducible assumption)

theorem dropReady_length (tag rank : Nat) (l : List Ready) : (dropReady tag rank l).length ≤ l.length := by
  induction l with
  | nil => exact Nat.le_refl _
  | cons r l ih =>
    unfold dropReady
    split
    · exact Nat.le_succ _
    · exact Nat.succ_le_succ ih

theorem useReadies_collects {s0 s : State} (tag : Nat) (h : Collects s0 s) : Collects s0 (s.useReadies tag) := by
  refine h.changeColls fun g => Nat.le_trans ?_ g
  generalize ((s.colls.readies.filter (·.tag == tag)).map (·.rank)).eraseDups = ranks
  have : ∀ rs : List Nat, ∀ l : List Ready, (rs.foldl (fun l r => dropReady tag r l) l).length ≤ l.length := by
    intro rs
    induction rs with
    | nil => exact fun l => Nat.le_refl _
    | cons r rs ih => exact fun l => Nat.le_trans (ih _) (dropReady_length _ _ _)
  exact this ranks _

theorem shardChanged_collects {s0 : State} {s : State} (t : Machine.Task) (position old new : Nat) (h_s : Collects s0 s) :
    Collects s0 (State.shardChanged s t position old new) := by
  unfold State.shardChanged
  repeat' first
    | with_reducible assumption
    | decide
    | with_reducible first | apply count_collects | apply raise_collects | apply haltWith_collects | apply setTask_collects

theorem noiseEstimate_collects {s0 : State} {s : State} (l r : Machine.Num) (h_s : Collects s0 s) :
    Collects s0 (State.noiseEstimate s l r) := by
  unfold State.noiseEstimate
  repeat' first
    | with_reducible assumption
    | decide
    | (extract_lets -underBinder +onlyGivenNames x; guard_hyp x : _ := _; clear_value x; have x := trivial)
    | with_reducible apply setObj_collects

theorem CollCtx_endBarrier_collects {s0 : State} (c : CollCtx) (q : Coll) {s : State} (h_s : Collects s0 s) :
    Collects s0 (CollCtx.endBarrier c q s) := by
  unfold CollCtx.endBarrier
  repeat' first
    | with_reducible assumption
    | decide
    | (extract_lets -underBinder +onlyGivenNames x; first
      | (with_reducible refine Pass.cut (P := Collects s0) (x := x) ?_ fun hx => ?_; rotate_left; clear_value x; have x := trivial; rotate_left; unfold x; clear x)
      | (guard_hyp x : Colls := _; have x := trivial))
    | with_reducible first | apply count_collects | apply noiseEstimate_collects | apply Pass.ite (P := Collects s0)
    | (with_reducible refine Collects.upd ?_ rfl rfl rfl rfl rfl rfl rfl rfl; with_reducible assumption)

theorem CollCtx_finish_collects {s0 : State} (c : CollCtx) :
    PassM (Collects s0) (CollCtx.finish c : M Unit) := by
  unfold CollCtx.finish
  repeat' first
    | intro _
    | with_reducible assumption
    | decide
    | (extract_lets -underBinder +onlyGivenNames x; first
      | (with_reducible refine PassM.cut (P := Collects s0) (x := x) ?_ fun hx => ?_; rotate_left; clear_value x; have x := trivial; rotate_left; unfold x; clear x)
      | (guard_hyp x : _ := _; clear_value x; have x := trivial))
    | with_reducible first
        | apply count_collects | apply mod_collects | apply scramble_collects | apply modTask_collects | apply settleBins_collects
        | apply CollCtx_coll_collects | apply CollCtx_endScatter_collects | apply CollCtx_addCarried_collects
        | apply exchange_collects | apply useReadies_collects | apply shardChanged_collects | apply CollCtx_endBarrier_collects
        | apply PassM.pure | apply PassM.throw | apply PassM.bind | apply_assumption -exfalso -symm | apply PassM.ite
    | split

theorem CollCtx_step_collects {s0 : State} (c : CollCtx) :
    PassM (Collects s0) (CollCtx.step c : M Unit) := by
  unfold CollCtx.step
  repeat' first
    | intro _
    | (extract_lets -underBinder +onlyGivenNames x; with_reducible refine PassM.cut (P := Collects s0) (x := x) ?_ fun hx => ?_; rotate_left; clear_value x; have x := trivial; rotate_left; unfold x; clear x)
    | with_reducible first
        | apply CollCtx_coll_collects | apply CollCtx_flush_collects | apply CollCtx_beginRows_collects
        | apply CollCtx_begin_collects | apply CollCtx_form_collects | apply CollCtx_barrierUp_collects
        | apply CollCtx_finish_collects | apply PassM.pure | apply PassM.bind | apply_assumption -exfalso -symm
        | apply PassM.ite

theorem failColl_collects {s0 : State} {s : State} (c : CollCtx) (t : Machine.Task) (a : Abort) (h_s : Collects s0 s) :
    Collects s0 (State.failColl s c t a) := by
  unfold State.failColl
  repeat' first
    | with_reducible assumption
    | (extract_lets -underBinder +onlyGivenNames x; first
      | (with_reducible refine Pass.cut (P := Collects s0) (x := x) ?_ fun hx => ?_; rotate_left; clear_value x; have x := trivial; rotate_left; unfold x; clear x)
      | (guard_hyp x : Resilience := _; have x := trivial)
      | (guard_hyp x : _ := _; clear_value x; have x := trivial))
    | with_reducible first | apply failTask_collects | apply useReadies_collects | apply Pass.ite (P := Collects s0)
    | (with_reducible refine Collects.upd ?_ rfl rfl rfl rfl rfl rfl rfl rfl; with_reducible assumption)

theorem runColl_collects {s0 : State} {s : State} {before : State} (c : CollCtx) (body : M Unit) (h_s : Collects s0 s) (h_before : Collects s0 before) (h_body : PassM (Collects s0) (body )) :
    PassO (Collects s0) (State.runColl s before c body) := by
  unfold State.runColl
  repeat' first
    | with_reducible first | assumption | apply failColl_collects | apply PassO.next
    | split
    | refine PassM.ok ?_ ?_ (by with_reducible assumption)
    | refine PassM.error ?_ ?_ (by with_reducible assumption)

theorem runCollOp_collects {s0 : State} {s : State} (r : Nat) (form : Nat → Bool) (h_s : Collects s0 s) :
    PassO (Collects s0) (State.runCollOp s r form) := by
  unfold State.runCollOp
  repeat' first
    | with_reducible assumption
    | (extract_lets -underBinder +onlyGivenNames x; guard_hyp x : _ := _; clear_value x; have x := trivial)
    | with_reducible first | apply CollCtx_step_collects | apply runColl_collects | apply PassO.next | apply PassO.ite
    | split

theorem execAllReduce_collects {s0 : State} (r : Nat) {s : State} (h_s : Collects s0 s) :
    PassO (Collects s0) (execAllReduce r s) := by
  unfold execAllReduce
  repeat' with_reducible first | assumption | apply runCollOp_collects

theorem execReduceScatter_collects {s0 : State} (r : Nat) {s : State} (h_s : Collects s0 s) :
    PassO (Collects s0) (execReduceScatter r s) := by
  unfold execReduceScatter
  repeat' with_reducible first | assumption | apply runCollOp_collects

theorem execAllGather_collects {s0 : State} (r : Nat) {s : State} (h_s : Collects s0 s) :
    PassO (Collects s0) (execAllGather r s) := by
  unfold execAllGather
  repeat' with_reducible first | assumption | apply runCollOp_collects

theorem execAllToAll_collects {s0 : State} (r : Nat) {s : State} (h_s : Collects s0 s) :
    PassO (Collects s0) (execAllToAll r s) := by
  unfold execAllToAll
  repeat' with_reducible first | assumption | apply runCollOp_collects

theorem execAllToAllv_collects {s0 : State} (r : Nat) {s : State} (h_s : Collects s0 s) :
    PassO (Collects s0) (execAllToAllv r s) := by
  unfold execAllToAllv
  repeat' with_reducible first | assumption | apply runCollOp_collects

theorem execAllToAllvReverse_collects {s0 : State} (r : Nat) {s : State} (h_s : Collects s0 s) :
    PassO (Collects s0) (execAllToAllvReverse r s) := by
  unfold execAllToAllvReverse
  repeat' with_reducible first | assumption | apply runCollOp_collects

theorem execBroadcast_collects {s0 : State} (r : Nat) {s : State} (h_s : Collects s0 s) :
    PassO (Collects s0) (execBroadcast r s) := by
  unfold execBroadcast
  repeat' with_reducible first | assumption | apply runCollOp_collects

theorem execPermute_collects {s0 : State} (r : Nat) {s : State} (h_s : Collects s0 s) :
    PassO (Collects s0) (execPermute r s) := by
  unfold execPermute
  repeat' with_reducible first | assumption | apply runCollOp_collects

theorem execBarrier_collects {s0 : State} (r : Nat) {s : State} (h_s : Collects s0 s) :
    PassO (Collects s0) (execBarrier r s) := by
  unfold execBarrier
  repeat' with_reducible first | assumption | apply runCollOp_collects

theorem dropFront_collects {s0 : State} {s : State} (p : Nat) (m : Msg) (h_s : Collects s0 s) :
    Collects s0 (State.dropFront s p m) := by
  unfold State.dropFront
  repeat' first
    | with_reducible assumption
    | (extract_lets -underBinder +onlyGivenNames x; guard_hyp x : _ := _; clear_value x; have x := trivial)
    | with_reducible apply setPort_collects

theorem charge_collects {s0 s : State} (d : Debt) (kind position offset : Nat) (bs : List Byte) (h : Collects s0 s) :
    Collects s0 (s.charge d kind position offset bs) := by
  unfold State.charge
  extract_lets d' rest keep c s1 held
  have h1 : Collects s0 s1 := h.changeColls id
  refine Pass.ite (P := Collects s0) ?_ (Pass.ite (P := Collects s0) (noteLate_collects _ _ _ _ _ h1) h1)
  exact noteLate_collects _ _ _ _ _ ((scramble_collects _ _ _ h1).changeColls id)

theorem onMessage_collects {s0 : State} {s : State} (port vc kind : Nat) (act : CollCtx → CollMsg → M Unit) (h_s : Collects s0 s) (h_act : ∀ a0 a1, PassM (Collects s0) (act a0 a1)) :
    PassO (Collects s0) (State.onMessage s port vc kind act) := by
  unfold State.onMessage
  repeat' first
    | with_reducible assumption
    | decide
    | (extract_lets -underBinder +onlyGivenNames x; first
      | (with_reducible refine Pass.cut (P := Collects s0) (x := x) ?_ fun hx => ?_; rotate_left; clear_value x; have x := trivial; rotate_left; unfold x; clear x)
      | (guard_hyp x : _ := _; clear_value x; have x := trivial))
    | with_reducible first
        | apply h_act | apply addObj_collects | apply noteStale_collects | apply runColl_collects | apply dropFront_collects
        | apply charge_collects | apply PassO.next | apply PassO.ite
    | split

theorem freeBuffer_collects {s0 s : State} (port vc : Nat) (h : Collects s0 s) : Collects s0 (s.freeBuffer port vc) := by
  unfold State.freeBuffer
  split
  · rename_i hp
    exact h.sends (pump_sends _ (oweCredit_sends _ _ _ (SendsOn.refl s)) hp)
  · exact h

theorem execReady_collects {s0 s : State} (port vc : Nat) (h : Collects s0 s) : PassO (Collects s0) (execReady port vc s) := by
  unfold execReady
  split
  · exact .next h
  · rename_i m _
    refine .ite (.next h) ?_
    extract_lets x
    have hx : Collects s0 x := dropFront_collects _ _ h
    clear_value x
    split
    refine .ite (.next (freeBuffer_collects _ _ (noteStale_collects hx))) ?_
    split
    · exact .next (freeBuffer_collects _ _ (charge_collects _ _ _ _ _ hx))
    · split
      · exact .next h
      · rename_i g
        refine .next (freeBuffer_collects _ _ (hx.changeColls fun _ => ?_))
        simp only [List.length_append, List.length_cons, List.length_nil]
        omega

theorem CollCtx_discardUnless_collects {s0 : State} (u0 : CollCtx) (fits : Bool) :
    PassM (Collects s0) (CollCtx.discardUnless u0 fits : M Unit) := by
  unfold CollCtx.discardUnless
  repeat' first
    | intro _
    | with_reducible assumption
    | decide
    | with_reducible first
        | apply count_collects | apply mod_collects | apply PassM.pure | apply PassM.throw | apply PassM.bind
        | apply PassM.ite

theorem CollCtx_ringReduce_collects {s0 : State} (c : CollCtx) (x : CollMsg) :
    PassM (Collects s0) (CollCtx.ringReduce c x : M Unit) := by
  unfold CollCtx.ringReduce
  repeat' first
    | intro _
    | (extract_lets -underBinder +onlyGivenNames x; guard_hyp x : _ := _; clear_value x; have x := trivial)
    | with_reducible first
        | apply CollCtx_upd_collects | apply CollCtx_coll_collects | apply CollCtx_owe_collects | apply CollCtx_addInto_collects
        | apply addsPassed_collects | apply PassM.pure | apply PassM.bind | apply PassM.ite

theorem CollCtx_onReduce_collects {s0 : State} (c : CollCtx) (x : CollMsg) :
    PassM (Collects s0) (CollCtx.onReduce c x : M Unit) := by
  unfold CollCtx.onReduce
  repeat' first
    | intro _
    | (extract_lets -underBinder +onlyGivenNames x; guard_hyp x : _ := _; clear_value x; have x := trivial)
    | with_reducible first
        | apply CollCtx_upd_collects | apply CollCtx_add_collects | apply CollCtx_stage_collects
        | apply CollCtx_discardUnless_collects | apply CollCtx_ringReduce_collects | apply PassM.pure | apply PassM.bind
        | apply PassM.ite

theorem execReduce_collects {s0 : State} (port vc : Nat) {s : State} (h_s : Collects s0 s) :
    PassO (Collects s0) (execReduce port vc s) := by
  unfold execReduce
  repeat' first
    | intro _
    | with_reducible first | assumption | apply onMessage_collects | apply CollCtx_onReduce_collects

theorem CollCtx_passTo_collects {s0 : State} (c : CollCtx) (q : Coll) (x : CollMsg) (j mask : Nat) :
    PassM (Collects s0) (CollCtx.passTo c q x j mask : M Unit) := by
  unfold CollCtx.passTo
  repeat' with_reducible apply CollCtx_owe_collects

theorem CollCtx_passOn_collects {s0 : State} (c : CollCtx) (q : Coll) (x : CollMsg) (up : Bool) (origin : Nat) :
    PassM (Collects s0) (CollCtx.passOn c q x up origin : M Unit) := by
  unfold CollCtx.passOn
  repeat' with_reducible first | apply CollCtx_passTo_collects | apply PassM.pure | apply PassM.ite

theorem CollCtx_passDown_collects {s0 : State} (c : CollCtx) (q : Coll) (x : CollMsg) :
    PassM (Collects s0) (CollCtx.passDown c q x : M Unit) := by
  unfold CollCtx.passDown
  repeat' first
    | intro _
    | with_reducible first | apply CollCtx_passTo_collects | apply PassM.forM

theorem CollCtx_onPlace_collects {s0 : State} (c : CollCtx) (x : CollMsg) :
    PassM (Collects s0) (CollCtx.onPlace c x : M Unit) := by
  unfold CollCtx.onPlace
  repeat' first
    | intro _
    | (extract_lets -underBinder +onlyGivenNames x; first
      | (with_reducible refine PassM.cut (P := Collects s0) (x := x) ?_ fun hx => ?_; rotate_left; clear_value x; have x := trivial; rotate_left; unfold x; clear x)
      | (guard_hyp x : _ := _; clear_value x; have x := trivial))
    | with_reducible first
        | apply freeM_collects | apply CollCtx_upd_collects | apply CollCtx_coll_collects | apply CollCtx_owe_collects
        | apply CollCtx_put_collects | apply CollCtx_place_collects | apply CollCtx_routeTable_collects
        | apply CollCtx_placeRows_collects | apply CollCtx_placePacked_collects | apply CollCtx_discardUnless_collects
        | apply CollCtx_passTo_collects | apply CollCtx_passOn_collects | apply CollCtx_passDown_collects | apply PassM.pure
        | apply PassM.bind | apply_assumption -exfalso -symm | apply PassM.ite
    | split

theorem execPlace_collects {s0 : State} (port vc : Nat) {s : State} (h_s : Collects s0 s) :
    PassO (Collects s0) (execPlace port vc s) := by
  unfold execPlace
  repeat' first
    | intro _
    | with_reducible first | assumption | apply onMessage_collects | apply CollCtx_onPlace_collects

theorem CollCtx_onCounts_collects {s0 : State} (c : CollCtx) (x : CollMsg) :
    PassM (Collects s0) (CollCtx.onCounts c x : M Unit) := by
  unfold CollCtx.onCounts
  repeat' with_reducible apply CollCtx_upd_collects

theorem execCounts_collects {s0 : State} (port vc : Nat) {s : State} (h_s : Collects s0 s) :
    PassO (Collects s0) (execCounts port vc s) := by
  unfold execCounts
  repeat' first
    | intro _
    | with_reducible first | assumption | apply onMessage_collects | apply CollCtx_onCounts_collects

theorem CollCtx_onBarrierUp_collects {s0 : State} (c : CollCtx) (x : CollMsg) :
    PassM (Collects s0) (CollCtx.onBarrierUp c x : M Unit) := by
  unfold CollCtx.onBarrierUp
  repeat' first
    | intro _
    | (extract_lets -underBinder +onlyGivenNames x; guard_hyp x : _ := _; clear_value x; have x := trivial)
    | with_reducible first
        | apply CollCtx_upd_collects | apply CollCtx_flush_collects | apply CollCtx_barrierUp_collects | apply PassM.bind

theorem execBarrierUp_collects {s0 : State} (port vc : Nat) {s : State} (h_s : Collects s0 s) :
    PassO (Collects s0) (execBarrierUp port vc s) := by
  unfold execBarrierUp
  repeat' first
    | intro _
    | with_reducible first | assumption | apply onMessage_collects | apply CollCtx_onBarrierUp_collects

theorem CollCtx_onBarrierDown_collects {s0 : State} (c : CollCtx) (x : CollMsg) :
    PassM (Collects s0) (CollCtx.onBarrierDown c x : M Unit) := by
  unfold CollCtx.onBarrierDown
  repeat' first
    | intro _
    | (extract_lets -underBinder +onlyGivenNames x; guard_hyp x : _ := _; clear_value x; have x := trivial)
    | with_reducible first
        | apply CollCtx_upd_collects | apply CollCtx_flush_collects | apply CollCtx_sendDown_collects | apply PassM.getBind
        | apply PassM.bind

theorem execBarrierDown_collects {s0 : State} (port vc : Nat) {s : State} (h_s : Collects s0 s) :
    PassO (Collects s0) (execBarrierDown port vc s) := by
  unfold execBarrierDown
  repeat' first
    | intro _
    | with_reducible first | assumption | apply onMessage_collects | apply CollCtx_onBarrierDown_collects

theorem execBarrierRelease_collects {s0 : State} (r : Nat) {s : State} (h_s : Collects s0 s) :
    PassO (Collects s0) (execBarrierRelease r s) := by
  unfold execBarrierRelease
  repeat' first
    | with_reducible assumption
    | (extract_lets -underBinder +onlyGivenNames x; guard_hyp x : _ := _; clear_value x; have x := trivial)
    | with_reducible first
        | apply CollCtx_finish_collects | apply runColl_collects | apply PassO.next | apply PassO.ite
    | split

theorem strictAbsent_collects {s0 : State} {s : State} (c : CollCtx) (absent : List Nat) (h_s : Collects s0 s) :
    Collects s0 (State.strictAbsent s c absent) := by
  unfold State.strictAbsent
  repeat' first
    | with_reducible assumption
    | decide
    | (extract_lets -underBinder +onlyGivenNames x; first
      | (with_reducible refine Pass.cut (P := Collects s0) (x := x) ?_ fun hx => ?_; rotate_left; clear_value x; have x := trivial; rotate_left; unfold x; clear x)
      | (guard_hyp x : _ := _; clear_value x; have x := trivial))
    | with_reducible first | apply count_collects | apply raise_collects | apply failColl_collects
    | split

theorem lenientAbsent_collects {s0 : State} {s : State} (c : CollCtx) (q : Coll) (absent : List Nat) (h_s : Collects s0 s) :
    Collects s0 (State.lenientAbsent s c q absent) := by
  unfold State.lenientAbsent
  repeat' first
    | with_reducible assumption
    | (extract_lets -underBinder +onlyGivenNames x; first
      | (with_reducible refine Pass.cut (P := Collects s0) (x := x) ?_ fun hx => ?_; rotate_left; clear_value x; have x := trivial; rotate_left; unfold x; clear x)
      | (guard_hyp x : Colls := _; have x := trivial)
      | (guard_hyp x : _ := _; clear_value x; have x := trivial))
    | with_reducible first | apply noteLate_collects | apply modColl_collects
    | (with_reducible refine Collects.upd ?_ rfl rfl rfl rfl rfl rfl rfl rfl; with_reducible assumption)

theorem collDeadline_collects {s0 : State} {s : State} (t : Machine.Task) (h_s : Collects s0 s) :
    Collects s0 (State.collDeadline s t) := by
  unfold State.collDeadline
  repeat' first
    | with_reducible assumption
    | (extract_lets -underBinder +onlyGivenNames x; guard_hyp x : _ := _; clear_value x; have x := trivial)
    | with_reducible first
        | apply strictAbsent_collects | apply lenientAbsent_collects | apply Pass.ite (P := Collects s0)
    | split

end Sys2Proof.Safety
end

