-- ==== Sys2Proof/Laws/CollectsSnapshot.lean ====
section
/-! SUPPORT. The parts of collectives and snapshots in Machine/Snapshot.lean change only what `Collects` allows. -/

namespace Sys2Proof.Safety

open Sys2Proof.Machine

theorem twinHeader_collects {s0 : State} {s : State} (q header : Nat) (h_s : Collects s0 s) :
    Collects s0 (State.twinHeader s q header) := by
  unfold State.twinHeader
  repeat' with_reducible first | assumption | apply sendTwin_collects

theorem twinData_collects {s0 : State} {s : State} (q kind seq offset : Nat) (bs : List Byte) (h_s : Collects s0 s) :
    Collects s0 (State.twinData s q kind seq offset bs) := by
  unfold State.twinData
  repeat' first
    | intro _
    | with_reducible first | assumption | apply sendTwin_collects | apply Pass.foldl (P := Collects s0)

theorem attempt_collects {s0 : State} (body : M Unit) (h_body : PassM (Collects s0) (body )) :
    PassM (Collects s0) (attempt body : M Bool) := by
  unfold attempt
  repeat' first
    | intro _
    | with_reducible first | assumption | apply PassM.pure | apply PassM.bind | apply PassM.catch

theorem farHeader_collects {s0 : State} (ini : Init) (q header : Nat) :
    PassM (Collects s0) (farHeader ini q header : M Bool) := by
  unfold farHeader
  repeat' first
    | intro _
    | with_reducible first | apply writeBytes_collects | apply attempt_collects | apply PassM.getBind

theorem sealPrevious_collects {s0 : State} (ini : Init) (loss : Nat) :
    PassM (Collects s0) (sealPrevious ini loss : M Unit) := by
  unfold sealPrevious
  repeat' first
    | intro _
    | with_reducible assumption
    | (extract_lets -underBinder +onlyGivenNames x; first
      | (with_reducible refine PassM.cut (P := Collects s0) (x := x) ?_ fun hx => ?_; rotate_left; clear_value x; have x := trivial; rotate_left; unfold x; clear x)
      | (guard_hyp x : Resilience := _; have x := trivial)
      | (guard_hyp x : _ := _; clear_value x; have x := trivial))
    | with_reducible first
        | apply mod_collects | apply twinHeader_collects | apply farHeader_collects | apply PassM.pure | apply PassM.getBind
        | apply PassM.bind | apply_assumption -exfalso -symm | apply PassM.ite
    | split
    | (with_reducible refine Collects.upd ?_ rfl rfl rfl rfl rfl rfl rfl rfl; with_reducible assumption)

theorem readList_collects {s0 : State} (ini : Init) (list : Nat) :
    PassM (Collects s0) (readList ini list : M (Option (List Nat))) := by
  unfold readList
  repeat' first
    | intro _
    | (extract_lets -underBinder +onlyGivenNames x; guard_hyp x : _ := _; clear_value x; have x := trivial)
    | with_reducible first
        | apply readNat_collects | apply PassM.pure | apply PassM.getBind | apply PassM.bind | apply PassM.mapM
        | apply PassM.ite

theorem writeCopies_collects {s0 : State} (ini : Init) (m : Midnight) (cursor : Nat) (ahead : Nat) (solo undef : Bool) :
    PassM (Collects s0) (writeCopies ini m cursor ahead solo undef : M Midnight) := by
  unfold writeCopies
  repeat' first
    | intro _
    | with_reducible assumption
    | (extract_lets -underBinder +onlyGivenNames x; first
      | (with_reducible refine PassM.cut (P := Collects s0) (x := x) ?_ fun hx => ?_; rotate_left; clear_value x; have x := trivial; rotate_left; unfold x; clear x)
      | (guard_hyp x : _ := _; clear_value x; have x := trivial))
    | with_reducible first
        | apply mod_collects | apply freeM_collects | apply freeBytes_collects | apply readBytes_collects | apply writeBytes_collects
        | apply readNat_collects | apply twinHeader_collects | apply twinData_collects | apply attempt_collects
        | apply farHeader_collects | apply PassM.pure | apply PassM.getBind | apply PassM.bind | apply PassM.mapM
        | apply_assumption -exfalso -symm | apply PassM.ite

theorem closeCopies_collects {s0 : State} (ini : Init) (m : Midnight) (failed : Bool) :
    PassM (Collects s0) (closeCopies ini m failed : M Unit) := by
  unfold closeCopies
  repeat' first
    | intro _
    | with_reducible assumption
    | decide
    | (extract_lets -underBinder +onlyGivenNames x; first
      | (with_reducible refine PassM.cut (P := Collects s0) (x := x) ?_ fun hx => ?_; rotate_left; clear_value x; have x := trivial; rotate_left; unfold x; clear x)
      | (guard_hyp x : Resilience := _; have x := trivial)
      | (guard_hyp x : _ := _; clear_value x; have x := trivial))
    | with_reducible first
        | apply setObj_collects | apply raise_collects | apply mod_collects | apply twinHeader_collects | apply farHeader_collects
        | apply PassM.getBind | apply PassM.bind | apply_assumption -exfalso -symm | apply PassM.ite
    | (with_reducible refine Collects.upd ?_ rfl rfl rfl rfl rfl rfl rfl rfl; with_reducible assumption)

theorem snapStart_collects {s0 : State} (c : CollCtx) (image : Nat) :
    PassM (Collects s0) (snapStart c image : M Bool) := by
  unfold snapStart
  repeat' first
    | intro _
    | with_reducible assumption
    | decide
    | (extract_lets -underBinder +onlyGivenNames x; first
      | (with_reducible refine Pass.cut (P := Collects s0) (x := x) ?_ fun hx => ?_; rotate_left; clear_value x; have x := trivial; rotate_left; unfold x; clear x)
      | (with_reducible refine PassM.cut (P := Collects s0) (x := x) ?_ fun hx => ?_; rotate_left; clear_value x; have x := trivial; rotate_left; unfold x; clear x)
      | (guard_hyp x : Resilience := _; have x := trivial)
      | (guard_hyp x : _ := _; clear_value x; have x := trivial))
    | with_reducible first
        | apply count_collects | apply raise_collects | apply mod_collects | apply readNat_collects | apply dropLate_collects
        | apply sealPrevious_collects | apply readList_collects | apply PassM.pure | apply PassM.throw | apply PassM.getBind
        | apply PassM.bind | apply_assumption -exfalso -symm | apply PassM.ite
    | split
    | (with_reducible refine Collects.upd ?_ rfl rfl rfl rfl rfl rfl rfl rfl; with_reducible assumption)

theorem CollCtx_barrierStep_collects {s0 : State} (c : CollCtx) :
    PassM (Collects s0) (CollCtx.barrierStep c : M Unit) := by
  unfold CollCtx.barrierStep
  repeat' first
    | intro _
    | (extract_lets -underBinder +onlyGivenNames x; with_reducible refine PassM.cut (P := Collects s0) (x := x) ?_ fun hx => ?_; rotate_left; clear_value x; have x := trivial; rotate_left; unfold x; clear x)
    | with_reducible first
        | apply CollCtx_coll_collects | apply CollCtx_flush_collects | apply CollCtx_begin_collects
        | apply CollCtx_barrierUp_collects | apply PassM.bind | apply_assumption -exfalso -symm | apply PassM.ite

theorem runSnap_collects {s0 : State} {s : State} (r : Nat) (body : CollCtx → Nat → Coll → M Unit) (h_s : Collects s0 s) (h_body : ∀ a0 a1 a2, PassM (Collects s0) (body a0 a1 a2)) :
    PassO (Collects s0) (State.runSnap s r body) := by
  unfold State.runSnap
  repeat' first
    | with_reducible assumption
    | (extract_lets -underBinder +onlyGivenNames x; guard_hyp x : _ := _; clear_value x; have x := trivial)
    | with_reducible first | apply h_body | apply runColl_collects | apply PassO.next | apply PassO.ite
    | split

theorem snapshotWork_collects {s0 : State} (r : Nat) (c : CollCtx) (image : Nat) :
    PassM (Collects s0) (snapshotWork r c image : M Unit) := by
  unfold snapshotWork
  repeat' first
    | intro _
    | with_reducible first
        | assumption | apply mod_collects | apply modTask_collects | apply snapStart_collects | apply CollCtx_barrierStep_collects
        | apply PassM.getBind | apply PassM.bind | apply PassM.ite
    | split

theorem execSnapshot_collects {s0 : State} (r : Nat) {s : State} (h_s : Collects s0 s) :
    PassO (Collects s0) (execSnapshot r s) := by
  unfold execSnapshot
  repeat' first
    | intro _
    | with_reducible first | assumption | apply runSnap_collects | apply snapshotWork_collects

theorem noteBarrier_collects {s0 : State} (q : Coll) :
    PassM (Collects s0) (noteBarrier q : M Unit) := by
  unfold noteBarrier
  repeat' first
    | intro _
    | with_reducible assumption
    | decide
    | with_reducible first | apply count_collects | apply mod_collects | apply PassM.pure | apply PassM.ite

theorem midnightWriteWork_collects {s0 : State} (r : Nat) (c : CollCtx) (image : Nat) (q : Coll) :
    PassM (Collects s0) (midnightWriteWork r c image q : M Unit) := by
  unfold midnightWriteWork
  repeat' first
    | intro _
    | (extract_lets -underBinder +onlyGivenNames x; first
      | (guard_hyp x : Resilience := _; have x := trivial)
      | (guard_hyp x : _ := _; clear_value x; have x := trivial))
    | with_reducible first
        | apply mod_collects | apply CollCtx_upd_collects | apply writeCopies_collects | apply CollCtx_barrierStep_collects
        | apply noteBarrier_collects | apply PassM.throw | apply PassM.getBind | apply PassM.bind | apply PassM.ite
    | split
    | (with_reducible refine Collects.upd ?_ rfl rfl rfl rfl rfl rfl rfl rfl; with_reducible assumption)

theorem execMidnightWrite_collects {s0 : State} (r : Nat) {s : State} (h_s : Collects s0 s) :
    PassO (Collects s0) (execMidnightWrite r s) := by
  unfold execMidnightWrite
  repeat' first
    | intro _
    | with_reducible first | assumption | apply runSnap_collects | apply midnightWriteWork_collects

theorem midnightCloseWork_collects {s0 : State} (r : Nat) (c : CollCtx) (q : Coll) :
    PassM (Collects s0) (midnightCloseWork r c q : M Unit) := by
  unfold midnightCloseWork
  repeat' first
    | intro _
    | with_reducible first
        | assumption | apply mod_collects | apply modTask_collects | apply useReadies_collects | apply closeCopies_collects
        | apply noteBarrier_collects | apply PassM.throw | apply PassM.getBind | apply PassM.bind | apply PassM.ite
    | split

theorem execMidnightClose_collects {s0 : State} (r : Nat) {s : State} (h_s : Collects s0 s) :
    PassO (Collects s0) (execMidnightClose r s) := by
  unfold execMidnightClose
  repeat' first
    | intro _
    | with_reducible first | assumption | apply runSnap_collects | apply midnightCloseWork_collects

theorem midnightDeadline_collects {s0 : State} {s : State} (t : Machine.Task) (h_s : Collects s0 s) :
    Collects s0 (State.midnightDeadline s t) := by
  unfold State.midnightDeadline
  repeat' first
    | with_reducible assumption
    | (extract_lets -underBinder +onlyGivenNames x; first
      | (with_reducible refine Pass.cut (P := Collects s0) (x := x) ?_ fun hx => ?_; rotate_left; clear_value x; have x := trivial; rotate_left; unfold x; clear x)
      | (guard_hyp x : Resilience := _; have x := trivial)
      | (guard_hyp x : _ := _; clear_value x; have x := trivial))
    | with_reducible first
        | apply raise_collects | apply modTask_collects | apply useReadies_collects | apply strictAbsent_collects
        | apply Pass.ite (P := Collects s0)
    | split
    | (with_reducible refine Collects.upd ?_ rfl rfl rfl rfl rfl rfl rfl rfl; with_reducible assumption)

theorem execContributionDeadline_collects {s0 : State} (r : Nat) {s : State} (h_s : Collects s0 s) :
    PassO (Collects s0) (execContributionDeadline r s) := by
  unfold execContributionDeadline
  repeat' first
    | with_reducible first
        | assumption | apply collDeadline_collects | apply midnightDeadline_collects | apply PassO.next | apply PassO.ite
    | split

theorem onTwin_collects {s0 : State} {s : State} (port vc kind : Nat) (act : TwinMsg → State → State) (h_s : Collects s0 s) (h_act : ∀ a0 (y : State), Collects s0 y → Collects s0 (act a0 y)) :
    Collects s0 (State.onTwin s port vc kind act) := by
  unfold State.onTwin
  repeat' first
    | with_reducible assumption
    | decide
    | (extract_lets -underBinder +onlyGivenNames x; with_reducible refine Pass.cut (P := Collects s0) (x := x) ?_ fun hx => ?_; rotate_left; clear_value x; have x := trivial; rotate_left; unfold x; clear x)
    | with_reducible first
        | apply h_act | apply count_collects | apply dropFront_collects | apply Pass.ite (P := Collects s0)
    | split

theorem holding_collects {s0 : State} {s : State} (body : M Unit) (h_s : Collects s0 s) (h_body : PassM (Collects s0) (body )) :
    Collects s0 (State.holding s body) := by
  unfold State.holding
  repeat' first
    | with_reducible assumption
    | decide
    | with_reducible apply count_collects
    | split
    | refine PassM.ok ?_ ?_ (by with_reducible assumption)
    | refine PassM.error ?_ ?_ (by with_reducible assumption)

theorem execHeartbeat_collects {s0 : State} (port vc : Nat) {s : State} (h_s : Collects s0 s) :
    PassO (Collects s0) (execHeartbeat port vc s) := by
  unfold execHeartbeat
  repeat' first
    | intro _
    | with_reducible assumption
    | decide
    | (extract_lets -underBinder +onlyGivenNames x; first
      | (with_reducible refine Pass.cut (P := Collects s0) (x := x) ?_ fun hx => ?_; rotate_left; clear_value x; have x := trivial; rotate_left; unfold x; clear x)
      | (guard_hyp x : Resilience := _; have x := trivial))
    | with_reducible first | apply setObj_collects | apply count_collects | apply onTwin_collects | apply PassO.next
    | (with_reducible refine Collects.upd ?_ rfl rfl rfl rfl rfl rfl rfl rfl; with_reducible assumption)

theorem execHeartbeatSend_collects {s0 : State} {s : State} (h_s : Collects s0 s) :
    PassO (Collects s0) (execHeartbeatSend s) := by
  unfold execHeartbeatSend
  repeat' first
    | with_reducible assumption
    | (extract_lets -underBinder +onlyGivenNames x; first
      | (with_reducible refine Pass.cut (P := Collects s0) (x := x) ?_ fun hx => ?_; rotate_left; clear_value x; have x := trivial; rotate_left; unfold x; clear x)
      | (guard_hyp x : Resilience := _; have x := trivial)
      | (guard_hyp x : _ := _; clear_value x; have x := trivial))
    | with_reducible first | apply sendTwin_collects | apply PassO.next | apply PassO.ite
    | (with_reducible refine Collects.upd ?_ rfl rfl rfl rfl rfl rfl rfl rfl; with_reducible assumption)

theorem execTwinLost_collects {s0 : State} {s : State} (h_s : Collects s0 s) :
    PassO (Collects s0) (execTwinLost s) := by
  unfold execTwinLost
  repeat' first
    | with_reducible assumption
    | decide
    | with_reducible first | apply setObj_collects | apply raise_collects | apply PassO.next | apply PassO.ite

theorem holdBytes_collects {s0 : State} {s : State} (slot offset : Nat) (bs : List Byte) (h_s : Collects s0 s) :
    Collects s0 (State.holdBytes s slot offset bs) := by
  unfold State.holdBytes
  repeat' first
    | with_reducible assumption
    | decide
    | with_reducible first
        | apply count_collects | apply writeBytes_collects | apply holding_collects | apply Pass.ite (P := Collects s0)

theorem execSnapData_collects {s0 : State} (port vc : Nat) {s : State} (h_s : Collects s0 s) :
    PassO (Collects s0) (execSnapData port vc s) := by
  unfold execSnapData
  repeat' first
    | intro _
    | with_reducible first | assumption | apply onTwin_collects | apply holdBytes_collects | apply PassO.next

theorem execSnapHeader_collects {s0 : State} (port vc : Nat) {s : State} (h_s : Collects s0 s) :
    PassO (Collects s0) (execSnapHeader port vc s) := by
  unfold execSnapHeader
  repeat' first
    | intro _
    | with_reducible first | assumption | apply onTwin_collects | apply holdBytes_collects | apply PassO.next

theorem answerFetch_collects {s0 : State} {s : State} (slot offset len : Nat) (h_s : Collects s0 s) :
    Collects s0 (State.answerFetch s slot offset len) := by
  unfold State.answerFetch
  repeat' first
    | intro _
    | with_reducible assumption
    | decide
    | with_reducible first
        | apply count_collects | apply mod_collects | apply readBytes_collects | apply twinData_collects | apply holding_collects
        | apply PassM.bind | apply Pass.ite (P := Collects s0)

theorem execFetch_collects {s0 : State} (port vc : Nat) {s : State} (h_s : Collects s0 s) :
    PassO (Collects s0) (execFetch port vc s) := by
  unfold execFetch
  repeat' first
    | intro _
    | with_reducible first | assumption | apply onTwin_collects | apply answerFetch_collects | apply PassO.next

theorem execDusk_collects {s0 : State} (port vc : Nat) {s : State} (h_s : Collects s0 s) :
    PassO (Collects s0) (execDusk port vc s) := by
  unfold execDusk
  repeat' first
    | with_reducible assumption
    | decide
    | (extract_lets -underBinder +onlyGivenNames x; first
      | (with_reducible refine Pass.cut (P := Collects s0) (x := x) ?_ fun hx => ?_; rotate_left; clear_value x; have x := trivial; rotate_left; unfold x; clear x)
      | (guard_hyp x : _ := _; clear_value x; have x := trivial))
    | with_reducible first
        | apply setObj_collects | apply setPort_collects | apply dropFront_collects | apply PassO.next | apply PassO.ite
        | apply Pass.ite (P := Collects s0)
    | split

theorem execFetchData_collects {s0 : State} (port vc : Nat) {s : State} (h_s : Collects s0 s) :
    PassO (Collects s0) (execFetchData port vc s) := by
  unfold execFetchData
  repeat' first
    | intro _
    | with_reducible assumption
    | (extract_lets -underBinder +onlyGivenNames x; first
      | (with_reducible refine Pass.cut (P := Collects s0) (x := x) ?_ fun hx => ?_; rotate_left; clear_value x; have x := trivial; rotate_left; unfold x; clear x)
      | (guard_hyp x : Resilience := _; have x := trivial)
      | (guard_hyp x : _ := _; clear_value x; have x := trivial))
    | with_reducible first
        | apply sendTwin_collects | apply onTwin_collects | apply PassO.next | apply Pass.ite (P := Collects s0)
    | split
    | (with_reducible refine Collects.upd ?_ rfl rfl rfl rfl rfl rfl rfl rfl; with_reducible assumption)

theorem soloSnapshot_collects {s0 : State} {s : State} (h_s : Collects s0 s) :
    Collects s0 (State.soloSnapshot s) := by
  unfold State.soloSnapshot
  repeat' first
    | intro _
    | with_reducible assumption
    | (extract_lets -underBinder +onlyGivenNames x; first
      | (with_reducible refine Pass.cutF (P := Collects s0) (x := x) ?_ fun hx => ?_; rotate_left; clear_value x; have x := trivial; rotate_left; unfold x; clear x)
      | (guard_hyp x : M _ := _; with_reducible refine PassM.cut0 (P := Collects s0) (x := x) ?_ fun hx => ?_; rotate_left; clear_value x; have x := trivial; rotate_left; unfold x; clear x)
      | (guard_hyp x : _ := _; clear_value x; have x := trivial))
    | with_reducible first
        | apply raise_collects | apply mod_collects | apply readList_collects | apply writeCopies_collects | apply closeCopies_collects
        | apply PassM.bind | apply_assumption -exfalso -symm
    | split
    | refine PassM.ok ?_ ?_ (by with_reducible assumption)
    | refine PassM.error ?_ ?_ (by with_reducible assumption)

/-- A fold over a list of ports. -/
theorem foldl_mem {P : State → Prop} {x : State} {α : Type} {f : State → α → State} {l : List α} (h : P x)
    (k : ∀ y, ∀ a ∈ l, P y → P (f y a)) : P (l.foldl f x) := by
  induction l generalizing x with
  | nil => exact h
  | cons a l ih => exact ih (k x a List.mem_cons_self h) fun y b hb => k y b (List.mem_cons_of_mem _ hb)

theorem execDuskIdle_collects {s0 s : State} (h_s : Collects s0 s) : PassO (Collects s0) (execDuskIdle s) := by
  unfold execDuskIdle
  refine .ite (.next h_s) ?_
  extract_lets a b c r
  have hb : Collects s0 b := Pass.ite (P := Collects s0) (soloSnapshot_collects (cleanLines_collects h_s)) (cleanLines_collects h_s)
  have hc : Collects s0 c := foldl_mem (P := Collects s0) hb fun y p hp k =>
    sendDirect_collects _ _ _ _ _ _ k (List.mem_range.mp (List.mem_filter.mp hp).1)
  exact .next (hc.upd rfl rfl rfl rfl rfl rfl rfl rfl)

end Sys2Proof.Safety
end

