-- ==== Sys2Proof/Laws/Pages.lean ====
section
/-! SUPPORT. What the allocator and the paging engine can do, said once: the ways in which a change of state keeps what
`Pages` names. -/

namespace Sys2Proof.Safety

open Sys2Proof.Machine

theorem Pages.refl (s : State) : Pages s s := ⟨.refl s, rfl, rfl, fun h => ⟨h, fun _ _ _ => rfl⟩⟩

theorem Pages.trans {a b c : State} (h : Pages a b) (k : Pages b c) : Pages a c :=
  ⟨h.keeps.trans k.keeps, k.frame.trans h.frame, k.records.trans h.records, fun r =>
    ⟨(k.objs (h.objs r).1).1, fun j n m => ((k.objs (h.objs r).1).2 j n m).trans ((h.objs r).2 j n m)⟩⟩

/-- The work of a task is among what paging may do. -/
theorem Works.pages {s t : State} (h : Works s t) : Pages s t := by
  refine ⟨h.keeps, ?_, h.records, fun r => ⟨(h.objs r).1, fun k n _ => (h.objs r).2 k n⟩⟩
  have f := h.frame
  simp only [workFrame, pageFrame, Prod.mk.injEq] at f ⊢
  obtain ⟨a, b, c, d, e, g, i, j, k, l, m, -⟩ := f
  exact ⟨a, b, c, d, e, g, i, j, k, l, m⟩

/-- A change beside which everything that `Pages` names is kept. -/
theorem Pages.change {s0 x : State} {fc : Nat} {d : Dict} {sc : Sched} {nm : Numerics} {mm : Mem} (h : Pages s0 x)
    (hk : Keeps s0 (State.mk x.pending x.out fc d sc nm mm x.ports x.timing x.colls x.sec x.rst x.far x.resil))
    (ho : d.objs = x.dict.objs) (ht : sc.tasks = x.sched.tasks)
    (hf : pageFrame (State.mk x.pending x.out fc d sc nm mm x.ports x.timing x.colls x.sec x.rst x.far x.resil) =
      pageFrame x) :
    Pages s0 (State.mk x.pending x.out fc d sc nm mm x.ports x.timing x.colls x.sec x.rst x.far x.resil) := by
  refine ⟨hk, hf.trans h.frame, ?_, fun r => ?_⟩
  · show sc.tasks.map (·.record) = _
    rw [ht]
    exact h.records
  · show Rising d.objs ∧ ∀ k, k ∉ workObjs → k ∉ pageObjs → (mapFind d.objs k).getD (objDefault k) = _
    rw [ho]
    exact h.objs r

/-- A change that leaves every part named by `Pages` as it was. -/
theorem Pages.upd {s0 x : State} {d : Dict} {sc : Sched} {nm : Numerics} {mm : Mem} (h : Pages s0 x)
    (ho : d.objs = x.dict.objs) (hd : d.pend = x.dict.pend) (hl : d.log = x.dict.log)
    (hb : sc.fallback = x.sched.fallback) (hc : mm.cells = x.mem.cells) (ht : sc.tasks = x.sched.tasks)
    (hf : pageFrame (State.mk x.pending x.out x.freeCtr d sc nm mm x.ports x.timing x.colls x.sec x.rst x.far x.resil) =
      pageFrame x) :
    Pages s0 (State.mk x.pending x.out x.freeCtr d sc nm mm x.ports x.timing x.colls x.sec x.rst x.far x.resil) :=
  h.change (h.keeps.upd ho hd hl hb hc rfl rfl rfl rfl) ho ht hf

/-- Memory changed in a way that keeps its form. -/
theorem Pages.changeMem {s0 x : State} {mm : Mem} (h : Pages s0 x) (k : memWf x.mem.cells = true → memWf mm.cells = true) :
    Pages s0 (State.mk x.pending x.out x.freeCtr x.dict x.sched x.num mm x.ports x.timing x.colls x.sec x.rst x.far
      x.resil) :=
  h.change (h.keeps.changeMem k) rfl rfl rfl

/-- The same, where memory comes from another state that keeps. -/
theorem Pages.updMem {s0 x y : State} {mm : Mem} (h : Pages s0 x) (h3 : mm.cells = y.mem.cells) (k : Pages s0 y) :
    Pages s0 (State.mk x.pending x.out x.freeCtr x.dict x.sched x.num mm x.ports x.timing x.colls x.sec x.rst x.far
      x.resil) :=
  h.change (h.keeps.updMem h3 k.keeps) rfl rfl rfl

/-- Free values taken. -/
theorem Pages.addFree {s0 x : State} {n : Nat} (h : Pages s0 x) :
    Pages s0 (State.mk x.pending x.out (x.freeCtr + n) x.dict x.sched x.num x.mem x.ports x.timing x.colls x.sec x.rst
      x.far x.resil) :=
  h.change h.keeps.addFree rfl rfl rfl

end Sys2Proof.Safety
end

