-- ==== Sys2Proof/Laws/PagesOps.lean ====
section
/-! SUPPORT. The parts of paging in Machine/Ops.lean change only what `Pages` allows. -/

namespace Sys2Proof.Safety

open Sys2Proof.Machine

theorem setObj_pages {s0 s : State} (key v : Nat) (h : Pages s0 s) (hk : key ∈ workObjs ∨ key ∈ pageObjs) :
    Pages s0 (s.setObj key v) := by
  refine ⟨setObj_kept _ _ h.keeps, h.frame, h.records, fun r => ?_⟩
  obtain ⟨r1, r2⟩ := h.objs r
  refine ⟨rising_mapPut r1, fun k hn hm => ?_⟩
  have hne : k ≠ key := fun e => hk.elim (fun x => hn (e ▸ x)) fun x => hm (e ▸ x)
  rw [← r2 k hn hm]
  exact obj_setObj_ne r1 hne

theorem addObj_pages {s0 : State} {s : State} (key n : Nat) (h_s : Pages s0 s) (hk : key ∈ workObjs ∨ key ∈ pageObjs) :
    Pages s0 (State.addObj s key n) := by
  unfold State.addObj
  repeat' with_reducible first | assumption | apply setObj_pages | apply Pass.ite (P := Pages s0)

theorem count_pages {s0 : State} {s : State} (key : Nat) (h_s : Pages s0 s) (hk : key ∈ workObjs ∨ key ∈ pageObjs) :
    Pages s0 (State.count s key) := by
  unfold State.count
  repeat' with_reducible first | assumption | apply addObj_pages

theorem raise_pages {s0 : State} {s : State} (code source unit : Nat) (w0 : Nat) (w1 : Nat) (w2 : Nat) (w3 : Nat) (w4 : Nat) (h_s : Pages s0 s) :
    Pages s0 (State.raise s code source unit w0 w1 w2 w3 w4) :=
  h_s.trans (Works.pages (raise_works _ _ _ _ _ _ _ _ (Works.refl _)))

theorem setTickEvent_pages {s0 : State} {s : State} (e : EventRec) (h_s : Pages s0 s) :
    Pages s0 (State.setTickEvent s e) :=
  h_s.trans (Works.pages (setTickEvent_works _ (Works.refl _)))

theorem noteStale_pages {s0 : State} {s : State} (h_s : Pages s0 s) :
    Pages s0 (State.noteStale s) :=
  h_s.trans (Works.pages (noteStale_works (Works.refl _)))

theorem noteDenied_pages {s0 : State} {s : State} (cls unit address kind : Nat) (h_s : Pages s0 s) :
    Pages s0 (State.noteDenied s cls unit address kind) :=
  h_s.trans (Works.pages (noteDenied_works _ _ _ _ (Works.refl _)))

theorem uncorrected_pages {s0 : State} {s : State} (loc record : Nat) (h_s : Pages s0 s) :
    Pages s0 (State.uncorrected s loc record) :=
  h_s.trans (Works.pages (uncorrected_works _ _ (Works.refl _)))

theorem mod_pages {s0 : State} (f : State → State) (h_f : ∀ y : State, Pages s0 y → Pages s0 (f y)) :
    PassM (Pages s0) (mod f) := PassM.mod h_f

end Sys2Proof.Safety
end

