-- ==== Sys2Proof/Laws/PagesMemory.lean ====
section
/-! SUPPORT. The parts of paging in Machine/Memory.lean change only what `Pages` allows. -/

namespace Sys2Proof.Safety

open Sys2Proof.Machine

theorem setEntry_pages {s0 : State} {s : State} (page e : Nat) (h_s : Pages s0 s) :
    Pages s0 (State.setEntry s page e) := by
  unfold State.setEntry
  repeat' first
    | (extract_lets -underBinder +onlyGivenNames x; guard_hyp x : Mem := _; have x := trivial)
    | (with_reducible refine Pages.upd ?_ rfl rfl rfl rfl rfl rfl rfl; with_reducible assumption)

theorem writeBack_pages {s0 : State} {s : State} (line : Nat) (h_s : Pages s0 s) :
    Pages s0 (State.writeBack s line) :=
  h_s.trans (Works.pages (writeBack_works _ (Works.refl _)))

theorem dropLines_pages {s0 : State} {s : State} (p : Nat → Bool) (writeBack : Bool) (h_s : Pages s0 s) :
    Pages s0 (State.dropLines s p writeBack) := by
  unfold State.dropLines
  repeat' first
    | intro _
    | with_reducible assumption
    | (extract_lets -underBinder +onlyGivenNames x; first
      | (with_reducible refine Pass.cut (P := Pages s0) (x := x) ?_ fun hx => ?_; rotate_left; clear_value x; have x := trivial; rotate_left; unfold x; clear x)
      | (guard_hyp x : Mem := _; have x := trivial)
      | (guard_hyp x : _ := _; clear_value x; have x := trivial))
    | with_reducible first
        | apply writeBack_pages | apply Pass.foldl (P := Pages s0) | apply Pass.ite (P := Pages s0)
    | (with_reducible refine Pages.upd ?_ rfl rfl rfl rfl rfl rfl rfl; with_reducible assumption)

theorem addCount_pages {s0 : State} {s : State} (page n : Nat) (h_s : Pages s0 s) :
    Pages s0 (State.addCount s page n) :=
  h_s.trans (Works.pages (addCount_works _ _ (Works.refl _)))

theorem translate_pages {s0 : State} {s : State} (tc page : Nat) (h_s : Pages s0 s) :
    Pages s0 (State.translate s tc page) :=
  h_s.trans (Works.pages (translate_works _ _ (Works.refl _)))

theorem shootdown_pages {s0 : State} {s : State} (page : Nat) (h_s : Pages s0 s) :
    Pages s0 (State.shootdown s page) := by
  unfold State.shootdown
  repeat' first
    | with_reducible assumption
    | decide
    | (extract_lets -underBinder +onlyGivenNames x; first
      | (with_reducible refine Pass.cut (P := Pages s0) (x := x) ?_ fun hx => ?_; rotate_left; clear_value x; have x := trivial; rotate_left; unfold x; clear x)
      | (guard_hyp x : Mem := _; have x := trivial)
      | (guard_hyp x : _ := _; clear_value x; have x := trivial))
    | with_reducible first | apply count_pages | apply addCount_pages
    | (with_reducible refine Pages.upd ?_ rfl rfl rfl rfl rfl rfl rfl; with_reducible assumption)

theorem refuse_pages {s0 : State} {s : State} (cls unit right va : Nat) (h_s : Pages s0 s) :
    Pages s0 (State.refuse s cls unit right va) :=
  h_s.trans (Works.pages (refuse_works _ _ _ _ (Works.refl _)))

theorem discardMsg_pages {s0 : State} {s : State} (msg : Bool) (h_s : Pages s0 s) :
    Pages s0 (State.discardMsg s msg) :=
  h_s.trans (Works.pages (discardMsg_works _ (Works.refl _)))

theorem useFreed_pages {s0 : State} {s : State} (page : Nat) (h_s : Pages s0 s) :
    Pages s0 (State.useFreed s page) :=
  h_s.trans (Works.pages (useFreed_works _ (Works.refl _)))

theorem storeAt_pages {s0 : State} {s : State} (req : Req) (va : Nat) (bs : List Byte) (h_s : Pages s0 s) :
    Pages s0 (State.storeAt s req va bs) :=
  h_s.trans (Works.pages (storeAt_works _ _ _ (Works.refl _)))

theorem writeBytes_pages {s0 : State} (i : Init) (req : Req) (va : Nat) (bs : List Byte) :
    PassM (Pages s0) (writeBytes i req va bs : M Unit) :=
  .carry (fun _ => writeBytes_works _ _ _ _) Works.refl fun _ _ h k => h.trans (Works.pages k)

theorem readNat_pages {s0 : State} (i : Init) (req : Req) (va n : Nat) :
    PassM (Pages s0) (readNat i req va n : M Nat) :=
  .carry (fun _ => readNat_works _ _ _ _) Works.refl fun _ _ h k => h.trans (Works.pages k)

theorem writeNat_pages {s0 : State} (i : Init) (req : Req) (va n v : Nat) :
    PassM (Pages s0) (writeNat i req va n v : M Unit) :=
  .carry (fun _ => writeNat_works _ _ _ _ _) Works.refl fun _ _ h k => h.trans (Works.pages k)

theorem performAtomic_pages {s0 : State} {s : State} (op : AtomicOp) (a n v : Nat) (h_s : Pages s0 s) :
    Pages s0 (State.performAtomic s op a n v) :=
  h_s.trans (Works.pages (performAtomic_works _ _ _ _ (Works.refl _)))

theorem atomic_pages {s0 : State} (i : Init) (op : AtomicOp) (va n v : Nat) :
    PassM (Pages s0) (atomic i op va n v : M Nat) :=
  .carry (fun _ => atomic_works _ _ _ _ _) Works.refl fun _ _ h k => h.trans (Works.pages k)

end Sys2Proof.Safety
end

