-- ==== Sys2Proof/Laws/PagesTasks.lean ====
section
/-! SUPPORT. The parts of paging in Machine/Tasks.lean change only what `Pages` allows. -/

namespace Sys2Proof.Safety

open Sys2Proof.Machine

theorem setTask_pages {s0 : State} {s : State} (t : Machine.Task) (h_s : Pages s0 s) :
    Pages s0 (State.setTask s t) :=
  h_s.trans (Works.pages (setTask_works _ (Works.refl _)))

theorem failTask_pages {s0 : State} {s : State} (t : Machine.Task) (outs : List (Nat × Nat)) (a : Abort) (h_s : Pages s0 s) :
    Pages s0 (State.failTask s t outs a) :=
  h_s.trans (Works.pages (failTask_works _ _ _ (Works.refl _)))

theorem runWork_pages {s0 : State} {s : State} (t : Machine.Task) (outs : List (Nat × Nat)) (body : M Unit) (h_s : Pages s0 s) (h_body : PassM (Pages s0) (body )) :
    PassO (Pages s0) (runWork s t outs body) := by
  unfold runWork
  repeat' first
    | with_reducible first | assumption | apply setTask_pages | apply failTask_pages | apply PassO.next
    | split
    | refine PassM.ok ?_ ?_ (by with_reducible assumption)
    | refine PassM.error ?_ ?_ (by with_reducible assumption)

end Sys2Proof.Safety
end

