-- ==== Sys2Proof/Laws/PagesPaging.lean ====
section
/-! SUPPORT. The parts of paging in Machine/Paging.lean change only what `Pages` allows. -/

namespace Sys2Proof.Safety

open Sys2Proof.Machine

theorem refreshFrames_pages {s0 : State} {s : State} (h_s : Pages s0 s) :
    Pages s0 (State.refreshFrames s) := by
  unfold State.refreshFrames
  repeat' first
    | with_reducible assumption
    | decide
    | (extract_lets -underBinder +onlyGivenNames x; guard_hyp x : _ := _; clear_value x; have x := trivial)
    | with_reducible apply setObj_pages

theorem takeNear_pages {s0 : State} {s : State} (f : Nat) (miss : Bool) (h_s : Pages s0 s) :
    Pages s0 (State.takeNear s f miss) := by
  unfold State.takeNear
  repeat' first
    | with_reducible assumption
    | decide
    | (extract_lets -underBinder +onlyGivenNames x; first
      | (with_reducible refine Pass.cut (P := Pages s0) (x := x) ?_ fun hx => ?_; rotate_left; clear_value x; have x := trivial; rotate_left; unfold x; clear x)
      | (guard_hyp x : Mem := _; have x := trivial))
    | with_reducible first | apply count_pages | apply refreshFrames_pages | apply Pass.ite (P := Pages s0)
    | (with_reducible refine Pages.upd ?_ rfl rfl rfl rfl rfl rfl rfl; with_reducible assumption)

theorem takeFar_pages {s0 : State} {s : State} (f : Nat) (h_s : Pages s0 s) :
    Pages s0 (State.takeFar s f) := by
  unfold State.takeFar
  repeat' first
    | (extract_lets -underBinder +onlyGivenNames x; guard_hyp x : Mem := _; have x := trivial)
    | with_reducible apply refreshFrames_pages
    | (with_reducible refine Pages.upd ?_ rfl rfl rfl rfl rfl rfl rfl; with_reducible assumption)

theorem freeNear_pages {s0 : State} {s : State} (f : Nat) (h_s : Pages s0 s) :
    Pages s0 (State.freeNear s f) := by
  unfold State.freeNear
  repeat' first
    | with_reducible assumption
    | (extract_lets -underBinder +onlyGivenNames x; first
      | (with_reducible refine Pass.cut (P := Pages s0) (x := x) ?_ fun hx => ?_; rotate_left; clear_value x; have x := trivial; rotate_left; unfold x; clear x)
      | (guard_hyp x : Mem := _; have x := trivial))
    | with_reducible first | apply dropLines_pages | apply refreshFrames_pages
    | (with_reducible refine Pages.upd ?_ rfl rfl rfl rfl rfl rfl rfl; with_reducible assumption)

theorem freeFar_pages {s0 : State} {s : State} (f : Nat) (h_s : Pages s0 s) :
    Pages s0 (State.freeFar s f) := by
  unfold State.freeFar
  repeat' first
    | (extract_lets -underBinder +onlyGivenNames x; guard_hyp x : Mem := _; have x := trivial)
    | with_reducible apply refreshFrames_pages
    | (with_reducible refine Pages.upd ?_ rfl rfl rfl rfl rfl rfl rfl; with_reducible assumption)

theorem freeLocation_pages {s0 : State} {s : State} (e : Nat) (h_s : Pages s0 s) :
    Pages s0 (State.freeLocation s e) := by
  unfold State.freeLocation
  repeat' first
    | with_reducible first
        | assumption | apply freeNear_pages | apply freeFar_pages | apply Pass.ite (P := Pages s0)

theorem backPage_pages {s0 : State} {s : State} (slot policy placement i v : Nat) (h_s : Pages s0 s) :
    PassOpt (Pages s0) (State.backPage s slot policy placement i v) := by
  unfold State.backPage
  repeat' first
    | intro _
    | with_reducible first
        | assumption | apply setEntry_pages | apply takeNear_pages | apply takeFar_pages | apply PassOpt.map
        | apply PassOpt.ite

theorem grant_pages {s0 : State} {s : State} (a : AllocArgs) (h_s : Pages s0 s) :
    Pages s0 (State.grant s a).2.2 := by
  unfold State.grant
  repeat' first
    | intro _
    | with_reducible assumption
    | decide
    | (extract_lets -underBinder +onlyGivenNames x; first
      | (with_reducible refine Pass.cut (P := Pages s0) (x := x) ?_ fun hx => ?_; rotate_left; clear_value x; have x := trivial; rotate_left; unfold x; clear x)
      | (guard_hyp x : Mem := _; have x := trivial)
      | (guard_hyp x : _ := _; clear_value x; have x := trivial))
    | with_reducible first
        | apply setObj_pages | apply setEntry_pages | apply backPage_pages | apply Pass.foldl (P := Pages s0)
        | apply Pass.ite (P := Pages s0)
    | (with_reducible refine Pages.upd ?_ rfl rfl rfl rfl rfl rfl rfl; with_reducible assumption)
    | with_reducible apply PassOpt.getD

theorem release_pages {s0 : State} {s : State} (slot : Nat) (a : AllocSlot) (h_s : Pages s0 s) :
    Pages s0 (State.release s slot a) := by
  unfold State.release
  repeat' first
    | intro _
    | with_reducible assumption
    | decide
    | (extract_lets -underBinder +onlyGivenNames x; first
      | (with_reducible refine Pass.cut (P := Pages s0) (x := x) ?_ fun hx => ?_; rotate_left; clear_value x; have x := trivial; rotate_left; unfold x; clear x)
      | (guard_hyp x : Mem := _; have x := trivial)
      | (guard_hyp x : _ := _; clear_value x; have x := trivial))
    | with_reducible first
        | apply setObj_pages | apply setEntry_pages | apply shootdown_pages | apply freeLocation_pages
        | apply Pass.foldl (P := Pages s0) | apply Pass.ite (P := Pages s0)
    | (with_reducible refine Pages.upd ?_ rfl rfl rfl rfl rfl rfl rfl; with_reducible assumption)

theorem allocPerform_pages {s0 : State} {s : State} (a : AllocArgs) (record : Nat) (h_s : Pages s0 s) :
    Pages s0 (State.allocPerform s a record).2 := by
  unfold State.allocPerform
  repeat' first
    | with_reducible assumption
    | decide
    | (extract_lets -underBinder +onlyGivenNames x; first
      | (with_reducible refine Pass.cut (P := Pages s0) (x := x) ?_ fun hx => ?_; rotate_left; clear_value x; have x := trivial; rotate_left; unfold x; clear x)
      | (guard_hyp x : _ := _; clear_value x; have x := trivial))
    | with_reducible first
        | apply count_pages | apply raise_pages | apply grant_pages | apply release_pages
        | apply Pass.ite (P := Pages s0)
    | split

theorem allocWork_pages {s0 : State} (t : Machine.Task) :
    PassM (Pages s0) (allocWork t : M Unit) := by
  unfold allocWork
  repeat' first
    | intro _
    | with_reducible assumption
    | (extract_lets -underBinder +onlyGivenNames x; guard_hyp x : _ := _; clear_value x; have x := trivial)
    | with_reducible first
        | apply writeBytes_pages | apply allocPerform_pages | apply PassM.pure | apply PassM.throw | apply PassM.getBind
        | apply PassM.set | apply PassM.bind | apply PassM.ite

theorem popAlloc_pages {s0 : State} {s : State} (h_s : Pages s0 s) :
    Pages s0 (State.popAlloc s) := by
  unfold State.popAlloc
  repeat' first
    | (extract_lets -underBinder +onlyGivenNames x; guard_hyp x : Mem := _; have x := trivial)
    | (with_reducible refine Pages.upd ?_ rfl rfl rfl rfl rfl rfl rfl; with_reducible assumption)

theorem serveAllocTask_pages {s0 : State} {s : State} (t : Machine.Task) (h_s : Pages s0 s) :
    PassO (Pages s0) (State.serveAllocTask s t) := by
  unfold State.serveAllocTask
  repeat' first
    | with_reducible first
        | assumption | apply runWork_pages | apply allocWork_pages | apply popAlloc_pages | apply PassO.next
        | apply PassO.ite

theorem runAlloc_pages {s0 : State} {s : State} (r op : Nat) (h_s : Pages s0 s) :
    PassO (Pages s0) (State.runAlloc s r op) := by
  unfold State.runAlloc
  repeat' first
    | with_reducible first | assumption | apply serveAllocTask_pages | apply PassO.next | apply PassO.ite
    | split

theorem execAlloc_pages {s0 : State} (r : Nat) {s : State} (h_s : Pages s0 s) :
    PassO (Pages s0) (execAlloc r s) := by
  unfold execAlloc
  repeat' with_reducible first | assumption | apply runAlloc_pages

theorem execFree_pages {s0 : State} (r : Nat) {s : State} (h_s : Pages s0 s) :
    PassO (Pages s0) (execFree r s) := by
  unfold execFree
  repeat' with_reducible first | assumption | apply runAlloc_pages

theorem serveRequest_pages {s0 : State} {s : State} (v : Nat) (h_s : Pages s0 s) :
    Pages s0 (State.serveRequest s v) := by
  unfold State.serveRequest
  repeat' first
    | with_reducible assumption
    | decide
    | (extract_lets -underBinder +onlyGivenNames x; guard_hyp x : _ := _; clear_value x; have x := trivial)
    | with_reducible first
        | apply setObj_pages | apply allocPerform_pages | apply popAlloc_pages | apply Pass.ite (P := Pages s0)

theorem refreshMigrating_pages {s0 : State} {s : State} (h_s : Pages s0 s) :
    Pages s0 (State.refreshMigrating s) := by
  unfold State.refreshMigrating
  repeat' first
    | with_reducible assumption
    | decide
    | with_reducible apply setObj_pages

theorem takeTarget_pages {s0 s t : State} {f : Nat} (page : Nat) (toFar : Bool) (h : Pages s0 s)
    (e : s.takeTarget page toFar = some (f, t)) : Pages s0 t := by
  unfold State.takeTarget at e
  extract_lets pl slot i at e
  split at e
  · cases g : s.findFar pl slot i with
    | none => rw [g] at e; cases e
    | some a =>
      rw [g] at e
      cases e
      exact takeFar_pages _ h
  · cases g : s.findNear pl slot i page with
    | none => rw [g] at e; cases e
    | some a =>
      rw [g] at e
      cases e
      exact takeNear_pages _ _ h

theorem migrationFails_pages {s0 : State} {s : State} (toFar : Bool) (asker : Option Nat) (h_s : Pages s0 s) :
    Pages s0 (State.migrationFails s toFar asker) := by
  unfold State.migrationFails
  repeat' first
    | with_reducible assumption
    | (extract_lets -underBinder +onlyGivenNames x; first
      | (with_reducible refine Pass.cut (P := Pages s0) (x := x) ?_ fun hx => ?_; rotate_left; clear_value x; have x := trivial; rotate_left; unfold x; clear x)
      | (guard_hyp x : Mem := _; have x := trivial))
    | with_reducible first | apply raise_pages | apply failTask_pages | apply Pass.ite (P := Pages s0)
    | split
    | (with_reducible refine Pages.upd ?_ rfl rfl rfl rfl rfl rfl rfl; with_reducible assumption)

theorem execMigrationStart_pages {s0 : State} (page : Nat) {s : State} (h_s : Pages s0 s) :
    PassO (Pages s0) (execMigrationStart page s) := by
  unfold execMigrationStart
  repeat' first
    | with_reducible assumption
    | (extract_lets -underBinder +onlyGivenNames x; first
      | (with_reducible refine Pass.cut (P := Pages s0) (x := x) ?_ fun hx => ?_; rotate_left; clear_value x; have x := trivial; rotate_left; unfold x; clear x)
      | (guard_hyp x : Mem := _; have x := trivial)
      | (guard_hyp x : _ := _; clear_value x; have x := trivial))
    | with_reducible first
        | apply setEntry_pages | apply dropLines_pages | apply shootdown_pages | apply refreshMigrating_pages
        | apply migrationFails_pages | apply PassO.next | apply PassO.ite | apply Pass.ite (P := Pages s0)
    | split
    | (with_reducible refine Pages.upd ?_ rfl rfl rfl rfl rfl rfl rfl; with_reducible assumption)
    | with_reducible exact takeTarget_pages _ _ (by assumption) (by assumption)

theorem copyPage_pages {s0 s : State} (src dst : Nat) (h : Pages s0 s) : Pages s0 (s.copyPage src dst) :=
  h.changeMem fun g => memWf_foldl (memWf_memClear g)

theorem heldFails_pages {s0 : State} {s : State} (h : Held) (a : Abort) (h_s : Pages s0 s) :
    Pages s0 (State.heldFails s h a) := by
  unfold State.heldFails
  repeat' first
    | with_reducible assumption
    | decide
    | with_reducible first | apply count_pages | apply failTask_pages | apply Pass.ite (P := Pages s0)
    | split

theorem atomicRefused_pages {s0 : State} {s : State} (h : Held) (h_s : Pages s0 s) :
    Pages s0 (State.atomicRefused s h) := by
  unfold State.atomicRefused
  repeat' first
    | with_reducible assumption
    | decide
    | with_reducible first | apply count_pages | apply Pass.ite (P := Pages s0)

theorem releaseHeld_pages {s0 : State} {s : State} (h : Held) (h_s : Pages s0 s) :
    Pages s0 (State.releaseHeld s h) := by
  unfold State.releaseHeld
  repeat' first
    | with_reducible assumption
    | decide
    | (extract_lets -underBinder +onlyGivenNames x; first
      | (with_reducible refine Pass.cut (P := Pages s0) (x := x) ?_ fun hx => ?_; rotate_left; clear_value x; have x := trivial; rotate_left; unfold x; clear x)
      | (guard_hyp x : _ := _; clear_value x; have x := trivial))
    | with_reducible first
        | apply count_pages | apply noteStale_pages | apply translate_pages | apply refuse_pages
        | apply discardMsg_pages | apply useFreed_pages | apply storeAt_pages | apply performAtomic_pages
        | apply heldFails_pages | apply atomicRefused_pages | apply Pass.ite (P := Pages s0)
    | split

theorem releasePage_pages {s0 : State} {s : State} (page : Nat) (h_s : Pages s0 s) :
    Pages s0 (State.releasePage s page) := by
  unfold State.releasePage
  repeat' first
    | intro _
    | with_reducible assumption
    | (extract_lets -underBinder +onlyGivenNames x; first
      | (with_reducible refine Pass.cut (P := Pages s0) (x := x) ?_ fun hx => ?_; rotate_left; clear_value x; have x := trivial; rotate_left; unfold x; clear x)
      | (guard_hyp x : Mem := _; have x := trivial)
      | (guard_hyp x : _ := _; clear_value x; have x := trivial))
    | with_reducible first | apply releaseHeld_pages | apply Pass.foldl (P := Pages s0)
    | (with_reducible refine Pages.upd ?_ rfl rfl rfl rfl rfl rfl rfl; with_reducible assumption)

theorem endMigration_pages {s0 : State} {s : State} (m : Migration) (ok : Bool) (h_s : Pages s0 s) :
    Pages s0 (State.endMigration s m ok) := by
  unfold State.endMigration
  repeat' first
    | with_reducible assumption
    | decide
    | (extract_lets -underBinder +onlyGivenNames x; first
      | (with_reducible refine Pass.cut (P := Pages s0) (x := x) ?_ fun hx => ?_; rotate_left; clear_value x; have x := trivial; rotate_left; unfold x; clear x)
      | (guard_hyp x : Mem := _; have x := trivial)
      | (guard_hyp x : _ := _; clear_value x; have x := trivial))
    | with_reducible first
        | apply addObj_pages | apply count_pages | apply setEntry_pages | apply translate_pages | apply shootdown_pages
        | apply freeNear_pages | apply freeFar_pages | apply refreshMigrating_pages | apply copyPage_pages
        | apply releasePage_pages | apply Pass.ite (P := Pages s0)
    | split
    | (with_reducible refine Pages.upd ?_ rfl rfl rfl rfl rfl rfl rfl; with_reducible assumption)

theorem execMigrationCopyDone_pages {s0 : State} (page : Nat) {s : State} (h_s : Pages s0 s) :
    PassO (Pages s0) (execMigrationCopyDone page s) := by
  unfold execMigrationCopyDone
  repeat' first
    | with_reducible assumption
    | decide
    | (extract_lets -underBinder +onlyGivenNames x; first
      | (with_reducible refine Pass.cut (P := Pages s0) (x := x) ?_ fun hx => ?_; rotate_left; clear_value x; have x := trivial; rotate_left; unfold x; clear x)
      | (guard_hyp x : _ := _; clear_value x; have x := trivial))
    | with_reducible first
        | apply setObj_pages | apply count_pages | apply noteDenied_pages | apply endMigration_pages | apply PassO.next
        | apply Pass.ite (P := Pages s0)
    | split

theorem execAutoPromote_pages {s0 : State} (page : Nat) {s : State} (h_s : Pages s0 s) :
    PassO (Pages s0) (execAutoPromote page s) := by
  unfold execAutoPromote
  repeat' first
    | with_reducible assumption
    | (extract_lets -underBinder +onlyGivenNames x; first
      | (guard_hyp x : Mem := _; have x := trivial)
      | (guard_hyp x : _ := _; clear_value x; have x := trivial))
    | with_reducible first | apply PassO.next | apply PassO.ite
    | split
    | (with_reducible refine Pages.upd ?_ rfl rfl rfl rfl rfl rfl rfl; with_reducible assumption)

theorem execAccessCountHalving_pages {s0 : State} {s : State} (h_s : Pages s0 s) :
    PassO (Pages s0) (execAccessCountHalving s) := by
  unfold execAccessCountHalving
  repeat' first
    | with_reducible assumption
    | (extract_lets -underBinder +onlyGivenNames x; first
      | (guard_hyp x : Mem := _; have x := trivial)
      | (guard_hyp x : _ := _; clear_value x; have x := trivial))
    | with_reducible first | apply PassO.next | apply PassO.ite
    | (with_reducible refine Pages.upd ?_ rfl rfl rfl rfl rfl rfl rfl; with_reducible assumption)

theorem askFor_pages {s0 : State} {s : State} (page : Nat) (toFar : Bool) (policy r : Nat) (h_s : Pages s0 s) :
    Pages s0 (State.askFor s page toFar policy r) := by
  unfold State.askFor
  repeat' first
    | (extract_lets -underBinder +onlyGivenNames x; guard_hyp x : Mem := _; have x := trivial)
    | (with_reducible refine Pages.upd ?_ rfl rfl rfl rfl rfl rfl rfl; with_reducible assumption)

theorem movePage_pages {s0 : State} (toFar : Bool) (r page : Nat) :
    PassM (Pages s0) (movePage toFar r page : M Unit) := by
  unfold movePage
  repeat' first
    | intro _
    | with_reducible assumption
    | (extract_lets -underBinder +onlyGivenNames x; guard_hyp x : _ := _; clear_value x; have x := trivial)
    | with_reducible first
        | apply mod_pages | apply askFor_pages | apply PassM.pure | apply PassM.getBind | apply PassM.ite

theorem populatePage_pages {s0 : State} (r page : Nat) :
    PassM (Pages s0) (populatePage r page : M Unit) := by
  unfold populatePage
  repeat' first
    | intro _
    | with_reducible assumption
    | (extract_lets -underBinder +onlyGivenNames x; guard_hyp x : _ := _; clear_value x; have x := trivial)
    | with_reducible first
        | apply raise_pages | apply shootdown_pages | apply backPage_pages | apply PassM.pure | apply PassM.throw
        | apply PassM.getBind | apply PassM.set | apply PassM.bind | apply PassM.ite
    | split
    | refine PassOpt.of ?_ (by with_reducible assumption)

theorem discardPage_pages {s0 : State} (page : Nat) :
    PassM (Pages s0) (discardPage page : M Unit) := by
  unfold discardPage
  repeat' first
    | intro _
    | with_reducible assumption
    | (extract_lets -underBinder +onlyGivenNames x; guard_hyp x : _ := _; clear_value x; have x := trivial)
    | with_reducible first
        | apply mod_pages | apply setEntry_pages | apply shootdown_pages | apply freeLocation_pages | apply PassM.pure
        | apply PassM.getBind | apply PassM.ite

theorem policyPage_pages {s0 : State} (policy r page : Nat) :
    PassM (Pages s0) (policyPage policy r page : M Unit) := by
  unfold policyPage
  repeat' first
    | intro _
    | with_reducible assumption
    | (extract_lets -underBinder +onlyGivenNames x; guard_hyp x : _ := _; clear_value x; have x := trivial)
    | with_reducible first
        | apply mod_pages | apply setEntry_pages | apply askFor_pages | apply PassM.pure | apply PassM.getBind
        | apply PassM.bind | apply PassM.ite

theorem pageWork_pages {s0 : State} (one : Machine.Task → Nat → M Unit) (t : Machine.Task) (h_one : ∀ a0 a1, PassM (Pages s0) (one a0 a1)) :
    PassM (Pages s0) (pageWork one t : M Unit) := by
  unfold pageWork
  repeat' first
    | intro _
    | (extract_lets -underBinder +onlyGivenNames x; first
      | (with_reducible refine PassM.cut (P := Pages s0) (x := x) ?_ fun hx => ?_; rotate_left; clear_value x; have x := trivial; rotate_left; unfold x; clear x)
      | (guard_hyp x : _ := _; clear_value x; have x := trivial))
    | with_reducible first
        | apply h_one | apply PassM.throw | apply PassM.getBind | apply PassM.bind | apply PassM.forM
        | apply_assumption -exfalso -symm | apply PassM.ite

theorem runPage_pages {s0 : State} {s : State} (r : Nat) (form : Nat → Bool) (one : Machine.Task → Nat → M Unit) (h_s : Pages s0 s) (h_one : ∀ a0 a1, PassM (Pages s0) (one a0 a1)) :
    PassO (Pages s0) (State.runPage s r form one) := by
  unfold State.runPage
  repeat' first
    | intro _
    | with_reducible first
        | assumption | apply h_one | apply runWork_pages | apply pageWork_pages | apply PassO.next | apply PassO.ite
    | split

theorem execPromote_pages {s0 : State} (r : Nat) {s : State} (h_s : Pages s0 s) :
    PassO (Pages s0) (execPromote r s) := by
  unfold execPromote
  repeat' first
    | intro _
    | with_reducible first | assumption | apply movePage_pages | apply runPage_pages

theorem execDemote_pages {s0 : State} (r : Nat) {s : State} (h_s : Pages s0 s) :
    PassO (Pages s0) (execDemote r s) := by
  unfold execDemote
  repeat' first
    | intro _
    | with_reducible first | assumption | apply movePage_pages | apply runPage_pages

theorem execPopulate_pages {s0 : State} (r : Nat) {s : State} (h_s : Pages s0 s) :
    PassO (Pages s0) (execPopulate r s) := by
  unfold execPopulate
  repeat' first
    | intro _
    | with_reducible first | assumption | apply populatePage_pages | apply runPage_pages

theorem execDiscard_pages {s0 : State} (r : Nat) {s : State} (h_s : Pages s0 s) :
    PassO (Pages s0) (execDiscard r s) := by
  unfold execDiscard
  repeat' first
    | intro _
    | with_reducible first | assumption | apply discardPage_pages | apply runPage_pages

theorem execSetPolicy_pages {s0 : State} (r : Nat) {s : State} (h_s : Pages s0 s) :
    PassO (Pages s0) (execSetPolicy r s) := by
  unfold execSetPolicy
  repeat' first
    | intro _
    | with_reducible first | assumption | apply policyPage_pages | apply runPage_pages

end Sys2Proof.Safety
end

