-- ==== Sys2Proof/Laws/PagesTensor.lean ====
section
/-! SUPPORT. The parts of paging in Machine/Tensor.lean change only what `Pages` allows. -/

namespace Sys2Proof.Safety

open Sys2Proof.Machine

theorem createDesc_pages {s0 : State} (ini : Init) (addr : Nat) :
    PassM (Pages s0) (createDesc ini addr : M (Nat × Nat)) := by
  unfold createDesc
  repeat' first
    | intro _
    | with_reducible assumption
    | decide
    | (extract_lets -underBinder +onlyGivenNames x; first
      | (with_reducible refine PassM.cut (P := Pages s0) (x := x) ?_ fun hx => ?_; rotate_left; clear_value x; have x := trivial; rotate_left; unfold x; clear x)
      | (guard_hyp x : Mem := _; have x := trivial)
      | (guard_hyp x : _ := _; clear_value x; have x := trivial))
    | with_reducible first
        | apply count_pages | apply mod_pages | apply readNat_pages | apply writeNat_pages | apply PassM.pure
        | apply PassM.getBind | apply PassM.set | apply PassM.bind | apply_assumption -exfalso -symm | apply PassM.ite
    | split
    | (with_reducible refine Pages.upd ?_ rfl rfl rfl rfl rfl rfl rfl; with_reducible assumption)

theorem serveCreation_pages {s0 : State} {s : State} (draft : Nat) (h_s : Pages s0 s) :
    Pages s0 (State.serveCreation s draft) := by
  unfold State.serveCreation
  repeat' first
    | with_reducible assumption
    | decide
    | with_reducible first
        | apply setObj_pages | apply count_pages | apply popAlloc_pages | apply createDesc_pages
    | split
    | refine PassM.ok ?_ ?_ (by with_reducible assumption)
    | refine PassM.error ?_ ?_ (by with_reducible assumption)

theorem createWork_pages {s0 : State} (t : Machine.Task) :
    PassM (Pages s0) (createWork t : M Unit) := by
  unfold createWork
  repeat' first
    | intro _
    | (extract_lets -underBinder +onlyGivenNames x; guard_hyp x : _ := _; clear_value x; have x := trivial)
    | with_reducible first
        | apply createDesc_pages | apply PassM.pure | apply PassM.throw | apply PassM.bind | apply PassM.ite

theorem execCreate_pages {s0 : State} (r : Nat) {s : State} (h_s : Pages s0 s) :
    PassO (Pages s0) (execCreate r s) := by
  unfold execCreate
  repeat' first
    | with_reducible first
        | assumption | apply runWork_pages | apply popAlloc_pages | apply createWork_pages | apply PassO.next
        | apply PassO.ite
    | split

theorem serveReserved_pages {s0 : State} {s : State} (t : Machine.Task) (h_s : Pages s0 s) :
    PassO (Pages s0) (State.serveReserved s t) := by
  unfold State.serveReserved
  repeat' with_reducible first | assumption | apply runWork_pages | apply allocWork_pages | apply popAlloc_pages

theorem execAllocatorQueueService_pages {s0 : State} {s : State} (h_s : Pages s0 s) :
    PassO (Pages s0) (execAllocatorQueueService s) := by
  unfold execAllocatorQueueService
  repeat' first
    | with_reducible first
        | assumption | apply execAlloc_pages | apply execFree_pages | apply serveRequest_pages
        | apply serveCreation_pages | apply execCreate_pages | apply serveReserved_pages | apply PassO.next
    | split

end Sys2Proof.Safety
end

