-- ==== Sys2Proof/Laws/PagesErrors.lean ====
section
/-! SUPPORT. The parts of paging in Machine/Errors.lean change only what `Pages` allows. -/

namespace Sys2Proof.Safety

open Sys2Proof.Machine

theorem corrected_pages {s0 : State} {s : State} (loc : Nat) (h_s : Pages s0 s) :
    Pages s0 (State.corrected s loc) := by
  unfold State.corrected
  repeat' first
    | with_reducible assumption
    | decide
    | (extract_lets -underBinder +onlyGivenNames x; guard_hyp x : _ := _; clear_value x; have x := trivial)
    | with_reducible first | apply setObj_pages | apply count_pages | apply setTickEvent_pages

theorem poisoned_pages {s0 : State} {s : State} (stack : Nat) (r : EccReport) (loc : Nat) (h_s : Pages s0 s) :
    Pages s0 (State.poisoned s stack r loc) := by
  unfold State.poisoned
  repeat' first
    | with_reducible assumption
    | (extract_lets -underBinder +onlyGivenNames x; first
      | (guard_hyp x : Mem := _; have x := trivial)
      | (guard_hyp x : _ := _; clear_value x; have x := trivial))
    | with_reducible first | apply uncorrected_pages | apply failTask_pages | apply Pass.ite (P := Pages s0)
    | split
    | (with_reducible refine Pages.upd ?_ rfl rfl rfl rfl rfl rfl rfl; with_reducible assumption)

theorem scrubError_pages {s0 : State} {s : State} (stack : Nat) (r : EccReport) (h_s : Pages s0 s) :
    Pages s0 (State.scrubError s stack r) := by
  unfold State.scrubError
  repeat' first
    | with_reducible assumption
    | (extract_lets -underBinder +onlyGivenNames x; guard_hyp x : _ := _; clear_value x; have x := trivial)
    | with_reducible first | apply corrected_pages | apply poisoned_pages | apply Pass.ite (P := Pages s0)

theorem execScrubPass_pages {s0 : State} (stack : Nat) (reports : List EccReport) {s : State} (h_s : Pages s0 s) :
    PassO (Pages s0) (execScrubPass stack reports s) := by
  unfold execScrubPass
  repeat' first
    | intro _
    | with_reducible assumption
    | (extract_lets -underBinder +onlyGivenNames x; with_reducible refine Pass.cut (P := Pages s0) (x := x) ?_ fun hx => ?_; rotate_left; clear_value x; have x := trivial; rotate_left; unfold x; clear x)
    | with_reducible first
        | apply uncorrected_pages | apply scrubError_pages | apply PassO.next | apply Pass.foldl (P := Pages s0)
        | apply PassO.ite

end Sys2Proof.Safety
end

