-- ==== Sys2Proof/Laws/KeepsOps.lean ====
section
/-! SUPPORT. The commands' parts in Machine/Ops.lean keep what `Keeps` names. -/

namespace Sys2Proof.Safety

open Sys2Proof.Machine

theorem setObj_keeps {s0 s : State} (key v : Nat) (h : Keeps s0 s) : Keeps s0 (s.setObj key v) := setObj_kept _ _ h

theorem setPend_keeps {s0 s : State} (key v : Nat) (h : Keeps s0 s) : Keeps s0 (s.setPend key v) :=
  h.shrink id rising_mapPut (Nat.le_refl _) (Nat.le_refl _) id (Nat.le_refl _) List.prefix_rfl
    List.prefix_rfl List.prefix_rfl

theorem addObj_keeps {s0 : State} {s : State} (key n : Nat) (h_s : Keeps s0 s) :
    Keeps s0 (State.addObj s key n) := by
  unfold State.addObj
  repeat' with_reducible first | assumption | apply setObj_keeps | apply Pass.ite (P := Keeps s0)

theorem count_keeps {s0 : State} {s : State} (key : Nat) (h_s : Keeps s0 s) :
    Keeps s0 (State.count s key) := by
  unfold State.count
  repeat' with_reducible first | assumption | apply addObj_keeps

theorem takeFree_keeps {s0 : State} (w : Nat) {s : State} (h_s : Keeps s0 s) :
    Keeps s0 (State.takeFree w s).2 :=
  h_s.trans (Works.keeps (takeFree_works _ (Works.refl _)))

theorem emit_keeps {s0 : State} {s : State} (o : Out) (h_s : Keeps s0 s) :
    Keeps s0 (State.emit s o) :=
  h_s.trans (Works.keeps (emit_works _ (Works.refl _)))

theorem armVector_keeps {s0 : State} {s : State} (v : Nat) (h_s : Keeps s0 s) :
    Keeps s0 (State.armVector s v) :=
  h_s.trans (Works.keeps (armVector_works _ (Works.refl _)))

theorem appendEvent_keeps {s0 : State} {s : State} (e : EventRec) (h_s : Keeps s0 s) :
    Keeps s0 (State.appendEvent s e) :=
  h_s.trans (Works.keeps (appendEvent_works _ (Works.refl _)))

theorem raise_keeps {s0 : State} {s : State} (code source unit : Nat) (w0 : Nat) (w1 : Nat) (w2 : Nat) (w3 : Nat) (w4 : Nat) (h_s : Keeps s0 s) :
    Keeps s0 (State.raise s code source unit w0 w1 w2 w3 w4) :=
  h_s.trans (Works.keeps (raise_works _ _ _ _ _ _ _ _ (Works.refl _)))

theorem setTickEvent_keeps {s0 : State} {s : State} (e : EventRec) (h_s : Keeps s0 s) :
    Keeps s0 (State.setTickEvent s e) :=
  h_s.trans (Works.keeps (setTickEvent_works _ (Works.refl _)))

theorem raiseBoundary_keeps {s0 : State} {s : State} (es : List EventRec) (h_s : Keeps s0 s) :
    Keeps s0 (State.raiseBoundary s es) := by
  unfold State.raiseBoundary
  repeat' first
    | intro _
    | with_reducible assumption
    | (extract_lets -underBinder +onlyGivenNames x; first
      | (guard_hyp x : Dict := _; have x := trivial)
      | (guard_hyp x : _ := _; clear_value x; have x := trivial))
    | with_reducible first | apply appendEvent_keeps | apply Pass.foldl (P := Keeps s0)
    | (with_reducible refine Keeps.upd ?_ rfl rfl rfl rfl rfl rfl rfl rfl rfl; with_reducible assumption)

theorem noteTask_keeps {s0 : State} {s : State} (code source unit r w2 w3 w4 : Nat) (h_s : Keeps s0 s) :
    Keeps s0 (State.noteTask s code source unit r w2 w3 w4) := by
  unfold State.noteTask
  repeat' first
    | with_reducible first | assumption | apply setTickEvent_keeps | apply Pass.ite (P := Keeps s0)
    | split

theorem noteStale_keeps {s0 : State} {s : State} (h_s : Keeps s0 s) :
    Keeps s0 (State.noteStale s) :=
  h_s.trans (Works.keeps (noteStale_works (Works.refl _)))

theorem noteDenied_keeps {s0 : State} {s : State} (cls unit address kind : Nat) (h_s : Keeps s0 s) :
    Keeps s0 (State.noteDenied s cls unit address kind) :=
  h_s.trans (Works.keeps (noteDenied_works _ _ _ _ (Works.refl _)))

theorem uncorrected_keeps {s0 : State} {s : State} (loc record : Nat) (h_s : Keeps s0 s) :
    Keeps s0 (State.uncorrected s loc record) :=
  h_s.trans (Works.keeps (uncorrected_works _ _ (Works.refl _)))

theorem haltWith_keeps {s0 : State} {s : State} (cause record : Nat) (h_s : Keeps s0 s) :
    Keeps s0 (State.haltWith s cause record) :=
  h_s.trans (Works.keeps (haltWith_works _ _ (Works.refl _)))

theorem taskFault_keeps {s0 : State} {s : State} (source unit record cause detail : Nat) (h_s : Keeps s0 s) :
    Keeps s0 (State.taskFault s source unit record cause detail) :=
  h_s.trans (Works.keeps (taskFault_works _ _ _ _ _ (Works.refl _)))

theorem mod_keeps {s0 : State} (f : State → State) (h_f : ∀ y : State, Keeps s0 y → Keeps s0 (f y)) :
    PassM (Keeps s0) (mod f) := PassM.mod h_f

theorem freeM_keeps {s0 : State} (w : Nat) :
    PassM (Keeps s0) (freeM w : M Nat) :=
  .carry (fun _ => freeM_works _) Works.refl fun _ _ h k => h.trans (Works.keeps k)

end Sys2Proof.Safety
end

