-- ==== Sys2Proof/Laws/KeepsArrays.lean ====
section
/-! SUPPORT. The commands' parts in Machine/Arrays.lean keep what `Keeps` names. -/

namespace Sys2Proof.Safety

open Sys2Proof.Machine

theorem setArray_keeps {s0 : State} {s : State} (t : Nat) (a : ArrayState) (h_s : Keeps s0 s) :
    Keeps s0 (State.setArray s t a) := by
  unfold State.setArray
  repeat' first
    | (extract_lets -underBinder +onlyGivenNames x; guard_hyp x : Numerics := _; have x := trivial)
    | split
    | (with_reducible refine Keeps.upd ?_ rfl rfl rfl rfl rfl rfl rfl rfl rfl; with_reducible assumption)

theorem setBusy_keeps {s0 : State} {s : State} (t phase : Nat) (busy : Bool) (h_s : Keeps s0 s) :
    Keeps s0 (State.setBusy s t phase busy) := by
  unfold State.setBusy
  repeat' first
    | with_reducible assumption
    | (extract_lets -underBinder +onlyGivenNames x; guard_hyp x : _ := _; clear_value x; have x := trivial)
    | with_reducible apply setArray_keeps

theorem endArrays_keeps {s0 : State} {s : State} (length : Nat) (h_s : Keeps s0 s) :
    Keeps s0 (State.endArrays s length) := by
  unfold State.endArrays
  repeat' first
    | intro _
    | with_reducible assumption
    | (extract_lets -underBinder +onlyGivenNames x; guard_hyp x : _ := _; clear_value x; have x := trivial)
    | with_reducible first | apply setArray_keeps | apply Pass.foldl (P := Keeps s0)

theorem fillSram_keeps {s0 s : State} (tile : Nat) (h : Keeps s0 s) : Keeps s0 (s.fillSram tile) :=
  (h.addFree (n := 1)).upd rfl rfl rfl rfl rfl rfl rfl rfl rfl

theorem clearSram_keeps {s0 : State} {s : State} (p : Nat → Bool) (h_s : Keeps s0 s) :
    Keeps s0 (State.clearSram s p) := by
  unfold State.clearSram
  repeat' first
    | (extract_lets -underBinder +onlyGivenNames x; guard_hyp x : Numerics := _; have x := trivial)
    | (with_reducible refine Keeps.upd ?_ rfl rfl rfl rfl rfl rfl rfl rfl rfl; with_reducible assumption)

end Sys2Proof.Safety
end

