-- ==== Sys2Proof/Laws/KeepsMemory.lean ====
section
/-! SUPPORT. The commands' parts in Machine/Memory.lean keep what `Keeps` names. -/

namespace Sys2Proof.Safety

open Sys2Proof.Machine

theorem setEntry_keeps {s0 : State} {s : State} (page e : Nat) (h_s : Keeps s0 s) :
    Keeps s0 (State.setEntry s page e) := by
  unfold State.setEntry
  repeat' first
    | (extract_lets -underBinder +onlyGivenNames x; guard_hyp x : Mem := _; have x := trivial)
    | (with_reducible refine Keeps.upd ?_ rfl rfl rfl rfl rfl rfl rfl rfl rfl; with_reducible assumption)

theorem dropLines_keeps {s0 : State} {s : State} (p : Nat → Bool) (writeBack : Bool) (h_s : Keeps s0 s) :
    Keeps s0 (State.dropLines s p writeBack) :=
  h_s.trans (Pages.keeps (dropLines_pages _ _ (Pages.refl _)))

theorem loseCache_keeps {s0 s : State} (h : Keeps s0 s) : Keeps s0 s.loseCache :=
  setObj_kept _ _ (h.changeMem memWf_foldl)

theorem shootdown_keeps {s0 : State} {s : State} (page : Nat) (h_s : Keeps s0 s) :
    Keeps s0 (State.shootdown s page) :=
  h_s.trans (Pages.keeps (shootdown_pages _ (Pages.refl _)))

theorem flushCounts_keeps {s0 : State} {s : State} (h_s : Keeps s0 s) :
    Keeps s0 (State.flushCounts s) :=
  h_s.trans (Collects.keeps (flushCounts_collects (Collects.refl _)))

theorem scrambleJob_keeps {s0 : State} {s : State} (h_s : Keeps s0 s) :
    Keeps s0 (State.scrambleJob s) :=
  h_s.trans (Works.keeps (scrambleJob_works (Works.refl _)))

theorem readBytes_keeps {s0 : State} (i : Init) (req : Req) (va n : Nat) :
    PassM (Keeps s0) (readBytes i req va n : M (List Byte)) :=
  .carry (fun _ => readBytes_works _ _ _ _) Works.refl fun _ _ h k => h.trans (Works.keeps k)

theorem writeBytes_keeps {s0 : State} (i : Init) (req : Req) (va : Nat) (bs : List Byte) :
    PassM (Keeps s0) (writeBytes i req va bs : M Unit) :=
  .carry (fun _ => writeBytes_works _ _ _ _) Works.refl fun _ _ h k => h.trans (Works.keeps k)

theorem readNat_keeps {s0 : State} (i : Init) (req : Req) (va n : Nat) :
    PassM (Keeps s0) (readNat i req va n : M Nat) :=
  .carry (fun _ => readNat_works _ _ _ _) Works.refl fun _ _ h k => h.trans (Works.keeps k)

theorem writeNat_keeps {s0 : State} (i : Init) (req : Req) (va n v : Nat) :
    PassM (Keeps s0) (writeNat i req va n v : M Unit) :=
  .carry (fun _ => writeNat_works _ _ _ _ _) Works.refl fun _ _ h k => h.trans (Works.keeps k)

end Sys2Proof.Safety
end

