-- ==== Sys2Proof/Laws/KeepsLinks.lean ====
section
/-! SUPPORT. The commands' parts in Machine/Links.lean keep what `Keeps` names. -/

namespace Sys2Proof.Safety

open Sys2Proof.Machine

theorem setPort_keeps {s0 : State} {s : State} (p : Nat) (q : Port) (h_s : Keeps s0 s) :
    Keeps s0 (State.setPort s p q) :=
  h_s.trans (Collects.keeps (setPort_collects _ _ (Collects.refl _)))

theorem refreshPortsUp_keeps {s0 : State} {s : State} (h_s : Keeps s0 s) :
    Keeps s0 (State.refreshPortsUp s) := by
  unfold State.refreshPortsUp
  repeat' with_reducible first | assumption | apply setObj_keeps

theorem refreshSessions_keeps {s0 : State} {s : State} (h_s : Keeps s0 s) :
    Keeps s0 (State.refreshSessions s) := by
  unfold State.refreshSessions
  repeat' with_reducible first | assumption | apply setObj_keeps

theorem endSessions_keeps {s0 : State} {s : State} (channel : Nat) (h_s : Keeps s0 s) :
    Keeps s0 (State.endSessions s channel) := by
  unfold State.endSessions
  repeat' first
    | (extract_lets -underBinder +onlyGivenNames x; guard_hyp x : Security := _; have x := trivial)
    | with_reducible apply refreshSessions_keeps
    | (with_reducible refine Keeps.upd ?_ rfl rfl rfl rfl rfl rfl rfl rfl rfl; with_reducible assumption)

theorem emitFlit_keeps {s0 : State} {s : State} (p header : Nat) (payload : List Byte) (h_s : Keeps s0 s) :
    Keeps s0 (State.emitFlit s p header payload) := by
  unfold State.emitFlit
  repeat' first
    | with_reducible assumption
    | (extract_lets -underBinder +onlyGivenNames x; guard_hyp x : _ := _; clear_value x; have x := trivial)
    | with_reducible first | apply emit_keeps | apply setPort_keeps

theorem oweCredit_keeps {s0 : State} {s : State} (p vc n : Nat) (h_s : Keeps s0 s) :
    Keeps s0 (State.oweCredit s p vc n) := by
  unfold State.oweCredit
  repeat' first
    | with_reducible assumption
    | (extract_lets -underBinder +onlyGivenNames x; guard_hyp x : _ := _; clear_value x; have x := trivial)
    | with_reducible apply setPort_keeps

theorem leaveBuffer_keeps {s0 : State} {s : State} (f : TxFlit) (h_s : Keeps s0 s) :
    Keeps s0 (State.leaveBuffer s f) := by
  unfold State.leaveBuffer
  repeat' with_reducible first | assumption | apply oweCredit_keeps | apply Pass.ite (P := Keeps s0)

theorem returnCredits_keeps {s0 : State} {s : State} (p : Nat) (h_s : Keeps s0 s) :
    Keeps s0 (State.returnCredits s p) := by
  unfold State.returnCredits
  repeat' first
    | intro _
    | with_reducible assumption
    | (extract_lets -underBinder +onlyGivenNames x; guard_hyp x : _ := _; clear_value x; have x := trivial)
    | with_reducible first
        | apply setPort_keeps | apply emitFlit_keeps | apply Pass.foldl (P := Keeps s0) | apply Pass.ite (P := Keeps s0)

theorem returnAll_keeps {s0 : State} {s : State} (h_s : Keeps s0 s) :
    Keeps s0 (State.returnAll s) := by
  unfold State.returnAll
  repeat' first
    | intro _
    | with_reducible first | assumption | apply returnCredits_keeps | apply Pass.foldl (P := Keeps s0)

theorem sendFlit_keeps {s0 : State} {s : State} (p : Nat) (f : TxFlit) (h_s : Keeps s0 s) :
    Keeps s0 (State.sendFlit s p f) := by
  unfold State.sendFlit
  repeat' first
    | with_reducible assumption
    | (extract_lets -underBinder +onlyGivenNames x; guard_hyp x : _ := _; clear_value x; have x := trivial)
    | with_reducible first
        | apply addObj_keeps | apply setPort_keeps | apply emitFlit_keeps | apply leaveBuffer_keeps
        | apply Pass.ite (P := Keeps s0)

theorem sendMany_keeps {s0 s : State} (p n : Nat) (h : Keeps s0 s) : Keeps s0 (s.sendMany p n) := by
  induction n generalizing s with
  | zero => exact h
  | succ n ih =>
    unfold State.sendMany
    split
    · exact h
    · exact ih (sendFlit_keeps _ _ h)

theorem pump_keeps {s0 : State} {s : State} (p : Nat) (h_s : Keeps s0 s) :
    Keeps s0 (State.pump s p) := by
  unfold State.pump
  repeat' first
    | with_reducible first
        | assumption | apply returnAll_keeps | apply sendMany_keeps | apply Pass.ite (P := Keeps s0)

theorem queueFlits_keeps {s0 : State} {s : State} (p : Nat) (fs : List TxFlit) (h_s : Keeps s0 s) :
    Keeps s0 (State.queueFlits s p fs) := by
  unfold State.queueFlits
  repeat' first
    | with_reducible assumption
    | (extract_lets -underBinder +onlyGivenNames x; guard_hyp x : _ := _; clear_value x; have x := trivial)
    | with_reducible first | apply setPort_keeps | apply pump_keeps

theorem sendControl_keeps {s0 : State} {s : State} (p : Nat) (payload : List Byte) (h_s : Keeps s0 s) :
    Keeps s0 (State.sendControl s p payload) := by
  unfold State.sendControl
  repeat' with_reducible first | assumption | apply queueFlits_keeps

theorem sendTwin_keeps {s0 : State} {s : State} (vc param kind : Nat) (data : List Byte) (h_s : Keeps s0 s) :
    Keeps s0 (State.sendTwin s vc param kind data) :=
  h_s.trans (Collects.keeps (sendTwin_collects _ _ _ _ (Collects.refl _)))

theorem placeInTree_keeps {s0 : State} {s : State} (h_s : Keeps s0 s) :
    Keeps s0 (State.placeInTree s) := by
  unfold State.placeInTree
  repeat' first
    | with_reducible assumption
    | (extract_lets -underBinder +onlyGivenNames x; first
      | (with_reducible refine Pass.cut (P := Keeps s0) (x := x) ?_ fun hx => ?_; rotate_left; clear_value x; have x := trivial; rotate_left; unfold x; clear x)
      | (guard_hyp x : Timing := _; have x := trivial)
      | (guard_hyp x : _ := _; clear_value x; have x := trivial))
    | with_reducible first | apply setObj_keeps | apply Pass.ite (P := Keeps s0)
    | split
    | (with_reducible refine Keeps.upd ?_ rfl rfl rfl rfl rfl rfl rfl rfl rfl; with_reducible assumption)

theorem abortIncoming_keeps {s0 : State} {s : State} (p : Nat) (i : Incoming) (h_s : Keeps s0 s) :
    Keeps s0 (State.abortIncoming s p i) := by
  unfold State.abortIncoming
  repeat' first
    | with_reducible assumption
    | (extract_lets -underBinder +onlyGivenNames x; first
      | (with_reducible refine Pass.cut (P := Keeps s0) (x := x) ?_ fun hx => ?_; rotate_left; clear_value x; have x := trivial; rotate_left; unfold x; clear x)
      | (guard_hyp x : _ := _; clear_value x; have x := trivial))
    | with_reducible first
        | apply count_keeps | apply setPort_keeps | apply oweCredit_keeps | apply pump_keeps | apply sendControl_keeps
        | apply Pass.ite (P := Keeps s0)
    | split

theorem loseCuts_keeps {s0 : State} {s : State} (p : Nat) (h_s : Keeps s0 s) :
    Keeps s0 (State.loseCuts s p) := by
  unfold State.loseCuts
  repeat' first
    | with_reducible assumption
    | (extract_lets -underBinder +onlyGivenNames x; first
      | (with_reducible refine Pass.cut (P := Keeps s0) (x := x) ?_ fun hx => ?_; rotate_left; clear_value x; have x := trivial; rotate_left; unfold x; clear x)
      | (guard_hyp x : _ := _; clear_value x; have x := trivial))
    | with_reducible apply addObj_keeps
    | (with_reducible refine Keeps.upd ?_ rfl rfl rfl rfl rfl rfl rfl rfl rfl; with_reducible assumption)

theorem linkDown_keeps {s0 : State} {s : State} (p st cause : Nat) (h_s : Keeps s0 s) :
    Keeps s0 (State.linkDown s p st cause) := by
  unfold State.linkDown
  repeat' first
    | intro _
    | with_reducible assumption
    | (extract_lets -underBinder +onlyGivenNames x; first
      | (with_reducible refine Pass.cut (P := Keeps s0) (x := x) ?_ fun hx => ?_; rotate_left; clear_value x; have x := trivial; rotate_left; unfold x; clear x)
      | (guard_hyp x : _ := _; clear_value x; have x := trivial))
    | with_reducible first
        | apply setObj_keeps | apply count_keeps | apply raise_keeps | apply setPort_keeps | apply refreshPortsUp_keeps
        | apply endSessions_keeps | apply leaveBuffer_keeps | apply returnAll_keeps | apply placeInTree_keeps
        | apply abortIncoming_keeps | apply loseCuts_keeps | apply Pass.foldl (P := Keeps s0)
        | apply Pass.ite (P := Keeps s0)

theorem badFlit_keeps {s0 : State} {s : State} (p : Nat) (h_s : Keeps s0 s) :
    Keeps s0 (State.badFlit s p) := by
  unfold State.badFlit
  repeat' first
    | with_reducible assumption
    | (extract_lets -underBinder +onlyGivenNames x; guard_hyp x : _ := _; clear_value x; have x := trivial)
    | with_reducible first | apply setPort_keeps | apply emitFlit_keeps | apply Pass.ite (P := Keeps s0)

theorem applyAck_keeps {s0 : State} {s : State} (p header : Nat) (h_s : Keeps s0 s) :
    Keeps s0 (State.applyAck s p header) := by
  unfold State.applyAck
  repeat' first
    | with_reducible assumption
    | (extract_lets -underBinder +onlyGivenNames x; guard_hyp x : _ := _; clear_value x; have x := trivial)
    | with_reducible apply setPort_keeps

theorem checkFlit_keeps {s0 : State} {s : State} (p : Nat) (f : RxFlit) (h_s : Keeps s0 s) :
    Keeps s0 (State.checkFlit s p f).2 := by
  unfold State.checkFlit
  repeat' first
    | with_reducible assumption
    | (extract_lets -underBinder +onlyGivenNames x; first
      | (with_reducible refine Pass.cut (P := Keeps s0) (x := x) ?_ fun hx => ?_; rotate_left; clear_value x; have x := trivial; rotate_left; unfold x; clear x)
      | (guard_hyp x : _ := _; clear_value x; have x := trivial))
    | with_reducible first
        | apply addObj_keeps | apply count_keeps | apply setPort_keeps | apply badFlit_keeps | apply applyAck_keeps
        | apply Pass.ite (P := Keeps s0)
    | split

theorem deliver_keeps {s0 : State} {s : State} (p : Nat) (m : Msg) (h_s : Keeps s0 s) :
    Keeps s0 (State.deliver s p m) := by
  unfold State.deliver
  repeat' first
    | with_reducible assumption
    | (extract_lets -underBinder +onlyGivenNames x; guard_hyp x : _ := _; clear_value x; have x := trivial)
    | with_reducible first | apply count_keeps | apply setPort_keeps | apply Pass.ite (P := Keeps s0)

theorem takeData_keeps {s0 : State} {s : State} (p vc : Nat) (payload : List Byte) (h_s : Keeps s0 s) :
    Keeps s0 (State.takeData s p vc payload) := by
  unfold State.takeData
  repeat' first
    | with_reducible assumption
    | (extract_lets -underBinder +onlyGivenNames x; first
      | (with_reducible refine Pass.cut (P := Keeps s0) (x := x) ?_ fun hx => ?_; rotate_left; clear_value x; have x := trivial; rotate_left; unfold x; clear x)
      | (guard_hyp x : _ := _; clear_value x; have x := trivial))
    | with_reducible first
        | apply setPort_keeps | apply oweCredit_keeps | apply queueFlits_keeps | apply deliver_keeps
        | apply Pass.ite (P := Keeps s0)
    | split

theorem execDataFlitReceive_keeps {s0 : State} (port : Nat) (flit : RxFlit) {s : State} (h_s : Keeps s0 s) :
    PassO (Keeps s0) (execDataFlitReceive port flit s) := by
  unfold execDataFlitReceive
  repeat' first
    | with_reducible first
        | assumption | apply pump_keeps | apply checkFlit_keeps | apply takeData_keeps | apply PassO.next
        | apply PassO.ite
    | split
    | (with_reducible refine Keeps.upd ?_ rfl rfl rfl rfl rfl rfl rfl rfl rfl; with_reducible refine Pass.of_snd (P := Keeps s0) ?_ (by assumption))

theorem execIdleFlitReceive_keeps {s0 : State} (port : Nat) (flit : RxFlit) {s : State} (h_s : Keeps s0 s) :
    PassO (Keeps s0) (execIdleFlitReceive port flit s) := by
  unfold execIdleFlitReceive
  repeat' first
    | with_reducible first
        | assumption | apply pump_keeps | apply checkFlit_keeps | apply PassO.next | apply PassO.ite
    | split
    | (with_reducible refine Keeps.upd ?_ rfl rfl rfl rfl rfl rfl rfl rfl rfl; with_reducible refine Pass.of_snd (P := Keeps s0) ?_ (by assumption))

theorem resendAll_keeps {s0 : State} {s : State} (p : Nat) (h_s : Keeps s0 s) :
    Keeps s0 (State.resendAll s p) := by
  unfold State.resendAll
  repeat' first
    | intro _
    | with_reducible assumption
    | (extract_lets -underBinder +onlyGivenNames x; guard_hyp x : _ := _; clear_value x; have x := trivial)
    | with_reducible first
        | apply count_keeps | apply setPort_keeps | apply emitFlit_keeps | apply Pass.foldl (P := Keeps s0)

theorem execNakReceive_keeps {s0 : State} (port : Nat) (flit : RxFlit) {s : State} (h_s : Keeps s0 s) :
    PassO (Keeps s0) (execNakReceive port flit s) := by
  unfold execNakReceive
  repeat' first
    | with_reducible assumption
    | (extract_lets -underBinder +onlyGivenNames x; guard_hyp x : _ := _; clear_value x; have x := trivial)
    | with_reducible first
        | apply setPort_keeps | apply pump_keeps | apply linkDown_keeps | apply checkFlit_keeps | apply resendAll_keeps
        | apply PassO.next | apply PassO.ite
    | split
    | (with_reducible refine Keeps.upd ?_ rfl rfl rfl rfl rfl rfl rfl rfl rfl; with_reducible refine Pass.of_snd (P := Keeps s0) ?_ (by assumption))

theorem onControl_keeps {s0 : State} {s : State} (port type : Nat) (flit : RxFlit) (act : List Byte → State → State) (h_s : Keeps s0 s) (h_act : ∀ a0 (y : State), Keeps s0 y → Keeps s0 (act a0 y)) :
    Keeps s0 (State.onControl s port type flit act) := by
  unfold State.onControl
  repeat' first
    | with_reducible first
        | assumption | apply h_act | apply pump_keeps | apply checkFlit_keeps | apply Pass.ite (P := Keeps s0)
    | split
    | (with_reducible refine Keeps.upd ?_ rfl rfl rfl rfl rfl rfl rfl rfl rfl; with_reducible refine Pass.of_snd (P := Keeps s0) ?_ (by assumption))

theorem noteTrip_keeps {s0 : State} {s : State} (p : Nat) (rtt : Int) (h_s : Keeps s0 s) :
    Keeps s0 (State.noteTrip s p rtt) := by
  unfold State.noteTrip
  repeat' first
    | with_reducible assumption
    | (extract_lets -underBinder +onlyGivenNames x; guard_hyp x : _ := _; clear_value x; have x := trivial)
    | with_reducible first | apply setObj_keeps | apply setPort_keeps

theorem useOffset_keeps {s0 : State} {s : State} (offset : Int) (h_s : Keeps s0 s) :
    Keeps s0 (State.useOffset s offset) := by
  unfold State.useOffset
  repeat' first
    | (extract_lets -underBinder +onlyGivenNames x; guard_hyp x : Timing := _; have x := trivial)
    | with_reducible apply setObj_keeps
    | (with_reducible refine Keeps.upd ?_ rfl rfl rfl rfl rfl rfl rfl rfl rfl; with_reducible assumption)

theorem planJoin_keeps {s0 : State} {s : State} (h_s : Keeps s0 s) :
    Keeps s0 (State.planJoin s) := by
  unfold State.planJoin
  repeat' first
    | (extract_lets -underBinder +onlyGivenNames x; first
      | (guard_hyp x : Timing := _; have x := trivial)
      | (guard_hyp x : _ := _; clear_value x; have x := trivial))
    | split
    | (with_reducible refine Keeps.upd ?_ rfl rfl rfl rfl rfl rfl rfl rfl rfl; with_reducible assumption)

theorem adoptCounter_keeps {s0 : State} {s : State} (counter : Nat) (h_s : Keeps s0 s) :
    Keeps s0 (State.adoptCounter s counter) := by
  unfold State.adoptCounter
  repeat' first
    | with_reducible assumption
    | (extract_lets -underBinder +onlyGivenNames x; first
      | (with_reducible refine Pass.cut (P := Keeps s0) (x := x) ?_ fun hx => ?_; rotate_left; clear_value x; have x := trivial; rotate_left; unfold x; clear x)
      | (guard_hyp x : Timing := _; have x := trivial))
    | with_reducible first | apply scrambleJob_keeps | apply Pass.ite (P := Keeps s0)
    | (with_reducible refine Keeps.upd ?_ rfl rfl rfl rfl rfl rfl rfl rfl rfl; with_reducible assumption)

theorem takeStamp_keeps {s0 : State} {s : State} (p : Nat) (t : Stamp) (h_s : Keeps s0 s) :
    Keeps s0 (State.takeStamp s p t) := by
  unfold State.takeStamp
  repeat' first
    | with_reducible assumption
    | (extract_lets -underBinder +onlyGivenNames x; first
      | (with_reducible refine Pass.cut (P := Keeps s0) (x := x) ?_ fun hx => ?_; rotate_left; clear_value x; have x := trivial; rotate_left; unfold x; clear x)
      | (guard_hyp x : _ := _; clear_value x; have x := trivial))
    | with_reducible first
        | apply setPort_keeps | apply placeInTree_keeps | apply noteTrip_keeps | apply useOffset_keeps
        | apply planJoin_keeps | apply adoptCounter_keeps | apply Pass.ite (P := Keeps s0)
    | split

theorem execTimestampReceive_keeps {s0 : State} (port : Nat) (flit : RxFlit) {s : State} (h_s : Keeps s0 s) :
    PassO (Keeps s0) (execTimestampReceive port flit s) := by
  unfold execTimestampReceive
  repeat' first
    | intro _
    | with_reducible first | assumption | apply onControl_keeps | apply takeStamp_keeps | apply PassO.next

theorem execTimestampSend_keeps {s0 : State} (port phase : Nat) {s : State} (h_s : Keeps s0 s) :
    PassO (Keeps s0) (execTimestampSend port phase s) := by
  unfold execTimestampSend
  repeat' first
    | with_reducible assumption
    | (extract_lets -underBinder +onlyGivenNames x; guard_hyp x : _ := _; clear_value x; have x := trivial)
    | with_reducible first | apply setPort_keeps | apply sendControl_keeps | apply PassO.next | apply PassO.ite

theorem execAbortReceive_keeps {s0 : State} (port : Nat) (flit : RxFlit) {s : State} (h_s : Keeps s0 s) :
    PassO (Keeps s0) (execAbortReceive port flit s) := by
  unfold execAbortReceive
  repeat' first
    | intro _
    | with_reducible assumption
    | (extract_lets -underBinder +onlyGivenNames x; guard_hyp x : _ := _; clear_value x; have x := trivial)
    | with_reducible first
        | apply setPort_keeps | apply abortIncoming_keeps | apply onControl_keeps | apply PassO.next
    | split

theorem execAttachReceive_keeps {s0 : State} (port : Nat) (flit : RxFlit) (info : AttachInfo) {s : State} (h_s : Keeps s0 s) :
    PassO (Keeps s0) (execAttachReceive port flit info s) := by
  unfold execAttachReceive
  repeat' first
    | intro _
    | with_reducible assumption
    | (extract_lets -underBinder +onlyGivenNames x; first
      | (with_reducible refine Pass.cut (P := Keeps s0) (x := x) ?_ fun hx => ?_; rotate_left; clear_value x; have x := trivial; rotate_left; unfold x; clear x)
      | (guard_hyp x : _ := _; clear_value x; have x := trivial))
    | with_reducible first
        | apply setObj_keeps | apply setPort_keeps | apply onControl_keeps | apply PassO.next | apply PassO.ite

theorem execKeyUpdateReceive_keeps {s0 : State} (port : Nat) (flit : RxFlit) {s : State} (h_s : Keeps s0 s) :
    PassO (Keeps s0) (execKeyUpdateReceive port flit s) := by
  unfold execKeyUpdateReceive
  repeat' first
    | intro _
    | with_reducible assumption
    | (extract_lets -underBinder +onlyGivenNames x; guard_hyp x : _ := _; clear_value x; have x := trivial)
    | with_reducible first | apply setPort_keeps | apply onControl_keeps | apply PassO.next | apply PassO.ite
    | split

theorem execKeyUpdateSend_keeps {s0 : State} (port slot : Nat) {s : State} (h_s : Keeps s0 s) :
    PassO (Keeps s0) (execKeyUpdateSend port slot s) := by
  unfold execKeyUpdateSend
  repeat' first
    | with_reducible assumption
    | (extract_lets -underBinder +onlyGivenNames x; guard_hyp x : _ := _; clear_value x; have x := trivial)
    | with_reducible first
        | apply setPort_keeps | apply pump_keeps | apply sendControl_keeps | apply PassO.next | apply PassO.ite
    | split

theorem follow_keeps {s0 : State} {s : State} (port : Nat) (i : Incoming) (c : Course) (h_s : Keeps s0 s) :
    Keeps s0 (State.follow s port i c) := by
  unfold State.follow
  repeat' first
    | intro _
    | with_reducible assumption
    | (extract_lets -underBinder +onlyGivenNames x; first
      | (with_reducible refine Pass.cut (P := Keeps s0) (x := x) ?_ fun hx => ?_; rotate_left; clear_value x; have x := trivial; rotate_left; unfold x; clear x)
      | (with_reducible refine Pass.cutFa (P := Keeps s0) (x := x) ?_ fun hx => ?_; rotate_left; clear_value x; have x := trivial; rotate_left; unfold x; clear x)
      | (guard_hyp x : _ := _; clear_value x; have x := trivial))
    | with_reducible first
        | apply count_keeps | apply setPort_keeps | apply oweCredit_keeps | apply pump_keeps | apply queueFlits_keeps
        | apply deliver_keeps | apply_assumption -exfalso -symm | apply Pass.ite (P := Keeps s0)
    | split

theorem execMessageForward_keeps {s0 : State} (port vc : Nat) {s : State} (h_s : Keeps s0 s) :
    PassO (Keeps s0) (execMessageForward port vc s) := by
  unfold execMessageForward
  repeat' first
    | with_reducible first | assumption | apply follow_keeps | apply PassO.next | apply PassO.ite
    | split

theorem execRetrainInterval_keeps {s0 : State} (port : Nat) {s : State} (h_s : Keeps s0 s) :
    PassO (Keeps s0) (execRetrainInterval port s) := by
  unfold execRetrainInterval
  repeat' with_reducible first | assumption | apply setObj_keeps | apply PassO.next | apply PassO.ite

theorem execTrainingComplete_keeps {s0 : State} (port peerRates : Nat) {s : State} (h_s : Keeps s0 s) :
    PassO (Keeps s0) (execTrainingComplete port peerRates s) := by
  unfold execTrainingComplete
  repeat' first
    | with_reducible assumption
    | (extract_lets -underBinder +onlyGivenNames x; first
      | (with_reducible refine Pass.cut (P := Keeps s0) (x := x) ?_ fun hx => ?_; rotate_left; clear_value x; have x := trivial; rotate_left; unfold x; clear x)
      | (guard_hyp x : _ := _; clear_value x; have x := trivial))
    | with_reducible first
        | apply setObj_keeps | apply setPort_keeps | apply sendControl_keeps | apply PassO.next | apply PassO.ite

theorem execTrainingTimeout_keeps {s0 : State} (port : Nat) {s : State} (h_s : Keeps s0 s) :
    PassO (Keeps s0) (execTrainingTimeout port s) := by
  unfold execTrainingTimeout
  repeat' with_reducible first | assumption | apply linkDown_keeps | apply PassO.next | apply PassO.ite

theorem attachFail_keeps {s0 : State} {s : State} (p kind failed : Nat) (h_s : Keeps s0 s) :
    Keeps s0 (State.attachFail s p kind failed) := by
  unfold State.attachFail
  repeat' with_reducible first | assumption | apply count_keeps | apply raise_keeps | apply linkDown_keeps

theorem checkRanks_keeps {s0 : State} {s : State} (h_s : Keeps s0 s) :
    Keeps s0 (State.checkRanks s) := by
  unfold State.checkRanks
  repeat' with_reducible first | assumption | apply scrambleJob_keeps | apply Pass.ite (P := Keeps s0)

theorem execAttachComplete_keeps {s0 : State} (port : Nat) (evidence : AttachEvidence) {s : State} (h_s : Keeps s0 s) :
    PassO (Keeps s0) (execAttachComplete port evidence s) := by
  unfold execAttachComplete
  repeat' first
    | with_reducible assumption
    | (extract_lets -underBinder +onlyGivenNames x; first
      | (with_reducible refine Pass.cut (P := Keeps s0) (x := x) ?_ fun hx => ?_; rotate_left; clear_value x; have x := trivial; rotate_left; unfold x; clear x)
      | (guard_hyp x : Security := _; have x := trivial)
      | (guard_hyp x : _ := _; clear_value x; have x := trivial))
    | with_reducible first
        | apply setObj_keeps | apply count_keeps | apply setPort_keeps | apply refreshPortsUp_keeps
        | apply refreshSessions_keeps | apply pump_keeps | apply placeInTree_keeps | apply linkDown_keeps
        | apply attachFail_keeps | apply checkRanks_keeps | apply PassO.next | apply PassO.ite
    | split
    | (with_reducible refine Keeps.upd ?_ rfl rfl rfl rfl rfl rfl rfl rfl rfl; with_reducible assumption)

theorem execLaneSignalLoss_keeps {s0 : State} (port : Nat) {s : State} (h_s : Keeps s0 s) :
    PassO (Keeps s0) (execLaneSignalLoss port s) := by
  unfold execLaneSignalLoss
  repeat' with_reducible first | assumption | apply linkDown_keeps | apply PassO.next | apply PassO.ite

theorem execNoFlitTimeout_keeps {s0 : State} (port : Nat) {s : State} (h_s : Keeps s0 s) :
    PassO (Keeps s0) (execNoFlitTimeout port s) := by
  unfold execNoFlitTimeout
  repeat' with_reducible first | assumption | apply linkDown_keeps | apply PassO.next | apply PassO.ite

end Sys2Proof.Safety
end

