-- ==== Sys2Proof/Laws/KeepsCommit.lean ====
section
/-! SUPPORT. The commands' parts in Machine/Commit.lean keep what `Keeps` names. -/

namespace Sys2Proof.Safety

open Sys2Proof.Machine

theorem loadStreams_keeps {s0 : State} {s : State} (seed imgs : Nat) (h_s : Keeps s0 s) :
    Keeps s0 (State.loadStreams s seed imgs) := by
  unfold State.loadStreams
  repeat' first
    | (extract_lets -underBinder +onlyGivenNames x; guard_hyp x : Numerics := _; have x := trivial)
    | (with_reducible refine Keeps.upd ?_ rfl rfl rfl rfl rfl rfl rfl rfl rfl; with_reducible assumption)

theorem refreshMeasurements_keeps {s0 : State} {s : State} (h_s : Keeps s0 s) :
    Keeps s0 (State.refreshMeasurements s) := by
  unfold State.refreshMeasurements
  repeat' first
    | with_reducible assumption
    | (extract_lets -underBinder +onlyGivenNames x; guard_hyp x : _ := _; clear_value x; have x := trivial)
    | with_reducible apply setObj_keeps

theorem setActive_keeps {s0 : State} {s : State} (vals : NatMap) (h_s : Keeps s0 s) :
    Keeps s0 (State.setActive s vals) := by
  unfold State.setActive
  repeat' first
    | intro _
    | with_reducible first | assumption | apply setObj_keeps | apply Pass.foldl (P := Keeps s0)

theorem applyEnables_keeps {s0 : State} {s : State} (h_s : Keeps s0 s) :
    Keeps s0 (State.applyEnables s) := by
  unfold State.applyEnables
  repeat' first
    | intro _
    | with_reducible assumption
    | (extract_lets -underBinder +onlyGivenNames x; guard_hyp x : _ := _; clear_value x; have x := trivial)
    | with_reducible first
        | apply setObj_keeps | apply linkDown_keeps | apply Pass.foldl (P := Keeps s0) | apply Pass.ite (P := Keeps s0)

theorem applySet_keeps {s0 : State} {s : State} (c : CommitSet) (h_s : Keeps s0 s) :
    Keeps s0 (State.applySet s c) := by
  unfold State.applySet
  repeat' first
    | with_reducible assumption
    | (extract_lets -underBinder +onlyGivenNames x; first
      | (with_reducible refine Pass.cut (P := Keeps s0) (x := x) ?_ fun hx => ?_; rotate_left; clear_value x; have x := trivial; rotate_left; unfold x; clear x)
      | (guard_hyp x : Sched := _; have x := trivial)
      | (guard_hyp x : _ := _; clear_value x; have x := trivial))
    | with_reducible first
        | apply setObj_keeps | apply dropLines_keeps | apply placeInTree_keeps | apply checkRanks_keeps
        | apply loadStreams_keeps | apply refreshMeasurements_keeps | apply setActive_keeps | apply applyEnables_keeps
        | apply Pass.ite (P := Keeps s0)
    | split
    | (with_reducible refine Keeps.upd ?_ rfl rfl rfl rfl rfl rfl rfl rfl rfl; with_reducible assumption)
    | with_reducible exact Keeps.updSched (by assumption) rfl (by assumption)

theorem applyDue_keeps {s0 : State} {s : State} (p : CommitSet → Bool) (h_s : Keeps s0 s) :
    Keeps s0 (State.applyDue s p) := by
  unfold State.applyDue
  repeat' first
    | intro _
    | with_reducible assumption
    | (extract_lets -underBinder +onlyGivenNames x; first
      | (with_reducible refine Pass.cut (P := Keeps s0) (x := x) ?_ fun hx => ?_; rotate_left; clear_value x; have x := trivial; rotate_left; unfold x; clear x)
      | (guard_hyp x : Dict := _; have x := trivial)
      | (guard_hyp x : _ := _; clear_value x; have x := trivial))
    | with_reducible first | apply applySet_keeps | apply Pass.foldl (P := Keeps s0)
    | (with_reducible refine Keeps.upd ?_ rfl rfl rfl rfl rfl rfl rfl rfl rfl; with_reducible assumption)

theorem commitOutcome_keeps {s0 : State} {s : State} (g outcome : Nat) (h_s : Keeps s0 s) :
    Keeps s0 (State.commitOutcome s g outcome) := by
  unfold State.commitOutcome
  repeat' with_reducible first | assumption | apply setObj_keeps | apply armVector_keeps

theorem dropLate_keeps {s0 : State} {s : State} (h_s : Keeps s0 s) :
    Keeps s0 (State.dropLate s) :=
  h_s.trans (Collects.keeps (dropLate_collects (Collects.refl _)))

theorem acceptNow_keeps {s0 : State} {s : State} (g : Nat) (vals : NatMap) (h_s : Keeps s0 s) :
    Keeps s0 (State.acceptNow s g vals) := by
  unfold State.acceptNow
  repeat' first
    | with_reducible assumption
    | (extract_lets -underBinder +onlyGivenNames x; first
      | (with_reducible refine Pass.cut (P := Keeps s0) (x := x) ?_ fun hx => ?_; rotate_left; clear_value x; have x := trivial; rotate_left; unfold x; clear x)
      | (guard_hyp x : Dict := _; have x := trivial)
      | (guard_hyp x : Sched := _; have x := trivial)
      | (guard_hyp x : Security := _; have x := trivial)
      | (guard_hyp x : Resilience := _; have x := trivial))
    | with_reducible first
        | apply setObj_keeps | apply sendTwin_keeps | apply setActive_keeps | apply dropLate_keeps
        | apply Pass.ite (P := Keeps s0)
    | split
    | (with_reducible refine Keeps.upd ?_ rfl rfl rfl rfl rfl rfl rfl rfl rfl; with_reducible first
          | assumption | apply setObj_keeps)
    | with_reducible exact Keeps.updSec (by assumption) rfl rfl rfl (by assumption)

theorem commitGroup_keeps {s0 : State} {s : State} (g : Nat) (h_s : Keeps s0 s) :
    Keeps s0 (State.commitGroup s g).2 := by
  unfold State.commitGroup
  repeat' first
    | with_reducible assumption
    | (extract_lets -underBinder +onlyGivenNames x; first
      | (with_reducible refine Pass.cut (P := Keeps s0) (x := x) ?_ fun hx => ?_; rotate_left; clear_value x; have x := trivial; rotate_left; unfold x; clear x)
      | (guard_hyp x : Dict := _; have x := trivial)
      | (guard_hyp x : _ := _; clear_value x; have x := trivial))
    | with_reducible first
        | apply setObj_keeps | apply commitOutcome_keeps | apply acceptNow_keeps | apply Pass.ite (P := Keeps s0)
    | split
    | (with_reducible refine Keeps.upd ?_ rfl rfl rfl rfl rfl rfl rfl rfl rfl; with_reducible assumption)

theorem discardGroup_keeps {s0 : State} {s : State} (g : Nat) (h_s : Keeps s0 s) :
    Keeps s0 (State.discardGroup s g) := by
  unfold State.discardGroup
  repeat' first
    | intro _
    | with_reducible assumption
    | (extract_lets -underBinder +onlyGivenNames x; first
      | (with_reducible refine Pass.cut (P := Keeps s0) (x := x) ?_ fun hx => ?_; rotate_left; clear_value x; have x := trivial; rotate_left; unfold x; clear x)
      | (guard_hyp x : Dict := _; have x := trivial)
      | (guard_hyp x : Sched := _; have x := trivial))
    | with_reducible first
        | apply setPend_keeps | apply commitOutcome_keeps | apply Pass.foldl (P := Keeps s0)
        | apply Pass.ite (P := Keeps s0)
    | (with_reducible refine Keeps.upd ?_ rfl rfl rfl rfl rfl rfl rfl rfl rfl; with_reducible assumption)

end Sys2Proof.Safety
end

