-- ==== Sys2Proof/Laws/KeepsTasks.lean ====
section
/-! SUPPORT. The commands' parts in Machine/Tasks.lean keep what `Keeps` names. -/

namespace Sys2Proof.Safety

open Sys2Proof.Machine

theorem setTask_keeps {s0 : State} {s : State} (t : Machine.Task) (h_s : Keeps s0 s) :
    Keeps s0 (State.setTask s t) :=
  h_s.trans (Works.keeps (setTask_works _ (Works.refl _)))

theorem scramble_keeps {s0 : State} {s : State} (writers : List Nat) (va n : Nat) (h_s : Keeps s0 s) :
    Keeps s0 (State.scramble s writers va n) :=
  h_s.trans (Works.keeps (scramble_works _ _ _ (Works.refl _)))

theorem undefinedJob_keeps {s0 : State} {α : Type} :
    PassM (Keeps s0) (undefinedJob : M α) :=
  .carry (fun _ => undefinedJob_works ) Works.refl fun _ _ h k => h.trans (Works.keeps k)

theorem failTask_keeps {s0 : State} {s : State} (t : Machine.Task) (outs : List (Nat × Nat)) (a : Abort) (h_s : Keeps s0 s) :
    Keeps s0 (State.failTask s t outs a) :=
  h_s.trans (Works.keeps (failTask_works _ _ _ (Works.refl _)))

theorem modTask_keeps {s0 : State} {s : State} (r : Nat) (f : Machine.Task → Machine.Task) (h_s : Keeps s0 s) :
    Keeps s0 (State.modTask s r f) :=
  h_s.trans (Works.keeps (modTask_works _ _ (Works.refl _)))

end Sys2Proof.Safety
end

