-- ==== Sys2Proof/Laws/KeepsPaging.lean ====
section
/-! SUPPORT. The commands' parts in Machine/Paging.lean keep what `Keeps` names. -/

namespace Sys2Proof.Safety

open Sys2Proof.Machine

theorem refreshFrames_keeps {s0 : State} {s : State} (h_s : Keeps s0 s) :
    Keeps s0 (State.refreshFrames s) :=
  h_s.trans (Pages.keeps (refreshFrames_pages (Pages.refl _)))

theorem setFar_keeps {s0 : State} {s : State} (h : Nat) (q : FarPort) (h_s : Keeps s0 s) :
    Keeps s0 (State.setFar s h q) := by
  unfold State.setFar
  repeat' (with_reducible refine Keeps.upd ?_ rfl rfl rfl rfl rfl rfl rfl rfl rfl; with_reducible assumption)

theorem freeNear_keeps {s0 : State} {s : State} (f : Nat) (h_s : Keeps s0 s) :
    Keeps s0 (State.freeNear s f) :=
  h_s.trans (Pages.keeps (freeNear_pages _ (Pages.refl _)))

theorem freeFar_keeps {s0 : State} {s : State} (f : Nat) (h_s : Keeps s0 s) :
    Keeps s0 (State.freeFar s f) :=
  h_s.trans (Pages.keeps (freeFar_pages _ (Pages.refl _)))

theorem requestAlloc_keeps {s0 : State} {s : State} (v : Nat) (h_s : Keeps s0 s) :
    Keeps s0 (State.requestAlloc s v) := by
  unfold State.requestAlloc
  repeat' first
    | with_reducible assumption
    | (extract_lets -underBinder +onlyGivenNames x; first
      | (with_reducible refine Pass.cut (P := Keeps s0) (x := x) ?_ fun hx => ?_; rotate_left; clear_value x; have x := trivial; rotate_left; unfold x; clear x)
      | (guard_hyp x : Mem := _; have x := trivial))
    | with_reducible first
        | apply setObj_keeps | apply count_keeps | apply Pass.ite (P := Keeps s0)
        | exact Keeps.updMem (by assumption) rfl (by assumption)

theorem execAlloc_keeps {s0 : State} (r : Nat) {s : State} (h_s : Keeps s0 s) :
    PassO (Keeps s0) (execAlloc r s) :=
  .carry (execAlloc_pages _ (Pages.refl _)) h_s fun _ _ h k => h.trans (Pages.keeps k)

theorem execFree_keeps {s0 : State} (r : Nat) {s : State} (h_s : Keeps s0 s) :
    PassO (Keeps s0) (execFree r s) :=
  .carry (execFree_pages _ (Pages.refl _)) h_s fun _ _ h k => h.trans (Pages.keeps k)

theorem queryPage_keeps {s0 : State} {s : State} (va : Nat) (h_s : Keeps s0 s) :
    Keeps s0 (State.queryPage s va) := by
  unfold State.queryPage
  repeat' with_reducible first | assumption | apply setObj_keeps

theorem refreshMigrating_keeps {s0 : State} {s : State} (h_s : Keeps s0 s) :
    Keeps s0 (State.refreshMigrating s) :=
  h_s.trans (Pages.keeps (refreshMigrating_pages (Pages.refl _)))

theorem execMigrationStart_keeps {s0 : State} (page : Nat) {s : State} (h_s : Keeps s0 s) :
    PassO (Keeps s0) (execMigrationStart page s) :=
  .carry (execMigrationStart_pages _ (Pages.refl _)) h_s fun _ _ h k => h.trans (Pages.keeps k)

theorem releaseHeld_keeps {s0 : State} {s : State} (h : Held) (h_s : Keeps s0 s) :
    Keeps s0 (State.releaseHeld s h) :=
  h_s.trans (Pages.keeps (releaseHeld_pages _ (Pages.refl _)))

theorem endMigration_keeps {s0 : State} {s : State} (m : Migration) (ok : Bool) (h_s : Keeps s0 s) :
    Keeps s0 (State.endMigration s m ok) :=
  h_s.trans (Pages.keeps (endMigration_pages _ _ (Pages.refl _)))

theorem execMigrationCopyDone_keeps {s0 : State} (page : Nat) {s : State} (h_s : Keeps s0 s) :
    PassO (Keeps s0) (execMigrationCopyDone page s) :=
  .carry (execMigrationCopyDone_pages _ (Pages.refl _)) h_s fun _ _ h k => h.trans (Pages.keeps k)

theorem execAutoPromote_keeps {s0 : State} (page : Nat) {s : State} (h_s : Keeps s0 s) :
    PassO (Keeps s0) (execAutoPromote page s) :=
  .carry (execAutoPromote_pages _ (Pages.refl _)) h_s fun _ _ h k => h.trans (Pages.keeps k)

theorem execAccessCountHalving_keeps {s0 : State} {s : State} (h_s : Keeps s0 s) :
    PassO (Keeps s0) (execAccessCountHalving s) :=
  .carry (execAccessCountHalving_pages (Pages.refl _)) h_s fun _ _ h k => h.trans (Pages.keeps k)

theorem execPromote_keeps {s0 : State} (r : Nat) {s : State} (h_s : Keeps s0 s) :
    PassO (Keeps s0) (execPromote r s) :=
  .carry (execPromote_pages _ (Pages.refl _)) h_s fun _ _ h k => h.trans (Pages.keeps k)

theorem execDemote_keeps {s0 : State} (r : Nat) {s : State} (h_s : Keeps s0 s) :
    PassO (Keeps s0) (execDemote r s) :=
  .carry (execDemote_pages _ (Pages.refl _)) h_s fun _ _ h k => h.trans (Pages.keeps k)

theorem execPopulate_keeps {s0 : State} (r : Nat) {s : State} (h_s : Keeps s0 s) :
    PassO (Keeps s0) (execPopulate r s) :=
  .carry (execPopulate_pages _ (Pages.refl _)) h_s fun _ _ h k => h.trans (Pages.keeps k)

theorem execDiscard_keeps {s0 : State} (r : Nat) {s : State} (h_s : Keeps s0 s) :
    PassO (Keeps s0) (execDiscard r s) :=
  .carry (execDiscard_pages _ (Pages.refl _)) h_s fun _ _ h k => h.trans (Pages.keeps k)

theorem execSetPolicy_keeps {s0 : State} (r : Nat) {s : State} (h_s : Keeps s0 s) :
    PassO (Keeps s0) (execSetPolicy r s) :=
  .carry (execSetPolicy_pages _ (Pages.refl _)) h_s fun _ _ h k => h.trans (Pages.keeps k)

theorem losePort_keeps {s0 : State} {s : State} (h : Nat) (h_s : Keeps s0 s) :
    Keeps s0 (State.losePort s h) := by
  unfold State.losePort
  repeat' first
    | intro _
    | with_reducible assumption
    | (extract_lets -underBinder +onlyGivenNames x; first
      | (with_reducible refine Pass.cut (P := Keeps s0) (x := x) ?_ fun hx => ?_; rotate_left; clear_value x; have x := trivial; rotate_left; unfold x; clear x)
      | (guard_hyp x : Mem := _; have x := trivial)
      | (guard_hyp x : _ := _; clear_value x; have x := trivial))
    | with_reducible first
        | apply setEntry_keeps | apply shootdown_keeps | apply refreshFrames_keeps | apply freeFar_keeps
        | apply endMigration_keeps | apply Pass.foldl (P := Keeps s0)
    | (with_reducible refine Keeps.changeMem ?_ (fun g => memWf_memClear g); with_reducible assumption)

theorem rollbackMigrations_keeps {s0 : State} {s : State} (h_s : Keeps s0 s) :
    Keeps s0 (State.rollbackMigrations s) := by
  unfold State.rollbackMigrations
  repeat' first
    | intro _
    | with_reducible assumption
    | (extract_lets -underBinder +onlyGivenNames x; first
      | (with_reducible refine Pass.cut (P := Keeps s0) (x := x) ?_ fun hx => ?_; rotate_left; clear_value x; have x := trivial; rotate_left; unfold x; clear x)
      | (guard_hyp x : Mem := _; have x := trivial)
      | (guard_hyp x : _ := _; clear_value x; have x := trivial))
    | with_reducible first
        | apply setEntry_keeps | apply freeNear_keeps | apply freeFar_keeps | apply refreshMigrating_keeps
        | apply Pass.foldl (P := Keeps s0) | apply Pass.ite (P := Keeps s0)
    | (with_reducible refine Keeps.upd ?_ rfl rfl rfl rfl rfl rfl rfl rfl rfl; with_reducible assumption)

theorem freeAllPages_keeps {s0 : State} {s : State} (h_s : Keeps s0 s) :
    Keeps s0 (State.freeAllPages s) := by
  unfold State.freeAllPages
  repeat' first
    | intro _
    | with_reducible assumption
    | (extract_lets -underBinder +onlyGivenNames x; first
      | (with_reducible refine Pass.cut (P := Keeps s0) (x := x) ?_ fun hx => ?_; rotate_left; clear_value x; have x := trivial; rotate_left; unfold x; clear x)
      | (guard_hyp x : Mem := _; have x := trivial)
      | (guard_hyp x : _ := _; clear_value x; have x := trivial))
    | with_reducible first
        | apply setObj_keeps | apply refreshFrames_keeps | apply refreshMigrating_keeps | apply releaseHeld_keeps
        | apply Pass.foldl (P := Keeps s0)
    | (with_reducible refine Keeps.upd ?_ rfl rfl rfl rfl rfl rfl rfl rfl rfl; with_reducible assumption)

end Sys2Proof.Safety
end

