-- ==== Sys2Proof/Laws/KeepsTensor.lean ====
section
/-! SUPPORT. The commands' parts in Machine/Tensor.lean keep what `Keeps` names. -/

namespace Sys2Proof.Safety

open Sys2Proof.Machine

theorem requestCreate_keeps {s0 : State} {s : State} (v : Nat) (h_s : Keeps s0 s) :
    Keeps s0 (State.requestCreate s v) := by
  unfold State.requestCreate
  repeat' first
    | with_reducible assumption
    | (extract_lets -underBinder +onlyGivenNames x; first
      | (with_reducible refine Pass.cut (P := Keeps s0) (x := x) ?_ fun hx => ?_; rotate_left; clear_value x; have x := trivial; rotate_left; unfold x; clear x)
      | (guard_hyp x : Mem := _; have x := trivial))
    | with_reducible first
        | apply setObj_keeps | apply count_keeps | apply Pass.ite (P := Keeps s0)
        | exact Keeps.updMem (by assumption) rfl (by assumption)

theorem execCreate_keeps {s0 : State} (r : Nat) {s : State} (h_s : Keeps s0 s) :
    PassO (Keeps s0) (execCreate r s) :=
  .carry (execCreate_pages _ (Pages.refl _)) h_s fun _ _ h k => h.trans (Pages.keeps k)

theorem execAllocatorQueueService_keeps {s0 : State} {s : State} (h_s : Keeps s0 s) :
    PassO (Keeps s0) (execAllocatorQueueService s) :=
  .carry (execAllocatorQueueService_pages (Pages.refl _)) h_s fun _ _ h k => h.trans (Pages.keeps k)

theorem fetchDesc_keeps {s0 : State} (c : Ctx) (addr : Nat) :
    PassM (Keeps s0) (fetchDesc c addr : W Nat) :=
  .carry (fun _ => fetchDesc_works _ _) Works.refl fun _ _ h k => h.trans (Works.keeps k)

theorem readOperands_keeps {s0 : State} (c : Ctx) (addrs : List Nat) :
    PassM (Keeps s0) (readOperands c addrs : W Unit) := by
  unfold readOperands
  repeat' first
    | intro _
    | with_reducible assumption
    | (extract_lets -underBinder +onlyGivenNames x; first
      | (with_reducible refine PassM.cut (P := Keeps s0) (x := x) ?_ fun hx => ?_; rotate_left; clear_value x; have x := trivial; rotate_left; unfold x; clear x)
      | (guard_hyp x : _ := _; clear_value x; have x := trivial))
    | with_reducible first
        | apply readNat_keeps | apply undefinedJob_keeps | apply modTask_keeps | apply PassM.pure | apply PassM.getBind
        | apply PassM.modify | apply PassM.bind | apply PassM.forM | apply_assumption -exfalso -symm | apply PassM.ite
    | split

theorem undefinedIf_keeps {s0 : State} (b : Bool) :
    PassM (Keeps s0) (undefinedIf b : W Unit) :=
  .carry (fun _ => undefinedIf_works _) Works.refl fun _ _ h k => h.trans (Works.keeps k)

end Sys2Proof.Safety
end

