-- ==== Sys2Proof/Laws/KeepsGather.lean ====
section
/-! SUPPORT. The commands' parts in Machine/Gather.lean keep what `Keeps` names. -/

namespace Sys2Proof.Safety

open Sys2Proof.Machine

theorem execGatherRows_keeps {s0 : State} (r : Nat) {s : State} (h_s : Keeps s0 s) :
    PassO (Keeps s0) (execGatherRows r s) :=
  .carry (execGatherRows_works _ (Works.refl _)) h_s fun _ _ h k => h.trans (Works.keeps k)

theorem execCombine_keeps {s0 : State} (r : Nat) {s : State} (h_s : Keeps s0 s) :
    PassO (Keeps s0) (execCombine r s) :=
  .carry (execCombine_works _ (Works.refl _)) h_s fun _ _ h k => h.trans (Works.keeps k)

theorem execPack_keeps {s0 : State} (r : Nat) {s : State} (h_s : Keeps s0 s) :
    PassO (Keeps s0) (execPack r s) :=
  .carry (execPack_works _ (Works.refl _)) h_s fun _ _ h k => h.trans (Works.keeps k)

theorem execRoute_keeps {s0 : State} (r : Nat) {s : State} (h_s : Keeps s0 s) :
    PassO (Keeps s0) (execRoute r s) :=
  .carry (execRoute_works _ (Works.refl _)) h_s fun _ _ h k => h.trans (Works.keeps k)

theorem execExpandRle_keeps {s0 : State} (r : Nat) {s : State} (h_s : Keeps s0 s) :
    PassO (Keeps s0) (execExpandRle r s) :=
  .carry (execExpandRle_works _ (Works.refl _)) h_s fun _ _ h k => h.trans (Works.keeps k)

theorem execCompressRle_keeps {s0 : State} (r : Nat) {s : State} (h_s : Keeps s0 s) :
    PassO (Keeps s0) (execCompressRle r s) :=
  .carry (execCompressRle_works _ (Works.refl _)) h_s fun _ _ h k => h.trans (Works.keeps k)

theorem execExpand2of4_keeps {s0 : State} (r : Nat) {s : State} (h_s : Keeps s0 s) :
    PassO (Keeps s0) (execExpand2of4 r s) :=
  .carry (execExpand2of4_works _ (Works.refl _)) h_s fun _ _ h k => h.trans (Works.keeps k)

theorem execCompress2of4_keeps {s0 : State} (r : Nat) {s : State} (h_s : Keeps s0 s) :
    PassO (Keeps s0) (execCompress2of4 r s) :=
  .carry (execCompress2of4_works _ (Works.refl _)) h_s fun _ _ h k => h.trans (Works.keeps k)

theorem execNeuronPack_keeps {s0 : State} (r : Nat) {s : State} (h_s : Keeps s0 s) :
    PassO (Keeps s0) (execNeuronPack r s) :=
  .carry (execNeuronPack_works _ (Works.refl _)) h_s fun _ _ h k => h.trans (Works.keeps k)

theorem execPredictorCheck_keeps {s0 : State} (r : Nat) {s : State} (h_s : Keeps s0 s) :
    PassO (Keeps s0) (execPredictorCheck r s) :=
  .carry (execPredictorCheck_works _ (Works.refl _)) h_s fun _ _ h k => h.trans (Works.keeps k)

end Sys2Proof.Safety
end

