-- ==== Sys2Proof/Laws/KeepsScatter.lean ====
section
/-! SUPPORT. The commands' parts in Machine/Scatter.lean keep what `Keeps` names. -/

namespace Sys2Proof.Safety

open Sys2Proof.Machine

theorem execScatterRows_keeps {s0 : State} (r : Nat) {s : State} (h_s : Keeps s0 s) :
    PassO (Keeps s0) (execScatterRows r s) :=
  .carry (execScatterRows_works _ (Works.refl _)) h_s fun _ _ h k => h.trans (Works.keeps k)

theorem execScatterAdd_keeps {s0 : State} (r : Nat) {s : State} (h_s : Keeps s0 s) :
    PassO (Keeps s0) (execScatterAdd r s) :=
  .carry (execScatterAdd_works _ (Works.refl _)) h_s fun _ _ h k => h.trans (Works.keeps k)

theorem execHashMerge_keeps {s0 : State} (r : Nat) {s : State} (h_s : Keeps s0 s) :
    PassO (Keeps s0) (execHashMerge r s) :=
  .carry (execHashMerge_works _ (Works.refl _)) h_s fun _ _ h k => h.trans (Works.keeps k)

end Sys2Proof.Safety
end

