-- ==== Sys2Proof/Laws/KeepsMatrix.lean ====
section
/-! SUPPORT. The commands' parts in Machine/Matrix.lean keep what `Keeps` names. -/

namespace Sys2Proof.Safety

open Sys2Proof.Machine

theorem execMatrixProduct_keeps {s0 : State} (r : Nat) {s : State} (h_s : Keeps s0 s) :
    PassO (Keeps s0) (execMatrixProduct r s) :=
  .carry (execMatrixProduct_works _ (Works.refl _)) h_s fun _ _ h k => h.trans (Works.keeps k)

theorem execMatrixAccumulate_keeps {s0 : State} (r : Nat) {s : State} (h_s : Keeps s0 s) :
    PassO (Keeps s0) (execMatrixAccumulate r s) :=
  .carry (execMatrixAccumulate_works _ (Works.refl _)) h_s fun _ _ h k => h.trans (Works.keeps k)

theorem execMatrixPaired_keeps {s0 : State} (r : Nat) {s : State} (h_s : Keeps s0 s) :
    PassO (Keeps s0) (execMatrixPaired r s) :=
  .carry (execMatrixPaired_works _ (Works.refl _)) h_s fun _ _ h k => h.trans (Works.keeps k)

theorem execGradientPair_keeps {s0 : State} (r : Nat) {s : State} (h_s : Keeps s0 s) :
    PassO (Keeps s0) (execGradientPair r s) :=
  .carry (execGradientPair_works _ (Works.refl _)) h_s fun _ _ h k => h.trans (Works.keeps k)

theorem execTiedGroup_keeps {s0 : State} (r : Nat) {s : State} (h_s : Keeps s0 s) :
    PassO (Keeps s0) (execTiedGroup r s) :=
  .carry (execTiedGroup_works _ (Works.refl _)) h_s fun _ _ h k => h.trans (Works.keeps k)

end Sys2Proof.Safety
end

