-- ==== Sys2Proof/Laws/KeepsVector.lean ====
section
/-! SUPPORT. The commands' parts in Machine/Vector.lean keep what `Keeps` names. -/

namespace Sys2Proof.Safety

open Sys2Proof.Machine

theorem execConvert_keeps {s0 : State} (r : Nat) {s : State} (h_s : Keeps s0 s) :
    PassO (Keeps s0) (execConvert r s) :=
  .carry (execConvert_works _ (Works.refl _)) h_s fun _ _ h k => h.trans (Works.keeps k)

theorem execAxpby_keeps {s0 : State} (r : Nat) {s : State} (h_s : Keeps s0 s) :
    PassO (Keeps s0) (execAxpby r s) :=
  .carry (execAxpby_works _ (Works.refl _)) h_s fun _ _ h k => h.trans (Works.keeps k)

theorem execMul_keeps {s0 : State} (r : Nat) {s : State} (h_s : Keeps s0 s) :
    PassO (Keeps s0) (execMul r s) :=
  .carry (execMul_works _ (Works.refl _)) h_s fun _ _ h k => h.trans (Works.keeps k)

theorem execFma_keeps {s0 : State} (r : Nat) {s : State} (h_s : Keeps s0 s) :
    PassO (Keeps s0) (execFma r s) :=
  .carry (execFma_works _ (Works.refl _)) h_s fun _ _ h k => h.trans (Works.keeps k)

theorem execClamp_keeps {s0 : State} (r : Nat) {s : State} (h_s : Keeps s0 s) :
    PassO (Keeps s0) (execClamp r s) :=
  .carry (execClamp_works _ (Works.refl _)) h_s fun _ _ h k => h.trans (Works.keeps k)

theorem execFunc_keeps {s0 : State} (r : Nat) {s : State} (h_s : Keeps s0 s) :
    PassO (Keeps s0) (execFunc r s) :=
  .carry (execFunc_works _ (Works.refl _)) h_s fun _ _ h k => h.trans (Works.keeps k)

theorem execFuncGrad_keeps {s0 : State} (r : Nat) {s : State} (h_s : Keeps s0 s) :
    PassO (Keeps s0) (execFuncGrad r s) :=
  .carry (execFuncGrad_works _ (Works.refl _)) h_s fun _ _ h k => h.trans (Works.keeps k)

theorem execAmax_keeps {s0 : State} (r : Nat) {s : State} (h_s : Keeps s0 s) :
    PassO (Keeps s0) (execAmax r s) :=
  .carry (execAmax_works _ (Works.refl _)) h_s fun _ _ h k => h.trans (Works.keeps k)

theorem execQuantise_keeps {s0 : State} (r : Nat) {s : State} (h_s : Keeps s0 s) :
    PassO (Keeps s0) (execQuantise r s) :=
  .carry (execQuantise_works _ (Works.refl _)) h_s fun _ _ h k => h.trans (Works.keeps k)

theorem execSoftmax_keeps {s0 : State} (r : Nat) {s : State} (h_s : Keeps s0 s) :
    PassO (Keeps s0) (execSoftmax r s) :=
  .carry (execSoftmax_works _ (Works.refl _)) h_s fun _ _ h k => h.trans (Works.keeps k)

theorem execSoftmaxGrad_keeps {s0 : State} (r : Nat) {s : State} (h_s : Keeps s0 s) :
    PassO (Keeps s0) (execSoftmaxGrad r s) :=
  .carry (execSoftmaxGrad_works _ (Works.refl _)) h_s fun _ _ h k => h.trans (Works.keeps k)

theorem execNorm_keeps {s0 : State} (r : Nat) {s : State} (h_s : Keeps s0 s) :
    PassO (Keeps s0) (execNorm r s) :=
  .carry (execNorm_works _ (Works.refl _)) h_s fun _ _ h k => h.trans (Works.keeps k)

theorem execNormGrad_keeps {s0 : State} (r : Nat) {s : State} (h_s : Keeps s0 s) :
    PassO (Keeps s0) (execNormGrad r s) :=
  .carry (execNormGrad_works _ (Works.refl _)) h_s fun _ _ h k => h.trans (Works.keeps k)

theorem execRowDot_keeps {s0 : State} (r : Nat) {s : State} (h_s : Keeps s0 s) :
    PassO (Keeps s0) (execRowDot r s) :=
  .carry (execRowDot_works _ (Works.refl _)) h_s fun _ _ h k => h.trans (Works.keeps k)

theorem execColsum_keeps {s0 : State} (r : Nat) {s : State} (h_s : Keeps s0 s) :
    PassO (Keeps s0) (execColsum r s) :=
  .carry (execColsum_works _ (Works.refl _)) h_s fun _ _ h k => h.trans (Works.keeps k)

theorem execTopk_keeps {s0 : State} (r : Nat) {s : State} (h_s : Keeps s0 s) :
    PassO (Keeps s0) (execTopk r s) :=
  .carry (execTopk_works _ (Works.refl _)) h_s fun _ _ h k => h.trans (Works.keeps k)

theorem execCoupledFuncGrad_keeps {s0 : State} (r : Nat) {s : State} (h_s : Keeps s0 s) :
    PassO (Keeps s0) (execCoupledFuncGrad r s) :=
  .carry (execCoupledFuncGrad_works _ (Works.refl _)) h_s fun _ _ h k => h.trans (Works.keeps k)

theorem execCoupledSoftmaxGrad_keeps {s0 : State} (r : Nat) {s : State} (h_s : Keeps s0 s) :
    PassO (Keeps s0) (execCoupledSoftmaxGrad r s) :=
  .carry (execCoupledSoftmaxGrad_works _ (Works.refl _)) h_s fun _ _ h k => h.trans (Works.keeps k)

theorem execCoupledNormGrad_keeps {s0 : State} (r : Nat) {s : State} (h_s : Keeps s0 s) :
    PassO (Keeps s0) (execCoupledNormGrad r s) :=
  .carry (execCoupledNormGrad_works _ (Works.refl _)) h_s fun _ _ h k => h.trans (Works.keeps k)

end Sys2Proof.Safety
end

