-- ==== Sys2Proof/Laws/KeepsUpdate.lean ====
section
/-! SUPPORT. The commands' parts in Machine/Update.lean keep what `Keeps` names. -/

namespace Sys2Proof.Safety

open Sys2Proof.Machine

theorem noteSkew_keeps {s0 : State} {s : State} (unit r step lo hi cause : Nat) (h_s : Keeps s0 s) :
    Keeps s0 (State.noteSkew s unit r step lo hi cause) := by
  unfold State.noteSkew
  repeat' first
    | with_reducible assumption
    | (extract_lets -underBinder +onlyGivenNames x; guard_hyp x : _ := _; clear_value x; have x := trivial)
    | with_reducible first | apply setTickEvent_keeps | apply Pass.ite (P := Keeps s0)
    | split

theorem updateStart_keeps {s0 : State} (c : Ctx) (image : Nat) :
    PassM (Keeps s0) (updateStart c image : M (Nat × Nat × Nat)) := by
  unfold updateStart
  repeat' first
    | intro _
    | (extract_lets -underBinder +onlyGivenNames x; with_reducible refine PassM.cut (P := Keeps s0) (x := x) ?_ fun hx => ?_; rotate_left; clear_value x; have x := trivial; rotate_left; unfold x; clear x)
    | with_reducible first
        | apply readNat_keeps | apply PassM.pure | apply PassM.throw | apply PassM.getBind | apply PassM.bind
        | apply_assumption -exfalso -symm | apply PassM.ite

theorem execUpdateMomentumSgd_keeps {s0 : State} (r : Nat) {s : State} (h_s : Keeps s0 s) :
    PassO (Keeps s0) (execUpdateMomentumSgd r s) :=
  .carry (execUpdateMomentumSgd_works _ (Works.refl _)) h_s fun _ _ h k => h.trans (Works.keeps k)

theorem execUpdateAdamw_keeps {s0 : State} (r : Nat) {s : State} (h_s : Keeps s0 s) :
    PassO (Keeps s0) (execUpdateAdamw r s) :=
  .carry (execUpdateAdamw_works _ (Works.refl _)) h_s fun _ _ h k => h.trans (Works.keeps k)

theorem execUpdateFactored_keeps {s0 : State} (r : Nat) {s : State} (h_s : Keeps s0 s) :
    PassO (Keeps s0) (execUpdateFactored r s) :=
  .carry (execUpdateFactored_works _ (Works.refl _)) h_s fun _ _ h k => h.trans (Works.keeps k)

theorem execUpdateSignMomentum_keeps {s0 : State} (r : Nat) {s : State} (h_s : Keeps s0 s) :
    PassO (Keeps s0) (execUpdateSignMomentum r s) :=
  .carry (execUpdateSignMomentum_works _ (Works.refl _)) h_s fun _ _ h k => h.trans (Works.keeps k)

theorem execUpdateLazy_keeps {s0 : State} (r : Nat) {s : State} (h_s : Keeps s0 s) :
    PassO (Keeps s0) (execUpdateLazy r s) :=
  .carry (execUpdateLazy_works _ (Works.refl _)) h_s fun _ _ h k => h.trans (Works.keeps k)

theorem finishUpdate_keeps {s0 : State} (t : Machine.Task) :
    PassM (Keeps s0) (finishUpdate t : M Unit) := by
  unfold finishUpdate
  repeat' first
    | intro _
    | (extract_lets -underBinder +onlyGivenNames x; first
      | (with_reducible refine PassM.cut (P := Keeps s0) (x := x) ?_ fun hx => ?_; rotate_left; clear_value x; have x := trivial; rotate_left; unfold x; clear x)
      | (guard_hyp x : _ := _; clear_value x; have x := trivial))
    | with_reducible first
        | apply writeBytes_keeps | apply readNat_keeps | apply writeNat_keeps | apply PassM.pure | apply PassM.bind
        | apply_assumption -exfalso -symm | apply PassM.ite
    | split

end Sys2Proof.Safety
end

