-- ==== Sys2Proof/Laws/KeepsScheduler.lean ====
section
/-! SUPPORT. The commands' parts in Machine/Scheduler.lean keep what `Keeps` names. -/

namespace Sys2Proof.Safety

open Sys2Proof.Machine

theorem writeStatus_keeps {s0 : State} {s : State} (i status measured : Nat) (h_s : Keeps s0 s) :
    Keeps s0 (State.writeStatus s i status measured) := by
  unfold State.writeStatus
  repeat' first
    | intro _
    | with_reducible assumption
    | (extract_lets -underBinder +onlyGivenNames x; guard_hyp x : _ := _; clear_value x; have x := trivial)
    | with_reducible first | apply writeNat_keeps | apply PassM.bind
    | split
    | refine PassM.ok ?_ ?_ (by with_reducible assumption)
    | refine PassM.error ?_ ?_ (by with_reducible assumption)

theorem setOutcome_keeps {s0 : State} {s : State} (i v : Nat) (h_s : Keeps s0 s) :
    Keeps s0 (State.setOutcome s i v) := by
  unfold State.setOutcome
  repeat' first
    | (extract_lets -underBinder +onlyGivenNames x; guard_hyp x : Sched := _; have x := trivial)
    | (with_reducible refine Keeps.upd ?_ rfl rfl rfl rfl rfl rfl rfl rfl rfl; with_reducible assumption)

theorem setCredit_keeps {s0 : State} {s : State} (q v : Nat) (h_s : Keeps s0 s) :
    Keeps s0 (State.setCredit s q v) := by
  unfold State.setCredit
  repeat' first
    | (extract_lets -underBinder +onlyGivenNames x; guard_hyp x : Sched := _; have x := trivial)
    | (with_reducible refine Keeps.upd ?_ rfl rfl rfl rfl rfl rfl rfl rfl rfl; with_reducible assumption)

theorem takeCredit_keeps {s0 : State} {s : State} (r : Nat) (h_s : Keeps s0 s) :
    Keeps s0 (State.takeCredit s r) := by
  unfold State.takeCredit
  repeat' with_reducible first | assumption | apply setCredit_keeps | apply Pass.ite (P := Keeps s0)

theorem addTask_keeps {s0 : State} {s : State} (t : Machine.Task) (h_s : Keeps s0 s) :
    Keeps s0 (State.addTask s t) := by
  unfold State.addTask
  repeat' first
    | (extract_lets -underBinder +onlyGivenNames x; first
      | (guard_hyp x : Sched := _; have x := trivial)
      | (guard_hyp x : _ := _; clear_value x; have x := trivial))
    | (with_reducible refine Keeps.upd ?_ rfl rfl rfl rfl rfl rfl rfl rfl rfl; with_reducible assumption)

theorem admitFresh_keeps {s0 : State} {s : State} (latched : List Machine.Task) (i r : Nat) (h_s : Keeps s0 s) :
    PassOpt (Keeps s0) (State.admitFresh s latched i r) := by
  unfold State.admitFresh
  repeat' first
    | with_reducible assumption
    | (extract_lets -underBinder +onlyGivenNames x; first
      | (with_reducible refine Pass.cut (P := Keeps s0) (x := x) ?_ fun hx => ?_; rotate_left; clear_value x; have x := trivial; rotate_left; unfold x; clear x)
      | (guard_hyp x : _ := _; clear_value x; have x := trivial))
    | with_reducible first
        | apply count_keeps | apply takeCredit_keeps | apply addTask_keeps | apply PassOpt.none | apply PassOpt.some
        | apply PassOpt.ite | apply Pass.ite (P := Keeps s0)

theorem admitOne_keeps {s0 : State} {s : State} (latched : List Machine.Task) (prev : Option (Nat × Nat)) (i r : Nat) (h_s : Keeps s0 s) :
    PassOpt (Keeps s0) (State.admitOne s latched prev i r) := by
  unfold State.admitOne
  repeat' first
    | intro _
    | with_reducible assumption
    | (extract_lets -underBinder +onlyGivenNames x; with_reducible refine Pass.cut (P := Keeps s0) (x := x) ?_ fun hx => ?_; rotate_left; clear_value x; have x := trivial; rotate_left; unfold x; clear x)
    | with_reducible first
        | apply setTask_keeps | apply takeCredit_keeps | apply admitFresh_keeps | apply PassOpt.none | apply PassOpt.map
        | apply PassOpt.ite
    | split

theorem admitGroup_keeps {s0 s : State} (latched : List Machine.Task) (prev : Option (Nat × Nat)) (g : List (Nat × Nat))
    (h : Keeps s0 s) : PassOpt (Keeps s0) (s.admitGroup latched prev g) := by
  induction g generalizing s prev with
  | nil => exact .some h
  | cons p g ih =>
    unfold State.admitGroup
    split
    · rename_i e
      exact ih _ ((admitOne_keeps _ _ _ _ h).of e)
    · exact .none

theorem countTied_keeps {s0 : State} (g : List (Nat × Nat)) {s : State} (h_s : Keeps s0 s) :
    Keeps s0 (countTied g s) := by
  unfold countTied
  repeat' first
    | with_reducible first | assumption | apply count_keeps | apply Pass.ite (P := Keeps s0)
    | split

theorem examine_keeps {s0 : State} {s : State} (i : Nat) (h_s : Keeps s0 s) :
    Keeps s0 (State.examine s i).2 := by
  unfold State.examine
  repeat' first
    | with_reducible assumption
    | (extract_lets -underBinder +onlyGivenNames x; guard_hyp x : _ := _; clear_value x; have x := trivial)
    | with_reducible first
        | apply raise_keeps | apply noteStale_keeps | apply uncorrected_keeps | apply haltWith_keeps
        | apply taskFault_keeps | apply readNat_keeps | apply writeStatus_keeps | apply setOutcome_keeps
    | split
    | refine PassM.ok ?_ ?_ (by with_reducible assumption)
    | refine PassM.error ?_ ?_ (by with_reducible assumption)

theorem closeGroup_keeps {s0 : State} {s : State} (latched : List Machine.Task) (count : Nat) (g : List (Nat × Nat)) (h_s : Keeps s0 s) :
    Keeps s0 (State.closeGroup s latched count g).1 := by
  unfold State.closeGroup
  repeat' first
    | with_reducible first | assumption | apply admitGroup_keeps | apply countTied_keeps
    | split
    | refine PassOpt.of ?_ (by with_reducible assumption)

theorem admitAll_keeps {s0 s : State} (latched : List Machine.Task) (count : Nat) (cur l : List (Nat × Nat)) (h : Keeps s0 s) :
    Keeps s0 (s.admitAll latched count cur l) := by
  induction l generalizing s count cur with
  | nil => exact closeGroup_keeps _ _ _ h
  | cons p l ih =>
    unfold State.admitAll
    split
    · split
      · exact ih _ _ h
      · split
        rename_i e
        exact ih _ _ (Pass.of_fst (P := Keeps s0) (closeGroup_keeps _ _ _ h) e)
    · exact ih _ _ h

theorem admissionScan_keeps {s0 : State} {s : State} (h_s : Keeps s0 s) :
    Keeps s0 (State.admissionScan s) := by
  unfold State.admissionScan
  repeat' first
    | intro _
    | with_reducible first
        | assumption | apply examine_keeps | apply admitAll_keeps | apply Pass.foldlSnd (P := Keeps s0)
        | apply Pass.ite (P := Keeps s0)
    | split
    | (with_reducible refine Keeps.upd ?_ rfl rfl rfl rfl rfl rfl rfl rfl rfl; with_reducible refine Pass.of_snd (P := Keeps s0) ?_ (by assumption))

theorem fetchAhead_keeps {s0 : State} (tile : Nat) (t : Machine.Task) :
    PassM (Keeps s0) (fetchAhead tile t : M Unit) := by
  unfold fetchAhead
  repeat' first
    | intro _
    | with_reducible assumption
    | (extract_lets -underBinder +onlyGivenNames x; guard_hyp x : _ := _; clear_value x; have x := trivial)
    | with_reducible first
        | apply mod_keeps | apply readNat_keeps | apply modTask_keeps | apply PassM.pure | apply PassM.getBind
        | apply PassM.bind | apply PassM.forM | apply PassM.ite

theorem prefetch_keeps {s0 : State} {s : State} (cls : EngineClass) (tile : Nat) (h_s : Keeps s0 s) :
    Keeps s0 (State.prefetch s cls tile) := by
  unfold State.prefetch
  repeat' first
    | with_reducible first | assumption | apply fetchAhead_keeps | apply Pass.ite (P := Keeps s0)
    | split
    | refine PassM.ok ?_ ?_ (by with_reducible assumption)

theorem prefetchAll_keeps {s0 : State} {s : State} (h_s : Keeps s0 s) :
    Keeps s0 (State.prefetchAll s) := by
  unfold State.prefetchAll
  repeat' first
    | intro _
    | with_reducible first | assumption | apply prefetch_keeps | apply Pass.foldl (P := Keeps s0)

theorem queueEvent_keeps {s0 : State} {s : State} (e : EventRec) (h_s : Keeps s0 s) :
    Keeps s0 (State.queueEvent s e) := by
  unfold State.queueEvent
  repeat' first
    | (extract_lets -underBinder +onlyGivenNames x; guard_hyp x : Dict := _; have x := trivial)
    | (with_reducible refine Keeps.upd ?_ rfl rfl rfl rfl rfl rfl rfl rfl rfl; with_reducible assumption)

theorem pushFallback_keeps {s0 s : State} (addr : Nat) (h : Keeps s0 s) : Keeps s0 (s.pushFallback addr) := by
  unfold State.pushFallback
  split
  · exact h
  · split
    · exact count_keeps _ h
    · refine h.changeSched fun _ => ?_
      simp only [List.length_append, List.length_cons, List.length_nil]
      omega

theorem noteDropped_keeps {s0 : State} {s : State} (t : Machine.Task) (e : EventRec) (h_s : Keeps s0 s) :
    Keeps s0 (State.noteDropped s t e) := by
  unfold State.noteDropped
  repeat' first
    | with_reducible assumption
    | (extract_lets -underBinder +onlyGivenNames x; first
      | (with_reducible refine Pass.cut (P := Keeps s0) (x := x) ?_ fun hx => ?_; rotate_left; clear_value x; have x := trivial; rotate_left; unfold x; clear x)
      | (guard_hyp x : _ := _; clear_value x; have x := trivial))
    | with_reducible first | apply setTickEvent_keeps | apply noteTask_keeps
    | split

theorem noteEnds_keeps {s0 : State} {s : State} (t : Machine.Task) (h_s : Keeps s0 s) :
    Keeps s0 (State.noteEnds s t) := by
  unfold State.noteEnds
  repeat' first
    | intro _
    | with_reducible assumption
    | (extract_lets -underBinder +onlyGivenNames x; first
      | (with_reducible refine Pass.cut (P := Keeps s0) (x := x) ?_ fun hx => ?_; rotate_left; clear_value x; have x := trivial; rotate_left; unfold x; clear x)
      | (with_reducible refine Pass.cutFa (P := Keeps s0) (x := x) ?_ fun hx => ?_; rotate_left; clear_value x; have x := trivial; rotate_left; unfold x; clear x)
      | (guard_hyp x : _ := _; clear_value x; have x := trivial))
    | with_reducible first
        | apply count_keeps | apply setTickEvent_keeps | apply noteTask_keeps | apply pushFallback_keeps
        | apply noteDropped_keeps | apply Pass.foldl (P := Keeps s0) | apply_assumption -exfalso -symm
        | apply Pass.ite (P := Keeps s0)
    | split

theorem noteAlways_keeps {s0 : State} {s : State} (t : Machine.Task) (h_s : Keeps s0 s) :
    Keeps s0 (State.noteAlways s t) := by
  unfold State.noteAlways
  repeat' first
    | with_reducible assumption
    | (extract_lets -underBinder +onlyGivenNames x; with_reducible refine Pass.cut (P := Keeps s0) (x := x) ?_ fun hx => ?_; rotate_left; clear_value x; have x := trivial; rotate_left; unfold x; clear x)
    | with_reducible first
        | apply count_keeps | apply noteTask_keeps | apply queueEvent_keeps | apply Pass.ite (P := Keeps s0)
    | split

theorem addTiming_keeps {s0 : State} {s : State} (q : TaskTiming) (h_s : Keeps s0 s) :
    Keeps s0 (State.addTiming s q) := by
  unfold State.addTiming
  repeat' first
    | with_reducible assumption
    | (extract_lets -underBinder +onlyGivenNames x; with_reducible refine Pass.cut (P := Keeps s0) (x := x) ?_ fun hx => ?_; rotate_left; clear_value x; have x := trivial; rotate_left; unfold x; clear x)
    | with_reducible apply addObj_keeps

theorem signal_keeps {s0 : State} {s : State} (undef : Bool) (e : Nat) (h_s : Keeps s0 s) :
    Keeps s0 (State.signal s undef e) := by
  unfold State.signal
  repeat' first
    | intro _
    | with_reducible assumption
    | (extract_lets -underBinder +onlyGivenNames x; first
      | (with_reducible refine Pass.cutFa (P := Keeps s0) (x := x) ?_ fun hx => ?_; rotate_left; clear_value x; have x := trivial; rotate_left; unfold x; clear x)
      | (guard_hyp x : Sched := _; have x := trivial)
      | (guard_hyp x : _ := _; clear_value x; have x := trivial))
    | with_reducible first
        | apply scrambleJob_keeps | apply_assumption -exfalso -symm | apply Pass.ite (P := Keeps s0)
    | (with_reducible refine Keeps.upd ?_ rfl rfl rfl rfl rfl rfl rfl rfl rfl; with_reducible assumption)
    | with_reducible apply Keeps.addFree

theorem endRecord_keeps {s0 : State} {s : State} (t : Machine.Task) (i r measured : Nat) (h_s : Keeps s0 s) :
    Keeps s0 (State.endRecord s t i r measured) := by
  unfold State.endRecord
  repeat' first
    | with_reducible assumption
    | (extract_lets -underBinder +onlyGivenNames x; first
      | (with_reducible refine Pass.cut (P := Keeps s0) (x := x) ?_ fun hx => ?_; rotate_left; clear_value x; have x := trivial; rotate_left; unfold x; clear x)
      | (guard_hyp x : _ := _; clear_value x; have x := trivial))
    | with_reducible first
        | apply writeStatus_keeps | apply setOutcome_keeps | apply setCredit_keeps | apply signal_keeps
        | apply Pass.ite (P := Keeps s0)

theorem releaseEngines_keeps {s0 : State} {s : State} (t : Machine.Task) (phase : Nat) (h_s : Keeps s0 s) :
    Keeps s0 (State.releaseEngines s t phase) := by
  unfold State.releaseEngines
  repeat' first
    | intro _
    | with_reducible assumption
    | (extract_lets -underBinder +onlyGivenNames x; first
      | (with_reducible refine Pass.cut (P := Keeps s0) (x := x) ?_ fun hx => ?_; rotate_left; clear_value x; have x := trivial; rotate_left; unfold x; clear x)
      | (guard_hyp x : Sched := _; have x := trivial)
      | (guard_hyp x : Colls := _; have x := trivial))
    | with_reducible first
        | apply setBusy_keeps | apply Pass.foldl (P := Keeps s0) | apply Pass.ite (P := Keeps s0)
    | (with_reducible refine Keeps.upd ?_ rfl rfl rfl rfl rfl rfl rfl rfl rfl; with_reducible assumption)

theorem complete_keeps {s0 : State} {s : State} (t : Machine.Task) (q : TaskTiming) (h_s : Keeps s0 s) :
    Keeps s0 (State.complete s t q) := by
  unfold State.complete
  repeat' first
    | intro _
    | with_reducible assumption
    | (extract_lets -underBinder +onlyGivenNames x; with_reducible refine Pass.cut (P := Keeps s0) (x := x) ?_ fun hx => ?_; rotate_left; clear_value x; have x := trivial; rotate_left; unfold x; clear x)
    | with_reducible first
        | apply noteEnds_keeps | apply noteAlways_keeps | apply addTiming_keeps | apply endRecord_keeps
        | apply releaseEngines_keeps | apply Pass.foldl (P := Keeps s0) | apply Pass.ite (P := Keeps s0)

theorem finishTask_keeps {s0 : State} (t : Machine.Task) :
    PassM (Keeps s0) (finishTask t : M Unit) := by
  unfold finishTask
  repeat' first
    | intro _
    | with_reducible first
        | assumption | apply mod_keeps | apply scrambleJob_keeps | apply finishUpdate_keeps | apply PassM.pure
        | apply PassM.getBind | apply PassM.bind | apply PassM.ite

theorem execTaskCompletion_keeps {s0 : State} (rec : Nat) (timing : TaskTiming) {s : State} (h_s : Keeps s0 s) :
    PassO (Keeps s0) (execTaskCompletion rec timing s) := by
  unfold execTaskCompletion
  repeat' first
    | with_reducible first
        | assumption | apply failTask_keeps | apply complete_keeps | apply finishTask_keeps | apply PassO.next
        | apply PassO.ite
    | split
    | refine PassM.ok ?_ ?_ (by with_reducible assumption)
    | refine PassM.error ?_ ?_ (by with_reducible assumption)

theorem endJoin_keeps {s0 : State} {s : State} (t : Machine.Task) (h_s : Keeps s0 s) :
    Keeps s0 (State.endJoin s t) := by
  unfold State.endJoin
  repeat' with_reducible first | assumption | apply complete_keeps | apply Pass.ite (P := Keeps s0)

theorem execJoin_keeps {s0 : State} (rec : Nat) {s : State} (h_s : Keeps s0 s) :
    PassO (Keeps s0) (execJoin rec s) := by
  unfold execJoin
  repeat' first
    | with_reducible first | assumption | apply endJoin_keeps | apply PassO.next
    | split

theorem execReleasePoint_keeps {s0 : State} {s : State} (h_s : Keeps s0 s) :
    PassO (Keeps s0) (execReleasePoint s) := by
  unfold execReleasePoint
  repeat' first
    | (extract_lets -underBinder +onlyGivenNames x; guard_hyp x : Colls := _; have x := trivial)
    | with_reducible apply PassO.next
    | (with_reducible refine Keeps.upd ?_ rfl rfl rfl rfl rfl rfl rfl rfl rfl; with_reducible assumption)

theorem resetStep_keeps {s0 : State} {s : State} (h_s : Keeps s0 s) :
    Keeps s0 (State.resetStep s) := by
  unfold State.resetStep
  repeat' first
    | (extract_lets -underBinder +onlyGivenNames x; guard_hyp x : Sched := _; have x := trivial)
    | (with_reducible refine Keeps.upd ?_ rfl rfl rfl rfl rfl rfl rfl rfl rfl; with_reducible assumption)

theorem settleRewrite_keeps {s0 : State} {s : State} (h_s : Keeps s0 s) :
    Keeps s0 (State.settleRewrite s) := by
  unfold State.settleRewrite
  repeat' first
    | with_reducible assumption
    | (extract_lets -underBinder +onlyGivenNames x; first
      | (with_reducible refine Pass.cut (P := Keeps s0) (x := x) ?_ fun hx => ?_; rotate_left; clear_value x; have x := trivial; rotate_left; unfold x; clear x)
      | (guard_hyp x : Sched := _; have x := trivial))
    | with_reducible first | apply scrambleJob_keeps | apply Pass.ite (P := Keeps s0)
    | (with_reducible refine Keeps.upd ?_ rfl rfl rfl rfl rfl rfl rfl rfl rfl; with_reducible assumption)

theorem latchProgram_keeps {s0 : State} {s : State} (h_s : Keeps s0 s) :
    Keeps s0 (State.latchProgram s) := by
  unfold State.latchProgram
  repeat' first
    | with_reducible assumption
    | (extract_lets -underBinder +onlyGivenNames x; first
      | (with_reducible refine Pass.cut (P := Keeps s0) (x := x) ?_ fun hx => ?_; rotate_left; clear_value x; have x := trivial; rotate_left; unfold x; clear x)
      | (guard_hyp x : _ := _; clear_value x; have x := trivial))
    | with_reducible first | apply setObj_keeps | apply settleRewrite_keeps | apply Pass.ite (P := Keeps s0)

theorem loadSteps_keeps {s0 : State} {s : State} (h_s : Keeps s0 s) :
    Keeps s0 (State.loadSteps s) := by
  unfold State.loadSteps
  repeat' first
    | with_reducible assumption
    | (extract_lets -underBinder +onlyGivenNames x; first
      | (with_reducible refine Pass.cut (P := Keeps s0) (x := x) ?_ fun hx => ?_; rotate_left; clear_value x; have x := trivial; rotate_left; unfold x; clear x)
      | (guard_hyp x : Sched := _; have x := trivial))
    | with_reducible first | apply setObj_keeps | exact Keeps.updSched (by assumption) rfl (by assumption)

theorem applyFallback_keeps {s0 : State} {s : State} (addr : Nat) (h_s : Keeps s0 s) :
    Keeps s0 (State.applyFallback s addr) := by
  unfold State.applyFallback
  repeat' first
    | intro _
    | with_reducible assumption
    | (extract_lets -underBinder +onlyGivenNames x; with_reducible refine Pass.cut (P := Keeps s0) (x := x) ?_ fun hx => ?_; rotate_left; clear_value x; have x := trivial; rotate_left; unfold x; clear x)
    | with_reducible first
        | apply count_keeps | apply scrambleJob_keeps | apply readNat_keeps | apply writeNat_keeps | apply PassM.bind
        | apply Pass.ite (P := Keeps s0)
    | split
    | refine PassM.ok ?_ ?_ (by with_reducible assumption)
    | refine PassM.error ?_ ?_ (by with_reducible assumption)

theorem runFallbacks_keeps {s0 s : State} (h : Keeps s0 s) : Keeps s0 s.runFallbacks := by
  unfold State.runFallbacks
  extract_lets x
  refine Keeps.changeSched (x := x) ?_ fun _ => Nat.zero_le _
  unfold x
  exact Pass.ite (P := Keeps s0) (Pass.foldl (P := Keeps s0) h fun _ _ k => applyFallback_keeps _ k) h

theorem leaveRunning_keeps {s0 : State} {s : State} (st : Nat) (h_s : Keeps s0 s) :
    Keeps s0 (State.leaveRunning s st) := by
  unfold State.leaveRunning
  repeat' with_reducible first | assumption | apply setObj_keeps | apply armVector_keeps

theorem duskStop_keeps {s0 : State} {s : State} (h_s : Keeps s0 s) :
    Keeps s0 (State.duskStop s) := by
  unfold State.duskStop
  repeat' first
    | with_reducible assumption
    | (extract_lets -underBinder +onlyGivenNames x; guard_hyp x : Resilience := _; have x := trivial)
    | with_reducible apply Pass.ite (P := Keeps s0)
    | (with_reducible refine Keeps.upd ?_ rfl rfl rfl rfl rfl rfl rfl rfl rfl; with_reducible assumption)

theorem beginStep_keeps {s0 : State} {s : State} (h_s : Keeps s0 s) :
    Keeps s0 (State.beginStep s) := by
  unfold State.beginStep
  repeat' with_reducible first | assumption | apply setObj_keeps | apply latchProgram_keeps

theorem stepOthers_keeps {s0 : State} {s : State} (h_s : Keeps s0 s) :
    Keeps s0 (State.stepOthers s) := by
  unfold State.stepOthers
  repeat' first
    | with_reducible assumption
    | (extract_lets -underBinder +onlyGivenNames x; first
      | (with_reducible refine Pass.cut (P := Keeps s0) (x := x) ?_ fun hx => ?_; rotate_left; clear_value x; have x := trivial; rotate_left; unfold x; clear x)
      | (guard_hyp x : Colls := _; have x := trivial)
      | (guard_hyp x : Numerics := _; have x := trivial))
    | with_reducible first | apply setObj_keeps | apply addObj_keeps | apply runFallbacks_keeps
    | (with_reducible refine Keeps.upd ?_ rfl rfl rfl rfl rfl rfl rfl rfl rfl; with_reducible assumption)

theorem clearFresh_keeps {s0 : State} {s : State} (h_s : Keeps s0 s) :
    Keeps s0 (State.clearFresh s) := by
  unfold State.clearFresh
  repeat' first
    | (extract_lets -underBinder +onlyGivenNames x; guard_hyp x : Sched := _; have x := trivial)
    | (with_reducible refine Keeps.upd ?_ rfl rfl rfl rfl rfl rfl rfl rfl rfl; with_reducible assumption)

theorem nextStep_keeps {s0 : State} {s : State} (h_s : Keeps s0 s) :
    Keeps s0 (State.nextStep s) := by
  unfold State.nextStep
  repeat' first
    | with_reducible assumption
    | (extract_lets -underBinder +onlyGivenNames x; first
      | (with_reducible refine Pass.cut (P := Keeps s0) (x := x) ?_ fun hx => ?_; rotate_left; clear_value x; have x := trivial; rotate_left; unfold x; clear x)
      | (guard_hyp x : _ := _; clear_value x; have x := trivial))
    | with_reducible first
        | apply setObj_keeps | apply loadSteps_keeps | apply leaveRunning_keeps | apply beginStep_keeps
        | apply clearFresh_keeps | apply Pass.ite (P := Keeps s0)

theorem passStep_keeps {s0 : State} {s : State} (h_s : Keeps s0 s) :
    Keeps s0 (State.passStep s) := by
  unfold State.passStep
  repeat' first
    | with_reducible assumption
    | (extract_lets -underBinder +onlyGivenNames x; with_reducible refine Pass.cut (P := Keeps s0) (x := x) ?_ fun hx => ?_; rotate_left; clear_value x; have x := trivial; rotate_left; unfold x; clear x)
    | with_reducible first
        | apply addObj_keeps | apply armVector_keeps | apply applyDue_keeps | apply resetStep_keeps
        | apply duskStop_keeps | apply stepOthers_keeps | apply nextStep_keeps | apply Pass.ite (P := Keeps s0)

theorem startProgram_keeps {s0 : State} {s : State} (h_s : Keeps s0 s) :
    Keeps s0 (State.startProgram s) := by
  unfold State.startProgram
  repeat' first
    | with_reducible first
        | assumption | apply setObj_keeps | apply resetStep_keeps | apply loadSteps_keeps | apply beginStep_keeps
        | apply clearFresh_keeps | apply Pass.ite (P := Keeps s0)

theorem stepTest_keeps {s0 : State} {s : State} (h_s : Keeps s0 s) :
    Keeps s0 (State.stepTest s) := by
  unfold State.stepTest
  repeat' first
    | with_reducible first
        | assumption | apply passStep_keeps | apply startProgram_keeps | apply Pass.ite (P := Keeps s0)

theorem takeHalt_keeps {s0 : State} {s : State} (h_s : Keeps s0 s) :
    Keeps s0 (State.takeHalt s) := by
  unfold State.takeHalt
  repeat' first
    | with_reducible assumption
    | (extract_lets -underBinder +onlyGivenNames x; first
      | (with_reducible refine Pass.cut (P := Keeps s0) (x := x) ?_ fun hx => ?_; rotate_left; clear_value x; have x := trivial; rotate_left; unfold x; clear x)
      | (guard_hyp x : Sched := _; have x := trivial)
      | (guard_hyp x : _ := _; clear_value x; have x := trivial))
    | with_reducible first | apply setObj_keeps | apply leaveRunning_keeps | apply Pass.ite (P := Keeps s0)
    | split
    | (with_reducible refine Keeps.upd ?_ rfl rfl rfl rfl rfl rfl rfl rfl rfl; with_reducible assumption)

theorem slipTest_keeps {s0 : State} {s : State} (h_s : Keeps s0 s) :
    Keeps s0 (State.slipTest s).2 := by
  unfold State.slipTest
  repeat' first
    | with_reducible assumption
    | (extract_lets -underBinder +onlyGivenNames x; first
      | (with_reducible refine Pass.cut (P := Keeps s0) (x := x) ?_ fun hx => ?_; rotate_left; clear_value x; have x := trivial; rotate_left; unfold x; clear x)
      | (guard_hyp x : Sched := _; have x := trivial)
      | (guard_hyp x : _ := _; clear_value x; have x := trivial))
    | with_reducible apply addObj_keeps
    | split
    | with_reducible exact Keeps.updSched (by assumption) rfl (by assumption)

theorem advanceTick_keeps {s0 : State} {s : State} (h_s : Keeps s0 s) :
    Keeps s0 (State.advanceTick s) := by
  unfold State.advanceTick
  repeat' first
    | with_reducible assumption
    | (extract_lets -underBinder +onlyGivenNames x; first
      | (with_reducible refine Pass.cut (P := Keeps s0) (x := x) ?_ fun hx => ?_; rotate_left; clear_value x; have x := trivial; rotate_left; unfold x; clear x)
      | (guard_hyp x : Sched := _; have x := trivial)
      | (guard_hyp x : Timing := _; have x := trivial)
      | (guard_hyp x : _ := _; clear_value x; have x := trivial))
    | with_reducible first | apply setObj_keeps | apply count_keeps | apply Pass.ite (P := Keeps s0)
    | split
    | (with_reducible refine Keeps.upd ?_ rfl rfl rfl rfl rfl rfl rfl rfl rfl; with_reducible assumption)

theorem setLength_keeps {s0 : State} {s : State} (h_s : Keeps s0 s) :
    Keeps s0 (State.setLength s) := by
  unfold State.setLength
  repeat' first
    | (extract_lets -underBinder +onlyGivenNames x; first
      | (guard_hyp x : Sched := _; have x := trivial)
      | (guard_hyp x : Timing := _; have x := trivial)
      | (guard_hyp x : _ := _; clear_value x; have x := trivial))
    | (with_reducible refine Keeps.upd ?_ rfl rfl rfl rfl rfl rfl rfl rfl rfl; with_reducible assumption)

theorem clearAll_keeps {s0 s : State} (h : Keeps s0 s) : Keeps s0 s.clearAll :=
  Keeps.changeMem (x := (s.clearSram fun _ => true).setObj oHashEntriesValid 0)
    (setObj_keeps _ _ (clearSram_keeps _ h)) fun _ => rfl

theorem tableBoundary_keeps {s0 : State} {s : State} (h_s : Keeps s0 s) :
    Keeps s0 (State.tableBoundary s) := by
  unfold State.tableBoundary
  repeat' first
    | with_reducible assumption
    | (extract_lets -underBinder +onlyGivenNames x; first
      | (with_reducible refine Pass.cut (P := Keeps s0) (x := x) ?_ fun hx => ?_; rotate_left; clear_value x; have x := trivial; rotate_left; unfold x; clear x)
      | (guard_hyp x : Security := _; have x := trivial)
      | (guard_hyp x : _ := _; clear_value x; have x := trivial))
    | with_reducible first
        | apply setObj_keeps | apply freeAllPages_keeps | apply clearAll_keeps | apply Pass.ite (P := Keeps s0)
    | (with_reducible refine Keeps.upd ?_ rfl rfl rfl rfl rfl rfl rfl rfl rfl; with_reducible assumption)

theorem readSensors_keeps {s0 : State} {s : State} (env : TickEnv) (h_s : Keeps s0 s) :
    Keeps s0 (State.readSensors s env).2 := by
  unfold State.readSensors
  repeat' first
    | (extract_lets -underBinder +onlyGivenNames x; first
      | (guard_hyp x : ResetState := _; have x := trivial)
      | (guard_hyp x : _ := _; clear_value x; have x := trivial))
    | with_reducible first
        | apply setObj_keeps | apply addObj_keeps | apply count_keeps | apply Pass.ite (P := Keeps s0)
    | (with_reducible refine Keeps.upd ?_ rfl rfl rfl rfl rfl rfl rfl rfl rfl; with_reducible assumption)

theorem noon_keeps {s0 : State} {s : State} (env : TickEnv) (h_s : Keeps s0 s) :
    Keeps s0 (State.noon s env).2 := by
  unfold State.noon
  repeat' first
    | with_reducible assumption
    | (extract_lets -underBinder +onlyGivenNames x; first
      | (with_reducible refine Pass.cut (P := Keeps s0) (x := x) ?_ fun hx => ?_; rotate_left; clear_value x; have x := trivial; rotate_left; unfold x; clear x)
      | (guard_hyp x : _ := _; clear_value x; have x := trivial))
    | with_reducible first | apply setObj_keeps | apply count_keeps | apply Pass.ite (P := Keeps s0)

theorem sendVector_keeps {s0 : State} {s : State} (v : Nat) (h_s : Keeps s0 s) :
    Keeps s0 (State.sendVector s v) := by
  unfold State.sendVector
  repeat' with_reducible first | assumption | apply emit_keeps

theorem signalVectors_keeps {s0 : State} {s : State} (h_s : Keeps s0 s) :
    Keeps s0 (State.signalVectors s) := by
  unfold State.signalVectors
  repeat' first
    | intro _
    | with_reducible assumption
    | (extract_lets -underBinder +onlyGivenNames x; first
      | (with_reducible refine Pass.cut (P := Keeps s0) (x := x) ?_ fun hx => ?_; rotate_left; clear_value x; have x := trivial; rotate_left; unfold x; clear x)
      | (guard_hyp x : Dict := _; have x := trivial)
      | (guard_hyp x : _ := _; clear_value x; have x := trivial))
    | with_reducible first
        | apply sendVector_keeps | apply Pass.foldl (P := Keeps s0) | apply Pass.ite (P := Keeps s0)
    | (with_reducible refine Keeps.upd ?_ rfl rfl rfl rfl rfl rfl rfl rfl rfl; with_reducible assumption)

theorem clearSticky_keeps {s0 : State} {s : State} (h_s : Keeps s0 s) :
    Keeps s0 (State.clearSticky s) := by
  unfold State.clearSticky
  repeat' first
    | (extract_lets -underBinder +onlyGivenNames x; first
      | (guard_hyp x : Numerics := _; have x := trivial)
      | (guard_hyp x : _ := _; clear_value x; have x := trivial))
    | (with_reducible refine Keeps.upd ?_ rfl rfl rfl rfl rfl rfl rfl rfl rfl; with_reducible assumption)

theorem switchPeriod_keeps {s0 : State} {s : State} (h_s : Keeps s0 s) :
    Keeps s0 (State.switchPeriod s) := by
  unfold State.switchPeriod
  repeat' first
    | with_reducible assumption
    | (extract_lets -underBinder +onlyGivenNames x; first
      | (with_reducible refine Pass.cut (P := Keeps s0) (x := x) ?_ fun hx => ?_; rotate_left; clear_value x; have x := trivial; rotate_left; unfold x; clear x)
      | (guard_hyp x : Sched := _; have x := trivial))
    | with_reducible first | apply setObj_keeps | apply scrambleJob_keeps | apply Pass.ite (P := Keeps s0)
    | split
    | with_reducible exact Keeps.updSched (by assumption) rfl (by assumption)

theorem execPeriodSwitch_keeps {s0 : State} {s : State} (h_s : Keeps s0 s) :
    PassO (Keeps s0) (execPeriodSwitch s) := by
  unfold execPeriodSwitch
  repeat' first
    | with_reducible first
        | assumption | apply switchPeriod_keeps | apply PassO.next | apply Pass.ite (P := Keeps s0)

theorem execEpochSwitch_keeps {s0 : State} {s : State} (h_s : Keeps s0 s) :
    PassO (Keeps s0) (execEpochSwitch s) := by
  unfold execEpochSwitch
  repeat' with_reducible first | assumption | apply applyDue_keeps | apply PassO.next

theorem execRouteSwitch_keeps {s0 : State} {s : State} (h_s : Keeps s0 s) :
    PassO (Keeps s0) (execRouteSwitch s) := by
  unfold execRouteSwitch
  repeat' with_reducible first | assumption | apply applyDue_keeps | apply PassO.next

theorem execBatchSwitch_keeps {s0 : State} {s : State} (h_s : Keeps s0 s) :
    PassO (Keeps s0) (execBatchSwitch s) := by
  unfold execBatchSwitch
  repeat' with_reducible first | assumption | apply applyDue_keeps | apply PassO.next | apply PassO.ite

theorem execStepTickLimit_keeps {s0 : State} {s : State} (h_s : Keeps s0 s) :
    PassO (Keeps s0) (execStepTickLimit s) := by
  unfold execStepTickLimit
  repeat' first
    | with_reducible assumption
    | (extract_lets -underBinder +onlyGivenNames x; guard_hyp x : _ := _; clear_value x; have x := trivial)
    | with_reducible first | apply taskFault_keeps | apply PassO.next | apply PassO.ite

theorem duskBoundary_keeps {s0 : State} {s : State} (h_s : Keeps s0 s) :
    Keeps s0 (State.duskBoundary s) := by
  unfold State.duskBoundary
  repeat' first
    | with_reducible first
        | assumption | apply setObj_keeps | apply leaveRunning_keeps | apply duskStop_keeps
        | apply Pass.ite (P := Keeps s0)

theorem boundary_keeps {s0 s : State} (env : TickEnv) (h : Keeps s0 s) : Keeps s0 (s.boundary env) := by
  unfold State.boundary
  extract_lets s1 s1a s3 s4 s5 s6 s7 n s8
  have h4 : Keeps s0 s4 := applyDue_keeps _ (signalVectors_keeps (advanceTick_keeps (endArrays_keeps _
    (Pass.foldl (P := Keeps s0) h fun _ _ k => endJoin_keeps _ k))))
  clear_value s4
  have h5 : Keeps s0 s5 := Pass.ite (P := Keeps s0) (switchPeriod_keeps h4) h4
  clear_value s5
  have h8 : Keeps s0 s8 := addObj_keeps _ _ (takeHalt_keeps (flushCounts_keeps (tableBoundary_keeps
    (clearSticky_keeps (setLength_keeps h5)))))
  clear_value s8
  split
  rename_i a e1
  split
  rename_i b e2
  split
  rename_i c e3
  extract_lets x
  have h9 : Keeps s0 x := duskBoundary_keeps (raiseBoundary_keeps _ (stepTest_keeps
    (Pass.of_snd (P := Keeps s0) (noon_keeps _ (Pass.of_snd (P := Keeps s0) (readSensors_keeps _ (Pass.of_snd (P := Keeps s0) (slipTest_keeps h8) e1)) e2)) e3)))
  exact prefetchAll_keeps (Pass.ite (P := Keeps s0) (admissionScan_keeps h9) h9)

theorem execTickBoundary_keeps {s0 : State} (env : TickEnv) {s : State} (h_s : Keeps s0 s) :
    PassO (Keeps s0) (execTickBoundary env s) := by
  unfold execTickBoundary
  repeat' first
    | with_reducible first
        | assumption | apply boundary_keeps | apply PassO.next | apply Pass.ite (P := Keeps s0)

end Sys2Proof.Safety
end

