-- ==== Sys2Proof/Laws/KeepsErrors.lean ====
section
/-! SUPPORT. The commands' parts in Machine/Errors.lean keep what `Keeps` names. -/

namespace Sys2Proof.Safety

open Sys2Proof.Machine

theorem poisoned_keeps {s0 : State} {s : State} (stack : Nat) (r : EccReport) (loc : Nat) (h_s : Keeps s0 s) :
    Keeps s0 (State.poisoned s stack r loc) :=
  h_s.trans (Pages.keeps (poisoned_pages _ _ _ (Pages.refl _)))

theorem execScrubPass_keeps {s0 : State} (stack : Nat) (reports : List EccReport) {s : State} (h_s : Keeps s0 s) :
    PassO (Keeps s0) (execScrubPass stack reports s) :=
  .carry (execScrubPass_pages _ _ (Pages.refl _)) h_s fun _ _ h k => h.trans (Pages.keeps k)

end Sys2Proof.Safety
end

