-- ==== Sys2Proof/Laws/KeepsCollectives.lean ====
section
/-! SUPPORT. The commands' parts in Machine/Collectives.lean keep what `Keeps` names. -/

namespace Sys2Proof.Safety

open Sys2Proof.Machine

theorem CollCtx_upd_keeps {s0 : State} (c : CollCtx) (f : Coll → Coll) :
    PassM (Keeps s0) (CollCtx.upd c f : M Unit) :=
  .carry (fun _ => CollCtx_upd_collects _ _) Collects.refl fun _ _ h k => h.trans (Collects.keeps k)

theorem CollCtx_read_keeps {s0 : State} (c : CollCtx) (offset n : Nat) :
    PassM (Keeps s0) (CollCtx.read c offset n : M (List Byte)) :=
  .carry (fun _ => CollCtx_read_collects _ _ _) Collects.refl fun _ _ h k => h.trans (Collects.keeps k)

theorem CollCtx_shardCheck_keeps {s0 : State} (c : CollCtx) (d : Desc) :
    PassM (Keeps s0) (CollCtx.shardCheck c d : M Unit) := by
  unfold CollCtx.shardCheck
  repeat' first
    | intro _
    | (extract_lets -underBinder +onlyGivenNames x; first
      | (with_reducible refine PassM.cut (P := Keeps s0) (x := x) ?_ fun hx => ?_; rotate_left; clear_value x; have x := trivial; rotate_left; unfold x; clear x)
      | (guard_hyp x : _ := _; clear_value x; have x := trivial))
    | with_reducible first
        | apply readNat_keeps | apply writeNat_keeps | apply CollCtx_upd_keeps | apply PassM.pure | apply PassM.bind
        | apply_assumption -exfalso -symm | apply PassM.ite

theorem disown_keeps {s0 : State} {s : State} (tag : Nat) (h_s : Keeps s0 s) :
    Keeps s0 (State.disown s tag) := by
  unfold State.disown
  repeat' first
    | (extract_lets -underBinder +onlyGivenNames x; guard_hyp x : Colls := _; have x := trivial)
    | (with_reducible refine Keeps.upd ?_ rfl rfl rfl rfl rfl rfl rfl rfl rfl; with_reducible assumption)

theorem CollCtx_start_keeps {s0 : State} (c : CollCtx) :
    PassM (Keeps s0) (CollCtx.start c : M Unit) := by
  unfold CollCtx.start
  repeat' first
    | intro _
    | with_reducible assumption
    | (extract_lets -underBinder +onlyGivenNames x; with_reducible refine PassM.cut (P := Keeps s0) (x := x) ?_ fun hx => ?_; rotate_left; clear_value x; have x := trivial; rotate_left; unfold x; clear x)
    | with_reducible first
        | apply mod_keeps | apply readNat_keeps | apply modTask_keeps | apply undefinedJob_keeps | apply fetchDesc_keeps
        | apply undefinedIf_keeps | apply CollCtx_upd_keeps | apply CollCtx_shardCheck_keeps | apply disown_keeps
        | apply PassM.pure | apply PassM.throw | apply PassM.getBind | apply PassM.bind | apply PassM.forM
        | apply_assumption -exfalso -symm | apply PassM.ite
    | split

theorem CollCtx_finish_keeps {s0 : State} (c : CollCtx) :
    PassM (Keeps s0) (CollCtx.finish c : M Unit) :=
  .carry (fun _ => CollCtx_finish_collects _) Collects.refl fun _ _ h k => h.trans (Collects.keeps k)

theorem CollCtx_step_keeps {s0 : State} (c : CollCtx) :
    PassM (Keeps s0) (CollCtx.step c : M Unit) :=
  .carry (fun _ => CollCtx_step_collects _) Collects.refl fun _ _ h k => h.trans (Collects.keeps k)

theorem failColl_keeps {s0 : State} {s : State} (c : CollCtx) (t : Machine.Task) (a : Abort) (h_s : Keeps s0 s) :
    Keeps s0 (State.failColl s c t a) :=
  h_s.trans (Collects.keeps (failColl_collects _ _ _ (Collects.refl _)))

theorem execAllReduce_keeps {s0 : State} (r : Nat) {s : State} (h_s : Keeps s0 s) :
    PassO (Keeps s0) (execAllReduce r s) :=
  .carry (execAllReduce_collects _ (Collects.refl _)) h_s fun _ _ h k => h.trans (Collects.keeps k)

theorem execReduceScatter_keeps {s0 : State} (r : Nat) {s : State} (h_s : Keeps s0 s) :
    PassO (Keeps s0) (execReduceScatter r s) :=
  .carry (execReduceScatter_collects _ (Collects.refl _)) h_s fun _ _ h k => h.trans (Collects.keeps k)

theorem execAllGather_keeps {s0 : State} (r : Nat) {s : State} (h_s : Keeps s0 s) :
    PassO (Keeps s0) (execAllGather r s) :=
  .carry (execAllGather_collects _ (Collects.refl _)) h_s fun _ _ h k => h.trans (Collects.keeps k)

theorem execAllToAll_keeps {s0 : State} (r : Nat) {s : State} (h_s : Keeps s0 s) :
    PassO (Keeps s0) (execAllToAll r s) :=
  .carry (execAllToAll_collects _ (Collects.refl _)) h_s fun _ _ h k => h.trans (Collects.keeps k)

theorem execAllToAllv_keeps {s0 : State} (r : Nat) {s : State} (h_s : Keeps s0 s) :
    PassO (Keeps s0) (execAllToAllv r s) :=
  .carry (execAllToAllv_collects _ (Collects.refl _)) h_s fun _ _ h k => h.trans (Collects.keeps k)

theorem execAllToAllvReverse_keeps {s0 : State} (r : Nat) {s : State} (h_s : Keeps s0 s) :
    PassO (Keeps s0) (execAllToAllvReverse r s) :=
  .carry (execAllToAllvReverse_collects _ (Collects.refl _)) h_s fun _ _ h k => h.trans (Collects.keeps k)

theorem execBroadcast_keeps {s0 : State} (r : Nat) {s : State} (h_s : Keeps s0 s) :
    PassO (Keeps s0) (execBroadcast r s) :=
  .carry (execBroadcast_collects _ (Collects.refl _)) h_s fun _ _ h k => h.trans (Collects.keeps k)

theorem execPermute_keeps {s0 : State} (r : Nat) {s : State} (h_s : Keeps s0 s) :
    PassO (Keeps s0) (execPermute r s) :=
  .carry (execPermute_collects _ (Collects.refl _)) h_s fun _ _ h k => h.trans (Collects.keeps k)

theorem execBarrier_keeps {s0 : State} (r : Nat) {s : State} (h_s : Keeps s0 s) :
    PassO (Keeps s0) (execBarrier r s) :=
  .carry (execBarrier_collects _ (Collects.refl _)) h_s fun _ _ h k => h.trans (Collects.keeps k)

theorem dropFront_keeps {s0 : State} {s : State} (p : Nat) (m : Msg) (h_s : Keeps s0 s) :
    Keeps s0 (State.dropFront s p m) :=
  h_s.trans (Collects.keeps (dropFront_collects _ _ (Collects.refl _)))

theorem execReady_keeps {s0 : State} (port vc : Nat) {s : State} (h_s : Keeps s0 s) :
    PassO (Keeps s0) (execReady port vc s) :=
  .carry (execReady_collects _ _ (Collects.refl _)) h_s fun _ _ h k => h.trans (Collects.keeps k)

theorem execReduce_keeps {s0 : State} (port vc : Nat) {s : State} (h_s : Keeps s0 s) :
    PassO (Keeps s0) (execReduce port vc s) :=
  .carry (execReduce_collects _ _ (Collects.refl _)) h_s fun _ _ h k => h.trans (Collects.keeps k)

theorem execPlace_keeps {s0 : State} (port vc : Nat) {s : State} (h_s : Keeps s0 s) :
    PassO (Keeps s0) (execPlace port vc s) :=
  .carry (execPlace_collects _ _ (Collects.refl _)) h_s fun _ _ h k => h.trans (Collects.keeps k)

theorem execCounts_keeps {s0 : State} (port vc : Nat) {s : State} (h_s : Keeps s0 s) :
    PassO (Keeps s0) (execCounts port vc s) :=
  .carry (execCounts_collects _ _ (Collects.refl _)) h_s fun _ _ h k => h.trans (Collects.keeps k)

theorem execBarrierUp_keeps {s0 : State} (port vc : Nat) {s : State} (h_s : Keeps s0 s) :
    PassO (Keeps s0) (execBarrierUp port vc s) :=
  .carry (execBarrierUp_collects _ _ (Collects.refl _)) h_s fun _ _ h k => h.trans (Collects.keeps k)

theorem execBarrierDown_keeps {s0 : State} (port vc : Nat) {s : State} (h_s : Keeps s0 s) :
    PassO (Keeps s0) (execBarrierDown port vc s) :=
  .carry (execBarrierDown_collects _ _ (Collects.refl _)) h_s fun _ _ h k => h.trans (Collects.keeps k)

theorem execBarrierRelease_keeps {s0 : State} (r : Nat) {s : State} (h_s : Keeps s0 s) :
    PassO (Keeps s0) (execBarrierRelease r s) :=
  .carry (execBarrierRelease_collects _ (Collects.refl _)) h_s fun _ _ h k => h.trans (Collects.keeps k)

end Sys2Proof.Safety
end

