-- ==== Sys2Proof/Laws/KeepsStarts.lean ====
section
/-! SUPPORT. The commands' parts in Machine/Starts.lean keep what `Keeps` names. -/

namespace Sys2Proof.Safety

open Sys2Proof.Machine

theorem leaveOn_keeps {s0 : State} {s : State} (cls : EngineClass) (e : Nat) (h_s : Keeps s0 s) :
    Keeps s0 (State.leaveOn s cls e) := by
  unfold State.leaveOn
  repeat' first
    | with_reducible first | assumption | apply modTask_keeps
    | split

theorem beginOn_keeps {s0 : State} {s : State} (cls : EngineClass) (r : Nat) (es : List Nat) (now : Nat) (h_s : Keeps s0 s) :
    Keeps s0 (State.beginOn s cls r es now) := by
  unfold State.beginOn
  repeat' first
    | intro _
    | with_reducible first
        | assumption | apply modTask_keeps | apply leaveOn_keeps | apply Pass.foldl (P := Keeps s0)

theorem rouse_keeps {s0 : State} {s : State} (kind phase : Nat) (es : List Nat) (h_s : Keeps s0 s) :
    Keeps s0 (State.rouse s kind phase es) := by
  unfold State.rouse
  repeat' first
    | intro _
    | with_reducible assumption
    | (extract_lets -underBinder +onlyGivenNames x; with_reducible refine Pass.cut (P := Keeps s0) (x := x) ?_ fun hx => ?_; rotate_left; clear_value x; have x := trivial; rotate_left; unfold x; clear x)
    | with_reducible first
        | apply setBusy_keeps | apply fillSram_keeps | apply Pass.foldl (P := Keeps s0) | apply Pass.ite (P := Keeps s0)

theorem startReads_keeps {s0 : State} (t : Machine.Task) (e : Nat) :
    PassM (Keeps s0) (startReads t e : M Unit) := by
  unfold startReads
  repeat' first
    | intro _
    | with_reducible first | apply readOperands_keeps | apply PassM.forM

theorem refuseUpdate_keeps {s0 : State} {s : State} (t : Machine.Task) (step lo hi cause : Nat) (h_s : Keeps s0 s) :
    Keeps s0 (State.refuseUpdate s t step lo hi cause) := by
  unfold State.refuseUpdate
  repeat' first
    | with_reducible assumption
    | (extract_lets -underBinder +onlyGivenNames x; with_reducible refine Pass.cut (P := Keeps s0) (x := x) ?_ fun hx => ?_; rotate_left; clear_value x; have x := trivial; rotate_left; unfold x; clear x)
    | with_reducible first
        | apply count_keeps | apply haltWith_keeps | apply noteSkew_keeps | apply writeStatus_keeps
        | apply setOutcome_keeps | apply releaseEngines_keeps

theorem startUpdate_keeps {s0 : State} {s : State} (t : Machine.Task) (h_s : Keeps s0 s) :
    Keeps s0 (State.startUpdate s t) := by
  unfold State.startUpdate
  repeat' first
    | with_reducible first
        | assumption | apply failTask_keeps | apply setTask_keeps | apply updateStart_keeps | apply refuseUpdate_keeps
        | apply Pass.ite (P := Keeps s0)
    | split
    | refine PassM.ok ?_ ?_ (by with_reducible assumption)
    | refine PassM.error ?_ ?_ (by with_reducible assumption)

theorem startColl_keeps {s0 : State} {s : State} (t : Machine.Task) (h_s : Keeps s0 s) :
    Keeps s0 (State.startColl s t) := by
  unfold State.startColl
  repeat' first
    | with_reducible assumption
    | (extract_lets -underBinder +onlyGivenNames x; first
      | (with_reducible refine Pass.cut (P := Keeps s0) (x := x) ?_ fun hx => ?_; rotate_left; clear_value x; have x := trivial; rotate_left; unfold x; clear x)
      | (guard_hyp x : Colls := _; have x := trivial)
      | (guard_hyp x : _ := _; clear_value x; have x := trivial))
    | with_reducible first | apply CollCtx_start_keeps | apply failColl_keeps | apply Pass.ite (P := Keeps s0)
    | split
    | (with_reducible refine Keeps.upd ?_ rfl rfl rfl rfl rfl rfl rfl rfl rfl; with_reducible assumption)
    | refine PassM.ok ?_ ?_ (by with_reducible assumption)
    | refine PassM.error ?_ ?_ (by with_reducible assumption)

theorem allStarted_keeps {s0 : State} {s : State} (t : Machine.Task) (h_s : Keeps s0 s) :
    Keeps s0 (State.allStarted s t) := by
  unfold State.allStarted
  repeat' first
    | with_reducible assumption
    | (extract_lets -underBinder +onlyGivenNames x; guard_hyp x : Mem := _; have x := trivial)
    | with_reducible first
        | apply failTask_keeps | apply startUpdate_keeps | apply startColl_keeps | apply Pass.ite (P := Keeps s0)
    | split
    | (with_reducible refine Keeps.upd ?_ rfl rfl rfl rfl rfl rfl rfl rfl rfl; with_reducible assumption)

theorem readAll_keeps {s0 : State} {s : State} (r : Nat) (es : List Nat) (h_s : Keeps s0 s) :
    Keeps s0 (State.readAll s r es) := by
  unfold State.readAll
  repeat' first
    | intro _
    | with_reducible first
        | assumption | apply failTask_keeps | apply startReads_keeps | apply Pass.foldl (P := Keeps s0)
        | apply Pass.ite (P := Keeps s0)
    | split
    | refine PassM.ok ?_ ?_ (by with_reducible assumption)
    | refine PassM.error ?_ ?_ (by with_reducible assumption)

theorem startOn_keeps {s0 : State} {s : State} (cls : EngineClass) (t : Machine.Task) (es : List Nat) (phase : Nat) (h_s : Keeps s0 s) :
    Keeps s0 (State.startOn s cls t es phase) := by
  unfold State.startOn
  repeat' first
    | intro _
    | with_reducible assumption
    | (extract_lets -underBinder +onlyGivenNames x; with_reducible refine Pass.cut (P := Keeps s0) (x := x) ?_ fun hx => ?_; rotate_left; clear_value x; have x := trivial; rotate_left; unfold x; clear x)
    | with_reducible first
        | apply count_keeps | apply prefetch_keeps | apply beginOn_keeps | apply rouse_keeps | apply allStarted_keeps
        | apply readAll_keeps | apply Pass.foldl (P := Keeps s0) | apply Pass.ite (P := Keeps s0)
    | split

theorem execTaskStart_keeps {s0 : State} (cls : EngineClass) (unit phase : Nat) {s : State} (h_s : Keeps s0 s) :
    PassO (Keeps s0) (execTaskStart cls unit phase s) := by
  unfold execTaskStart
  repeat' first
    | with_reducible first | assumption | apply startOn_keeps | apply PassO.next | apply PassO.ite
    | split

end Sys2Proof.Safety
end

