-- ==== Sys2Proof/Laws/KeepsSnapshot.lean ====
section
/-! SUPPORT. The commands' parts in Machine/Snapshot.lean keep what `Keeps` names. -/

namespace Sys2Proof.Safety

open Sys2Proof.Machine

theorem execSnapshot_keeps {s0 : State} (r : Nat) {s : State} (h_s : Keeps s0 s) :
    PassO (Keeps s0) (execSnapshot r s) :=
  .carry (execSnapshot_collects _ (Collects.refl _)) h_s fun _ _ h k => h.trans (Collects.keeps k)

theorem execMidnightWrite_keeps {s0 : State} (r : Nat) {s : State} (h_s : Keeps s0 s) :
    PassO (Keeps s0) (execMidnightWrite r s) :=
  .carry (execMidnightWrite_collects _ (Collects.refl _)) h_s fun _ _ h k => h.trans (Collects.keeps k)

theorem execMidnightClose_keeps {s0 : State} (r : Nat) {s : State} (h_s : Keeps s0 s) :
    PassO (Keeps s0) (execMidnightClose r s) :=
  .carry (execMidnightClose_collects _ (Collects.refl _)) h_s fun _ _ h k => h.trans (Collects.keeps k)

theorem execContributionDeadline_keeps {s0 : State} (r : Nat) {s : State} (h_s : Keeps s0 s) :
    PassO (Keeps s0) (execContributionDeadline r s) :=
  .carry (execContributionDeadline_collects _ (Collects.refl _)) h_s fun _ _ h k => h.trans (Collects.keeps k)

theorem onTwin_keeps {s0 : State} {s : State} (port vc kind : Nat) (act : TwinMsg → State → State) (h_s : Keeps s0 s) (h_act : ∀ a0 (y : State), Keeps s0 y → Keeps s0 (act a0 y)) :
    Keeps s0 (State.onTwin s port vc kind act) := by
  unfold State.onTwin
  repeat' first
    | with_reducible assumption
    | (extract_lets -underBinder +onlyGivenNames x; with_reducible refine Pass.cut (P := Keeps s0) (x := x) ?_ fun hx => ?_; rotate_left; clear_value x; have x := trivial; rotate_left; unfold x; clear x)
    | with_reducible first
        | apply h_act | apply count_keeps | apply dropFront_keeps | apply Pass.ite (P := Keeps s0)
    | split

theorem holding_keeps {s0 : State} {s : State} (body : M Unit) (h_s : Keeps s0 s) (h_body : PassM (Keeps s0) (body )) :
    Keeps s0 (State.holding s body) := by
  unfold State.holding
  repeat' first
    | with_reducible first | assumption | apply count_keeps
    | split
    | refine PassM.ok ?_ ?_ (by with_reducible assumption)
    | refine PassM.error ?_ ?_ (by with_reducible assumption)

theorem execHeartbeat_keeps {s0 : State} (port vc : Nat) {s : State} (h_s : Keeps s0 s) :
    PassO (Keeps s0) (execHeartbeat port vc s) :=
  .carry (execHeartbeat_collects _ _ (Collects.refl _)) h_s fun _ _ h k => h.trans (Collects.keeps k)

theorem execHeartbeatSend_keeps {s0 : State} {s : State} (h_s : Keeps s0 s) :
    PassO (Keeps s0) (execHeartbeatSend s) :=
  .carry (execHeartbeatSend_collects (Collects.refl _)) h_s fun _ _ h k => h.trans (Collects.keeps k)

theorem execTwinLost_keeps {s0 : State} {s : State} (h_s : Keeps s0 s) :
    PassO (Keeps s0) (execTwinLost s) :=
  .carry (execTwinLost_collects (Collects.refl _)) h_s fun _ _ h k => h.trans (Collects.keeps k)

theorem execSnapData_keeps {s0 : State} (port vc : Nat) {s : State} (h_s : Keeps s0 s) :
    PassO (Keeps s0) (execSnapData port vc s) :=
  .carry (execSnapData_collects _ _ (Collects.refl _)) h_s fun _ _ h k => h.trans (Collects.keeps k)

theorem execSnapHeader_keeps {s0 : State} (port vc : Nat) {s : State} (h_s : Keeps s0 s) :
    PassO (Keeps s0) (execSnapHeader port vc s) :=
  .carry (execSnapHeader_collects _ _ (Collects.refl _)) h_s fun _ _ h k => h.trans (Collects.keeps k)

theorem execFetch_keeps {s0 : State} (port vc : Nat) {s : State} (h_s : Keeps s0 s) :
    PassO (Keeps s0) (execFetch port vc s) :=
  .carry (execFetch_collects _ _ (Collects.refl _)) h_s fun _ _ h k => h.trans (Collects.keeps k)

theorem execDusk_keeps {s0 : State} (port vc : Nat) {s : State} (h_s : Keeps s0 s) :
    PassO (Keeps s0) (execDusk port vc s) :=
  .carry (execDusk_collects _ _ (Collects.refl _)) h_s fun _ _ h k => h.trans (Collects.keeps k)

theorem execFetchData_keeps {s0 : State} (port vc : Nat) {s : State} (h_s : Keeps s0 s) :
    PassO (Keeps s0) (execFetchData port vc s) :=
  .carry (execFetchData_collects _ _ (Collects.refl _)) h_s fun _ _ h k => h.trans (Collects.keeps k)

theorem endRestore_keeps {s0 : State} {s : State} (status : Nat) (h_s : Keeps s0 s) :
    Keeps s0 (State.endRestore s status) := by
  unfold State.endRestore
  repeat' first
    | with_reducible assumption
    | (extract_lets -underBinder +onlyGivenNames x; first
      | (with_reducible refine Pass.cut (P := Keeps s0) (x := x) ?_ fun hx => ?_; rotate_left; clear_value x; have x := trivial; rotate_left; unfold x; clear x)
      | (guard_hyp x : Resilience := _; have x := trivial))
    | with_reducible first | apply setObj_keeps | apply armVector_keeps
    | (with_reducible refine Keeps.upd ?_ rfl rfl rfl rfl rfl rfl rfl rfl rfl; with_reducible assumption)

theorem loadRestored_keeps {s0 : State} {s : State} (h : Nat) (body : List Byte) (h_s : Keeps s0 s) :
    Keeps s0 (State.loadRestored s h body) := by
  unfold State.loadRestored
  repeat' first
    | with_reducible assumption
    | (extract_lets -underBinder +onlyGivenNames x; first
      | (with_reducible refine Pass.cut (P := Keeps s0) (x := x) ?_ fun hx => ?_; rotate_left; clear_value x; have x := trivial; rotate_left; unfold x; clear x)
      | (guard_hyp x : Resilience := _; have x := trivial)
      | (guard_hyp x : _ := _; clear_value x; have x := trivial))
    | with_reducible first | apply setObj_keeps | apply loadStreams_keeps | apply Pass.ite (P := Keeps s0)
    | (with_reducible refine Keeps.upd ?_ rfl rfl rfl rfl rfl rfl rfl rfl rfl; with_reducible assumption)

theorem restoreWork_keeps {s0 : State} (read : Nat → Nat → M (List Byte)) (h_read : ∀ a0 a1, PassM (Keeps s0) (read a0 a1)) :
    PassM (Keeps s0) (restoreWork read : M (Nat × Option (Nat × List Byte))) := by
  unfold restoreWork
  repeat' first
    | intro _
    | with_reducible assumption
    | (extract_lets -underBinder +onlyGivenNames x; guard_hyp x : _ := _; clear_value x; have x := trivial)
    | with_reducible first
        | apply h_read | apply mod_keeps | apply scrambleJob_keeps | apply writeBytes_keeps | apply scramble_keeps
        | apply PassM.pure | apply PassM.getBind | apply PassM.bind | apply PassM.forM
        | apply Pass.foldl (P := Keeps s0) | apply PassM.ite

theorem finishRestore_keeps {s0 : State} {s : State} (read : Nat → Nat → M (List Byte)) (h_s : Keeps s0 s) (h_read : ∀ a0 a1, PassM (Keeps s0) (read a0 a1)) :
    Keeps s0 (State.finishRestore s read) := by
  unfold State.finishRestore
  repeat' first
    | intro _
    | with_reducible first
        | assumption | apply h_read | apply endRestore_keeps | apply loadRestored_keeps | apply restoreWork_keeps
    | split
    | refine PassM.ok ?_ ?_ (by with_reducible assumption)
    | refine PassM.error ?_ ?_ (by with_reducible assumption)

theorem execRestoreComplete_keeps {s0 : State} {s : State} (h_s : Keeps s0 s) :
    PassO (Keeps s0) (execRestoreComplete s) := by
  unfold execRestoreComplete
  repeat' first
    | intro _
    | with_reducible first
        | assumption | apply readBytes_keeps | apply endRestore_keeps | apply finishRestore_keeps | apply PassM.pure
        | apply PassM.throw | apply PassO.next | apply PassO.ite
    | split

theorem execDuskIdle_keeps {s0 : State} {s : State} (h_s : Keeps s0 s) :
    PassO (Keeps s0) (execDuskIdle s) :=
  .carry (execDuskIdle_collects (Collects.refl _)) h_s fun _ _ h k => h.trans (Collects.keeps k)

theorem execDuskPortStop_keeps {s0 : State} {s : State} (h_s : Keeps s0 s) :
    PassO (Keeps s0) (execDuskPortStop s) := by
  unfold execDuskPortStop
  repeat' first
    | intro _
    | with_reducible assumption
    | (extract_lets -underBinder +onlyGivenNames x; first
      | (with_reducible refine Pass.cut (P := Keeps s0) (x := x) ?_ fun hx => ?_; rotate_left; clear_value x; have x := trivial; rotate_left; unfold x; clear x)
      | (guard_hyp x : Resilience := _; have x := trivial))
    | with_reducible first
        | apply takeFree_keeps | apply linkDown_keeps | apply PassO.next | apply Pass.foldl (P := Keeps s0)
        | apply PassO.ite | apply Pass.ite (P := Keeps s0)
    | (with_reducible refine Keeps.upd ?_ rfl rfl rfl rfl rfl rfl rfl rfl rfl; with_reducible assumption)

end Sys2Proof.Safety
end

