-- ==== Sys2Proof/Laws/KeepsFarPorts.lean ====
section
/-! SUPPORT. The commands' parts in Machine/FarPorts.lean keep what `Keeps` names. -/

namespace Sys2Proof.Safety

open Sys2Proof.Machine

theorem hostQuiet_keeps {s0 : State} {s : State} (h_s : Keeps s0 s) :
    Keeps s0 (State.hostQuiet s) := by
  unfold State.hostQuiet
  repeat' first
    | with_reducible assumption
    | (extract_lets -underBinder +onlyGivenNames x; first
      | (with_reducible refine Pass.cut (P := Keeps s0) (x := x) ?_ fun hx => ?_; rotate_left; clear_value x; have x := trivial; rotate_left; unfold x; clear x)
      | (guard_hyp x : Security := _; have x := trivial))
    | with_reducible apply setObj_keeps
    | (with_reducible refine Keeps.upd ?_ rfl rfl rfl rfl rfl rfl rfl rfl rfl; with_reducible assumption)

theorem hostDown_keeps {s0 : State} {s : State} (cause : Nat) (h_s : Keeps s0 s) :
    Keeps s0 (State.hostDown s cause) := by
  unfold State.hostDown
  repeat' with_reducible first | assumption | apply raise_keeps | apply hostQuiet_keeps

theorem execHostLinkUp_keeps {s0 : State} (speed width : Nat) {s : State} (h_s : Keeps s0 s) :
    PassO (Keeps s0) (execHostLinkUp speed width s) := by
  unfold execHostLinkUp
  repeat' with_reducible first | assumption | apply setObj_keeps | apply PassO.next | apply PassO.ite

theorem execHostLinkDown_keeps {s0 : State} (cause : Nat) {s : State} (h_s : Keeps s0 s) :
    PassO (Keeps s0) (execHostLinkDown cause s) := by
  unfold execHostLinkDown
  repeat' with_reducible first | assumption | apply hostDown_keeps | apply PassO.next | apply PassO.ite

theorem execHotReset_keeps {s0 : State} {s : State} (h_s : Keeps s0 s) :
    PassO (Keeps s0) (execHotReset s) := by
  unfold execHotReset
  repeat' with_reducible first | assumption | apply hostDown_keeps | apply PassO.next | apply PassO.ite

theorem setFarState_keeps {s0 : State} {s : State} (h : Nat) (q : FarPort) (h_s : Keeps s0 s) :
    Keeps s0 (State.setFarState s h q) := by
  unfold State.setFarState
  repeat' with_reducible first | assumption | apply setObj_keeps | apply setFar_keeps

theorem farDown_keeps {s0 : State} {s : State} (h cause : Nat) (h_s : Keeps s0 s) :
    Keeps s0 (State.farDown s h cause) := by
  unfold State.farDown
  repeat' first
    | with_reducible assumption
    | (extract_lets -underBinder +onlyGivenNames x; first
      | (with_reducible refine Pass.cut (P := Keeps s0) (x := x) ?_ fun hx => ?_; rotate_left; clear_value x; have x := trivial; rotate_left; unfold x; clear x)
      | (guard_hyp x : _ := _; clear_value x; have x := trivial))
    | with_reducible first
        | apply raise_keeps | apply endSessions_keeps | apply losePort_keeps | apply setFarState_keeps

theorem farUp_keeps {s0 : State} {s : State} (h : Nat) (f : FarFound) (h_s : Keeps s0 s) :
    Keeps s0 (State.farUp s h f) := by
  unfold State.farUp
  repeat' first
    | with_reducible assumption
    | (extract_lets -underBinder +onlyGivenNames x; first
      | (with_reducible refine Pass.cut (P := Keeps s0) (x := x) ?_ fun hx => ?_; rotate_left; clear_value x; have x := trivial; rotate_left; unfold x; clear x)
      | (guard_hyp x : Security := _; have x := trivial)
      | (guard_hyp x : _ := _; clear_value x; have x := trivial))
    | with_reducible first
        | apply setObj_keeps | apply refreshSessions_keeps | apply endSessions_keeps | apply refreshFrames_keeps
        | apply setFarState_keeps | apply Pass.ite (P := Keeps s0)
    | (with_reducible refine Keeps.upd ?_ rfl rfl rfl rfl rfl rfl rfl rfl rfl; with_reducible assumption)

theorem farTrain_keeps {s0 : State} {s : State} (h : Nat) (found : Option FarFound) (h_s : Keeps s0 s) :
    Keeps s0 (State.farTrain s h found) := by
  unfold State.farTrain
  repeat' first
    | with_reducible first
        | assumption | apply setObj_keeps | apply farDown_keeps | apply farUp_keeps | apply Pass.ite (P := Keeps s0)
    | split

theorem farReturn_keeps {s0 : State} {s : State} (h : Nat) (found : Option FarFound) (h_s : Keeps s0 s) :
    Keeps s0 (State.farReturn s h found) := by
  unfold State.farReturn
  repeat' first
    | with_reducible assumption
    | (extract_lets -underBinder +onlyGivenNames x; guard_hyp x : _ := _; clear_value x; have x := trivial)
    | with_reducible first
        | apply takeFree_keeps | apply farDown_keeps | apply farUp_keeps | apply Pass.ite (P := Keeps s0)
    | split

theorem farDawn_keeps {s0 : State} {s : State} (env : List (Option FarFound)) (h_s : Keeps s0 s) :
    Keeps s0 (State.farDawn s env) := by
  unfold State.farDawn
  repeat' first
    | intro _
    | with_reducible assumption
    | (extract_lets -underBinder +onlyGivenNames x; guard_hyp x : _ := _; clear_value x; have x := trivial)
    | with_reducible first
        | apply farTrain_keeps | apply farReturn_keeps | apply Pass.foldl (P := Keeps s0)
        | apply Pass.ite (P := Keeps s0)

theorem execFarLinkLoss_keeps {s0 : State} (port cause : Nat) {s : State} (h_s : Keeps s0 s) :
    PassO (Keeps s0) (execFarLinkLoss port cause s) := by
  unfold execFarLinkLoss
  repeat' with_reducible first | assumption | apply farDown_keeps | apply PassO.next | apply PassO.ite

theorem execFarRequestTimeout_keeps {s0 : State} (port : Nat) {s : State} (h_s : Keeps s0 s) :
    PassO (Keeps s0) (execFarRequestTimeout port s) := by
  unfold execFarRequestTimeout
  repeat' with_reducible first | assumption | apply farDown_keeps | apply PassO.next | apply PassO.ite

theorem execFarRetrain_keeps {s0 : State} (port : Nat) (found : Option FarFound) {s : State} (h_s : Keeps s0 s) :
    PassO (Keeps s0) (execFarRetrain port found s) := by
  unfold execFarRetrain
  repeat' with_reducible first | assumption | apply farTrain_keeps | apply PassO.next | apply PassO.ite

end Sys2Proof.Safety
end

