-- ==== Sys2Proof/Laws/KeepsSecurity.lean ====
section
/-! SUPPORT. The commands' parts in Machine/Security.lean keep what `Keeps` names. -/

namespace Sys2Proof.Safety

open Sys2Proof.Machine

theorem checkImage_keeps {s0 : State} {s : State} (bs : List Byte) (kind : Nat) (h_s : Keeps s0 s) :
    Keeps s0 (State.checkImage s bs kind).2 := by
  unfold State.checkImage
  repeat' first
    | with_reducible assumption
    | (extract_lets -underBinder +onlyGivenNames x; guard_hyp x : _ := _; clear_value x; have x := trivial)
    | with_reducible apply raise_keeps
    | split

theorem runImage_keeps {s0 : State} {s : State} (v : ImageView) (kind slot : Nat) (h_s : Keeps s0 s) :
    Keeps s0 (State.runImage s v kind slot) := by
  unfold State.runImage
  repeat' first
    | with_reducible assumption
    | (extract_lets -underBinder +onlyGivenNames x; first
      | (with_reducible refine Pass.cut (P := Keeps s0) (x := x) ?_ fun hx => ?_; rotate_left; clear_value x; have x := trivial; rotate_left; unfold x; clear x)
      | (guard_hyp x : Security := _; have x := trivial)
      | (guard_hyp x : ResetState := _; have x := trivial)
      | (guard_hyp x : _ := _; clear_value x; have x := trivial))
    | with_reducible first | apply setObj_keeps | apply Pass.ite (P := Keeps s0)
    | (with_reducible refine Keeps.upd ?_ rfl rfl rfl rfl rfl rfl rfl rfl rfl; with_reducible assumption)
    | with_reducible exact Keeps.updSec (by assumption) rfl rfl rfl (by assumption)

theorem bootSlots_keeps {s0 : State} {s : State} (slots : List (List Byte)) (kind : Nat) (h_s : Keeps s0 s) :
    Keeps s0 (State.bootSlots s slots kind) := by
  unfold State.bootSlots
  repeat' first
    | intro _
    | with_reducible assumption
    | (extract_lets -underBinder +onlyGivenNames x; first
      | (with_reducible refine Pass.cut (P := Keeps s0) (x := x) ?_ fun hx => ?_; rotate_left; clear_value x; have x := trivial; rotate_left; unfold x; clear x)
      | (guard_hyp x : ResetState := _; have x := trivial))
    | with_reducible first
        | apply setObj_keeps | apply checkImage_keeps | apply runImage_keeps | apply Pass.foldlSnd (P := Keeps s0)
        | apply Pass.ite (P := Keeps s0)
    | split
    | (with_reducible refine Keeps.upd ?_ rfl rfl rfl rfl rfl rfl rfl rfl rfl; with_reducible first
          | assumption | refine Pass.of_snd (P := Keeps s0) ?_ (by assumption))

theorem pushImage_keeps {s0 : State} {s : State} (bs : List Byte) (h_s : Keeps s0 s) :
    Keeps s0 (State.pushImage s bs) := by
  unfold State.pushImage
  repeat' first
    | with_reducible assumption
    | (extract_lets -underBinder +onlyGivenNames x; guard_hyp x : _ := _; clear_value x; have x := trivial)
    | with_reducible first
        | apply setObj_keeps | apply checkImage_keeps | apply runImage_keeps | apply Pass.ite (P := Keeps s0)
    | split
    | (with_reducible refine Keeps.upd ?_ rfl rfl rfl rfl rfl rfl rfl rfl rfl; with_reducible refine Pass.of_snd (P := Keeps s0) ?_ (by assumption))

theorem raiseFloor_keeps {s0 s : State} (kind : Nat) (h : Keeps s0 s) : PassOpt (Keeps s0) (s.raiseFloor kind) := by
  unfold State.raiseFloor
  split
  · exact .none
  · extract_lets v gens a b c s1
    split
    · exact .none
    · refine .some (refreshMeasurements_keeps (s := s1) ?_)
      unfold s1
      by_cases g : kind = 1
      · rw [if_pos g]
        refine (setObj_keeps _ _ h).program h ?_ List.prefix_rfl List.prefix_rfl
        rw [show gens = s.sec.fwFloors from if_pos g]
        exact List.prefix_append _ _
      · rw [if_neg g]
        refine (setObj_keeps _ _ h).program h List.prefix_rfl ?_ List.prefix_rfl
        rw [show gens = s.sec.hubFloors from if_neg g]
        exact List.prefix_append _ _

theorem endSession_keeps {s0 : State} {s : State} (channel id : Nat) (h_s : Keeps s0 s) :
    Keeps s0 (State.endSession s channel id) := by
  unfold State.endSession
  repeat' first
    | (extract_lets -underBinder +onlyGivenNames x; guard_hyp x : Security := _; have x := trivial)
    | with_reducible apply refreshSessions_keeps
    | (with_reducible refine Keeps.upd ?_ rfl rfl rfl rfl rfl rfl rfl rfl rfl; with_reducible assumption)

theorem spdm_keeps {s0 : State} {s : State} (channel : Nat) (req : SpdmReq) (h_s : Keeps s0 s) :
    Keeps s0 (State.spdm s channel req).2 := by
  unfold State.spdm
  repeat' first
    | with_reducible assumption
    | (extract_lets -underBinder +onlyGivenNames x; guard_hyp x : Security := _; have x := trivial)
    | with_reducible first | apply count_keeps | apply refreshSessions_keeps | apply endSession_keeps
    | split
    | (with_reducible refine Keeps.upd ?_ rfl rfl rfl rfl rfl rfl rfl rfl rfl; with_reducible assumption)

theorem answerDoe_keeps {s0 : State} {s : State} (req : SpdmReq) (h_s : Keeps s0 s) :
    Keeps s0 (State.answerDoe s req) := by
  unfold State.answerDoe
  repeat' with_reducible first | assumption | apply emit_keeps | apply spdm_keeps

theorem execDoeRequest_keeps {s0 : State} (req : SpdmReq) {s : State} (h_s : Keeps s0 s) :
    PassO (Keeps s0) (execDoeRequest req s) := by
  unfold execDoeRequest
  repeat' with_reducible first | assumption | apply answerDoe_keeps | apply PassO.next | apply PassO.ite

theorem execRsaKeyReady_keeps {s0 : State} {s : State} (h_s : Keeps s0 s) :
    PassO (Keeps s0) (execRsaKeyReady s) := by
  unfold execRsaKeyReady
  repeat' with_reducible first | assumption | apply setObj_keeps | apply PassO.next | apply PassO.ite

theorem execTableClearDone_keeps {s0 : State} {s : State} (h_s : Keeps s0 s) :
    PassO (Keeps s0) (execTableClearDone s) := by
  unfold execTableClearDone
  repeat' first
    | with_reducible assumption
    | (extract_lets -underBinder +onlyGivenNames x; first
      | (with_reducible refine Pass.cut (P := Keeps s0) (x := x) ?_ fun hx => ?_; rotate_left; clear_value x; have x := trivial; rotate_left; unfold x; clear x)
      | (guard_hyp x : Security := _; have x := trivial))
    | with_reducible first
        | apply clearAll_keeps | apply PassO.next | apply PassO.ite
        | exact Keeps.updSec (by assumption) rfl rfl rfl (by assumption)

end Sys2Proof.Safety
end

