-- ==== Sys2Proof/Laws/KeepsReset.lean ====
section
/-! SUPPORT. The commands' parts in Machine/Reset.lean keep what `Keeps` names. -/

namespace Sys2Proof.Safety

open Sys2Proof.Machine

theorem programReach_keeps {s0 s : State} (value : Nat) (h : Keeps s0 s) : PassOpt (Keeps s0) (s.programReach value) := by
  unfold State.programReach
  extract_lets source level
  exact .ite .none (.some (h.program h List.prefix_rfl List.prefix_rfl (List.prefix_append _ _)))

theorem readFuses_keeps {s0 : State} {s : State} (h_s : Keeps s0 s) :
    Keeps s0 (State.readFuses s) := by
  unfold State.readFuses
  repeat' first
    | with_reducible assumption
    | (extract_lets -underBinder +onlyGivenNames x; with_reducible refine Pass.cut (P := Keeps s0) (x := x) ?_ fun hx => ?_; rotate_left; clear_value x; have x := trivial; rotate_left; unfold x; clear x)
    | with_reducible apply setObj_keeps

theorem clearDie_keeps {s0 : State} {s : State} (h_s : Keeps s0 s) :
    Keeps s0 (State.clearDie s) := by
  unfold State.clearDie
  repeat' first
    | with_reducible assumption
    | (extract_lets -underBinder +onlyGivenNames x; first
      | (with_reducible refine Pass.cut (P := Keeps s0) (x := x) ?_ fun hx => ?_; rotate_left; clear_value x; have x := trivial; rotate_left; unfold x; clear x)
      | (guard_hyp x : Dict := _; have x := trivial)
      | (guard_hyp x : Sched := _; have x := trivial)
      | (guard_hyp x : Mem := _; have x := trivial)
      | (guard_hyp x : Colls := _; have x := trivial)
      | (guard_hyp x : Numerics := _; have x := trivial)
      | (guard_hyp x : Resilience := _; have x := trivial))
    | with_reducible first
        | apply setObj_keeps | apply armVector_keeps | apply clearSram_keeps | apply endSessions_keeps
        | apply placeInTree_keeps | apply rollbackMigrations_keeps | apply Pass.ite (P := Keeps s0)
    | (with_reducible refine Keeps.upd ?_ rfl rfl rfl rfl rfl rfl rfl rfl rfl; with_reducible assumption)

theorem hubLoses_keeps {s0 : State} {s : State} (p : Nat) (h_s : Keeps s0 s) :
    Keeps s0 (State.hubLoses s p) := by
  unfold State.hubLoses
  repeat' first
    | with_reducible assumption
    | (extract_lets -underBinder +onlyGivenNames x; first
      | (with_reducible refine Pass.cut (P := Keeps s0) (x := x) ?_ fun hx => ?_; rotate_left; clear_value x; have x := trivial; rotate_left; unfold x; clear x)
      | (guard_hyp x : _ := _; clear_value x; have x := trivial))
    | with_reducible first
        | apply setObj_keeps | apply addObj_keeps | apply count_keeps | apply takeFree_keeps | apply raise_keeps
        | apply endSessions_keeps | apply Pass.ite (P := Keeps s0)

theorem clearHubs_keeps {s0 : State} {s : State} (h_s : Keeps s0 s) :
    Keeps s0 (State.clearHubs s) := by
  unfold State.clearHubs
  repeat' first
    | intro _
    | with_reducible assumption
    | (extract_lets -underBinder +onlyGivenNames x; first
      | (with_reducible refine Pass.cut (P := Keeps s0) (x := x) ?_ fun hx => ?_; rotate_left; clear_value x; have x := trivial; rotate_left; unfold x; clear x)
      | (guard_hyp x : Dict := _; have x := trivial)
      | (guard_hyp x : Mem := _; have x := trivial)
      | (guard_hyp x : Colls := _; have x := trivial)
      | (guard_hyp x : Numerics := _; have x := trivial)
      | (guard_hyp x : ResetState := _; have x := trivial)
      | (guard_hyp x : _ := _; clear_value x; have x := trivial))
    | with_reducible first
        | apply loseCache_keeps | apply refreshPortsUp_keeps | apply endSessions_keeps | apply placeInTree_keeps
        | apply hostQuiet_keeps | apply hostDown_keeps | apply setFarState_keeps | apply hubLoses_keeps
        | apply Pass.foldl (P := Keeps s0) | apply Pass.ite (P := Keeps s0)
    | ((with_reducible refine Keeps.shrink ?_ id id ?_ ?_ id ?_ List.prefix_rfl List.prefix_rfl List.prefix_rfl) <;> first | with_reducible assumption | exact Nat.le_refl _ | exact Nat.zero_le _)

theorem clearAllOf_keeps {s0 s : State} (h : Keeps s0 s) : Keeps s0 s.clearAllOf :=
  setObj_keeps _ _ (setObj_keeps _ _ ⟨h.pending, h.out, h.free, h.fw, h.hub, h.reach, fun _ => ⟨trivial, trivial, rfl,
    Nat.zero_le _, Nat.zero_le _, Nat.zero_le _⟩⟩)

theorem clearLevel_keeps {s0 : State} {s : State} (level : Nat) (h_s : Keeps s0 s) :
    Keeps s0 (State.clearLevel s level) := by
  unfold State.clearLevel
  repeat' first
    | with_reducible first
        | assumption | apply clearDie_keeps | apply clearHubs_keeps | apply clearAllOf_keeps
        | apply Pass.ite (P := Keeps s0)

theorem recordReset_keeps {s0 : State} {s : State} (source level : Nat) (h_s : Keeps s0 s) :
    Keeps s0 (State.recordReset s source level) := by
  unfold State.recordReset
  repeat' with_reducible first | assumption | apply setObj_keeps

theorem startReset_keeps {s0 : State} {s : State} (source level : Nat) (h_s : Keeps s0 s) :
    Keeps s0 (State.startReset s source level) := by
  unfold State.startReset
  repeat' first
    | with_reducible assumption
    | (extract_lets -underBinder +onlyGivenNames x; first
      | (with_reducible refine Pass.cut (P := Keeps s0) (x := x) ?_ fun hx => ?_; rotate_left; clear_value x; have x := trivial; rotate_left; unfold x; clear x)
      | (guard_hyp x : ResetState := _; have x := trivial))
    | with_reducible first | apply setObj_keeps | apply clearLevel_keeps | apply recordReset_keeps
    | (with_reducible refine Keeps.upd ?_ rfl rfl rfl rfl rfl rfl rfl rfl rfl; with_reducible assumption)

theorem assertReset_keeps {s0 : State} {s : State} (source : Nat) (holds : Bool) (h_s : Keeps s0 s) :
    Keeps s0 (State.assertReset s source holds) := by
  unfold State.assertReset
  repeat' first
    | with_reducible assumption
    | (extract_lets -underBinder +onlyGivenNames x; first
      | (with_reducible refine Pass.cut (P := Keeps s0) (x := x) ?_ fun hx => ?_; rotate_left; clear_value x; have x := trivial; rotate_left; unfold x; clear x)
      | (guard_hyp x : ResetState := _; have x := trivial)
      | (guard_hyp x : _ := _; clear_value x; have x := trivial))
    | with_reducible first | apply startReset_keeps | apply Pass.ite (P := Keeps s0)
    | (with_reducible refine Keeps.upd ?_ rfl rfl rfl rfl rfl rfl rfl rfl rfl; with_reducible assumption)

theorem losePower_keeps {s0 : State} {s : State} (h_s : Keeps s0 s) :
    Keeps s0 (State.losePower s) := by
  unfold State.losePower
  repeat' first
    | with_reducible assumption
    | (extract_lets -underBinder +onlyGivenNames x; first
      | (with_reducible refine Pass.cut (P := Keeps s0) (x := x) ?_ fun hx => ?_; rotate_left; clear_value x; have x := trivial; rotate_left; unfold x; clear x)
      | (guard_hyp x : ResetState := _; have x := trivial))
    | with_reducible first | apply setObj_keeps | apply startReset_keeps
    | (with_reducible refine Keeps.upd ?_ rfl rfl rfl rfl rfl rfl rfl rfl rfl; with_reducible assumption)

theorem execPowerOnReset_keeps {s0 : State} (removed : Bool) {s : State} (h_s : Keeps s0 s) :
    PassO (Keeps s0) (execPowerOnReset removed s) := by
  unfold execPowerOnReset
  repeat' first
    | with_reducible first
        | assumption | apply assertReset_keeps | apply losePower_keeps | apply PassO.next
        | apply Pass.ite (P := Keeps s0)

theorem execPerst_keeps {s0 : State} {s : State} (h_s : Keeps s0 s) :
    PassO (Keeps s0) (execPerst s) := by
  unfold execPerst
  repeat' with_reducible first | assumption | apply assertReset_keeps | apply PassO.next

theorem execSysRst_keeps {s0 : State} {s : State} (h_s : Keeps s0 s) :
    PassO (Keeps s0) (execSysRst s) := by
  unfold execSysRst
  repeat' with_reducible first | assumption | apply assertReset_keeps | apply PassO.next

theorem execWatchdogExpiry_keeps {s0 : State} {s : State} (h_s : Keeps s0 s) :
    PassO (Keeps s0) (execWatchdogExpiry s) := by
  unfold execWatchdogExpiry
  repeat' with_reducible first | assumption | apply assertReset_keeps | apply PassO.next | apply PassO.ite

theorem execThermalTrip_keeps {s0 : State} (temps : List Int) {s : State} (h_s : Keeps s0 s) :
    PassO (Keeps s0) (execThermalTrip temps s) := by
  unfold execThermalTrip
  repeat' first
    | with_reducible assumption
    | (extract_lets -underBinder +onlyGivenNames x; first
      | (with_reducible refine Pass.cut (P := Keeps s0) (x := x) ?_ fun hx => ?_; rotate_left; clear_value x; have x := trivial; rotate_left; unfold x; clear x)
      | (guard_hyp x : ResetState := _; have x := trivial))
    | with_reducible first | apply assertReset_keeps | apply PassO.next | apply PassO.ite
    | (with_reducible refine Keeps.upd ?_ rfl rfl rfl rfl rfl rfl rfl rfl rfl; with_reducible assumption)

theorem releaseSource_keeps {s0 : State} {s : State} (source : Nat) (h_s : Keeps s0 s) :
    Keeps s0 (State.releaseSource s source) := by
  unfold State.releaseSource
  repeat' first
    | (extract_lets -underBinder +onlyGivenNames x; guard_hyp x : ResetState := _; have x := trivial)
    | (with_reducible refine Keeps.upd ?_ rfl rfl rfl rfl rfl rfl rfl rfl rfl; with_reducible assumption)

theorem execThermalTripRelease_keeps {s0 : State} (temps : List Int) {s : State} (h_s : Keeps s0 s) :
    PassO (Keeps s0) (execThermalTripRelease temps s) := by
  unfold execThermalTripRelease
  repeat' first
    | with_reducible assumption
    | (extract_lets -underBinder +onlyGivenNames x; first
      | (with_reducible refine Pass.cut (P := Keeps s0) (x := x) ?_ fun hx => ?_; rotate_left; clear_value x; have x := trivial; rotate_left; unfold x; clear x)
      | (guard_hyp x : ResetState := _; have x := trivial))
    | with_reducible first | apply releaseSource_keeps | apply PassO.next | apply PassO.ite
    | (with_reducible refine Keeps.upd ?_ rfl rfl rfl rfl rfl rfl rfl rfl rfl; with_reducible assumption)

theorem execResetRelease_keeps {s0 : State} (source : Nat) {s : State} (h_s : Keeps s0 s) :
    PassO (Keeps s0) (execResetRelease source s) := by
  unfold execResetRelease
  repeat' with_reducible first | assumption | apply releaseSource_keeps | apply PassO.next | apply PassO.ite

theorem execTwinResetRequest_keeps {s0 : State} (port vc : Nat) {s : State} (h_s : Keeps s0 s) :
    PassO (Keeps s0) (execTwinResetRequest port vc s) := by
  unfold execTwinResetRequest
  repeat' first
    | intro _
    | with_reducible first
        | assumption | apply onTwin_keeps | apply assertReset_keeps | apply PassO.next | apply Pass.ite (P := Keeps s0)

theorem mayStick_keeps {s0 : State} {s : State} (partWay : Bool) (h_s : Keeps s0 s) :
    Keeps s0 (State.mayStick s partWay) := by
  unfold State.mayStick
  repeat' first
    | with_reducible assumption
    | (extract_lets -underBinder +onlyGivenNames x; guard_hyp x : ResetState := _; have x := trivial)
    | with_reducible first | apply takeFree_keeps | apply Pass.ite (P := Keeps s0)
    | split
    | (with_reducible refine Keeps.upd ?_ rfl rfl rfl rfl rfl rfl rfl rfl rfl; with_reducible refine Pass.of_snd (P := Keeps s0) ?_ (by assumption))

theorem resetTile_keeps {s0 : State} {s : State} (n : Nat) (h_s : Keeps s0 s) :
    Keeps s0 (State.resetTile s n) := by
  unfold State.resetTile
  repeat' first
    | intro _
    | with_reducible assumption
    | (extract_lets -underBinder +onlyGivenNames x; first
      | (with_reducible refine Pass.cut (P := Keeps s0) (x := x) ?_ fun hx => ?_; rotate_left; clear_value x; have x := trivial; rotate_left; unfold x; clear x)
      | (guard_hyp x : Sched := _; have x := trivial)
      | (guard_hyp x : Mem := _; have x := trivial)
      | (guard_hyp x : Numerics := _; have x := trivial)
      | (guard_hyp x : _ := _; clear_value x; have x := trivial))
    | with_reducible first
        | apply clearSram_keeps | apply scramble_keeps | apply mayStick_keeps | apply Pass.foldl (P := Keeps s0)
    | (with_reducible refine Keeps.upd ?_ rfl rfl rfl rfl rfl rfl rfl rfl rfl; with_reducible assumption)

theorem resetPort_keeps {s0 : State} {s : State} (p : Nat) (h_s : Keeps s0 s) :
    Keeps s0 (State.resetPort s p) := by
  unfold State.resetPort
  repeat' with_reducible first | assumption | apply linkDown_keeps | apply mayStick_keeps

theorem nextPhase_keeps {s0 : State} {s : State} (k : Nat) (h_s : Keeps s0 s) :
    Keeps s0 (State.nextPhase s k) := by
  unfold State.nextPhase
  repeat' with_reducible first | assumption | apply setObj_keeps

theorem bootPhase_keeps {s0 : State} {s : State} (env : DawnEnv) (h_s : Keeps s0 s) :
    Keeps s0 (State.bootPhase s env) := by
  unfold State.bootPhase
  repeat' first
    | with_reducible assumption
    | (extract_lets -underBinder +onlyGivenNames x; with_reducible refine Pass.cut (P := Keeps s0) (x := x) ?_ fun hx => ?_; rotate_left; clear_value x; have x := trivial; rotate_left; unfold x; clear x)
    | with_reducible first | apply setObj_keeps | apply refreshMeasurements_keeps | apply bootSlots_keeps

theorem selfTest_keeps {s0 : State} {s : State} (env : DawnEnv) (h_s : Keeps s0 s) :
    Keeps s0 (State.selfTest s env) := by
  unfold State.selfTest
  repeat' first
    | intro _
    | with_reducible assumption
    | (extract_lets -underBinder +onlyGivenNames x; first
      | (with_reducible refine Pass.cut (P := Keeps s0) (x := x) ?_ fun hx => ?_; rotate_left; clear_value x; have x := trivial; rotate_left; unfold x; clear x)
      | (guard_hyp x : ResetState := _; have x := trivial)
      | (guard_hyp x : _ := _; clear_value x; have x := trivial))
    | with_reducible first
        | apply setObj_keeps | apply raise_keeps | apply pump_keeps | apply Pass.foldl (P := Keeps s0)
    | split
    | (with_reducible refine Keeps.upd ?_ rfl rfl rfl rfl rfl rfl rfl rfl rfl; with_reducible assumption)

theorem dawnPhase_keeps {s0 : State} {s : State} (env : DawnEnv) (h_s : Keeps s0 s) :
    Keeps s0 (State.dawnPhase s env) := by
  unfold State.dawnPhase
  repeat' first
    | with_reducible assumption
    | (extract_lets -underBinder +onlyGivenNames x; with_reducible refine Pass.cut (P := Keeps s0) (x := x) ?_ fun hx => ?_; rotate_left; clear_value x; have x := trivial; rotate_left; unfold x; clear x)
    | with_reducible first
        | apply emit_keeps | apply farDawn_keeps | apply readFuses_keeps | apply nextPhase_keeps | apply bootPhase_keeps
        | apply selfTest_keeps | apply Pass.ite (P := Keeps s0)
    | split

theorem execDawnPhaseDone_keeps {s0 : State} (env : DawnEnv) {s : State} (h_s : Keeps s0 s) :
    PassO (Keeps s0) (execDawnPhaseDone env s) := by
  unfold execDawnPhaseDone
  repeat' with_reducible first | assumption | apply dawnPhase_keeps | apply PassO.next | apply PassO.ite

theorem pushAndGo_keeps {s0 : State} {s : State} (bs : List Byte) (h_s : Keeps s0 s) :
    Keeps s0 (State.pushAndGo s bs) := by
  unfold State.pushAndGo
  repeat' first
    | with_reducible assumption
    | (extract_lets -underBinder +onlyGivenNames x; with_reducible refine Pass.cut (P := Keeps s0) (x := x) ?_ fun hx => ?_; rotate_left; clear_value x; have x := trivial; rotate_left; unfold x; clear x)
    | with_reducible first | apply pushImage_keeps | apply nextPhase_keeps | apply Pass.ite (P := Keeps s0)

theorem execVcoreOvercurrent_keeps {s0 : State} (currentA : Nat) {s : State} (h_s : Keeps s0 s) :
    PassO (Keeps s0) (execVcoreOvercurrent currentA s) := by
  unfold execVcoreOvercurrent
  repeat' with_reducible first | assumption | apply setObj_keeps | apply PassO.next | apply PassO.ite

theorem execRefclkLoss_keeps {s0 : State} (clk : RefClk) {s : State} (h_s : Keeps s0 s) :
    PassO (Keeps s0) (execRefclkLoss clk s) := by
  unfold execRefclkLoss
  repeat' first
    | intro _
    | with_reducible assumption
    | (extract_lets -underBinder +onlyGivenNames x; with_reducible refine Pass.cut (P := Keeps s0) (x := x) ?_ fun hx => ?_; rotate_left; clear_value x; have x := trivial; rotate_left; unfold x; clear x)
    | with_reducible first
        | apply linkDown_keeps | apply hostDown_keeps | apply farDown_keeps | apply PassO.next
        | apply Pass.foldl (P := Keeps s0) | apply Pass.ite (P := Keeps s0)
    | split

end Sys2Proof.Safety
end

