-- ==== Sys2Proof/Laws/Only.lean ====
section
/-! SUPPORT. What a change does to the objects, and what counting and raising an event leave alone. -/

namespace Sys2Proof.Safety

open Sys2Proof.Machine

/-- What a change of state does to objects: they stay rising, and only those of `f` change. -/
structure Only (f : Nat → Prop) (s t : State) : Prop where
  rising : Rising t.dict.objs
  objs : ∀ k, ¬ f k → t.obj k = s.obj k

theorem Only.refl {f : Nat → Prop} {s : State} (h : Rising s.dict.objs) : Only f s s := ⟨h, fun _ _ => rfl⟩

theorem Only.trans {f : Nat → Prop} {a b c : State} (h : Only f a b) (k : Only f b c) : Only f a c :=
  ⟨k.rising, fun j hj => (k.objs j hj).trans (h.objs j hj)⟩

theorem Only.mono {f g : Nat → Prop} {s t : State} (h : Only f s t) (i : ∀ k, f k → g k) : Only g s t :=
  ⟨h.rising, fun k n => h.objs k fun c => n (i k c)⟩

theorem Only.same {f : Nat → Prop} {s t u : State} (h : Only f s t) (e : u.dict.objs = t.dict.objs) : Only f s u :=
  ⟨by rw [e]; exact h.rising, fun k n => (obj_congr e k).trans (h.objs k n)⟩

theorem Only.setObj {f : Nat → Prop} {s t : State} {k v : Nat} (h : Only f s t) (i : f k) : Only f s (t.setObj k v) :=
  ⟨rising_setObj h.rising, fun j n => (obj_setObj_ne h.rising fun e => n (by rw [e]; exact i)).trans (h.objs j n)⟩

theorem Only.addObj {f : Nat → Prop} {s t : State} {k n : Nat} (h : Only f s t) (i : f k) : Only f s (t.addObj k n) :=
  ⟨rising_addObj h.rising, fun j m => (addObj_obj h.rising fun e => m (by rw [e]; exact i)).trans (h.objs j m)⟩

theorem Only.count {f : Nat → Prop} {s t : State} {k : Nat} (h : Only f s t) (i : f k) : Only f s (t.count k) := h.addObj i

theorem Only.raise {f : Nat → Prop} {s t : State} {code src unit a b c d e : Nat} (h : Only f s t)
    (i : f oEventSeqNext) (j : f oEventSeqOldest) (l : f oEventsOverwritten) : Only f s (t.raise code src unit a b c d e) := by
  obtain ⟨r, -, -, -, o⟩ := raise_frame (code := code) (src := src) (unit := unit) (a := a) (b := b) (c := c) (d := d) (e := e) h.rising
  exact ⟨r, fun k n => (o k (fun e => n (by rw [e]; exact i)) (fun e => n (by rw [e]; exact j)) (fun e => n (by rw [e]; exact l))).trans (h.objs k n)⟩

theorem Only.foldl {f : Nat → Prop} {s t : State} {α : Type} {l : List α} {g : State → α → State} (h : Only f s t)
    (i : ∀ x a, Only f s x → Only f s (g x a)) : Only f s (l.foldl g t) := by
  induction l generalizing t with
  | nil => exact h
  | cons a l ih => exact ih (i t a h)

theorem Only.ite {f : Nat → Prop} {s a b : State} {c : Prop} [Decidable c] (h : Only f s a) (k : Only f s b) :
    Only f s (if c then a else b) := by split <;> assumption

/-- What changes objects, the event log, its counts and the conditions of MSI-X alone. -/
def Notes (s t : State) : Prop :=
  ∃ o l n v, t = { s with dict := { s.dict with objs := o, log := l, eventCounts := n, msixConds := v } }

theorem Notes.refl (s : State) : Notes s s := ⟨s.dict.objs, s.dict.log, s.dict.eventCounts, s.dict.msixConds, rfl⟩

theorem Notes.setObj {s t : State} {k v : Nat} (h : Notes s t) : Notes s (t.setObj k v) := by
  obtain ⟨o, l, n, c, e⟩ := h
  exact ⟨_, l, n, c, by rw [e]; rfl⟩

theorem Notes.addObj {s t : State} {k v : Nat} (h : Notes s t) : Notes s (t.addObj k v) := by
  unfold State.addObj; split
  · exact h
  · exact h.setObj

theorem Notes.arm {s t : State} {v : Nat} (h : Notes s t) : Notes s (t.armVector v) := by
  obtain ⟨o, l, n, c, e⟩ := h
  exact ⟨o, l, n, _, by rw [e]; rfl⟩

theorem Notes.append {s t : State} {e : EventRec} (h : Notes s t) : Notes s (t.appendEvent e) := by
  unfold State.appendEvent
  dsimp only
  apply Notes.arm
  have h1 : ∀ l, Notes s { t with dict := { t.dict with
      log := l
      eventCounts := mapPut 0 t.dict.eventCounts e.code ((mapGet 0 t.dict.eventCounts e.code + 1) % 2 ^ 64) } } := by
    intro l
    obtain ⟨o, _, n, c, e⟩ := h
    exact ⟨o, _, _, c, by rw [e]⟩
  unfold State.count
  split
  · exact (h1 _).setObj.addObj.addObj
  · exact (h1 _).setObj

theorem raise_notes {s t : State} {code src unit a b c d e : Nat} (h : Notes s t) : Notes s (t.raise code src unit a b c d e) :=
  h.append

/-- The objects that an event changes. -/
def eventObjs (k : Nat) : Prop := k = oEventSeqNext ∨ k = oEventSeqOldest ∨ k = oEventsOverwritten

theorem Only.raiseE {s t : State} {code src unit a b c d e : Nat} {f : Nat → Prop} (i : ∀ k, eventObjs k → f k) (h : Only f s t) :
    Only f s (t.raise code src unit a b c d e) :=
  h.raise (i _ (.inl rfl)) (i _ (.inr (.inl rfl))) (i _ (.inr (.inr rfl)))

end Sys2Proof.Safety
end

