-- ==== Sys2Proof/Laws/Resets.lean ====
section
/-! SUPPORT. What the start of a reset leaves, level by level. -/

namespace Sys2Proof.Safety

open Sys2Proof.Machine

/-- What sending does to the objects. -/

theorem Only.sends {f : Nat → Prop} {s t u : State} (h : Only f s t) (k : Sends t u) (a : f oMisroutedMessages)
    (b : f oUnroutableMessages) (c : ∀ p, f (oTxPayloadBytes p)) : Only f s u := by
  obtain ⟨r, o⟩ := k.objs h.rising
  exact ⟨r, fun j n => (o j (fun e => n (by rw [e]; exact a)) (fun e => n (by rw [e]; exact b)) (fun p _ e => n (by rw [e]; exact c p))).trans (h.objs j n)⟩

theorem Only.endSessions {f : Nat → Prop} {s t : State} {c : Nat} (h : Only f s t) (i : f oSpdmSessions) :
    Only f s (t.endSessions c) := by
  unfold State.endSessions State.refreshSessions
  exact Only.setObj (h.same rfl) i

theorem Only.placeInTree {f : Nat → Prop} {s t : State} (h : Only f s t) (a : f oTimeReferenceRank) (b : f oTimeDistance)
    (c : f oTimeParentPort) : Only f s t.placeInTree := by
  obtain ⟨r, -, o⟩ := placeInTree_frame h.rising
  exact ⟨r, fun j n => (o j (fun e => n (by rw [e]; exact a)) (fun e => n (by rw [e]; exact b)) (fun e => n (by rw [e]; exact c))).trans (h.objs j n)⟩

/-- What clearing the logic of the compute die leaves alone. -/
abbrev dieCore (s : State) := (s.mem.cells, s.dict.log, s.sec.fwFloors, s.sec.hubFloors, s.sec.reachTables, s.rst)

/-- A change that leaves that core, and changes none but some objects. -/
structure Quiet (f : Nat → Prop) (s t : State) : Prop where
  only : Only f s t
  core : dieCore t = dieCore s

theorem Quiet.setObj {f : Nat → Prop} {s t : State} {k v : Nat} (h : Quiet f s t) (i : f k) : Quiet f s (t.setObj k v) :=
  ⟨h.only.setObj i, h.core⟩

theorem Quiet.addObj {f : Nat → Prop} {s t : State} {k v : Nat} (h : Quiet f s t) (i : f k) : Quiet f s (t.addObj k v) := by
  unfold State.addObj; split
  · exact h
  · exact h.setObj i

theorem Quiet.same {f : Nat → Prop} {s t u : State} (h : Quiet f s t) (e : u.dict.objs = t.dict.objs) (c : dieCore u = dieCore t) :
    Quiet f s u := ⟨h.only.same e, c.trans h.core⟩

theorem Quiet.foldl {f : Nat → Prop} {s t : State} {α : Type} {l : List α} {g : State → α → State} (h : Quiet f s t)
    (i : ∀ x a, Quiet f s x → Quiet f s (g x a)) : Quiet f s (l.foldl g t) := by
  induction l generalizing t with
  | nil => exact h
  | cons a l ih => exact ih (i t a h)

/-- The objects that freeing and clearing change. -/
abbrev clearObjs (k : Nat) : Prop := k ≠ oResetCause ∧ k ≠ oResetCount ∧ k ≠ oDawnPhase

theorem refreshFrames_quiet {s t : State} (h : Quiet clearObjs s t) : Quiet clearObjs s t.refreshFrames := by
  unfold State.refreshFrames
  exact (h.setObj (by decide)).setObj (by decide)

theorem dropLines_quiet {s t : State} {p : Nat → Bool} {b : Bool} (h : Quiet clearObjs s t) : Quiet clearObjs s (t.dropLines p b) := by
  unfold State.dropLines State.writeBack State.count
  refine Quiet.same (t := _) (Quiet.foldl h fun x a hx => ?_) rfl rfl
  split
  · refine Quiet.addObj (Quiet.addObj (hx.same rfl rfl) ?_) ?_ <;> decide
  · exact hx

theorem freeNear_quiet {s t : State} (n : Nat) (h : Quiet clearObjs s t) : Quiet clearObjs s (t.freeNear n) := by
  unfold State.freeNear
  have d := dropLines_quiet (t := t) (p := fun l => l / 8192 == n) (b := true) h
  exact refreshFrames_quiet (d.same rfl rfl)

theorem freeFar_quiet {s t : State} (n : Nat) (h : Quiet clearObjs s t) : Quiet clearObjs s (t.freeFar n) := by
  unfold State.freeFar
  exact refreshFrames_quiet (h.same rfl rfl)

theorem rollbackMigrations_quiet {s t : State} (h : Quiet clearObjs s t) : Quiet clearObjs s t.rollbackMigrations := by
  unfold State.rollbackMigrations State.refreshMigrating
  refine Quiet.setObj (Quiet.same (Quiet.foldl h fun x a hx => ?_) rfl rfl) (by decide)
  split
  · exact freeFar_quiet _ (hx.same rfl rfl)
  · exact freeNear_quiet _ (hx.same rfl rfl)

theorem endSessions_quiet {s t : State} {c : Nat} (h : Quiet clearObjs s t) : Quiet clearObjs s (t.endSessions c) := by
  unfold State.endSessions State.refreshSessions
  exact Quiet.setObj (h.same rfl rfl) (by decide)

theorem Quiet.placeInTree {s t : State} (h : Quiet clearObjs s t) : Quiet clearObjs s t.placeInTree := by
  refine ⟨h.only.placeInTree (by decide) (by decide) (by decide), ?_⟩
  rw [← h.core]
  unfold State.placeInTree
  dsimp only
  repeat' split
  all_goals rfl

/-- What placing a device in the timing tree changes beside. -/
theorem placeInTree_core (s : State) : s.placeInTree.sched = s.sched ∧ s.placeInTree.dict.committed = s.dict.committed ∧
    s.placeInTree.resil = s.resil := by
  unfold State.placeInTree
  dsimp only
  repeat' split
  all_goals exact ⟨rfl, rfl, rfl⟩

/-- What clearing the compute die leaves. -/
theorem clearDie_frame {s : State} (h : Rising s.dict.objs) : Quiet clearObjs s s.clearDie ∧
    s.clearDie.obj oSchedulerState = 0 ∧ s.clearDie.sched.tasks = [] ∧ s.clearDie.dict.committed = [] ∧
    s.clearDie.resil.dusk = 0 ∧ s.clearDie.resil.restore = none := by
  have q0 : Quiet clearObjs s s := ⟨Only.refl h, rfl⟩
  unfold State.clearDie
  extract_lets x1 x2 x3 _ _ _ _ _ _ _ _ _ _ _ y z
  have q1 : Quiet clearObjs s x1 := by
    unfold x1; split
    · exact q0.same rfl rfl
    · exact q0
  have q2 : Quiet clearObjs s x2 := by
    unfold x2; split
    · exact q1
    · exact q1.same rfl rfl
  have q3 : Quiet clearObjs s x3 := (rollbackMigrations_quiet q2).same rfl rfl
  have qy : Quiet clearObjs s y := q3.same rfl rfl
  have qz : Quiet clearObjs s z := endSessions_quiet (endSessions_quiet qy)
  have e : z = (y.endSessions 0).endSessions 1 := rfl
  have hz : z.sched.tasks = [] ∧ z.dict.committed = [] ∧ z.resil.dusk = 0 ∧ z.resil.restore = none := ⟨rfl, rfl, rfl, rfl⟩
  clear_value z
  have qw : Quiet clearObjs s (((z.setObj oSchedulerState 0).setObj oRestoreStatus 0).setObj oTwinState 0) :=
    ((qz.setObj (by decide)).setObj (by decide)).setObj (by decide)
  have r1 := rising_setObj (k := oSchedulerState) (v := 0) qz.only.rising
  have ew : (((z.setObj oSchedulerState 0).setObj oRestoreStatus 0).setObj oTwinState 0).obj oSchedulerState = 0 := by
    rw [obj_setObj_ne (rising_setObj r1) (by decide), obj_setObj_ne r1 (by decide), obj_setObj qz.only.rising, if_pos rfl]
  have hw : (((z.setObj oSchedulerState 0).setObj oRestoreStatus 0).setObj oTwinState 0).sched.tasks = [] ∧
      (((z.setObj oSchedulerState 0).setObj oRestoreStatus 0).setObj oTwinState 0).dict.committed = [] ∧
      (((z.setObj oSchedulerState 0).setObj oRestoreStatus 0).setObj oTwinState 0).resil.dusk = 0 ∧
      (((z.setObj oSchedulerState 0).setObj oRestoreStatus 0).setObj oTwinState 0).resil.restore = none := hz
  generalize ((z.setObj oSchedulerState 0).setObj oRestoreStatus 0).setObj oTwinState 0 = w at *
  obtain ⟨p1, p2, p3⟩ := placeInTree_core w
  refine ⟨qw.placeInTree, ?_, by rw [p1]; exact hw.1, by rw [p2]; exact hw.2.1, by rw [p3]; exact hw.2.2⟩
  rw [(placeInTree_frame qw.only.rising).2.2 _ (by decide) (by decide) (by decide)]; exact ew

/-- What clearing the hubs leaves alone. -/
abbrev hubCore (s : State) := (s.sched, s.dict.committed, s.resil, s.sec.fwFloors, s.sec.hubFloors, s.sec.reachTables)

/-- A change that leaves that core, and changes none but some objects. -/
structure HubQ (f : Nat → Prop) (s t : State) : Prop where
  only : Only f s t
  core : hubCore t = hubCore s

theorem HubQ.setObj {f : Nat → Prop} {s t : State} {k v : Nat} (h : HubQ f s t) (i : f k) : HubQ f s (t.setObj k v) :=
  ⟨h.only.setObj i, h.core⟩

theorem HubQ.same {f : Nat → Prop} {s t u : State} (h : HubQ f s t) (e : u.dict.objs = t.dict.objs) (c : hubCore u = hubCore t) :
    HubQ f s u := ⟨h.only.same e, c.trans h.core⟩

theorem HubQ.foldl {f : Nat → Prop} {s t : State} {α : Type} {l : List α} {g : State → α → State} (h : HubQ f s t)
    (i : ∀ x a, a ∈ l → HubQ f s x → HubQ f s (g x a)) : HubQ f s (l.foldl g t) := by
  induction l generalizing t with
  | nil => exact h
  | cons a l ih => exact ih (i t a (by simp) h) fun x b hb hx => i x b (by simp [hb]) hx

theorem HubQ.endSessions {f : Nat → Prop} {s t : State} {c : Nat} (h : HubQ f s t) (i : f oSpdmSessions) : HubQ f s (t.endSessions c) := by
  unfold State.endSessions State.refreshSessions
  with_reducible refine HubQ.setObj (HubQ.same h ?_ ?_) i <;> rfl

theorem hubCore_setObj (t : State) (k v : Nat) : hubCore (t.setObj k v) = hubCore t := rfl

theorem HubQ.placeInTree {f : Nat → Prop} {s t : State} (h : HubQ f s t) (a : f oTimeReferenceRank) (b : f oTimeDistance)
    (c : f oTimeParentPort) : HubQ f s t.placeInTree := by
  refine ⟨h.only.placeInTree a b c, ?_⟩
  rw [← h.core]
  unfold State.placeInTree
  dsimp only
  repeat' split
  all_goals first | (rw [hubCore_setObj, hubCore_setObj, hubCore_setObj]; done) | with_reducible rfl

theorem HubQ.hostQuiet {f : Nat → Prop} {s t : State} (h : HubQ f s t) (a : f oHostLinkState) (b : f oHostLinkSpeed)
    (c : f oHostLinkWidth) : HubQ f s t.hostQuiet := by
  unfold State.hostQuiet
  have q : HubQ f s (((t.setObj oHostLinkState 1).setObj oHostLinkSpeed 0).setObj oHostLinkWidth 0) := by
    with_reducible exact ((h.setObj a).setObj b).setObj c
  generalize ((t.setObj oHostLinkState 1).setObj oHostLinkSpeed 0).setObj oHostLinkWidth 0 = x at *
  exact q.same rfl rfl

theorem HubQ.setFarState {f : Nat → Prop} {s t : State} {n : Nat} {q : FarPort} (h : HubQ f s t) (a : f oFarLinkState) :
    HubQ f s (t.setFarState n q) := by
  unfold State.setFarState State.setFar
  with_reducible refine HubQ.setObj (HubQ.same h ?_ ?_) a <;> rfl

/-- The objects that the loss of a port, of the cache and of the host link change. -/
def hubObjs (k : Nat) : Prop :=
  (∃ p, p < 32 ∧ (k = oLinkState p ∨ k = oLinkRate p ∨ k = oLastDownCause p ∨ k = oLinkDownCount p)) ∨
  k ∈ [oAbortedMessages, oSpdmSessions, oPortsUp, oTimeReferenceRank, oTimeDistance, oTimeParentPort, oHostLinkState,
    oHostLinkSpeed, oHostLinkWidth, oFarLinkState, oHashEntriesValid, oEventSeqNext, oEventSeqOldest, oEventsOverwritten]

theorem port_keys : ∀ p, p < 32 → (clearObjs (oLinkState p) ∧ clearObjs (oLinkRate p) ∧ clearObjs (oLastDownCause p) ∧
    clearObjs (oLinkDownCount p)) ∧ oLinkState p ≠ oSchedulerState ∧ oLinkRate p ≠ oSchedulerState ∧
    oLastDownCause p ≠ oSchedulerState ∧ oLinkDownCount p ≠ oSchedulerState := by decide

theorem other_hub {k : Nat} (h : k ∈ [oAbortedMessages, oSpdmSessions, oPortsUp, oTimeReferenceRank, oTimeDistance, oTimeParentPort, oHostLinkState,
    oHostLinkSpeed, oHostLinkWidth, oFarLinkState, oHashEntriesValid, oEventSeqNext, oEventSeqOldest, oEventsOverwritten]) : hubObjs k := .inr h

theorem hubObjs_clear {k : Nat} (h : hubObjs k) : clearObjs k ∧ k ≠ oSchedulerState := by
  rcases h with ⟨p, hp, e⟩ | h
  · obtain ⟨⟨a1, a2, a3, a4⟩, b1, b2, b3, b4⟩ := port_keys p hp
    rcases e with rfl | rfl | rfl | rfl
    · exact ⟨a1, b1⟩
    · exact ⟨a2, b2⟩
    · exact ⟨a3, b3⟩
    · exact ⟨a4, b4⟩
  · revert k
    decide

theorem HubQ.addObj {f : Nat → Prop} {s t : State} {k n : Nat} (h : HubQ f s t) (i : f k) : HubQ f s (t.addObj k n) := by
  unfold State.addObj; split
  · exact h
  · exact h.setObj i

theorem HubQ.raise {s t : State} {code src unit a b c d e : Nat} (h : HubQ hubObjs s t) :
    HubQ hubObjs s (t.raise code src unit a b c d e) := by
  refine ⟨h.only.raise (other_hub (by decide)) (other_hub (by decide)) (other_hub (by decide)), ?_⟩
  rw [← h.core]
  obtain ⟨o, l, n, v, e⟩ := raise_notes (code := code) (src := src) (unit := unit) (a := a) (b := b) (c := c) (d := d) (e := e) (Notes.refl t)
  rw [e]

theorem hubLoses_quiet {s t : State} {p : Nat} (hp : p < 32) (h : HubQ hubObjs s t) : HubQ hubObjs s (t.hubLoses p) := by
  have k1 : hubObjs (oLinkState p) := .inl ⟨p, hp, .inl rfl⟩
  have k2 : hubObjs (oLinkRate p) := .inl ⟨p, hp, .inr (.inl rfl)⟩
  have k3 : hubObjs (oLastDownCause p) := .inl ⟨p, hp, .inr (.inr (.inl rfl))⟩
  have k4 : hubObjs (oLinkDownCount p) := .inl ⟨p, hp, .inr (.inr (.inr rfl))⟩
  unfold State.hubLoses
  dsimp only
  have q : HubQ hubObjs s (((((t.addObj oAbortedMessages ((t.port p).incoming.filter (·.fate != .discard)).length).setObj
      (oLinkState p) ((t.addObj oAbortedMessages ((t.port p).incoming.filter (·.fate != .discard)).length).portAfterReset p)).setObj
      (oLinkRate p) 0).endSessions (2 + p))) := by
    with_reducible exact HubQ.endSessions (((h.addObj (other_hub (by decide))).setObj k1).setObj k2) (other_hub (by decide))
  generalize ((((t.addObj oAbortedMessages ((t.port p).incoming.filter (·.fate != .discard)).length).setObj
      (oLinkState p) ((t.addObj oAbortedMessages ((t.port p).incoming.filter (·.fate != .discard)).length).portAfterReset p)).setObj
      (oLinkRate p) 0).endSessions (2 + p)) = x at *
  split
  · exact q
  · have q2 : HubQ hubObjs s (((x.takeFree 8).2.setObj (oLastDownCause p) (x.takeFree 8).1).count (oLinkDownCount p)) := by
      refine HubQ.addObj (HubQ.setObj (q.same rfl rfl) k3) k4
    split
    · exact q2
    · exact q2.raise

/-- What an L1 reset clears beside leaves. -/
theorem clearHubs_frame {s : State} (h : Rising s.dict.objs) : HubQ hubObjs s s.clearHubs := by
  have q0 : HubQ hubObjs s s := ⟨Only.refl h, rfl⟩
  unfold State.clearHubs
  extract_lets x1 x2 _ _ _ _ _ x3
  have q1 : HubQ hubObjs s x1 := by
    have hq : HubQ hubObjs s s.hostQuiet := by
      with_reducible exact q0.hostQuiet (other_hub (by decide)) (other_hub (by decide)) (other_hub (by decide))
    unfold x1; split
    · exact HubQ.raise hq
    · exact hq
  have q2 : HubQ hubObjs s x2 := by
    have f : HubQ hubObjs s ((List.range 32).foldl State.hubLoses x1) :=
      HubQ.foldl q1 fun x a ha hx => hubLoses_quiet (List.mem_range.1 ha) hx
    unfold x2
    generalize (List.range 32).foldl State.hubLoses x1 = w at *
    unfold State.loseCache
    exact HubQ.setObj (f.same rfl rfl) (other_hub (by decide))
  have q3 : HubQ hubObjs s x3 := by clear_value x2; exact q2.same rfl rfl
  have q4 : HubQ hubObjs s x3.refreshPortsUp := by unfold State.refreshPortsUp; with_reducible exact q3.setObj (other_hub (by decide))
  have q5 : HubQ hubObjs s x3.refreshPortsUp.placeInTree := by
    with_reducible exact q4.placeInTree (other_hub (by decide)) (other_hub (by decide)) (other_hub (by decide))
  refine HubQ.foldl q5 fun x a _ hx => ?_
  with_reducible exact (hx.setFarState (other_hub (by decide))).endSessions (other_hub (by decide))

/-- What clearing a level leaves. -/
structure Cleared (s x : State) (l : Nat) : Prop where
  rising : Rising x.dict.objs
  count : x.obj oResetCount = s.obj oResetCount
  idle : x.obj oSchedulerState = 0
  tasks : x.sched.tasks = []
  commits : x.dict.committed = []
  dusk : x.resil.dusk = 0 ∧ x.resil.restore = none
  memory : l = 0 → x.mem = {} ∧ x.dict.log = []
  cells : l = 2 → x.mem.cells = s.mem.cells ∧ x.dict.log = s.dict.log
  fuses : x.sec.fwFloors = s.sec.fwFloors ∧ x.sec.hubFloors = s.sec.hubFloors ∧ x.sec.reachTables = s.sec.reachTables

theorem clearAllOf_cleared (s : State) : Cleared s s.clearAllOf 0 := by
  have e : s.clearAllOf = (State.setObj { State.reset with
      pending := s.pending, out := s.out, freeCtr := s.freeCtr, sec := { fwFloors := s.sec.fwFloors, hubFloors := s.sec.hubFloors, reachTables := s.sec.reachTables }
      rst := { holding := s.rst.holding, thermTrip := s.rst.thermTrip } } oResetCause (s.obj oResetCause)).setObj oResetCount (s.obj oResetCount) := rfl
  generalize hx : ({ State.reset with
      pending := s.pending, out := s.out, freeCtr := s.freeCtr, sec := { fwFloors := s.sec.fwFloors, hubFloors := s.sec.hubFloors, reachTables := s.sec.reachTables }
      rst := { holding := s.rst.holding, thermTrip := s.rst.thermTrip } } : State) = x at e
  have xr : Rising x.dict.objs := by rw [← hx]; trivial
  have xi : x.obj oSchedulerState = 0 := by rw [← hx]; exact (show State.reset.obj oSchedulerState = 0 by decide +kernel)
  have r := rising_setObj (k := oResetCause) (v := s.obj oResetCause) xr
  rw [e]
  refine ⟨rising_setObj r, ?_, ?_, ?_, ?_, ?_, fun _ => ?_, fun c => absurd c (by decide), ?_⟩
  · rw [obj_setObj r, if_pos rfl]
  · rw [obj_setObj_ne r (by decide), obj_setObj_ne xr (by decide), xi]
  · show x.sched.tasks = []; rw [← hx]; rfl
  · show x.dict.committed = []; rw [← hx]; rfl
  · show x.resil.dusk = 0 ∧ x.resil.restore = none; rw [← hx]; exact ⟨rfl, rfl⟩
  · show x.mem = {} ∧ x.dict.log = []; rw [← hx]; exact ⟨rfl, rfl⟩
  · show x.sec.fwFloors = _ ∧ x.sec.hubFloors = _ ∧ x.sec.reachTables = _; rw [← hx]; exact ⟨rfl, rfl, rfl⟩

theorem clearDie_cleared {s : State} (h : Rising s.dict.objs) : Cleared s s.clearDie 2 := by
  obtain ⟨q, d1, d2, d3, d4, d5⟩ := clearDie_frame h
  generalize s.clearDie = x at *
  have c := q.core
  simp only [dieCore, Prod.mk.injEq] at c
  obtain ⟨c1, c2, c3, c4, c5, c6⟩ := c
  exact ⟨q.only.rising, q.only.objs _ (by decide), d1, d2, d3, ⟨d4, d5⟩, fun c => absurd c (by decide), fun _ => ⟨c1, c2⟩, ⟨c3, c4, c5⟩⟩

theorem clearHubs_cleared {s x : State} (h : Cleared s x 2) : Cleared s x.clearHubs 1 := by
  have q := clearHubs_frame h.rising
  have f8 : x.clearHubs.obj oSchedulerState = x.obj oSchedulerState := q.only.objs _ fun k => (hubObjs_clear k).2 rfl
  have o : Only clearObjs x x.clearHubs := q.only.mono fun k h => (hubObjs_clear h).1
  have c := q.core
  simp only [hubCore, Prod.mk.injEq] at c
  obtain ⟨f1, f2, f3, f5, f6, f7⟩ := c
  generalize x.clearHubs = y at *
  refine ⟨o.rising, (o.objs _ (by decide)).trans h.count, f8.trans h.idle, by rw [f1]; exact h.tasks, by rw [f2]; exact h.commits, by rw [f3]; exact h.dusk,
    fun c => absurd c (by decide), fun c => absurd c (by decide), by rw [f5, f6, f7]; exact h.fuses⟩

theorem clearLevel_cleared {s : State} {l : Nat} (h : Sound s) : Cleared s (s.clearLevel l) l := by
  have d := clearDie_cleared h.objs
  unfold State.clearLevel
  by_cases c0 : l = 0
  · subst c0; rw [if_pos rfl]; exact clearAllOf_cleared s
  · by_cases c1 : l = 1
    · subst c1; rw [if_neg (by decide), if_pos rfl]; exact clearHubs_cleared d
    · rw [if_neg c0, if_neg c1]
      generalize s.clearDie = x at *
      exact ⟨d.rising, d.count, d.idle, d.tasks, d.commits, d.dusk, fun c => absurd c c0, fun _ => d.cells rfl, d.fuses⟩

/-- What starting a reset leaves. -/

theorem startReset_begins {s : State} {n l : Nat} (h : Sound s) : Begins s (s.startReset n l) n l := by
  have e : s.startReset n l = (((State.recordReset { s.clearLevel l with rst := { (s.clearLevel l).rst with
    inReset := true, level := l, needFw := false, needHub := false } } n l).setObj oDawnPhase 1).setObj oFirmwareVersion 0).setObj oRsaReady 0 := rfl
  have core := clearLevel_cleared (l := l) h
  rw [e]
  generalize s.clearLevel l = x at *
  obtain ⟨r, k1, k2, k3, k4, k5, k6, k7, k8⟩ := core
  generalize hy : ({ x with rst := { x.rst with inReset := true, level := l, needFw := false, needHub := false } } : State) = y
  have ry : Rising y.dict.objs := by rw [← hy]; exact r
  have y1 : y.obj oResetCount = x.obj oResetCount := by rw [← hy]; rfl
  have y2 : y.obj oSchedulerState = x.obj oSchedulerState := by rw [← hy]; rfl
  have y3 : y.rst.inReset = true ∧ y.rst.level = l := by rw [← hy]; exact ⟨rfl, rfl⟩
  have r1 := rising_setObj (k := oResetCause) (v := n <<< 8 + l) ry
  have r2 : Rising (y.recordReset n l).dict.objs := rising_setObj r1
  have r3 := rising_setObj (k := oDawnPhase) (v := 1) r2
  have r4 := rising_setObj (k := oFirmwareVersion) (v := 0) r3
  have o1 : (y.recordReset n l).obj oResetCause = n <<< 8 + l := by
    unfold State.recordReset; rw [obj_setObj_ne r1 (by decide), obj_setObj ry, if_pos rfl]
  have o2 : (y.recordReset n l).obj oResetCount = (y.obj oResetCount + 1) % 2 ^ 32 := by
    unfold State.recordReset; rw [obj_setObj r1, if_pos rfl]
  have o3 : (y.recordReset n l).obj oSchedulerState = y.obj oSchedulerState := by
    unfold State.recordReset; rw [obj_setObj_ne r1 (by decide), obj_setObj_ne ry (by decide)]
  refine ⟨y3.1, y3.2, ?_, ?_, ?_, ?_, ?_, ?_, ?_, ?_, ?_, ?_⟩
  · rw [obj_setObj_ne r4 (by decide), obj_setObj_ne r3 (by decide), obj_setObj r2, if_pos rfl]
  · rw [obj_setObj_ne r4 (by decide), obj_setObj_ne r3 (by decide), obj_setObj_ne r2 (by decide), o1]
  · rw [obj_setObj_ne r4 (by decide), obj_setObj_ne r3 (by decide), obj_setObj_ne r2 (by decide), o2, y1, k1]
  · rw [obj_setObj_ne r4 (by decide), obj_setObj_ne r3 (by decide), obj_setObj_ne r2 (by decide), o3, y2, k2]
  · show y.sched.tasks = []; rw [← hy]; exact k3
  · show y.dict.committed = []; rw [← hy]; exact k4
  · show y.resil.dusk = 0 ∧ y.resil.restore = none; rw [← hy]; exact k5
  · intro c; show y.mem = {} ∧ y.dict.log = []; rw [← hy]; exact k6 c
  · intro c; show y.mem.cells = _ ∧ y.dict.log = _; rw [← hy]; exact k7 c
  · show y.sec.fwFloors = _ ∧ y.sec.hubFloors = _ ∧ y.sec.reachTables = _; rw [← hy]; exact k8

theorem assert_absorbed {s : State} {n : Nat} {b : Bool} (h : s.rst.inReset = true ∧ s.rst.level ≤ s.reachOf n) :
    s.assertReset n b = (if b then { s with rst := { s.rst with holding := setAdd n s.rst.holding } } else s) := by
  unfold State.assertReset
  cases b
  · simp only [Bool.false_eq_true, if_false]
    rw [if_pos h]
  · simp only [if_true]
    rw [if_pos h]

theorem assert_begins {s : State} {n : Nat} {b : Bool} (h : Sound s)
    (g : ¬(s.rst.inReset = true ∧ s.rst.level ≤ s.reachOf n)) : Begins s (s.assertReset n b) n (s.reachOf n) := by
  unfold State.assertReset
  dsimp only
  cases b
  · simp only [Bool.false_eq_true, if_false]
    rw [if_neg g]; exact startReset_begins h
  · simp only [if_true]
    rw [if_neg g]
    have h' : Sound { s with rst := { s.rst with holding := setAdd n s.rst.holding } } := ⟨h.objs, h.pend, h.cells, h.log, h.fallback, h.readies⟩
    have e := startReset_begins (n := n) (l := s.reachOf n) h'
    exact ⟨e.inReset, e.level, e.phase, e.cause, e.count, e.idle, e.tasks, e.commits, e.dusk, e.memory, e.cells, e.fuses⟩

theorem Begins.rst {s t : State} {n l : Nat} (h : Begins s t n l) (b : Bool) : Begins s { t with rst := { t.rst with thermTrip := b } } n l :=
  ⟨h.inReset, h.level, h.phase, h.cause, h.count, h.idle, h.tasks, h.commits, h.dusk, h.memory, h.cells, h.fuses⟩

theorem mem_setAdd_self (a : Nat) (l : List Nat) : a ∈ setAdd a l := by
  induction l with
  | nil => simp [setAdd]
  | cons x l ih =>
    unfold setAdd
    split
    · simp
    · split
      · rename_i e; simp [e]
      · simp [ih]

theorem dropFront_sound {s : State} {p : Nat} {m : Msg} (h : Sound s) : Sound (s.dropFront p m) :=
  ⟨h.objs, h.pend, h.cells, h.log, h.fallback, h.readies⟩

end Sys2Proof.Safety
end

