-- ==== Sys2Proof/Laws/Dawn.lean ====
section
/-! SUPPORT. What the phases of Dawn leave. -/

namespace Sys2Proof.Safety

open Sys2Proof.Machine

theorem Keeps.rising {s t : State} (k : Keeps s t) (h : Sound s) : Rising t.dict.objs := (k.sound h).objs

theorem checkImage_notes (s : State) (bs : List Byte) (k : Nat) : Notes s (s.checkImage bs k).2 := by
  unfold State.checkImage
  dsimp only
  split
  · exact Notes.refl s
  · exact raise_notes (Notes.refl s)

/-- A change that leaves the reset's level and what it holds. -/
def InSame (s t : State) : Prop := t.rst.inReset = s.rst.inReset ∧ t.rst.level = s.rst.level ∧ t.rst.holding = s.rst.holding

theorem Notes.rst {s t : State} (h : Notes s t) : t.rst = s.rst := by
  obtain ⟨_, _, _, _, e⟩ := h; rw [e]

theorem InSame.of {s t u : State} (h : InSame s t) (e : u.rst = t.rst) : InSame s u := by unfold InSame; rw [e]; exact h

theorem runImage_same {s t : State} (v : ImageView) (k slot : Nat) (h : InSame s t) : InSame s (t.runImage v k slot) := by
  unfold State.runImage
  by_cases c : k = 1
  · simp only [c, if_true]; exact h
  · simp only [c, if_false]; exact h

theorem bootSlots_same {s t : State} (slots : List (List Byte)) (k : Nat) (h : InSame s t) : InSame s (t.bootSlots slots k) := by
  unfold State.bootSlots
  generalize slots.zipIdx = l
  suffices g : ∀ (b : Option (ImageView × Nat)) (x : State), InSame s x → InSame s
      (match l.foldl (fun (p : Option (ImageView × Nat) × State) q =>
        let (v, s) := p.2.checkImage q.1 k
        match v, p.1 with
        | some v, none => (some (v, q.2), s)
        | some v, some b => (if b.1.version < v.version then some (v, q.2) else some b, s)
        | none, b => (b, s)) (b, x) with
      | (some (v, slot), s) => s.runImage v k slot
      | (none, s) => if k = 1 then { s.setObj oFirmwareVersion 0 with rst := { s.rst with needFw := true } }
        else { s with rst := { s.rst with needHub := true } }) by
    have := g none t h
    revert this
    generalize l.foldl _ (none, t) = p
    obtain ⟨b, x⟩ := p
    cases b <;> exact fun h => h
  induction l with
  | nil =>
    intro b x hx
    cases b with
    | none => 
      by_cases c : k = 1
      · simp only [List.foldl_nil, c, if_true]; exact hx
      · simp only [List.foldl_nil, c, if_false]; exact hx
    | some v => exact runImage_same _ _ _ hx
  | cons a l ih =>
    intro b x hx
    have n := (checkImage_notes x a.1 k).rst
    rw [List.foldl_cons]
    generalize x.checkImage a.1 k = y at *
    obtain ⟨v, y⟩ := y
    have hy := hx.of n
    cases v <;> cases b
    · exact ih _ _ hy
    · exact ih _ _ hy
    · exact ih _ _ hy
    · exact ih _ _ hy

theorem runImage_only {f : Nat → Prop} {s t : State} (v : ImageView) (k slot : Nat) (h : Only f s t) (a : f oBootSlots)
    (b : f oFirmwareVersion) (c : f oMeasurement2) (d : f oMeasurement3) : Only f s (t.runImage v k slot) := by
  unfold State.runImage
  dsimp only
  have q : Only f s (t.setObj oBootSlots (setField (t.obj oBootSlots) (k - 1) (k - 1) slot)) := h.setObj a
  generalize t.setObj oBootSlots _ = x at *
  split
  · have q2 : Only f s ((x.setObj oFirmwareVersion v.version).setObj oMeasurement2 (ofLe v.digest)) := by
      with_reducible exact (q.setObj b).setObj c
    generalize (x.setObj oFirmwareVersion v.version).setObj oMeasurement2 (ofLe v.digest) = y at *
    exact q2.same rfl
  · have q2 : Only f s (x.setObj oMeasurement3 (ofLe v.digest)) := by
      with_reducible exact q.setObj d
    generalize x.setObj oMeasurement3 (ofLe v.digest) = y at *
    exact q2.same rfl

theorem checkImage_only {f : Nat → Prop} {s t : State} (bs : List Byte) (k : Nat) (h : Only f s t) (i : ∀ k, eventObjs k → f k) :
    Only f s (t.checkImage bs k).2 := by
  unfold State.checkImage
  dsimp only
  split
  · exact h
  · exact h.raiseE i

theorem bootSlots_only {f : Nat → Prop} {s t : State} (slots : List (List Byte)) (k : Nat) (h : Only f s t) (i : ∀ k, eventObjs k → f k)
    (a : f oBootSlots) (b : f oFirmwareVersion) (c : f oMeasurement2) (d : f oMeasurement3) : Only f s (t.bootSlots slots k) := by
  unfold State.bootSlots
  generalize slots.zipIdx = l
  suffices g : ∀ (b : Option (ImageView × Nat)) (x : State), Only f s x → Only f s
      (match l.foldl (fun (p : Option (ImageView × Nat) × State) q =>
        let (v, s) := p.2.checkImage q.1 k
        match v, p.1 with
        | some v, none => (some (v, q.2), s)
        | some v, some b => (if b.1.version < v.version then some (v, q.2) else some b, s)
        | none, b => (b, s)) (b, x) with
      | (some (v, slot), s) => s.runImage v k slot
      | (none, s) => if k = 1 then { s.setObj oFirmwareVersion 0 with rst := { s.rst with needFw := true } }
        else { s with rst := { s.rst with needHub := true } }) by
    have := g none t h
    revert this
    generalize l.foldl _ (none, t) = p
    obtain ⟨b, x⟩ := p
    cases b <;> exact fun h => h
  induction l with
  | nil =>
    intro v x hx
    cases v with
    | none =>
      have q : Only f s (x.setObj oFirmwareVersion 0) := hx.setObj b
      generalize hz : x.setObj oFirmwareVersion 0 = z at *
      by_cases c : k = 1
      · simp only [List.foldl_nil, c, if_true, hz]; exact q.same rfl
      · simp only [List.foldl_nil, c, if_false]; exact hx.same rfl
    | some v => exact runImage_only _ _ _ hx a b c d
  | cons w l ih =>
    intro v x hx
    have hy := checkImage_only w.1 k hx i
    rw [List.foldl_cons]
    generalize x.checkImage w.1 k = y at *
    obtain ⟨u, y⟩ := y
    cases u <;> cases v
    · exact ih _ _ hy
    · exact ih _ _ hy
    · exact ih _ _ hy
    · exact ih _ _ hy

theorem bootPhase_phase {s : State} {env : DawnEnv} (h : Rising s.dict.objs) : (s.bootPhase env).obj oDawnPhase = s.obj oDawnPhase := by
  unfold State.bootPhase
  have i : ∀ k, eventObjs k → k ≠ oDawnPhase := by rintro k (rfl | rfl | rfl) <;> decide
  have q := bootSlots_only (f := (· ≠ oDawnPhase)) env.hubSlots 2 (bootSlots_only env.fwSlots 1 (Only.refl h) i (by decide) (by decide)
    (by decide) (by decide)) i (by decide) (by decide) (by decide) (by decide)
  generalize State.bootSlots (State.bootSlots s _ _) _ _ = x at *
  rw [(refresh_frame (rising_setObj q.rising)).2 _ (by decide) (by decide), obj_setObj_ne q.rising (by decide)]
  exact q.objs _ (by simp)

theorem bootPhase_same (s : State) (env : DawnEnv) : InSame s (s.bootPhase env) := by
  unfold State.bootPhase
  have h := bootSlots_same env.hubSlots 2 (bootSlots_same env.fwSlots 1 (⟨rfl, rfl, rfl⟩ : InSame s s))
  generalize State.bootSlots (State.bootSlots s _ _) _ _ = x at *
  exact h

/-- One phase's work by its number. -/
def dawnTable (s : State) (env : DawnEnv) (k : Nat) : State :=
    match k with
    | 1 => s.readFuses.nextPhase 1
    | 2 => (s.emit (.pmbus Config.setpointMv)).nextPhase 2
    | 5 =>
      let s := s.bootPhase env
      if s.waitsImage then s else s.nextPhase 5
    | 6 => (s.farDawn env.far).nextPhase 6
    | 7 => s.selfTest env
    | k => s.nextPhase k

theorem dawnPhase_at {s : State} {k : Nat} (env : DawnEnv) (h : s.obj oDawnPhase = k) : s.dawnPhase env = dawnTable s env k := by
  rw [← h]; rfl

theorem nextPhase_obj {x : State} {k l : Nat} (e : x.rst.level = l) (r : Rising x.dict.objs) (h5 : k ≠ 5) :
    (x.nextPhase k).obj oDawnPhase = if l = 2 ∧ k = 3 then 5 else k + 1 := by
  unfold State.nextPhase State.phaseAfter
  rw [obj_setObj r, if_pos rfl, e]
  by_cases c : l = 2 ∧ k = 3
  · rw [if_pos c, if_pos ⟨c.1, .inl c.2⟩, c.2]
  · rw [if_neg c, if_neg]
    rintro ⟨a, b | b⟩
    · exact c ⟨a, b⟩
    · exact h5 b

theorem nextPhase_six {x : State} (r : Rising x.dict.objs) : (x.nextPhase 6).obj oDawnPhase = 7 := by
  unfold State.nextPhase State.phaseAfter
  rw [obj_setObj r, if_pos rfl, if_neg]
  rintro ⟨-, b | b⟩ <;> exact absurd b (by decide)

theorem nextPhase_other {x : State} {k j : Nat} (r : Rising x.dict.objs) (h : j ≠ oDawnPhase) : (x.nextPhase k).obj j = x.obj j := by
  unfold State.nextPhase; exact obj_setObj_ne r h

theorem readFuses_obj {s : State} (r : Rising s.dict.objs) : s.readFuses.obj oReachTable = s.reachOtp ∧
    s.readFuses.obj oRollbackFloorFw = s.floorOf 1 ∧ s.readFuses.obj oRollbackFloorHub = s.floorOf 2 := by
  have e : s.readFuses = (((((s.setObj oRollbackFloorFw (s.floorOf 1)).setObj oRollbackFloorHub (s.floorOf 2)).setObj oOtpFloorFw (s.floorOf 1)).setObj
    oOtpFloorHub (s.floorOf 2)).setObj oReachTable s.reachOtp).setObj oOtpGenerations s.otpGenerations := rfl
  rw [e]
  generalize s.floorOf 1 = a, s.floorOf 2 = b, s.reachOtp = c, s.otpGenerations = d
  have r1 := rising_setObj (k := oRollbackFloorFw) (v := a) r
  have r2 := rising_setObj (k := oRollbackFloorHub) (v := b) r1
  have r3 := rising_setObj (k := oOtpFloorFw) (v := a) r2
  have r4 := rising_setObj (k := oOtpFloorHub) (v := b) r3
  have r5 := rising_setObj (k := oReachTable) (v := c) r4
  refine ⟨?_, ?_, ?_⟩
  · rw [obj_setObj_ne r5 (by decide), obj_setObj r4, if_pos rfl]
  · rw [obj_setObj_ne r5 (by decide), obj_setObj_ne r4 (by decide), obj_setObj_ne r3 (by decide), obj_setObj_ne r2 (by decide),
      obj_setObj_ne r1 (by decide), obj_setObj r, if_pos rfl]
  · rw [obj_setObj_ne r5 (by decide), obj_setObj_ne r4 (by decide), obj_setObj_ne r3 (by decide), obj_setObj_ne r2 (by decide),
      obj_setObj r1, if_pos rfl]

/-- What the ports send when the device leaves reset. -/
theorem pumpAll_sends {l : List Nat} (x y : State) (hl : ∀ p ∈ l, p < 32) (h : SendsOn (· < 32) x y) :
    SendsOn (· < 32) x (l.foldl State.pump y) := by
  induction l generalizing y with
  | nil => exact h
  | cons a l ih =>
    have k : SendsOn (· < 32) x (y.pump a) := pump_sends a h (hl a List.mem_cons_self)
    rw [List.foldl_cons]
    generalize y.pump a = z at *
    exact ih z (fun p hp => hl p (List.mem_cons_of_mem _ hp)) k

theorem payload_keys : ∀ p, p < 32 → oDawnPhase ≠ oTxPayloadBytes p ∧ oEventSeqNext ≠ oTxPayloadBytes p ∧
    oTickCounter ≠ oTxPayloadBytes p := by decide

theorem pumpAll_frame {s x : State} (hx : { s with rst := { s.rst with inReset := false } } = x) (r : Rising s.dict.objs) :
    ∃ y, (List.range 32).foldl State.pump x = y ∧ Rising y.dict.objs ∧ y.rst.inReset = false ∧
      y.obj oDawnPhase = s.obj oDawnPhase ∧ y.obj oEventSeqNext = s.obj oEventSeqNext ∧ y.tick = s.tick := by
  have k := pumpAll_sends (l := List.range 32) x x (fun p hp => List.mem_range.1 hp) (SendsOn.refl x)
  generalize (List.range 32).foldl State.pump x = y at *
  refine ⟨y, rfl, ?_⟩
  have rx : Rising x.dict.objs := by rw [← hx]; exact r
  obtain ⟨ry, o⟩ := k.objs rx
  have ox : ∀ k, x.obj k = s.obj k := fun k => by rw [← hx]; rfl
  have fr := k.frame
  simp only [sendFrame, Prod.mk.injEq] at fr
  refine ⟨ry, by rw [fr.2.2.2.2.2.2.2.2.1, ← hx], ?_, ?_, ?_⟩
  · rw [o _ (by decide) (by decide) (fun p hp => (payload_keys p hp).1), ox]
  · rw [o _ (by decide) (by decide) (fun p hp => (payload_keys p hp).2.1), ox]
  · unfold State.tick
    rw [o _ (by decide) (by decide) (fun p hp => (payload_keys p hp).2.2), ox]

theorem selfTest_pass {s : State} {env : DawnEnv} (r : Rising s.dict.objs) (h : ∀ x ∈ env.failedTiles, 2048 ≤ x) :
    (s.selfTest env).rst.inReset = false ∧ (s.selfTest env).obj oDawnPhase = 0xFF ∧ (s.selfTest env).obj oSelftestFailedTiles = 0 ∧
    (s.selfTest env).obj oSelftestFirstTile = 0xFFFF := by
  have b : (List.range 2048).filter env.failedTiles.contains = [] := by
    rw [List.filter_eq_nil_iff]
    intro a ha hc
    have h1 := h a (by simpa using hc)
    have h2 := List.mem_range.1 ha
    omega
  unfold State.selfTest
  rw [b]
  dsimp only
  generalize hx : ({ s with rst := { s.rst with inReset := false } } : State) = x
  obtain ⟨y, ey, ry, ir, -⟩ := pumpAll_frame hx r
  rw [ey]
  have r1 := rising_setObj (k := oSelftestFailedTiles) (v := 0) ry
  have r2 := rising_setObj (k := oSelftestFirstTile) (v := 0xFFFF) r1
  have r3 := rising_setObj (k := oDawnPhase) (v := 0xFF) r2
  refine ⟨ir, ?_, ?_, ?_⟩
  · rw [obj_setObj_ne r3 (by decide), obj_setObj r2, if_pos rfl]
  · rw [obj_setObj_ne r3 (by decide), obj_setObj_ne r2 (by decide), obj_setObj_ne r1 (by decide), obj_setObj ry, if_pos rfl]
  · rw [obj_setObj_ne r3 (by decide), obj_setObj_ne r2 (by decide), obj_setObj r1, if_pos rfl]

theorem filter_range_least {p : Nat → Bool} {n m : Nat} (h : n < m) (hp : p n = true) (hl : ∀ x, p x = true → n ≤ x) :
    ∃ rest, (List.range m).filter p = n :: rest := by
  have hn : n ∈ (List.range m).filter p := List.mem_filter.2 ⟨List.mem_range.2 h, hp⟩
  have hs : ((List.range m).filter p).Pairwise (· < ·) := List.Pairwise.filter _ List.pairwise_lt_range
  generalize hl' : (List.range m).filter p = l at *
  cases l with
  | nil => cases hn
  | cons a l =>
    have ha : p a = true := (List.mem_filter.1 (by rw [hl']; simp : a ∈ (List.range m).filter p)).2
    have h1 := hl a ha
    rcases List.mem_cons.1 hn with rfl | hb
    · exact ⟨l, rfl⟩
    · have := (List.pairwise_cons.1 hs).1 n hb
      omega

theorem selfTest_fail {s : State} {env : DawnEnv} {n : Nat} (r : Rising s.dict.objs) (h1 : n < 2048) (h2 : n ∈ env.failedTiles)
    (h3 : ∀ x ∈ env.failedTiles, n ≤ x) : (s.selfTest env).rst.inReset = false ∧ (s.selfTest env).obj oDawnPhase = s.obj oDawnPhase ∧
    (s.selfTest env).obj oSelftestFirstTile = n ∧
    (s.selfTest env).dict.log.getLast? = some ⟨s.obj oEventSeqNext, s.tick, 0x0102, 0x01, n, 0xFFFFFFFF, 0x0A, n, 0, 0⟩ := by
  obtain ⟨rest, b⟩ := filter_range_least (p := env.failedTiles.contains) h1 (by simpa using h2) (fun x hx => h3 x (by simpa using hx))
  unfold State.selfTest
  rw [b]
  dsimp only
  generalize hx : ({ s with rst := { s.rst with inReset := false } } : State) = x
  obtain ⟨y, ey, ry, ir, y1, y2, y3⟩ := pumpAll_frame hx r
  rw [ey]
  generalize (n :: rest).length = c
  have r1 := rising_setObj (k := oSelftestFailedTiles) (v := c) ry
  have r2 := rising_setObj (k := oSelftestFirstTile) (v := n) r1
  obtain ⟨-, f2, -, -, f5⟩ := raise_frame (code := 0x0102) (src := 0x01) (unit := n) (a := 0xFFFFFFFF) (b := 0x0A) (c := n) (d := 0) (e := 0) r2
  have nt := (raise_notes (code := 0x0102) (src := 0x01) (unit := n) (a := 0xFFFFFFFF) (b := 0x0A) (c := n) (d := 0) (e := 0)
    (Notes.refl ((y.setObj oSelftestFailedTiles c).setObj oSelftestFirstTile n))).rst
  refine ⟨?_, ?_, ?_, ?_⟩
  · rw [nt]; exact ir
  · rw [f5 _ (by decide) (by decide) (by decide), obj_setObj_ne r1 (by decide), obj_setObj_ne ry (by decide), y1]
  · rw [f5 _ (by decide) (by decide) (by decide), obj_setObj r1, if_pos rfl]
  · rw [f2]
    have e1 : ((y.setObj oSelftestFailedTiles c).setObj oSelftestFirstTile n).obj oEventSeqNext = s.obj oEventSeqNext := by
      rw [obj_setObj_ne r1 (by decide), obj_setObj_ne ry (by decide), y2]
    have e2 : ((y.setObj oSelftestFailedTiles c).setObj oSelftestFirstTile n).tick = s.tick := by
      rw [← y3]
      unfold State.tick
      rw [obj_setObj_ne r1 (by decide), obj_setObj_ne ry (by decide)]
    rw [e1, e2]

theorem readFuses_rst (s : State) : s.readFuses.rst = s.rst := by
  have e : ∀ (x : State) k v, (x.setObj k v).rst = x.rst := fun _ _ _ => rfl
  unfold State.readFuses
  dsimp only
  rw [e, e, e, e, e, e]

theorem fuses_gen {s x : State} (l : x.rst = s.rst) (r : Rising x.dict.objs) (o : x.obj oReachTable = s.reachOtp ∧
    x.obj oRollbackFloorFw = s.floorOf 1 ∧ x.obj oRollbackFloorHub = s.floorOf 2) :
    (x.nextPhase 1).rst.inReset = s.rst.inReset ∧
    (x.nextPhase 1).obj oDawnPhase = (if s.rst.level = 2 ∧ 1 = 3 then 5 else 1 + 1) ∧
    (x.nextPhase 1).obj oReachTable = s.reachOtp ∧ (x.nextPhase 1).obj oRollbackFloorFw = s.floorOf 1 ∧
    (x.nextPhase 1).obj oRollbackFloorHub = s.floorOf 2 := by
  refine ⟨?_, nextPhase_obj (by rw [l]) r (by decide), ?_, ?_, ?_⟩
  · show x.rst.inReset = _; rw [l]
  · rw [nextPhase_other r (by decide), o.1]
  · rw [nextPhase_other r (by decide), o.2.1]
  · rw [nextPhase_other r (by decide), o.2.2]

theorem fuses_phase {s : State} (hs : Sound s) : (s.readFuses.nextPhase 1).rst.inReset = s.rst.inReset ∧
    (s.readFuses.nextPhase 1).obj oDawnPhase = (if s.rst.level = 2 ∧ 1 = 3 then 5 else 1 + 1) ∧
    (s.readFuses.nextPhase 1).obj oReachTable = s.reachOtp ∧ (s.readFuses.nextPhase 1).obj oRollbackFloorFw = s.floorOf 1 ∧
    (s.readFuses.nextPhase 1).obj oRollbackFloorHub = s.floorOf 2 := by
  with_reducible exact fuses_gen (readFuses_rst s) ((readFuses_keeps (Keeps.refl s)).rising hs) (readFuses_obj hs.objs)

end Sys2Proof.Safety
end

