-- ==== Sys2Proof/Laws/LinkDown.lean ====
section
/-! SUPPORT. What taking a fabric port down does. -/

namespace Sys2Proof.Safety

open Sys2Proof.Machine

/-- The objects that taking a port down changes. -/
def downObjs (p k : Nat) : Prop :=
  k = oAbortedMessages ∨ k = oMisroutedMessages ∨ k = oUnroutableMessages ∨ (∃ q, k = oTxPayloadBytes q) ∨ k = oLinkState p ∨
  k = oLinkRate p ∨ k = oLastDownCause p ∨ k = oLinkDownCount p ∨ k = oPortsUp ∨ k = oSpdmSessions ∨ k = oTimeReferenceRank ∨
  k = oTimeDistance ∨ k = oTimeParentPort ∨ eventObjs k

theorem tx_key {q a b : Nat} (h : b < 256) (n : b ≠ 0x0B) : a * 256 + b ≠ oTxPayloadBytes q := by
  show a * 256 + b ≠ (0x4010 + q) * 256 + 0x0B
  omega

theorem abort_only {f : Nat → Prop} {s t : State} (p : Nat) (i : Incoming) (h : Only f s t) (a : f oAbortedMessages)
    (b : f oMisroutedMessages) (c : f oUnroutableMessages) (d : ∀ p, f (oTxPayloadBytes p)) : Only f s (t.abortIncoming p i) := by
  unfold State.abortIncoming
  have q : Only f s (if i.fate = .discard then t else t.count oAbortedMessages) := by
    split
    · exact h
    · exact h.count a
  generalize (if i.fate = .discard then t else t.count oAbortedMessages) = x at *
  dsimp only
  split
  · split
    · exact q.sends (sendControl_sends _ _ (oweCredit_sends _ _ _ (setPort_sends _ _ (SendsOn.refl x))) trivial) b c d
    · exact q.sends (pump_sends _ (oweCredit_sends _ _ _ (setPort_sends _ _ (SendsOn.refl x))) trivial) b c d
  · exact q.sends (oweCredit_sends _ _ _ (SendsOn.refl x)) b c d
  · exact q

/-- The objects that dropping messages part way in changes. -/
def abortObjs (k : Nat) : Prop :=
  k = oAbortedMessages ∨ k = oMisroutedMessages ∨ k = oUnroutableMessages ∨ ∃ q, k = oTxPayloadBytes q

theorem not_abort {a b : Nat} (h : b < 256) (n : b ≠ 0x0B) (c : a ≠ 0x4000) : ¬ abortObjs (objKey a b) := by
  unfold objKey
  rintro (e | e | e | ⟨q, e⟩)
  · exact absurd (show a * 256 + b = 0x4000 * 256 + 9 from e) (by omega)
  · exact absurd (show a * 256 + b = 0x4000 * 256 + 7 from e) (by omega)
  · exact absurd (show a * 256 + b = 0x4000 * 256 + 8 from e) (by omega)
  · exact tx_key h n e

/-- Objects of a port, by their sub-index. -/

theorem port_key {p : Nat} (hp : p < 32) {b : Nat} (h : b < 256) (n : b ≠ 0x0B) : ¬ abortObjs (objKey (0x4010 + p) b) :=
  not_abort h n (by omega)

theorem objKey_ne {a b c d : Nat} (hb : b < 256) (hd : d < 256) (h : a ≠ c ∨ b ≠ d) : objKey a b ≠ objKey c d := by
  unfold objKey; omega

theorem endSessions_obj {x : State} {c k : Nat} (h : Rising x.dict.objs) (n : k ≠ oSpdmSessions) : (x.endSessions c).obj k = x.obj k :=
  (Only.endSessions (f := (· = oSpdmSessions)) (Only.refl h) rfl).objs k n

/-- The last steps of taking a port down: the list of ports that are up, sessions and the timing tree. -/
def treeObjs (k : Nat) : Prop :=
  k = oPortsUp ∨ k = oSpdmSessions ∨ k = oTimeReferenceRank ∨ k = oTimeDistance ∨ k = oTimeParentPort

theorem foldl_dict {α : Type} {g : State → α → State} (l : List α) (hg : ∀ y a, (g y a).dict = y.dict) (x : State) :
    (l.foldl g x).dict = x.dict := by
  induction l generalizing x with
  | nil => rfl
  | cons a l ih => rw [List.foldl_cons, ih, hg]

theorem returnCredits_dict (x : State) (p : Nat) : (x.returnCredits p).dict = x.dict := by
  unfold State.returnCredits
  split
  · rfl
  · refine foldl_dict _ (fun y a => ?_) x
    dsimp only
    split <;> rfl

/-- Returning credits leaves the objects. -/
theorem returnAll_dict (x : State) : x.returnAll.dict = x.dict := foldl_dict _ returnCredits_dict x

theorem after_only {x : State} {c : Nat} (h : Rising x.dict.objs) :
    Only treeObjs x (((x.refreshPortsUp).endSessions c).placeInTree).returnAll := by
  have q1 : Only treeObjs x x.refreshPortsUp := by
    unfold State.refreshPortsUp
    have i : treeObjs oPortsUp := .inl rfl
    with_reducible exact (Only.refl h).setObj i
  have q2 : Only treeObjs x (x.refreshPortsUp.endSessions c) := by
    have i : treeObjs oSpdmSessions := .inr (.inl rfl)
    with_reducible exact q1.endSessions i
  have i : treeObjs oTimeReferenceRank := .inr (.inr (.inl rfl))
  have j : treeObjs oTimeDistance := .inr (.inr (.inr (.inl rfl)))
  have l : treeObjs oTimeParentPort := .inr (.inr (.inr (.inr rfl)))
  have q3 : Only treeObjs x ((x.refreshPortsUp).endSessions c).placeInTree := by with_reducible exact q2.placeInTree i j l
  exact q3.same (by rw [returnAll_dict])

theorem not_tree {a b : Nat} (h : b < 256) (c : a ≠ 0x4000) (d : a ≠ 0x7040) : ¬ treeObjs (objKey a b) := by
  unfold objKey
  rintro (e | e | e | e | e)
  · exact absurd (show a * 256 + b = 0x4000 * 256 + 1 from e) (by omega)
  · exact absurd (show a * 256 + b = 0x7040 * 256 + 1 from e) (by omega)
  · exact absurd (show a * 256 + b = 0x4000 * 256 + 2 from e) (by omega)
  · exact absurd (show a * 256 + b = 0x4000 * 256 + 3 from e) (by omega)
  · exact absurd (show a * 256 + b = 0x4000 * 256 + 4 from e) (by omega)

theorem not_event {a b : Nat} (h : b < 256) (c : a ≠ 0x9000) : ¬ eventObjs (objKey a b) := by
  unfold objKey
  rintro (e | e | e)
  · exact absurd (show a * 256 + b = 0x9000 * 256 + 2 from e) (by omega)
  · exact absurd (show a * 256 + b = 0x9000 * 256 + 3 from e) (by omega)
  · exact absurd (show a * 256 + b = 0x9000 * 256 + 4 from e) (by omega)

theorem abort_fold {s x : State} (p : Nat) (l : List Incoming) (h : Only abortObjs s x) :
    Only abortObjs s (l.foldl (fun s i => s.abortIncoming p i) x) :=
  Only.foldl h fun _ i hy => abort_only p i hy (.inl rfl) (.inr (.inl rfl)) (.inr (.inr (.inl rfl))) fun p => .inr (.inr (.inr ⟨p, rfl⟩))

theorem leave_fold {s x : State} (l : List TxFlit) (h : Only abortObjs s x) : Only abortObjs s (l.foldl State.leaveBuffer x) :=
  Only.foldl h fun y i hy => hy.sends (leaveBuffer_sends i (SendsOn.refl y)) (.inr (.inl rfl)) (.inr (.inr (.inl rfl)))
    fun p => .inr (.inr (.inr ⟨p, rfl⟩))

theorem loseCuts_only {s x : State} (p : Nat) (h : Only abortObjs s x) : Only abortObjs s (x.loseCuts p) := by
  unfold State.loseCuts
  exact Only.addObj (h.same rfl) (.inl rfl)

theorem down_end {x : State} {p n c : Nat} (h : Rising x.dict.objs) (b : Bool) (m : Nat) :
    let y := (((x.refreshPortsUp).endSessions n).placeInTree).returnAll
    let t := if b then y.raise 0x0601 0x05 p m p c (y.obj (oPeerRank p)) else y
    Only (fun k => treeObjs k ∨ eventObjs k) x t ∧
    (b = true → p < 32 → t.dict.log.getLast? = some ⟨x.obj oEventSeqNext, x.tick, 0x0601, 0x05, p, m, p, c, x.obj (oPeerRank p), 0⟩) := by
  have q := after_only (c := n) h
  intro y t
  change Only treeObjs x y at q
  clear_value y
  unfold t
  cases b
  · exact ⟨q.mono fun _ => .inl, fun c => by cases c⟩
  · simp only [if_true]
    refine ⟨(q.mono fun _ => .inl).raiseE (f := fun k => treeObjs k ∨ eventObjs k) (fun _ => .inr), fun _ hp => ?_⟩
    rw [(raise_frame q.rising).2.1]
    have e1 := q.objs oEventSeqNext (not_tree (a := 0x9000) (b := 2) (by decide) (by decide) (by decide))
    have e2 := q.objs oTickCounter (not_tree (a := 0x2000) (b := 1) (by decide) (by decide) (by decide))
    have e3 := q.objs (oPeerRank p) (not_tree (by decide) (by omega) (by omega))
    unfold State.tick
    rw [e1, e2, e3]

/-- What sending and taking ports down leave alone. -/
abbrev aside (s : State) := (s.rst, s.mem, s.sched)

theorem foldl_aside {α : Type} {g : State → α → State} (l : List α) (hg : ∀ y a, aside (g y a) = aside y) (x : State) :
    aside (l.foldl g x) = aside x := by
  induction l generalizing x with
  | nil => rfl
  | cons a l ih => rw [List.foldl_cons, ih, hg]

theorem addObj_aside (x : State) (k n : Nat) : aside (x.addObj k n) = aside x := by
  unfold State.addObj; split <;> rfl

theorem sends_aside {f : Nat → Prop} {x y : State} (h : SendsOn f x y) : aside y = aside x := by
  have := h.frame
  simp only [sendFrame, Prod.mk.injEq] at this
  obtain ⟨-, -, a, -, b, -, -, -, c, -⟩ := this
  simp only [aside, a, b, c]

theorem abort_aside (x : State) (p : Nat) (i : Incoming) : aside (x.abortIncoming p i) = aside x := by
  unfold State.abortIncoming
  have q : aside (if i.fate = .discard then x else x.count oAbortedMessages) = aside x := by
    split
    · rfl
    · exact addObj_aside _ _ _
  generalize (if i.fate = .discard then x else x.count oAbortedMessages) = y at *
  rw [← q]
  dsimp only
  split
  · split
    · exact sends_aside (f := fun _ => True) (sendControl_sends _ _ (oweCredit_sends _ _ _ (setPort_sends _ _ (SendsOn.refl y))) trivial)
    · exact sends_aside (f := fun _ => True) (pump_sends _ (oweCredit_sends _ _ _ (setPort_sends _ _ (SendsOn.refl y))) trivial)
  · exact sends_aside (oweCredit_sends (f := fun _ => True) _ _ _ (SendsOn.refl y))
  · rfl

/-- Taking a port down leaves the resets, memory and the scheduler. -/
theorem linkDown_aside (s : State) (p st cause : Nat) : aside (s.linkDown p st cause) = aside s := by
  unfold State.linkDown
  extract_lets old q c x1 x2 x3 x4
  split
  · rfl
  · skip
    have e1 : aside x1 = aside s := addObj_aside _ _ _
    have e2 : aside x2 = aside s := by
      refine (foldl_aside _ (fun y a => abort_aside y p a) _).trans ((foldl_aside _ (fun y a => ?_) _).trans e1)
      exact sends_aside (leaveBuffer_sends (f := fun _ => True) a (SendsOn.refl y))
    clear_value x1 x2
    have e3 : aside x3 = aside s := by
      unfold x3; split
      · exact e2
      · exact (addObj_aside _ _ _).trans e2
    clear_value x3
    have e4 : aside x4 = aside s := by
      have k : ∀ y : State, aside y.placeInTree = aside y := by
        intro y
        unfold State.placeInTree
        dsimp only
        repeat' split
        all_goals rfl
      have l : ∀ y : State, aside y.returnAll = aside y := fun y => sends_aside (returnAll_sends (f := fun _ => True) (SendsOn.refl y))
      unfold x4
      rw [l, k]
      exact e3
    clear_value x4
    split
    · obtain ⟨_, _, _, _, e⟩ := raise_notes (code := 0x0601) (src := 0x05) (unit := p) (a := 0) (b := p) (c := c)
        (d := x4.obj (oPeerRank p)) (e := 0) (Notes.refl x4)
      rw [e]
      exact e4
    · exact e4

/-- Taking a port down leaves the resets. -/
theorem linkDown_rst (s : State) (p st cause : Nat) : (s.linkDown p st cause).rst = s.rst :=
  congrArg (·.1) (linkDown_aside s p st cause)

/-- What taking a port down does. -/
theorem linkDown_frame {s : State} {p st cause : Nat} (h : Rising s.dict.objs) (hp : p < 32) (h0 : s.link p ≠ 0)
    (h1 : ¬(s.link p = 1 ∧ st = 1)) :
    Only (downObjs p) s (s.linkDown p st cause) ∧ (s.linkDown p st cause).link p = st ∧
    (s.link p ≠ 1 → (s.linkDown p st cause).obj (oLastDownCause p) =
      if (s.port p).dusk = true ∧ (cause = 1 ∨ cause = 3) then 6 else cause) ∧
    (s.link p = 4 ∨ s.link p = 3 → (s.linkDown p st cause).dict.log.getLast? = some ⟨s.obj oEventSeqNext, s.tick, 0x0601, 0x05, p, 0, p,
      if (s.port p).dusk = true ∧ (cause = 1 ∨ cause = 3) then 6 else cause, s.obj (oPeerRank p), 0⟩) := by
  unfold State.linkDown
  rw [if_neg (by rintro (a | a) <;> first | exact h0 a | exact h1 a)]
  dsimp only
  generalize (if (s.port p).dusk = true ∧ (cause = 1 ∨ cause = 3) then 6 else cause) = c
  have r0 : Rising (s.setPort p (s.port p).down).dict.objs := h
  have r1 := rising_setObj (k := oLinkState p) (v := st) r0
  have r2 := rising_setObj (k := oLinkRate p) (v := 0) r1
  have ls : oLinkState p = objKey (0x4010 + p) 1 := rfl
  have lr : oLinkRate p = objKey (0x4010 + p) 2 := rfl
  have ld : oLastDownCause p = objKey (0x4010 + p) 5 := rfl
  have lc : oLinkDownCount p = objKey (0x4010 + p) 6 := rfl
  have lp : oPeerRank p = objKey (0x4010 + p) 3 := rfl
  have q0 : Only (fun k => abortObjs k ∨ k = oLinkState p ∨ k = oLinkRate p ∨ k = oLastDownCause p ∨ k = oLinkDownCount p) s
      (((s.setPort p (s.port p).down).setObj (oLinkState p) st).setObj (oLinkRate p) 0) := by
    have k : Only (fun k => abortObjs k ∨ k = oLinkState p ∨ k = oLinkRate p ∨ k = oLastDownCause p ∨ k = oLinkDownCount p) s
      (s.setPort p (s.port p).down) := Only.same (Only.refl h) rfl
    with_reducible exact (k.setObj (.inr (.inl rfl))).setObj (.inr (.inr (.inl rfl)))
  have o0 : (((s.setPort p (s.port p).down).setObj (oLinkState p) st).setObj (oLinkRate p) 0).obj (oLinkState p) = st := by
    rw [obj_setObj_ne r1 (by rw [ls, lr]; exact objKey_ne (by decide) (by decide) (.inr (by decide))), obj_setObj r0, if_pos rfl]
  generalize ((s.setPort p (s.port p).down).setObj (oLinkState p) st).setObj (oLinkRate p) 0 = x at *
  have qa := abort_fold p (s.port p).incoming (leave_fold (s.port p).queue (loseCuts_only p (Only.refl r2)))
  generalize (s.port p).incoming.foldl (fun s i => s.abortIncoming p i) ((s.port p).queue.foldl State.leaveBuffer (x.loseCuts p)) = y at *
  have q2 := q0.trans (qa.mono fun k => .inl)
  have o2 : y.obj (oLinkState p) = st := (qa.objs _ (by rw [ls]; exact port_key hp (by decide) (by decide))).trans o0
  clear qa q0 o0 r0 r1 r2
  have q3 : Only (fun k => abortObjs k ∨ k = oLinkState p ∨ k = oLinkRate p ∨ k = oLastDownCause p ∨ k = oLinkDownCount p) s
      (if s.link p = 1 then y else (y.setObj (oLastDownCause p) c).count (oLinkDownCount p)) := by
    split
    · exact q2
    · with_reducible exact (q2.setObj (.inr (.inr (.inr (.inl rfl))))).count (.inr (.inr (.inr (.inr rfl))))
  have r3 := rising_setObj (k := oLastDownCause p) (v := c) q2.rising
  have o3 : (if s.link p = 1 then y else (y.setObj (oLastDownCause p) c).count (oLinkDownCount p)).obj (oLinkState p) = st := by
    split
    · exact o2
    · unfold State.count
      rw [addObj_obj r3 (by rw [ls, lc]; exact objKey_ne (by decide) (by decide) (.inr (by decide))),
        obj_setObj_ne q2.rising (by rw [ls, ld]; exact objKey_ne (by decide) (by decide) (.inr (by decide))), o2]
  have d3 : s.link p ≠ 1 → (if s.link p = 1 then y else (y.setObj (oLastDownCause p) c).count (oLinkDownCount p)).obj (oLastDownCause p) = c := by
    intro n
    rw [if_neg n]
    unfold State.count
    rw [addObj_obj r3 (by rw [ld, lc]; exact objKey_ne (by decide) (by decide) (.inr (by decide))), obj_setObj q2.rising, if_pos rfl]
  generalize (if s.link p = 1 then y else (y.setObj (oLastDownCause p) c).count (oLinkDownCount p)) = z at *
  obtain ⟨e1, e2⟩ := down_end (x := z) (p := p) (n := 2 + p) (c := c) q3.rising (decide (s.link p = 4 ∨ s.link p = 3)) 0
  simp only [decide_eq_true_eq] at e1 e2
  have nt : ∀ b, b < 256 → ¬ (treeObjs (objKey (0x4010 + p) b) ∨ eventObjs (objKey (0x4010 + p) b)) := by
    rintro b hb (d | d)
    · exact not_tree hb (by omega) (by omega) d
    · exact not_event hb (by omega) d
  refine ⟨?_, ?_, fun n => ?_, fun n => ?_⟩
  · refine Only.trans (q3.mono ?_) (e1.mono ?_)
    · rintro k ((a | a | a | ⟨q, a⟩) | a | a | a | a)
      · exact .inl a
      · exact .inr (.inl a)
      · exact .inr (.inr (.inl a))
      · exact .inr (.inr (.inr (.inl ⟨q, a⟩)))
      · exact .inr (.inr (.inr (.inr (.inl a))))
      · exact .inr (.inr (.inr (.inr (.inr (.inl a)))))
      · exact .inr (.inr (.inr (.inr (.inr (.inr (.inl a))))))
      · exact .inr (.inr (.inr (.inr (.inr (.inr (.inr (.inl a)))))))
    · rintro k ((a | a | a | a | a) | a)
      · exact .inr (.inr (.inr (.inr (.inr (.inr (.inr (.inr (.inl a))))))))
      · exact .inr (.inr (.inr (.inr (.inr (.inr (.inr (.inr (.inr (.inl a)))))))))
      · exact .inr (.inr (.inr (.inr (.inr (.inr (.inr (.inr (.inr (.inr (.inl a))))))))))
      · exact .inr (.inr (.inr (.inr (.inr (.inr (.inr (.inr (.inr (.inr (.inr (.inl a)))))))))))
      · exact .inr (.inr (.inr (.inr (.inr (.inr (.inr (.inr (.inr (.inr (.inr (.inr (.inl a))))))))))))
      · exact .inr (.inr (.inr (.inr (.inr (.inr (.inr (.inr (.inr (.inr (.inr (.inr (.inr a))))))))))))
  · exact (e1.objs _ (by rw [ls]; exact nt 1 (by decide))).trans o3
  · rw [e1.objs _ (by rw [ld]; exact nt 5 (by decide)), d3 n]
  · rw [e2 n hp]
    have na : ∀ a b, b < 256 → b ≠ 0x0B → a ≠ 0x4000 → a < 0x4010 ∨ 0x4030 ≤ a ∨ b = 3 → ¬ (abortObjs (objKey a b) ∨ objKey a b = oLinkState p ∨ objKey a b = oLinkRate p ∨
        objKey a b = oLastDownCause p ∨ objKey a b = oLinkDownCount p) := by
      rintro a b hb n c d (m | m | m | m | m)
      · exact not_abort hb n c m
      · rw [ls] at m; exact objKey_ne hb (by decide) (by omega) m
      · rw [lr] at m; exact objKey_ne hb (by decide) (by omega) m
      · rw [ld] at m; exact objKey_ne hb (by decide) (by omega) m
      · rw [lc] at m; exact objKey_ne hb (by decide) (by omega) m
    have k1 := q3.objs oEventSeqNext (na 0x9000 2 (by decide) (by decide) (by decide) (by decide))
    have k2 := q3.objs oTickCounter (na 0x2000 1 (by decide) (by decide) (by decide) (by decide))
    have k3 := q3.objs (oPeerRank p) (na (0x4010 + p) 3 (by decide) (by decide) (by omega) (.inr (.inr rfl)))
    unfold State.tick
    rw [k1, k2, k3]

/-- An object that taking port `p` down leaves. -/

theorem not_down {p a b : Nat} (hp : p < 32) (h : b < 256) (n : b ≠ 0x0B) (c : a ≠ 0x4000) (d : a ≠ 0x7040) (e : a ≠ 0x9000)
    (f : a ≠ 0x4010 + p ∨ (b ≠ 1 ∧ b ≠ 2 ∧ b ≠ 5 ∧ b ≠ 6)) : ¬ downObjs p (objKey a b) := by
  have _ := hp
  rintro (m | m | m | m | m | m | m | m | m | m | m | m | m | m)
  · exact not_abort h n c (.inl m)
  · exact not_abort h n c (.inr (.inl m))
  · exact not_abort h n c (.inr (.inr (.inl m)))
  · exact not_abort h n c (.inr (.inr (.inr m)))
  · exact objKey_ne h (by decide) (by omega) m
  · exact objKey_ne h (by decide) (by omega) m
  · exact objKey_ne h (by decide) (by omega) m
  · exact objKey_ne h (by decide) (by omega) m
  · exact not_tree h c d (.inl m)
  · exact not_tree h c d (.inr (.inl m))
  · exact not_tree h c d (.inr (.inr (.inl m)))
  · exact not_tree h c d (.inr (.inr (.inr (.inl m))))
  · exact not_tree h c d (.inr (.inr (.inr (.inr m))))
  · exact not_event h e m

/-- Every link after a port was taken down. -/

theorem linkDown_links {s : State} {p cause : Nat} (h : Rising s.dict.objs) (hp : p < 32) :
    Rising (s.linkDown p 1 cause).dict.objs ∧ (s.linkDown p 1 cause).link p ≤ 1 ∧
    ∀ q, q < 32 → q ≠ p → (s.linkDown p 1 cause).link q = s.link q := by
  by_cases c : s.link p = 0 ∨ (s.link p = 1 ∧ 1 = 1)
  · have e : s.linkDown p 1 cause = s := if_pos c
    rw [e]
    exact ⟨h, by omega, fun _ _ _ => rfl⟩
  · obtain ⟨f1, f2, -⟩ := linkDown_frame (cause := cause) (st := 1) h hp (fun a => c (.inl a)) (fun a => c (.inr a))
    refine ⟨f1.rising, by omega, fun q hl hq => ?_⟩
    exact f1.objs _ (not_down (b := 1) hp (by decide) (by decide) (by omega) (by omega) (by omega) (.inl (by omega)))

end Sys2Proof.Safety
end

