-- ==== Sys2Proof/Laws/Completes.lean ====
section
/-! SUPPORT. When a compute command completes: each run function answers the state in which its task has worked. -/

namespace Sys2Proof.Safety

open Sys2Proof.Machine

/-- Work keeps the records that are tasks. -/
theorem task?_of_records {s v : State} {r : Nat} {t : Machine.Task} (h : v.sched.tasks.map (·.record) = s.sched.tasks.map (·.record))
    (e : s.task? r = some t) : ∃ u, v.task? r = some u := by
  unfold State.task? at *
  cases k : v.sched.tasks.find? (·.record == r) with
  | some u => exact ⟨u, rfl⟩
  | none =>
    have m := List.mem_of_find?_eq_some e
    have p := List.find?_some e
    have : r ∈ s.sched.tasks.map (·.record) := List.mem_map.2 ⟨t, m, by simpa using p⟩
    rw [← h] at this
    obtain ⟨x, hx, rfl⟩ := List.mem_map.1 this
    have := List.find?_eq_none.1 k x hx
    simp at this

/-- A task put in place is found. -/
theorem task?_setTask {s : State} {r : Nat} {t u : Machine.Task} (e : s.task? r = some t) (h : u.record = r) :
    (s.setTask u).task? r = some u := by
  unfold State.task? State.setTask at *
  revert e
  induction s.sched.tasks with
  | nil => simp
  | cons x l ih =>
    intro e
    by_cases k : x.record = r
    · simp [k, h]
    · have k' : (x.record == r) = false := by simpa using k
      have : ¬ x.record = u.record := by rw [h]; exact k
      simp only [List.map_cons, List.find?_cons, this, if_false, k'] at *
      exact ih e

/-- Work that does not abort ends with its task worked. -/
theorem runEngines_completes {s v : State} {t t0 : Machine.Task} {cls : Nat} {ini : Init} {outs : List Nat} {w : W Unit}
    (hw : PassM (Works s) w) (ht : s.task? t.record = some t0) (e : (engineWork t ini w).run s = .ok () v) :
    ∃ t1, runEngines s t cls ini outs w = .next (v.setTask { t1 with work := 1 }) ∧ v.task? t.record = some t1 := by
  have k := Works.refl s
  have hv : Works s v := PassM.ok (runBins_works _ _ hw) k e
  obtain ⟨t1, h1⟩ := task?_of_records hv.records ht
  refine ⟨t1, ?_, h1⟩
  unfold engineWork at e
  unfold runEngines runWork
  rw [e]
  simp only [h1]

/-- Work that begins with an abort does not end well. -/
theorem runBins_throw {s v : State} {ini : Init} {a : Abort} : (runBins ini (throw a)).run s ≠ .ok () v := by
  intro e
  unfold runBins at e
  change EStateM.bind (tryCatch (settleBins ini) fun _ => pure ()) (fun _ => (throw a : M Unit)) s = _ at e
  unfold EStateM.bind at e
  split at e <;> cases e

/-- What a due task is. -/
theorem dueTask_some {s : State} {r : Nat} {f : Machine.Task → Bool} {t : Machine.Task} (h : dueTask s r f = some t) :
    s.working? r = some t ∧ f t = true ∧ s.task? r = some t ∧ t.record = r := by
  unfold dueTask at h
  have := Option.filter_eq_some_iff.1 h
  refine ⟨this.1, this.2, ?_⟩
  have w := this.1
  unfold State.working? at w
  split at w
  · rename_i t' e
    split at w
    · cases w
      refine ⟨e, ?_⟩
      have := List.find?_some e
      simpa using this
    · cases w
  · cases w

/-- The task whose work is done. -/
theorem done_of {v : State} {t t1 : Machine.Task} (h : v.task? t.record = some t1) :
    (v.setTask { t1 with work := 1 }).task? t.record = some { t1 with work := 1 } := by
  apply task?_setTask h
  have := List.find?_some h
  simpa using this

/-- Finishing the deliverer leaves a task that has worked so. -/
theorem deliveryDone_task {v : State} {r : Nat} {t1 : Machine.Task} (h : v.task? r = some t1) (h1 : t1.work = 1) :
    ∃ t2, (v.deliveryDone r).task? r = some t2 ∧ t2.work = 1 := by
  unfold State.deliveryDone
  split
  · split
    · rename_i g m hg _ c
      by_cases k : g.record = r
      · exact ⟨_, task?_setTask h (u := { g with work := 1, undef := g.undef || !deliveryFits g.image m.image }) k, rfl⟩
      · refine ⟨t1, ?_, h1⟩
        rw [← h]
        unfold State.task? State.setTask
        simp only
        induction v.sched.tasks with
        | nil => rfl
        | cons x l ih =>
          by_cases kx : x.record = g.record
          · have e2 : (g.record == r) = false := by simpa using k
            simp only [List.map_cons, kx, if_true, List.find?_cons, e2]
            rw [← kx] at e2
            exact ih
          · simp only [List.map_cons, kx, if_false, List.find?_cons]
            cases x.record == r <;> simp_all
    · exact ⟨t1, h, h1⟩
  · exact ⟨t1, h, h1⟩


/-- A forward matrix command completes its work. -/
theorem forward_completes {s u v : State} {r : Nat} {form : Nat → Bool} {t : Machine.Task} {m : M Unit}
    (h : forwardJob s r form = some (u, t, m)) (e : m.run u = .ok () v) :
    ∃ x t', s.runForward r form = .next x ∧ x.task? t.record = some t' ∧ t'.work = 1 := by
  unfold forwardJob at h
  obtain ⟨t0, h0, h1⟩ := Option.map_eq_some_iff.1 h
  cases h1
  obtain ⟨w, f, k, rr⟩ := dueTask_some h0
  simp only [Bool.and_eq_true, beq_iff_eq] at f
  subst rr
  obtain ⟨t1, h1, h2⟩ := runEngines_completes (t := t) (cls := 0) (outs := if (s.coupledOf t.record).isSome then [] else [recOperand t.image 2])
    (forwardBody_works _) k e
  obtain ⟨t2, h3, h4⟩ := deliveryDone_task (r := t.record) (done_of h2) rfl
  refine ⟨_, t2, ?_, h3, h4⟩
  unfold State.runForward
  simp only [w, f, ne_eq, not_true_eq_false, Bool.not_true, Bool.false_eq_true, or_self, if_false]
  rw [h1]

/-- Both gradients on a pair complete. -/
theorem grad_completes {s u v : State} {r : Nat} {b : Bool} {t : Machine.Task} {m : M Unit}
    (h : gradJob s r b = some (u, t, m)) (e : m.run u = .ok () v) :
    ∃ x t', s.runGrad r b = .next x ∧ x.task? t.record = some t' ∧ t'.work = 1 := by
  unfold gradJob at h
  obtain ⟨t0, h0, h1⟩ := Option.map_eq_some_iff.1 h
  cases h1
  obtain ⟨w, f, k, rr⟩ := dueTask_some h0
  simp only [Bool.and_eq_true, beq_iff_eq, bne_iff_ne] at f
  subst rr
  obtain ⟨t1, h1, h2⟩ := runEngines_completes (t := t) (cls := 0)
    (outs := (((t.record, t.image) :: t.members).filterMap fun p => if (s.coupledOf p.1).isSome then none else some (recOperand p.2 3)) ++ ((t.record, t.image) :: t.members).map fun p => recOperand p.2 1 + 128)
    (gradBody_works _ _) k e
  obtain ⟨t2, h3, h4⟩ := deliveryDone_task (r := t.record) (done_of h2) rfl
  refine ⟨_, t2, ?_, h3, h4⟩
  unfold State.runGrad
  simp only [List.map_cons] at h1
  simp only [w, f]
  simp
  rw [h1]

/-- A vector command completes its work. -/
theorem vector_completes {s u v : State} {r op : Nat} {outs : List Nat} {body} {t : Machine.Task} {m : M Unit}
    (k : ∀ t a, PassM (Works s) (body t a))
    (h : vectorJob s r op body = some (u, t, m)) (e : m.run u = .ok () v) :
    ∃ x t', s.runVector r op outs body = .next x ∧ x.task? t.record = some t' ∧ t'.work = 1 := by
  unfold vectorJob at h
  obtain ⟨t0, h0, h1⟩ := Option.map_eq_some_iff.1 h
  cases h1
  obtain ⟨w, f, g, rr⟩ := dueTask_some h0
  simp only [Bool.and_eq_true, beq_iff_eq, Bool.not_eq_true'] at f
  subst rr
  obtain ⟨t1, h1, h2⟩ := runEngines_completes (t := t) (cls := 0) (outs := outs.map (recOperand t.image))
    (vectorWork_works body _ k) g e
  refine ⟨_, _, ?_, done_of h2, rfl⟩
  unfold State.runVector
  simp only [w, f]
  simp
  rw [h1]

/-- A coupled vector command completes its work. -/
theorem coupled_completes {s u v : State} {r op : Nat} {fits} {f} {t : Machine.Task} {m : M Unit}
    (k : ∀ i c a b co g, PassM (Works s) (f i c a b co g))
    (h : coupledJob s r op fits f = some (u, t, m)) (e : m.run u = .ok () v) :
    ∃ x t', s.runCoupled r op fits f = .next x ∧ x.task? t.record = some t' ∧ t'.work = 1 := by
  unfold coupledJob at h
  split at h
  · rename_i t0 p pimage h0 hp
    split at h
    · cases h
    · rename_i hw
      cases h
      obtain ⟨w, f, g, rr⟩ := dueTask_some h0
      simp only [Bool.and_eq_true, beq_iff_eq] at f
      subst rr
      obtain ⟨t1, h1, h2⟩ := runEngines_completes (t := t) (cls := 0) (outs := [recOperand t.image 3])
        (coupledBody_works _ _ _ _ _ (fun _ _ _ _ _ => k _ _ _ _ _ _)) g e
      refine ⟨_, _, ?_, done_of h2, rfl⟩
      unfold State.runCoupled
      simp only [w, f, hp, hw]
      simp
      rw [h1]
  · cases h
    exact absurd e runBins_throw
  · cases h

/-- A gather command completes its work. -/
theorem gather_completes {s u v : State} {r op : Nat} {outs : Nat → List Nat} {body} {t : Machine.Task} {m : M Unit}
    (k : ∀ t c a, PassM (Works s) (body t c a))
    (h : gatherJob s r op body = some (u, t, m)) (e : m.run u = .ok () v) :
    ∃ x t', s.runGather r op outs body = .next x ∧ x.task? t.record = some t' ∧ t'.work = 1 := by
  unfold gatherJob at h
  obtain ⟨t0, h0, h1⟩ := Option.map_eq_some_iff.1 h
  cases h1
  obtain ⟨w, f, g, rr⟩ := dueTask_some h0
  simp only [Bool.and_eq_true, beq_iff_eq] at f
  subst rr
  obtain ⟨t1, h1, h2⟩ := runEngines_completes (t := t) (cls := 1)
    (outs := if delivers t.image ∧ ((s.holder? (t.record + 1)).any fun m => deliveryFits t.image m.image) then [] else outs t.image)
    (gatherWork_works _ body _ _ k) g e
  refine ⟨_, _, ?_, done_of h2, rfl⟩
  unfold State.runGather
  simp only [w, f]
  simp
  simpa using h1

/-- A scatter command completes its work. -/
theorem scatter_completes {s u v : State} {r op : Nat} {outs : Nat → List Nat} {body} {t : Machine.Task} {m : M Unit}
    (k : ∀ t c a, PassM (Works s) (body t c a))
    (h : scatterJob s r op body = some (u, t, m)) (e : m.run u = .ok () v) :
    ∃ x t', s.runScatter r op outs body = .next x ∧ x.task? t.record = some t' ∧ t'.work = 1 := by
  unfold scatterJob at h
  obtain ⟨t0, h0, h1⟩ := Option.map_eq_some_iff.1 h
  cases h1
  obtain ⟨w, f, g, rr⟩ := dueTask_some h0
  simp only [Bool.and_eq_true, beq_iff_eq] at f
  subst rr
  obtain ⟨t1, h1, h2⟩ := runEngines_completes (t := t) (cls := 1) (outs := outs t.image)
    (scatterWork_works body _ _ k) g e
  refine ⟨_, _, ?_, done_of h2, rfl⟩
  unfold State.runScatter
  simp only [w, f]
  simp
  rw [h1]

/-- An update command that is not refused completes its work. -/
theorem update_completes {s u v : State} {r mode : Nat} {t : Machine.Task} {m : M Unit}
    (h : updateJob s r mode = some (u, t, m)) (e : m.run u = .ok () v) :
    ∃ x t', s.runUpdate r mode = .next x ∧ x.task? t.record = some t' ∧ t'.work = 1 := by
  unfold updateJob at h
  obtain ⟨t0, h0, h1⟩ := Option.map_eq_some_iff.1 h
  cases h1
  obtain ⟨w, f, g, rr⟩ := dueTask_some h0
  simp only [Bool.and_eq_true, beq_iff_eq] at f
  subst rr
  obtain ⟨t1, h1, h2⟩ := runEngines_completes (t := t) (cls := 2) (outs := updOuts t.image) (updateWork_works _ _ _) g e
  refine ⟨_, _, ?_, done_of h2, rfl⟩
  unfold State.runUpdate
  simp only [w, f, ne_eq, not_true_eq_false, or_self, if_false]
  exact h1

end Sys2Proof.Safety
end

