-- ==== Sys2Proof/Laws/Still.lean ====
section
/-! SUPPORT. What leaves the tasks of the scheduler as they are: reading and writing, counting and raising events, and what
the scheduler notes of a task that ends. -/

namespace Sys2Proof.Safety

open Sys2Proof.Machine

/-- The tasks are as they were, and a halt asked for is still asked for. -/
structure Still (s t : State) : Prop where
  tasks : t.sched.tasks = s.sched.tasks
  halted : s.sched.halt.isSome = true → t.sched.halt.isSome = true

theorem Still.refl (s : State) : Still s s := ⟨rfl, id⟩

theorem Still.trans {a b c : State} (h : Still a b) (k : Still b c) : Still a c :=
  ⟨k.tasks.trans h.tasks, fun g => k.halted (h.halted g)⟩

/-- A change that leaves the tasks. -/
theorem Still.upd {s0 x : State} {pe : List Instr} {ou : List Out} {fc : Nat} {d : Dict} {sc : Sched} {nm : Numerics}
    {mm : Mem} {po : List (Nat × Port)} {ti : Timing} {co : Colls} {se : Security} {rs : ResetState}
    {fa : List (Nat × FarPort)} {re : Resilience} (h : Still s0 x) (e : sc.tasks = x.sched.tasks)
    (k : sc.halt = x.sched.halt) :
    Still s0 (State.mk pe ou fc d sc nm mm po ti co se rs fa re) := ⟨e.trans h.tasks, fun g => k ▸ h.halted g⟩

theorem Still.addFree {s0 x : State} {n : Nat} (h : Still s0 x) :
    Still s0 (State.mk x.pending x.out (x.freeCtr + n) x.dict x.sched x.num x.mem x.ports x.timing x.colls x.sec x.rst
      x.far x.resil) := h.upd rfl rfl

/-! ### Machine/Ops.lean -/

theorem setObj_still {s0 : State} {s : State} (key v : Nat) (h_s : Still s0 s) :
    Still s0 (State.setObj s key v) := by
  unfold State.setObj
  repeat' first
    | (extract_lets -underBinder +onlyGivenNames x; guard_hyp x : Dict := _; have x := trivial)
    | (with_reducible refine Still.upd ?_ rfl rfl; with_reducible assumption)

theorem addObj_still {s0 : State} {s : State} (key n : Nat) (h_s : Still s0 s) :
    Still s0 (State.addObj s key n) := by
  unfold State.addObj
  repeat' with_reducible first | assumption | apply setObj_still | apply Pass.ite (P := Still s0)

theorem count_still {s0 : State} {s : State} (key : Nat) (h_s : Still s0 s) :
    Still s0 (State.count s key) := by
  unfold State.count
  repeat' with_reducible first | assumption | apply addObj_still

theorem takeFree_still {s0 : State} (w : Nat) {s : State} (h_s : Still s0 s) :
    Still s0 (State.takeFree w s).2 := by
  unfold State.takeFree
  repeat' (with_reducible refine Still.upd ?_ rfl rfl; with_reducible assumption)

theorem emit_still {s0 : State} {s : State} (o : Out) (h_s : Still s0 s) :
    Still s0 (State.emit s o) := by
  unfold State.emit
  repeat' (with_reducible refine Still.upd ?_ rfl rfl; with_reducible assumption)

theorem armVector_still {s0 : State} {s : State} (v : Nat) (h_s : Still s0 s) :
    Still s0 (State.armVector s v) := by
  unfold State.armVector
  repeat' first
    | (extract_lets -underBinder +onlyGivenNames x; guard_hyp x : Dict := _; have x := trivial)
    | (with_reducible refine Still.upd ?_ rfl rfl; with_reducible assumption)

theorem appendEvent_still {s0 : State} {s : State} (e : EventRec) (h_s : Still s0 s) :
    Still s0 (State.appendEvent s e) := by
  unfold State.appendEvent
  repeat' first
    | with_reducible assumption
    | (extract_lets -underBinder +onlyGivenNames x; first
      | (with_reducible refine Pass.cut (P := Still s0) (x := x) ?_ fun hx => ?_; rotate_left; clear_value x; have x := trivial; rotate_left; unfold x; clear x)
      | (guard_hyp x : Dict := _; have x := trivial)
      | (guard_hyp x : _ := _; clear_value x; have x := trivial))
    | with_reducible first
        | apply setObj_still | apply addObj_still | apply count_still | apply armVector_still
        | apply Pass.ite (P := Still s0)
    | (with_reducible refine Still.upd ?_ rfl rfl; with_reducible assumption)

theorem raise_still {s0 : State} {s : State} (code source unit : Nat) (w0 : Nat) (w1 : Nat) (w2 : Nat) (w3 : Nat) (w4 : Nat) (h_s : Still s0 s) :
    Still s0 (State.raise s code source unit w0 w1 w2 w3 w4) := by
  unfold State.raise
  repeat' with_reducible first | assumption | apply appendEvent_still

theorem setTickEvent_still {s0 : State} {s : State} (e : EventRec) (h_s : Still s0 s) :
    Still s0 (State.setTickEvent s e) := by
  unfold State.setTickEvent
  repeat' first
    | (extract_lets -underBinder +onlyGivenNames x; guard_hyp x : Dict := _; have x := trivial)
    | (with_reducible refine Still.upd ?_ rfl rfl; with_reducible assumption)

theorem noteTask_still {s0 : State} {s : State} (code source unit r w2 w3 w4 : Nat) (h_s : Still s0 s) :
    Still s0 (State.noteTask s code source unit r w2 w3 w4) := by
  unfold State.noteTask
  repeat' first
    | with_reducible first | assumption | apply setTickEvent_still | apply Pass.ite (P := Still s0)
    | split

theorem noteStale_still {s0 : State} {s : State} (h_s : Still s0 s) :
    Still s0 (State.noteStale s) := by
  unfold State.noteStale
  repeat' first
    | with_reducible assumption
    | (extract_lets -underBinder +onlyGivenNames x; first
      | (with_reducible refine Pass.cut (P := Still s0) (x := x) ?_ fun hx => ?_; rotate_left; clear_value x; have x := trivial; rotate_left; unfold x; clear x)
      | (guard_hyp x : _ := _; clear_value x; have x := trivial))
    | with_reducible first | apply count_still | apply setTickEvent_still

theorem noteDenied_still {s0 : State} {s : State} (cls unit address kind : Nat) (h_s : Still s0 s) :
    Still s0 (State.noteDenied s cls unit address kind) := by
  unfold State.noteDenied
  repeat' first
    | with_reducible assumption
    | (extract_lets -underBinder +onlyGivenNames x; with_reducible refine Pass.cut (P := Still s0) (x := x) ?_ fun hx => ?_; rotate_left; clear_value x; have x := trivial; rotate_left; unfold x; clear x)
    | with_reducible first | apply count_still | apply setTickEvent_still
    | split

theorem uncorrected_still {s0 : State} {s : State} (loc record : Nat) (h_s : Still s0 s) :
    Still s0 (State.uncorrected s loc record) := by
  unfold State.uncorrected
  repeat' with_reducible first | assumption | apply setObj_still | apply count_still | apply raise_still

theorem haltWith_still {s0 s : State} (cause record : Nat) (h : Still s0 s) : Still s0 (s.haltWith cause record) := by
  unfold State.haltWith
  split
  · exact h
  · exact ⟨h.tasks, fun _ => rfl⟩

theorem taskFault_still {s0 : State} {s : State} (source unit record cause detail : Nat) (h_s : Still s0 s) :
    Still s0 (State.taskFault s source unit record cause detail) := by
  unfold State.taskFault
  repeat' with_reducible first | assumption | apply raise_still | apply haltWith_still

theorem mod_still {s0 : State} (f : State → State) (h_f : ∀ y : State, Still s0 y → Still s0 (f y)) :
    PassM (Still s0) (mod f) := PassM.mod h_f

theorem freeM_still {s0 : State} (w : Nat) :
    PassM (Still s0) (freeM w : M Nat) := by
  unfold freeM
  repeat' first
    | intro _
    | with_reducible first
        | assumption | apply takeFree_still | apply PassM.pure | apply PassM.getBind | apply PassM.set
        | apply PassM.bind

/-! ### Machine/Arrays.lean -/

theorem setArray_still {s0 : State} {s : State} (t : Nat) (a : ArrayState) (h_s : Still s0 s) :
    Still s0 (State.setArray s t a) := by
  unfold State.setArray
  repeat' first
    | (extract_lets -underBinder +onlyGivenNames x; guard_hyp x : Numerics := _; have x := trivial)
    | split
    | (with_reducible refine Still.upd ?_ rfl rfl; with_reducible assumption)

theorem setBusy_still {s0 : State} {s : State} (t phase : Nat) (busy : Bool) (h_s : Still s0 s) :
    Still s0 (State.setBusy s t phase busy) := by
  unfold State.setBusy
  repeat' first
    | with_reducible assumption
    | (extract_lets -underBinder +onlyGivenNames x; guard_hyp x : _ := _; clear_value x; have x := trivial)
    | with_reducible apply setArray_still

theorem fillSram_still {s0 : State} {s : State} (tile : Nat) (h_s : Still s0 s) :
    Still s0 (State.fillSram s tile) := by
  unfold State.fillSram
  repeat' first
    | (extract_lets -underBinder +onlyGivenNames x; guard_hyp x : Numerics := _; have x := trivial)
    | (with_reducible refine Still.upd ?_ rfl rfl; with_reducible assumption)

/-! ### Machine/Memory.lean -/

theorem setEntry_still {s0 : State} {s : State} (page e : Nat) (h_s : Still s0 s) :
    Still s0 (State.setEntry s page e) := by
  unfold State.setEntry
  repeat' first
    | (extract_lets -underBinder +onlyGivenNames x; guard_hyp x : Mem := _; have x := trivial)
    | (with_reducible refine Still.upd ?_ rfl rfl; with_reducible assumption)

theorem writeBack_still {s0 : State} {s : State} (line : Nat) (h_s : Still s0 s) :
    Still s0 (State.writeBack s line) := by
  unfold State.writeBack
  repeat' first
    | with_reducible assumption
    | (extract_lets -underBinder +onlyGivenNames x; first
      | (with_reducible refine Pass.cut (P := Still s0) (x := x) ?_ fun hx => ?_; rotate_left; clear_value x; have x := trivial; rotate_left; unfold x; clear x)
      | (guard_hyp x : Mem := _; have x := trivial))
    | with_reducible first | apply addObj_still | apply count_still
    | (with_reducible refine Still.upd ?_ rfl rfl; with_reducible assumption)

theorem touchLine_still {s0 : State} {s : State} (req : Req) (write : Bool) (line bytes : Nat) (h_s : Still s0 s) :
    Still s0 (State.touchLine s req write line bytes) := by
  unfold State.touchLine
  repeat' first
    | with_reducible assumption
    | (extract_lets -underBinder +onlyGivenNames x; first
      | (with_reducible refine Pass.cut (P := Still s0) (x := x) ?_ fun hx => ?_; rotate_left; clear_value x; have x := trivial; rotate_left; unfold x; clear x)
      | (guard_hyp x : Mem := _; have x := trivial)
      | (guard_hyp x : _ := _; clear_value x; have x := trivial))
    | with_reducible first
        | apply addObj_still | apply count_still | apply writeBack_still | apply Pass.ite (P := Still s0)
    | split
    | (with_reducible refine Still.upd ?_ rfl rfl; with_reducible assumption)

theorem physWrite_still {s0 : State} {s : State} (a : Nat) (bs : List Byte) (h_s : Still s0 s) :
    Still s0 (State.physWrite s a bs) := by
  unfold State.physWrite
  repeat' first
    | (extract_lets -underBinder +onlyGivenNames x; first
      | (guard_hyp x : Mem := _; have x := trivial)
      | (guard_hyp x : _ := _; clear_value x; have x := trivial))
    | (with_reducible refine Still.upd ?_ rfl rfl; with_reducible assumption)

theorem touch_still {s0 : State} {s : State} (req : Req) (write : Bool) (a n : Nat) (h_s : Still s0 s) :
    Still s0 (State.touch s req write a n) := by
  unfold State.touch
  repeat' first
    | intro _
    | with_reducible first | assumption | apply touchLine_still | apply Pass.foldl (P := Still s0)

theorem addCount_still {s0 : State} {s : State} (page n : Nat) (h_s : Still s0 s) :
    Still s0 (State.addCount s page n) := by
  unfold State.addCount
  repeat' first
    | with_reducible assumption
    | (extract_lets -underBinder +onlyGivenNames x; guard_hyp x : _ := _; clear_value x; have x := trivial)
    | with_reducible first | apply setEntry_still | apply Pass.ite (P := Still s0)

theorem translate_still {s0 : State} {s : State} (tc page : Nat) (h_s : Still s0 s) :
    Still s0 (State.translate s tc page) := by
  unfold State.translate
  repeat' first
    | with_reducible assumption
    | (extract_lets -underBinder +onlyGivenNames x; first
      | (with_reducible refine Pass.cut (P := Still s0) (x := x) ?_ fun hx => ?_; rotate_left; clear_value x; have x := trivial; rotate_left; unfold x; clear x)
      | (guard_hyp x : Mem := _; have x := trivial)
      | (guard_hyp x : _ := _; clear_value x; have x := trivial))
    | with_reducible first
        | apply count_still | apply touchLine_still | apply addCount_still | apply Pass.ite (P := Still s0)
    | split
    | (with_reducible refine Still.upd ?_ rfl rfl; with_reducible assumption)

theorem scrambleByte_still {s0 : State} {s : State} (h_s : Still s0 s) :
    Still s0 (State.scrambleByte s) := by
  unfold State.scrambleByte
  repeat' first
    | with_reducible first
        | assumption | apply takeFree_still | apply physWrite_still | apply Pass.ite (P := Still s0)

theorem scrambleJob_still {s0 : State} {s : State} (h_s : Still s0 s) :
    Still s0 (State.scrambleJob s) := by
  unfold State.scrambleJob
  repeat' first
    | intro _
    | with_reducible first
        | assumption | apply takeFree_still | apply scrambleByte_still | apply Pass.foldl (P := Still s0)
        | apply Pass.ite (P := Still s0)

theorem refuse_still {s0 : State} {s : State} (cls unit right va : Nat) (h_s : Still s0 s) :
    Still s0 (State.refuse s cls unit right va) := by
  unfold State.refuse
  repeat' with_reducible first | assumption | apply noteDenied_still

theorem discardMsg_still {s0 : State} {s : State} (msg : Bool) (h_s : Still s0 s) :
    Still s0 (State.discardMsg s msg) := by
  unfold State.discardMsg
  repeat' with_reducible first | assumption | apply count_still | apply Pass.ite (P := Still s0)

theorem checkRights_still {s0 : State} (i : Init) (right va : Nat) :
    PassM (Still s0) (checkRights i right va : M Unit) := by
  unfold checkRights
  repeat' first
    | intro _
    | with_reducible first
        | assumption | apply refuse_still | apply discardMsg_still | apply PassM.pure | apply PassM.throw
        | apply PassM.getBind | apply PassM.set | apply PassM.bind | apply PassM.ite

theorem useFreed_still {s0 : State} {s : State} (page : Nat) (h_s : Still s0 s) :
    Still s0 (State.useFreed s page) := by
  unfold State.useFreed
  repeat' with_reducible first | assumption | apply scrambleJob_still | apply Pass.ite (P := Still s0)

theorem absentPage_still {s0 : State} {α : Type} (va : Nat) :
    PassM (Still s0) (absentPage va : M α) := by
  unfold absentPage
  repeat' first
    | intro _
    | with_reducible first
        | assumption | apply count_still | apply mod_still | apply useFreed_still | apply PassM.throw | apply PassM.bind

theorem checkHostLink_still {s0 : State}  :
    PassM (Still s0) (checkHostLink : M Unit) := by
  unfold checkHostLink
  repeat' first
    | intro _
    | with_reducible first
        | assumption | apply count_still | apply PassM.pure | apply PassM.throw | apply PassM.getBind | apply PassM.set
        | apply PassM.bind | apply PassM.ite

theorem freeBytes_still {s0 : State} (n : Nat) :
    PassM (Still s0) (freeBytes n : M (List Byte)) := by
  unfold freeBytes
  repeat' first
    | intro _
    | with_reducible first | apply freeM_still | apply PassM.pure | apply PassM.bind | apply PassM.mapM

theorem readPiece_still {s0 : State} (i : Init) (req : Req) (va n : Nat) :
    PassM (Still s0) (readPiece i req va n : M (List Byte)) := by
  unfold readPiece
  repeat' first
    | intro _
    | with_reducible assumption
    | (extract_lets -underBinder +onlyGivenNames x; first
      | (with_reducible refine PassM.cut (P := Still s0) (x := x) ?_ fun hx => ?_; rotate_left; clear_value x; have x := trivial; rotate_left; unfold x; clear x)
      | (guard_hyp x : _ := _; clear_value x; have x := trivial))
    | with_reducible first
        | apply setObj_still | apply addObj_still | apply count_still | apply emit_still | apply mod_still
        | apply touch_still | apply translate_still | apply checkRights_still | apply absentPage_still
        | apply checkHostLink_still | apply freeBytes_still | apply PassM.pure | apply PassM.throw
        | apply PassM.getBind | apply PassM.bind | apply_assumption -exfalso -symm | apply Pass.ite (P := Still s0)
        | apply PassM.ite
    | split

theorem readBytes_still {s0 : State} (i : Init) (req : Req) (va n : Nat) :
    PassM (Still s0) (readBytes i req va n : M (List Byte)) := by
  unfold readBytes
  repeat' first
    | intro _
    | with_reducible first
        | apply absentPage_still | apply readPiece_still | apply PassM.pure | apply PassM.bind | apply PassM.mapM
        | apply PassM.ite

theorem storeAt_still {s0 : State} {s : State} (req : Req) (va : Nat) (bs : List Byte) (h_s : Still s0 s) :
    Still s0 (State.storeAt s req va bs) := by
  unfold State.storeAt
  repeat' first
    | with_reducible assumption
    | (extract_lets -underBinder +onlyGivenNames x; first
      | (with_reducible refine Pass.cut (P := Still s0) (x := x) ?_ fun hx => ?_; rotate_left; clear_value x; have x := trivial; rotate_left; unfold x; clear x)
      | (guard_hyp x : _ := _; clear_value x; have x := trivial))
    | with_reducible first
        | apply addObj_still | apply physWrite_still | apply touch_still | apply Pass.ite (P := Still s0)

theorem hold_still {s0 : State} {s : State} (i : Init) (req : Req) (va : Nat) (bs : List Byte) (op : Option AtomicOp) (h_s : Still s0 s) :
    Still s0 (State.hold s i req va bs op) := by
  unfold State.hold
  repeat' first
    | (extract_lets -underBinder +onlyGivenNames x; guard_hyp x : Mem := _; have x := trivial)
    | split
    | (with_reducible refine Still.upd ?_ rfl rfl; with_reducible assumption)

theorem noteRewrite_still {s0 : State} {s : State} (i : Init) (va n : Nat) (h_s : Still s0 s) :
    Still s0 (State.noteRewrite s i va n) := by
  unfold State.noteRewrite
  repeat' first
    | with_reducible assumption
    | (extract_lets -underBinder +onlyGivenNames x; first
      | (with_reducible refine Pass.cut (P := Still s0) (x := x) ?_ fun hx => ?_; rotate_left; clear_value x; have x := trivial; rotate_left; unfold x; clear x)
      | (guard_hyp x : Sched := _; have x := trivial)
      | (guard_hyp x : Mem := _; have x := trivial))
    | with_reducible apply Pass.ite (P := Still s0)
    | (with_reducible refine Still.upd ?_ rfl rfl; with_reducible assumption)

theorem writePiece_still {s0 : State} (i : Init) (req : Req) (va : Nat) (bs : List Byte) :
    PassM (Still s0) (writePiece i req va bs : M Unit) := by
  unfold writePiece
  repeat' first
    | intro _
    | with_reducible assumption
    | (extract_lets -underBinder +onlyGivenNames x; first
      | (with_reducible refine PassM.cut (P := Still s0) (x := x) ?_ fun hx => ?_; rotate_left; clear_value x; have x := trivial; rotate_left; unfold x; clear x)
      | (guard_hyp x : _ := _; clear_value x; have x := trivial))
    | with_reducible first
        | apply addObj_still | apply emit_still | apply noteStale_still | apply mod_still | apply translate_still
        | apply checkRights_still | apply absentPage_still | apply checkHostLink_still | apply storeAt_still
        | apply hold_still | apply noteRewrite_still | apply PassM.throw | apply PassM.getBind | apply PassM.bind
        | apply_assumption -exfalso -symm | apply PassM.ite
    | split

theorem writeBytes_still {s0 : State} (i : Init) (req : Req) (va : Nat) (bs : List Byte) :
    PassM (Still s0) (writeBytes i req va bs : M Unit) := by
  unfold writeBytes
  repeat' first
    | intro _
    | with_reducible first | apply absentPage_still | apply writePiece_still | apply PassM.forM | apply PassM.ite

theorem readNat_still {s0 : State} (i : Init) (req : Req) (va n : Nat) :
    PassM (Still s0) (readNat i req va n : M Nat) := by
  unfold readNat
  repeat' first
    | intro _
    | with_reducible first | apply readBytes_still | apply PassM.pure | apply PassM.bind

theorem writeNat_still {s0 : State} (i : Init) (req : Req) (va n v : Nat) :
    PassM (Still s0) (writeNat i req va n v : M Unit) := by
  unfold writeNat
  repeat' with_reducible apply writeBytes_still

/-! ### Machine/Tasks.lean -/

theorem scramble_still {s0 : State} {s : State} (writers : List Nat) (va n : Nat) (h_s : Still s0 s) :
    Still s0 (State.scramble s writers va n) := by
  unfold State.scramble
  repeat' first
    | intro _
    | with_reducible assumption
    | (extract_lets -underBinder +onlyGivenNames x; guard_hyp x : _ := _; clear_value x; have x := trivial)
    | with_reducible first
        | apply physWrite_still | apply Pass.foldl (P := Still s0) | apply Pass.ite (P := Still s0)
    | (with_reducible refine Still.upd ?_ rfl rfl; with_reducible assumption)

theorem undefinedJob_still {s0 : State} {α : Type} :
    PassM (Still s0) (undefinedJob : M α) := by
  unfold undefinedJob
  repeat' first
    | intro _
    | with_reducible first
        | assumption | apply mod_still | apply scrambleJob_still | apply PassM.throw | apply PassM.bind

/-! ### Machine/Paging.lean -/

theorem popAlloc_still {s0 : State} {s : State} (h_s : Still s0 s) :
    Still s0 (State.popAlloc s) := by
  unfold State.popAlloc
  repeat' first
    | (extract_lets -underBinder +onlyGivenNames x; guard_hyp x : Mem := _; have x := trivial)
    | (with_reducible refine Still.upd ?_ rfl rfl; with_reducible assumption)

/-! ### Machine/Tensor.lean -/

theorem fetchDesc_still {s0 : State} (c : Ctx) (addr : Nat) :
    PassM (Still s0) (fetchDesc c addr : W Nat) := by
  unfold fetchDesc
  repeat' first
    | intro _
    | (extract_lets -underBinder +onlyGivenNames x; with_reducible refine PassM.cut (P := Still s0) (x := x) ?_ fun hx => ?_; rotate_left; clear_value x; have x := trivial; rotate_left; unfold x; clear x)
    | with_reducible first
        | apply readNat_still | apply undefinedJob_still | apply PassM.pure | apply PassM.getBind | apply PassM.bind
        | apply_assumption -exfalso -symm | apply PassM.ite

/-! ### Machine/Update.lean -/

theorem noteSkew_still {s0 : State} {s : State} (unit r step lo hi cause : Nat) (h_s : Still s0 s) :
    Still s0 (State.noteSkew s unit r step lo hi cause) := by
  unfold State.noteSkew
  repeat' first
    | with_reducible assumption
    | (extract_lets -underBinder +onlyGivenNames x; guard_hyp x : _ := _; clear_value x; have x := trivial)
    | with_reducible first | apply setTickEvent_still | apply Pass.ite (P := Still s0)
    | split

theorem updateStart_still {s0 : State} (c : Ctx) (image : Nat) :
    PassM (Still s0) (updateStart c image : M (Nat × Nat × Nat)) := by
  unfold updateStart
  repeat' first
    | intro _
    | (extract_lets -underBinder +onlyGivenNames x; with_reducible refine PassM.cut (P := Still s0) (x := x) ?_ fun hx => ?_; rotate_left; clear_value x; have x := trivial; rotate_left; unfold x; clear x)
    | with_reducible first
        | apply readNat_still | apply PassM.pure | apply PassM.throw | apply PassM.getBind | apply PassM.bind
        | apply_assumption -exfalso -symm | apply PassM.ite

theorem finishUpdate_still {s0 : State} (t : Machine.Task) :
    PassM (Still s0) (finishUpdate t : M Unit) := by
  unfold finishUpdate
  repeat' first
    | intro _
    | (extract_lets -underBinder +onlyGivenNames x; first
      | (with_reducible refine PassM.cut (P := Still s0) (x := x) ?_ fun hx => ?_; rotate_left; clear_value x; have x := trivial; rotate_left; unfold x; clear x)
      | (guard_hyp x : _ := _; clear_value x; have x := trivial))
    | with_reducible first
        | apply writeBytes_still | apply readNat_still | apply writeNat_still | apply PassM.pure | apply PassM.bind
        | apply_assumption -exfalso -symm | apply PassM.ite
    | split

/-! ### Machine/Scheduler.lean -/

theorem writeStatus_still {s0 : State} {s : State} (i status measured : Nat) (h_s : Still s0 s) :
    Still s0 (State.writeStatus s i status measured) := by
  unfold State.writeStatus
  repeat' first
    | intro _
    | with_reducible assumption
    | (extract_lets -underBinder +onlyGivenNames x; guard_hyp x : _ := _; clear_value x; have x := trivial)
    | with_reducible first | apply writeNat_still | apply PassM.bind
    | split
    | refine PassM.ok ?_ ?_ (by with_reducible assumption)
    | refine PassM.error ?_ ?_ (by with_reducible assumption)

theorem setOutcome_still {s0 : State} {s : State} (i v : Nat) (h_s : Still s0 s) :
    Still s0 (State.setOutcome s i v) := by
  unfold State.setOutcome
  repeat' first
    | (extract_lets -underBinder +onlyGivenNames x; guard_hyp x : Sched := _; have x := trivial)
    | (with_reducible refine Still.upd ?_ rfl rfl; with_reducible assumption)

theorem setCredit_still {s0 : State} {s : State} (q v : Nat) (h_s : Still s0 s) :
    Still s0 (State.setCredit s q v) := by
  unfold State.setCredit
  repeat' first
    | (extract_lets -underBinder +onlyGivenNames x; guard_hyp x : Sched := _; have x := trivial)
    | (with_reducible refine Still.upd ?_ rfl rfl; with_reducible assumption)

theorem queueEvent_still {s0 : State} {s : State} (e : EventRec) (h_s : Still s0 s) :
    Still s0 (State.queueEvent s e) := by
  unfold State.queueEvent
  repeat' first
    | (extract_lets -underBinder +onlyGivenNames x; guard_hyp x : Dict := _; have x := trivial)
    | (with_reducible refine Still.upd ?_ rfl rfl; with_reducible assumption)

theorem pushFallback_still {s0 : State} {s : State} (addr : Nat) (h_s : Still s0 s) :
    Still s0 (State.pushFallback s addr) := by
  unfold State.pushFallback
  repeat' first
    | with_reducible assumption
    | (extract_lets -underBinder +onlyGivenNames x; guard_hyp x : Sched := _; have x := trivial)
    | with_reducible first | apply count_still | apply Pass.ite (P := Still s0)
    | (with_reducible refine Still.upd ?_ rfl rfl; with_reducible assumption)

theorem noteDropped_still {s0 : State} {s : State} (t : Machine.Task) (e : EventRec) (h_s : Still s0 s) :
    Still s0 (State.noteDropped s t e) := by
  unfold State.noteDropped
  repeat' first
    | with_reducible assumption
    | (extract_lets -underBinder +onlyGivenNames x; first
      | (with_reducible refine Pass.cut (P := Still s0) (x := x) ?_ fun hx => ?_; rotate_left; clear_value x; have x := trivial; rotate_left; unfold x; clear x)
      | (guard_hyp x : _ := _; clear_value x; have x := trivial))
    | with_reducible first | apply setTickEvent_still | apply noteTask_still
    | split

theorem noteEnds_still {s0 : State} {s : State} (t : Machine.Task) (h_s : Still s0 s) :
    Still s0 (State.noteEnds s t) := by
  unfold State.noteEnds
  repeat' first
    | intro _
    | with_reducible assumption
    | (extract_lets -underBinder +onlyGivenNames x; first
      | (with_reducible refine Pass.cut (P := Still s0) (x := x) ?_ fun hx => ?_; rotate_left; clear_value x; have x := trivial; rotate_left; unfold x; clear x)
      | (with_reducible refine Pass.cutFa (P := Still s0) (x := x) ?_ fun hx => ?_; rotate_left; clear_value x; have x := trivial; rotate_left; unfold x; clear x)
      | (guard_hyp x : _ := _; clear_value x; have x := trivial))
    | with_reducible first
        | apply count_still | apply setTickEvent_still | apply noteTask_still | apply pushFallback_still
        | apply noteDropped_still | apply Pass.foldl (P := Still s0) | apply_assumption -exfalso -symm
        | apply Pass.ite (P := Still s0)
    | split

theorem noteAlways_still {s0 : State} {s : State} (t : Machine.Task) (h_s : Still s0 s) :
    Still s0 (State.noteAlways s t) := by
  unfold State.noteAlways
  repeat' first
    | with_reducible assumption
    | (extract_lets -underBinder +onlyGivenNames x; with_reducible refine Pass.cut (P := Still s0) (x := x) ?_ fun hx => ?_; rotate_left; clear_value x; have x := trivial; rotate_left; unfold x; clear x)
    | with_reducible first
        | apply count_still | apply noteTask_still | apply queueEvent_still | apply Pass.ite (P := Still s0)
    | split

theorem addTiming_still {s0 : State} {s : State} (q : TaskTiming) (h_s : Still s0 s) :
    Still s0 (State.addTiming s q) := by
  unfold State.addTiming
  repeat' first
    | with_reducible assumption
    | (extract_lets -underBinder +onlyGivenNames x; with_reducible refine Pass.cut (P := Still s0) (x := x) ?_ fun hx => ?_; rotate_left; clear_value x; have x := trivial; rotate_left; unfold x; clear x)
    | with_reducible apply addObj_still

theorem signal_still {s0 : State} {s : State} (undef : Bool) (e : Nat) (h_s : Still s0 s) :
    Still s0 (State.signal s undef e) := by
  unfold State.signal
  repeat' first
    | intro _
    | with_reducible assumption
    | (extract_lets -underBinder +onlyGivenNames x; first
      | (with_reducible refine Pass.cutFa (P := Still s0) (x := x) ?_ fun hx => ?_; rotate_left; clear_value x; have x := trivial; rotate_left; unfold x; clear x)
      | (guard_hyp x : Sched := _; have x := trivial)
      | (guard_hyp x : _ := _; clear_value x; have x := trivial))
    | with_reducible first
        | apply scrambleJob_still | apply_assumption -exfalso -symm | apply Pass.ite (P := Still s0)
    | (with_reducible refine Still.upd ?_ rfl rfl; with_reducible assumption)

theorem endRecord_still {s0 : State} {s : State} (t : Machine.Task) (i r measured : Nat) (h_s : Still s0 s) :
    Still s0 (State.endRecord s t i r measured) := by
  unfold State.endRecord
  repeat' first
    | with_reducible assumption
    | (extract_lets -underBinder +onlyGivenNames x; first
      | (with_reducible refine Pass.cut (P := Still s0) (x := x) ?_ fun hx => ?_; rotate_left; clear_value x; have x := trivial; rotate_left; unfold x; clear x)
      | (guard_hyp x : _ := _; clear_value x; have x := trivial))
    | with_reducible first
        | apply writeStatus_still | apply setOutcome_still | apply setCredit_still | apply signal_still
        | apply Pass.ite (P := Still s0)

/-! ### Machine/Collectives.lean -/

theorem modColl_still {s0 : State} {s : State} (r : Nat) (f : Coll → Coll) (h_s : Still s0 s) :
    Still s0 (State.modColl s r f) := by
  unfold State.modColl
  repeat' first
    | (extract_lets -underBinder +onlyGivenNames x; guard_hyp x : Colls := _; have x := trivial)
    | (with_reducible refine Still.upd ?_ rfl rfl; with_reducible assumption)

theorem CollCtx_upd_still {s0 : State} (c : CollCtx) (f : Coll → Coll) :
    PassM (Still s0) (CollCtx.upd c f : M Unit) := by
  unfold CollCtx.upd
  repeat' first
    | intro _
    | with_reducible first | assumption | apply mod_still | apply modColl_still

theorem CollCtx_shardCheck_still {s0 : State} (c : CollCtx) (d : Desc) :
    PassM (Still s0) (CollCtx.shardCheck c d : M Unit) := by
  unfold CollCtx.shardCheck
  repeat' first
    | intro _
    | (extract_lets -underBinder +onlyGivenNames x; first
      | (with_reducible refine PassM.cut (P := Still s0) (x := x) ?_ fun hx => ?_; rotate_left; clear_value x; have x := trivial; rotate_left; unfold x; clear x)
      | (guard_hyp x : _ := _; clear_value x; have x := trivial))
    | with_reducible first
        | apply readNat_still | apply writeNat_still | apply CollCtx_upd_still | apply PassM.pure | apply PassM.bind
        | apply_assumption -exfalso -symm | apply PassM.ite

theorem disown_still {s0 : State} {s : State} (tag : Nat) (h_s : Still s0 s) :
    Still s0 (State.disown s tag) := by
  unfold State.disown
  repeat' first
    | (extract_lets -underBinder +onlyGivenNames x; guard_hyp x : Colls := _; have x := trivial)
    | (with_reducible refine Still.upd ?_ rfl rfl; with_reducible assumption)

theorem useReadies_still {s0 : State} {s : State} (tag : Nat) (h_s : Still s0 s) :
    Still s0 (State.useReadies s tag) := by
  unfold State.useReadies
  repeat' first
    | (extract_lets -underBinder +onlyGivenNames x; first
      | (guard_hyp x : Colls := _; have x := trivial)
      | (guard_hyp x : _ := _; clear_value x; have x := trivial))
    | (with_reducible refine Still.upd ?_ rfl rfl; with_reducible assumption)

end Sys2Proof.Safety
end

