-- ==== Sys2Proof/Laws/Tasks.lean ====
section
/-! SUPPORT. What starting and completing a task do to the tasks, the outcomes and the rest. -/

namespace Sys2Proof.Safety

open Sys2Proof.Machine

/-! ### Tasks found -/

theorem task?_setTask_ne {s : State} {r : Nat} {u : Machine.Task} (h : r ≠ u.record) :
    (s.setTask u).task? r = s.task? r := by
  unfold State.task? State.setTask
  dsimp only
  induction s.sched.tasks with
  | nil => rfl
  | cons x l ih =>
    by_cases k : x.record = u.record
    · have e1 : (u.record == r) = false := by simp [Ne.symm h]
      have e2 : (x.record == r) = false := by rw [k]; exact e1
      simp only [List.map_cons, if_pos k, List.find?_cons, e1, e2]; exact ih
    · simp only [List.map_cons, k, if_false, List.find?_cons]
      cases x.record == r
      · exact ih
      · rfl

theorem task?_congr {s t : State} (h : t.sched.tasks = s.sched.tasks) (r : Nat) : t.task? r = s.task? r := by
  unfold State.task?; rw [h]

theorem task_record {s : State} {r : Nat} {t : Machine.Task} (h : s.task? r = some t) : t.record = r := by
  have := List.find?_some h
  simpa using this

theorem task?_of_mem {s : State} {t : Machine.Task} (h : t ∈ s.sched.tasks) : ∃ t0, s.task? t.record = some t0 := by
  unfold State.task?
  cases k : s.sched.tasks.find? (·.record == t.record) with
  | some u => exact ⟨u, rfl⟩
  | none => have := List.find?_eq_none.1 k t h; simp at this

/-- A holder of its own record is the task found. -/
theorem task?_of_holder {s : State} {r : Nat} {t : Machine.Task} (h : s.holder? r = some t) (e : t.record = r) :
    s.task? r = some t := by
  unfold State.holder? at h
  unfold State.task?
  revert h
  induction s.sched.tasks with
  | nil => intro h; cases h
  | cons x l ih =>
    intro h
    rw [List.find?_cons] at h ⊢
    cases k : (x.record == r) with
    | true =>
      simp only [k, Bool.true_or] at h
      exact h
    | false =>
      simp only [k, Bool.false_or] at h
      split at h
      · cases h
        simp [e] at k
      · exact ih h

/-- A change that keeps every task's record is seen in the task found. -/
theorem find?_map_record {g : Machine.Task → Machine.Task} (h : ∀ u, (g u).record = u.record) (l : List Machine.Task) (q : Nat) :
    (l.map g).find? (·.record == q) = (l.find? (·.record == q)).map g := by
  rw [List.find?_map]
  congr 2
  funext u
  simp [h]

/-- A change to a task's holder, seen in the tasks found. -/
theorem modTask_task? {s : State} {p : Nat} {f : Machine.Task → Machine.Task} (q : Nat) :
    ∃ g : Machine.Task → Machine.Task, (∀ u, g u = u ∨ g u = { f u with record := u.record }) ∧
      (s.modTask p f).task? q = (s.task? q).map g := by
  unfold State.modTask
  split
  · rename_i t _
    refine ⟨fun u => if u.record = t.record then { f u with record := u.record } else u, fun u => ?_, ?_⟩
    · dsimp only
      split
      · exact .inr rfl
      · exact .inl rfl
    · exact find?_map_record (fun u => by dsimp only; split <;> rfl) _ _
  · exact ⟨id, fun u => .inl rfl, by cases s.task? q <;> rfl⟩

/-- A change to the task of a record that holds itself. -/
theorem modTask_own {s : State} {r : Nat} {t : Machine.Task} {f : Machine.Task → Machine.Task} (h : s.holder? r = some t)
    (hr : t.record = r) :
    (∀ u, s.task? r = some u → (s.modTask r f).task? r = some { f u with record := r }) ∧
    ∀ q, q ≠ r → (s.modTask r f).task? q = s.task? q := by
  have key : ∀ q, (s.modTask r f).task? q =
      (s.task? q).map fun u => if u.record = t.record then { f u with record := u.record } else u := by
    intro q
    unfold State.modTask
    rw [h]
    exact find?_map_record (fun u => by dsimp only; split <;> rfl) _ _
  refine ⟨fun u e => ?_, fun q n => ?_⟩
  · have hu := task_record e
    rw [key, e, Option.map_some, if_pos (hu.trans hr.symm), hu]
  · rw [key]
    cases e : s.task? q with
    | none => rfl
    | some u =>
      have hu := task_record e
      rw [Option.map_some, if_neg (fun c => n (by rw [← hu, c, hr]))]

/-! ### The order of an engine -/

theorem bestTask_mem {l : List Machine.Task} {t : Machine.Task} (h : bestTask l = some t) : t ∈ l := by
  induction l generalizing t with
  | nil => cases h
  | cons a l ih =>
    unfold bestTask at h
    split at h
    · cases h; simp
    · rename_i u hu
      dsimp only at h
      split at h
      · cases h; simp
      · cases h; exact List.mem_cons_of_mem _ (ih hu)

theorem headOn_mem {s : State} {cls e ok t} (h : s.headOn cls e ok = some t) : t ∈ s.sched.tasks ∧ e ∈ t.waiting := by
  have m : t ∈ (s.waitingOn cls e).filter ok := by
    unfold State.headOn at h
    dsimp only at h
    split at h
    · exact List.mem_of_mem_head? h
    · exact bestTask_mem h
  have m2 := List.mem_filter.1 (List.mem_filter.1 m).1
  refine ⟨m2.1, ?_⟩
  have := m2.2
  simp at this
  exact this.2

theorem nextOn_mem {s : State} {cls e phase t} (h : s.nextOn cls e phase = some t) : t ∈ s.sched.tasks ∧ e ∈ t.waiting := by
  unfold State.nextOn at h
  split at h
  · exact headOn_mem h
  · cases h

/-! ### What a start leaves -/

/-- Where a task stands with its engines. -/
def startPart (t : Machine.Task) : List Nat × NatMap × Nat := (t.waiting, t.running, t.image)

/-- What the start of the task of record `r` leaves, once it has begun: where it stands with its engines, and every other
task but for what `settledPart` takes away. -/
structure Settles (r : Nat) (s t : State) : Prop where
  own : (t.task? r).map startPart = (s.task? r).map startPart
  others : ∀ q, q ≠ r → (t.task? q).map Task.settledPart = (s.task? q).map Task.settledPart
  halted : s.sched.halt.isSome = true → t.sched.halt.isSome = true

theorem Settles.refl (r : Nat) (s : State) : Settles r s s := ⟨rfl, fun _ _ => rfl, id⟩

theorem Settles.trans {r : Nat} {a b c : State} (h : Settles r a b) (k : Settles r b c) : Settles r a c :=
  ⟨k.own.trans h.own, fun q n => (k.others q n).trans (h.others q n), fun g => k.halted (h.halted g)⟩

theorem Settles.still {r : Nat} {a b c : State} (h : Settles r a b) (k : Still b c) : Settles r a c :=
  h.trans ⟨by rw [task?_congr k.tasks], fun q _ => by rw [task?_congr k.tasks], k.halted⟩

theorem PassM.settles {α : Type} {r : Nat} {s0 : State} {m : M α} (h : ∀ s, PassM (Still s) m) : PassM (Settles r s0) m :=
  .carry h Still.refl fun _ _ a b => a.still b

/-- A change to what `settledPart` takes away. -/
theorem Settles.quiet {r : Nat} {a b : State} {p : Nat} {f : Machine.Task → Machine.Task} (h : Settles r a b)
    (hf : ∀ u, Task.settledPart { f u with record := u.record } = Task.settledPart u) : Settles r a (b.modTask p f) := by
  have key : ∀ q, ((b.modTask p f).task? q).map Task.settledPart = (b.task? q).map Task.settledPart := by
    intro q
    obtain ⟨g, hg, e⟩ := modTask_task? (s := b) (p := p) (f := f) q
    rw [e, Option.map_map]
    congr 1
    funext u
    rcases hg u with k | k
    · exact congrArg _ k
    · exact (congrArg _ k).trans (hf u)
  refine h.trans ⟨?_, fun q _ => key q, ?_⟩
  rotate_left
  · unfold State.modTask
    split <;> exact id
  have j : ∀ o : Option Machine.Task, o.map startPart = (o.map Task.settledPart).map startPart := by
    intro o; cases o <;> rfl
  rw [j (State.task? _ _), key, ← j]

/-- The task itself put in place, as it stands with its engines. -/
theorem Settles.setTask {r : Nat} {a b : State} {t u : Machine.Task} (h : Settles r a b) (e : b.task? r = some t)
    (hu : u.record = r) (hp : startPart u = startPart t) : Settles r a (b.setTask u) := by
  refine h.trans ⟨?_, fun q n => ?_, id⟩
  · rw [task?_setTask e hu, e]
    exact congrArg some hp
  · rw [task?_setTask_ne (by rw [hu]; exact n)]

theorem foldl_still {α : Type} {f : State → α → State} {l : List α} {s0 s : State} (h : Still s0 s)
    (k : ∀ y a, Still s0 y → Still s0 (f y a)) : Still s0 (l.foldl f s) := Pass.foldl h k

/-- A task that ends early. -/
theorem Settles.failTask {r : Nat} {a b : State} {t u : Machine.Task} (h : Settles r a b) (e : b.task? r = some t)
    (hu : u.record = r) (hp : startPart u = startPart t) (outs : List (Nat × Nat)) (x : Abort) :
    Settles r a (b.failTask u outs x) := by
  have w : Still b (outs.foldl (fun s q => s.scramble u.writers q.1 q.2) b) :=
    foldl_still (.refl b) fun _ _ k => scramble_still _ _ _ k
  have h1 := h.still w
  have e1 : (outs.foldl (fun s q => s.scramble u.writers q.1 q.2) b).task? r = some t := by
    rw [task?_congr w.tasks]; exact e
  unfold State.failTask
  cases x with
  | absent va => exact (h1.setTask (u := { u with work := 2 }) e1 hu hp).still (haltWith_still _ _ (raise_still _ _ _ _ _ _ _ _ (.refl _)))
  | fault d => exact (h1.setTask (u := { u with work := 2 }) e1 hu hp).still (taskFault_still _ _ _ _ _ (.refl _))
  | poison l =>
    have w2 := uncorrected_still l u.record (.refl (outs.foldl (fun s q => s.scramble u.writers q.1 q.2) b))
    exact ((h1.still w2).setTask (u := { u with work := 2, undef := true }) (by rw [task?_congr w2.tasks]; exact e1) hu hp).still (taskFault_still _ _ _ _ _ (.refl _))
  | undefined => exact h1.setTask e1 hu hp
  | wait => exact h1

/-- Reading operands. -/
theorem readOperands_settles {r : Nat} {s0 : State} (c : Ctx) (l : List Nat) : PassM (Settles r s0) (readOperands c l) := by
  unfold readOperands
  repeat' first
    | intro _
    | with_reducible assumption
    | (extract_lets -underBinder +onlyGivenNames x; first
      | (with_reducible refine PassM.cut (P := Settles r s0) (x := x) ?_ fun hx => ?_; rotate_left; clear_value x; have x := trivial; rotate_left; unfold x; clear x)
      | (guard_hyp x : _ := _; clear_value x; have x := trivial))
    | with_reducible first
        | apply PassM.getThe | apply PassM.getBind | apply PassM.pure | apply PassM.throw | apply PassM.bind | apply PassM.forM
        | exact PassM.settles fun _ => readNat_still _ _ _ _ | exact PassM.settles fun _ => undefinedJob_still
        | apply_assumption -exfalso -symm | apply PassM.ite
    | (refine PassM.modify fun _ h => h.quiet ?_; intro _; rfl)
    | split

theorem startReads_settles {r : Nat} {s0 : State} (t : Machine.Task) (e : Nat) : PassM (Settles r s0) (startReads t e) :=
  PassM.forM fun _ => readOperands_settles _ _

theorem fetchAhead_settles {r : Nat} {s0 : State} (e : Nat) (t : Machine.Task) : PassM (Settles r s0) (fetchAhead e t) := by
  refine PassM.forM fun p => PassM.forM fun addr => PassM.getBind fun s _ => ?_
  split
  · exact PassM.bind (.settles fun _ => readNat_still _ _ _ _) fun _ => PassM.mod fun _ h => h.quiet fun _ => rfl
  · exact PassM.pure

theorem prefetch_settles {r : Nat} {s0 s : State} (cls : EngineClass) (e : Nat) (h : Settles r s0 s) :
    Settles r s0 (s.prefetch cls e) := by
  unfold State.prefetch
  split
  · exact h
  · split
    · exact h
    · split
      · rename_i k
        exact (fetchAhead_settles _ _).ok h k
      · exact h

/-- A task of the record still has a place. -/
theorem Settles.some {r : Nat} {a b : State} {t : Machine.Task} (h : Settles r a b) (e : a.task? r = some t) :
    ∃ u, b.task? r = some u ∧ startPart u = startPart t ∧ u.record = r := by
  have k := h.own
  rw [e] at k
  obtain ⟨u, hu, hp⟩ := Option.map_eq_some_iff.1 k
  exact ⟨u, hu, hp, task_record hu⟩

theorem readAll_settles {r : Nat} {s0 s : State} (es : List Nat) (h : Settles r s0 s) : Settles r s0 (s.readAll r es) := by
  unfold State.readAll
  refine Pass.foldl (P := Settles r s0) h fun y e hy => ?_
  split
  · rename_i t _
    split
    · exact hy
    · split
      · rename_i k
        exact (startReads_settles _ _).ok hy k
      · rename_i k
        have hz := (startReads_settles _ _).error hy k
        split
        · rename_i t' ht
          exact hz.failTask ht (task_record ht) rfl _ _
        · exact hz
  · exact hy

theorem collStart_settles {r : Nat} {s0 : State} (c : CollCtx) : PassM (Settles r s0) c.start := by
  unfold CollCtx.start undefinedIf
  repeat' first
    | intro _
    | with_reducible assumption
    | (extract_lets -underBinder +onlyGivenNames x; first
      | (with_reducible refine PassM.cut (P := Settles r s0) (x := x) ?_ fun hx => ?_; rotate_left; clear_value x; have x := trivial; rotate_left; unfold x; clear x)
      | (guard_hyp x : _ := _; clear_value x; have x := trivial))
    | with_reducible first
        | apply PassM.getThe | apply PassM.getBind | apply PassM.pure | apply PassM.throw | apply PassM.bind | apply PassM.forM
        | exact PassM.settles fun _ => fetchDesc_still _ _ | exact PassM.settles fun _ => CollCtx_upd_still _ _
        | exact PassM.settles fun _ => CollCtx_shardCheck_still _ _
        | exact PassM.settles fun _ => readNat_still _ _ _ _ | exact PassM.settles fun _ => undefinedJob_still
        | apply_assumption -exfalso -symm | apply PassM.ite
    | (refine PassM.modify fun _ h => h.quiet ?_; intro _; rfl)
    | (refine PassM.mod fun _ h => h.quiet ?_; intro _; rfl)
    | (refine PassM.mod fun _ h => h.still ?_; exact disown_still _ (.refl _))
    | split

theorem haltWith_isSome {s : State} {c r : Nat} : (s.haltWith c r).sched.halt.isSome = true := by
  unfold State.haltWith
  split
  · rename_i k; rw [k]; rfl
  · rfl

theorem writeStatus_works {s0 s : State} (i st m : Nat) (h : Works s0 s) : Works s0 (s.writeStatus i st m) := by
  unfold State.writeStatus
  dsimp only
  split
  · rename_i e
    refine PassM.ok (PassM.bind (writeNat_works _ _ _ _ _) fun _ => writeNat_works _ _ _ _ _) h e
  · rename_i e
    refine PassM.error (PassM.bind (writeNat_works _ _ _ _ _) fun _ => writeNat_works _ _ _ _ _) h e

/-- Its engines leave a task that has ended. -/
theorem release_frame {s : State} {t : Machine.Task} {ph : Nat} : (s.releaseEngines t ph).task? t.record = none ∧
    (∀ q, q ≠ t.record → (s.releaseEngines t ph).task? q = s.task? q) ∧
    (s.releaseEngines t ph).sched.outcomes = s.sched.outcomes ∧ (s.releaseEngines t ph).sched.halt = s.sched.halt ∧
    (s.releaseEngines t ph).dict = s.dict ∧ (s.releaseEngines t ph).mem = s.mem := by
  have key : ∃ x : State, s.releaseEngines t ph = x ∧ x.sched = { s.sched with tasks := s.sched.tasks.filter (·.record != t.record) } ∧
      x.dict = s.dict ∧ x.mem = s.mem := by
    refine ⟨_, rfl, ?_⟩
    unfold State.releaseEngines
    dsimp only
    split
    · refine Pass.foldl (P := fun x : State => x.sched = { s.sched with tasks := s.sched.tasks.filter (·.record != t.record) } ∧
        x.dict = s.dict ∧ x.mem = s.mem) ⟨rfl, rfl, rfl⟩ fun y e h => ?_
      split
      · exact h
      · exact h
    · exact ⟨rfl, rfl, rfl⟩
  obtain ⟨x, e, h1, h2, h3⟩ := key
  rw [e]
  refine ⟨?_, fun q n => ?_, by rw [h1], by rw [h1], h2, h3⟩
  · unfold State.task?
    rw [h1, List.find?_eq_none]
    intro u hu
    have := (List.mem_filter.1 hu).2
    simpa using this
  · unfold State.task?
    rw [h1]
    dsimp only
    induction s.sched.tasks with
    | nil => rfl
    | cons a l ih =>
      by_cases k : a.record = t.record
      · have e1 : (a.record != t.record) = false := by simp [k]
        have e2 : (a.record == q) = false := by rw [k]; simpa using Ne.symm n
        rw [List.filter_cons, if_neg (by simp [e1]), List.find?_cons, e2]
        exact ih
      · rw [List.filter_cons, if_pos (by simpa using k), List.find?_cons, List.find?_cons, ih]

theorem startUpdate_settles {r : Nat} {s0 s : State} {t : Machine.Task} (h : Settles r s0 s) (e : s.task? r = some t) :
    Settles r s0 (s.startUpdate t) ∨ ((s.startUpdate t).task? r = none ∧
      (s.startUpdate t).outcome r = 2 ∧ (s.startUpdate t).sched.halt.isSome = true ∧
      ∀ q, q ≠ r → ((s.startUpdate t).task? q).map Task.settledPart = (s0.task? q).map Task.settledPart) := by
  have hr := task_record e
  unfold State.startUpdate
  split
  · rename_i g comp cause x k
    have hx : Settles r s0 x := (PassM.settles (r := r) fun _ => updateStart_still _ _).ok h k
    have hs : Still s x := (updateStart_still _ _).ok (.refl s) k
    have ex : x.task? r = some t := by rw [task?_congr hs.tasks]; exact e
    split
    · left
      split
      · rename_i t' ht
        rw [hr] at ht
        exact hx.setTask (u := { t' with notes := [g] }) ht (task_record (t := t') ht) rfl
      · exact hx
    · right
      rename_i hc
      unfold State.refuseUpdate
      obtain ⟨r1, r2, r3, r4, -, -⟩ := release_frame (s := ((((x.count oUpdateSkewTasks).noteSkew t.unit t.record (grpStep g)
        (field comp 31 0) (field comp 63 32) cause).haltWith 0x0501 t.record).writeStatus t.record 2 0).setOutcome t.record 2)
        (t := t) (ph := 0)
      generalize hy : ((x.count oUpdateSkewTasks).noteSkew t.unit t.record (grpStep g) (field comp 31 0) (field comp 63 32)
        cause) = y at *
      have sy : Still x y := by rw [← hy]; exact noteSkew_still _ _ _ _ _ _ (count_still _ (.refl x))
      have sz : Still x ((y.haltWith 0x0501 t.record).writeStatus t.record 2 0) :=
        writeStatus_still _ _ _ (haltWith_still _ _ sy)
      rw [hr] at *
      refine ⟨r1, ?_, ?_, fun q n => ?_⟩
      · unfold State.outcome
        rw [r3]
        exact mapGet_mapPut_self (v := 2) (by decide)
      · rw [r4]
        exact (writeStatus_still _ _ _ (.refl _)).halted haltWith_isSome
      · rw [r2 q n]
        exact (hx.still sz).others q n
  · rename_i x k
    left
    have hx : Settles r s0 _ := (PassM.settles (r := r) fun _ => updateStart_still _ _).error h k
    have hs := (updateStart_still _ _).error (.refl s) k
    exact hx.failTask (by rw [task?_congr hs.tasks]; exact e) hr rfl _ _

theorem failColl_settles {r : Nat} {s0 s : State} {c : CollCtx} {t : Machine.Task} {a : Abort} (h : Settles r s0 s)
    (e : s.task? r = some t) : Settles r s0 (s.failColl c t a) := by
  have k : ∀ b : Prop, [Decidable b] → ∀ y : State, Still s y →
      Still s (if b then { y with resil := { y.resil with midnight := none } } else y) := by
    intro b _ y hy
    split
    · exact hy.upd rfl rfl
    · exact hy
  have h1 : Still s (if t.work = 0 then s.useReadies (colTag c.t.image) else s) := by
    split
    · exact useReadies_still _ (.refl s)
    · exact .refl s
  have h2 := k (recKind t.image = 7) _ h1
  unfold State.failColl
  exact (h.still h2).failTask (by rw [task?_congr h2.tasks]; exact e) (task_record e) rfl _ _

theorem startColl_settles {r : Nat} {s0 s : State} {t : Machine.Task} (h : Settles r s0 s) (hr : t.record = r) :
    Settles r s0 (s.startColl t) := by
  unfold State.startColl
  extract_lets y x c
  have hx : Settles r s0 x := h.still ((Still.refl s).upd rfl rfl)
  clear_value x
  split
  · exact hx
  · split
    · rename_i k
      exact (collStart_settles _).ok hx k
    · rename_i a y k
      have hy := (collStart_settles _).error hx k
      split
      · rename_i t' ht
        rw [hr] at ht
        exact failColl_settles hy ht
      · exact hy

/-- What a start leaves, or a refusal of the skew check (R218). -/
def Starts (r image : Nat) (s t : State) : Prop :=
  Settles r s t ∨ (recKind image = 6 ∧ t.task? r = none ∧ t.outcome r = 2 ∧ t.sched.halt.isSome = true ∧
    ∀ q, q ≠ r → (t.task? q).map Task.settledPart = (s.task? q).map Task.settledPart)

theorem allStarted_starts {r : Nat} {s0 s : State} {t : Machine.Task} (h : Settles r s0 s) (e : s.task? r = some t) :
    Starts r t.image s0 (s.allStarted t) := by
  have hr := task_record e
  unfold State.allStarted
  split
  · exact .inl (h.failTask e hr rfl _ _)
  · split
    · exact .inl (startColl_settles h hr)
    · exact .inl (startColl_settles h hr)
    · rename_i k
      rcases startUpdate_settles h e with g | g
      · exact .inl g
      · exact .inr ⟨k, g⟩
    · exact .inl (h.still ((Still.refl s).upd rfl rfl))
    · exact .inl h

/-- Engines leave what they run. -/
theorem leaveOn_settled {s : State} (cls : EngineClass) (e : Nat) :
    (∀ q, ((s.leaveOn cls e).task? q).map Task.settledPart = (s.task? q).map Task.settledPart) ∧
    ∀ q t, s.holder? q = some t → ∃ u, (s.leaveOn cls e).holder? q = some u ∧ u.record = t.record := by
  unfold State.leaveOn
  split
  · rename_i v _
    refine ⟨fun q => ?_, fun q t h => ?_⟩
    · obtain ⟨g, hg, k⟩ := modTask_task? (s := s) (p := v.record) (f := fun u => { u with left := u.left ++ [e] }) q
      rw [k, Option.map_map]
      congr 1
      funext u
      rcases hg u with a | a
      · exact congrArg _ a
      · exact congrArg _ a
    · unfold State.modTask
      split
      · rename_i w _
        unfold State.holder? at h ⊢
        dsimp only
        rw [List.find?_map]
        have : ((fun t : Machine.Task => t.record == q || t.members.any (·.1 == q)) ∘ fun u : Machine.Task =>
            if u.record = w.record then { u with record := u.record, left := u.left ++ [e] } else u) =
            fun t : Machine.Task => t.record == q || t.members.any (·.1 == q) := by
          funext u
          dsimp only [Function.comp]
          split <;> rfl
        rw [this, h]
        refine ⟨_, rfl, ?_⟩
        dsimp only
        split <;> rfl
      · exact ⟨t, h, rfl⟩
  · exact ⟨fun _ => rfl, fun q t h => ⟨t, h, rfl⟩⟩

/-- A start begins: the task runs on these engines, and the others are as they were. -/
theorem beginOn_frame {s : State} {cls : EngineClass} {t : Machine.Task} {es : List Nat} {now : Nat}
    (h : s.holder? t.record = some t) (ht : s.task? t.record = some t) :
    (∃ u, (s.beginOn cls t.record es now).task? t.record = some u ∧ u.image = t.image ∧
      u.waiting = (t.waiting.filter fun e => !es.contains e) ∧
      u.running = es.foldl (fun m e => mapInsert m e now) t.running) ∧
    ∀ q, q ≠ t.record → ((s.beginOn cls t.record es now).task? q).map Task.settledPart = (s.task? q).map Task.settledPart := by
  have fold : ∀ (es : List Nat) (y : State),
      (∀ q, ((es.foldl (fun s e => s.leaveOn cls e) y).task? q).map Task.settledPart = (y.task? q).map Task.settledPart) ∧
      ∀ q t, y.holder? q = some t → ∃ u, (es.foldl (fun s e => s.leaveOn cls e) y).holder? q = some u ∧ u.record = t.record := by
    intro es
    induction es with
    | nil => exact fun y => ⟨fun _ => rfl, fun q t h => ⟨t, h, rfl⟩⟩
    | cons a l ih =>
      intro y
      obtain ⟨a1, a2⟩ := leaveOn_settled (s := y) cls a
      obtain ⟨b1, b2⟩ := ih (y.leaveOn cls a)
      refine ⟨fun q => (b1 q).trans (a1 q), fun q t h => ?_⟩
      obtain ⟨u, hu, e⟩ := a2 q t h
      obtain ⟨v, hv, e'⟩ := b2 q u hu
      exact ⟨v, hv, e'.trans e⟩
  obtain ⟨f1, f2⟩ := fold es s
  obtain ⟨u, hu, eu⟩ := f2 _ _ h
  have hv := f1 t.record
  rw [ht] at hv
  obtain ⟨v, ev, pv⟩ := Option.map_eq_some_iff.1 hv
  unfold State.beginOn
  obtain ⟨m1, m2⟩ := modTask_own (f := fun w => { w with
    waiting := w.waiting.filter fun e => !es.contains e
    running := es.foldl (fun m e => mapInsert m e now) w.running }) hu eu
  refine ⟨⟨_, m1 v ev, ?_, ?_, ?_⟩, fun q n => (congrArg _ (m2 q n)).trans (f1 q)⟩
  · have k : (Task.settledPart v).image = (Task.settledPart t).image := congrArg _ pv
    exact k
  · have k : (Task.settledPart v).waiting = (Task.settledPart t).waiting := congrArg _ pv
    exact congrArg (fun l : List Nat => l.filter fun e => !es.contains e) k
  · have k : (Task.settledPart v).running = (Task.settledPart t).running := congrArg _ pv
    exact congrArg (fun m : NatMap => es.foldl (fun m e => mapInsert m e now) m) k

theorem Works.outcomes {s t : State} (h : Works s t) : t.sched.outcomes = s.sched.outcomes := by
  have := h.frame
  simp only [workFrame, Prod.mk.injEq] at this
  exact this.2.2.2.2.2.2.2.2.1.1

theorem prefetch_works {s0 s : State} (cls : EngineClass) (e : Nat) (h : Works s0 s) : Works s0 (s.prefetch cls e) := by
  unfold State.prefetch
  split
  · exact h
  · split
    · exact h
    · split
      · rename_i t _ x k
        refine PassM.ok (PassM.forM fun p => PassM.forM fun addr => PassM.getBind fun s _ => ?_) h k
        split
        · exact PassM.bind (readNat_works _ _ _ _) fun _ => PassM.mod fun _ h => modTask_works _ _ h
        · exact PassM.pure
      · exact h

/-- A start carried out. -/
theorem startOn_frame {s : State} {cls : EngineClass} {t : Machine.Task} {es : List Nat} {ph now : Nat}
    (h : s.holder? t.record = some t) (ht : s.task? t.record = some t) (hn : s.sched.boundaryAclk + ph = now) :
    ((∃ u, (s.startOn cls t es ph).task? t.record = some u ∧ u.image = t.image ∧
        u.waiting = (t.waiting.filter fun e => !es.contains e) ∧
        u.running = es.foldl (fun m e => mapInsert m e now) t.running) ∨
      (recKind t.image = 6 ∧ (s.startOn cls t es ph).task? t.record = none ∧ (s.startOn cls t es ph).outcome t.record = 2 ∧
        (s.startOn cls t es ph).sched.halt.isSome = true)) ∧
    ∀ q, q ≠ t.record → ((s.startOn cls t es ph).task? q).map Task.settledPart = (s.task? q).map Task.settledPart := by
  subst hn
  obtain ⟨⟨u, hu, u1, u2, u3⟩, ho⟩ := beginOn_frame (cls := cls) (es := es) (now := s.sched.boundaryAclk + ph) h ht
  unfold State.startOn
  generalize s.beginOn cls t.record es (s.sched.boundaryAclk + ph) = z at *
  extract_lets a b c d
  have za : Still z a := by
    unfold a State.rouse
    extract_lets y
    have hy : Still z y := by
      unfold y
      split
      · exact foldl_still (.refl z) fun _ _ k => setBusy_still _ _ _ k
      · exact .refl z
    split
    · exact foldl_still hy fun _ _ k => fillSram_still _ k
    · exact hy
  have zb : Still z b := by
    unfold b
    split
    · exact count_still _ za
    · exact za
  have zc : Settles t.record z c := readAll_settles _ ((Settles.refl _ z).still zb)
  have zd : Starts t.record t.image z d := by
    unfold d
    split
    · rename_i t' e'
      split
      · obtain ⟨w, hw, pw, -⟩ := zc.some hu
        obtain rfl : w = t' := Option.some.inj (hw.symm.trans e')
        have i : w.image = t.image := (congrArg (·.2.2) pw).trans u1
        have k := allStarted_starts zc hw
        rw [i] at k
        exact k
      · exact .inl zc
    · exact .inl zc
  clear_value d
  have ze : Settles t.record d (es.foldl (fun s e => s.prefetch cls e) d) :=
    Pass.foldl (P := Settles t.record d) (.refl _ d) fun _ _ k => prefetch_settles _ _ k
  generalize hw : es.foldl (fun s e => s.prefetch cls e) d = x at *
  rcases zd with k | ⟨k1, k2, k3, k4, k5⟩
  · obtain ⟨w, hw, pw, -⟩ := (k.trans ze).some hu
    refine ⟨.inl ⟨w, hw, ?_, ?_, ?_⟩, fun q n => ((k.trans ze).others q n).trans (ho q n)⟩
    · exact (congrArg (·.2.2) pw).trans u1
    · exact (congrArg (·.1) pw).trans u2
    · exact (congrArg (·.2.1) pw).trans u3
  · refine ⟨.inr ⟨k1, ?_, ?_, ?_⟩, fun q n => ((ze.others q n).trans (k5 q n)).trans (ho q n)⟩
    · have := ze.own
      rw [k2] at this
      exact Option.map_eq_none_iff.1 this
    · have w : Works d x := hw ▸ Pass.foldl (P := Works d) (.refl d) fun _ _ k => prefetch_works _ _ k
      unfold State.outcome
      rw [w.outcomes]
      exact k3
    · exact ze.halted k4

/-! ### What a completion leaves -/

theorem finishUpdate_works {s0 : State} (t : Machine.Task) : PassM (Works s0) (finishUpdate t) := by
  unfold finishUpdate
  repeat' first
    | intro _
    | with_reducible first | apply PassM.pure | apply PassM.bind | apply writeNat_works | apply writeBytes_works | apply readNat_works | apply PassM.ite
    | split
    | dsimp only

theorem finishTask_works {s0 : State} (t : Machine.Task) : PassM (Works s0) (finishTask t) := by
  unfold finishTask
  split
  · refine PassM.bind (finishUpdate_works t) fun _ => PassM.getBind fun s _ => ?_
    split
    · exact PassM.mod fun _ h => scrambleJob_works h
    · exact PassM.pure
  · exact PassM.pure


/-- Outcomes and the placement epoch are as they were. -/
def SameEpoch (s t : State) : Prop :=
  t.sched.outcomes = s.sched.outcomes ∧
    (Rising s.dict.objs → Rising t.dict.objs ∧ t.obj oPlacementEpoch = s.obj oPlacementEpoch)

theorem SameEpoch.trans {a b c : State} (h : SameEpoch a b) (k : SameEpoch b c) : SameEpoch a c :=
  ⟨k.1.trans h.1, fun r => ⟨(k.2 (h.2 r).1).1, (k.2 (h.2 r).1).2.trans (h.2 r).2⟩⟩

theorem SameEpoch.works {a b : State} (h : Works a b) : SameEpoch a b :=
  ⟨h.outcomes, fun r => ⟨(h.objs r).1, (h.objs r).2 _ (by decide)⟩⟩

theorem SameEpoch.refl (s : State) : SameEpoch s s := .works (.refl s)

theorem SameEpoch.same {a b : State} (h : b.sched.outcomes = a.sched.outcomes) (k : b.dict.objs = a.dict.objs) : SameEpoch a b :=
  ⟨h, fun r => ⟨by rw [k]; exact r, obj_congr k _⟩⟩

theorem signal_frame {s : State} {u : Bool} {e : Nat} : SameEpoch s (s.signal u e) := by
  unfold State.signal
  split
  · exact .refl s
  · dsimp only
    split
    · exact .same rfl rfl
    · split
      · exact .same rfl rfl
      · exact (SameEpoch.works (scrambleJob_works (.refl s))).trans (.same rfl rfl)

theorem endRecord_frame {s : State} {t : Machine.Task} {i r m : Nat} (h : Rising s.dict.objs) :
    Rising (s.endRecord t i r m).dict.objs ∧ (s.endRecord t i r m).obj oPlacementEpoch = s.obj oPlacementEpoch ∧
    (s.endRecord t i r m).outcome i = (if t.work = 2 then 2 else if recEpoch r ≠ s.obj oPlacementEpoch then 3 else 1) ∧
    ∀ j, j ≠ i → (s.endRecord t i r m).outcome j = s.outcome j := by
  generalize hst : (if t.work = 2 then 2 else if recEpoch r ≠ s.obj oPlacementEpoch then 3 else 1) = st
  have hst0 : st ≠ 0 := by rw [← hst]; split <;> (try split) <;> decide
  have w := writeStatus_works i st m (Works.refl s)
  have key : SameEpoch ((s.writeStatus i st m).setOutcome i st) (s.endRecord t i r m) := by
    unfold State.endRecord
    simp only [decide_eq_true_eq, hst]
    have k1 : ∀ z : State, SameEpoch z (if st = 2 ∨ recQueueIn r = 255 then z else z.setCredit (recQueueIn r) (z.credit (recQueueIn r) + 1)) := by
      intro z
      split
      · exact .refl z
      · exact .same rfl rfl
    refine SameEpoch.trans ?_ (k1 _)
    split
    · exact signal_frame.trans signal_frame
    · exact .refl _
  obtain ⟨k1, k2⟩ := key
  obtain ⟨k3, k4⟩ := k2 (w.objs h).1
  refine ⟨k3, k4.trans ((w.objs h).2 _ (by decide)), ?_, fun j hj => ?_⟩
  · unfold State.outcome; rw [k1]; exact mapGet_mapPut_self hst0
  · unfold State.outcome; rw [k1]
    refine (mapGet_mapPut_ne hst0 hj).trans ?_
    rw [w.outcomes]

theorem addTiming_frame {s : State} {q : TaskTiming} (h : Rising s.dict.objs) :
    Rising (s.addTiming q).dict.objs ∧ (s.addTiming q).obj oPlacementEpoch = s.obj oPlacementEpoch ∧
    (s.addTiming q).sched = s.sched := by
  have st : ∀ (x : State) (k n : Nat), k ≠ oPlacementEpoch → (Rising x.dict.objs ∧ x.obj oPlacementEpoch = s.obj oPlacementEpoch ∧ x.sched = s.sched) →
      (Rising (x.addObj k n).dict.objs ∧ (x.addObj k n).obj oPlacementEpoch = s.obj oPlacementEpoch ∧ (x.addObj k n).sched = s.sched) := by
    rintro x k n hk ⟨a, b, c⟩
    exact ⟨rising_addObj a, (addObj_obj a (Ne.symm hk)).trans b, addObj_out.2.1.trans c⟩
  unfold State.addTiming
  dsimp only
  repeat' (with_reducible apply st)
  all_goals first | decide | exact ⟨h, rfl, rfl⟩

theorem endAll_frame {t : Machine.Task} {m : Nat} {l : List (Nat × Nat)} {s : State} (h : Rising s.dict.objs) (n : (l.map (·.1)).Nodup) :
    (∀ p ∈ l, (l.foldl (fun s p => s.endRecord t p.1 p.2 m) s).outcome p.1 =
      (if t.work = 2 then 2 else if recEpoch p.2 ≠ s.obj oPlacementEpoch then 3 else 1)) ∧
    ∀ j, j ∉ l.map (·.1) → (l.foldl (fun s p => s.endRecord t p.1 p.2 m) s).outcome j = s.outcome j := by
  induction l generalizing s with
  | nil => exact ⟨fun p hp => (by cases hp), fun _ _ => rfl⟩
  | cons a l ih =>
    obtain ⟨r1, r2, r3, r4⟩ := endRecord_frame (t := t) (i := a.1) (r := a.2) (m := m) h
    simp only [List.map_cons, List.nodup_cons] at n
    obtain ⟨i1, i2⟩ := ih r1 n.2
    simp only [List.foldl_cons]
    refine ⟨fun p hp => ?_, fun j hj => ?_⟩
    · rcases List.mem_cons.1 hp with rfl | hp
      · rw [i2 _ n.1, r3]
      · rw [i1 p hp, r2]
    · simp only [List.map_cons, List.mem_cons, not_or] at hj
      rw [i2 j hj.2, r4 j hj.1]

theorem noteTask_out {s : State} {a b c d e f g : Nat} : (s.noteTask a b c d e f g).sched = s.sched := by
  unfold State.noteTask; split
  · rfl
  · split <;> rfl

theorem count_out {s : State} {k : Nat} : (s.count k).sched = s.sched := addObj_out.2.1

theorem pushFallback_out {s : State} {a : Nat} : (s.pushFallback a).sched.outcomes = s.sched.outcomes := by
  unfold State.pushFallback; split
  · rfl
  · split
    · rw [count_out]
    · rfl

theorem noteAlways_out {s : State} {t : Machine.Task} : (s.noteAlways t).sched.outcomes = s.sched.outcomes := by
  unfold State.noteAlways
  dsimp only
  have k1 : ∀ x : State, (if t.flushed then (x.noteTask 0x0301 t.source t.unit t.record 0 0 0).count oFlushTasks else x).sched = x.sched := by
    intro x; split
    · rw [count_out, noteTask_out]
    · rfl
  rw [k1]
  split
  · rw [noteTask_out]; split <;> rfl
  · split <;> rfl

theorem noteDropped_out {s : State} {t : Machine.Task} {e : EventRec} : (s.noteDropped t e).sched.outcomes = s.sched.outcomes := by
  unfold State.noteDropped
  dsimp only
  split
  · exact congrArg _ noteTask_out
  · exact congrArg _ noteTask_out

theorem noteEnds_out {s : State} {t : Machine.Task} : (s.noteEnds t).sched.outcomes = s.sched.outcomes := by
  unfold State.noteEnds
  extract_lets first plain s1 s2 s3 s4
  have h1 : s1.sched.outcomes = s.sched.outcomes := by
    unfold s1
    split
    · exact noteDropped_out
    · rfl
  have h2 : s2.sched.outcomes = s1.sched.outcomes := by
    unfold s2 plain
    split
    · exact congrArg _ noteTask_out
    · rfl
  have h3 : s3.sched.outcomes = s2.sched.outcomes := by
    unfold s3
    split
    · exact congrArg _ count_out
    · rfl
  have h4 : s4.sched.outcomes = s3.sched.outcomes :=
    Pass.foldl (P := fun x : State => x.sched.outcomes = s3.sched.outcomes) rfl fun _ _ k => pushFallback_out.trans k
  have h := ((h4.trans h3).trans h2).trans h1
  split
  · exact h
  · split
    · split
      · exact h
      · exact h
    · exact h

theorem complete_frame {s : State} {t : Machine.Task} {q : TaskTiming} (h : Rising s.dict.objs)
    (n : (t.record :: t.members.map (·.1)).Nodup) : (s.complete t q).task? t.record = none ∧
      ∀ p ∈ (t.record, t.image) :: t.members, (s.complete t q).outcome p.1 =
        if t.work = 2 then 2 else if recEpoch p.2 ≠ s.obj oPlacementEpoch then 3 else 1 := by
  unfold State.complete
  dsimp only
  refine ⟨release_frame.1, fun p hp => ?_⟩
  obtain ⟨a1, a2, a3⟩ := addTiming_frame (q := q) h
  have e := (endAll_frame (t := t) (m := q.measured) (l := (t.record, t.image) :: t.members) a1 (by simpa using n)).1 p hp
  rw [a2] at e
  rw [← e]
  unfold State.outcome
  rw [release_frame.2.2.1]
  split
  · rw [noteEnds_out, noteAlways_out]; rfl
  · rw [noteAlways_out]; rfl

end Sys2Proof.Safety
end

