-- ==== Sys2Proof/Laws/Dictionary.lean ====
section
/-! SUPPORT. Writes to the dictionary by a path that may make them, and what a commit does. -/

namespace Sys2Proof.Safety

open Sys2Proof.Machine

theorem access_ok {s : State} {p : Path} {i sub : Nat} {d : ObjDef} (h : MayWrite s p i sub) (hd : objDef? i sub = some d)
    (ha : d.access ≠ .const) (hb : d.access ≠ .ro) : (access p i sub true).run s = .ok (stOk, some d) s := by
  unfold access
  have h1 := h.session
  have h2 := h.table
  simp [hd, ha, hb, h1, h2, bind, EStateM.bind, EStateM.run, get, getThe, MonadStateOf.get, EStateM.get, pure, EStateM.pure]

theorem writeObject_ok {s : State} {p : Path} {i sub : Nat} {d : ObjDef} {bytes : List Byte} (h : MayWrite s p i sub) (hd : objDef? i sub = some d)
    (ha : d.access ≠ .const) (hb : d.access ≠ .ro) (hz : sizeFits d bytes.length = true) (ht : d.ty = .bool → ofLe bytes ≤ 1) :
    (writeObject p i sub bytes).run s = (if sub = 0xFF then commitValue i (ofLe bytes) else match d.access with
      | .staged => do
        mod fun s => s.setPend (objKey i sub) (dropReserved (objKey i sub) (ofLe bytes))
        return stOk
      | .rw => do
        mod fun s => s.setObj (objKey i sub) (ofLe bytes)
        return stOk
      | _ => performWrite (objKey i sub) (ofLe bytes) bytes : M Nat).run s := by
  have e := access_ok h hd ha hb
  unfold writeObject
  show EStateM.bind (access p i sub true) _ s = _
  unfold EStateM.bind
  have e' : access p i sub true s = .ok (stOk, some d) s := e
  rw [e']
  dsimp only
  have hc : ¬ (d.ty = .bool ∧ 1 < ofLe bytes) := fun c => absurd (ht c.1) (by omega)
  simp only [hz, hc, Bool.not_true, Bool.false_eq_true, if_false]
  split
  · rfl
  · rfl

theorem windowOpen_of {s : State} {ide : Bool} (h : s.pathOpen (.host ide) = true) : s.windowOpen = true := by
  unfold State.pathOpen at h
  unfold State.windowOpen
  simp only [Bool.and_eq_true] at *
  exact ⟨⟨h.1.1, by simp [h.1.2]⟩, h.2⟩

/-- A write that the host makes is counted first, which changes one object. -/
theorem writeBy_obj {p : Path} {n : Nat} {s : State} (h : Rising s.dict.objs) {k : Nat} (hk : k ≠ oHostBytesIn) :
    (writeBy p n s).obj k = s.obj k := by
  cases p with
  | host _ => exact addObj_obj h hk
  | mgmt _ _ => rfl
  | core _ => rfl

theorem writeBy_rising {p : Path} {n : Nat} {s : State} (h : Rising s.dict.objs) : Rising (writeBy p n s).dict.objs := by
  cases p with
  | host _ => exact rising_addObj h
  | mgmt _ _ => exact h
  | core _ => exact h

theorem tookHost_eq (s : State) (n : Nat) :
    s.tookHost n = { s with dict := { s.dict with objs := (s.tookHost n).dict.objs } } := by
  unfold State.tookHost State.addObj
  split <;> rfl

theorem writeBy_eq (p : Path) (n : Nat) (s : State) :
    writeBy p n s = { s with dict := { s.dict with objs := (writeBy p n s).dict.objs } } := by
  cases p with
  | host _ => exact tookHost_eq s n
  | mgmt _ _ => rfl
  | core _ => rfl

/-- All but objects is as it was. -/
theorem writeBy_frame (p : Path) (n : Nat) (s : State) : (writeBy p n s).sched = s.sched ∧ (writeBy p n s).mem = s.mem ∧
    (writeBy p n s).sec = s.sec ∧ (writeBy p n s).resil = s.resil ∧ (writeBy p n s).num = s.num ∧
    (writeBy p n s).colls = s.colls ∧ (writeBy p n s).ports = s.ports ∧ (writeBy p n s).rst = s.rst ∧
    (writeBy p n s).dict.pend = s.dict.pend ∧ (writeBy p n s).dict.committed = s.dict.committed ∧
    (writeBy p n s).dict.log = s.dict.log := by
  rw [writeBy_eq]
  exact ⟨rfl, rfl, rfl, rfl, rfl, rfl, rfl, rfl, rfl, rfl, rfl⟩

/-- Counting it leaves the path's rights: the session it needs, and what the access tables grant. -/
theorem sessionOk_by {s : State} {p q : Path} {i : Nat} {w : Bool} (r : Rising s.dict.objs) (n : Nat) :
    (writeBy q n s).sessionOk p i w = s.sessionOk p i w := by
  have o : ∀ k, k ≠ oHostBytesIn → (writeBy q n s).obj k = s.obj k := fun k hk => writeBy_obj r hk
  obtain ⟨-, -, es, -⟩ := writeBy_frame q n s
  unfold State.sessionOk State.sessionsOf
  simp only [o oHostIdeRequired (by decide), o oMgmtSecureMode (by decide), es]

theorem tableOk_by {s : State} {p q : Path} {i sub : Nat} {w : Bool} (n : Nat) :
    (writeBy q n s).tableOk p i sub w = s.tableOk p i sub w := by
  obtain ⟨-, -, es, -⟩ := writeBy_frame q n s
  unfold State.tableOk
  have d : ∀ sect, (writeBy q n s).dictRights sect i = s.dictRights sect i := by
    intro sect
    unfold State.dictRights
    simp only [es]
  simp only [d]

theorem pathOpen_by {s : State} {p q : Path} (r : Rising s.dict.objs) (n : Nat) :
    (writeBy q n s).pathOpen p = s.pathOpen p := by
  have o : ∀ k, k ≠ oHostBytesIn → (writeBy q n s).obj k = s.obj k := fun k hk => writeBy_obj r hk
  obtain ⟨-, em, -, -, -, -, -, er, -⟩ := writeBy_frame q n s
  unfold State.pathOpen State.hostHolds
  simp only [o oHostLinkState (by decide), o oMgmtPortsUp (by decide), em, er]

theorem MayWrite.counted {s : State} {p : Path} {i sub : Nat} (h : MayWrite s p i sub) (r : Rising s.dict.objs) (n : Nat) :
    MayWrite (writeBy p n s) p i sub :=
  ⟨(pathOpen_by r n).trans h.open_, (sessionOk_by r n).trans h.session, (tableOk_by n).trans h.table⟩

/-- A write whose status is not of the kind BAR0 ignores does what the object does. -/
theorem pathWrite_any {s u : State} {p : Path} {i sub n : Nat} {bytes : List Byte} (h : MayWrite s p i sub)
    (e : (writeObject p i sub bytes).run (writeBy p bytes.length s) = .ok n u)
    (hn : n = stOk ∨ n = stValue ∨ n = stCommitRefused) : s.pathWrite p i sub bytes = .next u := by
  have ho := h.open_
  unfold State.pathWrite
  generalize ((objDef? i sub).map isScalarSlot).getD true = slot
  cases p with
  | host ide =>
    have e' : writeObject (.host ide) i sub bytes (s.tookHost bytes.length) = .ok n u := e
    have hw := windowOpen_of ho
    cases slot
    · simp only [hw, if_true, Bool.false_eq_true, if_false]
      unfold runDict
      simp only [bind, EStateM.bind, EStateM.run, e']
      rfl
    · simp only [if_true, ho]
      unfold runDict
      simp only [bind, EStateM.bind, EStateM.run, e', slotOutcome]
      rcases hn with rfl | rfl | rfl <;> rfl
  | mgmt port sec =>
    have e' : writeObject (.mgmt port sec) i sub bytes s = .ok n u := e
    simp only [ho, if_true]
    unfold runDict
    simp only [bind, EStateM.bind, EStateM.run, e']
    rfl
  | core v =>
    have e' : writeObject (.core v) i sub bytes s = .ok n u := e
    simp only [ho, if_true]
    unfold runDict
    simp only [bind, EStateM.bind, EStateM.run, e']
    rfl

theorem commitRow_ok {s : State} {p : Path} {g : Nat} {d : ObjDef} (r : Rising s.dict.objs) (h : MayWrite s p g 0xFF)
    (hd : objDef? g 0xFF = some d) (h2 : d.access = .wo) (h3 : d.size = 1) (h4 : d.ty ≠ .bool) :
    s.commitRow p g = .next ((writeBy p 1 s).commitGroup g).2 := by
  have e := writeObject_ok (bytes := [0x01]) (h.counted r 1) hd (by rw [h2]; decide) (by rw [h2]; decide)
    (by simp [sizeFits, h3]) (fun c => absurd c h4)
  have e2 : (commitValue g (ofLe [0x01])).run (writeBy p 1 s) =
      .ok (if ((writeBy p 1 s).commitGroup g).1 then stOk else stCommitRefused) ((writeBy p 1 s).commitGroup g).2 := by
    unfold commitValue
    simp only [show ofLe [0x01] = 1 from rfl, show ¬ (1 : Nat) = 0 by decide, if_false]
    rfl
  simp only [if_true] at e
  rw [e2] at e
  refine pathWrite_any h e ?_
  split <;> simp

theorem commitOutcome_frame {s : State} {g o : Nat} (h : Rising s.dict.objs) :
    (s.commitOutcome g o).obj oCommitResult = g <<< 16 + o ∧
    (∀ k, k ≠ oCommitResult → (s.commitOutcome g o).obj k = s.obj k) ∧
    (s.commitOutcome g o).dict.pend = s.dict.pend ∧ (s.commitOutcome g o).dict.committed = s.dict.committed ∧
    (s.commitOutcome g o).mem = s.mem ∧ (s.commitOutcome g o).ports = s.ports ∧ (s.commitOutcome g o).sched = s.sched ∧
    (s.commitOutcome g o).resil = s.resil ∧ (s.commitOutcome g o).sec = s.sec := by
  refine ⟨?_, fun k hk => ?_, rfl, rfl, rfl, rfl, rfl, rfl, rfl⟩
  · refine (obj_congr (s := s.setObj oCommitResult (g <<< 16 + o)) rfl _).trans ?_
    rw [obj_setObj h, if_pos rfl]
  · exact (obj_congr (s := s.setObj oCommitResult (g <<< 16 + o)) rfl _).trans (obj_setObj_ne h hk)

theorem refused_7110 (s : State) (vals : NatMap) :
    s.commitRefused 0x7110 vals = (s.tableRefusal (s.inSet vals oTableImage) != 0) := rfl

theorem refused_congr {s : State} {vals : NatMap} {v : Nat} (h : Rising s.dict.objs) :
    (s.setObj oTableRefuseCode v).commitRefused 0x7110 vals = s.commitRefused 0x7110 vals := by
  rw [refused_7110, refused_7110]
  unfold State.tableRefusal State.inSet
  rw [obj_setObj_ne h (by decide), obj_setObj_ne h (by decide), obj_setObj_ne h (by decide)]

set_option maxRecDepth 4000 in

theorem commit_defs (c : Instr) (p : Path) (g : Nat) (h : commitOf c = some (p, g)) :
    (∀ s, exec c s = s.commitRow p g) ∧ ∃ d, objDef? g 0xFF = some d ∧ isScalarSlot d = true ∧ d.access = .wo ∧ d.size = 1 ∧ d.ty ≠ .bool ∧ d.index ≠ 0x8020 := by
  cases c <;> first
    | (cases h; done)
    | (cases h; exact ⟨fun s => rfl, by decide⟩)

theorem refused_group {s : State} {g : Nat} (h : Rising s.dict.objs) (hr : s.commitRefused g (s.pendingSet g) = true) :
    (s.commitGroup g).2 = (if g = 0x7110 then s.setObj oTableRefuseCode (s.tableRefusal (s.inSet (s.pendingSet g) oTableImage)) else s).commitOutcome g 1 := by
  unfold State.commitGroup
  dsimp only
  by_cases c : g = 0x7110
  · subst c
    rw [if_pos rfl, refused_congr h, if_pos hr]
  · rw [if_neg c, if_pos hr]

/-- What counting dropped bytes changes. -/
theorem noteLate_frame {x : State} {tag absent position n : Nat} (h : Rising x.dict.objs) :
    Rising (x.noteLate tag absent position 0 n).dict.objs ∧ (x.noteLate tag absent position 0 n).dict.pend = x.dict.pend ∧
    (x.noteLate tag absent position 0 n).dict.committed = x.dict.committed ∧
    ∀ k, k ≠ oEventStalled → k ≠ oLateBytesDropped → (x.noteLate tag absent position 0 n).obj k = x.obj k := by
  have key : ∀ e : EventRec, Rising ((x.addObj oLateBytesDropped n).setTickEvent e).dict.objs ∧
      ((x.addObj oLateBytesDropped n).setTickEvent e).dict.pend = x.dict.pend ∧
      ((x.addObj oLateBytesDropped n).setTickEvent e).dict.committed = x.dict.committed ∧
      ∀ k, k ≠ oEventStalled → k ≠ oLateBytesDropped → ((x.addObj oLateBytesDropped n).setTickEvent e).obj k = x.obj k := by
    intro e
    refine ⟨rising_addObj h, ?_, ?_, fun k _ b => addObj_obj h b⟩
    · rw [State.setTickEvent_dict_pend]; unfold State.addObj; split <;> rfl
    · rw [State.setTickEvent_dict_committed]; unfold State.addObj; split <;> rfl
  unfold State.noteLate
  rw [show x.addObj oLateBytesCarried 0 = x from if_pos rfl]
  dsimp only
  split <;> exact key _

theorem acceptNow_frame {s : State} {g : Nat} {vals : NatMap} (h : Rising s.dict.objs) (n1 : g ≠ 0x5030) (n2 : g ≠ 0x7110) :
    Rising (s.acceptNow g vals).dict.objs ∧ (s.acceptNow g vals).dict.pend = s.dict.pend ∧
    (s.acceptNow g vals).dict.committed = s.dict.committed ∧
    ∀ k, k ≠ oEventStalled → k ≠ oLateBytesDropped → (s.acceptNow g vals).obj k = s.obj k := by
  unfold State.acceptNow
  split
  · dsimp only
    refine ⟨rising_setObj h, rfl, rfl, fun k a _ => ?_⟩
    exact (obj_congr (s := s.setObj oEventStalled 0) rfl k).trans (obj_setObj_ne h a)
  · exact ⟨h, rfl, rfl, fun _ _ _ => rfl⟩
  · exact ⟨h, rfl, rfl, fun _ _ _ => rfl⟩
  · unfold State.dropLate
    dsimp only
    split
    · exact ⟨h, rfl, rfl, fun _ _ _ => rfl⟩
    · rename_i hn
      exact noteLate_frame (x := { s with colls := { s.colls with debts := [], carried := [] } }) h
  · exact absurd rfl n1
  · exact absurd rfl n2
  · exact ⟨h, rfl, rfl, fun _ _ _ => rfl⟩

theorem pendingSet_find {s : State} {g k : Nat} (h : k ∈ groupMembers g) : mapFind (s.pendingSet g) k = some (s.pendObj k) := by
  unfold State.pendingSet
  generalize groupMembers g = l at h
  induction l with
  | nil => cases h
  | cons a l ih =>
    simp only [List.map_cons, mapFind]
    split
    · rename_i e; subst e; rfl
    · rename_i e
      rcases List.mem_cons.1 h with rfl | h
      · exact absurd rfl e
      · exact ih h

theorem pendingSet_keys {s : State} {g : Nat} : (s.pendingSet g).map (·.1) = groupMembers g := by
  unfold State.pendingSet
  rw [List.map_map]; exact List.map_id _

theorem setActive_pend {vals : NatMap} {s : State} : (s.setActive vals).dict.pend = s.dict.pend := by
  unfold State.setActive
  induction vals generalizing s with
  | nil => rfl
  | cons q l ih => exact ih

set_option maxRecDepth 8000 in

theorem members_5030 : (groupMembers 0x5030).Nodup ∧ oRestoreSource ∈ groupMembers 0x5030 := by decide +kernel
set_option maxRecDepth 8000 in

theorem members_7110 : (groupMembers 0x7110).Nodup ∧ oTableImage ∈ groupMembers 0x7110 := by decide +kernel
set_option maxRecDepth 8000 in

theorem inSet_7110 : oTableImage ∈ groupMembers 0x7110 := members_7110.2

theorem sends_parts {s t : State} (h : Sends s t) : t.resil = s.resil ∧ t.dict.pend = s.dict.pend := by
  have := h.frame
  simp only [sendFrame, Prod.mk.injEq] at this
  exact ⟨this.2.2.2.2.2.2.2.2.2.2.1, this.2.2.2.2.2.2.2.2.2.2.2.1⟩

theorem accept_5030 {s : State} {vals : NatMap} {v : Nat} (h : Rising s.dict.objs) (n : (vals.map (·.1)).Nodup)
    (f : mapFind vals oRestoreSource = some v) : Rising (s.acceptNow 0x5030 vals).dict.objs ∧
      (s.acceptNow 0x5030 vals).dict.pend = s.dict.pend ∧
      ∃ r, (s.acceptNow 0x5030 vals).resil.restore = some r ∧ r.got = [] ∧ r.source = v := by
  have e : s.acceptNow 0x5030 vals = (
    let y := (s.setActive vals).setObj oRestoreStatus 1
    let r : Restore := { source := y.obj oRestoreSource, slot := y.obj oRestoreSlot % 2 }
    let y := { y with resil := { y.resil with restore := some r } }
    if r.source = 0 ∧ y.twinned then y.sendTwin 2 r.slot 0x13 (leBytes 8 0 ++ leBytes 8 256) else y) := rfl
  rw [e]
  have r1 := setActive_rising (vals := vals) h
  have src : (s.setActive vals).obj oRestoreSource = v := setActive_some h n f
  generalize hy : (s.setActive vals).setObj oRestoreStatus 1 = y
  have ry : Rising y.dict.objs := by rw [← hy]; exact rising_setObj r1
  have sy : y.obj oRestoreSource = v := by
    rw [← hy, obj_setObj_ne r1 (by decide)]; exact src
  have py : y.dict.pend = s.dict.pend := by rw [← hy]; exact setActive_pend
  dsimp only
  split
  · have k := sendTwin_sends 2 (y.obj oRestoreSlot % 2) 0x13 (leBytes 8 0 ++ leBytes 8 256) (SendsOn.refl { y with resil := { y.resil with restore := some { source := y.obj oRestoreSource, slot := y.obj oRestoreSlot % 2 } } }) (fun _ _ => trivial)
    obtain ⟨k1, k2⟩ := sends_parts k
    refine ⟨(k.objs ry).1, k2.trans py, ⟨{ source := y.obj oRestoreSource, slot := y.obj oRestoreSlot % 2 }, ?_, rfl, sy⟩⟩
    rw [k1]
  · exact ⟨ry, py, ⟨_, rfl, rfl, sy⟩⟩

theorem accept_7110 {s : State} {vals : NatMap} {v : Nat} (h : Rising s.dict.objs) (n : (vals.map (·.1)).Nodup)
    (f : mapFind vals oTableImage = some v) : Rising (s.acceptNow 0x7110 vals).dict.objs ∧
      (s.acceptNow 0x7110 vals).dict.pend = s.dict.pend ∧ (s.acceptNow 0x7110 vals).obj oTableState = 1 ∧
      (s.acceptNow 0x7110 vals).sec.clearing = true ∧ (s.acceptNow 0x7110 vals).obj oTableImage = v := by
  have e : s.acceptNow 0x7110 vals = { (s.setActive vals).setObj oTableState 1 with sec := { s.sec with clearing := true } } := rfl
  rw [e]
  have r1 := setActive_rising (vals := vals) h
  have src : (s.setActive vals).obj oTableImage = v := setActive_some h n f
  refine ⟨rising_setObj r1, setActive_pend, ?_, rfl, ?_⟩
  · refine (obj_congr (s := (s.setActive vals).setObj oTableState 1) rfl _).trans ?_
    rw [obj_setObj r1, if_pos rfl]
  · refine (obj_congr (s := (s.setActive vals).setObj oTableState 1) rfl _).trans ?_
    rw [obj_setObj_ne r1 (by decide)]; exact src

theorem commitGroup_ok {s : State} {g : Nat} (h : Rising s.dict.objs) (hr : s.commitRefused g (s.pendingSet g) = false) :
    (s.commitGroup g).2 = (State.acceptNow (
      let s1 := if g = 0x7110 then s.setObj oTableRefuseCode (s.tableRefusal (s.inSet (s.pendingSet g) oTableImage)) else s
      if g ≠ 0x5030 ∧ g ≠ 0x7110 then
        { s1 with dict := { s1.dict with committed := s1.dict.committed.filter (·.group != g) ++ [⟨g, s.pendingSet g, s1.effectPoint g (s.pendingSet g)⟩] } }
      else s1) g (s.pendingSet g)).commitOutcome g 0 := by
  unfold State.commitGroup
  generalize hv : s.pendingSet g = vals at *
  dsimp only
  by_cases c : g = 0x7110
  · subst c
    simp only [if_true]
    rw [refused_congr h, hr]
    simp
  · simp only [c, if_false, hr, Bool.false_eq_true]
    by_cases c5 : g = 0x5030 <;> simp [c5, c]

theorem writeBy_sound {s : State} (p : Path) (n : Nat) (h : Sound s) : Sound (writeBy p n s) := by
  have r := writeBy_rising (p := p) (n := n) h.objs
  have e := writeBy_eq p n s
  generalize writeBy p n s = w at *
  rw [e]
  exact ⟨r, h.pend, h.cells, h.log, h.fallback, h.readies⟩

/-- The pending values are not the count of a write. -/
theorem pendingSet_by {p : Path} {n g : Nat} {s : State} : (writeBy p n s).pendingSet g = s.pendingSet g := by
  unfold State.pendingSet State.pendObj
  rw [(writeBy_frame p n s).2.2.2.2.2.2.2.2.1]

/-- Nor does whether a commit is refused depend on it. -/
theorem commitRefused_by {p : Path} {n g : Nat} {s : State} {vals : NatMap} (r : Rising s.dict.objs) :
    (writeBy p n s).commitRefused g vals = s.commitRefused g vals := by
  have o : ∀ k, k ≠ oHostBytesIn → (writeBy p n s).obj k = s.obj k := fun k hk => writeBy_obj r hk
  obtain ⟨-, em, -⟩ := writeBy_frame p n s
  generalize writeBy p n s = t at *
  have l : ∀ p, t.link p = s.link p := fun p => o _ (by unfold oLinkState oHostBytesIn; simp [objKey]; omega)
  have i : ∀ k, k ≠ oHostBytesIn → t.inSet vals k = s.inSet vals k := fun k hk => by unfold State.inSet; rw [o k hk]
  have rg : t.regionIn = s.regionIn := by funext a b c; unfold State.regionIn State.entry; rw [em]
  have rn : t.running = s.running := by unfold State.running; rw [o _ (by decide)]
  have tr : t.tableRefusal = s.tableRefusal := by funext a; unfold State.tableRefusal; rw [o _ (by decide), o _ (by decide)]
  have sp : span 0x231001 8 = [0x231001, 0x231002, 0x231003, 0x231004, 0x231005, 0x231006, 0x231007, 0x231008] := by decide
  unfold State.commitRefused
  simp only [l, rg, rn, tr, em, sp, List.any_cons, List.any_nil]
  split
  all_goals first | with_reducible rfl | simp (disch := decide) only [i, o] | rfl

theorem effectPoint_by {p : Path} {n g : Nat} {s : State} {vals : NatMap} (r : Rising s.dict.objs) :
    (writeBy p n s).effectPoint g vals = s.effectPoint g vals := by
  have i : ∀ k, k ≠ oHostBytesIn → (writeBy p n s).inSet vals k = s.inSet vals k := fun k hk => by
    unfold State.inSet; rw [writeBy_obj r hk]
  unfold State.effectPoint
  simp (disch := decide) only [i]

end Sys2Proof.Safety
end

