-- ==== Sys2Proof/Laws/Writes.lean ====
section
/-! SUPPORT. Writes of one object by a path that may make them: what the object does then, and what a discard does. -/

namespace Sys2Proof.Safety

open Sys2Proof.Machine

theorem ofLe_leBytes (n v : Nat) : ofLe (leBytes n v) = v % 256 ^ n := by
  induction n generalizing v with
  | zero => simp [leBytes, ofLe, Nat.mod_one]
  | succ n ih =>
    have e : ofLe (leBytes (n + 1) v) = v % 256 + 256 * (v / 256 % 256 ^ n) := by
      rw [leBytes, ofLe, ih, BitVec.toNat_ofNat]
    rw [e, Nat.pow_add_one, Nat.mul_comm (256 ^ n) 256, Nat.mod_mul]

theorem length_leBytes (n v : Nat) : (leBytes n v).length = n := by
  induction n generalizing v with
  | zero => rfl
  | succ n ih => simp [leBytes, ih]

/-- A write of a wo object that is no commit does what the object does. -/

theorem pathWrite_wo {s u : State} {p : Path} {i sub n : Nat} {d : ObjDef} {bytes : List Byte} (r : Rising s.dict.objs)
    (h : MayWrite s p i sub)
    (hd : objDef? i sub = some d) (ha : d.access = .wo) (hz : sizeFits d bytes.length = true) (ht : d.ty ≠ .bool)
    (hs : sub ≠ 0xFF)
    (e : (performWrite (objKey i sub) (ofLe bytes) bytes).run (writeBy p bytes.length s) = .ok n u)
    (hn : n = stOk ∨ n = stValue ∨ n = stCommitRefused) : s.pathWrite p i sub bytes = .next u := by
  refine pathWrite_any h ?_ hn
  rw [writeObject_ok (h.counted r _) hd (by rw [ha]; decide) (by rw [ha]; decide) hz (fun c => absurd c ht), if_neg hs, ha]
  exact e

theorem any_creation {l : List AllocReq} : (l.any fun q => match q with
    | .creation _ => true
    | _ => false) = true ↔ ∃ d, AllocReq.creation d ∈ l := by
  rw [List.any_eq_true]
  constructor
  · rintro ⟨x, hx, e⟩; cases x <;> first | exact ⟨_, hx⟩ | cases e
  · rintro ⟨d, hd⟩; exact ⟨_, hd, rfl⟩

theorem any_request {s : State} : s.requestPending = true ↔ ∃ d, AllocReq.request d ∈ s.mem.queue := by
  unfold State.requestPending
  rw [List.any_eq_true]
  constructor
  · rintro ⟨x, hx, e⟩; cases x <;> first | exact ⟨_, hx⟩ | cases e
  · rintro ⟨d, hd⟩; exact ⟨_, hd, rfl⟩

theorem addObj_self {s : State} {k n : Nat} (h : Rising s.dict.objs) (hn : n ≠ 0) :
    (s.addObj k n).obj k = (s.obj k + n) % 2 ^ (8 * objSize k) := by
  unfold State.addObj
  rw [if_neg hn, obj_setObj h, if_pos rfl]

set_option maxRecDepth 8000 in

theorem request_defs : (∃ d, objDef? 0x2180 1 = some d ∧ d.access = .wo ∧ sizeFits d 8 = true ∧ d.ty ≠ .bool) ∧
  (∃ d, objDef? 0x2101 1 = some d ∧ d.access = .wo ∧ sizeFits d 16 = true ∧ d.ty ≠ .bool) ∧
  (∃ d, objDef? 0x2102 1 = some d ∧ d.access = .wo ∧ sizeFits d 8 = true ∧ d.ty ≠ .bool) ∧
  (∃ d, objDef? 0x2601 2 = some d ∧ d.access = .wo ∧ sizeFits d 1 = true ∧ d.ty ≠ .bool) ∧
  (∃ d, objDef? 0x7000 3 = some d ∧ d.access = .wo ∧ sizeFits d 1 = true ∧ d.ty ≠ .bool) ∧
  (∃ d, objDef? 0x7100 2 = some d ∧ d.access = .wo ∧ sizeFits d 1 = true ∧ d.ty ≠ .bool) ∧
  (∃ d, objDef? 0x8000 1 = some d ∧ d.access = .wo ∧ sizeFits d 1 = true ∧ d.ty ≠ .bool) ∧
  (∃ d, objDef? 0x8001 1 = some d ∧ d.access = .wo ∧ sizeFits d 2 = true ∧ d.ty ≠ .bool) ∧
  (∃ d, objDef? 0x8001 2 = some d ∧ d.access = .wo ∧ sizeFits d 1 = true ∧ d.ty ≠ .bool) ∧
  (∃ d, objDef? 0x8010 1 = some d ∧ d.access = .wo ∧ sizeFits d 2 = true ∧ d.ty ≠ .bool) ∧
  (∃ d, objDef? 0x5040 1 = some d ∧ d.access = .wo ∧ sizeFits d 1 = true ∧ d.ty ≠ .bool) ∧
  objSize oDescriptorRequestsIgnored = 8 ∧ objSize oAllocRequestsIgnored = 8 := by decide +kernel

/-- The commands that write a fixed number of bytes to a wo object. -/

theorem write_row {s u : State} {p : Path} {i sub w n v : Nat} (r : Rising s.dict.objs) (h : MayWrite s p i sub)
    (hd : ∃ d, objDef? i sub = some d ∧ d.access = .wo ∧ sizeFits d w = true ∧ d.ty ≠ .bool) (hs : sub ≠ 0xFF)
    (e : (performWrite (objKey i sub) (v % 256 ^ w) (leBytes w v)).run (writeBy p w s) = .ok n u)
    (hn : n = stOk ∨ n = stValue ∨ n = stCommitRefused) : s.pathWrite p i sub (leBytes w v) = .next u := by
  obtain ⟨d, h1, h2, h3, h4⟩ := hd
  refine pathWrite_wo r h h1 h2 (by rw [length_leBytes]; exact h3) h4 hs ?_ hn
  rw [ofLe_leBytes, length_leBytes]; exact e

theorem raiseFloor_1 {s : State} (h : s.floorOf 1 < s.obj oFirmwareVersion % 65536) (l : s.sec.fwFloors.length < 3) :
    s.raiseFloor 1 = some (State.refreshMeasurements { s.setObj oRollbackFloorFw (s.obj oFirmwareVersion % 65536) with
      sec := { s.sec with fwFloors := s.sec.fwFloors ++ [s.obj oFirmwareVersion % 65536] } }) := by
  unfold State.raiseFloor State.runningVersion
  simp only [if_true, show ¬ ((1:Nat) ≠ 1 ∧ (1:Nat) ≠ 2) by decide, if_false]
  rw [if_neg (by omega)]

theorem raiseFloor_2 {s : State} (h : s.floorOf 2 < s.sec.hubVersion) (l : s.sec.hubFloors.length < 3) :
    s.raiseFloor 2 = some (State.refreshMeasurements { s.setObj oRollbackFloorHub s.sec.hubVersion with
      sec := { s.sec with hubFloors := s.sec.hubFloors ++ [s.sec.hubVersion] } }) := by
  unfold State.raiseFloor State.runningVersion
  simp only [show ¬ ((2:Nat) = 1) by decide, show ¬ ((2:Nat) ≠ 1 ∧ (2:Nat) ≠ 2) by decide, if_false]
  rw [if_neg (by omega)]

theorem raiseFloor_none {s : State} {v : Nat} (h1 : v ≠ 1 ∨ s.obj oFirmwareVersion % 65536 ≤ s.floorOf 1 ∨ 3 ≤ s.sec.fwFloors.length)
    (h2 : v ≠ 2 ∨ s.sec.hubVersion ≤ s.floorOf 2 ∨ 3 ≤ s.sec.hubFloors.length) : s.raiseFloor v = none := by
  unfold State.raiseFloor State.runningVersion
  split
  · rfl
  · have hv : v = 1 ∨ v = 2 := by omega
    rcases hv with rfl | rfl
    · simp only [if_true]
      rw [if_pos (by omega)]
    · simp only [show ¬ ((2:Nat) = 1) by decide, if_false]
      rw [if_pos (by omega)]

/-- A field of two bits reads as it was set. -/

theorem setField_reads (x n l : Nat) (h : l < 4) : setField x (2 * n + 1) (2 * n) l / 4 ^ n % 4 = l := by
  have e : 2 * n + 1 + 1 - 2 * n = 2 := by omega
  have p : 2 ^ (2 * n) = 4 ^ n := by rw [Nat.pow_mul]
  unfold setField field
  rw [e]
  simp only [Nat.shiftRight_eq_div_pow, Nat.shiftLeft_eq, p, show (2:Nat) ^ 2 = 4 from rfl, Nat.mod_eq_of_lt h]
  have hp : 0 < 4 ^ n := Nat.pow_pos (by decide)
  generalize 4 ^ n = k at *
  have a : x / k % 4 * k ≤ x := Nat.le_trans (Nat.mul_le_mul_right _ (Nat.mod_le _ _)) (Nat.div_mul_le_self _ _)
  rw [Nat.add_mul_div_right _ _ hp]
  have b : (x - x / k % 4 * k) / k = x / k - x / k % 4 := by
    rw [Nat.mul_comm]
    exact Nat.sub_mul_div_of_le _ _ _ (by rw [Nat.mul_comm]; exact a)
  rw [b]
  omega

/-- The other fields of two bits stay. -/
theorem setField_others (x m l n : Nat) (h : l < 4) (ne : n ≠ m) :
    setField x (2 * m + 1) (2 * m) l / 4 ^ n % 4 = x / 4 ^ n % 4 := by
  have e : 2 * m + 1 + 1 - 2 * m = 2 := by omega
  have p : 2 ^ (2 * m) = 4 ^ m := by rw [Nat.pow_mul]
  unfold setField field
  rw [e]
  simp only [Nat.shiftRight_eq_div_pow, Nat.shiftLeft_eq, p, show (2:Nat) ^ 2 = 4 from rfl, Nat.mod_eq_of_lt h]
  have hp : 0 < 4 ^ m := Nat.pow_pos (by decide)
  have hx : x = x / 4 ^ m / 4 * (4 * 4 ^ m) + x / 4 ^ m % 4 * 4 ^ m + x % 4 ^ m := by
    have a := Nat.div_add_mod x (4 ^ m)
    have b := Nat.div_add_mod (x / 4 ^ m) 4
    calc x = 4 ^ m * (x / 4 ^ m) + x % 4 ^ m := a.symm
      _ = 4 ^ m * (4 * (x / 4 ^ m / 4) + x / 4 ^ m % 4) + x % 4 ^ m := by rw [b]
      _ = _ := by rw [Nat.mul_add]; congr 2 <;> ac_rfl
  have hr : x % 4 ^ m < 4 ^ m := Nat.mod_lt _ hp
  have hd : x / 4 ^ m % 4 < 4 := Nat.mod_lt _ (by decide)
  generalize x % 4 ^ m = r at *
  generalize x / 4 ^ m % 4 = d at *
  generalize x / 4 ^ m / 4 = a at *
  have hy : x - d * 4 ^ m + l * 4 ^ m = a * (4 * 4 ^ m) + l * 4 ^ m + r := by omega
  rw [hy]
  rcases Nat.lt_or_gt_of_ne ne with c | c
  · obtain ⟨j, rfl⟩ : ∃ j, m = n + 1 + j := ⟨m - n - 1, by omega⟩
    rw [← Nat.mod_mul_right_div_self, ← Nat.mod_mul_right_div_self x]
    have q : ∀ z, (a * (4 * 4 ^ (n + 1 + j)) + z * 4 ^ (n + 1 + j) + r) % (4 ^ n * 4) = r % (4 ^ n * 4) := by
      intro z
      have : a * (4 * 4 ^ (n + 1 + j)) + z * 4 ^ (n + 1 + j) + r = r + 4 ^ n * 4 * (a * 4 * 4 ^ j + z * 4 ^ j) := by
        rw [Nat.pow_add, Nat.pow_add, Nat.mul_add]; simp only [Nat.pow_one]; rw [Nat.add_comm _ r]
        congr 2 <;> ac_rfl
      rw [this, Nat.add_mul_mod_self_left]
    rw [q l, hx, q d]
  · obtain ⟨j, rfl⟩ : ∃ j, n = m + 1 + j := ⟨n - m - 1, by omega⟩
    have hq : 0 < 4 * 4 ^ m := by omega
    have q : ∀ z, z < 4 → (a * (4 * 4 ^ m) + z * 4 ^ m + r) / (4 * 4 ^ m) = a := by
      intro z hz
      rw [Nat.add_assoc, Nat.mul_comm a, Nat.mul_add_div hq, Nat.div_eq_of_lt, Nat.add_zero]
      have : z * 4 ^ m ≤ 3 * 4 ^ m := Nat.mul_le_mul_right _ (by omega)
      omega
    have s4 : 4 ^ (m + 1 + j) = 4 * 4 ^ m * 4 ^ j := by rw [Nat.pow_add, Nat.pow_add]; simp only [Nat.pow_one]; ac_rfl
    rw [s4, ← Nat.div_div_eq_div_mul, q l h, hx, ← Nat.div_div_eq_div_mul, q d hd]

theorem field_lt {x hi lo : Nat} : field x hi lo < 2 ^ (hi + 1 - lo) := Nat.mod_lt _ (Nat.pow_pos (by decide))

theorem field_mod {v hi lo w : Nat} (h : hi + 1 ≤ w) : field (v % 2 ^ w) hi lo = field v hi lo := by
  unfold field
  by_cases c : lo ≤ hi + 1
  · have e : v % 2 ^ w / 2 ^ lo % 2 ^ (hi + 1 - lo) = v / 2 ^ lo % 2 ^ (hi + 1 - lo) := by
      have p : 2 ^ w = 2 ^ lo * 2 ^ (w - lo) := by rw [← Nat.pow_add]; congr 1; omega
      rw [p, Nat.mod_mul_right_div_self]
      exact Nat.mod_mod_of_dvd _ (Nat.pow_dvd_pow 2 (by omega))
    simpa only [Nat.shiftRight_eq_div_pow] using e
  · have : hi + 1 - lo = 0 := by omega
    simp [this, Nat.mod_one]

theorem pend_setPend {s : State} {key k v : Nat} (_ : Rising s.dict.pend) :
    (s.setPend key v).pendObj k = if k = key then v else s.pendObj k := by
  show (mapFind (mapPut (objDefault key) s.dict.pend key v) k).getD (objDefault k) = _
  by_cases e : k = key
  · subst e
    rw [if_pos rfl]
    exact (mapGet_mapPut (d := objDefault k)).trans (if_pos rfl)
  · rw [if_neg e]
    unfold mapPut State.pendObj
    split
    · rw [mapFind_mapErase, if_neg e]
    · rw [mapFind_mapInsert, if_neg e]

theorem discard_fold (v : State → Nat → Nat) (hv : ∀ x y : State, y.dict.objs = x.dict.objs → y.num = x.num → v y = v x)
    (l : List Nat) (s : State) (h : Rising s.dict.pend) :
    (l.foldl (fun s k => s.setPend k (v s k)) s) = { s with dict := { s.dict with pend := (l.foldl (fun s k => s.setPend k (v s k)) s).dict.pend } } ∧
    ∀ j, (l.foldl (fun s k => s.setPend k (v s k)) s).pendObj j = if j ∈ l then v s j else s.pendObj j := by
  induction l generalizing s with
  | nil => exact ⟨rfl, fun j => by simp⟩
  | cons a l ih =>
    have hr : Rising (s.setPend a (v s a)).dict.pend := rising_mapPut h
    obtain ⟨i1, i2⟩ := ih (s.setPend a (v s a)) hr
    refine ⟨?_, fun j => ?_⟩
    · rw [List.foldl_cons]; exact i1
    · rw [List.foldl_cons, i2 j, hv s (s.setPend a (v s a)) rfl rfl, pend_setPend h]
      by_cases c1 : j ∈ l
      · simp [c1]
      · by_cases c2 : j = a
        · simp [c2]
        · simp [c1, c2]

end Sys2Proof.Safety
end

