-- ==== Sys2Proof/Laws/BlockResets.lean ====
section
/-! SUPPORT. Resets of one block, and an image pushed in Dawn. -/

namespace Sys2Proof.Safety

open Sys2Proof.Machine

/-- What a transfer that may be part-way leaves: all but the free values and whether the mesh goes on. -/
theorem mayStick_frame (s : State) (b : Bool) : ∃ n m, s.mayStick b = { s with freeCtr := n, rst := { s.rst with meshStuck := m } } ∧
    (b = false → m = s.rst.meshStuck) := by
  unfold State.mayStick
  cases b
  · exact ⟨s.freeCtr, s.rst.meshStuck, rfl, fun _ => rfl⟩
  · exact ⟨_, _, rfl, fun c => by cases c⟩

theorem strand_none {l : List Machine.Task} {n : Nat} (h : ∀ x ∈ l, x.onTile n = false) : l.map (Task.strand n) = l := by
  refine (List.map_congr_left fun x hx => ?_).trans (List.map_id l)
  unfold Task.strand
  rw [h x hx]; rfl

theorem resetTile_frame (s : State) (n : Nat) : (s.resetTile n).dict = s.dict ∧
    (s.resetTile n).num.arrays = mapErase s.num.arrays n ∧ (s.resetTile n).num.sticky = mapErase s.num.sticky n ∧
    (s.resetTile n).mem.tcaches = mapErase s.mem.tcaches n ∧
    (s.resetTile n).sched = { s.sched with tasks := s.sched.tasks.map (Task.strand n) } ∧
    ((∀ x ∈ s.sched.tasks, x.onTile n = false) → (s.resetTile n).rst.meshStuck = s.rst.meshStuck) := by
  unfold State.resetTile
  extract_lets hit x y
  have sx : Scrambles s x := scrambles_fold _ _ (.refl s)
  obtain ⟨m, v, e, f⟩ := mayStick_frame x (!hit.isEmpty)
  have hy : y = (x.mayStick (!hit.isEmpty)).clearSram (· == n) := rfl
  have hh : (∀ x ∈ s.sched.tasks, x.onTile n = false) → (!hit.isEmpty) = false := by
    intro k
    have : hit = [] := List.filter_eq_nil_iff.2 fun a ha => by rw [k a ha]; decide
    rw [this]; rfl
  clear_value hit x y
  rw [e] at hy
  obtain ⟨q1, q2, q3, q4, rfl⟩ := sx
  subst hy
  exact ⟨rfl, rfl, rfl, rfl, rfl, fun k => f (hh k)⟩

theorem perform_tile {s : State} {v : Nat} {bytes : List Byte} : (performWrite (objKey 0x8001 1) v bytes).run s = .ok stOk
    (if v < 2048 then (s.resetTile v).recordReset 7 3 else s) := by
  have e : objKey 0x8001 1 = 0x800101 := rfl
  rw [e]
  unfold performWrite
  dsimp only [bind, EStateM.bind, EStateM.run, get, getThe, MonadStateOf.get, EStateM.get]
  by_cases c : v < 2048
  · rw [if_pos c, if_pos c]; rfl
  · rw [if_neg c, if_neg c]; rfl

theorem perform_port {s : State} {v : Nat} {bytes : List Byte} : (performWrite (objKey 0x8001 2) v bytes).run s = .ok stOk
    (if v < 32 then (s.resetPort v).recordReset 8 3 else s) := by
  have e : objKey 0x8001 2 = 0x800102 := rfl
  rw [e]
  unfold performWrite
  dsimp only [bind, EStateM.bind, EStateM.run, get, getThe, MonadStateOf.get, EStateM.get]
  by_cases c : v < 32
  · rw [if_pos c, if_pos c]; rfl
  · rw [if_neg c, if_neg c]; rfl

theorem record_frame {y : State} {n l : Nat} (h : Rising y.dict.objs) : (y.recordReset n l).obj oResetCause = n <<< 8 + l ∧
    (y.recordReset n l).obj oResetCount = (y.obj oResetCount + 1) % 2 ^ 32 ∧
    ∀ k, k ≠ oResetCause → k ≠ oResetCount → (y.recordReset n l).obj k = y.obj k := by
  unfold State.recordReset
  have r1 := rising_setObj (k := oResetCause) (v := n <<< 8 + l) h
  refine ⟨?_, ?_, fun k a b => ?_⟩
  · rw [obj_setObj_ne r1 (by decide), obj_setObj h, if_pos rfl]
  · rw [obj_setObj r1, if_pos rfl]
  · rw [obj_setObj_ne r1 b, obj_setObj_ne h a]

theorem record_parts (y : State) (n l : Nat) : (y.recordReset n l).num = y.num ∧ (y.recordReset n l).mem = y.mem ∧
    (y.recordReset n l).sched = y.sched ∧ (y.recordReset n l).dict.log = y.dict.log := ⟨rfl, rfl, rfl, rfl⟩

/-- What the reset of a tile leaves. -/
theorem tile_record {s : State} {n : Nat} (h : Rising s.dict.objs) : let t := (s.resetTile n).recordReset 7 3
    t.obj oResetCause = 0x0703 ∧ t.obj oResetCount = (s.obj oResetCount + 1) % 2 ^ 32 ∧ t.num.arrays = mapErase s.num.arrays n ∧
    t.num.sticky = mapErase s.num.sticky n ∧ t.mem.tcaches = mapErase s.mem.tcaches n ∧
    (∀ x ∈ s.sched.tasks, (recKind x.image = 1 ∨ recKind x.image = 2) → x.runs n = true →
      ∃ y ∈ t.sched.tasks, y.record = x.record ∧ y.stuck = true ∧ y.undef = true) ∧
    ((∀ x ∈ s.sched.tasks, x.onTile n = false) → t.rst.meshStuck = s.rst.meshStuck ∧ t.sched = s.sched) := by
  obtain ⟨e1, e2, e3, e4, e5, e6⟩ := resetTile_frame s n
  generalize s.resetTile n = y at *
  have r : Rising y.dict.objs := by rw [e1]; exact h
  obtain ⟨f1, f2, -⟩ := record_frame (n := 7) (l := 3) r
  rw [obj_congr (s := s) (t := y) (by rw [e1]) oResetCount] at f2
  intro t
  refine ⟨f1, f2, e2, e3, e4, fun x hx hk hr => ?_, fun k => ⟨e6 k, ?_⟩⟩
  · refine ⟨Task.strand n x, ?_, ?_⟩
    · show _ ∈ y.sched.tasks
      rw [e5]; exact List.mem_map_of_mem hx
    · have o : x.onTile n = true := by
        unfold Task.onTile
        rcases hk with k | k <;> simp [k, hr]
      unfold Task.strand
      rw [if_pos o]; exact ⟨rfl, rfl, rfl⟩
  · show y.sched = _
    rw [e5, strand_none k]

/-- What the reset of a port leaves. -/
theorem port_record {s : State} {n : Nat} (h : Rising s.dict.objs) (hv : n < 32) (hl : s.link n = 4) : let t := (s.resetPort n).recordReset 8 3
    t.obj oResetCause = 0x0803 ∧ t.obj oResetCount = (s.obj oResetCount + 1) % 2 ^ 32 ∧
        t.link n = bitOf (flag (s.obj oPortEnable) n) ∧ t.obj (oLastDownCause n) = 5 ∧
        t.dict.log.getLast? = some ⟨s.obj oEventSeqNext, s.tick, 0x0601, 0x05, n, 0, n, 5,
          s.obj (oPeerRank n), 0⟩ ∧ (s.crossing n = false → t.rst = s.rst) := by
  unfold State.resetPort
  obtain ⟨q, m, e, f⟩ := mayStick_frame s (s.crossing n)
  have st : ¬(s.link n = 1 ∧ s.portAfterReset n = 1) := by rw [hl]; rintro ⟨a, -⟩; exact absurd a (by decide)
  generalize hx : s.mayStick (s.crossing n) = u at *
  have ho : ∀ k, u.obj k = s.obj k := fun k => by rw [e]; rfl
  have hul : u.link n = s.link n := ho _
  have hut : u.tick = s.tick := ho _
  have hr : Rising u.dict.objs := by rw [e]; exact h
  obtain ⟨f1, f2, f3, f4⟩ := linkDown_frame (cause := 5) (st := s.portAfterReset n) hr hv (by rw [hul, hl]; decide) (by rw [hul]; exact st)
  have f3 := f3 (by rw [hul, hl]; decide)
  have f4 := f4 (.inl (by rw [hul, hl]))
  rw [if_neg (by rintro ⟨-, c | c⟩ <;> exact absurd c (by decide))] at f3 f4
  rw [ho, hut, ho] at f4
  have fr := linkDown_rst u n (s.portAfterReset n) 5
  generalize u.linkDown n (s.portAfterReset n) 5 = x at *
  obtain ⟨g1, g3, g2⟩ := record_frame (n := 8) (l := 3) f1.rising
  have ne : ∀ b, b < 256 → objKey (0x4010 + n) b ≠ oResetCause ∧ objKey (0x4010 + n) b ≠ oResetCount := by
    intro b hb
    exact ⟨objKey_ne (c := 0x8000) (d := 2) hb (by decide) (by omega), objKey_ne (c := 0x8000) (d := 3) hb (by decide) (by omega)⟩
  have k1 := g2 (oLinkState n) (ne 1 (by decide)).1 (ne 1 (by decide)).2
  have k2 := g2 (oLastDownCause n) (ne 5 (by decide)).1 (ne 5 (by decide)).2
  have k3 := (record_parts x 8 3).2.2.2
  have k4 : (x.recordReset 8 3).rst = x.rst := rfl
  have cc : x.obj oResetCount = s.obj oResetCount :=
    (f1.objs _ (not_down (a := 0x8000) (b := 3) hv (by decide) (by decide) (by decide) (by decide) (by decide) (.inl (by omega)))).trans (ho _)
  rw [cc] at g3
  dsimp only
  generalize x.recordReset 8 3 = y at *
  refine ⟨g1, g3, k1.trans f2, k2.trans f3, by rw [k3]; exact f4, fun c => ?_⟩
  rw [k4, fr, e]
  dsimp only
  rw [f c]

theorem access_may {s : State} {p : Path} {i sub : Nat} {d : ObjDef} (h1 : s.sessionOk p i true = true) (h2 : s.tableOk p i sub true = true)
    (hd : objDef? i sub = some d) (ha : d.access ≠ .const) (hb : d.access ≠ .ro) : (access p i sub true).run s = .ok (stOk, some d) s := by
  unfold access
  simp [hd, ha, hb, h1, h2, bind, EStateM.bind, EStateM.run, get, getThe, MonadStateOf.get, EStateM.get, pure, EStateM.pure]

set_option maxRecDepth 8000 in

theorem push_def : ∃ d, objDef? 0x8020 1 = some d ∧ isScalarSlot d = false ∧ d.access = .wo ∧ d.size = 67125968 ∧ d.ty ≠ .bool ∧ d.index = 0x8020 := by
  decide +kernel

theorem push_run {s : State} {ide : Bool} {bytes : List Byte} (r : Rising s.dict.objs) (hw : s.windowOpen = true)
    (h1 : s.sessionOk (.host ide) 0x8020 true = true)
    (h2 : s.tableOk (.host ide) 0x8020 1 true = true) (hl : bytes.length ≤ 67125968) :
    exec (.firmwarePush (.host ide) bytes) s = .next ((s.tookHost bytes.length).pushAndGo bytes) := by
  obtain ⟨d, d1, d2, d3, d4, d5, d6⟩ := push_def
  have k1 : (s.tookHost bytes.length).sessionOk (.host ide) 0x8020 true = true :=
    (sessionOk_by (q := .host ide) r bytes.length).trans h1
  have k2 : (s.tookHost bytes.length).tableOk (.host ide) 0x8020 1 true = true :=
    (tableOk_by (q := .host ide) bytes.length).trans h2
  have w : (writeObject (.host ide) 0x8020 1 bytes) (s.tookHost bytes.length) =
      .ok stOk ((s.tookHost bytes.length).pushAndGo bytes) := by
    generalize s.tookHost bytes.length = t at *
    have e := access_may k1 k2 d1 (by rw [d3]; decide) (by rw [d3]; decide)
    unfold writeObject
    show EStateM.bind (access (.host ide) 0x8020 1 true) _ t = _
    unfold EStateM.bind
    have e' : access (.host ide) 0x8020 1 true t = .ok (stOk, some d) t := e
    rw [e']
    dsimp only
    have hz : sizeFits d bytes.length = true := by simp [sizeFits, d6, d4, hl]
    have hc : ¬ (d.ty = .bool ∧ 1 < ofLe bytes) := fun c => d5 c.1
    simp only [hz, hc, Bool.not_true, Bool.false_eq_true, if_false, show ¬ (1 : Nat) = 0xFF by decide, d3]
    have ek : objKey 0x8020 1 = 0x802001 := rfl
    rw [ek]
    unfold performWrite
    dsimp only [bind, EStateM.bind, get, getThe, MonadStateOf.get, EStateM.get]
    rfl
  show s.pathWrite (.host ide) 0x8020 1 bytes = _
  unfold State.pathWrite
  simp only [d1, Option.map_some, Option.getD_some, d2, Bool.false_eq_true, if_false, hw, if_true]
  unfold runDict
  simp only [bind, EStateM.bind, EStateM.run, w]
  rfl

end Sys2Proof.Safety
end

