-- ==== Sys2Proof/Laws/FarDown.lean ====
section
/-! SUPPORT. What the loss of a far port, the host link, or the fabric's clock changes. -/

namespace Sys2Proof.Safety

open Sys2Proof.Machine

theorem byte_set {h q x v : Nat} (hh : h < 4) (hq : q < 4) (hv : v < 256) :
    field (setField x (8 * h + 7) (8 * h) v) (8 * q + 7) (8 * q) = if q = h then v else field x (8 * q + 7) (8 * q) := by
  have h1 : h = 0 ∨ h = 1 ∨ h = 2 ∨ h = 3 := by omega
  have h2 : q = 0 ∨ q = 1 ∨ q = 2 ∨ q = 3 := by omega
  rcases h1 with e | e | e | e <;> rcases h2 with e2 | e2 | e2 | e2 <;> subst e <;> subst e2 <;>
    simp [setField, field, Nat.shiftLeft_eq, Nat.shiftRight_eq_div_pow] <;> omega

/-- The objects that the loss of an expander changes. -/
def farObjs (k : Nat) : Prop := k ∈ workObjs ∨ k ∈ pageObjs ∨ k = oFarLinkState ∨ k = oSpdmSessions

theorem mapFind_put_ne {β : Type} [DecidableEq β] {d v : β} {m : List (Nat × β)} {k j : Nat} (n : j ≠ k) :
    mapFind (mapPut d m k v) j = mapFind m j := by
  unfold mapPut
  split
  · rw [mapFind_mapErase, if_neg n]
  · rw [mapFind_mapInsert, if_neg n]

theorem losePort_pages {s0 s : State} (h : Nat) (h_s : Pages s0 s) : Pages s0 (s.losePort h) := by
  unfold State.losePort
  extract_lets hits x pages y lo hi
  have hx : Pages s0 x := Pass.foldl (P := Pages s0) h_s fun _ _ k => endMigration_pages _ _ k
  clear_value x
  have hy : Pages s0 y := Pass.foldl (P := Pages s0) hx fun _ _ k =>
    setEntry_pages _ _ (freeFar_pages _ (shootdown_pages _ k))
  clear_value y
  exact refreshFrames_pages (hy.changeMem fun g => memWf_memClear g)

theorem farDown_frame {s : State} {h cause : Nat} (r : Rising s.dict.objs) (hh : h < 4) :
    Only farObjs s (s.farDown h cause) ∧
    (∀ q, q < 4 → field ((s.farDown h cause).obj oFarLinkState) (8 * q + 7) (8 * q) =
      if q = h then 1 else field (s.obj oFarLinkState) (8 * q + 7) (8 * q)) ∧
    (∀ q, q ≠ h → (s.farDown h cause).farPort q = s.farPort q) ∧
    ∃ e, (s.farDown h cause).dict.log.getLast? = some e ∧ e.code = 0x0601 ∧ e.source = 0x06 ∧ e.unit = h ∧ e.w0 = 1 ∧
      e.w1 = h ∧ e.w2 = cause := by
  unfold State.farDown
  extract_lets fp x
  have ex : x = s.setFarState h { s.farPort h with state := 1, ide := false, kept := false } := rfl
  clear_value x
  have hx : Only farObjs s x := by
    rw [ex]; unfold State.setFarState
    have i : farObjs oFarLinkState := .inr (.inr (.inl rfl))
    have q : Only farObjs s (s.setFar h { s.farPort h with state := 1, ide := false, kept := false }) := (Only.refl r).same rfl
    with_reducible exact q.setObj i
  have l : x.obj oFarLinkState = setField (s.obj oFarLinkState) (8 * h + 7) (8 * h) 1 := by
    rw [ex]; unfold State.setFarState
    have q : Rising (s.setFar h { s.farPort h with state := 1, ide := false, kept := false }).dict.objs := r
    rw [obj_setObj q, if_pos rfl]
  have f : ∀ q, q ≠ h → x.farPort q = s.farPort q := by
    intro q n
    rw [ex]
    show (mapFind (mapPut _ _ _ _) _).getD _ = _
    rw [mapFind_put_ne n]; rfl
  have p : Pages x (x.losePort h) := losePort_pages h (Pages.refl x)
  obtain ⟨pr, po⟩ := p.objs hx.rising
  have pf : (x.losePort h).far = x.far := by
    have := p.frame
    simp only [pageFrame, Prod.mk.injEq] at this
    exact this.2.2.2.2.2.2.1
  generalize x.losePort h = y at *
  have hy : Only farObjs s y := hx.trans ⟨pr, fun k n => po k (fun c => n (.inl c)) (fun c => n (.inr (.inl c)))⟩
  have ly : y.obj oFarLinkState = x.obj oFarLinkState := po _ (by decide) (by decide)
  have fz : (y.endSessions (40 + h)).far = y.far := rfl
  have hz : Only farObjs s (y.endSessions (40 + h)) := by
    have i : farObjs oSpdmSessions := .inr (.inr (.inr rfl))
    with_reducible exact hy.endSessions i
  have lz : (y.endSessions (40 + h)).obj oFarLinkState = y.obj oFarLinkState := endSessions_obj hy.rising (by decide)
  generalize y.endSessions (40 + h) = z at *
  have nz : (z.raise 0x0601 0x06 h 1 h cause).far = z.far := by
    obtain ⟨a, b, c, d, e⟩ := raise_notes (code := 0x0601) (src := 6) (unit := h) (a := 1) (b := h) (c := cause) (d := 0) (e := 0) (Notes.refl z)
    rw [e]
  obtain ⟨r1, r2, -, -, r5⟩ := raise_frame (code := 0x0601) (src := 6) (unit := h) (a := 1) (b := h) (c := cause) (d := 0) (e := 0) hz.rising
  refine ⟨?_, ?_, ?_, ?_⟩
  · have i : ∀ k, eventObjs k → farObjs k := by
      rintro k (e | e | e) <;> subst e <;> exact .inl (by decide)
    with_reducible exact hz.raiseE i
  · intro q hq
    rw [r5 _ (by decide) (by decide) (by decide), lz, ly, l, byte_set hh hq (by decide)]
  · intro q n
    unfold State.farPort
    rw [nz, fz, pf]
    exact f q n
  · exact ⟨_, r2, rfl, rfl, rfl, rfl, rfl, rfl⟩

theorem fab_links {s : State} (r : Rising s.dict.objs) (n : Nat) (hn : n ≤ 32) :
    Rising ((List.range n).foldl (fun s p => s.linkDown p 1 1) s).dict.objs ∧
    (∀ p, p < n → ((List.range n).foldl (fun s p => s.linkDown p 1 1) s).link p ≤ 1) ∧
    aside ((List.range n).foldl (fun s p => s.linkDown p 1 1) s) = aside s := by
  induction n with
  | zero => exact ⟨r, by omega, rfl⟩
  | succ n ih =>
    obtain ⟨a, b, f⟩ := ih (by omega)
    rw [List.range_succ, List.foldl_append]
    generalize List.foldl (fun s p => s.linkDown p 1 1) s (List.range n) = x at *
    simp only [List.foldl_cons, List.foldl_nil]
    obtain ⟨c, d, e⟩ := linkDown_links (cause := 1) a (p := n) (by omega)
    refine ⟨c, fun p hp => ?_, (linkDown_aside _ _ _ _).trans f⟩
    by_cases q : p = n
    · rw [q]; exact d
    · rw [e p (by omega) q]; exact b p (by omega)

theorem far_fold {s : State} (r : Rising s.dict.objs) (n : Nat) (hn : n ≤ 4) :
    Only farObjs s ((List.range n).foldl (fun s h => if (s.farPort h).state = 4 then s.farDown h 1 else s) s) ∧
    (∀ q, n ≤ q → ((List.range n).foldl (fun s h => if (s.farPort h).state = 4 then s.farDown h 1 else s) s).farPort q = s.farPort q) ∧
    ∀ q, q < n → (s.farPort q).state = 4 →
      field (((List.range n).foldl (fun s h => if (s.farPort h).state = 4 then s.farDown h 1 else s) s).obj oFarLinkState)
        (8 * q + 7) (8 * q) = 1 := by
  induction n with
  | zero => exact ⟨Only.refl r, fun _ _ => rfl, by omega⟩
  | succ n ih =>
    obtain ⟨a, b, c⟩ := ih (by omega)
    rw [List.range_succ, List.foldl_append]
    generalize List.foldl (fun s h => if (s.farPort h).state = 4 then s.farDown h 1 else s) s (List.range n) = x at *
    simp only [List.foldl_cons, List.foldl_nil]
    split
    · rename_i e
      obtain ⟨d1, d2, d3, -⟩ := farDown_frame (cause := 1) a.rising (h := n) (by omega)
      refine ⟨a.trans d1, fun q hq => (d3 q (by omega)).trans (b q (by omega)), fun q hq h4 => ?_⟩
      rw [d2 q (by omega)]
      by_cases q1 : q = n
      · rw [if_pos q1]
      · rw [if_neg q1]; exact c q (by omega) h4
    · rename_i e
      refine ⟨a, fun q hq => b q (by omega), fun q hq h4 => ?_⟩
      have : q ≠ n := by
        intro q1; subst q1; rw [b q (Nat.le_refl _)] at e; exact e h4
      exact c q (by omega) h4

theorem hostDown_frame {s : State} {cause : Nat} (r : Rising s.dict.objs) :
    Rising (s.hostDown cause).dict.objs ∧ (s.hostDown cause).obj oHostLinkState = 1 ∧
    (s.hostDown cause).obj oHostLinkSpeed = 0 ∧ (s.hostDown cause).obj oHostLinkWidth = 0 ∧
    (s.hostDown cause).far = s.far ∧ (s.hostDown cause).sec.ideStream = false ∧
    (s.hostDown cause).dict.log.getLast? = some ⟨s.obj oEventSeqNext, s.tick, 0x0601, 0x07, 0, 2, 0, cause, 0, 0⟩ ∧
    (∀ k, k ≠ oHostLinkState → k ≠ oHostLinkSpeed → k ≠ oHostLinkWidth → k ≠ oEventSeqNext → k ≠ oEventSeqOldest →
      k ≠ oEventsOverwritten → (s.hostDown cause).obj k = s.obj k) ∧ (s.hostDown cause).mem = s.mem := by
  unfold State.hostDown State.hostQuiet
  have r1 : Rising (s.setObj oHostLinkState 1).dict.objs := rising_setObj r
  have r2 : Rising ((s.setObj oHostLinkState 1).setObj oHostLinkSpeed 0).dict.objs := rising_setObj r1
  have r3 : Rising (((s.setObj oHostLinkState 1).setObj oHostLinkSpeed 0).setObj oHostLinkWidth 0).dict.objs := rising_setObj r2
  have o : ∀ k, (((s.setObj oHostLinkState 1).setObj oHostLinkSpeed 0).setObj oHostLinkWidth 0).obj k =
      if k = oHostLinkWidth then 0 else if k = oHostLinkSpeed then 0 else if k = oHostLinkState then 1 else s.obj k := by
    intro k
    rw [obj_setObj r2, obj_setObj r1, obj_setObj r]
  have m : (((s.setObj oHostLinkState 1).setObj oHostLinkSpeed 0).setObj oHostLinkWidth 0).mem = s.mem := rfl
  have mf : (((s.setObj oHostLinkState 1).setObj oHostLinkSpeed 0).setObj oHostLinkWidth 0).far = s.far := rfl
  generalize (((s.setObj oHostLinkState 1).setObj oHostLinkSpeed 0).setObj oHostLinkWidth 0) = x at *
  show _ ∧ _
  obtain ⟨u, eu⟩ : ∃ u : State, u = { x with sec := { x.sec with ideStream := false } } := ⟨_, rfl⟩
  dsimp only
  rw [← eu]
  have ru : Rising u.dict.objs := by rw [eu]; exact r3
  have ou : ∀ k, u.obj k = x.obj k := fun _ => by rw [eu]; rfl
  have iu : u.sec.ideStream = false := by rw [eu]
  have mu : u.mem = s.mem := by rw [eu]; exact m
  have fu : u.far = s.far := by rw [eu]; exact mf
  clear eu
  obtain ⟨a, b, -, -, c⟩ := raise_frame (code := 0x0601) (src := 7) (unit := 0) (a := 2) (b := 0) (c := cause) (d := 0) (e := 0) ru
  obtain ⟨n1, n2, n3, n4, n⟩ := raise_notes (code := 0x0601) (src := 7) (unit := 0) (a := 2) (b := 0) (c := cause) (d := 0) (e := 0) (Notes.refl u)
  refine ⟨a, ?_, ?_, ?_, by rw [n]; exact fu, by rw [n]; exact iu, ?_, ?_, by rw [n]; exact mu⟩
  · rw [c _ (by decide) (by decide) (by decide), ou, o]; rfl
  · rw [c _ (by decide) (by decide) (by decide), ou, o]; rfl
  · rw [c _ (by decide) (by decide) (by decide), ou, o]; rfl
  · rw [b]
    have e1 : u.obj oEventSeqNext = s.obj oEventSeqNext := by rw [ou, o]; rfl
    have e2 : u.tick = s.tick := by unfold State.tick; rw [ou, o]; rfl
    rw [e1, e2]
  · intro k h1 h2 h3 h4 h5 h6
    rw [c k h4 h5 h6, ou, o, if_neg h3, if_neg h2, if_neg h1]

end Sys2Proof.Safety
end

