-- ==== Sys2Proof/Laws/LinkLife.lean ====
section
/-! SUPPORT. The life of a link: small facts. -/

namespace Sys2Proof.Safety

open Sys2Proof.Machine

theorem setPort_obj {s : State} {p k : Nat} {q : Port} : (s.setPort p q).obj k = s.obj k := rfl

theorem port_setObj {s : State} {p k v j : Nat} {q : Port} (h : Rising s.dict.objs) :
    ((s.setPort p q).setObj k v).obj j = if j = k then v else s.obj j :=
  obj_setObj (s := s.setPort p q) h

theorem not_down_failures {p : Nat} (hp : p < 32) : ¬ downObjs p oSpdmFailures := by
  have e : oSpdmFailures = 0x7040 * 256 + 2 := rfl
  rw [e]
  rintro (m | m | m | ⟨q, m⟩ | m | m | m | m | m | m | m | m | m | m | m | m)
  · exact absurd (show 0x7040 * 256 + 2 = 0x4000 * 256 + 9 from m) (by omega)
  · exact absurd (show 0x7040 * 256 + 2 = 0x4000 * 256 + 7 from m) (by omega)
  · exact absurd (show 0x7040 * 256 + 2 = 0x4000 * 256 + 8 from m) (by omega)
  · exact absurd (show 0x7040 * 256 + 2 = (0x4010 + q) * 256 + 0x0B from m) (by omega)
  · exact absurd (show 0x7040 * 256 + 2 = (0x4010 + p) * 256 + 1 from m) (by omega)
  · exact absurd (show 0x7040 * 256 + 2 = (0x4010 + p) * 256 + 2 from m) (by omega)
  · exact absurd (show 0x7040 * 256 + 2 = (0x4010 + p) * 256 + 5 from m) (by omega)
  · exact absurd (show 0x7040 * 256 + 2 = (0x4010 + p) * 256 + 6 from m) (by omega)
  · exact absurd (show 0x7040 * 256 + 2 = 0x4000 * 256 + 1 from m) (by omega)
  · exact absurd (show 0x7040 * 256 + 2 = 0x7040 * 256 + 1 from m) (by omega)
  · exact absurd (show 0x7040 * 256 + 2 = 0x4000 * 256 + 2 from m) (by omega)
  · exact absurd (show 0x7040 * 256 + 2 = 0x4000 * 256 + 3 from m) (by omega)
  · exact absurd (show 0x7040 * 256 + 2 = 0x4000 * 256 + 4 from m) (by omega)
  · exact absurd (show 0x7040 * 256 + 2 = 0x9000 * 256 + 2 from m) (by omega)
  · exact absurd (show 0x7040 * 256 + 2 = 0x9000 * 256 + 3 from m) (by omega)
  · exact absurd (show 0x7040 * 256 + 2 = 0x9000 * 256 + 4 from m) (by omega)

theorem count_facts {s : State} {k : Nat} (r : Rising s.dict.objs) : ∃ x, s.count k = x ∧ Rising x.dict.objs ∧
    (∀ j, j ≠ k → x.obj j = s.obj j) ∧ x.obj k = (s.obj k + 1) % 2 ^ (8 * objSize k) ∧ x.mem = s.mem ∧ x.sched = s.sched ∧
    x.ports = s.ports ∧ x.out = s.out ∧ x.sec = s.sec ∧ x.colls = s.colls ∧ x.resil = s.resil ∧ x.num = s.num := by
  refine ⟨_, rfl, ?_⟩
  unfold State.count
  refine ⟨rising_addObj r, fun j n => addObj_obj r n, addObj_self r (by decide), ?_⟩
  unfold State.addObj
  split <;> exact ⟨rfl, rfl, rfl, rfl, rfl, rfl, rfl, rfl⟩

theorem link_raise {s : State} {p a b c : Nat} (r : Rising s.dict.objs) (hp : p < 32) :
    Rising ((s.count oSpdmFailures).raise 0x0802 0x0D a b c 0).dict.objs ∧
    ((s.count oSpdmFailures).raise 0x0802 0x0D a b c 0).link p = s.link p := by
  obtain ⟨x, hx, r1, o1, -⟩ := count_facts (k := oSpdmFailures) r
  rw [hx]
  obtain ⟨r2, -, -, -, o⟩ := raise_frame (code := 0x0802) (src := 0x0D) (unit := a) (a := b) (b := c) (c := 0) (d := 0) (e := 0) r1
  refine ⟨r2, ?_⟩
  unfold State.link
  have n1 : oLinkState p ≠ oEventSeqNext := by show (0x4010 + p) * 256 + 1 ≠ 0x9000 * 256 + 2; omega
  have n2 : oLinkState p ≠ oEventSeqOldest := by show (0x4010 + p) * 256 + 1 ≠ 0x9000 * 256 + 3; omega
  have n3 : oLinkState p ≠ oEventsOverwritten := by show (0x4010 + p) * 256 + 1 ≠ 0x9000 * 256 + 4; omega
  have n4 : oLinkState p ≠ oSpdmFailures := by show (0x4010 + p) * 256 + 1 ≠ 0x7040 * 256 + 2; omega
  rw [o _ n1 n2 n3, o1 _ n4]

end Sys2Proof.Safety
end

