-- ==== Sys2Proof/Laws/Flits.lean ====
section
/-! SUPPORT. What received flits do: small facts. -/

namespace Sys2Proof.Safety

open Sys2Proof.Machine

theorem setPort_rising {s : State} {p : Nat} {q : Port} (h : Rising s.dict.objs) : Rising (s.setPort p q).dict.objs := h

theorem onControl_is {s u : State} {p n : Nat} {f : RxFlit} {act : List Byte → State → State} {pl : List Byte}
    (h : s.receiving p = true) (e : s.checkFlit p f = (.control pl, u)) (t : (pl.headD 0).toNat = n) :
    s.onControl p n f act = (act pl u).pump p := by
  unfold State.onControl
  rw [h, e]
  simp only [Bool.not_true, Bool.false_eq_true, if_false, if_pos t]

theorem onControl_bad {s u : State} {p n : Nat} {f : RxFlit} {act : List Byte → State → State}
    (h : s.receiving p = true) (e : s.checkFlit p f = (.bad, u)) : s.onControl p n f act = u := by
  unfold State.onControl
  rw [h, e]
  simp

theorem head_nat {pl : List Byte} {n : Nat} (h : pl.headD 0 = BitVec.ofNat 8 n) (l : n < 256) : (pl.headD 0).toNat = n := by
  rw [h]; simp; omega

theorem pump_same {s : State} {p : Nat} : (s.pump p).mem = s.mem ∧ (s.pump p).sched = s.sched ∧ (s.pump p).sec = s.sec ∧
    (s.pump p).colls = s.colls ∧ (s.pump p).resil = s.resil ∧ (s.pump p).rst = s.rst ∧ (s.pump p).timing = s.timing := by
  have f := (pump_sends (f := fun _ => True) p (SendsOn.refl s) trivial).frame
  simp only [sendFrame, Prod.mk.injEq] at f
  exact ⟨f.2.2.2.2.1, f.2.2.1, f.2.2.2.2.2.2.2.1, f.2.2.2.2.2.2.1, f.2.2.2.2.2.2.2.2.2.2.1, f.2.2.2.2.2.2.2.2.1, f.2.2.2.2.2.1⟩

theorem abort_facts {x : State} {p : Nat} {i : Incoming} (r : Rising x.dict.objs) (n : i.fate ≠ .discard) :
    Rising (x.abortIncoming p i).dict.objs ∧ (x.abortIncoming p i).obj oAbortedMessages = (x.obj oAbortedMessages + 1) % 2 ^ 64 ∧
    (x.abortIncoming p i).mem = x.mem ∧ (x.abortIncoming p i).sched = x.sched := by
  unfold State.abortIncoming
  obtain ⟨y, hy, r1, o1, o2, m, sc, -⟩ := count_facts (k := oAbortedMessages) r
  rw [show objSize oAbortedMessages = 8 by decide +kernel] at o2
  have key : ∀ {f : Nat → Prop} {z : State}, SendsOn f y z → (∀ q, f q → oAbortedMessages ≠ oTxPayloadBytes q) →
      Rising z.dict.objs ∧ z.obj oAbortedMessages = (x.obj oAbortedMessages + 1) % 2 ^ 64 ∧ z.mem = x.mem ∧ z.sched = x.sched := by
    intro f z k nq
    have f := k.frame
    simp only [sendFrame, Prod.mk.injEq] at f
    obtain ⟨k1, k2⟩ := k.objs r1
    exact ⟨k1, by rw [k2 _ (by decide) (by decide) nq, o2], f.2.2.2.2.1.trans m, f.2.2.1.trans sc⟩
  have nq : ∀ q, True → oAbortedMessages ≠ oTxPayloadBytes q := fun q _ => by
    show 0x4000 * 256 + 9 ≠ (0x4010 + q) * 256 + 0x0B; omega
  rw [if_neg n, hy]
  dsimp only
  split
  · split
    · exact key (sendControl_sends _ _ (oweCredit_sends _ _ _ (setPort_sends _ _ (SendsOn.refl (f := fun _ => True) y))) trivial) nq
    · exact key (pump_sends _ (oweCredit_sends _ _ _ (setPort_sends _ _ (SendsOn.refl (f := fun _ => True) y))) trivial) nq
  · exact key (oweCredit_sends _ _ _ (SendsOn.refl (f := fun _ => True) y)) nq
  · exact ⟨r1, o2, m, sc⟩

theorem fec_size : ∀ p, p < 32 → objSize (oFecUncorrectable p) = 8 := by decide +kernel

end Sys2Proof.Safety
end

