-- ==== Sys2Proof/Laws/KeepsDictionary.lean ====
section
/-! SUPPORT. The commands' parts in Machine/Dictionary.lean keep what `Keeps` names. -/

namespace Sys2Proof.Safety

open Sys2Proof.Machine

theorem readObject_keeps {s0 : State} (d : ObjDef) :
    PassM (Keeps s0) (readObject d : M Nat) := by
  unfold readObject
  repeat' first
    | intro _
    | with_reducible first | apply freeM_keeps | apply PassM.pure | apply PassM.getBind | apply PassM.ite

theorem denyObject_keeps {s0 : State} {s : State} (p : Path) (index sub : Nat) (write : Bool) (h_s : Keeps s0 s) :
    Keeps s0 (State.denyObject s p index sub write) := by
  unfold State.denyObject
  repeat' first
    | with_reducible assumption
    | (extract_lets -underBinder +onlyGivenNames x; guard_hyp x : _ := _; clear_value x; have x := trivial)
    | with_reducible apply noteDenied_keeps
    | split

theorem access_keeps {s0 : State} (p : Path) (index sub : Nat) (write : Bool) :
    PassM (Keeps s0) (access p index sub write : M (Nat × Option ObjDef)) := by
  unfold access
  repeat' first
    | intro _
    | with_reducible first
        | assumption | apply mod_keeps | apply denyObject_keeps | apply PassM.pure | apply PassM.getBind
        | apply PassM.bind | apply PassM.ite
    | split

theorem commitValue_keeps {s0 : State} (g v : Nat) :
    PassM (Keeps s0) (commitValue g v : M Nat) := by
  unfold commitValue
  repeat' first
    | intro _
    | with_reducible first
        | assumption | apply mod_keeps | apply commitGroup_keeps | apply discardGroup_keeps | apply PassM.pure
        | apply PassM.getBind | apply PassM.set | apply PassM.bind | apply PassM.ite

theorem requestDusk_keeps {s0 : State} {s : State} (v : Nat) (h_s : Keeps s0 s) :
    Keeps s0 (State.requestDusk s v) := by
  unfold State.requestDusk
  repeat' first
    | with_reducible assumption
    | (extract_lets -underBinder +onlyGivenNames x; guard_hyp x : Resilience := _; have x := trivial)
    | with_reducible apply Pass.ite (P := Keeps s0)
    | (with_reducible refine Keeps.upd ?_ rfl rfl rfl rfl rfl rfl rfl rfl rfl; with_reducible assumption)

theorem requestUnlock_keeps {s0 : State} {s : State} (v : Nat) (h_s : Keeps s0 s) :
    PassOpt (Keeps s0) (State.requestUnlock s v) := by
  unfold State.requestUnlock
  repeat' first
    | (extract_lets -underBinder +onlyGivenNames x; guard_hyp x : Security := _; have x := trivial)
    | with_reducible first | apply PassOpt.none | apply PassOpt.some | apply PassOpt.ite
    | (with_reducible refine Keeps.upd ?_ rfl rfl rfl rfl rfl rfl rfl rfl rfl; with_reducible assumption)

theorem orValue_keeps {s0 : State} (o : Option State) (h : PassOpt (Keeps s0) o) : PassM (Keeps s0) (orValue o) := by
  unfold orValue
  cases o with
  | none => exact .pure
  | some s => exact .bind (.set (h.of rfl)) fun _ => .pure

theorem performWrite_keeps {s0 : State} (key v : Nat) (bytes : List Byte) :
    PassM (Keeps s0) (performWrite key v bytes : M Nat) := by
  unfold performWrite
  repeat' first
    | intro _
    | with_reducible assumption
    | (extract_lets -underBinder +onlyGivenNames x; first
      | (with_reducible refine PassM.cut (P := Keeps s0) (x := x) ?_ fun hx => ?_; rotate_left; clear_value x; have x := trivial; rotate_left; unfold x; clear x)
      | (guard_hyp x : Numerics := _; have x := trivial))
    | with_reducible first
        | apply requestAlloc_keeps | apply queryPage_keeps | apply requestCreate_keeps | apply raiseFloor_keeps
        | apply programReach_keeps | apply recordReset_keeps | apply assertReset_keeps | apply resetTile_keeps
        | apply resetPort_keeps | apply pushAndGo_keeps | apply requestDusk_keeps | apply requestUnlock_keeps
        | apply orValue_keeps | apply PassM.pure | apply PassM.getBind | apply PassM.set | apply PassM.bind
        | apply_assumption -exfalso -symm | apply PassM.ite
    | split
    | (with_reducible refine Keeps.upd ?_ rfl rfl rfl rfl rfl rfl rfl rfl rfl; with_reducible assumption)

theorem writeObject_keeps {s0 : State} (p : Path) (index sub : Nat) (bytes : List Byte) :
    PassM (Keeps s0) (writeObject p index sub bytes : M Nat) := by
  unfold writeObject
  repeat' first
    | intro _
    | with_reducible assumption
    | (extract_lets -underBinder +onlyGivenNames x; guard_hyp x : _ := _; clear_value x; have x := trivial)
    | with_reducible first
        | apply setObj_keeps | apply setPend_keeps | apply mod_keeps | apply access_keeps | apply commitValue_keeps
        | apply performWrite_keeps | apply PassM.pure | apply PassM.bind | apply PassM.ite
    | split

theorem runDict_keeps {s0 : State} {s : State} (body : M Unit) (h_s : Keeps s0 s) (h_body : PassM (Keeps s0) (body )) :
    PassO (Keeps s0) (runDict s body) := by
  unfold runDict
  repeat' first
    | with_reducible first | assumption | apply PassO.next
    | split
    | refine PassM.ok ?_ ?_ (by with_reducible assumption)
    | refine PassM.error ?_ ?_ (by with_reducible assumption)

theorem ignored_keeps {s0 : State}  :
    PassM (Keeps s0) (ignored : M Unit) := by
  unfold ignored
  repeat' first
    | intro _
    | with_reducible first | assumption | apply count_keeps | apply mod_keeps

theorem tookHost_keeps {s0 : State} {s : State} (n : Nat) (h_s : Keeps s0 s) :
    Keeps s0 (State.tookHost s n) := by
  unfold State.tookHost
  repeat' with_reducible first | assumption | apply addObj_keeps

theorem hostDropped_keeps {s0 : State} {s : State} (h_s : Keeps s0 s) :
    Keeps s0 (State.hostDropped s) := by
  unfold State.hostDropped
  repeat' with_reducible first | assumption | apply count_keeps | apply Pass.ite (P := Keeps s0)

theorem slotOutcome_keeps {s0 : State} (st : Nat) :
    PassM (Keeps s0) (slotOutcome st : M Unit) := by
  unfold slotOutcome
  repeat' with_reducible first | apply ignored_keeps | apply PassM.pure | apply PassM.ite

theorem pathWrite_keeps {s0 : State} {s : State} (p : Path) (index sub : Nat) (bytes : List Byte) (h_s : Keeps s0 s) :
    PassO (Keeps s0) (State.pathWrite s p index sub bytes) := by
  unfold State.pathWrite
  repeat' first
    | intro _
    | with_reducible assumption
    | (extract_lets -underBinder +onlyGivenNames x; guard_hyp x : _ := _; clear_value x; have x := trivial)
    | with_reducible first
        | apply writeObject_keeps | apply runDict_keeps | apply tookHost_keeps | apply hostDropped_keeps
        | apply slotOutcome_keeps | apply PassM.pure | apply PassM.bind | apply PassO.next | apply PassO.ite
        | apply PassM.ite
    | split

theorem dropAssembly_keeps {s0 : State} {s : State} (req : Nat) (h_s : Keeps s0 s) :
    Keeps s0 (State.dropAssembly s req) := by
  unfold State.dropAssembly
  repeat' first
    | (extract_lets -underBinder +onlyGivenNames x; guard_hyp x : Dict := _; have x := trivial)
    | (with_reducible refine Keeps.upd ?_ rfl rfl rfl rfl rfl rfl rfl rfl rfl; with_reducible assumption)

theorem segment_keeps {s0 : State} (p : Path) (req index sub offset : Nat) (bytes : List Byte) (last : Bool) :
    PassM (Keeps s0) (Machine.segment p req index sub offset bytes last : M Nat) := by
  unfold Machine.segment
  repeat' first
    | intro _
    | with_reducible assumption
    | (extract_lets -underBinder +onlyGivenNames x; first
      | (guard_hyp x : Dict := _; have x := trivial)
      | (guard_hyp x : _ := _; clear_value x; have x := trivial))
    | with_reducible first
        | apply mod_keeps | apply access_keeps | apply writeObject_keeps | apply dropAssembly_keeps | apply PassM.pure
        | apply PassM.getBind | apply PassM.bind | apply Pass.ite (P := Keeps s0) | apply PassM.ite
    | split
    | (with_reducible refine Keeps.upd ?_ rfl rfl rfl rfl rfl rfl rfl rfl rfl; with_reducible assumption)

theorem readBytesOf_keeps {s0 : State} (p : Path) (index sub offset n : Nat) :
    PassM (Keeps s0) (readBytesOf p index sub offset n : M (Nat × List Byte)) := by
  unfold readBytesOf
  repeat' first
    | intro _
    | with_reducible first
        | apply readObject_keeps | apply access_keeps | apply PassM.pure | apply PassM.bind | apply PassM.ite
    | split

theorem windowDone_keeps {s0 : State} (status : Nat) :
    PassM (Keeps s0) (windowDone status : M Unit) := by
  unfold windowDone
  repeat' first
    | intro _
    | (extract_lets -underBinder +onlyGivenNames x; first
      | (guard_hyp x : Dict := _; have x := trivial)
      | (guard_hyp x : _ := _; clear_value x; have x := trivial))
    | with_reducible first | apply armVector_keeps | apply mod_keeps
    | (with_reducible refine Keeps.upd ?_ rfl rfl rfl rfl rfl rfl rfl rfl rfl; with_reducible assumption)

theorem windowCommand_keeps {s0 : State} (ide : Bool) (cmd : Nat) :
    PassM (Keeps s0) (windowCommand ide cmd : M Unit) := by
  unfold windowCommand
  repeat' first
    | intro _
    | (extract_lets -underBinder +onlyGivenNames x; first
      | (guard_hyp x : Dict := _; have x := trivial)
      | (guard_hyp x : _ := _; clear_value x; have x := trivial))
    | with_reducible first
        | apply mod_keeps | apply segment_keeps | apply readBytesOf_keeps | apply windowDone_keeps | apply PassM.pure
        | apply PassM.getBind | apply PassM.bind | apply PassM.ite
    | split
    | (with_reducible refine Keeps.upd ?_ rfl rfl rfl rfl rfl rfl rfl rfl rfl; with_reducible assumption)

theorem windowRow_keeps {s0 : State} {s : State} (ide : Bool) (cmd : Nat) (h_s : Keeps s0 s) :
    PassO (Keeps s0) (State.windowRow s ide cmd) := by
  unfold State.windowRow
  repeat' first
    | with_reducible first
        | assumption | apply runDict_keeps | apply tookHost_keeps | apply hostDropped_keeps | apply windowCommand_keeps
        | apply PassO.next | apply PassO.ite

theorem execWindowRead_keeps {s0 : State} (ide : Bool) {s : State} (h_s : Keeps s0 s) :
    PassO (Keeps s0) (execWindowRead ide s) := by
  unfold execWindowRead
  repeat' with_reducible first | assumption | apply windowRow_keeps

theorem execWindowWriteSegment_keeps {s0 : State} (ide : Bool) {s : State} (h_s : Keeps s0 s) :
    PassO (Keeps s0) (execWindowWriteSegment ide s) := by
  unfold execWindowWriteSegment
  repeat' with_reducible first | assumption | apply windowRow_keeps

theorem execWindowWriteLast_keeps {s0 : State} (ide : Bool) {s : State} (h_s : Keeps s0 s) :
    PassO (Keeps s0) (execWindowWriteLast ide s) := by
  unfold execWindowWriteLast
  repeat' with_reducible first | assumption | apply windowRow_keeps

theorem windowRegister_keeps {s0 : State} (ide : Bool) (offset v : Nat) :
    PassM (Keeps s0) (windowRegister ide offset v : M Unit) := by
  unfold windowRegister
  repeat' first
    | intro _
    | (extract_lets -underBinder +onlyGivenNames x; first
      | (with_reducible refine PassM.cut (P := Keeps s0) (x := x) ?_ fun hx => ?_; rotate_left; clear_value x; have x := trivial; rotate_left; unfold x; clear x)
      | (guard_hyp x : Dict := _; have x := trivial))
    | with_reducible first
        | apply mod_keeps | apply windowCommand_keeps | apply PassM.pure | apply_assumption -exfalso -symm
    | split
    | (with_reducible refine Keeps.upd ?_ rfl rfl rfl rfl rfl rfl rfl rfl rfl; with_reducible assumption)

theorem writeMsix_keeps {s0 : State} {s : State} (offset : Nat) (bytes : List Byte) (h_s : Keeps s0 s) :
    Keeps s0 (State.writeMsix s offset bytes) := by
  unfold State.writeMsix
  repeat' first
    | intro _
    | with_reducible assumption
    | (extract_lets -underBinder +onlyGivenNames x; first
      | (with_reducible refine Pass.cut (P := Keeps s0) (x := x) ?_ fun hx => ?_; rotate_left; clear_value x; have x := trivial; rotate_left; unfold x; clear x)
      | (guard_hyp x : Dict := _; have x := trivial)
      | (guard_hyp x : _ := _; clear_value x; have x := trivial))
    | with_reducible first
        | apply sendVector_keeps | apply Pass.foldl (P := Keeps s0) | apply Pass.ite (P := Keeps s0)
    | split
    | (with_reducible refine Keeps.upd ?_ rfl rfl rfl rfl rfl rfl rfl rfl rfl; with_reducible assumption)

theorem bar0Write_keeps {s0 : State} (ide : Bool) (offset : Nat) (bytes : List Byte) :
    PassM (Keeps s0) (bar0Write ide offset bytes : M Unit) := by
  unfold bar0Write
  repeat' first
    | intro _
    | with_reducible assumption
    | (extract_lets -underBinder +onlyGivenNames x; first
      | (guard_hyp x : Dict := _; have x := trivial)
      | (guard_hyp x : _ := _; clear_value x; have x := trivial))
    | with_reducible first
        | apply mod_keeps | apply writeObject_keeps | apply ignored_keeps | apply slotOutcome_keeps
        | apply windowRegister_keeps | apply writeMsix_keeps | apply PassM.pure | apply PassM.bind | apply PassM.ite
    | split
    | (with_reducible refine Keeps.upd ?_ rfl rfl rfl rfl rfl rfl rfl rfl rfl; with_reducible assumption)

theorem execObjectWrite_keeps {s0 : State} (w : DictWrite) {s : State} (h_s : Keeps s0 s) :
    PassO (Keeps s0) (execObjectWrite w s) := by
  unfold execObjectWrite
  repeat' first
    | with_reducible assumption
    | (extract_lets -underBinder +onlyGivenNames x; guard_hyp x : _ := _; clear_value x; have x := trivial)
    | with_reducible first
        | apply runDict_keeps | apply tookHost_keeps | apply hostDropped_keeps | apply pathWrite_keeps
        | apply bar0Write_keeps | apply PassO.next | apply PassO.ite
    | split

theorem execDescriptorCreate_keeps {s0 : State} (p : Path) (value : Nat) {s : State} (h_s : Keeps s0 s) :
    PassO (Keeps s0) (execDescriptorCreate p value s) := by
  unfold execDescriptorCreate
  repeat' with_reducible first | assumption | apply pathWrite_keeps

theorem execAllocRequest_keeps {s0 : State} (p : Path) (value : Nat) {s : State} (h_s : Keeps s0 s) :
    PassO (Keeps s0) (execAllocRequest p value s) := by
  unfold execAllocRequest
  repeat' with_reducible first | assumption | apply pathWrite_keeps

theorem execPageQuery_keeps {s0 : State} (p : Path) (value : Nat) {s : State} (h_s : Keeps s0 s) :
    PassO (Keeps s0) (execPageQuery p value s) := by
  unfold execPageQuery
  repeat' with_reducible first | assumption | apply pathWrite_keeps

theorem execStickyClear_keeps {s0 : State} (p : Path) (value : Nat) {s : State} (h_s : Keeps s0 s) :
    PassO (Keeps s0) (execStickyClear p value s) := by
  unfold execStickyClear
  repeat' with_reducible first | assumption | apply pathWrite_keeps

theorem execRollbackRaise_keeps {s0 : State} (p : Path) (value : Nat) {s : State} (h_s : Keeps s0 s) :
    PassO (Keeps s0) (execRollbackRaise p value s) := by
  unfold execRollbackRaise
  repeat' with_reducible first | assumption | apply pathWrite_keeps

theorem execTableUnlock_keeps {s0 : State} (p : Path) (value : Nat) {s : State} (h_s : Keeps s0 s) :
    PassO (Keeps s0) (execTableUnlock p value s) := by
  unfold execTableUnlock
  repeat' with_reducible first | assumption | apply pathWrite_keeps

theorem execResetRequest_keeps {s0 : State} (p : Path) (value : Nat) {s : State} (h_s : Keeps s0 s) :
    PassO (Keeps s0) (execResetRequest p value s) := by
  unfold execResetRequest
  repeat' with_reducible first | assumption | apply pathWrite_keeps

theorem execTileReset_keeps {s0 : State} (p : Path) (value : Nat) {s : State} (h_s : Keeps s0 s) :
    PassO (Keeps s0) (execTileReset p value s) := by
  unfold execTileReset
  repeat' with_reducible first | assumption | apply pathWrite_keeps

theorem execPortReset_keeps {s0 : State} (p : Path) (value : Nat) {s : State} (h_s : Keeps s0 s) :
    PassO (Keeps s0) (execPortReset p value s) := by
  unfold execPortReset
  repeat' with_reducible first | assumption | apply pathWrite_keeps

theorem execReachProgram_keeps {s0 : State} (p : Path) (value : Nat) {s : State} (h_s : Keeps s0 s) :
    PassO (Keeps s0) (execReachProgram p value s) := by
  unfold execReachProgram
  repeat' with_reducible first | assumption | apply pathWrite_keeps

theorem execFirmwarePush_keeps {s0 : State} (p : Path) (image : List Byte) {s : State} (h_s : Keeps s0 s) :
    PassO (Keeps s0) (execFirmwarePush p image s) := by
  unfold execFirmwarePush
  repeat' with_reducible first | assumption | apply pathWrite_keeps

theorem execDuskTick_keeps {s0 : State} (p : Path) {s : State} (h_s : Keeps s0 s) :
    PassO (Keeps s0) (execDuskTick p s) := by
  unfold execDuskTick
  repeat' with_reducible first | assumption | apply pathWrite_keeps

theorem execDuskStep_keeps {s0 : State} (p : Path) {s : State} (h_s : Keeps s0 s) :
    PassO (Keeps s0) (execDuskStep p s) := by
  unfold execDuskStep
  repeat' with_reducible first | assumption | apply pathWrite_keeps

theorem execDuskSnapshot_keeps {s0 : State} (p : Path) {s : State} (h_s : Keeps s0 s) :
    PassO (Keeps s0) (execDuskSnapshot p s) := by
  unfold execDuskSnapshot
  repeat' with_reducible first | assumption | apply pathWrite_keeps

theorem execCommitDiscard_keeps {s0 : State} (p : Path) (group : Nat) {s : State} (h_s : Keeps s0 s) :
    PassO (Keeps s0) (execCommitDiscard p group s) := by
  unfold execCommitDiscard
  repeat' with_reducible first | assumption | apply pathWrite_keeps

theorem commitRow_keeps {s0 : State} {s : State} (p : Path) (g : Nat) (h_s : Keeps s0 s) :
    PassO (Keeps s0) (State.commitRow s p g) := by
  unfold State.commitRow
  repeat' with_reducible first | assumption | apply pathWrite_keeps

theorem execCommitTick_keeps {s0 : State} (p : Path) {s : State} (h_s : Keeps s0 s) :
    PassO (Keeps s0) (execCommitTick p s) := by
  unfold execCommitTick
  repeat' with_reducible first | assumption | apply commitRow_keeps

theorem execCommitProgram_keeps {s0 : State} (p : Path) {s : State} (h_s : Keeps s0 s) :
    PassO (Keeps s0) (execCommitProgram p s) := by
  unfold execCommitProgram
  repeat' with_reducible first | assumption | apply commitRow_keeps

theorem execCommitQueues_keeps {s0 : State} (p : Path) {s : State} (h_s : Keeps s0 s) :
    PassO (Keeps s0) (execCommitQueues p s) := by
  unfold execCommitQueues
  repeat' with_reducible first | assumption | apply commitRow_keeps

theorem execCommitEpoch_keeps {s0 : State} (p : Path) {s : State} (h_s : Keeps s0 s) :
    PassO (Keeps s0) (execCommitEpoch p s) := by
  unfold execCommitEpoch
  repeat' with_reducible first | assumption | apply commitRow_keeps

theorem execCommitPaging_keeps {s0 : State} (p : Path) {s : State} (h_s : Keeps s0 s) :
    PassO (Keeps s0) (execCommitPaging p s) := by
  unfold execCommitPaging
  repeat' with_reducible first | assumption | apply commitRow_keeps

theorem execCommitGradientPath_keeps {s0 : State} (p : Path) {s : State} (h_s : Keeps s0 s) :
    PassO (Keeps s0) (execCommitGradientPath p s) := by
  unfold execCommitGradientPath
  repeat' with_reducible first | assumption | apply commitRow_keeps

theorem execCommitFnSlots_keeps {s0 : State} (p : Path) {s : State} (h_s : Keeps s0 s) :
    PassO (Keeps s0) (execCommitFnSlots p s) := by
  unfold execCommitFnSlots
  repeat' with_reducible first | assumption | apply commitRow_keeps

theorem execCommitGather_keeps {s0 : State} (p : Path) {s : State} (h_s : Keeps s0 s) :
    PassO (Keeps s0) (execCommitGather p s) := by
  unfold execCommitGather
  repeat' with_reducible first | assumption | apply commitRow_keeps

theorem execCommitPredictorExact_keeps {s0 : State} (p : Path) {s : State} (h_s : Keeps s0 s) :
    PassO (Keeps s0) (execCommitPredictorExact p s) := by
  unfold execCommitPredictorExact
  repeat' with_reducible first | assumption | apply commitRow_keeps

theorem execCommitSeed_keeps {s0 : State} (p : Path) {s : State} (h_s : Keeps s0 s) :
    PassO (Keeps s0) (execCommitSeed p s) := by
  unfold execCommitSeed
  repeat' with_reducible first | assumption | apply commitRow_keeps

theorem execCommitShadow_keeps {s0 : State} (p : Path) {s : State} (h_s : Keeps s0 s) :
    PassO (Keeps s0) (execCommitShadow p s) := by
  unfold execCommitShadow
  repeat' with_reducible first | assumption | apply commitRow_keeps

theorem execCommitRounding_keeps {s0 : State} (p : Path) {s : State} (h_s : Keeps s0 s) :
    PassO (Keeps s0) (execCommitRounding p s) := by
  unfold execCommitRounding
  repeat' with_reducible first | assumption | apply commitRow_keeps

theorem execCommitScrub_keeps {s0 : State} (p : Path) {s : State} (h_s : Keeps s0 s) :
    PassO (Keeps s0) (execCommitScrub p s) := by
  unfold execCommitScrub
  repeat' with_reducible first | assumption | apply commitRow_keeps

theorem execCommitHash_keeps {s0 : State} (p : Path) {s : State} (h_s : Keeps s0 s) :
    PassO (Keeps s0) (execCommitHash p s) := by
  unfold execCommitHash
  repeat' with_reducible first | assumption | apply commitRow_keeps

theorem execCommitPorts_keeps {s0 : State} (p : Path) {s : State} (h_s : Keeps s0 s) :
    PassO (Keeps s0) (execCommitPorts p s) := by
  unfold execCommitPorts
  repeat' with_reducible first | assumption | apply commitRow_keeps

theorem execCommitRoutes_keeps {s0 : State} (p : Path) {s : State} (h_s : Keeps s0 s) :
    PassO (Keeps s0) (execCommitRoutes p s) := by
  unfold execCommitRoutes
  repeat' with_reducible first | assumption | apply commitRow_keeps

theorem execCommitAxes_keeps {s0 : State} (p : Path) {s : State} (h_s : Keeps s0 s) :
    PassO (Keeps s0) (execCommitAxes p s) := by
  unfold execCommitAxes
  repeat' with_reducible first | assumption | apply commitRow_keeps

theorem execCommitCollective_keeps {s0 : State} (p : Path) {s : State} (h_s : Keeps s0 s) :
    PassO (Keeps s0) (execCommitCollective p s) := by
  unfold execCommitCollective
  repeat' with_reducible first | assumption | apply commitRow_keeps

theorem execCommitBatch_keeps {s0 : State} (p : Path) {s : State} (h_s : Keeps s0 s) :
    PassO (Keeps s0) (execCommitBatch p s) := by
  unfold execCommitBatch
  repeat' with_reducible first | assumption | apply commitRow_keeps

theorem execCommitTwin_keeps {s0 : State} (p : Path) {s : State} (h_s : Keeps s0 s) :
    PassO (Keeps s0) (execCommitTwin p s) := by
  unfold execCommitTwin
  repeat' with_reducible first | assumption | apply commitRow_keeps

theorem execCommitStraggler_keeps {s0 : State} (p : Path) {s : State} (h_s : Keeps s0 s) :
    PassO (Keeps s0) (execCommitStraggler p s) := by
  unfold execCommitStraggler
  repeat' with_reducible first | assumption | apply commitRow_keeps

theorem execCommitRestore_keeps {s0 : State} (p : Path) {s : State} (h_s : Keeps s0 s) :
    PassO (Keeps s0) (execCommitRestore p s) := by
  unfold execCommitRestore
  repeat' with_reducible first | assumption | apply commitRow_keeps

theorem execCommitHostWindow_keeps {s0 : State} (p : Path) {s : State} (h_s : Keeps s0 s) :
    PassO (Keeps s0) (execCommitHostWindow p s) := by
  unfold execCommitHostWindow
  repeat' with_reducible first | assumption | apply commitRow_keeps

theorem execCommitMsix_keeps {s0 : State} (p : Path) {s : State} (h_s : Keeps s0 s) :
    PassO (Keeps s0) (execCommitMsix p s) := by
  unfold execCommitMsix
  repeat' with_reducible first | assumption | apply commitRow_keeps

theorem execCommitFarIde_keeps {s0 : State} (p : Path) {s : State} (h_s : Keeps s0 s) :
    PassO (Keeps s0) (execCommitFarIde p s) := by
  unfold execCommitFarIde
  repeat' with_reducible first | assumption | apply commitRow_keeps

theorem execCommitSecurity_keeps {s0 : State} (p : Path) {s : State} (h_s : Keeps s0 s) :
    PassO (Keeps s0) (execCommitSecurity p s) := by
  unfold execCommitSecurity
  repeat' with_reducible first | assumption | apply commitRow_keeps

theorem execCommitLinkPolicy_keeps {s0 : State} (p : Path) {s : State} (h_s : Keeps s0 s) :
    PassO (Keeps s0) (execCommitLinkPolicy p s) := by
  unfold execCommitLinkPolicy
  repeat' with_reducible first | assumption | apply commitRow_keeps

theorem execCommitFarTrust_keeps {s0 : State} (p : Path) {s : State} (h_s : Keeps s0 s) :
    PassO (Keeps s0) (execCommitFarTrust p s) := by
  unfold execCommitFarTrust
  repeat' with_reducible first | assumption | apply commitRow_keeps

theorem execCommitTable_keeps {s0 : State} (p : Path) {s : State} (h_s : Keeps s0 s) :
    PassO (Keeps s0) (execCommitTable p s) := by
  unfold execCommitTable
  repeat' with_reducible first | assumption | apply commitRow_keeps

theorem execCommitWatchdog_keeps {s0 : State} (p : Path) {s : State} (h_s : Keeps s0 s) :
    PassO (Keeps s0) (execCommitWatchdog p s) := by
  unfold execCommitWatchdog
  repeat' with_reducible first | assumption | apply commitRow_keeps

theorem execCommitPower_keeps {s0 : State} (p : Path) {s : State} (h_s : Keeps s0 s) :
    PassO (Keeps s0) (execCommitPower p s) := by
  unfold execCommitPower
  repeat' with_reducible first | assumption | apply commitRow_keeps

theorem execCommitThermal_keeps {s0 : State} (p : Path) {s : State} (h_s : Keeps s0 s) :
    PassO (Keeps s0) (execCommitThermal p s) := by
  unfold execCommitThermal
  repeat' with_reducible first | assumption | apply commitRow_keeps

theorem execCommitMgmt_keeps {s0 : State} (p : Path) {s : State} (h_s : Keeps s0 s) :
    PassO (Keeps s0) (execCommitMgmt p s) := by
  unfold execCommitMgmt
  repeat' with_reducible first | assumption | apply commitRow_keeps

theorem execCommitNotify_keeps {s0 : State} (p : Path) {s : State} (h_s : Keeps s0 s) :
    PassO (Keeps s0) (execCommitNotify p s) := by
  unfold execCommitNotify
  repeat' with_reducible first | assumption | apply commitRow_keeps

end Sys2Proof.Safety
end

