-- ==== Sys2Proof/Laws/KeepsFelby.lean ====
section
/-! SUPPORT. The commands' parts in Machine/Felby.lean keep what `Keeps` names. -/

namespace Sys2Proof.Safety

open Sys2Proof.Machine

theorem sendFrame_keeps {s0 : State} {s : State} (port : Nat) (o : Out) (h_s : Keeps s0 s) :
    Keeps s0 (State.sendFrame s port o) := by
  unfold State.sendFrame
  repeat' with_reducible first | assumption | apply emit_keeps | apply Pass.ite (P := Keeps s0)

theorem keep_keeps {s0 : State} {s : State} (k : Kept) (h_s : Keeps s0 s) :
    Keeps s0 (State.keep s k) := by
  unfold State.keep
  repeat' first
    | (extract_lets -underBinder +onlyGivenNames x; first
      | (guard_hyp x : Dict := _; have x := trivial)
      | (guard_hyp x : _ := _; clear_value x; have x := trivial))
    | (with_reducible refine Keeps.upd ?_ rfl rfl rfl rfl rfl rfl rfl rfl rfl; with_reducible assumption)

theorem request_keeps {s0 : State} (f : FelbyFrame) (act : Felby → Path → M Answer) (h_act : ∀ a0 a1, PassM (Keeps s0) (act a0 a1)) :
    PassM (Keeps s0) (request f act : M Unit) := by
  unfold request
  repeat' first
    | intro _
    | with_reducible assumption
    | (extract_lets -underBinder +onlyGivenNames x; first
      | (with_reducible refine PassM.cut (P := Keeps s0) (x := x) ?_ fun hx => ?_; rotate_left; clear_value x; have x := trivial; rotate_left; unfold x; clear x)
      | (guard_hyp x : _ := _; clear_value x; have x := trivial))
    | with_reducible first
        | apply h_act | apply count_keeps | apply mod_keeps | apply sendFrame_keeps | apply keep_keeps
        | apply PassM.getBind | apply PassM.set | apply PassM.bind | apply_assumption -exfalso -symm | apply PassM.ite
    | split

theorem onFrame_keeps {s0 : State} {s : State} (f : FelbyFrame) (types : Nat → Bool) (act : Felby → Path → M Answer) (h_s : Keeps s0 s) (h_act : ∀ a0 a1, PassM (Keeps s0) (act a0 a1)) :
    PassO (Keeps s0) (State.onFrame s f types act) := by
  unfold State.onFrame
  repeat' first
    | intro _
    | with_reducible first
        | assumption | apply h_act | apply count_keeps | apply runDict_keeps | apply request_keeps | apply PassO.next
        | apply PassO.ite

theorem felbyReadWork_keeps {s0 : State} (x : Felby) (p : Path) :
    PassM (Keeps s0) (felbyReadWork x p : M Answer) := by
  unfold felbyReadWork
  repeat' first
    | intro _
    | (extract_lets -underBinder +onlyGivenNames x; guard_hyp x : _ := _; clear_value x; have x := trivial)
    | with_reducible first | apply readBytesOf_keeps | apply PassM.pure | apply PassM.bind | apply PassM.ite

theorem execFelbyRead_keeps {s0 : State} (f : FelbyFrame) {s : State} (h_s : Keeps s0 s) :
    PassO (Keeps s0) (execFelbyRead f s) := by
  unfold execFelbyRead
  repeat' first
    | intro _
    | with_reducible first | assumption | apply onFrame_keeps | apply felbyReadWork_keeps

theorem felbyWriteWork_keeps {s0 : State} (f : FelbyFrame) (x : Felby) (p : Path) :
    PassM (Keeps s0) (felbyWriteWork f x p : M Answer) := by
  unfold felbyWriteWork
  repeat' first
    | intro _
    | (extract_lets -underBinder +onlyGivenNames x; first
      | (with_reducible refine PassM.cut (P := Keeps s0) (x := x) ?_ fun hx => ?_; rotate_left; clear_value x; have x := trivial; rotate_left; unfold x; clear x)
      | (guard_hyp x : Dict := _; have x := trivial)
      | (guard_hyp x : _ := _; clear_value x; have x := trivial))
    | with_reducible first
        | apply mod_keeps | apply access_keeps | apply writeObject_keeps | apply segment_keeps | apply PassM.pure
        | apply PassM.bind | apply_assumption -exfalso -symm | apply PassM.ite
    | split
    | (with_reducible refine Keeps.upd ?_ rfl rfl rfl rfl rfl rfl rfl rfl rfl; with_reducible assumption)

theorem execFelbyWrite_keeps {s0 : State} (f : FelbyFrame) {s : State} (h_s : Keeps s0 s) :
    PassO (Keeps s0) (execFelbyWrite f s) := by
  unfold execFelbyWrite
  repeat' first
    | intro _
    | with_reducible first | assumption | apply onFrame_keeps | apply felbyWriteWork_keeps

theorem felbyDescribeWork_keeps {s0 : State} (x : Felby) (p : Path) :
    PassM (Keeps s0) (felbyDescribeWork x p : M Answer) := by
  unfold felbyDescribeWork
  repeat' first
    | intro _
    | with_reducible assumption
    | (extract_lets -underBinder +onlyGivenNames x; guard_hyp x : _ := _; clear_value x; have x := trivial)
    | with_reducible first
        | apply denyObject_keeps | apply PassM.pure | apply PassM.getBind | apply PassM.set | apply PassM.bind
        | apply PassM.ite
    | split

theorem execFelbyDescribe_keeps {s0 : State} (f : FelbyFrame) {s : State} (h_s : Keeps s0 s) :
    PassO (Keeps s0) (execFelbyDescribe f s) := by
  unfold execFelbyDescribe
  repeat' first
    | intro _
    | with_reducible first | assumption | apply onFrame_keeps | apply felbyDescribeWork_keeps

theorem execFelbySpdm_keeps {s0 : State} (f : FelbyFrame) (req : SpdmReq) {s : State} (h_s : Keeps s0 s) :
    PassO (Keeps s0) (execFelbySpdm f req s) := by
  unfold execFelbySpdm
  repeat' first
    | intro _
    | with_reducible first
        | assumption | apply spdm_keeps | apply onFrame_keeps | apply PassM.pure | apply PassM.getBind | apply PassM.set
        | apply PassM.bind | apply PassM.ite

theorem execFelbyUnknownType_keeps {s0 : State} (f : FelbyFrame) {s : State} (h_s : Keeps s0 s) :
    PassO (Keeps s0) (execFelbyUnknownType f s) := by
  unfold execFelbyUnknownType
  repeat' first
    | intro _
    | with_reducible assumption
    | (extract_lets -underBinder +onlyGivenNames x; guard_hyp x : _ := _; clear_value x; have x := trivial)
    | with_reducible first
        | apply count_keeps | apply onFrame_keeps | apply PassM.pure | apply PassO.next | apply PassO.ite

theorem execFelbyFrameDiscard_keeps {s0 : State} (f : FelbyFrame) {s : State} (h_s : Keeps s0 s) :
    PassO (Keeps s0) (execFelbyFrameDiscard f s) := by
  unfold execFelbyFrameDiscard
  repeat' with_reducible first | assumption | apply count_keeps | apply PassO.next | apply PassO.ite

theorem sendEvent_keeps {s0 : State} {s : State} (o : Outstanding) (h_s : Keeps s0 s) :
    Keeps s0 (State.sendEvent s o) := by
  unfold State.sendEvent
  repeat' first
    | with_reducible assumption
    | (extract_lets -underBinder +onlyGivenNames x; first
      | (with_reducible refine Pass.cut (P := Keeps s0) (x := x) ?_ fun hx => ?_; rotate_left; clear_value x; have x := trivial; rotate_left; unfold x; clear x)
      | (guard_hyp x : Dict := _; have x := trivial))
    | with_reducible first | apply count_keeps | apply sendFrame_keeps
    | (with_reducible refine Keeps.upd ?_ rfl rfl rfl rfl rfl rfl rfl rfl rfl; with_reducible assumption)

theorem execEventSend_keeps {s0 : State} (timeMs : Nat) {s : State} (h_s : Keeps s0 s) :
    PassO (Keeps s0) (execEventSend timeMs s) := by
  unfold execEventSend
  repeat' first
    | with_reducible assumption
    | (extract_lets -underBinder +onlyGivenNames x; first
      | (with_reducible refine Pass.cut (P := Keeps s0) (x := x) ?_ fun hx => ?_; rotate_left; clear_value x; have x := trivial; rotate_left; unfold x; clear x)
      | (guard_hyp x : Dict := _; have x := trivial)
      | (guard_hyp x : _ := _; clear_value x; have x := trivial))
    | with_reducible first | apply setObj_keeps | apply sendEvent_keeps | apply PassO.next | apply PassO.ite
    | split
    | (with_reducible refine Keeps.upd ?_ rfl rfl rfl rfl rfl rfl rfl rfl rfl; with_reducible assumption)

theorem execEventRetry_keeps {s0 : State} (timeMs : Nat) {s : State} (h_s : Keeps s0 s) :
    PassO (Keeps s0) (execEventRetry timeMs s) := by
  unfold execEventRetry
  repeat' first
    | with_reducible assumption
    | (extract_lets -underBinder +onlyGivenNames x; guard_hyp x : _ := _; clear_value x; have x := trivial)
    | with_reducible first | apply setObj_keeps | apply sendEvent_keeps | apply PassO.next | apply PassO.ite
    | split

theorem execEventAck_keeps {s0 : State} (f : FelbyFrame) {s : State} (h_s : Keeps s0 s) :
    PassO (Keeps s0) (execEventAck f s) := by
  unfold execEventAck
  repeat' first
    | with_reducible assumption
    | (extract_lets -underBinder +onlyGivenNames x; first
      | (with_reducible refine Pass.cut (P := Keeps s0) (x := x) ?_ fun hx => ?_; rotate_left; clear_value x; have x := trivial; rotate_left; unfold x; clear x)
      | (guard_hyp x : Dict := _; have x := trivial)
      | (guard_hyp x : _ := _; clear_value x; have x := trivial))
    | with_reducible first | apply setObj_keeps | apply count_keeps | apply PassO.next | apply PassO.ite
    | split
    | (with_reducible refine Keeps.upd ?_ rfl rfl rfl rfl rfl rfl rfl rfl rfl; with_reducible assumption)

theorem execManagementPortUp_keeps {s0 : State} (port : Nat) {s : State} (h_s : Keeps s0 s) :
    PassO (Keeps s0) (execManagementPortUp port s) := by
  unfold execManagementPortUp
  repeat' with_reducible first | assumption | apply setObj_keeps | apply PassO.next | apply PassO.ite

theorem execManagementPortDown_keeps {s0 : State} (port : Nat) {s : State} (h_s : Keeps s0 s) :
    PassO (Keeps s0) (execManagementPortDown port s) := by
  unfold execManagementPortDown
  repeat' first
    | with_reducible assumption
    | (extract_lets -underBinder +onlyGivenNames x; with_reducible refine Pass.cut (P := Keeps s0) (x := x) ?_ fun hx => ?_; rotate_left; clear_value x; have x := trivial; rotate_left; unfold x; clear x)
    | with_reducible first
        | apply setObj_keeps | apply takeFree_keeps | apply raise_keeps | apply PassO.next | apply PassO.ite

end Sys2Proof.Safety
end

