-- ==== Sys2Proof/Laws/KeepsHostPort.lean ====
section
/-! SUPPORT. The commands' parts in Machine/HostPort.lean keep what `Keeps` names. -/

namespace Sys2Proof.Safety

open Sys2Proof.Machine

theorem hostUnkeyed_keeps {s0 : State} {s : State} (va kind : Nat) (h_s : Keeps s0 s) :
    Keeps s0 (State.hostUnkeyed s va kind) := by
  unfold State.hostUnkeyed
  repeat' with_reducible first | assumption | apply count_keeps | apply noteDenied_keeps

theorem complete__keeps {s0 : State} {s : State} (bs : List Byte) (h_s : Keeps s0 s) :
    Keeps s0 (State.complete_ s bs) := by
  unfold State.complete_
  repeat' with_reducible first | assumption | apply addObj_keeps | apply emit_keeps

theorem asAbsent_keeps {s0 : State} {s : State} (a : Abort) (h_s : Keeps s0 s) :
    Keeps s0 (State.asAbsent s a) := by
  unfold State.asAbsent
  repeat' first
    | with_reducible first | assumption | apply count_keeps
    | split

theorem hostRead_keeps {s0 : State} {s : State} (va n : Nat) (h_s : Keeps s0 s) :
    Keeps s0 (State.hostRead s va n) := by
  unfold State.hostRead
  repeat' first
    | with_reducible first
        | assumption | apply count_keeps | apply emit_keeps | apply uncorrected_keeps | apply readBytes_keeps
        | apply complete__keeps | apply asAbsent_keeps | apply Pass.ite (P := Keeps s0)
    | split
    | refine PassM.ok ?_ ?_ (by with_reducible assumption)
    | refine PassM.error ?_ ?_ (by with_reducible assumption)

theorem execHostBar2Read_keeps {s0 : State} (ide : Bool) (offset len : Nat) {s : State} (h_s : Keeps s0 s) :
    PassO (Keeps s0) (execHostBar2Read ide offset len s) := by
  unfold execHostBar2Read
  repeat' first
    | with_reducible assumption
    | (extract_lets -underBinder +onlyGivenNames x; guard_hyp x : _ := _; clear_value x; have x := trivial)
    | with_reducible first
        | apply count_keeps | apply emit_keeps | apply hostUnkeyed_keeps | apply complete__keeps | apply hostRead_keeps
        | apply PassO.next | apply PassO.ite

theorem hostWritePiece_keeps {s0 : State} {s : State} (va : Nat) (bs : List Byte) (h_s : Keeps s0 s) :
    Keeps s0 (State.hostWritePiece s va bs) := by
  unfold State.hostWritePiece
  repeat' first
    | with_reducible first | assumption | apply writeBytes_keeps | apply asAbsent_keeps
    | split
    | refine PassM.ok ?_ ?_ (by with_reducible assumption)
    | refine PassM.error ?_ ?_ (by with_reducible assumption)

theorem execHostBar2Write_keeps {s0 : State} (ide : Bool) (offset : Nat) (bytes : List Byte) {s : State} (h_s : Keeps s0 s) :
    PassO (Keeps s0) (execHostBar2Write ide offset bytes s) := by
  unfold execHostBar2Write
  repeat' first
    | intro _
    | with_reducible assumption
    | (extract_lets -underBinder +onlyGivenNames x; first
      | (with_reducible refine Pass.cut (P := Keeps s0) (x := x) ?_ fun hx => ?_; rotate_left; clear_value x; have x := trivial; rotate_left; unfold x; clear x)
      | (guard_hyp x : _ := _; clear_value x; have x := trivial))
    | with_reducible first
        | apply addObj_keeps | apply count_keeps | apply hostUnkeyed_keeps | apply hostWritePiece_keeps
        | apply PassO.next | apply Pass.foldl (P := Keeps s0) | apply PassO.ite

theorem execHostUnsupportedRequest_keeps {s0 : State} {s : State} (h_s : Keeps s0 s) :
    PassO (Keeps s0) (execHostUnsupportedRequest s) := by
  unfold execHostUnsupportedRequest
  repeat' first
    | with_reducible first
        | assumption | apply count_keeps | apply emit_keeps | apply PassO.next | apply PassO.ite

theorem execHostReadTimeout_keeps {s0 : State} (r : Nat) {s : State} (h_s : Keeps s0 s) :
    PassO (Keeps s0) (execHostReadTimeout r s) := by
  unfold execHostReadTimeout
  repeat' first
    | with_reducible first
        | assumption | apply count_keeps | apply failTask_keeps | apply PassO.next | apply PassO.ite
    | split

end Sys2Proof.Safety
end

