-- ==== Sys2Proof/Laws/Migrations.lean ====
section
/-! SUPPORT. What the allocator answers, and what the steps of a migration do to the lists of migrations. -/

namespace Sys2Proof.Safety

open Sys2Proof.Machine

theorem allocCode_free {s : State} {a : AllocArgs} (h : a.op = 2) (n : s.handle? a.handle = none) : s.allocCode a = 5 := by
  unfold State.allocCode
  rw [if_neg (by omega), if_neg (by omega), if_pos h, n]; rfl

theorem allocCode_range {s : State} {a : AllocArgs} (h : (a.op ≠ 1 ∧ a.op ≠ 2) ∨ (a.op = 1 ∧ 19 < a.order)) : s.allocCode a = 6 := by
  unfold State.allocCode
  rcases h with h | h
  · rw [if_pos h]
  · rw [if_neg (by omega), if_pos ⟨h.1, .inr (.inr h.2)⟩]

theorem allocPerform_code {s : State} {a : AllocArgs} {r c : Nat} (h : s.allocCode a = c) (n : c ≠ 0) (l : c < 65536) :
    field (s.allocPerform a r).1 47 32 = c := by
  unfold State.allocPerform
  rw [h]
  simp only [if_pos n]
  unfold field allocResult
  rw [Nat.zero_shiftLeft, Nat.zero_shiftLeft, Nat.zero_add, Nat.shiftLeft_eq, Nat.shiftRight_eq_div_pow,
    Nat.mul_div_cancel _ (by decide)]
  exact Nat.mod_eq_of_lt l

/-- Nothing of the page map, of migrations and of what asks for them has changed. -/
abbrev placesOf (s : State) := (s.mem.migrations, s.mem.asks)

theorem count_places {s : State} {k n : Nat} : (s.addObj k n).mem = s.mem := by
  unfold State.addObj; split <;> rfl

theorem dropLines_mem {s : State} {p : Nat → Bool} {b : Bool} : (s.dropLines p b).mem.migrations = s.mem.migrations ∧
    (s.dropLines p b).mem.asks = s.mem.asks ∧ (s.dropLines p b).mem.pages = s.mem.pages := by
  unfold State.dropLines
  dsimp only
  have key : ∀ (l : List CacheLine) (x : State),
      let y := l.foldl (fun s c => if p c.line && c.dirty && b then s.writeBack c.line else s) x
      y.mem.migrations = x.mem.migrations ∧ y.mem.asks = x.mem.asks ∧ y.mem.pages = x.mem.pages := by
    intro l
    induction l with
    | nil => exact fun _ => ⟨rfl, rfl, rfl⟩
    | cons c l ih =>
      intro x
      have k := ih (if p c.line && c.dirty && b then x.writeBack c.line else x)
      have j : ∀ z : State, z = (if p c.line && c.dirty && b then x.writeBack c.line else x) →
          z.mem.migrations = x.mem.migrations ∧ z.mem.asks = x.mem.asks ∧ z.mem.pages = x.mem.pages := by
        rintro z rfl
        split
        · unfold State.writeBack State.count
          dsimp only
          rw [count_places, count_places]
          exact ⟨rfl, rfl, rfl⟩
        · exact ⟨rfl, rfl, rfl⟩
      obtain ⟨a, b', c'⟩ := j _ rfl
      exact ⟨k.1.trans a, k.2.1.trans b', k.2.2.trans c'⟩
  exact key _ _

theorem shootdown_mem {s : State} {p : Nat} : (s.shootdown p).mem.migrations = s.mem.migrations ∧ (s.shootdown p).mem.asks = s.mem.asks ∧
    ∀ q, entPlace ((s.shootdown p).entry q) = entPlace (s.entry q) := by
  unfold State.shootdown State.count
  extract_lets n x
  have w : Works s x := addCount_works p n (Works.refl s)
  have f := w.frame
  have pl := w.places
  clear_value x
  simp only [workFrame, Prod.mk.injEq] at f
  rw [count_places]
  refine ⟨f.2.2.2.2.2.2.2.2.2.2.2.2.2.2.2.2.2.1, f.2.2.2.2.2.2.2.2.2.2.2.2.2.2.2.2.1, fun q => ?_⟩
  refine Eq.trans ?_ (pl q)
  unfold State.entry
  rw [count_places]

theorem entState_place {a b : Nat} (h : entPlace a = entPlace b) : entState a = entState b := by
  have e : a / 2 ^ 59 = b / 2 ^ 59 := congrArg Prod.fst h
  unfold entState field
  omega

theorem entState_mk {st p c sl l : Nat} {b a : Bool} (h1 : st < 4) (h2 : p < 4) (h3 : c < 65536) (h4 : sl < 65536) (h5 : l < 2 ^ 24) :
    entState (mkEntry st p b c sl a l) = st := by
  unfold entState mkEntry field
  have x : bitOf b < 2 := by cases b <;> decide
  have y : bitOf a < 2 := by cases a <;> decide
  simp only [Nat.shiftLeft_eq, Nat.shiftRight_eq_div_pow]
  omega

theorem setEntry_mem {s : State} {p e : Nat} : (s.setEntry p e).mem.migrations = s.mem.migrations ∧ (s.setEntry p e).mem.asks = s.mem.asks := ⟨rfl, rfl⟩

theorem takeTarget_mem {s x : State} {page f : Nat} {b : Bool} (e : s.takeTarget page b = some (f, x)) :
    x.mem.migrations = s.mem.migrations ∧ x.mem.asks = s.mem.asks := by
  unfold State.takeTarget at e
  dsimp only at e
  split at e
  · cases g : s.findFar (s.pagePlacement page) (entSlot (s.entry page)) (s.pageIndex page) with
    | none => rw [g] at e; cases e
    | some q => rw [g] at e; cases e; exact ⟨rfl, rfl⟩
  · cases g : s.findNear (s.pagePlacement page) (entSlot (s.entry page)) (s.pageIndex page) page with
    | none => rw [g] at e; cases e
    | some q =>
      rw [g] at e
      cases e
      unfold State.takeNear State.count
      dsimp only
      split
      · rw [count_places]; exact ⟨rfl, rfl⟩
      · exact ⟨rfl, rfl⟩

theorem works_migrations {s t : State} (h : Works s t) : t.mem.migrations = s.mem.migrations := by
  have f := h.frame
  simp only [workFrame, Prod.mk.injEq] at f
  exact f.2.2.2.2.2.2.2.2.2.2.2.2.2.2.2.2.2.1

theorem heldFails_mem {s : State} {q : Held} {a : Abort} : (s.heldFails q a).mem.migrations = s.mem.migrations := by
  unfold State.heldFails State.count
  split
  · split
    · rw [count_places]
    · rfl
  · split
    · rfl
    · split
      · rfl
      · exact works_migrations (failTask_works _ _ _ (Works.refl s))

theorem atomicRefused_mem {s : State} {q : Held} : (s.atomicRefused q).mem.migrations = s.mem.migrations := by
  unfold State.atomicRefused State.count
  split
  · rw [count_places]
  · rfl

theorem releaseHeld_mem {s : State} (q : Held) : (s.releaseHeld q).mem.migrations = s.mem.migrations := by
  unfold State.releaseHeld
  have k := works_migrations (translate_works q.tc (q.va / pageBytes) (Works.refl s))
  generalize s.translate q.tc (q.va / pageBytes) = x at *
  rw [← k]
  clear k
  dsimp only
  split
  · have k : ((x.atomicRefused q).useFreed (q.va / pageBytes)).mem.migrations = x.mem.migrations :=
      (works_migrations (useFreed_works _ (Works.refl _))).trans atomicRefused_mem
    rw [heldFails_mem]
    unfold State.count
    split
    · rw [count_places, k]
    · exact k
  · split
    · rw [heldFails_mem]
      exact works_migrations (discardMsg_works _ (refuse_works _ _ _ _ (Works.refl x)))
    · split
      · exact works_migrations (noteStale_works (Works.refl x))
      · split
        · split
          · exact works_migrations (performAtomic_works _ _ _ _ (Works.refl x))
          · rw [heldFails_mem, atomicRefused_mem]
        · exact works_migrations (storeAt_works _ _ _ (Works.refl x))

theorem releasePage_mem {s : State} {p : Nat} : (s.releasePage p).mem.migrations = s.mem.migrations := by
  unfold State.releasePage
  dsimp only
  have key : ∀ (l : List Held) (x : State), (l.foldl (fun s h => s.releaseHeld h) x).mem.migrations = x.mem.migrations := by
    intro l
    induction l with
    | nil => exact fun _ => rfl
    | cons a l ih => exact fun x => (ih _).trans (releaseHeld_mem a)
  rw [key]

theorem freeNear_mem {s : State} {f : Nat} : (s.freeNear f).mem.migrations = s.mem.migrations := by
  unfold State.freeNear
  have h := (dropLines_mem (s := s) (p := fun l => l / 8192 == f) (b := true)).1
  dsimp only
  generalize s.dropLines (fun l => l / 8192 == f) true = x at *
  rw [← h]
  rfl

theorem freeFar_mem {s : State} {f : Nat} : (s.freeFar f).mem.migrations = s.mem.migrations := rfl

theorem endMigration_mem {s : State} {m : Migration} {ok : Bool} :
    ∃ x : State, s.endMigration m ok = x.refreshMigrating ∧ x.mem.migrations = s.mem.migrations.filter (·.page != m.page) ∧
    Pages s x := by
  unfold State.endMigration
  extract_lets a b e x0 x c d f g h i y
  refine ⟨_, rfl, ?_, ?_⟩
  rotate_left
  · have hx : Pages s x := (Pages.refl s).upd rfl rfl rfl rfl rfl rfl rfl
    have hc : Pages s c := copyPage_pages _ _ hx
    have hd : Pages s d := translate_pages _ _ hc
    clear_value x c d
    have hf : Pages s f := by
      unfold f
      with_reducible exact Pass.ite (addObj_pages oFarWriteBytes _ (addObj_pages oStackReadBytes _ hd (by decide)) (by decide)) (addObj_pages oStackWriteBytes _ (addObj_pages oFarReadBytes _ hd (by decide)) (by decide))
    have hg : Pages s g := setEntry_pages _ _ hf
    have hh : Pages s h := count_pages _ hg (by split <;> decide)
    have hi : Pages s i := setEntry_pages _ _ hx
    clear_value f g h i
    have hy : Pages s y := by
      unfold y
      with_reducible exact Pass.ite (P := Pages s) (Pass.ite (P := Pages s) (freeNear_pages _ hh) (freeFar_pages _ hh)) (Pass.ite (P := Pages s) (freeFar_pages _ (freeNear_pages _ hi)) (freeNear_pages _ (freeFar_pages _ hi)))
    clear_value y
    with_reducible exact releasePage_pages _ (shootdown_pages _ hy)
  rw [releasePage_mem, shootdown_mem.1]
  have hd : d.mem.migrations = x.mem.migrations := (works_migrations (s := c) (translate_works _ _ (Works.refl c))).trans rfl
  clear_value d
  have hf : f.mem.migrations = d.mem.migrations := by
    unfold f
    split <;> rw [count_places, count_places]
  have hg : h.mem.migrations = x.mem.migrations := by
    unfold h g State.count
    rw [count_places, ← hd, ← hf]
    rfl
  have hi : i.mem.migrations = x.mem.migrations := rfl
  have hx : x.mem.migrations = s.mem.migrations.filter (·.page != m.page) := rfl
  clear_value x h i
  rw [← hx]
  unfold y
  split
  · split
    · rw [freeNear_mem, hg]
    · rw [freeFar_mem, hg]
  · split
    · rw [freeFar_mem, freeNear_mem, hi]
    · rw [freeNear_mem, freeFar_mem, hi]

end Sys2Proof.Safety
end

