-- ==== Sys2Proof/Laws/PageJobs.lean ====
section
/-! SUPPORT. When the work of an allocate or page task completes. -/

namespace Sys2Proof.Safety

open Sys2Proof.Machine

theorem runWork_done {s v : State} {t : Machine.Task} {outs : List (Nat × Nat)} {m : M Unit} (e : m.run s = .ok () v)
    (k : PassM (Pages s) m) (h : s.task? t.record = some t) :
    ∃ t', v.task? t.record = some t' ∧ runWork s t outs m = .next (v.setTask { t' with work := 1 }) := by
  have g := k.of_run s (Pages.refl s)
  rw [e] at g
  obtain ⟨u, hu⟩ := task?_of_records g.records h
  refine ⟨u, hu, ?_⟩
  unfold runWork
  rw [e]
  simp only [hu]

theorem alloc_completes {s u v : State} {r op : Nat} {t : Machine.Task} {m : M Unit} (h : allocJob s r op = some (u, t, m))
    (e : m.run u = .ok () v) : ∃ t', v.task? t.record = some t' ∧ s.runAlloc r op = .next (v.setTask { t' with work := 1 }) := by
  unfold allocJob at h
  obtain ⟨t0, h0, h1⟩ := Option.map_eq_some_iff.1 h
  cases h1
  obtain ⟨w, f, k, rr⟩ := dueTask_some h0
  simp only [Bool.and_eq_true, beq_iff_eq, Bool.not_eq_true'] at f
  subst rr
  obtain ⟨t', h1, h2⟩ := runWork_done (t := t) (outs := []) e (allocWork_pages _) k
  refine ⟨t', h1, ?_⟩
  unfold State.runAlloc State.serveAllocTask
  simp only [w, f, and_self, if_true, Bool.false_eq_true, if_false]
  exact h2

theorem page_completes {s u v : State} {r : Nat} {form : Nat → Bool} {one : Machine.Task → Nat → M Unit} {t : Machine.Task} {m : M Unit}
    (h : pageJob s r form one = some (u, t, m)) (e : m.run u = .ok () v) (p : ∀ t p, PassM (Pages s) (one t p)) :
    ∃ t', v.task? t.record = some t' ∧ s.runPage r form one = .next (v.setTask { t' with work := 1 }) := by
  unfold pageJob at h
  obtain ⟨t0, h0, h1⟩ := Option.map_eq_some_iff.1 h
  cases h1
  obtain ⟨w, f, k, rr⟩ := dueTask_some h0
  simp only [Bool.and_eq_true, beq_iff_eq, Bool.not_eq_true'] at f
  subst rr
  have q : PassM (Pages s) (pageWork one t) := by
    exact pageWork_pages _ _ p
  obtain ⟨t', h1, h2⟩ := runWork_done (t := t) (outs := []) e q k
  refine ⟨t', h1, ?_⟩
  unfold State.runPage
  simp only [w, f, ne_eq, not_true_eq_false, Bool.not_true, Bool.false_eq_true, or_self, if_false]
  exact h2

end Sys2Proof.Safety
end

