-- ==== Sys2Proof/Laws/PortMaps.lean ====
section
/-! SUPPORT. Ports read after they are set. -/

namespace Sys2Proof.Safety

open Sys2Proof.Machine

theorem field_at (pre a post : List Byte) (b n : Nat) (h : pre.length = b) (k : a.length = n) :
    ((pre ++ (a ++ post)).drop b).take n = a := by
  subst h; subst k; simp

theorem mapInsert_twice {β : Type} {m : List (Nat × β)} {k : Nat} {v w : β} : mapInsert (mapInsert m k v) k w = mapInsert m k w := by
  induction m with
  | nil => simp [mapInsert]
  | cons q m ih =>
    obtain ⟨a, b⟩ := q
    simp only [mapInsert]
    split
    · simp [mapInsert]
    · split
      · simp [mapInsert]
      · rename_i h1 h2
        simp only [mapInsert, if_neg h1, if_neg h2, ih]

theorem setPort_port {s : State} {p : Nat} {q : Port} (h : q ≠ {}) : (s.setPort p q).port p = q := by
  show (mapFind (mapPut {} s.ports p q) p).getD {} = q
  exact mapGet_mapPut_self h

theorem setPort_twice {s : State} {p : Nat} {q r : Port} (h : q ≠ {}) (k : r ≠ {}) : (s.setPort p q).setPort p r = s.setPort p r := by
  unfold State.setPort mapPut
  rw [if_neg h, if_neg k, if_neg k]
  dsimp only
  rw [mapInsert_twice]

end Sys2Proof.Safety
end

