-- ==== Sys2Proof/Laws/Upkeep.lean ====
section
/-! SUPPORT. What a scrub report does, and counts halved. -/

namespace Sys2Proof.Safety

open Sys2Proof.Machine

theorem mapFind_map {f : Nat → Nat} {m : List (Nat × Nat)} {k : Nat} : mapFind (m.map fun q => (q.1, f q.2)) k = (mapFind m k).map f := by
  induction m with
  | nil => rfl
  | cons q m ih =>
    obtain ⟨a, b⟩ := q
    simp only [List.map_cons, mapFind]
    split
    · rfl
    · exact ih

/-- What meeting an uncorrectable error does. -/
theorem uncorrected_facts {s : State} {loc r : Nat} (h : Rising s.dict.objs) :
    Rising (s.uncorrected loc r).dict.objs ∧ (s.uncorrected loc r).mem = s.mem ∧ (s.uncorrected loc r).sched = s.sched ∧
    (s.uncorrected loc r).obj oEccUncorrected = (s.obj oEccUncorrected + 1) % 2 ^ 64 ∧
    (s.uncorrected loc r).obj oEccLastLocation = loc ∧
    (s.uncorrected loc r).obj oHashCapacityMib = s.obj oHashCapacityMib ∧
    (s.uncorrected loc r).obj oEccCorrected = s.obj oEccCorrected := by
  unfold State.uncorrected State.count
  have c1 := addObj_self (k := oEccUncorrected) (n := 1) h (by decide)
  have c2 := addObj_obj (k := oEccUncorrected) (n := 1) (j := oHashCapacityMib) h (by decide)
  have c6 := addObj_obj (k := oEccUncorrected) (n := 1) (j := oEccCorrected) h (by decide)
  obtain ⟨-, c5, c3⟩ := addObj_out (s := s) (k := oEccUncorrected) (n := 1)
  have c4 : Rising (s.addObj oEccUncorrected 1).dict.objs := rising_addObj h
  generalize s.addObj oEccUncorrected 1 = y at *
  have r0 : Rising (y.setObj oEccLastLocation loc).dict.objs := rising_setObj c4
  have o0 : ∀ k, (y.setObj oEccLastLocation loc).obj k = if k = oEccLastLocation then loc else y.obj k := fun k => obj_setObj c4
  have m0 : (y.setObj oEccLastLocation loc).mem = s.mem := c3
  have s0 : (y.setObj oEccLastLocation loc).sched = s.sched := c5
  generalize y.setObj oEccLastLocation loc = z at *
  obtain ⟨a, -, b, c, g⟩ := raise_frame (s := z) (code := 0x0A02) (src := eccSource loc) (unit := field loc 59 48) (a := loc)
    (b := r) (c := 0) (d := 0) (e := 0) r0
  refine ⟨a, c.trans m0, b.trans s0, ?_, ?_, ?_, ?_⟩
  · rw [g _ (by decide) (by decide) (by decide), o0, if_neg (by decide), c1, show objSize oEccUncorrected = 8 by decide +kernel]
  · rw [g _ (by decide) (by decide) (by decide), o0, if_pos rfl]
  · rw [g _ (by decide) (by decide) (by decide), o0, if_neg (by decide), c2]
  · rw [g _ (by decide) (by decide) (by decide), o0, if_neg (by decide), c6]

/-- What a scrub finds again leaves memory, tasks and where the reports lie. -/
theorem again_facts (l : List Nat) {s : State} (h : Rising s.dict.objs) :
    let t := l.foldl (fun s p => s.uncorrected (poisonLocation p) 0xFFFFFFFF) s
    Rising t.dict.objs ∧ t.mem = s.mem ∧ t.sched = s.sched ∧
    t.obj oEccUncorrected % 2 ^ 64 = (s.obj oEccUncorrected + l.length) % 2 ^ 64 ∧ (∀ n r, t.eccLocation n r = s.eccLocation n r) ∧
    t.obj oEccCorrected = s.obj oEccCorrected := by
  induction l generalizing s with
  | nil => exact ⟨h, rfl, rfl, rfl, fun _ _ => rfl, rfl⟩
  | cons p l ih =>
    obtain ⟨a, b, c, d, -, e, f⟩ := uncorrected_facts (loc := poisonLocation p) (r := 0xFFFFFFFF) h
    obtain ⟨i, j, k, m, n, o⟩ := ih a
    refine ⟨i, j.trans b, k.trans c, ?_, fun q r => (n q r).trans ?_, o.trans f⟩
    · rw [List.foldl_cons, m, d, List.length_cons]
      omega
    · unfold State.eccLocation State.lineSet State.hashLines
      rw [e]

/-- A report of an uncorrectable error in a stack or a slice. -/
theorem scrub_double {s : State} {stack : Nat} {r : EccReport} (h : Rising s.dict.objs) (hr : r.double = true) (hk : r.kind ≠ 2) :
    mapFind (s.scrubError stack r).mem.poison (nearPhys (stack * 65536 + r.frame % 65536) / 64 + r.atom % 32768) = some 0 ∧
    (s.scrubError stack r).obj oEccUncorrected = (s.obj oEccUncorrected + 1) % 2 ^ 64 ∧
    (s.scrubError stack r).obj oEccLastLocation = s.eccLocation stack r ∧ (s.scrubError stack r).mem.cells = s.mem.cells := by
  unfold State.scrubError State.poisoned
  rw [hr]
  simp only [if_true, if_neg hk]
  generalize s.eccLocation stack r = loc
  generalize nearPhys (stack * 65536 + r.frame % 65536) / 64 + r.atom % 32768 = atom
  obtain ⟨y, hy⟩ : ∃ y : State, y = { s with mem := { s.mem with poison := mapInsert s.mem.poison atom 0 } } := ⟨_, rfl⟩
  have y1 : mapFind y.mem.poison atom = some 0 := by rw [hy]; exact mapFind_mapInsert.trans (if_pos rfl)
  have y2 : Rising y.dict.objs := by rw [hy]; exact h
  have y3 : ∀ k, y.obj k = s.obj k := fun k => by rw [hy]; rfl
  have y4 : y.mem.cells = s.mem.cells := by rw [hy]
  obtain ⟨-, f1, -, f2, f3, -⟩ := uncorrected_facts (loc := loc) (r := 0xFFFFFFFF) y2
  rw [hy] at f1 f2 f3
  rw [f1, f2, f3, ← hy]
  exact ⟨y1, by rw [y3], rfl, y4⟩

/-- A report of a corrected error. -/
theorem scrub_single {s : State} {stack : Nat} {r : EccReport} (h : Rising s.dict.objs) (hr : r.double = false) :
    (s.scrubError stack r).mem = s.mem ∧ (s.scrubError stack r).obj oEccCorrected = (s.obj oEccCorrected + 1) % 2 ^ 64 ∧
    (s.scrubError stack r).obj oEccLastLocation = s.eccLocation stack r := by
  unfold State.scrubError
  rw [hr]
  simp only [Bool.false_eq_true, if_false]
  unfold State.corrected
  generalize s.eccLocation stack r = loc
  dsimp only
  generalize (match s.tickEvent? 0x0A01 with | some e => e.w0 | none => 0) + 1 = n
  have r0 : Rising (s.setObj oEccLastLocation loc).dict.objs := rising_setObj h
  have o0 : ∀ k, (s.setObj oEccLastLocation loc).obj k = if k = oEccLastLocation then loc else s.obj k := fun k => obj_setObj h
  have m0 : (s.setObj oEccLastLocation loc).mem = s.mem := rfl
  generalize s.setObj oEccLastLocation loc = x at *
  unfold State.count
  have c1 := addObj_self (k := oEccCorrected) (n := 1) r0 (by decide)
  have c2 := addObj_obj (k := oEccCorrected) (n := 1) (j := oEccLastLocation) r0 (by decide)
  have c3 : (x.addObj oEccCorrected 1).mem = x.mem := count_places
  generalize x.addObj oEccCorrected 1 = z at *
  have t : ∀ e k, (z.setTickEvent e).obj k = z.obj k ∧ (z.setTickEvent e).mem = z.mem := fun _ _ => ⟨rfl, rfl⟩
  refine ⟨(t _ 0).2.trans (c3.trans m0), ?_, ?_⟩
  · rw [(t _ _).1, c1, o0, if_neg (by decide), show objSize oEccCorrected = 8 by decide +kernel]
  · rw [(t _ _).1, c2, o0, if_pos rfl]

/-- A report of an uncorrectable error in the word of a tile's SRAM that a task consumes. -/
theorem scrub_sram {s : State} {stack : Nat} {r : EccReport} {q : Machine.Task} (h : Rising s.dict.objs) (hr : r.double = true)
    (hk : r.kind = 2) (hq : s.sramTask r = some q) :
    (s.scrubError stack r).task? q.record = some { q with work := 2, undef := true } ∧
    (s.scrubError stack r).sched.halt.isSome = true := by
  obtain ⟨n, -, g⟩ := Option.bind_eq_some_iff.1 hq
  have g1 := (Option.filter_eq_some_iff.1 g).1
  have e : q.record = n := by
    unfold State.task? at g1
    simpa using List.find?_some g1
  unfold State.scrubError State.poisoned
  rw [hr, hq]
  simp only [if_true, if_pos hk]
  generalize s.eccLocation stack r = loc
  unfold State.failTask
  have sc := scrambles_fold (s0 := s) q.writers (s.taskOuts q) (Scrambles.refl s)
  dsimp only
  generalize List.foldl (fun s p => s.scramble q.writers p.1 p.2) s (s.taskOuts q) = x at *
  have hx : Rising x.dict.objs := by rw [sc.dict]; exact h
  have hs : x.sched = s.sched := by obtain ⟨_, _, _, _, e⟩ := sc; rw [e]
  obtain ⟨u1, -, u2, -⟩ := uncorrected_facts (loc := loc) (r := q.record) hx
  generalize x.uncorrected loc q.record = y at *
  have ht : (y.setTask { q with work := 2, undef := true }).task? q.record = some { q with work := 2, undef := true } := by
    refine task?_setTask (t := q) (u := { q with work := 2, undef := true }) ?_ rfl
    unfold State.task?
    rw [u2, hs]
    rw [e]
    exact g1
  have hr : Rising (y.setTask { q with work := 2, undef := true }).dict.objs := u1
  generalize y.setTask { q with work := 2, undef := true } = z at *
  unfold State.taskFault
  obtain ⟨-, -, k, -⟩ := raise_frame (s := z) (code := 0x0102) (src := q.source) (unit := q.unit) (a := q.record) (b := 9)
    (c := 0x0A02) (d := 0) (e := 0) hr
  generalize z.raise 0x0102 q.source q.unit q.record 0x09 0x0A02 = w at *
  have hw : w.task? q.record = some { q with work := 2, undef := true } := by
    unfold State.task?; rw [k]; exact ht
  unfold State.haltWith
  split
  · rename_i e2; exact ⟨hw, by rw [e2]; rfl⟩
  · exact ⟨hw, rfl⟩

end Sys2Proof.Safety
end

