-- ==== Sys2Proof/Laws/HostLinks.lean ====
section
/-! SUPPORT. Host and far links that come up and go down. -/

namespace Sys2Proof.Safety

open Sys2Proof.Machine

theorem farDown_cells {s : State} {h cause : Nat} (r : Rising s.dict.objs) : ∀ a, farPhys (h * 2 ^ 22) ≤ a →
    a < farPhys ((h + 1) * 2 ^ 22) → memByte (s.farDown h cause).mem.cells a = 0 := by
  intro a h1 h2
  unfold State.farDown
  extract_lets fp x
  have rx : Rising x.dict.objs := by
    unfold x State.setFarState
    have q : Rising (s.setFar h { fp with state := 1, ide := false, kept := false }).dict.objs := r
    exact rising_setObj q
  clear_value x
  have p : Pages x (x.losePort h) := losePort_pages h (Pages.refl x)
  have pr := (p.objs rx).1
  have m : ∃ c, (x.losePort h).mem.cells = memClear c (farPhys (h * 2 ^ 22)) (farPhys ((h + 1) * 2 ^ 22)) := by
    unfold State.losePort State.refreshFrames
    exact ⟨_, rfl⟩
  generalize x.losePort h = y at *
  have rz : Rising (y.endSessions (40 + h)).dict.objs := by
    have i : (fun k => k = oSpdmSessions) oSpdmSessions := rfl
    exact ((Only.refl (f := (· = oSpdmSessions)) pr).endSessions i).rising
  have mz : (y.endSessions (40 + h)).mem = y.mem := rfl
  generalize y.endSessions (40 + h) = z at *
  have e := (raise_frame (code := 0x0601) (src := 6) (unit := h) (a := 1) (b := h) (c := cause) (d := 0) (e := 0) rz).2.2.2.1
  rw [e, mz]
  obtain ⟨c, hc⟩ := m
  rw [hc]
  unfold memClear memByte
  have : mapFind (c.filter fun q => decide (q.1 < farPhys (h * 2 ^ 22)) || decide (farPhys ((h + 1) * 2 ^ 22) ≤ q.1)) a = none := by
    clear hc
    induction c with
    | nil => rfl
    | cons q c ih =>
      rw [List.filter_cons]
      split
      · rename_i k
        have : q.1 ≠ a := by
          rintro rfl
          simp only [Bool.or_eq_true, decide_eq_true_eq] at k
          omega
        obtain ⟨b, v⟩ := q
        simp only [mapFind, if_neg this, ih]
      · exact ih
  rw [this]; rfl

theorem farUp_frame {s : State} {h : Nat} {f : FarFound} (r : Rising s.dict.objs) (hh : h < 4) :
    (∀ q, q < 4 → field ((s.farUp h f).obj oFarLinkState) (8 * q + 7) (8 * q) =
      if q = h then 4 else field (s.obj oFarLinkState) (8 * q + 7) (8 * q)) ∧
    (s.farUp h f).obj (oFarCapacityH0 + h) = farFrames f.bytes * pageBytes ∧ (s.farUp h f).obj (oFarCertDigestH0 + h) = f.digest ∧
    (∀ q, q ≠ h → (s.farUp h f).farPort q = s.farPort q) ∧ (s.farUp h f).mem = s.mem := by
  unfold State.farUp
  extract_lets n a b c d sec e
  have hn : n = farFrames f.bytes := rfl
  have far_a : a.far = (s.setFar h { state := 4, frames := n, serial := f.serial, digest := f.digest, ide := f.ide && decide (2 ≤ f.version) }).far := rfl
  have fx : ∀ q, q ≠ h → a.farPort q = s.farPort q := by
    intro q k
    unfold State.farPort
    rw [far_a]
    unfold State.setFar
    dsimp only
    rw [mapFind_put_ne k]
  have ra : Rising a.dict.objs ∧ (∀ k, a.obj k = if k = oFarLinkState then setField (s.obj oFarLinkState) (8 * h + 7) (8 * h) 4 else s.obj k) ∧ a.mem = s.mem := by
    unfold a State.setFarState
    have q : Rising (s.setFar h { state := 4, frames := n, serial := f.serial, digest := f.digest, ide := f.ide && decide (2 ≤ f.version) }).dict.objs := r
    exact ⟨rising_setObj q, fun k => (obj_setObj q), rfl⟩
  have b1 : Rising (a.setObj (oFarCapacityH0 + h) (n * pageBytes)).dict.objs := rising_setObj ra.1
  have rb : Rising b.dict.objs ∧ (∀ k, b.obj k = if k = oFarCertDigestH0 + h then f.digest else if k = oFarCapacityH0 + h then n * pageBytes else a.obj k) ∧ b.mem = a.mem ∧ b.far = a.far := by
    refine ⟨?_, ?_, rfl, rfl⟩
    · with_reducible exact rising_setObj b1
    · intro k
      show ((a.setObj (oFarCapacityH0 + h) (n * pageBytes)).setObj (oFarCertDigestH0 + h) f.digest).obj k = _
      rw [obj_setObj b1, obj_setObj ra.1]
  have hc : Only (fun k => k = oFarCxlVersions ∨ k = oSpdmSessions ∨ k = oNearFramesFree ∨ k = oFarFramesFree) b c := by
    have i : (fun k => k = oFarCxlVersions ∨ k = oSpdmSessions ∨ k = oNearFramesFree ∨ k = oFarFramesFree) oFarCxlVersions := .inl rfl
    unfold c
    with_reducible exact (Only.refl rb.1).setObj i
  have mc : c.mem = b.mem ∧ c.far = b.far := ⟨rfl, rfl⟩
  clear_value n a b c
  have hd : Only (fun k => k = oFarCxlVersions ∨ k = oSpdmSessions ∨ k = oNearFramesFree ∨ k = oFarFramesFree) b d := by
    have i : (fun k => k = oFarCxlVersions ∨ k = oSpdmSessions ∨ k = oNearFramesFree ∨ k = oFarFramesFree) oSpdmSessions := .inr (.inl rfl)
    unfold d
    with_reducible exact hc.endSessions i
  have md : d.mem = c.mem ∧ d.far = c.far := ⟨rfl, rfl⟩
  clear_value d
  have he : Only (fun k => k = oFarCxlVersions ∨ k = oSpdmSessions ∨ k = oNearFramesFree ∨ k = oFarFramesFree) b e := by
    unfold e State.refreshSessions
    split
    · have q : Only (fun k => k = oFarCxlVersions ∨ k = oSpdmSessions ∨ k = oNearFramesFree ∨ k = oFarFramesFree) b
          { d with sec := { d.sec with sessions := d.sec.sessions ++ [(⟨40 + h, 0⟩ : Session)] } } := hd.same rfl
      have i : (fun k => k = oFarCxlVersions ∨ k = oSpdmSessions ∨ k = oNearFramesFree ∨ k = oFarFramesFree) oSpdmSessions := .inr (.inl rfl)
      with_reducible exact q.setObj i
    · exact hd
  have me : e.mem = d.mem ∧ e.far = d.far := by unfold e; split <;> exact ⟨rfl, rfl⟩
  clear_value e
  have hw : Only (fun k => k = oFarCxlVersions ∨ k = oSpdmSessions ∨ k = oNearFramesFree ∨ k = oFarFramesFree) b e.refreshFrames := by
    unfold State.refreshFrames
    have i : (fun k => k = oFarCxlVersions ∨ k = oSpdmSessions ∨ k = oNearFramesFree ∨ k = oFarFramesFree) oNearFramesFree := .inr (.inr (.inl rfl))
    have j : (fun k => k = oFarCxlVersions ∨ k = oSpdmSessions ∨ k = oNearFramesFree ∨ k = oFarFramesFree) oFarFramesFree := .inr (.inr (.inr rfl))
    with_reducible exact (he.setObj i).setObj j
  have mw : e.refreshFrames.mem = e.mem ∧ e.refreshFrames.far = e.far := ⟨rfl, rfl⟩
  generalize e.refreshFrames = w at *
  have cx : oFarCapacityH0 + h = 0x320002 + h := rfl
  have dx : oFarCertDigestH0 + h = 0x703101 + h := rfl
  have n1 : ∀ x, x = 0x320002 + h ∨ x = 0x703101 + h → ¬ (x = oFarCxlVersions ∨ x = oSpdmSessions ∨ x = oNearFramesFree ∨ x = oFarFramesFree) := by
    intro x hx
    show ¬ (x = 0x320008 ∨ x = 0x704001 ∨ x = 0x210002 ∨ x = 0x210003)
    omega
  have fl : oFarLinkState = 0x320001 := rfl
  refine ⟨fun q hq => ?_, ?_, ?_, fun q k => ?_, mw.1.trans (me.1.trans (md.1.trans (mc.1.trans (rb.2.2.1.trans ra.2.2))))⟩
  · rw [hw.objs _ (by decide), rb.2.1, dx, cx, if_neg (by rw [fl]; omega), if_neg (by rw [fl]; omega), ra.2.1, if_pos rfl]
    exact byte_set hh hq (by decide)
  · rw [hw.objs _ (n1 _ (.inl cx)), rb.2.1, if_neg (by rw [cx, dx]; omega), if_pos rfl, hn]
  · rw [hw.objs _ (n1 _ (.inr dx)), rb.2.1, if_pos rfl]
  · rw [← fx q k]
    unfold State.farPort
    rw [mw.2, me.2, md.2, mc.2, rb.2.2.2]

end Sys2Proof.Safety
end

