-- ==== Sys2Proof/Laws/HostAccess.lean ====
section
/-! SUPPORT. The host's accesses to memory. -/

namespace Sys2Proof.Safety

open Sys2Proof.Machine

theorem flag_or {x p : Nat} : flag (x ||| 2 ^ p) p = true := by
  unfold flag
  simp

theorem flag_sub {x p : Nat} (h : flag x p = true) : flag (x - 2 ^ p) p = false := by
  unfold flag at *
  have e : x / 2 ^ p % 2 = 1 := by
    rw [Nat.testBit_eq_decide_div_mod_eq] at h
    exact of_decide_eq_true h
  rw [Nat.testBit_eq_decide_div_mod_eq]
  have l : 2 ^ p ≤ x := by
    rcases Nat.lt_or_ge x (2 ^ p) with k | k
    · rw [Nat.div_eq_of_lt k] at e; omega
    · exact k
  have q : (x - 2 ^ p) / 2 ^ p = x / 2 ^ p - 1 := by
    have := Nat.sub_mul_div x (2 ^ p) 1
    rwa [Nat.mul_one] at this
  rw [q]
  apply decide_eq_false
  omega

theorem entPlace_phys {e e' : Nat} (h : entPlace e = entPlace e') : entPhys e = entPhys e' := by
  have h1 : e / 2 ^ 59 = e' / 2 ^ 59 := congrArg Prod.fst h
  have h2 : e % 2 ^ 43 = e' % 2 ^ 43 := congrArg Prod.snd h
  have f : entToFar e = entToFar e' := by
    unfold entToFar flag
    rw [Nat.testBit_eq_decide_div_mod_eq, Nat.testBit_eq_decide_div_mod_eq, h1]
  have l : entLocation e = entLocation e' := by
    unfold entLocation field
    have t : ∀ x : Nat, x % 2 ^ 24 = x % 2 ^ 43 % 2 ^ 24 := fun x => by
      rw [Nat.mod_mod_of_dvd _ (by decide)]
    show (e >>> 0) % 2 ^ 24 = (e' >>> 0) % 2 ^ 24
    rw [Nat.shiftRight_zero, Nat.shiftRight_zero, t e, t e', h2]
  unfold entPhys entNear
  rw [f, l, entState_place h]

theorem addObj_clear {x : State} {k n : Nat} : (x.addObj k n).mem = x.mem ∧ (x.addObj k n).out = x.out := by
  unfold State.addObj; split <;> exact ⟨rfl, rfl⟩

theorem writeBack_cells {x : State} {l : Nat} : (x.writeBack l).mem.cells = x.mem.cells ∧
    (x.writeBack l).mem.poison = x.mem.poison ∧ (x.writeBack l).out = x.out := by
  unfold State.writeBack State.count
  dsimp only
  rw [addObj_clear.1, addObj_clear.1, addObj_clear.2, addObj_clear.2]
  exact ⟨rfl, rfl, rfl⟩

theorem touchLine_cells {s : State} {req : Req} {w : Bool} {l b : Nat} :
    (s.touchLine req w l b).mem.cells = s.mem.cells ∧ (s.touchLine req w l b).mem.poison = s.mem.poison ∧
    (s.touchLine req w l b).out = s.out := by
  unfold State.touchLine
  extract_lets set ls sh srch sm sr sw srcw
  have em : sm.mem.cells = s.mem.cells ∧ sm.mem.poison = s.mem.poison ∧ sm.out = s.out := by
    unfold sm State.count; rw [addObj_clear.1, addObj_clear.2]; exact ⟨rfl, rfl, rfl⟩
  have er : sr.mem.cells = s.mem.cells ∧ sr.mem.poison = s.mem.poison ∧ sr.out = s.out := by
    unfold sr; rw [addObj_clear.1, addObj_clear.2]; exact em
  have ew : sw.mem.cells = s.mem.cells ∧ sw.mem.poison = s.mem.poison ∧ sw.out = s.out := by
    unfold sw
    split
    · split
      · exact ⟨writeBack_cells.1.trans er.1, writeBack_cells.2.1.trans er.2.1, writeBack_cells.2.2.trans er.2.2⟩
      · exact er
    · exact er
  split
  · show sh.mem.cells = _ ∧ sh.mem.poison = _ ∧ sh.out = _
    unfold sh State.count
    rw [addObj_clear.1, addObj_clear.2]
    exact ⟨rfl, rfl, rfl⟩
  · split
    · split <;> (rw [addObj_clear.1, addObj_clear.2]; exact em)
    · exact ew

theorem touch_cells {s : State} {req : Req} {w : Bool} {a n : Nat} :
    (s.touch req w a n).mem.cells = s.mem.cells ∧ (s.touch req w a n).out = s.out := by
  unfold State.touch
  generalize linesOf a n = l
  have key : ∀ (x : State), (l.foldl (fun s l => s.touchLine req w l (atomBytes a n l)) x).mem.cells = x.mem.cells ∧
      (l.foldl (fun s l => s.touchLine req w l (atomBytes a n l)) x).out = x.out := by
    induction l with
    | nil => exact fun _ => ⟨rfl, rfl⟩
    | cons b l ih =>
      intro x
      exact ⟨(ih _).1.trans touchLine_cells.1, (ih _).2.trans touchLine_cells.2.2⟩
  exact key s

/-- What a translation leaves: bytes, poison, places, streams and the rest of a task's frame. -/

theorem translate_mem {s : State} {tc page : Nat} :
    (s.translate tc page).mem.cells = s.mem.cells ∧ (s.translate tc page).mem.poison = s.mem.poison ∧
    (s.translate tc page).out = s.out := by
  have a : ∀ (x : State) k n, (x.addObj k n).mem = x.mem := fun x k n => count_places
  have a' : ∀ (x : State) k n, (x.addObj k n).out = x.out := fun x k n => by unfold State.addObj; split <;> rfl
  have b : ∀ (x : State) p n, (x.addCount p n).mem.cells = x.mem.cells ∧ (x.addCount p n).mem.poison = x.mem.poison ∧ (x.addCount p n).out = x.out := by
    intro x p n
    unfold State.addCount
    extract_lets e
    have k : ∀ y, (x.setEntry p y).mem.cells = x.mem.cells ∧ (x.setEntry p y).mem.poison = x.mem.poison ∧ (x.setEntry p y).out = x.out :=
      fun _ => ⟨rfl, rfl, rfl⟩
    split
    · with_reducible exact ⟨rfl, rfl, rfl⟩
    · exact k _
  unfold State.translate
  extract_lets ents e hot src1 s1 s2 src2
  have e1 : s1.mem.cells = s.mem.cells ∧ s1.mem.poison = s.mem.poison ∧ s1.out = s.out := by
    have k : (s.count oTranslationMisses).mem = s.mem ∧ (s.count oTranslationMisses).out = s.out := ⟨a _ _ _, a' _ _ _⟩
    unfold s1
    exact ⟨touchLine_cells.1.trans (by rw [k.1]), touchLine_cells.2.1.trans (by rw [k.1]), touchLine_cells.2.2.trans k.2⟩
  have e2 : s2.mem.cells = s1.mem.cells ∧ s2.mem.poison = s1.mem.poison ∧ s2.out = s1.out := by
    unfold s2
    split
    · exact b _ _ _
    · exact ⟨rfl, rfl, rfl⟩
  split
  · exact ⟨rfl, rfl, rfl⟩
  · split
    · refine ⟨?_, ?_, ?_⟩
      · show s2.mem.cells = _; rw [e2.1, e1.1]
      · show s2.mem.poison = _; rw [e2.2.1, e1.2.1]
      · show s2.out = _; rw [e2.2.2, e1.2.2]
    · exact e1

theorem pieces_one {va n : Nat} (h : 0 < n) (k : va % pageBytes + n ≤ pageBytes) : pieces va n = [(va, n)] := by
  unfold pieces
  rw [if_neg (by omega)]
  have pb : pageBytes = 2097152 := rfl
  rw [pb] at k
  have q : (va + n - 1) / pageBytes = va / pageBytes := by
    rw [pb]; omega
  dsimp only
  rw [q, Nat.add_sub_cancel_left]
  show [_] = _
  dsimp only
  rw [Nat.add_zero]
  have lo : max va (va / pageBytes * pageBytes) = va := by rw [pb]; omega
  have hi : min (va + n) ((va / pageBytes + 1) * pageBytes) = va + n := by rw [pb] at *; omega
  rw [lo, hi, Nat.add_sub_cancel_left]

theorem granted_works {s t : State} (w : Works s t) {c r va : Nat} : t.granted c r va = s.granted c r va := by
  have f := w.frame
  simp only [workFrame, Prod.mk.injEq] at f
  unfold State.granted State.memRights
  rw [f.2.2.2.2.1]

theorem bind_ok {α β : Type} {m : M α} {f : α → M β} {s t : State} {a : α} {r : EStateM.Result Abort State β} (h : m.run s = .ok a t)
    (k : (f a).run t = r) : (m >>= f).run s = r := by
  show EStateM.bind m f s = r
  unfold EStateM.bind
  have h' : m s = .ok a t := h
  rw [h']
  exact k

theorem bind_mod {β : Type} {f : State → State} {g : PUnit → M β} {s : State} {r : EStateM.Result Abort State β}
    (k : (g ⟨⟩).run (f s) = r) : (mod f >>= g).run s = r := k

theorem bind_get {β : Type} {g : State → M β} {s : State} {r : EStateM.Result Abort State β}
    (k : (g s).run s = r) : ((MonadState.get : M State) >>= g).run s = r := k

theorem checkRights_ok {i : Init} {right va : Nat} {s : State} (h : s.granted i.cls right va = true) :
    (checkRights i right va).run s = .ok () s := by
  unfold checkRights
  refine bind_get ?_
  rw [if_pos h]
  rfl

theorem hostRead_near {s : State} {va n : Nat} (e1 : entState (s.entry (va / pageBytes)) = 1 ∨ entState (s.entry (va / pageBytes)) = 2)
    (h0 : 0 < n) (h1 : va + n ≤ hostWindowBase) (h2 : va % pageBytes + n ≤ pageBytes) (h3 : s.granted 4 1 va = true)
    (h4 : s.poisoned? (entPhys (s.entry (va / pageBytes)) + va % pageBytes) n = none) :
    ∃ u, (readBytes hostInit .pass va n).run s = .ok (memBytes s.mem.cells (entPhys (s.entry (va / pageBytes)) + va % pageBytes) n) u ∧
      u.mem.cells = s.mem.cells ∧ u.out = s.out := by
  have w : Works s (s.translate 2136 (va / pageBytes)) := translate_works _ _ (Works.refl s)
  obtain ⟨m1, m2, m3⟩ := translate_mem (s := s) (tc := 2136) (page := va / pageBytes)
  have g := granted_works w (c := 4) (r := 1) (va := va)
  have pl := w.places (va / pageBytes)
  have es := entState_place pl
  have ep := entPlace_phys pl
  obtain ⟨x, hx⟩ : ∃ x, s.translate 2136 (va / pageBytes) = x := ⟨_, rfl⟩
  rw [hx] at g es ep m1 m2 m3
  have hwb : hostWindowBase = 0xFF0000000000 := rfl
  have b1 : ¬ (va + n > 2 ^ 48) := by omega
  have b2 : ¬ (va ≥ hostWindowBase) := by omega
  have b3 : ¬ (entState (x.entry (va / pageBytes)) = 0) := by omega
  have p : x.poisoned? (entPhys (s.entry (va / pageBytes)) + va % pageBytes) n = none := by
    unfold State.poisoned?
    rw [m2]
    exact h4
  have r : (readPiece hostInit .pass va n).run s = .ok (memBytes s.mem.cells (entPhys (s.entry (va / pageBytes)) + va % pageBytes) n)
      (if entPhys (s.entry (va / pageBytes)) + va % pageBytes < farBase then
        x.touch .pass false (entPhys (s.entry (va / pageBytes)) + va % pageBytes) n else x.addObj oFarReadBytes n) := by
    unfold readPiece
    rw [if_neg b2]
    refine bind_mod ?_
    show EStateM.run _ (s.translate 2136 (va / pageBytes)) = _
    rw [hx]
    refine bind_get ?_
    dsimp only
    rw [if_neg b3]
    refine bind_ok (checkRights_ok (i := hostInit) (g.trans h3)) ?_
    refine bind_get ?_
    rw [ep, p]
    refine bind_mod ?_
    rw [m1]
    rfl
  have u : (if entPhys (s.entry (va / pageBytes)) + va % pageBytes < farBase then
        x.touch .pass false (entPhys (s.entry (va / pageBytes)) + va % pageBytes) n else x.addObj oFarReadBytes n).mem.cells = s.mem.cells ∧
      (if entPhys (s.entry (va / pageBytes)) + va % pageBytes < farBase then
        x.touch .pass false (entPhys (s.entry (va / pageBytes)) + va % pageBytes) n else x.addObj oFarReadBytes n).out = s.out := by
    split
    · exact ⟨touch_cells.1.trans m1, touch_cells.2.trans m3⟩
    · exact ⟨by rw [count_places, m1], by unfold State.addObj; split <;> exact m3⟩
  refine ⟨_, ?_, u⟩
  unfold readBytes
  rw [if_neg b1, pieces_one h0 h2]
  refine bind_ok (a := [memBytes s.mem.cells (entPhys (s.entry (va / pageBytes)) + va % pageBytes) n])
    (t := if entPhys (s.entry (va / pageBytes)) + va % pageBytes < farBase then
        x.touch .pass false (entPhys (s.entry (va / pageBytes)) + va % pageBytes) n else x.addObj oFarReadBytes n) ?_ ?_
  · rw [List.mapM_cons]
    refine bind_ok r ?_
    rw [List.mapM_nil]
    rfl
  · show (pure (List.flatten [_]) : M (List Byte)).run _ = _
    rw [List.flatten_singleton]
    rfl

theorem hostWrite_near {s : State} {va : Nat} {bs : List Byte} (e1 : entState (s.entry (va / pageBytes)) = 1 ∨ entState (s.entry (va / pageBytes)) = 2)
    (h0 : bs ≠ []) (h1 : va + bs.length ≤ hostWindowBase) (h2 : va % pageBytes + bs.length ≤ pageBytes) (h3 : s.granted 4 2 va = true) :
    ∃ u, (writeBytes hostInit .pass va bs).run s = .ok () u ∧ u.out = s.out ∧
      u.mem.cells = memPutAll s.mem.cells (entPhys (s.entry (va / pageBytes)) + va % pageBytes) bs := by
  have w : Works s (s.translate 2136 (va / pageBytes)) := translate_works _ _ (Works.refl s)
  obtain ⟨m1, m2, m3⟩ := translate_mem (s := s) (tc := 2136) (page := va / pageBytes)
  have g := granted_works w (c := 4) (r := 2) (va := va)
  have pl := w.places (va / pageBytes)
  have es := entState_place pl
  have ep := entPlace_phys pl
  obtain ⟨x, hx⟩ : ∃ x, s.translate 2136 (va / pageBytes) = x := ⟨_, rfl⟩
  rw [hx] at g es ep m1 m2 m3
  have hl : 0 < bs.length := List.length_pos_iff.mpr h0
  have hwb : hostWindowBase = 0xFF0000000000 := rfl
  have b1 : ¬ (va + bs.length > 2 ^ 48) := by omega
  have b2 : ¬ (va ≥ hostWindowBase) := by omega
  have b3 : ¬ (entState (x.entry (va / pageBytes)) = 0) := by omega
  have b4 : ¬ (entState (x.entry (va / pageBytes)) = 3) := by omega
  have r : (writePiece hostInit .pass va bs).run s = .ok () ((x.storeAt .pass va bs).noteRewrite hostInit va bs.length) := by
    unfold writePiece
    rw [if_neg b2]
    refine bind_mod ?_
    show EStateM.run _ (s.translate 2136 (va / pageBytes)) = _
    rw [hx]
    refine bind_get ?_
    dsimp only
    rw [if_neg b3, if_neg b4]
    refine bind_ok (checkRights_ok (i := hostInit) (g.trans h3)) ?_
    rfl
  have v : ((x.storeAt .pass va bs).noteRewrite hostInit va bs.length).out = (x.storeAt .pass va bs).out ∧
      ((x.storeAt .pass va bs).noteRewrite hostInit va bs.length).mem.cells = (x.storeAt .pass va bs).mem.cells := ⟨rfl, rfl⟩
  have u : (x.storeAt .pass va bs).out = s.out ∧
      (x.storeAt .pass va bs).mem.cells = memPutAll s.mem.cells (entPhys (s.entry (va / pageBytes)) + va % pageBytes) bs := by
    unfold State.storeAt
    rw [ep]
    extract_lets a y
    have k : y.mem.cells = s.mem.cells ∧ y.out = s.out := by
      unfold y
      split
      · exact ⟨touch_cells.1.trans m1, touch_cells.2.trans m3⟩
      · exact ⟨by rw [count_places, m1], by unfold State.addObj; split <;> exact m3⟩
    clear_value y
    refine ⟨k.2, ?_⟩
    rw [← k.1]
    rfl
  refine ⟨_, ?_, v.1.trans u.1, v.2.trans u.2⟩
  unfold writeBytes
  rw [if_neg b1, pieces_one hl h2]
  have tr : takeRange va bs (va, bs.length) = bs := by
    unfold takeRange
    rw [Nat.sub_self]
    exact List.take_length
  refine bind_ok (a := ⟨⟩) (t := (x.storeAt .pass va bs).noteRewrite hostInit va bs.length) ?_ rfl
  dsimp only
  rw [tr]
  exact r

theorem noteDenied_mem {s : State} {cls unit address kind : Nat} :
    (s.noteDenied cls unit address kind).mem.cells = s.mem.cells ∧ (s.noteDenied cls unit address kind).out = s.out := by
  have a' : ∀ (x : State) k n, (x.addObj k n).out = x.out := fun x k n => by unfold State.addObj; split <;> rfl
  have c : ∀ (x : State) e, (x.setTickEvent e).mem = x.mem ∧ (x.setTickEvent e).out = x.out := fun x e => ⟨rfl, rfl⟩
  unfold State.noteDenied State.count
  extract_lets x
  have k : x.mem = s.mem ∧ x.out = s.out := ⟨count_places, a' _ _ _⟩
  split
  · exact ⟨(congrArg Mem.cells (c x _).1).trans (congrArg Mem.cells k.1), (c x _).2.trans k.2⟩
  · exact ⟨(congrArg Mem.cells (c x _).1).trans (congrArg Mem.cells k.1), (c x _).2.trans k.2⟩

end Sys2Proof.Safety
end

