-- ==== Sys2Proof/Laws/Replies.lean ====
section
/-! SUPPORT. What the window, Felby, event notification and the SPDM responder answer. -/

namespace Sys2Proof.Safety

open Sys2Proof.Machine

theorem armVector_frame {s : State} {v : Nat} : (s.armVector v).dict.window = s.dict.window ∧ (∀ k, (s.armVector v).obj k = s.obj k) ∧ (s.armVector v).mem = s.mem := by
  unfold State.armVector
  repeat' split
  all_goals exact ⟨rfl, fun _ => rfl, rfl⟩

theorem windowDone_run (s : State) (st : Nat) : ∃ t, (windowDone st).run s = .ok () t ∧ t.dict.window = { s.dict.window with status := st, state := 2 } ∧
    (∀ k, t.obj k = s.obj k) ∧ t.mem = s.mem := by
  refine ⟨_, rfl, ?_⟩
  obtain ⟨a, b, c⟩ := armVector_frame (s := { s with dict := { s.dict with window := { s.dict.window with status := st, state := 2 } } }) (v := 13)
  exact ⟨a, b, c⟩

theorem runDict_ok {s t : State} {m : M Unit} (h : m.run s = .ok () t) : runDict s m = .next t := by
  unfold runDict; rw [h]

theorem keep_frame {s : State} {k : Kept} : (s.keep k).out = s.out ∧ (∀ j, (s.keep k).obj j = s.obj j) ∧ (s.keep k).mem = s.mem ∧
    (s.keep k).dict.objs = s.dict.objs ∧ (s.keep k).sec = s.sec := ⟨rfl, fun _ => rfl, rfl, rfl, rfl⟩

/-- A frame counted, kept and sent on a port that is in service. -/

theorem reply_frame {s : State} {o : Nat} {k : Kept} {p : Nat} {x : Out} (r : Rising s.dict.objs) (h : s.mgmtUp p = true) (n : o ≠ oMgmtPortsUp)
    (z : objSize o = 8) :
    ∃ t, (((s.count o).keep k).sendFrame p x) = t ∧ t.out = s.out ++ [x] ∧ t.obj o = (s.obj o + 1) % 2 ^ 64 ∧
      (∀ j, j ≠ o → t.obj j = s.obj j) ∧ t.mem = s.mem ∧ t.sec = s.sec := by
  obtain ⟨y, hy, ry, oy, cy, my, -, -, uy, sy, -⟩ := count_facts (k := o) r
  rw [hy]
  obtain ⟨a, b, c, d, e⟩ := keep_frame (s := y) (k := k)
  have up : (y.keep k).mgmtUp p = true := by
    rw [← h]; unfold State.mgmtUp; rw [b, oy _ n.symm]
  refine ⟨_, rfl, ?_⟩
  unfold State.sendFrame
  rw [up, if_pos rfl]
  refine ⟨?_, ?_, fun j hj => ?_, c.trans my, e.trans sy⟩
  · show (y.keep k).out ++ _ = _; rw [a, uy]
  · show (y.keep k).obj o = _; rw [b, cy, z]
  · show (y.keep k).obj j = _; rw [b, oy _ hj]

theorem onFrame_is {s : State} {f : FelbyFrame} {types : Nat → Bool} {act : Felby → Path → M Answer} (h1 : s.rst.inReset = false)
    (h2 : s.mgmtUp f.port = true) (h3 : isFelby f.bytes = true) (h4 : accepts f = true) (h5 : types (readFelby f.bytes).type = true) :
    s.onFrame f types act = runDict s (request f act) := by
  unfold State.onFrame
  rw [h1, h2, h3, h4, h5]
  rfl

theorem onFrame_bad {s : State} {f : FelbyFrame} {types : Nat → Bool} {act : Felby → Path → M Answer} (h1 : s.rst.inReset = false)
    (h2 : s.mgmtUp f.port = true) (h3 : isFelby f.bytes = true) (h4 : accepts f = false) :
    s.onFrame f types act = .next (s.count oFelbyDiscards) := by
  unfold State.onFrame
  rw [h1, h2, h3, h4]
  rfl

theorem request_kept {s : State} {f : FelbyFrame} {act : Felby → Path → M Answer} {k : Kept} (h : s.keptFor f = some k) :
    runDict s (request f act) = .next (((s.count oFelbyDuplicates).keep k).sendFrame f.port k.response) := by
  refine runDict_ok ?_
  unfold request
  refine bind_get ?_
  dsimp only
  rw [h]
  rfl

theorem request_new {s : State} {f : FelbyFrame} {act : Felby → Path → M Answer} (h : s.keptFor f = none)
    (h1 : 1 ≤ (readFelby f.bytes).version) (h2 : (readFelby f.bytes).version ≤ 3) (h3 : (readFelby f.bytes).flags < 4)
    (h4 : (readFelby f.bytes).pad = 0) :
    (∀ st bs n u, (act (readFelby f.bytes) (.mgmt f.port false)).run s = .ok (.frame st bs n) u →
      ∃ k, runDict s (request f act) = .next (((u.count oFelbyRequests).keep k).sendFrame f.port (response f (readFelby f.bytes).version st bs n))) ∧
    (∀ r u, (act (readFelby f.bytes) (.mgmt f.port false)).run s = .ok (.spdm r) u →
      ∃ k head, runDict s (request f act) = .next (((u.count oFelbyRequests).keep k).sendFrame f.port (.spdmFrame f.port head r))) := by
  have v : ¬ ((readFelby f.bytes).version = 0 ∨ 3 < (readFelby f.bytes).version) := by omega
  have fl : flag (readFelby f.bytes).flags 2 = false := by
    unfold flag
    rw [Nat.testBit_eq_decide_div_mod_eq]
    apply decide_eq_false
    omega
  have w : ¬ (8 ≤ (readFelby f.bytes).flags ∨ (readFelby f.bytes).pad ≠ 0 ∨ false = true ∧ (readFelby f.bytes).version ≠ 3) := by
    rintro (a | a | a)
    · omega
    · exact a h4
    · exact absurd a.1 (by decide)
  refine ⟨fun st bs n u hu => ⟨⟨f.port, (readFelby f.bytes).source, (readFelby f.bytes).seq, f.timeMs,
      response f (readFelby f.bytes).version st bs n⟩, runDict_ok ?_⟩,
    fun r u hu => ⟨⟨f.port, (readFelby f.bytes).source, (readFelby f.bytes).seq, f.timeMs,
      .spdmFrame f.port (felbyFrame f.port (readFelby f.bytes).source
        (felbyBody (readFelby f.bytes).version 0x85 0 ((readFelby f.bytes).flags &&& 4) (readFelby f.bytes).seq (readFelby f.bytes).index
          (readFelby f.bytes).sub (readFelby f.bytes).offset 0 [])) r⟩, felbyFrame f.port (readFelby f.bytes).source
        (felbyBody (readFelby f.bytes).version 0x85 0 ((readFelby f.bytes).flags &&& 4) (readFelby f.bytes).seq (readFelby f.bytes).index
          (readFelby f.bytes).sub (readFelby f.bytes).offset 0 []), runDict_ok ?_⟩⟩
  · unfold request
    refine bind_get ?_
    dsimp only
    rw [h, fl]
    dsimp only
    rw [if_neg v, if_neg w, if_neg (by decide)]
    refine bind_ok hu ?_
    rfl
  · unfold request
    refine bind_get ?_
    dsimp only
    rw [h, fl]
    dsimp only
    rw [if_neg v, if_neg w, if_neg (by decide)]
    refine bind_ok hu ?_
    rfl

theorem spdm_up (s : State) (c : Nat) (req : SpdmReq) (r : Rising s.dict.objs) :
    Only (fun k => k = oSpdmFailures ∨ k = oSpdmSessions) s (s.spdm c req).2 := by
  have z : Only (fun k => k = oSpdmFailures ∨ k = oSpdmSessions) s s := Only.refl r
  have i : (fun k => k = oSpdmFailures ∨ k = oSpdmSessions) oSpdmFailures := .inl rfl
  have j : (fun k => k = oSpdmFailures ∨ k = oSpdmSessions) oSpdmSessions := .inr rfl
  have g : ∀ l : List Session, Only (fun k => k = oSpdmFailures ∨ k = oSpdmSessions) s ({ s with sec := { s.sec with sessions := l } }).refreshSessions := by
    intro l
    unfold State.refreshSessions
    have q : Only (fun k => k = oSpdmFailures ∨ k = oSpdmSessions) s { s with sec := { s.sec with sessions := l } } := z.same rfl
    with_reducible exact q.setObj j
  unfold State.spdm
  split
  case h_9 =>
    split
    · exact z.count i
    · split
      · exact z
      · exact g _
  case h_12 =>
    split
    · exact g _
    · exact z
  case h_13 =>
    split
    · exact z.same rfl
    · exact z
  all_goals first | exact z | (split <;> exact z)

theorem exec_felby (f : FelbyFrame) (req : SpdmReq) (s : State) :
    exec (.felbyRead f) s = s.onFrame f (· == 0x01) felbyReadWork ∧
    exec (.felbyWrite f) s = s.onFrame f (· == 0x02) (felbyWriteWork f) ∧
    exec (.felbyDescribe f) s = s.onFrame f (· == 0x03) felbyDescribeWork ∧
    exec (.felbySpdm f req) s = s.onFrame f (· == 0x05) (fun x _ => do
      if x.version ≠ 3 then return .frame 0x0A [] 0
      else
        let (r, s) := (← get).spdm 1 req
        set s
        return .spdm r) ∧
    ((readFelby f.bytes).type < 0x80 → exec (.felbyUnknownType f) s =
      s.onFrame f (fun t => decide (t < 0x80) && t != 1 && t != 2 && t != 3 && t != 5) fun _ _ => return .frame 0x0A [] 0) := by
  refine ⟨rfl, rfl, rfl, rfl, fun h => ?_⟩
  show execFelbyUnknownType f s = _
  unfold execFelbyUnknownType
  dsimp only
  rw [if_neg (by omega)]

theorem addObj_is (x : State) (k n : Nat) : ∃ o, x.addObj k n = { x with dict := { x.dict with objs := o } } := by
  unfold State.addObj
  split
  · exact ⟨x.dict.objs, rfl⟩
  · unfold State.setObj
    exact ⟨_, rfl⟩

theorem sendEvent_frame {s : State} {o : Outstanding} (r : Rising s.dict.objs) :
    (s.sendEvent o).dict.outstanding = some o ∧ (s.sendEvent o).dict.eventSeq = s.dict.eventSeq ∧
    (s.sendEvent o).obj oEventFramesSent = (s.obj oEventFramesSent + 1) % 2 ^ 64 ∧ (s.sendEvent o).dict.log = s.dict.log := by
  have key : ∀ x : State, Rising x.dict.objs → (x.count oEventFramesSent).dict.outstanding = x.dict.outstanding ∧
      (x.count oEventFramesSent).dict.eventSeq = x.dict.eventSeq ∧ (x.count oEventFramesSent).dict.log = x.dict.log ∧
      (x.count oEventFramesSent).obj oEventFramesSent = (x.obj oEventFramesSent + 1) % 2 ^ 64 := by
    intro x rx
    refine ⟨?_, ?_, ?_, ?_⟩
    · unfold State.count; obtain ⟨o, e⟩ := addObj_is x oEventFramesSent 1; rw [e]
    · unfold State.count; obtain ⟨o, e⟩ := addObj_is x oEventFramesSent 1; rw [e]
    · unfold State.count; obtain ⟨o, e⟩ := addObj_is x oEventFramesSent 1; rw [e]
    · obtain ⟨y, hy, -, -, c, -⟩ := count_facts (k := oEventFramesSent) rx
      rw [hy, c, show objSize oEventFramesSent = 8 by decide +kernel]
  unfold State.sendEvent
  obtain ⟨a, b, c, d⟩ := key { s with dict := { s.dict with outstanding := some o } } r
  obtain ⟨y, hy⟩ : ∃ y, ({ s with dict := { s.dict with outstanding := some o } } : State).count oEventFramesSent = y := ⟨_, rfl⟩
  rw [hy] at a b c d
  dsimp only
  rw [hy]
  unfold State.sendFrame
  split
  · exact ⟨a, b, d, c⟩
  · exact ⟨a, b, d, c⟩

theorem spdm_mem {s : State} {c : Nat} {req : SpdmReq} : (s.spdm c req).2.mem = s.mem := by
  have g : ∀ l : List Session, ({ s with sec := { s.sec with sessions := l } }).refreshSessions.mem = s.mem := by
    intro l
    unfold State.refreshSessions
    exact State.setObj_mem _ _ _
  unfold State.spdm
  split
  case h_9 =>
    split
    · unfold State.count; exact count_places
    · split
      · rfl
      · exact g _
  case h_12 =>
    split
    · exact g _
    · rfl
  case h_13 => split <;> rfl
  all_goals first | rfl | (split <;> rfl)

end Sys2Proof.Safety
end

