-- ==== Sys2Proof/Laws/CollectiveWork.lean ====
section
/-! SUPPORT. How the commands of collective and snapshot tasks run their work, and what sending, owing and a barrier leave alone. -/

namespace Sys2Proof.Safety

open Sys2Proof.Machine

theorem fault_ends {v : State} {t : Machine.Task} {r : Nat} {outs : List (Nat × Nat)} {d : Nat} (h : v.task? r = some t) (ho : outs = []) :
    (v.failTask t outs (.fault d)).task? r = some { t with work := 2 } ∧ (v.failTask t outs (.fault d)).sched.halt.isSome = true := by
  subst ho
  have hr : t.record = r := by
    unfold State.task? at h
    simpa using List.find?_some h
  have tz := task?_setTask (u := { t with work := 2 }) h hr
  show ((v.setTask { t with work := 2 }).taskFault t.source t.unit t.record 0x09 d).task? r = _ ∧
    ((v.setTask { t with work := 2 }).taskFault t.source t.unit t.record 0x09 d).sched.halt.isSome = true
  generalize v.setTask { t with work := 2 } = z at *
  unfold State.taskFault
  obtain ⟨o, l, n, c, e⟩ := raise_notes (code := 0x0102) (src := t.source) (unit := t.unit) (a := t.record) (b := 9) (c := d) (d := 0) (e := 0) (Notes.refl z)
  have sd : (z.raise 0x0102 t.source t.unit t.record 9 d).sched = z.sched := by rw [e]
  generalize z.raise 0x0102 t.source t.unit t.record 9 d = y at *
  unfold State.haltWith
  split
  · rename_i q
    refine ⟨?_, by rw [q]; rfl⟩
    rw [← tz]; unfold State.task?; rw [sd]
  · refine ⟨?_, rfl⟩
    rw [← tz]; unfold State.task?
    show List.find? _ y.sched.tasks = _
    rw [sd]

/-- A fault of a collective task uses up its readies, gives up its Midnight, and ends it as any task. -/
theorem failColl_is (v : State) (c : CollCtx) (t : Machine.Task) (d : Nat) :
    ∃ z : State, v.failColl c t (.fault d) = z.failTask t [] (.fault d) ∧ z.dict = v.dict ∧ z.sched = v.sched ∧ z.mem = v.mem := by
  unfold State.failColl
  rw [if_neg (fun e : Abort.fault d = .undefined ∧ _ => by cases e.1)]
  refine ⟨_, rfl, ?_⟩
  dsimp only
  repeat' split
  all_goals exact ⟨rfl, rfl, rfl⟩

theorem failColl_fault {v : State} {c : CollCtx} {t : Machine.Task} {r d : Nat} (h : v.task? r = some t) :
    (v.failColl c t (.fault d)).task? r = some { t with work := 2 } ∧ (v.failColl c t (.fault d)).sched.halt.isSome = true := by
  obtain ⟨z, e, -, hs, -⟩ := failColl_is v c t d
  rw [e]
  exact fault_ends (by unfold State.task? at *; rw [hs]; exact h) rfl

theorem runColl_ends {s before v : State} {c : CollCtx} {m : M Unit} :
    (m.run s = .ok () v → s.runColl before c m = .next v) ∧
    (∀ d t, m.run s = .error (.fault d) v → v.task? c.t.record = some t →
      ∃ y, s.runColl before c m = .next y ∧ y.task? c.t.record = some { t with work := 2 } ∧ y.sched.halt.isSome = true) := by
  refine ⟨fun h => by unfold State.runColl; rw [h], fun d t h ht => ?_⟩
  have e : s.runColl before c m = .next (v.failColl c t (.fault d)) := by
    unfold State.runColl
    rw [h]
    dsimp only
    rw [ht]
  have k := failColl_fault (c := c) (d := d) ht
  exact ⟨_, e, k.1, k.2⟩

theorem collect_exec {s u : State} {r : Nat} {form : Nat → Bool} {x : CollCtx} {m : M Unit} (h : collectJob s r form = some (u, x, m)) :
    s.runCollOp r form = u.runColl s x m := by
  unfold collectJob at h
  unfold State.runCollOp
  cases e1 : s.working? r with
  | none => rw [e1] at h; cases h
  | some t =>
    cases e2 : s.coll? r with
    | none => rw [e1, e2] at h; cases h
    | some q =>
      rw [e1, e2] at h
      dsimp only at h ⊢
      split at h
      · rename_i c
        cases h
        rw [if_neg (by rw [c.1, c.2.1, c.2.2]; decide)]
      · cases h

theorem message_exec {s u : State} {p v k : Nat} {act : CollCtx → CollMsg → M Unit} {c : CollCtx} {x : CollMsg} (h : actsOn s p v k = some (u, c, x)) :
    s.onMessage p v k act = u.runColl s c (act c x) := by
  unfold actsOn at h
  unfold State.onMessage
  cases e : s.frontMsg p v with
  | none => rw [e] at h; cases h
  | some m =>
    rw [e] at h
    dsimp only at h ⊢
    split at h
    · cases h
    · rename_i n
      have n1 : hdrKind m.header = k := by
        by_cases q : hdrKind m.header = k
        · exact q
        · exact absurd (.inl q) n
      have n2 : hdrEpoch m.header = s.obj oPlacementEpoch := by
        by_cases q : hdrEpoch m.header = s.obj oPlacementEpoch
        · exact q
        · exact absurd (.inr (.inl q)) n
      have n3 : (s.dropFront p m).debt? k (readColl m).1 (readColl m).2.rank = none := by
        cases q : (s.dropFront p m).debt? k (readColl m).1 (readColl m).2.rank with
        | none => rfl
        | some d => exact absurd (.inr (.inr (by rw [q]; rfl))) n
      rw [if_neg (by rw [n1]; exact fun a => a rfl), if_neg (by rw [n2]; exact fun a => a rfl), n3]
      dsimp only
      obtain ⟨t, ht, e⟩ := Option.map_eq_some_iff.mp h
      rw [ht]
      cases e
      rfl

theorem messageJob_exec {s u : State} {p v k : Nat} {act : CollCtx → CollMsg → M Unit} {c : CollCtx} {m : M Unit} (h : messageJob s p v k act = some (u, c, m)) :
    s.onMessage p v k act = u.runColl s c m := by
  unfold messageJob at h
  obtain ⟨⟨a, b, d⟩, ha, e⟩ := Option.map_eq_some_iff.mp h
  cases e
  exact message_exec ha

theorem snap_exec {s u : State} {r : Nat} {body : CollCtx → Nat → Coll → M Unit} {x : CollCtx} {m : M Unit} (h : snapJob s r body = some (u, x, m)) :
    s.runSnap r body = u.runColl s x m := by
  unfold snapJob at h
  unfold State.runSnap
  cases e1 : s.working? r with
  | none => rw [e1] at h; cases h
  | some t =>
    cases e2 : s.coll? r with
    | none => rw [e1, e2] at h; cases h
    | some q =>
      rw [e1, e2] at h
      dsimp only at h ⊢
      split at h
      · rename_i c
        cases h
        rw [if_neg (by rw [c]; exact fun a => a rfl)]
      · cases h

theorem sendMessage_sends {f : Nat → Prop} {s0 s : State} (mask rank epoch kind axis : Nat) (data : List Byte) (h : SendsOn f s0 s) (hf : ∀ p, p < 32 → f p) :
    SendsOn f s0 (s.sendMessage mask rank epoch kind axis data) := by
  unfold State.sendMessage
  split
  · rename_i p e
    refine sendThrough_sends _ _ _ _ _ _ _ _ h (hf _ ?_)
    unfold State.axisPort at e
    obtain ⟨⟨a, b⟩, e2, rfl⟩ := Option.map_eq_some_iff.mp e
    refine choice_lt (fun c hc => ?_) e2
    obtain ⟨q, hq, rfl⟩ := List.mem_map.mp hc
    exact List.mem_range.mp (List.mem_filter.mp hq).1
  · exact sendRouted_sends _ _ _ _ _ _ _ h hf

/-- What a collective's sending leaves alone. -/
def Silent (s t : State) : Prop := t.mem = s.mem ∧ t.sched = s.sched ∧ t.colls = s.colls ∧ t.resil = s.resil ∧ t.num = s.num

theorem Silent.refl (s : State) : Silent s s := ⟨rfl, rfl, rfl, rfl, rfl⟩

theorem Silent.trans {a b c : State} (h : Silent a b) (k : Silent b c) : Silent a c :=
  ⟨k.1.trans h.1, k.2.1.trans h.2.1, k.2.2.1.trans h.2.2.1, k.2.2.2.1.trans h.2.2.2.1, k.2.2.2.2.trans h.2.2.2.2⟩

theorem addObj_silent (s : State) (k n : Nat) : Silent s (s.addObj k n) := by
  obtain ⟨o, e⟩ := addObj_is s k n
  rw [e]; exact ⟨rfl, rfl, rfl, rfl, rfl⟩

theorem sends_silent {f : Nat → Prop} {s t : State} (h : SendsOn f s t) : Silent s t := by
  have e := h.frame
  simp only [sendFrame, Prod.mk.injEq] at e
  exact ⟨e.2.2.2.2.1, e.2.2.1, e.2.2.2.2.2.2.1, e.2.2.2.2.2.2.2.2.2.2.1, e.2.2.2.1⟩

theorem send_silent (c : CollCtx) (q : Coll) (m : CollSend) (s : State) : Silent s (c.send q m s) :=
  Silent.trans (sends_silent (sendMessage_sends (f := fun _ => True) _ _ _ _ _ _ (SendsOn.refl s) fun _ _ => trivial)) (addObj_silent _ _ _)

theorem coll?_modColl {s : State} {r : Nat} {q : Coll} {f : Coll → Coll} (h : s.coll? r = some q) (hf : ∀ q, (f q).record = q.record) :
    (s.modColl r f).coll? r = some (f q) := by
  unfold State.coll? State.modColl at *
  show List.find? _ (s.colls.tasks.map _) = _
  generalize s.colls.tasks = l at *
  induction l with
  | nil => cases h
  | cons a l ih =>
    rw [List.map_cons, List.find?_cons] at *
    by_cases e : a.record = r
    · rw [if_pos e]
      rw [beq_iff_eq.mpr e] at h
      rw [beq_iff_eq.mpr ((hf a).trans e)]
      cases h
      rfl
    · rw [if_neg e, beq_eq_false_iff_ne.mpr e]
      rw [beq_eq_false_iff_ne.mpr e] at h
      exact ih h

theorem flush_run {c : CollCtx} {s : State} {q : Coll} (h : s.coll? c.t.record = some q) :
    ∃ t q', c.flush.run s = .ok () t ∧ t.coll? c.t.record = some q' ∧ (∃ l, q' = { q with todo := l }) ∧ t.mem = s.mem ∧ t.sched = s.sched := by
  have hc : c.coll.run s = .ok q s := by
    show EStateM.Result.ok ((s.coll? c.t.record).getD _) s = _
    rw [h]; rfl
  by_cases hr : q.released = true
  · obtain ⟨go, hgo⟩ : ∃ go, (q.todo.partition fun m => s.readyHeld (colTag c.t.image) m.rank).1 = go := ⟨_, rfl⟩
    obtain ⟨stay, hst⟩ : ∃ stay, (q.todo.partition fun m => s.readyHeld (colTag c.t.image) m.rank).2 = stay := ⟨_, rfl⟩
    obtain ⟨x, hx⟩ : ∃ x, s.modColl c.t.record (fun q => { q with todo := stay }) = x := ⟨_, rfl⟩
    have k : ∀ l : List CollSend, ∀ y, Silent y (l.foldl (fun s m => c.send q m s) y) := by
      intro l
      induction l with
      | nil => exact fun y => Silent.refl y
      | cons a l ih => exact fun y => Silent.trans (send_silent c q a y) (ih _)
    have z := k go x
    refine ⟨go.foldl (fun s m => c.send q m s) x, { q with todo := stay }, ?_, ?_, ⟨_, rfl⟩, ?_, ?_⟩
    · unfold CollCtx.flush
      refine bind_ok hc ?_
      rw [if_pos hr]
      refine bind_get ?_
      have e : (q.todo.partition fun m => s.readyHeld (colTag c.t.image) m.rank) = (go, stay) := by rw [← hgo, ← hst]
      rw [e]
      refine bind_mod ?_
      show (mod _).run (s.modColl c.t.record fun q => { q with todo := stay }) = _
      rw [hx]
      rfl
    · unfold State.coll?
      rw [z.2.2.1, ← hx]
      exact coll?_modColl h fun _ => rfl
    · rw [z.1, ← hx]; rfl
    · rw [z.2.1, ← hx]; rfl
  · refine ⟨s, q, ?_, h, ⟨q.todo, rfl⟩, rfl, rfl⟩
    unfold CollCtx.flush
    refine bind_ok hc ?_
    rw [if_neg hr]
    rfl

theorem acts_same {s u : State} {p v k : Nat} {c : CollCtx} {x : CollMsg} (r : Rising s.dict.objs) (h : actsOn s p v k = some (u, c, x)) :
    u.mem = s.mem ∧ u.sched = s.sched ∧ (∀ j, j ≠ oCollBytesReceived → u.obj j = s.obj j) := by
  unfold actsOn at h
  split at h
  · cases h
  · dsimp only at h
    split at h
    · cases h
    · obtain ⟨t, -, e⟩ := Option.map_eq_some_iff.mp h
      cases e
      rename_i m _ _
      have z := addObj_silent (s.dropFront p m) oCollBytesReceived (readColl m).2.data.length
      exact ⟨z.1, z.2.1, fun j n => addObj_obj (s := s.dropFront p m) r n⟩

/-- The progress after a message has been owed: nothing more is owed to an absent peer whose ready is missing (R365). -/
def oweTo (c : CollCtx) (s : State) (m : CollSend) (q : Coll) : Coll :=
  if q.absent.contains m.rank && !s.readyHeld (colTag c.t.image) m.rank then q else { q with todo := q.todo ++ [m] }

theorem owe_run {c : CollCtx} {s : State} {q : Coll} {m : CollSend} (h : s.coll? c.t.record = some q) :
    ∃ t, (c.owe m).run s = .ok () t ∧ t.coll? c.t.record = some (oweTo c s m q) ∧ t.mem = s.mem ∧ t.sched = s.sched ∧ t.dict = s.dict :=
  ⟨s.modColl c.t.record (oweTo c s m), rfl, coll?_modColl h fun q => by unfold oweTo; split <;> rfl, rfl, rfl, rfl⟩

theorem forM_owe {c : CollCtx} {α : Type} {f : α → CollSend} {l : List α} {s : State} {q : Coll} (h : s.coll? c.t.record = some q) :
    ∃ t q', (l.forM fun j => c.owe (f j)).run s = .ok ⟨⟩ t ∧ t.coll? c.t.record = some q' ∧ (∃ l, q' = { q with todo := l }) ∧ t.mem = s.mem ∧
      t.sched = s.sched ∧ t.dict = s.dict := by
  induction l generalizing s q with
  | nil => exact ⟨s, q, rfl, h, ⟨q.todo, rfl⟩, rfl, rfl, rfl⟩
  | cons a l ih =>
    obtain ⟨x, e1, k, m1, m2, m3⟩ := owe_run (m := f a) h
    obtain ⟨t, q', e, k1, ⟨l2, k2⟩, k3, k4, k5⟩ := ih k
    refine ⟨t, q', ?_, k1, ⟨l2, ?_⟩, k3.trans m1, k4.trans m2, k5.trans m3⟩
    · exact bind_ok (m := c.owe (f a)) (f := fun _ => l.forM fun j => c.owe (f j)) e1 e
    · rw [k2]; unfold oweTo; split <;> rfl

theorem coll_run {c : CollCtx} {s : State} {q : Coll} (h : s.coll? c.t.record = some q) : c.coll.run s = .ok q s := by
  show EStateM.Result.ok ((s.coll? c.t.record).getD _) s = _
  rw [h]; rfl


theorem barrierUp_run {c : CollCtx} {s : State} {q : Coll} (h : s.coll? c.t.record = some q) :
    ∃ t q', c.barrierUp.run s = .ok () t ∧ t.coll? c.t.record = some q' ∧ q'.tokens = q.tokens ∧ q'.ups = q.ups ∧ t.mem = s.mem ∧ t.sched = s.sched ∧
      (c.parent c.me = none → colOp c.t.image = 8 → q.begun = true → q.reduced = false → (∀ j ∈ c.children, c.rank j ∉ q.tokens) →
        q'.release = some (s.tick + s.obj oBarrierMarginTicks)) := by
  by_cases k : colOp c.t.image = 8 ∧ q.begun ∧ !q.reduced ∧ c.children.all fun j => !q.tokens.contains (c.rank j)
  · obtain ⟨b, hb⟩ : ∃ b, c.barrierSums q s = b := ⟨_, rfl⟩
    obtain ⟨x, hx⟩ : ∃ x, s.modColl c.t.record (fun q => { q with reduced := true }) = x := ⟨_, rfl⟩
    have k1 : x.coll? c.t.record = some { q with reduced := true } := by rw [← hx]; exact coll?_modColl h fun _ => rfl
    cases hp : c.parent c.me with
    | some p =>
      obtain ⟨t, e, k2, k3, k4, -⟩ := owe_run (m := { rank := c.rank p, kind := 5, flags := b.1, norms := b.2 }) k1
      refine ⟨t, _, ?_, k2, by unfold oweTo; split <;> rfl, by unfold oweTo; split <;> rfl, by rw [k3, ← hx]; rfl, by rw [k4, ← hx]; rfl, fun a => by cases a⟩
      unfold CollCtx.barrierUp
      refine bind_ok (coll_run h) ?_
      rw [if_pos k]
      refine bind_get ?_
      dsimp only
      rw [hb]
      refine bind_mod ?_
      show EStateM.run _ (s.modColl c.t.record fun q => { q with reduced := true }) = _
      rw [hx, hp]
      exact e
    | none =>
      obtain ⟨y, hy⟩ : ∃ y, x.modColl c.t.record (fun q => { q with totals := (b.1, b.2), release := some (s.tick + s.obj oBarrierMarginTicks) }) = y := ⟨_, rfl⟩
      have k2 : y.coll? c.t.record = some { q with reduced := true, totals := (b.1, b.2), release := some (s.tick + s.obj oBarrierMarginTicks) } := by
        rw [← hy]; exact coll?_modColl k1 fun _ => rfl
      obtain ⟨t, q', e, k3, ⟨l, k4⟩, k5, k6, -⟩ := forM_owe (l := c.children) (f := fun j => ({ rank := c.rank j, kind := 6, word := s.tick + s.obj oBarrierMarginTicks, flags := b.1, norms := b.2 } : CollSend)) k2
      refine ⟨t, q', ?_, k3, by rw [k4], by rw [k4], by rw [k5, ← hy, ← hx]; rfl, by rw [k6, ← hy, ← hx]; rfl, fun _ _ _ _ _ => by rw [k4]⟩
      unfold CollCtx.barrierUp
      refine bind_ok (coll_run h) ?_
      rw [if_pos k]
      refine bind_get ?_
      dsimp only
      rw [hb]
      refine bind_mod ?_
      show EStateM.run _ (s.modColl c.t.record fun q => { q with reduced := true }) = _
      rw [hx, hp]
      refine bind_mod ?_
      show EStateM.run _ (x.modColl c.t.record fun q => { q with totals := (b.1, b.2), release := some (s.tick + s.obj oBarrierMarginTicks) }) = _
      rw [hy]
      exact e
  · refine ⟨s, q, ?_, h, rfl, rfl, rfl, rfl, fun _ a b d e => absurd ⟨a, b, by rw [d]; rfl, ?_⟩ k⟩
    · unfold CollCtx.barrierUp
      refine bind_ok (coll_run h) ?_
      rw [if_neg k]
      rfl
    · exact List.all_eq_true.mpr fun j hj => by simp [e j hj]

end Sys2Proof.Safety
end

