-- ==== Sys2Proof/Laws/LatePeers.lean ====
section
/-! SUPPORT. What becomes of a collective message before it reaches a task; the end of a barrier; the rules for late peers. -/

namespace Sys2Proof.Safety

open Sys2Proof.Machine

theorem noteLate_silent (s : State) (tag absent position carried dropped : Nat) : Silent s (s.noteLate tag absent position carried dropped) ∧
    (s.noteLate tag absent position carried dropped).ports = s.ports := by
  unfold State.noteLate
  obtain ⟨o1, e1⟩ := addObj_is s oLateBytesCarried carried
  rw [e1]
  obtain ⟨o2, e2⟩ := addObj_is { s with dict := { s.dict with objs := o1 } } oLateBytesDropped dropped
  rw [e2]
  dsimp only
  split
  · exact ⟨⟨rfl, rfl, rfl, rfl, rfl⟩, rfl⟩
  · exact ⟨⟨rfl, rfl, rfl, rfl, rfl⟩, rfl⟩

theorem scramble_sides (s : State) (ws : List Nat) (va n : Nat) :
    (s.scramble ws va n).sched = s.sched ∧ (s.scramble ws va n).colls = s.colls ∧ (s.scramble ws va n).ports = s.ports := by
  obtain ⟨_, _, _, _, e⟩ := scramble_scrambles ws va n (Scrambles.refl s)
  rw [e]
  exact ⟨rfl, rfl, rfl⟩

theorem charge_parts (s : State) (d : Debt) (kind position offset : Nat) (bs : List Byte) :
    (s.charge d kind position offset bs).ports = s.ports ∧ (s.charge d kind position offset bs).colls.tasks = s.colls.tasks ∧
    (s.charge d kind position offset bs).colls.readies = s.colls.readies ∧ (s.charge d kind position offset bs).sched = s.sched := by
  unfold State.charge
  extract_lets d' rest keep src z held w src2
  have hz : z.ports = s.ports ∧ z.colls.tasks = s.colls.tasks ∧ z.colls.readies = s.colls.readies ∧ z.sched = s.sched := ⟨rfl, rfl, rfl, rfl⟩
  split
  · obtain ⟨b1, b2, b3⟩ := scramble_sides z (span 0x10 32) (z.obj oCarryBase + held) bs.length
    have hw : w = z.scramble (span 0x10 32) (z.obj oCarryBase + held) bs.length := rfl
    rw [← hw] at b1 b2 b3
    obtain ⟨a, b⟩ := noteLate_silent ({ w with colls := { w.colls with carried := w.colls.carried ++ [(⟨d.tag, position, offset, bs, d.own⟩ : Carried)] } }) d.tag 0 0 bs.length 0
    exact ⟨b.trans (b3.trans hz.1), (congrArg Colls.tasks a.2.2.1).trans ((congrArg Colls.tasks b2).trans hz.2.1),
      (congrArg Colls.readies a.2.2.1).trans ((congrArg Colls.readies b2).trans hz.2.2.1), a.2.1.trans (b1.trans hz.2.2.2)⟩
  · split
    · obtain ⟨a, b⟩ := noteLate_silent z d.tag 0 0 0 bs.length
      rw [b, a.2.2.1, a.2.1]; exact hz
    · exact hz

theorem noteStale_parts {s : State} (r : Rising s.dict.objs) : s.noteStale.obj oStaleCount = (s.obj oStaleCount + 1) % 2 ^ 64 ∧
    (∀ k, k ≠ oStaleCount → s.noteStale.obj k = s.obj k) ∧ s.noteStale.ports = s.ports ∧ s.noteStale.colls = s.colls ∧ s.noteStale.sched = s.sched ∧
    s.noteStale.mem = s.mem ∧ s.noteStale.resil = s.resil := by
  obtain ⟨x, hx, -, o1, o2, m1, m2, m3, -, -, m4, m5, -⟩ := count_facts (k := oStaleCount) r
  unfold State.noteStale
  rw [hx]
  have z : objSize oStaleCount = 8 := by decide +kernel
  rw [z] at o2
  exact ⟨o2, o1, m3, m4, m2, m1, m5⟩

/-- What becomes of a message of one of the six kinds. -/

theorem screen_stale {s : State} {p v k : Nat} {m : Msg} {act : CollCtx → CollMsg → M Unit} (h : s.frontMsg p v = some m) (hk : hdrKind m.header = k)
    (he : hdrEpoch m.header ≠ s.obj oPlacementEpoch) : s.onMessage p v k act = .next (s.dropFront p m).noteStale := by
  unfold State.onMessage
  rw [h]
  dsimp only
  rw [if_neg (by rw [hk]; exact fun a => a rfl), if_pos he]

theorem screen_debt {s : State} {p v k : Nat} {m : Msg} {d : Debt} {act : CollCtx → CollMsg → M Unit} (h : s.frontMsg p v = some m) (hk : hdrKind m.header = k)
    (he : hdrEpoch m.header = s.obj oPlacementEpoch) (hd : s.debt? k (readColl m).1 (readColl m).2.rank = some d) :
    s.onMessage p v k act = .next ((s.dropFront p m).charge d k (readColl m).2.position (readColl m).2.offset (readColl m).2.data) := by
  unfold State.onMessage
  rw [h]
  dsimp only
  have hd' : (s.dropFront p m).debt? k (readColl m).1 (readColl m).2.rank = some d := hd
  rw [if_neg (by rw [hk]; exact fun a => a rfl), if_neg (by rw [he]; exact fun a => a rfl), hd']

theorem ready_stale {s : State} {p v : Nat} {m : Msg} (h : s.frontMsg p v = some m) (hk : hdrKind m.header = 1)
    (he : hdrEpoch m.header ≠ s.obj oPlacementEpoch) : execReady p v s = .next ((s.dropFront p m).noteStale.freeBuffer p v) := by
  unfold execReady
  rw [h]
  dsimp only
  rw [if_neg (by rw [hk]; exact fun a => a rfl), if_pos he]

theorem ready_debt {s : State} {p v : Nat} {m : Msg} {d : Debt} (h : s.frontMsg p v = some m) (hk : hdrKind m.header = 1)
    (he : hdrEpoch m.header = s.obj oPlacementEpoch) (hd : s.debt? 1 (readColl m).1 (readColl m).2.rank = some d) :
    execReady p v s = .next (((s.dropFront p m).charge d 1 0 0 []).freeBuffer p v) := by
  unfold execReady
  rw [h]
  dsimp only
  have hd' : (s.dropFront p m).debt? 1 (readColl m).1 (readColl m).2.rank = some d := hd
  rw [if_neg (by rw [hk]; exact fun a => a rfl), if_neg (by rw [he]; exact fun a => a rfl), hd']

theorem ready_held {s : State} {p v : Nat} {m : Msg} (h : s.frontMsg p v = some m) (hk : hdrKind m.header = 1)
    (he : hdrEpoch m.header = s.obj oPlacementEpoch) (hd : s.debt? 1 (readColl m).1 (readColl m).2.rank = none) :
    execReady p v s = if s.colls.readies.length ≥ 16384 then .next s else
      .next (({ s.dropFront p m with colls := { s.colls with readies := s.colls.readies ++ [(⟨(readColl m).1, (readColl m).2.rank⟩ : Ready)] } } : State).freeBuffer p v) := by
  unfold execReady
  rw [h]
  dsimp only
  have hd' : (s.dropFront p m).debt? 1 (readColl m).1 (readColl m).2.rank = none := hd
  rw [if_neg (by rw [hk]; exact fun a => a rfl), if_neg (by rw [he]; exact fun a => a rfl), hd']
  dsimp only
  rw [show (s.dropFront p m).colls = s.colls from rfl]

theorem noiseEstimate_parts {s : State} {l r : Machine.Num} (h : Rising s.dict.objs) :
    Rising (s.noiseEstimate l r).dict.objs ∧ (∀ k, k ≠ oNoiseLocalSum → k ≠ oNoiseReducedSum → k ≠ oNoiseScale → k ≠ oNoiseTick →
      (s.noiseEstimate l r).obj k = s.obj k) ∧ (s.noiseEstimate l r).mem = s.mem ∧ (s.noiseEstimate l r).sched = s.sched ∧
      (s.noiseEstimate l r).colls = s.colls ∧ (s.noiseEstimate l r).ports = s.ports := by
  unfold State.noiseEstimate
  dsimp only
  refine ⟨rising_setObj (rising_setObj (rising_setObj (rising_setObj h))), fun k n1 n2 n3 n4 => ?_, rfl, rfl, rfl, rfl⟩
  rw [obj_setObj (rising_setObj (rising_setObj (rising_setObj h))), if_neg n4, obj_setObj (rising_setObj (rising_setObj h)), if_neg n3,
    obj_setObj (rising_setObj h), if_neg n2, obj_setObj h, if_neg n1]

theorem endBarrier_parts {c : CollCtx} {q : Coll} {s : State} (h : Rising s.dict.objs) : ∃ t, c.endBarrier q s = t ∧ Rising t.dict.objs ∧
    t.obj oCollectiveTasks = s.obj oCollectiveTasks ∧
    t.obj oBarrierLate = (if q.late then (s.obj oBarrierLate + 1) % 2 ^ 64 else s.obj oBarrierLate) ∧ t.mem = s.mem ∧ t.sched = s.sched ∧
    t.ports = s.ports ∧ t.colls = (if flag c.t.image 868 then { s.colls with skew := s.colls.skew || flag q.totals.1 0 } else s.colls) := by
  obtain ⟨a, ha⟩ : ∃ a, (if flag c.t.image 868 then
      { s with colls := { s.colls with skew := s.colls.skew || flag q.totals.1 0 } } else s) = a := ⟨_, rfl⟩
  have fa : a.dict = s.dict ∧ a.mem = s.mem ∧ a.sched = s.sched ∧ a.ports = s.ports ∧
      a.colls = (if flag c.t.image 868 then { s.colls with skew := s.colls.skew || flag q.totals.1 0 } else s.colls) := by
    rw [← ha]
    split <;> exact ⟨rfl, rfl, rfl, rfl, rfl⟩
  obtain ⟨b, hb⟩ : ∃ b, (if q.late then a.count oBarrierLate else a) = b := ⟨_, rfl⟩
  have ao : ∀ k, a.obj k = s.obj k := fun k => by unfold State.obj; rw [fa.1]
  have ar : Rising a.dict.objs := by rw [fa.1]; exact h
  have fb : Rising b.dict.objs ∧ b.obj oCollectiveTasks = s.obj oCollectiveTasks ∧
      b.obj oBarrierLate = (if q.late then (s.obj oBarrierLate + 1) % 2 ^ 64 else s.obj oBarrierLate) ∧ b.mem = s.mem ∧ b.sched = s.sched ∧
      b.ports = s.ports ∧ b.colls = a.colls := by
    rw [← hb]
    split
    · obtain ⟨x, hx, r1, o1, o2, m1, m2, m3, -, -, m4, m5, -⟩ := count_facts (k := oBarrierLate) ar
      rw [hx]
      have z : objSize oBarrierLate = 8 := by decide +kernel
      rw [z, ao] at o2
      exact ⟨r1, (o1 _ (by decide)).trans (ao _), o2, m1.trans fa.2.1, m2.trans fa.2.2.1, m3.trans fa.2.2.2.1, m4⟩
    · exact ⟨ar, ao _, ao _, fa.2.1, fa.2.2.1, fa.2.2.2.1, rfl⟩
  have key : ∃ y, c.endBarrier q s = y ∧ (y = b ∨ ∃ l r, y = b.noiseEstimate l r) := by
    refine ⟨_, rfl, ?_⟩
    unfold CollCtx.endBarrier
    rw [ha]
    dsimp only
    rw [hb]
    split
    · exact .inr ⟨_, _, rfl⟩
    · exact .inl rfl
  obtain ⟨y, hy, e | ⟨l, r, e⟩⟩ := key
  · subst e
    exact ⟨_, hy, fb.1, fb.2.1, fb.2.2.1, fb.2.2.2.1, fb.2.2.2.2.1, fb.2.2.2.2.2.1, fb.2.2.2.2.2.2.trans fa.2.2.2.2⟩
  · obtain ⟨n1, n2, n3, n4, n5, n6⟩ := noiseEstimate_parts (l := l) (r := r) fb.1
    rw [← e] at n1 n2 n3 n4 n5 n6
    exact ⟨_, hy, n1, (n2 _ (by decide) (by decide) (by decide) (by decide)).trans fb.2.1, (n2 _ (by decide) (by decide) (by decide) (by decide)).trans fb.2.2.1,
      n3.trans fb.2.2.2.1, n4.trans fb.2.2.2.2.1, n6.trans fb.2.2.2.2.2.1, n5.trans (fb.2.2.2.2.2.2.trans fa.2.2.2.2)⟩

theorem working_parts {s : State} {r : Nat} {t : Machine.Task} (h : s.working? r = some t) : s.task? r = some t ∧ t.record = r := by
  unfold State.working? at h
  split at h
  · rename_i t' e
    split at h
    · cases h
      refine ⟨e, ?_⟩
      unfold State.task? at e
      simpa using List.find?_some e
    · cases h
  · cases h

/-- A change to a task that leaves its members leaves it its record's holder. -/
theorem modTask_holder {s : State} {r : Nat} {t : Machine.Task} {f : Machine.Task → Machine.Task} (h : s.holder? r = some t)
    (hr : t.record = r) (hm : ∀ u, (f u).members = u.members) : (s.modTask r f).holder? r = some { f t with record := r } := by
  have e : s.modTask r f = { s with sched := { s.sched with tasks := s.sched.tasks.map fun u =>
      if u.record = t.record then { f u with record := u.record } else u } } := by
    unfold State.modTask; rw [h]
  rw [e]
  unfold State.holder? at h ⊢
  show List.find? _ (s.sched.tasks.map _) = _
  rw [List.find?_map]
  have q : ((fun v : Machine.Task => v.record == r || v.members.any (·.1 == r)) ∘ fun u =>
      if u.record = t.record then { f u with record := u.record } else u) = fun v => v.record == r || v.members.any (·.1 == r) := by
    funext u
    dsimp only [Function.comp]
    split
    · rw [hm]
    · rfl
  rw [q, h, Option.map_some, if_pos rfl, hr]

theorem finish_barrier {c : CollCtx} {q : Coll} {s y : State} {t : Machine.Task} (hq : s.coll? c.t.record = some q) (h8 : colOp c.t.image = 8)
    (h5 : q.changed = none) (h6 : q.overflow = 0) (hb : (c.endBarrier q s).holder? c.t.record = some t) (hr : t.record = c.t.record)
    (h0 : t.bins = []) (hy : ((c.endBarrier q s).useReadies (colTag c.t.image)).count oCollectiveTasks = y) :
    ∃ l, c.finish.run s = .ok () { y with sched := { y.sched with tasks := l } } ∧
      l.find? (·.record == c.t.record) = some { t with work := 1 } := by
  obtain ⟨z, hz⟩ : ∃ z, (c.endBarrier q s).modTask c.t.record (fun t => { t with bins := [] }) = z := ⟨_, rfl⟩
  obtain ⟨w, hw⟩ : ∃ w, (z.useReadies (colTag c.t.image)).count oCollectiveTasks = w := ⟨_, rfl⟩
  have tz := modTask_holder (f := fun t => { t with bins := [] }) hb hr fun _ => rfl
  rw [hz] at tz
  have ez : ∃ l, z = { c.endBarrier q s with sched := { (c.endBarrier q s).sched with tasks := l } } := by
    rw [← hz]; unfold State.modTask; rw [hb]; exact ⟨_, rfl⟩
  obtain ⟨l, ez⟩ := ez
  have ew : w = { y with sched := z.sched } := by
    rw [← hw, ← hy, ez]; rfl
  have tw : w.holder? c.t.record = some { t with bins := [], record := c.t.record } := by
    unfold State.holder? at tz ⊢; rw [ew]; exact tz
  have tv := modTask_holder (f := fun t => { t with work := 1 }) tw rfl fun _ => rfl
  have ev : ∃ l, w.modTask c.t.record (fun t => { t with work := 1 }) = { w with sched := { w.sched with tasks := l } } := by
    unfold State.modTask; rw [tw]; exact ⟨_, rfl⟩
  obtain ⟨l2, ev⟩ := ev
  have ys : w.sched = { y.sched with tasks := z.sched.tasks } := by
    rw [ew]
    show z.sched = _
    rw [ez, ← hy]
    rfl
  refine ⟨l2, ?_, ?_⟩
  · unfold CollCtx.finish
    refine bind_ok (coll_run hq) ?_
    dsimp only
    rw [h8]
    refine bind_mod ?_
    have sb : (settleBins c.reader).run (c.endBarrier q s) = .ok () z := by
      unfold settleBins
      refine bind_get ?_
      have e : ((((c.endBarrier q s).task? c.reader.record).map (·.bins)).getD []) = [] := by
        show (((c.endBarrier q s).task? c.t.record).map (·.bins)).getD [] = []
        rw [task?_of_holder hb hr]; exact h0
      rw [e]
      refine bind_mod ?_
      show EStateM.run _ ((c.endBarrier q s).modTask c.t.record fun t => { t with bins := [] }) = _
      rw [hz]
      rfl
    refine bind_ok sb ?_
    refine bind_mod ?_
    show EStateM.run _ ((z.useReadies (colTag c.t.image)).count oCollectiveTasks) = _
    rw [hw]
    refine bind_mod ?_
    show EStateM.run _ (w.modTask c.t.record fun t => { t with work := 1 }) = _
    rw [ev, h5]
    dsimp only
    rw [if_neg (by rw [h6]; decide), ew]
    show EStateM.Result.ok () _ = EStateM.Result.ok () _
    congr 1
    show ({ y with sched := { z.sched with tasks := l2 } } : State) = _
    rw [show z.sched = { y.sched with tasks := z.sched.tasks } by rw [← ys, ew]]
  · rw [ev] at tv
    have k := task?_of_holder tv rfl
    unfold State.task? at k
    refine k.trans ?_
    rw [← hr, ← h0]

theorem raise_log {s : State} {code src unit a b c d e : Nat} : (s.raise code src unit a b c d e).dict.log =
    (if 4096 ≤ s.dict.log.length then s.dict.log.drop 1 else s.dict.log) ++ [⟨s.obj oEventSeqNext, s.tick, code, src, unit, a, b, c, d, e⟩] := by
  unfold State.raise State.appendEvent State.armVector State.count
  dsimp only
  by_cases f : 4096 ≤ s.dict.log.length
  · simp only [f, decide_true, if_true]
    rw [addObj_out.1, addObj_out.1]
    rfl
  · simp only [f, decide_false, if_false, Bool.false_eq_true]
    rfl

theorem haltWith_parts (s : State) (c r : Nat) : (s.haltWith c r).dict = s.dict ∧ (s.haltWith c r).mem = s.mem ∧ (s.haltWith c r).sched.tasks = s.sched.tasks ∧
    (s.haltWith c r).sched.halt.isSome = true := by
  unfold State.haltWith
  split
  · rename_i q; exact ⟨rfl, rfl, rfl, by rw [q]; rfl⟩
  · exact ⟨rfl, rfl, rfl, rfl⟩

theorem strict_parts {s : State} {c : CollCtx} {l : List Nat} {t : Machine.Task} {r : Nat} (hs : Rising s.dict.objs) (h : s.task? c.t.record = some t)
    (hr : c.t.record = r) :
    (s.strictAbsent c l).task? r = some { t with work := 2 } ∧ (s.strictAbsent c l).sched.halt.isSome = true ∧
    (s.strictAbsent c l).obj oPeerAbsentTasks = (s.obj oPeerAbsentTasks + 1) % 2 ^ 64 ∧
    (∃ e ∈ (s.strictAbsent c l).dict.log, e.code = 0x0602 ∧ e.w0 = colTag c.t.image ∧ e.w1 = l.length ∧ e.w2 = c.lowest l ∧ e.w3 = c.rank (c.lowest l)) ∧
    (s.strictAbsent c l).mem = s.mem := by
  obtain ⟨x, hx, r1, o1, o2, m1, m2, -⟩ := count_facts (k := oPeerAbsentTasks) hs
  obtain ⟨y, hy⟩ : ∃ y, x.raise 0x0602 0x04 c.t.unit (colTag c.t.image) l.length (c.lowest l) (c.rank (c.lowest l)) = y := ⟨_, rfl⟩
  obtain ⟨r2, g, y1, y2, yo⟩ := raise_frame (s := x) (code := 0x0602) (src := 0x04) (unit := c.t.unit) (a := colTag c.t.image) (b := l.length) (c := c.lowest l) (d := c.rank (c.lowest l)) (e := 0) r1
  rw [hy] at r2 g y1 y2 yo
  have ty : y.task? c.t.record = some t := by
    unfold State.task?; rw [y1, m2]; exact h
  rw [show objSize oPeerAbsentTasks = 8 by decide +kernel] at o2
  have tr : t.record = r := by
    unfold State.task? at h
    rw [← hr]; simpa using List.find?_some h
  obtain ⟨z, hz, zo, zs, zm⟩ := failColl_is y c t 0x0602
  have e : s.strictAbsent c l = ((z.setTask { t with work := 2 }).raise 0x0102 t.source t.unit t.record 0x09 0x0602).haltWith 0x0102 t.record := by
    unfold State.strictAbsent
    dsimp only
    rw [hx, hy, ty]
    exact hz
  replace r2 : Rising z.dict.objs := by rw [zo]; exact r2
  replace y1 := zs.trans y1
  replace y2 := zm.trans y2
  replace yo : ∀ k, k ≠ oEventSeqNext → k ≠ oEventSeqOldest → k ≠ oEventsOverwritten → z.obj k = x.obj k := by
    unfold State.obj at *; rw [zo]; exact yo
  replace ty : z.task? c.t.record = some t := by unfold State.task? at *; rw [zs]; exact ty
  rw [e]
  obtain ⟨w, hw⟩ : ∃ w, (z.setTask { t with work := 2 }).raise 0x0102 t.source t.unit t.record 0x09 0x0602 = w := ⟨_, rfl⟩
  obtain ⟨r3, -, w1, w2, wo⟩ := raise_frame (s := z.setTask { t with work := 2 }) (code := 0x0102) (src := t.source) (unit := t.unit) (a := t.record) (b := 9) (c := 0x0602) (d := 0) (e := 0) r2
  have wl := raise_log (s := z.setTask { t with work := 2 }) (code := 0x0102) (src := t.source) (unit := t.unit) (a := t.record) (b := 9) (c := 0x0602) (d := 0) (e := 0)
  rw [hw] at r3 w1 w2 wo wl
  rw [hw]
  obtain ⟨h1, h2, h3, h4⟩ := haltWith_parts w 0x0102 t.record
  refine ⟨?_, h4, ?_, ?_, ?_⟩
  · unfold State.task?; rw [h3, w1]
    exact task?_setTask (by rw [← hr]; exact ty) tr
  · unfold State.obj; rw [h1]
    show w.obj oPeerAbsentTasks = _
    rw [wo _ (by decide) (by decide) (by decide)]
    show z.obj oPeerAbsentTasks = _
    rw [yo _ (by decide) (by decide) (by decide)]
    exact o2
  · rw [h1, wl]
    refine ⟨⟨x.obj oEventSeqNext, x.tick, 0x0602, 0x04, c.t.unit, colTag c.t.image, l.length, c.lowest l, c.rank (c.lowest l), 0⟩,
      List.mem_append.mpr (.inl ?_), rfl, rfl, rfl, rfl, rfl⟩
    show _ ∈ if 4096 ≤ z.dict.log.length then z.dict.log.drop 1 else z.dict.log
    have yl := raise_log (s := x) (code := 0x0602) (src := 0x04) (unit := c.t.unit) (a := colTag c.t.image) (b := l.length) (c := c.lowest l) (d := c.rank (c.lowest l)) (e := 0)
    rw [hy, ← zo] at yl
    generalize (if 4096 ≤ x.dict.log.length then x.dict.log.drop 1 else x.dict.log) = q at yl
    rw [yl]
    split
    · rename_i k
      cases q with
      | nil => exact absurd k (show ¬ 4096 ≤ 1 by decide)
      | cons a q => exact List.mem_append.mpr (.inr (List.mem_singleton.mpr rfl))
    · exact List.mem_append.mpr (.inr (List.mem_singleton.mpr rfl))
  · rw [h2, w2]
    show z.mem = _
    rw [y2, m1]

theorem noteLate_obj (y : State) (a b d k : Nat) : (y.noteLate a b d 0 0).obj k = y.obj k := by
  unfold State.noteLate State.addObj
  dsimp only [if_true]
  split <;> rfl

theorem lenient_parts {s : State} {c : CollCtx} {q : Coll} {l : List Nat} (h : s.coll? c.t.record = some q) :
    ∃ q', (s.lenientAbsent c q l).coll? c.t.record = some q' ∧ q'.deadline = true ∧ q'.absent = l ∧
    (∀ p ∈ q'.awaitReduce ++ q'.awaitPlace, p.1 ∉ l) ∧ s.colls.debts <+: (s.lenientAbsent c q l).colls.debts ∧
    (s.lenientAbsent c q l).sched = s.sched ∧ (s.lenientAbsent c q l).mem = s.mem ∧ ∀ k, (s.lenientAbsent c q l).obj k = s.obj k := by
  have key : ∃ f x real tag p, (∀ q, f q = { q with
        todo := (f q).todo
        awaitReduce := q.awaitReduce.filter fun p => !l.contains p.1
        awaitPlace := q.awaitPlace.filter fun p => !l.contains p.1
        tokens := (f q).tokens
        absent := l, deadline := true }) ∧ s.modColl c.t.record f = x ∧
      s.lenientAbsent c q l = ({ x with colls := { x.colls with debts := x.colls.debts ++ real } } : State).noteLate tag l.length p 0 0 := by
    refine ⟨_, _, _, _, _, fun q => ?_, rfl, rfl⟩
    rfl
  obtain ⟨f, x, real, tag, p, hf, hx, e⟩ := key
  obtain ⟨n, -⟩ := noteLate_silent ({ x with colls := { x.colls with debts := x.colls.debts ++ real } } : State) tag l.length p 0 0
  have o := noteLate_obj ({ x with colls := { x.colls with debts := x.colls.debts ++ real } } : State) tag l.length p
  rw [← e] at n o
  have k1 := coll?_modColl (f := f) h fun q => by rw [hf q]
  rw [hx] at k1
  refine ⟨f q, ?_, by rw [hf q], by rw [hf q], ?_, ?_, ?_, ?_, ?_⟩
  · unfold State.coll?; rw [n.2.2.1]; exact k1
  · rw [hf q]
    intro p hp
    rcases List.mem_append.mp hp with m | m
    · have := (List.mem_filter.mp m).2; simpa using this
    · have := (List.mem_filter.mp m).2; simpa using this
  · rw [n.2.2.1, ← hx]; exact List.prefix_append _ _
  · rw [n.2.1, ← hx]; rfl
  · rw [n.1, ← hx]; rfl
  · intro k; rw [o k, ← hx]; rfl

end Sys2Proof.Safety
end

