-- ==== Sys2Proof/Laws/Numbers.lean ====
section
/-! SUPPORT. Codes of the floating-point formats in their fields, and the codes of their values. -/

namespace Sys2Proof.Safety

open Sys2Proof.Machine

theorem bitLength_below {m n : Nat} (h : m < 2 ^ n) : bitLength m ≤ n := by
  unfold bitLength
  split
  · omega
  · rename_i k
    have := (Nat.log2_lt k).mpr h
    omega

theorem bitLength_top {m n : Nat} (h : m < 2 ^ n) : bitLength (2 ^ n + m) = n + 1 := by
  unfold bitLength
  have p : 0 < 2 ^ n := Nat.two_pow_pos n
  have k : 2 ^ n + m ≠ 0 := by omega
  rw [if_neg k]
  have a := (Nat.log2_lt k).mpr (show 2 ^ n + m < 2 ^ (n + 1) by rw [Nat.pow_succ]; omega)
  have b := (Nat.le_log2 k).mpr (show 2 ^ n ≤ 2 ^ n + m by omega)
  omega

/-- A code in its three fields. -/

theorem code_parts {c e m : Nat} (h : c < 2 ^ (1 + e + m)) (he : 0 < e) :
    c = bitOf (flag c (e + m)) <<< (e + m) + (field c (e + m - 1) m) <<< m + c % 2 ^ m ∧ field c (e + m - 1) m < 2 ^ e := by
  have t : c / 2 ^ (e + m) = bitOf (flag c (e + m)) := by
    have l : c / 2 ^ (e + m) < 2 := by
      apply Nat.div_lt_of_lt_mul
      rw [← Nat.pow_succ]
      rw [show (e + m).succ = 1 + e + m by omega]; exact h
    unfold flag bitOf
    rw [Nat.testBit_eq_decide_div_mod_eq, Nat.mod_eq_of_lt l]
    generalize c / 2 ^ (e + m) = q at l
    have k : q = 0 ∨ q = 1 := by omega
    rcases k with k | k <;> subst k <;> rfl
  · have f : field c (e + m - 1) m = c / 2 ^ m % 2 ^ e := by
      unfold field
      rw [Nat.shiftRight_eq_div_pow, show e + m - 1 + 1 - m = e by omega]
    rw [f]
    refine ⟨?_, Nat.mod_lt _ (Nat.two_pow_pos _)⟩
    rw [← t, Nat.shiftLeft_eq, Nat.shiftLeft_eq]
    have a1 := Nat.div_add_mod' c (2 ^ m)
    have a2 := Nat.div_add_mod' (c / 2 ^ m) (2 ^ e)
    rw [Nat.div_div_eq_div_mul, ← Nat.pow_add, Nat.add_comm m e] at a2
    rw [← a2, Nat.add_mul, Nat.mul_assoc, ← Nat.pow_add] at a1
    exact a1.symm

theorem codes_agree {f : FloatFmt} {code : Nat} (he : 0 < f.ebits) (hc : code < 2 ^ fmtWidth f) (hn : decodeFloat f code ≠ .nan) :
    encodeFloat f (decodeFloat f code) = code := by
  unfold fmtWidth at hc
  obtain ⟨cp, el⟩ := code_parts hc he
  have frl : code % 2 ^ f.mbits < 2 ^ f.mbits := Nat.mod_lt _ (Nat.two_pow_pos _)
  unfold decodeFloat at hn ⊢
  dsimp only at hn ⊢
  obtain ⟨s, hs⟩ : ∃ s, flag code (f.ebits + f.mbits) = s := ⟨_, rfl⟩
  obtain ⟨e, hee⟩ : ∃ e, field code (f.ebits + f.mbits - 1) f.mbits = e := ⟨_, rfl⟩
  obtain ⟨fr, hfr⟩ : ∃ fr, code % 2 ^ f.mbits = fr := ⟨_, rfl⟩
  rw [hs, hee, hfr] at cp
  rw [hee] at el
  rw [hfr] at frl
  rw [hs, hee, hfr] at hn ⊢
  split
  · rename_i h1
    rw [if_pos h1] at hn
    split
    · rename_i h2
      show bitOf s <<< _ + _ = _
      rw [cp, h2, h1.2]; omega
    · rename_i h2
      rw [if_neg h2] at hn; exact absurd rfl hn
  · rename_i h1
    rw [if_neg h1] at hn
    split
    · rename_i h2
      rw [if_pos h2] at hn; exact absurd rfl hn
    · rename_i h2
      split
      · rename_i h3
        rw [h3, Nat.zero_shiftLeft, Nat.add_zero] at cp
        unfold encodeFloat
        dsimp only
        by_cases z : fr = 0
        · rw [if_pos z, cp, z]; rfl
        · rw [if_neg z]
          have bl := bitLength_below frl
          have q : ulpExp f fr (1 - f.bias - f.mbits) = 1 - f.bias - f.mbits := by unfold ulpExp; omega
          have rm : roundMult none fr (1 - f.bias - f.mbits) (1 - f.bias - f.mbits) = fr := by
            unfold roundMult
            rw [if_pos (Int.le_refl _), Int.sub_self]; rfl
          rw [q, rm]
          have n : ¬ fr = 2 ^ (f.mbits + 1) := by rw [Nat.pow_succ]; omega
          rw [if_neg n]
          dsimp only
          rw [if_pos frl, ← cp]
      · rename_i h3
        unfold encodeFloat
        dsimp only
        have p := Nat.two_pow_pos f.mbits
        rw [if_neg (by omega)]
        have bl := bitLength_top frl
        have q : ulpExp f (2 ^ f.mbits + fr) (e - f.bias - f.mbits) = e - f.bias - f.mbits := by unfold ulpExp; rw [bl]; omega
        have rm : roundMult none (2 ^ f.mbits + fr) (e - f.bias - f.mbits) (e - f.bias - f.mbits) = 2 ^ f.mbits + fr := by
          unfold roundMult
          rw [if_pos (Int.le_refl _), Int.sub_self]; rfl
        rw [q, rm]
        have n : ¬ 2 ^ f.mbits + fr = 2 ^ (f.mbits + 1) := by rw [Nat.pow_succ]; omega
        rw [if_neg n]
        dsimp only
        rw [if_neg (by omega), Nat.add_sub_cancel_left]
        have t : ((e : Int) - f.bias - f.mbits + f.mbits + f.bias).toNat = e := by omega
        rw [t, ← cp]

theorem not_special {fmt code e fr : Nat} {f : FloatFmt} (hf : floatFmt? fmt = some f) (he : e = field code (f.ebits + f.mbits - 1) f.mbits)
    (hx : fr = code % 2 ^ f.mbits) (h1 : ¬(fmt ∈ [0x00, 0x01, 0x02, 0x03, 0x05, 0x0D] ∧ e = 2 ^ f.ebits - 1)) (h2 : ¬(fmt = 0x04 ∧ code % 128 = 0x7F)) :
    ¬ (f.special = 0 ∧ e = 2 ^ f.ebits - 1) ∧ ¬ (f.special = 1 ∧ e = 2 ^ f.ebits - 1 ∧ fr = 2 ^ f.mbits - 1) := by
  unfold floatFmt? at hf
  split at hf <;> cases hf <;> refine ⟨fun a => ?_, fun a => ?_⟩
  all_goals first
    | exact absurd a.1 (by decide)
    | exact h1 ⟨by decide, a.2⟩
    | skip
  have a1 : field code 6 3 = 15 := he.symm.trans a.2.1
  have a2 : code % 8 = 7 := hx.symm.trans a.2.2
  unfold field at a1
  rw [Nat.shiftRight_eq_div_pow] at a1
  refine h2 ⟨rfl, ?_⟩
  have a3 : code / 8 % 16 = 15 := a1
  omega

end Sys2Proof.Safety
end

