-- ==== Sys2Proof/Laws/Twins.lean ====
section
/-! SUPPORT. Messages of the twin, the end of a restore, links taken down and Dusk. -/

namespace Sys2Proof.Safety

open Sys2Proof.Machine

theorem write_near {i : Init} {s : State} {va : Nat} {bs : List Byte} (e1 : entState (s.entry (va / pageBytes)) = 1 ∨ entState (s.entry (va / pageBytes)) = 2)
    (h0 : bs ≠ []) (h1 : va + bs.length ≤ hostWindowBase) (h2 : va % pageBytes + bs.length ≤ pageBytes) (h3 : s.granted i.cls 2 va = true) (hi : i.epoch = none)
    (hc : i.cls = 2 ∨ i.cls = 3) : ∃ u, (writeBytes i .pass va bs).run s = .ok () u ∧ Works s u ∧
      u.mem.cells = memPutAll s.mem.cells (entPhys (s.entry (va / pageBytes)) + va % pageBytes) bs := by
  have w : Works s (s.translate i.tc (va / pageBytes)) := translate_works _ _ (Works.refl s)
  obtain ⟨m1, m2, m3⟩ := translate_mem (s := s) (tc := i.tc) (page := va / pageBytes)
  have g := granted_works w (c := i.cls) (r := 2) (va := va)
  have pl := w.places (va / pageBytes)
  have es := entState_place pl
  have ep := entPlace_phys pl
  obtain ⟨x, hx⟩ : ∃ x, s.translate i.tc (va / pageBytes) = x := ⟨_, rfl⟩
  rw [hx] at g es ep m1 m2 m3
  have hl : 0 < bs.length := List.length_pos_iff.mpr h0
  have hwb : hostWindowBase = 0xFF0000000000 := rfl
  have b1 : ¬ (va + bs.length > 2 ^ 48) := by omega
  have b2 : ¬ (va ≥ hostWindowBase) := by omega
  have b3 : ¬ (entState (x.entry (va / pageBytes)) = 0) := by omega
  have b4 : ¬ (entState (x.entry (va / pageBytes)) = 3) := by omega
  have r : (writePiece i .pass va bs).run s = .ok () (x.storeAt .pass va bs) := by
    unfold writePiece
    rw [if_neg b2]
    refine bind_mod ?_
    show EStateM.run _ (s.translate i.tc (va / pageBytes)) = _
    rw [hx]
    refine bind_get ?_
    dsimp only
    rw [if_neg b3, if_neg b4]
    refine bind_ok (checkRights_ok (i := i) (g.trans h3)) ?_
    refine bind_get ?_
    rw [hi, if_neg (show ¬(!x.epochOk none) = true from fun a => by cases a)]
    show EStateM.Result.ok () ((x.storeAt .pass va bs).noteRewrite i va bs.length) = _
    unfold State.noteRewrite
    rw [if_pos hc]
  have u : Works s (x.storeAt .pass va bs) ∧
      (x.storeAt .pass va bs).mem.cells = memPutAll s.mem.cells (entPhys (s.entry (va / pageBytes)) + va % pageBytes) bs := by
    refine ⟨by rw [← hx]; exact storeAt_works _ _ _ w, ?_⟩
    unfold State.storeAt
    rw [ep]
    extract_lets a y
    have k : y.mem.cells = s.mem.cells ∧ y.out = s.out := by
      unfold y
      split
      · exact ⟨touch_cells.1.trans m1, touch_cells.2.trans m3⟩
      · exact ⟨by rw [count_places, m1], by unfold State.addObj; split <;> exact m3⟩
    clear_value y
    rw [← k.1]
    rfl
  refine ⟨_, ?_, u⟩
  unfold writeBytes
  rw [if_neg b1, pieces_one hl h2]
  have tr : takeRange va bs (va, bs.length) = bs := by
    unfold takeRange
    rw [Nat.sub_self]
    exact List.take_length
  refine bind_ok (a := ⟨⟩) (t := x.storeAt .pass va bs) ?_ rfl
  dsimp only
  rw [tr]
  exact r

theorem twin_reject {s : State} {p v k : Nat} {m : Msg} {act : TwinMsg → State → State} (h : s.frontMsg p v = some m) (hk : hdrKind m.header = k)
    (hn : ¬(s.twinned = true ∧ hdrSource m.header = s.obj oTwinRank)) : s.onTwin p v k act = (s.dropFront p m).count oTwinRejects := by
  unfold State.onTwin
  rw [h]
  dsimp only
  rw [if_neg (by rw [hk]; exact fun a => a rfl), if_neg]
  exact hn

theorem twin_acts {s : State} {p v k : Nat} {m : Msg} {act : TwinMsg → State → State} (h : s.frontMsg p v = some m) (hk : hdrKind m.header = k)
    (h1 : s.twinned = true) (h2 : hdrSource m.header = s.obj oTwinRank) :
    s.onTwin p v k act = act ⟨p, hdrParam m.header % 2, m.data⟩ (s.dropFront p m) := by
  unfold State.onTwin
  rw [h]
  dsimp only
  rw [if_neg (by rw [hk]; exact fun a => a rfl), if_pos]
  exact ⟨h1, h2⟩

theorem rejects_parts {s : State} (r : Rising s.dict.objs) : (s.count oTwinRejects).obj oTwinRejects = (s.obj oTwinRejects + 1) % 2 ^ 64 ∧
    (∀ k, k ≠ oTwinRejects → (s.count oTwinRejects).obj k = s.obj k) ∧ (s.count oTwinRejects).resil = s.resil ∧ (s.count oTwinRejects).mem = s.mem ∧
    (s.count oTwinRejects).out = s.out := by
  obtain ⟨x, hx, -, o1, o2, m1, -, -, m4, -, -, m5, -⟩ := count_facts (k := oTwinRejects) r
  rw [hx]
  have z : objSize oTwinRejects = 8 := by decide +kernel
  rw [z] at o2
  exact ⟨o2, o1, m5, m1, m4⟩

theorem hold_near {s : State} {slot off : Nat} {bs : List Byte} {a : Nat} (ha : a = s.heldSlot slot + off)
    (h0 : off + bs.length ≤ s.slotBytes) (hb : bs ≠ []) (h1 : a + bs.length ≤ hostWindowBase) (h2 : a % pageBytes + bs.length ≤ pageBytes)
    (e1 : entState (s.entry (a / pageBytes)) = 1 ∨ entState (s.entry (a / pageBytes)) = 2) (h3 : s.granted 3 2 a = true) :
    (s.holdBytes slot off bs).resil = s.resil ∧ ∀ b, memByte (s.holdBytes slot off bs).mem.cells b =
              if entPhys (s.entry (a / pageBytes)) + a % pageBytes ≤ b ∧
                  b < entPhys (s.entry (a / pageBytes)) + a % pageBytes + bs.length then
                bs.getD (b - (entPhys (s.entry (a / pageBytes)) + a % pageBytes)) 0 else memByte s.mem.cells b := by
  obtain ⟨u, e, w, c⟩ := write_near (i := resilInit) e1 hb h1 h2 h3 rfl (.inr rfl)
  have q : s.holdBytes slot off bs = u := by
    unfold State.holdBytes State.holding
    rw [if_neg (by omega), ← ha, e]
  rw [q]
  have f := w.frame
  simp only [workFrame, Prod.mk.injEq] at f
  refine ⟨f.2.2.2.2.2.2.2.1, fun b => ?_⟩
  rw [c, memByte_memPutAll]

theorem inserts_find {l : List Byte} {g : List (Nat × Nat)} {o n : Nat} :
    (∀ i b, l[i]? = some b → mapFind ((l.zipIdx n).foldl (fun g p => mapInsert g (o + p.2) p.1.toNat) g) (o + n + i) = some b.toNat) ∧
    (∀ i, (i < o + n ∨ o + n + l.length ≤ i) → mapFind ((l.zipIdx n).foldl (fun g p => mapInsert g (o + p.2) p.1.toNat) g) i = mapFind g i) := by
  induction l generalizing g n with
  | nil => exact ⟨fun i b h => by simp at h, fun i _ => rfl⟩
  | cons x l ih =>
    rw [List.zipIdx_cons, List.foldl_cons]
    obtain ⟨a, b⟩ := ih (g := mapInsert g (o + n) x.toNat) (n := n + 1)
    refine ⟨fun i y h => ?_, fun i h => ?_⟩
    · cases i with
      | zero =>
        rw [b _ (by omega), mapFind_mapInsert, if_pos (by omega)]
        simp at h; rw [h]
      | succ i =>
        have := a i y (by simpa using h)
        rw [← this]; congr 1; omega
    · have hl : (x :: l).length = l.length + 1 := rfl
      rw [b i (by omega), mapFind_mapInsert, if_neg (by omega)]

theorem setObj_silent (s : State) (k v : Nat) : Silent s (s.setObj k v) := ⟨rfl, rfl, rfl, rfl, rfl⟩

theorem raise_silent (s : State) (code src unit a b c d e : Nat) : Silent s (s.raise code src unit a b c d e) := by
  obtain ⟨o, l, n, cc, fx⟩ := raise_notes (code := code) (src := src) (unit := unit) (a := a) (b := b) (c := c) (d := d) (e := e) (Notes.refl s)
  rw [fx]; exact ⟨rfl, rfl, rfl, rfl, rfl⟩

theorem fold_silent {α : Type} {f : State → α → State} (h : ∀ s a, Silent s (f s a)) (l : List α) (s : State) : Silent s (l.foldl f s) := by
  induction l generalizing s with
  | nil => exact Silent.refl s
  | cons a l ih => exact (h s a).trans (ih _)

/-- A link that ends leaves memory and the scheduler. -/
theorem linkDown_sides (s : State) (p st cause : Nat) : (s.linkDown p st cause).mem = s.mem ∧ (s.linkDown p st cause).sched = s.sched := by
  have h := linkDown_aside s p st cause
  simp only [aside, Prod.mk.injEq] at h
  exact ⟨h.2.1, h.2.2⟩

theorem writeBack_sides (s : State) (l : Nat) : (s.writeBack l).sched = s.sched ∧ (s.writeBack l).resil = s.resil := by
  unfold State.writeBack
  dsimp only
  obtain ⟨o1, e1⟩ := addObj_is { s with mem := { s.mem with under := s.mem.under.filter fun p => p.1 / 256 != l } } oCacheWritebacks 1
  unfold State.count
  rw [e1]
  obtain ⟨o2, e2⟩ := addObj_is { s with mem := { s.mem with under := s.mem.under.filter fun p => p.1 / 256 != l }, dict := { s.dict with objs := o1 } } oStackWriteBytes 256
  rw [e2]
  exact ⟨rfl, rfl⟩

theorem cleanLines_parts (s : State) : s.cleanLines.mem.cells = s.mem.cells ∧ (∀ q ∈ s.cleanLines.mem.cache, ∀ l ∈ q.2, l.dirty = false) ∧
    s.cleanLines.sched = s.sched ∧ s.cleanLines.resil = s.resil := by
  unfold State.cleanLines
  dsimp only
  generalize s.mem.cache.flatMap (·.2) = all
  have k : ∀ x : State, (all.foldl (fun s c => if c.dirty then s.writeBack c.line else s) x).mem.cells = x.mem.cells ∧
      (all.foldl (fun s c => if c.dirty then s.writeBack c.line else s) x).sched = x.sched ∧
      (all.foldl (fun s c => if c.dirty then s.writeBack c.line else s) x).resil = x.resil := by
    induction all with
    | nil => exact fun x => ⟨rfl, rfl, rfl⟩
    | cons a l ih =>
      intro x
      rw [List.foldl_cons]
      obtain ⟨p, q, r⟩ := ih (if a.dirty then x.writeBack a.line else x)
      obtain ⟨w1, -, -⟩ := writeBack_cells (x := x) (l := a.line)
      obtain ⟨w3, w4⟩ := writeBack_sides x a.line
      refine ⟨p.trans ?_, q.trans ?_, r.trans ?_⟩ <;> split <;> first | rfl | assumption
  obtain ⟨a, b, c⟩ := k s
  refine ⟨a, fun q hq l hl => ?_, b, c⟩
  obtain ⟨q', -, rfl⟩ := List.mem_map.mp hq
  obtain ⟨l', -, rfl⟩ := List.mem_map.mp hl
  rfl

/-- What a run that succeeds answers. -/
def Gives {α : Type} (p : α → Prop) (m : M α) : Prop := ∀ s a u, m.run s = .ok a u → p a

theorem Gives.bind {α β : Type} {p : β → Prop} {m : M α} {f : α → M β} (h : ∀ a, Gives p (f a)) : Gives p (m >>= f) := by
  intro s a u e
  cases q : m.run s with
  | ok b v => rw [bind_ok q rfl] at e; exact h _ _ _ _ e
  | error b v =>
    have k : (m >>= f).run s = .error b v := by
      show EStateM.bind m f s = _
      unfold EStateM.bind
      rw [show m s = .error b v from q]
    rw [k] at e; cases e

theorem Gives.pure {α : Type} {p : α → Prop} {a : α} (h : p a) : Gives p (pure a : M α) := by
  intro s b u e
  cases e
  exact h

theorem Gives.ite {α : Type} {p : α → Prop} {c : Prop} [Decidable c] {m n : M α} (h : Gives p m) (k : Gives p n) : Gives p (if c then m else n) := by
  split <;> assumption

theorem restoreWork_status (read : Nat → Nat → M (List Byte)) : Gives (fun x => 2 ≤ x.1 ∧ x.1 ≤ 5) (restoreWork read) := by
  unfold restoreWork
  refine Gives.bind fun h => Gives.bind fun x => Gives.ite (Gives.pure (by decide)) (Gives.bind fun b => Gives.bind fun _ => Gives.ite (Gives.pure ?_)
    (Gives.bind fun _ => Gives.pure (by decide)))
  exact ⟨Nat.le_refl 2, show 2 ≤ 5 by decide⟩

theorem endRestore_parts {s : State} {st : Nat} (r : Rising s.dict.objs) : (s.endRestore st).obj oRestoreStatus = st ∧ (s.endRestore st).resil.restore = none ∧
    (∀ k, k ≠ oRestoreStatus → (s.endRestore st).obj k = s.obj k) ∧ (s.endRestore st).mem = s.mem := by
  refine ⟨?_, rfl, fun k n => ?_, rfl⟩
  · show (s.setObj oRestoreStatus st).obj _ = _
    rw [obj_setObj r, if_pos rfl]
  · show (s.setObj oRestoreStatus st).obj _ = _
    rw [obj_setObj r, if_neg n]

theorem loadStreams_is (x : State) (a b : Nat) : ∃ n, x.loadStreams a b = { x with num := n } := by
  unfold State.loadStreams
  generalize (List.range 2132).foldl _ _ = l
  exact ⟨_, rfl⟩

theorem loadStreams_obj (x : State) (a b k : Nat) : (x.loadStreams a b).obj k = x.obj k := by
  obtain ⟨n, e⟩ := loadStreams_is x a b
  rw [e]; rfl

theorem loadStreams_objs (x : State) (a b : Nat) : (x.loadStreams a b).dict.objs = x.dict.objs := by
  obtain ⟨n, e⟩ := loadStreams_is x a b
  rw [e]

theorem loadStreams_mem (x : State) (a b : Nat) : (x.loadStreams a b).mem = x.mem := by
  obtain ⟨n, e⟩ := loadStreams_is x a b
  rw [e]

theorem loadRestored_parts {s : State} {h : Nat} {body : List Byte} (r : Rising s.dict.objs) :
    (s.loadRestored h body).obj oJobStep = field h 1087 1024 ∧ (s.loadRestored h body).obj oSnapshotSeq = field h 1023 960 ∧
    (s.loadRestored h body).obj oRestoredCursor = field h 1535 1280 ∧ (s.loadRestored h body).obj oJobSeed = field h 1663 1536 ∧
    (s.loadRestored h body).resil.awaitSeal = none ∧
    (s.loadRestored h body).resil.armed = (s.resil.armed || (s.obj oRestoreReplay == 1 && field h 7 0 == 2)) ∧ (s.loadRestored h body).mem = s.mem := by
  obtain ⟨a, ha⟩ : ∃ a, (s.setObj oJobSeed (field h 1663 1536)).loadStreams (field h 1663 1536) (ofLe ((body.drop (0x2000 - 0x1000)).take 34112)) = a := ⟨_, rfl⟩
  have ar : Rising a.dict.objs := by rw [← ha, loadStreams_objs]; exact rising_setObj r
  have ao : ∀ k, a.obj k = if k = oJobSeed then field h 1663 1536 else s.obj k := fun k => by
    rw [← ha, loadStreams_obj]
    exact obj_setObj r
  have am : a.mem = s.mem := by rw [← ha, loadStreams_mem, State.setObj_mem]
  obtain ⟨b, hb⟩ : ∃ b, (a.setObj oPredictorExactMask (ofLe ((body.drop (0x1000 - 0x1000)).take 512))).setObj oPairGradientPath (ofLe ((body.drop (0x1200 - 0x1000)).take 128)) = b := ⟨_, rfl⟩
  have br : Rising b.dict.objs := by rw [← hb]; exact rising_setObj (rising_setObj ar)
  have bo : ∀ k, k ≠ oPredictorExactMask → k ≠ oPairGradientPath → b.obj k = a.obj k := fun k n m => by
    rw [← hb, obj_setObj (rising_setObj ar), if_neg m, obj_setObj ar, if_neg n]
  have bm : b.mem = s.mem := by rw [← hb]; exact (State.setObj_mem _ _ _).trans ((State.setObj_mem _ _ _).trans am)
  obtain ⟨c, hc⟩ : ∃ c, ((b.setObj oJobStep (field h 1087 1024)).setObj oSnapshotSeq (field h 1023 960)).setObj oRestoredCursor (field h 1535 1280) = c := ⟨_, rfl⟩
  have cr : Rising c.dict.objs := by rw [← hc]; exact rising_setObj (rising_setObj (rising_setObj br))
  have co : ∀ k, c.obj k = if k = oRestoredCursor then field h 1535 1280 else if k = oSnapshotSeq then field h 1023 960 else
      if k = oJobStep then field h 1087 1024 else b.obj k := fun k => by
    rw [← hc, obj_setObj (rising_setObj (rising_setObj br)), obj_setObj (rising_setObj br), obj_setObj br]
  have cm : c.mem = s.mem := by rw [← hc]; exact (State.setObj_mem _ _ _).trans ((State.setObj_mem _ _ _).trans ((State.setObj_mem _ _ _).trans bm))
  obtain ⟨arm, harm⟩ : ∃ arm, (c.obj oRestoreReplay == 1 && field h 7 0 == 2) = arm := ⟨_, rfl⟩
  have e : s.loadRestored h body = { (if arm then c.setObj oReplayExpected (field h 1279 1248) else c) with
      resil := { (if arm then c.setObj oReplayExpected (field h 1279 1248) else c).resil with awaitSeal := none, armed := s.resil.armed || arm } } := by
    unfold State.loadRestored
    dsimp only
    rw [ha, hb, hc, harm]
    have dr : (if arm then c.setObj oReplayExpected (field h 1279 1248) else c).resil.armed = s.resil.armed := by
      obtain ⟨n, ln⟩ := loadStreams_is (s.setObj oJobSeed (field h 1663 1536)) (field h 1663 1536) (ofLe ((body.drop (0x2000 - 0x1000)).take 34112))
      split <;> (rw [← hc, ← hb, ← ha, ln]; rfl)
    rw [dr]
  obtain ⟨d, hd⟩ : ∃ d, (if arm then c.setObj oReplayExpected (field h 1279 1248) else c) = d := ⟨_, rfl⟩
  rw [hd] at e
  have do_ : ∀ k, k ≠ oReplayExpected → d.obj k = c.obj k := fun k n => by
    rw [← hd]; split
    · rw [obj_setObj cr, if_neg n]
    · rfl
  have dm : d.mem = s.mem := by rw [← hd]; split <;> exact cm
  rw [e]
  refine ⟨?_, ?_, ?_, ?_, rfl, ?_, dm⟩
  · show d.obj _ = _; rw [do_ _ (by decide), co, if_neg (by decide), if_neg (by decide), if_pos rfl]
  · show d.obj _ = _; rw [do_ _ (by decide), co, if_neg (by decide), if_pos rfl]
  · show d.obj _ = _; rw [do_ _ (by decide), co, if_pos rfl]
  · show d.obj _ = _
    rw [do_ _ (by decide), co, if_neg (by decide), if_neg (by decide), if_neg (by decide), bo _ (by decide) (by decide), ao, if_pos rfl]
  · show (s.resil.armed || arm) = _
    rw [← harm, co, if_neg (by decide), if_neg (by decide), if_neg (by decide), bo _ (by decide) (by decide), ao, if_neg (by decide)]

end Sys2Proof.Safety
end

