-- ==== Sys2Proof/Tests/Slice0.lean ====
section
/-! SUPPORT. Small tests: ill-formed commands are refused by `wellFormed`; and for every statement a state and operands
that meet its hypotheses, clause by clause. Expected values are the manual's. -/

namespace Sys2Proof.Tests

open Sys2Proof.Machine Sys2Proof.Safety

set_option Elab.async false

/-! ### Small states -/

/-- The state after reset with these objects changed. -/
def st (l : List (Nat × Nat)) : State := l.foldl (fun s p => s.setObj p.1 p.2) State.reset

/-- Do the keys of a map rise? -/
def rises : NatMap → Bool
  | [] => true
  | p :: m => m.all (fun q => decide (p.1 < q.1)) && rises m

theorem rising_of_rises : ∀ {m : NatMap}, rises m = true → Rising m
  | [], _ => trivial
  | p :: m, h => by
    simp only [rises, Bool.and_eq_true, List.all_eq_true, decide_eq_true_eq] at h
    exact ⟨h.1, rising_of_rises h.2⟩

/-- `Sound`, evaluated. -/
def soundly (s : State) : Bool :=
  rises s.dict.objs && rises s.dict.pend && memWf s.mem.cells && decide (s.dict.log.length ≤ 4096) &&
    decide (s.sched.fallback.length ≤ 64) && decide (s.colls.readies.length ≤ 16384)

theorem sound_of {s : State} (h : soundly s = true) : Sound s := by
  simp only [soundly, Bool.and_eq_true, decide_eq_true_eq] at h
  obtain ⟨⟨⟨⟨⟨a, b⟩, c⟩, d⟩, e⟩, f⟩ := h
  exact ⟨rising_of_rises a, rising_of_rises b, c, d, e, f⟩

/-- `MayWrite`, evaluated. -/
def mayWrite (s : State) (p : Path) (index sub : Nat) : Bool :=
  s.pathOpen p && s.sessionOk p index true && s.tableOk p index sub true

theorem may_of {s : State} {p : Path} {index sub : Nat} (h : mayWrite s p index sub = true) : MayWrite s p index sub := by
  simp only [mayWrite, Bool.and_eq_true] at h
  exact ⟨h.1.1, h.1.2, h.2⟩

/-- These numbers in memory, each with its address and width in bytes. -/
def put (l : List (Nat × Nat × Nat)) (s : State) : State :=
  { s with mem := { s.mem with cells := l.foldl (fun m p => memPutAll m p.1 (leBytes p.2.1 p.2.2)) s.mem.cells } }

/-- Page 0 in near frame 0, the whole of the live allocation of slot 1. -/
def near (s : State) : State :=
  { s with mem := { s.mem with slots := [(1, ⟨0, 0, 2, 0, 1⟩)] } }.setEntry 0 (mkEntry 1 0 false 0 1 true 0)

/-- These tasks admitted. -/
def tasks (l : List Machine.Task) (s : State) : State := { s with sched := { s.sched with tasks := l } }

/-- Access tables that grant page 0 to every class. -/
def openImage : Nat := (List.range 42).foldl (fun a p => a + (1 <<< 52 + 7) <<< (8 * (64 + 256 * p))) 0

/-- Those tables in force. -/
def granted (s : State) : State := { s with sec := { s.sec with image := some openImage } }

/-- A dense FP32 descriptor of one row of `n` elements, of that allocation. -/
def descriptor (base n : Nat) : Nat :=
  base <<< 336 + 0x10001 <<< 384 + 1 <<< 40 + 1 <<< 29 + n <<< 592 + 1 <<< 784 + 1 <<< 88

/-- Two rows of two FP32 elements, 2 and 1, and 3 and -1, and a place for a third. -/
def rows : State :=
  granted (put [(0x1000, 128, descriptor 0x2000 2), (0x1080, 128, descriptor 0x2010 2), (0x1100, 128, descriptor 0x2020 2),
    (0x2000, 4, 0x40000000), (0x2004, 4, 0x3F800000), (0x2010, 4, 0x40400000), (0x2014, 4, 0xBF800000)] (near (st [])))

/-- A vector record on tile 0 over those rows. -/
def vectorRecord (op : Nat) : Nat := 2 + 1 <<< 52 + 0x1000 <<< 512 + 0x1080 <<< 576 + 0x1100 <<< 704 + op <<< 864 + 1 <<< 896

/-! ### Ill-formed commands -/

/-- 88 readings of one value. -/
def temps (x : Int) : List Int := List.replicate 88 x

theorem test_illformed_paths :
    (Instr.commitTick (.mgmt 2 false)).wellFormed = false ∧ (Instr.commitTick (.core 16)).wellFormed = false ∧
    (Instr.descriptorCreate (.core 0) (2 ^ 64)).wellFormed = false ∧ (Instr.commitDiscard (.core 0) (2 ^ 16)).wellFormed = false := by decide +kernel

theorem test_illformed_object_writes :
    (Instr.objectWrite (.bar0 false 0 [])).wellFormed = false ∧
    (Instr.objectWrite (.bar0 false (2 ^ 27) [0])).wellFormed = false ∧
    (Instr.objectWrite (.core 16 0 0 [0])).wellFormed = false ∧ (Instr.objectWrite (.core 0 65536 0 [0])).wellFormed = false ∧
    (Instr.objectWrite (.core 0 0 256 [0])).wellFormed = false ∧ (Instr.objectWrite (.core 0 0 0 [])).wellFormed = false := by decide +kernel

theorem test_illformed_engines :
    (Instr.taskStart .matrix 2048 0).wellFormed = false ∧ (Instr.taskStart .gather 64 0).wellFormed = false ∧
    (Instr.taskStart .collective 4 0).wellFormed = false ∧ (Instr.taskStart .update 20 0).wellFormed = false ∧
    (Instr.taskStart .paging 1 0).wellFormed = false ∧ (Instr.taskStart .matrix 0 65536).wellFormed = false ∧
    (Instr.mul 1048576).wellFormed = false ∧ (Instr.migrationStart (2 ^ 27)).wellFormed = false := by decide +kernel

theorem test_illformed_readings :
    (Instr.tickBoundary ⟨[], 0, 0, 0, false, 0, 0⟩).wellFormed = false ∧
    (Instr.tickBoundary ⟨temps 40, 2 ^ 32, 0, 0, false, 0, 0⟩).wellFormed = false ∧
    (Instr.tickBoundary ⟨temps 40, 0, 2 ^ 32, 0, false, 0, 0⟩).wellFormed = false ∧
    (Instr.tickBoundary ⟨temps 40, 0, 0, 65536, false, 0, 0⟩).wellFormed = false ∧
    (Instr.thermalTrip []).wellFormed = false ∧ (Instr.vcoreOvercurrent (2 ^ 32)).wellFormed = false ∧
    (Instr.scrubPass 20 []).wellFormed = false ∧ (Instr.scrubPass 0 [⟨0, 65536, 0, 0, 0, 0, false, none⟩]).wellFormed = false ∧
    (Instr.scrubPass 0 [⟨0, 0, 32768, 0, 0, 0, false, none⟩]).wellFormed = false ∧
    (Instr.scrubPass 0 [⟨3, 0, 0, 0, 0, 0, false, none⟩]).wellFormed = false ∧
    (Instr.scrubPass 0 [⟨0, 0, 0, 16, 0, 0, false, none⟩]).wellFormed = false ∧
    (Instr.scrubPass 0 [⟨0, 0, 0, 0, 2048, 0, false, none⟩]).wellFormed = false ∧
    (Instr.scrubPass 0 [⟨0, 0, 0, 0, 0, 32, false, none⟩]).wellFormed = false ∧
    (Instr.scrubPass 0 [⟨0, 0, 0, 0, 0, 0, false, some 1048576⟩]).wellFormed = false := by decide +kernel

theorem test_illformed_frames :
    (Instr.felbyRead ⟨2, List.replicate 14 0, true, 0, none⟩).wellFormed = false ∧ (Instr.felbyRead ⟨0, [], true, 0, none⟩).wellFormed = false ∧
    (Instr.doeRequest (.challenge 16 (List.replicate 32 0))).wellFormed = false ∧
    (Instr.doeRequest (.challenge 0 [])).wellFormed = false ∧
    (Instr.doeRequest (.getMeasurements 256 false 0 (List.replicate 32 0))).wellFormed = false ∧
    (Instr.doeRequest (.getMeasurements 1 false 16 (List.replicate 32 0))).wellFormed = false ∧
    (Instr.doeRequest (.getMeasurements 1 false 0 [])).wellFormed = false ∧
    (Instr.doeRequest (.getCertificate 16 0 0)).wellFormed = false ∧
    (Instr.doeRequest (.keyExchange 16 [])).wellFormed = false := by decide +kernel

theorem test_illformed_links :
    (Instr.idleFlitReceive 32 ⟨List.replicate 272 0, 0, 0⟩).wellFormed = false ∧
    (Instr.idleFlitReceive 0 ⟨[], 0, 0⟩).wellFormed = false ∧
    (Instr.attachReceive 0 ⟨List.replicate 272 0, 0, 0⟩ ⟨65536, 0, 0⟩).wellFormed = false ∧
    (Instr.attachReceive 0 ⟨List.replicate 272 0, 0, 0⟩ ⟨0, 2 ^ 64, 0⟩).wellFormed = false ∧
    (Instr.attachReceive 0 ⟨List.replicate 272 0, 0, 0⟩ ⟨0, 0, 32⟩).wellFormed = false ∧
    (Instr.timestampSend 0 65536).wellFormed = false ∧ (Instr.keyUpdateSend 0 (2 ^ 64)).wellFormed = false ∧
    (Instr.messageForward 32 0).wellFormed = false ∧ (Instr.messageForward 0 4).wellFormed = false ∧
    (Instr.ready 33 0).wellFormed = false ∧ (Instr.trainingComplete 0 256).wellFormed = false ∧
    (Instr.managementPortUp 2).wellFormed = false ∧ (Instr.farRequestTimeout 4).wellFormed = false ∧
    (Instr.farLinkLoss 0 256).wellFormed = false ∧ (Instr.hostLinkDown 256).wellFormed = false ∧
    (Instr.hostLinkUp 0 16).wellFormed = false ∧ (Instr.hostLinkUp 1 2).wellFormed = false ∧
    (Instr.resetRelease 9).wellFormed = false := by decide +kernel

theorem test_illformed_host_accesses :
    (Instr.hostBar2Read false 0 0).wellFormed = false ∧ (Instr.hostBar2Read false (2 ^ 64) 1).wellFormed = false ∧
    (Instr.hostBar2Write false 0 []).wellFormed = false ∧ (Instr.hostBar2Write false (2 ^ 64) [0]).wellFormed = false := by decide +kernel

theorem test_illformed_dawn :
    (Instr.dawnPhaseDone ⟨[], [], [], [], 0⟩).wellFormed = false ∧
    (Instr.dawnPhaseDone ⟨[], [], [some ⟨0, 0, 2 ^ 64, false, 0⟩, none, none, none], [], 0⟩).wellFormed = false ∧
    (Instr.farRetrain 0 (some ⟨0, 0, 2 ^ 64, false, 0⟩)).wellFormed = false ∧
    (Instr.dawnPhaseDone ⟨[], [], [none, none, none, none], [2048], 0⟩).wellFormed = false := by decide +kernel

theorem test_wellformed :
    (Instr.tickBoundary ⟨temps 40, 0, 0, 0, false, 0, 0⟩).wellFormed = true ∧
    (Instr.dawnPhaseDone ⟨[], [], [none, none, none, none], [2047], 0⟩).wellFormed = true ∧ (Instr.ready 32 3).wellFormed = true ∧
    (Instr.idleFlitReceive 31 ⟨List.replicate 272 0, 0, 0⟩).wellFormed = true := by decide +kernel
/-! ### Witnesses: the queue and number formats -/

theorem witness_StepRunsFront :
    { State.reset with pending := [.join 0, .join 1] }.pending = .join 0 :: [.join 1] ∧ State.reset.pending = [] := by decide

theorem witness_StepsKeepSound :
    Sound { State.reset with pending := [.join 0] } ∧ step { State.reset with pending := [.join 0] } = .next State.reset :=
  ⟨sound_of (by decide +kernel), rfl⟩

theorem witness_StepsKeepHistory : step { State.reset with pending := [.join 0] } = .next State.reset := rfl

theorem witness_NumberCodesAgree :
    floatFmt? 0x01 = some fmtFp32 ∧ field 0x7F800000 30 23 = 2 ^ 8 - 1 ∧ field 0x7FC00000 30 23 = 2 ^ 8 - 1 ∧
    field 0xBF800000 30 23 = 127 ∧ field 0x00000001 30 23 = 0 ∧ floatFmt? 0x04 = some fmtE4M3 ∧ 0x7F % 128 = 0x7F ∧
    0xBF800000 < 2 ^ fmtWidth fmtFp32 ∧ decodeFloat fmtFp32 0xBF800000 ≠ .nan := by decide +kernel

theorem test_number_codes :
    decodeFloat fmtFp32 0xBF800000 = .fin true (2 ^ 23) (-23) ∧ decodeFloat fmtFp32 0x7F800000 = .inf false ∧
    decodeFloat fmtFp32 1 = .fin false 1 (-149) ∧ decodeFloat fmtE4M3 0x7F = .nan := by decide +kernel

theorem witness_RoundingIsNearest :
    (2 : Int) ≤ 3 ∧ roundMult none 5 3 2 = 10 ∧ (0 : Int) < 1 ∧ 2 = 2 ^ ((1 : Int) - 0).toNat ∧ roundMult none 5 0 1 = 2 ∧
    roundMult none 7 0 1 = 4 ∧ roundMult (some 32768) 5 0 1 = 3 ∧ roundMult (some 32767) 5 0 1 = 2 := by decide +kernel

/-! ### Witnesses: compute -/

theorem witness_ComputeFrame : Computes (.mul 0) ∧ exec (.mul 0) State.reset = .next State.reset := ⟨trivial, rfl⟩

/-- A MUL of the two rows waits to be done. -/
def mulDue : State := tasks [{ record := 7, image := vectorRecord 2 }] rows

/-- Memory after the work of a compute command, where it completes. -/
def workedBytes (c : Instr) (s : State) (a n : Nat) : Option (List Byte) :=
  match workOf c s with
  | none => none
  | some (u, _, m) => match m.run u with
    | .ok _ v => some (memBytes v.mem.cells a n)
    | .error _ _ => none

theorem completes_of {c : Instr} {s : State} {a n : Nat} (h : (workedBytes c s a n).isSome = true) :
    ∃ u t m v, workOf c s = some (u, t, m) ∧ m.run u = .ok () v := by
  unfold workedBytes at h
  split at h
  · cases h
  · split at h
    · exact ⟨_, _, _, _, by assumption, by assumption⟩
    · cases h

/-- 2 × 3 = 6 and 1 × -1 = -1 (R125, Table 5.2). -/
theorem test_mul_bytes : workedBytes (.mul 7) mulDue 0x2020 8 = some [0, 0, 0xC0, 0x40, 0, 0, 0x80, 0xBF] := by decide +kernel

theorem witness_ComputeCompletes : ∃ u t m v, workOf (.mul 7) mulDue = some (u, t, m) ∧ m.run u = .ok () v :=
  completes_of (a := 0x2020) (n := 8) (by rw [test_mul_bytes]; rfl)
/-- The MUL names no second operand. -/
def mulBroken : State := tasks [{ record := 7, image := setField (vectorRecord 2) 639 576 0 }] rows

/-- What a command leaves of a task: how its work ended, and whether its results are undefined. -/
def endOf (c : Instr) (s : State) (r : Nat) : Option (Nat × Bool) :=
  match exec c s with
  | .next t => (t.task? r).map fun x => (x.work, x.undef)
  | _ => none

/-- Undefined results do not stop the device: the task has worked (R6, R125). -/
theorem test_undefined_runs : endOf (.mul 7) mulBroken 7 = some (1, true) := by decide +kernel

/-! ### Witnesses: the scheduler and staged groups -/

/-- Tasks of a collective and of a gradient pair beside the MUL. -/
def mulTask : Machine.Task := { record := 7, image := vectorRecord 2 }
def waitingMul : Machine.Task := { mulTask with waiting := [0] }
def gradTask : Machine.Task := { record := 9, image := 1 + 2 <<< 52 + 2 <<< 846, waiting := [0, 1] }

theorem witness_TickBoundaryCompletes :
    State.reset.rst.inReset = false ∧ ({ State.reset with rst := { inReset := true } } : State).rst.inReset = true := by
  decide +kernel

theorem witness_TickCounterCounts :
    Sound { st [(oTickCounter, 5)] with timing := { jump := some 9 } } ∧
    { st [(oTickCounter, 5)] with timing := { jump := some 9 } }.advanceTick.tick = 10 :=
  ⟨sound_of (by decide +kernel), by decide +kernel⟩

/-- A period switch waits, due now. -/
def periodWaits : State := { State.reset with sched := { periodNext := some 13 } }

/-- A set committed to a group. -/
def committed (c : CommitSet) (s : State) : State := { s with dict := { s.dict with committed := [c] } }

def epochSet : CommitSet := ⟨0x2050, [(oPlacementEpoch, 3), (oEpochSwitchTick, 1)], .atTick 1⟩
def routeSet : CommitSet := ⟨0x4110, [(oRankNext, 2), (oRankCountNext, 8), (oRouteTableNext, 1)], .atTick 1⟩
def batchSet : CommitSet := ⟨0x4210, [(oBatchSelect, 4)], .atStep 1⟩

theorem witness_SwitchesTakeEffect :
    (Sound periodWaits ∧ periodWaits.sched.periodNext = some 13 ∧ periodWaits.obj oPeriodSwitchTick ≤ periodWaits.tick + 1) ∧
    (Sound (committed epochSet State.reset) ∧ (epochSet.vals.map (·.1)).Nodup ∧
      ((committed epochSet State.reset).dict.committed.filter fun d => d.dueFor 0x2050 1) = [epochSet] ∧
      mapFind epochSet.vals oPlacementEpoch = some 3) ∧
    (Sound (committed routeSet State.reset) ∧ (routeSet.vals.map (·.1)).Nodup ∧
      ((committed routeSet State.reset).dict.committed.filter fun d => d.dueFor 0x4110 1) = [routeSet] ∧
      mapFind routeSet.vals oRankNext = some 2 ∧ mapFind routeSet.vals oRankCountNext = some 8 ∧
      mapFind routeSet.vals oRouteTableNext = some 1) ∧
    Sound (committed batchSet (st [(oSchedulerState, 1)])) ∧ (batchSet.vals.map (·.1)).Nodup ∧
    (committed batchSet (st [(oSchedulerState, 1)])).stepDone = true ∧
    (committed batchSet (st [(oSchedulerState, 1)])).sched.halt = none ∧
    ((committed batchSet (st [(oSchedulerState, 1)])).dict.committed.filter fun d =>
      d.group == 0x4210 && d.dueStep ((committed batchSet (st [(oSchedulerState, 1)])).obj oStepCounter + 1)) = [batchSet] ∧
    mapFind batchSet.vals oBatchSelect = some 4 :=
  ⟨⟨sound_of (by decide +kernel), by decide +kernel⟩, ⟨sound_of (by decide +kernel), by decide +kernel⟩,
    ⟨sound_of (by decide +kernel), by decide +kernel⟩, sound_of (by decide +kernel), by decide +kernel⟩

theorem witness_StepTickLimitHalts :
    Sound (st [(oStepTickLimit, 4), (oSchedulerState, 1), (oTickCounter, 4)]) ∧
    (st [(oStepTickLimit, 4), (oSchedulerState, 1), (oTickCounter, 4)]).running = true ∧
    (st [(oStepTickLimit, 4), (oSchedulerState, 1), (oTickCounter, 4)]).obj oStepBaseTick +
      (st [(oStepTickLimit, 4), (oSchedulerState, 1), (oTickCounter, 4)]).obj oStepTickLimit ≤
      (st [(oStepTickLimit, 4), (oSchedulerState, 1), (oTickCounter, 4)]).tick :=
  ⟨sound_of (by decide +kernel), by decide +kernel⟩

theorem witness_TaskStartsOnEngine :
    ((tasks [waitingMul] State.reset).nextOn .vector 0 24 = some waitingMul ∧ pairTask waitingMul.image = false ∧
      (tasks [waitingMul] State.reset).holder? 7 = some waitingMul ∧
      (tasks [waitingMul] State.reset).rst.meshStuck = false) ∧
    (tasks [gradTask] State.reset).holder? 9 = some gradTask ∧ mateOf 0 = 1 ∧
    (tasks [gradTask] State.reset).nextOn .matrix 0 24 = some gradTask ∧
    (tasks [gradTask] State.reset).nextOn .matrix 1 24 = some gradTask ∧ pairTask gradTask.image = true := by decide +kernel

/-- The MUL has worked, and a join is admitted. -/
def mulDone : Machine.Task := { mulTask with running := [(0, 24)], work := 1 }
def joinTask : Machine.Task := { record := 3, image := 0, work := 1 }

theorem witness_TaskCompletionRecordsOutcome :
    (Sound (tasks [mulDone] rows) ∧ (tasks [mulDone] rows).task? 7 = some mulDone ∧ recKind mulDone.image ≠ 0 ∧
      mulDone.started = true ∧ mulDone.work ≠ 0 ∧ mulDone.stuck = false ∧
      (mulDone.record :: mulDone.members.map (·.1)).Nodup ∧ (tasks [mulDone] rows).settled 7 = true ∧
      (tasks [mulDone] rows).partnersDone mulDone = true ∧
      (finishTask mulDone).run (tasks [mulDone] rows) = .ok () (tasks [mulDone] rows)) ∧
    Sound (tasks [joinTask] State.reset) ∧ (tasks [joinTask] State.reset).task? 3 = some joinTask ∧
    recKind joinTask.image = 0 ∧ joinTask.work = 1 ∧ joinTask.members = [] :=
  ⟨⟨sound_of (by decide +kernel), by decide +kernel, by decide +kernel, by decide +kernel, by decide +kernel,
    by decide +kernel, by decide +kernel, by decide +kernel, by decide +kernel, rfl⟩,
    sound_of (by decide +kernel), by decide +kernel⟩

/-- Pending tables whose header is right and that grant nothing. -/
def newTable : State := State.reset.setPend oTableImage 0x41540001

theorem witness_CommitsAreAccepted :
    Sound State.reset ∧ commitOf (.commitTick (.core 0)) = some (.core 0, 0x2010) ∧ MayWrite State.reset (.core 0) 0x2010 0xFF ∧
    State.reset.commitRefused 0x2010 (State.reset.pendingSet 0x2010) = false ∧
    commitOf (.commitRestore (.core 0)) = some (.core 0, 0x5030) ∧ MayWrite State.reset (.core 0) 0x5030 0xFF ∧
    State.reset.commitRefused 0x5030 (State.reset.pendingSet 0x5030) = false ∧
    Sound newTable ∧ commitOf (.commitTable (.core 0)) = some (.core 0, 0x7110) ∧ MayWrite newTable (.core 0) 0x7110 0xFF ∧
    newTable.commitRefused 0x7110 (newTable.pendingSet 0x7110) = false :=
  ⟨sound_of (by decide +kernel), rfl, may_of (by decide +kernel), by decide +kernel, rfl, may_of (by decide +kernel),
    by decide +kernel, sound_of (by decide +kernel), rfl, may_of (by decide +kernel), by decide +kernel⟩

/-- A pending tick period of 2^9 ACLK, below the range of Table 2.9. -/
def shortPeriod : State := State.reset.setPend oTickPeriodLog2 9

theorem witness_CommitsAreRefused :
    Sound shortPeriod ∧ commitOf (.commitTick (.core 0)) = some (.core 0, 0x2010) ∧ MayWrite shortPeriod (.core 0) 0x2010 0xFF ∧
    shortPeriod.commitRefused 0x2010 (shortPeriod.pendingSet 0x2010) = true ∧
    MayWrite State.reset (.core 0) 0x7110 0xFF ∧ State.reset.commitRefused 0x7110 (State.reset.pendingSet 0x7110) = true :=
  ⟨sound_of (by decide +kernel), rfl, may_of (by decide +kernel), by decide +kernel, may_of (by decide +kernel),
    by decide +kernel⟩

theorem witness_DiscardWithdrawsCommit :
    Sound shortPeriod ∧ commitOf (.commitTick (.core 0)) = some (.core 0, 0x2010) ∧ MayWrite shortPeriod (.core 0) 0x2010 0xFF :=
  ⟨sound_of (by decide +kernel), rfl, may_of (by decide +kernel)⟩
/-! ### Witnesses: objects with a behaviour, and resets -/

/-- A state with one request of each kind waiting. -/
def asked : State := { State.reset with mem := { queue := [.creation 1, .request 1] } }

theorem witness_RequestsAreTaken :
    Sound State.reset ∧ Sound asked ∧ MayWrite State.reset (.core 0) 0x2180 1 ∧ MayWrite State.reset (.core 0) 0x2101 1 ∧
    MayWrite State.reset (.core 0) 0x2102 1 ∧ MayWrite State.reset (.core 0) 0x2601 2 ∧ MayWrite asked (.core 0) 0x2180 1 ∧
    MayWrite asked (.core 0) 0x2101 1 ∧ State.reset.mem.queue = [] ∧ AllocReq.creation 1 ∈ asked.mem.queue ∧
    AllocReq.request 1 ∈ asked.mem.queue :=
  ⟨sound_of (by decide +kernel), sound_of (by decide +kernel), may_of (by decide +kernel), may_of (by decide +kernel),
    may_of (by decide +kernel), may_of (by decide +kernel), may_of (by decide +kernel), may_of (by decide +kernel), rfl,
    by decide, by decide⟩

/-- Running versions 5 above floors of 3 and 2; three generations used; a job whose tables are in force. -/
def raisable : State := { st [(oFirmwareVersion, 5)] with sec := { fwFloors := [3], hubFloors := [2], hubVersion := 5 } }
def usedUp : State := { State.reset with sec := { reachTables := [0, 0, 0], fwFloors := [0, 0, 0], hubFloors := [0, 0, 0] } }
def job : State := st [(oTableState, 2)]

theorem witness_ProgrammingAddsOneGeneration :
    (Sound raisable ∧ MayWrite raisable (.core 0) 0x7000 3 ∧ raisable.floorOf 1 < raisable.obj oFirmwareVersion % 65536 ∧
      raisable.sec.fwFloors.length < 3 ∧ raisable.floorOf 2 < raisable.sec.hubVersion ∧ raisable.sec.hubFloors.length < 3) ∧
    (Sound usedUp ∧ MayWrite usedUp (.core 0) 0x7000 3 ∧ 3 ≤ usedUp.sec.fwFloors.length ∧ 3 ≤ usedUp.sec.hubFloors.length ∧
      MayWrite usedUp (.core 0) 0x8010 1 ∧ 3 ≤ usedUp.sec.reachTables.length) ∧
    (MayWrite raisable (.core 0) 0x8010 1 ∧ reachAllowed (field 0x401 11 8) (field 0x401 1 0) = true ∧
      reachAllowed (field 0x501 11 8) (field 0x501 1 0) = false ∧ raisable.sec.reachTables.length < 3 ∧
      raisable.running = false) ∧
    Sound job ∧ MayWrite job (.core 0) 0x7100 2 ∧ job.obj oTableState = 2 ∧ job.running = false ∧
    MayWrite raisable (.core 0) 0x7100 2 ∧ raisable.obj oTableState ≠ 2 :=
  ⟨⟨sound_of (by decide +kernel), may_of (by decide +kernel), by decide +kernel⟩,
    ⟨sound_of (by decide +kernel), may_of (by decide +kernel), by decide +kernel, by decide +kernel, may_of (by decide +kernel),
      by decide +kernel⟩,
    ⟨may_of (by decide +kernel), by decide +kernel⟩, sound_of (by decide +kernel), may_of (by decide +kernel),
    by decide +kernel, by decide +kernel, may_of (by decide +kernel), by decide +kernel⟩

theorem witness_DuskStartsOnce :
    Sound State.reset ∧ MayWrite State.reset (.core 0) 0x5040 1 ∧ State.reset.resil.dusk = 0 ∧
    Sound { State.reset with resil := { dusk := 1 } } ∧
    MayWrite { State.reset with resil := { dusk := 1 } } (.core 0) 0x5040 1 :=
  ⟨sound_of (by decide +kernel), may_of (by decide +kernel), rfl, sound_of (by decide +kernel), may_of (by decide +kernel)⟩

theorem witness_CoreWriteSetsObject :
    Sound State.reset ∧ MayWrite State.reset (.core 0) 0x2010 3 ∧ (objDef? 0x2010 3).map (·.access) = some .staged ∧
    (objDef? 0x2010 3).map (·.size) = some 1 ∧ (objDef? 0x2010 3).map (·.ty) = some .u8 ∧
    MayWrite State.reset (.core 0) 0x2000 1 ∧ (objDef? 0x2000 1).map (·.access) = some .ro ∧
    (objDef? 0x2000 1).map (·.size) = some 8 ∧ (objDef? 0x2000 1).map (·.ty) = some .u64 :=
  ⟨sound_of (by decide +kernel), may_of (by decide +kernel), by decide +kernel, by decide +kernel, by decide +kernel,
    may_of (by decide +kernel), by decide +kernel⟩

/-- In an L1 reset, and in an L0 reset of source 0. -/
def inL1 : State := { State.reset with rst := { inReset := true, level := 1 } }

theorem witness_SourceStartsReset :
    Sound State.reset ∧ Sound inL1 ∧ (sourceOf (.powerOnReset false) State.reset = some 0 ∧
      sourceOf .perst State.reset = some 1 ∧ sourceOf .sysRst State.reset = some 2 ∧
      sourceOf .watchdogExpiry State.reset = some 4 ∧ sourceOf (.thermalTrip [115]) State.reset = some 5) ∧
    State.reset.rst.inReset = false ∧ sourceOf .perst inL1 = some 1 ∧ inL1.rst.inReset = true ∧ inL1.rst.level ≤ inL1.reachOf 1 :=
  ⟨sound_of (by decide +kernel), sound_of (by decide +kernel), by decide +kernel, by decide +kernel⟩

/-- A reset has been asked for by the twin of rank 5, which may. -/
def twinAsks : State :=
  (st [(oTwinRegionBase, 1), (oTwinRank, 5), (oTwinResetEnable, 1)]).setPort 0
    { arrived := [⟨0, 2, 5 <<< 64 + 0x16 <<< 24, []⟩] }

theorem witness_RequestStartsReset :
    Sound State.reset ∧ State.reset.rst.inReset = false ∧
    MayWrite State.reset (.core 0) 0x8000 1 ∧ 0x15A % 256 = 0x5A ∧ Sound twinAsks ∧
    twinAsks.frontMsg 0 2 = some ⟨0, 2, 5 <<< 64 + 0x16 <<< 24, []⟩ ∧ hdrKind (5 <<< 64 + 0x16 <<< 24) = 0x16 ∧
    twinAsks.twinned = true ∧ hdrSource (5 <<< 64 + 0x16 <<< 24) = twinAsks.obj oTwinRank ∧
    twinAsks.obj oTwinResetEnable = 1 ∧ twinAsks.rst.inReset = false :=
  ⟨sound_of (by decide +kernel), by decide +kernel, may_of (by decide +kernel),
    by decide +kernel, sound_of (by decide +kernel), by decide +kernel⟩

theorem witness_ReleaseEndsHolding :
    { State.reset with rst := { thermTrip := true } }.rst.thermTrip = true ∧ (∀ x ∈ [(99 : Int)], x < 100) ∧
    ∃ x ∈ [(100 : Int)], 100 ≤ x := by decide

/-- In reset at this level and phase. -/
def dawn (level phase : Nat) : State := { st [(oDawnPhase, phase)] with rst := { inReset := true, level := level } }

def noImages : DawnEnv := ⟨[], [], [], [], 0⟩

theorem witness_DawnRunsItsPhases :
    (∀ k ∈ [1, 2, 3, 4, 5, 6, 7], ∀ l ∈ [0, 1, 2], (dawn l k).rst.inReset = true ∧ (dawn l k).rst.holding = [] ∧
      (dawn l k).waitsImage = false ∧ (dawn l k).obj oDawnPhase = k) ∧
    (Sound (dawn 0 1) ∧ Sound (dawn 0 5) ∧ Sound (dawn 0 7)) ∧ (∀ x ∈ noImages.failedTiles, 2048 ≤ x) ∧
    (7 ∈ [9, 7] ∧ ∀ x ∈ [9, 7], 7 ≤ x) :=
  ⟨by decide +kernel, ⟨sound_of (by decide +kernel), sound_of (by decide +kernel), sound_of (by decide +kernel)⟩, by decide,
    by decide⟩

/-- Port 3 up; with a message of it on its way to port 4. -/
def port3 : State := st [(oLinkState 3, 4)]
def crossing3 : State := port3.setPort 3 { incoming := [⟨0, [], .forward 4 0⟩] }

theorem witness_BlockResets :
    (Sound (tasks [mulDone] rows) ∧ MayWrite State.reset (.core 0) 0x8001 1 ∧ 5 % 2 ^ 16 < 2048 ∧
      mulDone.runs 0 = true ∧ recKind mulDone.image = 2 ∧ mulDone.onTile 5 = false ∧ 2048 ≤ 4096 % 2 ^ 16) ∧
    (Sound port3 ∧ MayWrite port3 (.core 0) 0x8001 2 ∧ port3.crossing (3 % 256) = false ∧ port3.link 3 = 4 ∧ 32 ≤ 32 % 256) ∧
    Sound crossing3 ∧ MayWrite crossing3 (.core 0) 0x8001 2 ∧ crossing3.crossing (3 % 256) = true :=
  ⟨⟨sound_of (by decide +kernel), may_of (by decide +kernel), by decide +kernel⟩,
    ⟨sound_of (by decide +kernel), may_of (by decide +kernel), by decide +kernel⟩, sound_of (by decide +kernel),
    may_of (by decide +kernel), by decide +kernel⟩

/-- Phase 5 waits for an image of firmware, with the host up and a floor of 3. -/
def waiting : State :=
  { st [(oHostLinkState, 4), (oDawnPhase, 5)] with rst := { inReset := true, needFw := true }, sec := { fwFloors := [3] } }

/-- An image that is cut short is refused. Whether a whole one is accepted rests on the signatures, which are
uninterpreted (log entry 9). -/
theorem witness_PushedImageIsChecked :
    Sound waiting ∧ waiting.windowOpen = true ∧ waiting.sessionOk (.host false) 0x8020 true = true ∧
    waiting.tableOk (.host false) 0x8020 1 true = true ∧ waiting.rst.needFw = true ∧ waiting.rst.needHub = false ∧
    imageFaults (readImage []) 1 (waiting.floorOf 1) ≠ 0 ∧ (st [(oHostLinkState, 4)]).windowOpen = true ∧
    (st [(oHostLinkState, 4)]).waitsImage = false := by
  refine ⟨sound_of (by decide +kernel), by decide +kernel, by decide +kernel, by decide +kernel, rfl, rfl, ?_,
    by decide +kernel, by decide +kernel⟩
  have h : (readImage []).sized = false := by decide +kernel
  simp only [imageFaults, h, Bool.and_false, Bool.false_and, Bool.not_false]
  simp [bitOf]

theorem witness_PowerClocksAndKeys :
    Sound State.reset ∧ 2300 < 2301 ∧ 2300 ≤ 2300 ∧ State.reset.rst.inReset = false ∧
    ({ st [(oTableState, 1)] with sec := { clearing := true } } : State).obj oTableState = 1 ∧
    Sound ({ st [(oTableState, 1)] with sec := { clearing := true } } : State) :=
  ⟨sound_of (by decide +kernel), by decide, by decide, rfl, by decide +kernel, sound_of (by decide +kernel)⟩
/-! ### Witnesses: the allocator, the paging engine and the life of a link -/

theorem witness_PagingFrame : PagingCommand (.alloc 0) ∧ exec (.alloc 0) State.reset = .next State.reset := ⟨trivial, rfl⟩

/-- Page 0 is the whole of the live allocation of slot 1, and near or far as this entry says. -/
def owned (e : Nat) (s : State) : State :=
  { s with mem := { s.mem with slots := [(1, ⟨0, 0, 2, 0, 1⟩)] } }.setEntry 0 e

/-- A far port whose expander has a frame. -/
def farUp (s : State) : State := { s with far := [(0, { state := 4, frames := 1 })] }

/-- A hot page, near or far, read as often as is counted. -/
def hotNear : Nat := mkEntry 1 2 false 65535 1 true 0
def hotFar : Nat := mkEntry 2 2 false 65535 1 true 0

/-- A promote task over the page. -/
def promoteTask : Machine.Task := { record := 4, image := 9 + 1 <<< 936 + 1 <<< 944 }
def promoteDue : State := tasks [promoteTask] (farUp (owned hotFar State.reset))

/-- Migrations asked for after the work of a page command, where it completes. -/
def workedAsks (c : Instr) (s : State) : Option (List MigrationAsk) :=
  match pagingOf c s with
  | none => none
  | some (u, _, m) => match m.run u with
    | .ok _ v => some v.mem.asks
    | .error _ _ => none

theorem pages_of {c : Instr} {s : State} (h : (workedAsks c s).isSome = true) :
    ∃ u t m v, pagingOf c s = some (u, t, m) ∧ m.run u = .ok () v := by
  unfold workedAsks at h
  split at h
  · cases h
  · split at h
    · exact ⟨_, _, _, _, by assumption, by assumption⟩
    · cases h

/-- A promote asks for the far page of the hot policy to come near (R284). -/
theorem test_promote_asks : workedAsks (.promote 4) promoteDue = some [⟨0, false, 2, some 4⟩] := by decide +kernel

theorem witness_PagingCompletes : ∃ u t m v, pagingOf (.promote 4) promoteDue = some (u, t, m) ∧ m.run u = .ok () v :=
  pages_of (by rw [test_promote_asks]; rfl)

/-- A request waits at the allocator. -/
def requests (v : Nat) : State := { State.reset with mem := { queue := [.request v] } }

theorem witness_AllocatorServesHead :
    (∀ v ∈ [2 + 5 <<< 32, 1 + 20 <<< 8, 0, 3], (requests v).mem.queue.head? = some (.request v) ∧
      (requests v).allocWaits (objectAlloc v) = false) ∧
    Sound (requests 0) ∧ Sound State.reset ∧
    ((2 + 5 <<< 32) % 256 = 2 ∧ (requests (2 + 5 <<< 32)).handle? (field (2 + 5 <<< 32) 63 32) = none) ∧
    ((1 + 20 <<< 8) % 256 = 1 ∧ 19 < field (1 + 20 <<< 8) 15 8) ∧ State.reset.mem.queue = [] :=
  ⟨by decide +kernel, sound_of (by decide +kernel), sound_of (by decide +kernel), by decide +kernel, by decide +kernel, rfl⟩

/-- The page is asked for near, and for far; a migration is under way. -/
def askedNear : State :=
  { farUp (owned hotFar State.reset) with mem := { (owned hotFar State.reset).mem with asks := [⟨0, false, 2, none⟩] } }
def askedFar : State :=
  { farUp (owned hotNear State.reset) with mem := { (owned hotNear State.reset).mem with asks := [⟨0, true, 2, none⟩] } }
def moving : State :=
  { (owned (mkEntry 3 2 false 0 1 true 0) State.reset) with
    mem := { (owned (mkEntry 3 2 false 0 1 true 0) State.reset).mem with migrations := [⟨0, hotFar, false, 2, 7, none⟩] } }

theorem witness_MigrationsBeginAndEnd :
    (∀ q ∈ [(askedNear, (⟨0, false, 2, none⟩ : MigrationAsk)), (askedFar, ⟨0, true, 2, none⟩)],
      q.1.mem.asks.find? (·.page == 0) = some q.2 ∧ q.2.policy < 4 ∧ q.1.rst.meshStuck = false ∧ entPolicy (q.1.entry 0) = 2 ∧ q.1.mem.migrations.length < q.1.obj oMigrationsMax ∧
      q.1.migrating 0 = false ∧ entState (q.1.entry 0) = (if q.2.toFar then 1 else 2) ∧
      (State.takeTarget { q.1 with mem := { q.1.mem with asks := q.1.mem.asks.erase q.2 } } 0 q.2.toFar).isSome = true) ∧
    Sound askedNear ∧ Sound askedFar ∧ Sound moving ∧ moving.migrating 0 = true ∧ moving.rst.meshStuck = false :=
 
  ⟨by decide +kernel, sound_of (by decide +kernel), sound_of (by decide +kernel), sound_of (by decide +kernel), by decide +kernel, rfl⟩

/-- A double error in a word of SRAM of tile 0 that the MUL consumes; and ones of a stack. -/
def sramReport : EccReport := ⟨2, 0, 0, 0, 0, 3, true, some 7⟩
def stackReport (double : Bool) : EccReport := ⟨0, 5, 6, 0, 0, 0, double, none⟩
def mulRuns : Machine.Task := { mulTask with running := [(0, 24)] }

theorem witness_PagingUpkeep :
    (∃ f b, (owned hotFar State.reset).findNear ((owned hotFar State.reset).pagePlacement 0) (entSlot hotFar)
      ((owned hotFar State.reset).pageIndex 0) 0 = some (f, b)) ∧
    ((owned hotFar State.reset).entry 0 = hotFar ∧ entState hotFar = 2 ∧ entPolicy hotFar = 2 ∧
      (owned hotFar State.reset).obj oPromoteThreshold ≤ entCount hotFar ∧
      ∀ a ∈ (owned hotFar State.reset).mem.asks, a.page ≠ 0) ∧
    ((st [(oHotWindowTicks, 4), (oTickCounter, 4)]).obj oHotWindowTicks ≠ 0 ∧
      (st [(oHotWindowTicks, 4), (oTickCounter, 4)]).mem.lastHalving +
        (st [(oHotWindowTicks, 4), (oTickCounter, 4)]).obj oHotWindowTicks ≤
        (st [(oHotWindowTicks, 4), (oTickCounter, 4)]).tick) ∧
    Sound State.reset ∧ (stackReport true).double = true ∧ (stackReport true).kind ≠ 2 ∧ (stackReport false).double = false ∧
    Sound (tasks [mulRuns] rows) ∧ (tasks [mulRuns] rows).sramTask sramReport = some mulRuns ∧ sramReport.double = true ∧
    sramReport.kind = 2 :=
  ⟨⟨1 * 65536, false, by decide +kernel⟩, by decide +kernel, by decide +kernel, sound_of (by decide +kernel), rfl,
    by decide, rfl, sound_of (by decide +kernel), by decide +kernel, rfl, rfl⟩

/-- Port 0 in this link state. -/
def linked (n : Nat) : State := st [(oLinkState 0, n)]

/-- The outcome of an exchange: completed, chains, signatures and the serial of the certificates. -/
def evidence (done chains signatures : Bool) (serial : Nat) : AttachEvidence := ⟨done, chains, signatures, 0, serial, 0, []⟩

/-- Port 0 attaching, with RSA ready and the peer of serial number 5. -/
def attaching : State := (st [(oLinkState 0, 3), (oRsaReady, 1)]).setPort 0 { peerSerial := some 5 }

theorem witness_LinkLife :
    (∀ n ∈ [1, 2, 3, 4], (linked n).link 0 = n) ∧ Sound (linked 1) ∧ Sound (linked 2) ∧ Sound (linked 3) ∧
    Sound (linked 4) ∧ (linked 1).quiesced = false ∧ ((linked 2).obj oPortRates >>> (8 * 0)) % 8 &&& 7 % 8 ≠ 0 ∧
    Sound attaching ∧ attaching.link 0 = 3 ∧ attaching.obj oRsaReady ≠ 0 ∧ (attaching.port 0).peerSerial = some 5 ∧
    ((linked 3).port 0).peerSerial = none ∧
    (∀ e ∈ [evidence false true true 5], e.completed = false) ∧
    (∀ e ∈ [evidence true false true 5, evidence true true true 6], e.completed = true ∧
      (e.chainsOk = false ∨ e.certSerial ≠ 5)) ∧
    (∀ e ∈ [evidence true true true 5], e.completed = true ∧ e.chainsOk = true ∧ e.certSerial = 5 ∧
      e.signaturesOk = true ∧ attaching.obj oPeerPolicy ≠ 1) :=
  ⟨by decide +kernel, sound_of (by decide +kernel), sound_of (by decide +kernel), sound_of (by decide +kernel),
    sound_of (by decide +kernel), by decide +kernel, by decide +kernel, sound_of (by decide +kernel), by decide +kernel⟩
/-! ### Witnesses: flits -/

/-- The key of an UP link. -/
def linkKey : LinkKey := ⟨List.replicate 32 7, [1, 2, 3, 4], 0, 0, none⟩

/-- Port 0 attaching, or UP under its key, with this beside. -/
def attachPort (q : Port) : State := (linked 3).setPort 0 q
def upPort : State := (linked 4).setPort 0 { rxKey := some linkKey }

/-- A flit of these bits, the first byte lowest, in slot 0. -/
def flit (bits : Nat) : RxFlit := ⟨leBytes 272 bits, 0, 0⟩

/-! Flits as they go over the wire: CRC or tag, and parity, with no symbol wrong (R293–R295). -/

/-- An idle flit. -/
def idleBits : Nat :=
  0x630c3fb9302590f0307f3985f882e0780000000000000000c54d282c00000000000000000000000000000000000000000000000000000000000000000000000000000000000000000000000000000000000000000000000000000000000000000000000000000000000000000000000000000000000000000000000000000000000000000000000000000000000000000000000000000000000000000000000000000000000000000000000000000000000000000000000000000000000000000000000000000000000000000000000000000000000000000000000000000000000000000000000000000000000000000000000000000000000000000000000000000000000000000000000000000001

/-- A data flit of VC3. -/
def dataBits : Nat :=
  0x58143c52aaff460707339a1b0fdcb92100000000000000003af0959b00000000000000000000000000000000000000000000000000000000000000000000000000000000000000000000000000000000000000000000000000000000000000000000000000000000000000000000000000000000000000000000000000000000000000000000000000000000000000000000000000000000000000000000000000000000000000000000000000000000000000000000000000000000000000000000000000000000000000000000000000000000000000000000000000000000000000000000000000000000000000000000000000000000000000000000000000000000000000000000000000000c00

/-- A nak that acknowledges flit 1. -/
def nakBits : Nat :=
  0x81b45d3ee523752d2be5bb6c7627e7d40000000000000000e00ebdf200000000000000000000000000000000000000000000000000000000000000000000000000000000000000000000000000000000000000000000000000000000000000000000000000000000000000000000000000000000000000000000000000000000000000000000000000000000000000000000000000000000000000000000000000000000000000000000000000000000000000000000000000000000000000000000000000000000000000000000000000000000000000000000000000000000000000000000000000000000000000000000000000000000000000000000000000000000000000000000000000001002

/-- A timestamp flit. -/
def stampBits : Nat :=
  0xd40710b6fc6e1f84f8a1ae46410fea7200000000000000008a9a505900000000000000000000000000000000000000000000000000000000000000000000000000000000000000000000000000000000000000000000000000000000000000000000000000000000000000000000000000000000000000000000000000000000000000000000000000000000000000000000000000000000000000000000000000000000000000000000000000000000000000000000000000000000000000000000000000000000000000000000000000000000000000000000000000000000000000000000000000000000000000000000000000000000000000000000000000000000000000000000000100000003

/-- An abort of VC1. -/
def abortBits : Nat :=
  0x181c6c5d9eb6b0c7058f3845963140760000000000000000fdf24d4e00000000000000000000000000000000000000000000000000000000000000000000000000000000000000000000000000000000000000000000000000000000000000000000000000000000000000000000000000000000000000000000000000000000000000000000000000000000000000000000000000000000000000000000000000000000000000000000000000000000000000000000000000000000000000000000000000000000000000000000000000000000000000000000000000000000000000000000000000000000000000000000000000000000000000000000000000000000000000000000010200000003

/-- An attach flit. -/
def attachBits : Nat :=
  0x4618b76576293dc6bfdcaf865dc1cd3f00000000000000008a75b04300000000000000000000000000000000000000000000000000000000000000000000000000000000000000000000000000000000000000000000000000000000000000000000000000000000000000000000000000000000000000000000000000000000000000000000000000000000000000000000000000000000000000000000000000000000000000000000000000000000000000000000000000000000000000000000000000000000000000000000000000000000000000000000000000000000000000000000000000000000000000000000000000000000000000000000000000000000000000000000000300000003

/-- The announcement of key 1, under `linkKey`. -/
def keyBits : Nat :=
  0xf351cd3c214cdcd1ae8e5b2e6032fad83d0b96559d2473288c37033024aab8691b14f41fe9bf4e08ce906b75d8fa43bd2de49c38fd8c8a61766f279a671e2f63cdee8fc15f3aec891398be2782809e2e742b1129614c63f692d201f245b937ad8f3ef4a81c59b9105c0f7ea4cf2491045aa29fc893b6de47e17058c3a25263418937b78b50dbad8601e6a5761c2de63fdea6765955d07352eb0efa1ba3ba1188acf012360a2a6779601f1d1086f1d42820bcec865162d40eb37ced7aa7d803bf461abafd003da7d33caf577fe134d4ffa7928103de575a1fd1fce7a2ce06d37bd1078f510ac07b047bbf8566ed1aabb2358a85143bdced79b1af191ebb03b502efeaa3918eb507d3d09af6ac00000003

theorem corrected_idle : correctFlit (leBytes 272 idleBits) = some (leBytes 256 idleBits, 0) := by decide +kernel

theorem corrected_data : correctFlit (leBytes 272 dataBits) = some (leBytes 256 dataBits, 0) := by decide +kernel

theorem corrected_nak : correctFlit (leBytes 272 nakBits) = some (leBytes 256 nakBits, 0) := by decide +kernel

theorem corrected_stamp : correctFlit (leBytes 272 stampBits) = some (leBytes 256 stampBits, 0) := by decide +kernel

theorem corrected_abort : correctFlit (leBytes 272 abortBits) = some (leBytes 256 abortBits, 0) := by decide +kernel

theorem corrected_attach : correctFlit (leBytes 272 attachBits) = some (leBytes 256 attachBits, 0) := by decide +kernel

theorem corrected_key : correctFlit (leBytes 272 keyBits) = some (leBytes 256 keyBits, 0) := by decide +kernel

/-- Five symbols of one codeword are wrong. -/
theorem test_five_wrong : correctFlit [1, 0, 2, 0, 3, 0, 4, 0, 5, 0] = none := by decide +kernel

/-- Four symbols of one codeword are corrected (R293). -/
theorem test_four_corrected : (correctFlit [1, 0, 2, 0, 3, 0, 4]).map (·.2) = some 4 := by decide +kernel
theorem test_idle_flit : (State.checkFlit (attachPort {}) 0 (flit idleBits)).1 = .idle := by
  unfold State.checkFlit
  rw [show correctFlit (flit idleBits).bytes = _ from corrected_idle]
  decide +kernel

theorem test_data_flit : (State.checkFlit (attachPort {}) 0 (flit dataBits)).1 = .data 3 (padTo 240 0 []) := by
  unfold State.checkFlit
  rw [show correctFlit (flit dataBits).bytes = _ from corrected_data]
  decide +kernel

/-- The replay buffer holds flit 0, resent this often. -/
def resending (n : Nat) : State := attachPort { replay := [(0, ⟨0, 0, [], 128, true⟩)], resends := n }

theorem test_nak_flit : ∀ n ∈ [7, 8], (State.checkFlit (resending n) 0 (flit nakBits)).1 = .nak ∧
    (((resending n).checkFlit 0 (flit nakBits)).2.port 0).replay ≠ [] ∧
    (((resending n).checkFlit 0 (flit nakBits)).2.port 0).resends = n := by
  unfold State.checkFlit
  rw [show correctFlit (flit nakBits).bytes = _ from corrected_nak]
  decide +kernel

theorem test_stamp_flit : (State.checkFlit (attachPort {}) 0 (flit stampBits)).1 = .control (padTo 240 0 [1]) := by
  unfold State.checkFlit
  rw [show correctFlit (flit stampBits).bytes = _ from corrected_stamp]
  decide +kernel

theorem test_attach_flit : (State.checkFlit (attachPort {}) 0 (flit attachBits)).1 = .control (padTo 240 0 [3]) := by
  unfold State.checkFlit
  rw [show correctFlit (flit attachBits).bytes = _ from corrected_attach]
  decide +kernel

/-- A message part way in on VC1. -/
def partWay : State := attachPort { incoming := [⟨1, [], .open⟩] }

theorem test_abort_flit : (partWay.checkFlit 0 (flit abortBits)).1 = .control (padTo 240 0 [2, 1]) ∧
    ((partWay.checkFlit 0 (flit abortBits)).2.port 0).incoming.find?
      (·.vc == ((padTo 240 0 ([2, 1] : List Byte)).getD 1 0).toNat % 4) = some ⟨1, [], .open⟩ := by
  unfold State.checkFlit
  rw [show correctFlit (flit abortBits).bytes = _ from corrected_abort]
  decide +kernel

theorem test_sealed_flit : (upPort.checkFlit 0 (flit keyBits)).1 = .control (padTo 240 0 [4, 1]) ∧
    ((upPort.checkFlit 0 (flit keyBits)).2.port 0).rxKey = some linkKey := by
  unfold State.checkFlit
  rw [show correctFlit (flit keyBits).bytes = _ from corrected_key]
  decide +kernel

theorem witness_FlitsAreTakenIn :
    (Sound (attachPort {}) ∧ (attachPort {}).receiving 0 = true ∧ (attachPort {}).link 0 = 3 ∧
      ((attachPort {}).port 0).nakSent = false) ∧
    correctFlit [1, 0, 2, 0, 3, 0, 4, 0, 5, 0] = none ∧
    (State.checkFlit (attachPort {}) 0 (flit idleBits)).1 = .idle ∧
    (State.checkFlit (attachPort {}) 0 (flit dataBits)).1 = .data 3 (padTo 240 0 []) ∧
    (Sound (resending 7) ∧ Sound (resending 8) ∧ (State.checkFlit (resending 8) 0 (flit nakBits)).1 = .nak) ∧
    (State.checkFlit (attachPort {}) 0 (flit stampBits)).1 = .control (padTo 240 0 [1]) ∧
    (State.checkFlit (attachPort {}) 0 (flit attachBits)).1 = .control (padTo 240 0 [3]) ∧
    (Sound partWay ∧ (partWay.checkFlit 0 (flit abortBits)).1 = .control (padTo 240 0 [2, 1])) ∧
    Sound upPort ∧ upPort.receiving 0 = true ∧ upPort.link 0 = 4 ∧
    (upPort.checkFlit 0 (flit keyBits)).1 = .control (padTo 240 0 [4, 1]) :=
  ⟨⟨sound_of (by decide +kernel), by decide +kernel⟩, test_five_wrong, test_idle_flit, test_data_flit,
    ⟨sound_of (by decide +kernel), sound_of (by decide +kernel), (test_nak_flit 8 (by decide)).1⟩, test_stamp_flit,
    test_attach_flit, ⟨sound_of (by decide +kernel), test_abort_flit.1⟩, sound_of (by decide +kernel), by decide +kernel,
    by decide +kernel, test_sealed_flit.1⟩
/-! ### Witnesses: sending, forwarding, the host, far and management ports -/

/-- Port 0 up, with a key that has served since slot 0. -/
def sendKey : LinkKey := ⟨List.replicate 32 7, [1, 2, 3, 4], 0, 0, none⟩
def upPort0 : State := (linked 4).setPort 0 { txKey := some sendKey }

theorem witness_LinksSend :
    ((linked 4).link 0 = 4 ∧ 512 * 16 < 8193 ∧ ((linked 4).port 0).stampedTick ≠ some (linked 4).tick) ∧
    (upPort0.link 0 = 4 ∧ (upPort0.port 0).txKey = some sendKey ∧ sendKey.next = none ∧
      (upPort0.port 0).txSlot ≤ 2 ^ 36 ∧
      sendKey.base + 2 ^ upPort0.obj oLinkRekeyFlitsLog2 ≤ 2 ^ 36) := by decide +kernel

/-- A message for rank 3, with hops left or none, part way in on port 0, VC1; and one for this rank, 0. -/
def transit (header : Nat) : Incoming := ⟨1, leBytes 16 header, .open⟩
def toThree (hops : Nat) : Nat := 3 <<< 80 + hops <<< 20 + 2 <<< 24

/-- The route entry of rank 3, over port 4, valid or not; and port 4's state. -/
def routes (valid up : Nat) (i : Incoming) : State :=
  (st [(oRouteTableActive, (4 <<< 12 + valid <<< 1) <<< 96), (oLinkState 4, up)]).setPort 0 { incoming := [i] }

theorem witness_MessagesAreForwarded :
    (Sound (routes 1 4 (transit (toThree 0))) ∧
      ((routes 1 4 (transit (toThree 0))).port 0).incoming.find? (·.vc == 1) = some (transit (toThree 0)) ∧
      hdrDest (ofLe ((transit (toThree 0)).bytes.take 16)) ≠ (routes 1 4 (transit (toThree 0))).obj oLogicalRank ∧
      hdrHops (ofLe ((transit (toThree 0)).bytes.take 16)) = 0) ∧
    (Sound (routes 0 4 (transit (toThree 2))) ∧ hdrHops (ofLe ((transit (toThree 2)).bytes.take 16)) ≠ 0 ∧
      flag ((routes 0 4 (transit (toThree 2))).routeEntry (hdrDest (ofLe ((transit (toThree 2)).bytes.take 16)))) 1 = false) ∧
    (Sound (routes 1 1 (transit (toThree 2))) ∧
      flag ((routes 1 1 (transit (toThree 2))).routeEntry (hdrDest (ofLe ((transit (toThree 2)).bytes.take 16)))) 1 = true ∧
      (routes 1 1 (transit (toThree 2))).routeChoices
        ((routes 1 1 (transit (toThree 2))).routeEntry (hdrDest (ofLe ((transit (toThree 2)).bytes.take 16)))) 1 = []) ∧
    (Sound (routes 1 4 (transit (toThree 2))) ∧
      (routes 1 4 (transit (toThree 2))).bestChoice ((routes 1 4 (transit (toThree 2))).routeChoices
        ((routes 1 4 (transit (toThree 2))).routeEntry (hdrDest (ofLe ((transit (toThree 2)).bytes.take 16)))) 1) = some (4, 1)) ∧
    Sound (routes 1 4 (transit 0)) ∧
    hdrDest (ofLe ((transit 0).bytes.take 16)) = (routes 1 4 (transit 0)).obj oLogicalRank :=
  ⟨⟨sound_of (by decide +kernel), by decide +kernel⟩, ⟨sound_of (by decide +kernel), by decide +kernel⟩,
    ⟨sound_of (by decide +kernel), by decide +kernel⟩, ⟨sound_of (by decide +kernel), by decide +kernel⟩,
    sound_of (by decide +kernel), by decide +kernel⟩

/-- The host link up. -/
def hostUp : State := st [(oHostLinkState, 4)]

theorem witness_HostLinkChanges :
    Sound State.reset ∧ State.reset.obj oHostLinkState ≠ 4 ∧ State.reset.hostHeld = false ∧ Sound hostUp ∧
    hostUp.obj oHostLinkState = 4 ∧ hostUp.hostHeld = false :=
  ⟨sound_of (by decide +kernel), by decide +kernel, by decide +kernel, sound_of (by decide +kernel), by decide +kernel⟩

/-- What firmware finds at an expander. -/
def expander : FarFound := ⟨2 ^ 30, 3, 9, true, 0⟩

theorem witness_FarLinkChanges :
    Sound (farUp State.reset) ∧ ((farUp State.reset).farPort 0).state = 4 ∧ Sound State.reset ∧
    (State.reset.farPort 3).state ≠ 4 ∧ State.reset.rst.inReset = false ∧ State.reset.farRefused 3 expander = false :=
  ⟨sound_of (by decide +kernel), by decide +kernel, sound_of (by decide +kernel), by decide +kernel⟩

theorem witness_ManagementPortChanges :
    Sound (st [(oMgmtPortsUp, 3)]) ∧ flag ((st [(oMgmtPortsUp, 3)]).obj oMgmtPortsUp) 0 = true ∧
    flag ((st [(oMgmtPortsUp, 3)]).obj oMgmtPortsUp) 1 = true :=
  ⟨sound_of (by decide +kernel), by decide +kernel⟩

/-- The host over the rows of memory; and where it must use its stream. -/
def hostRows : State := rows.setObj oHostLinkState 4
def hostKeyed : State := hostUp.setObj oHostIdeRequired 1

theorem witness_HostMemoryAccess :
    (Sound hostRows ∧ hostRows.hostMemory = true ∧ hostRows.bar2Bytes < hostRows.bar2Bytes + 1) ∧
    (Sound hostKeyed ∧ hostKeyed.hostMemory = true ∧ 8 ≤ hostKeyed.bar2Bytes ∧ hostKeyed.needsStream false = true) ∧
    hostRows.needsStream false = false ∧ entState (hostRows.entry 0) = 1 ∧
    0x2000 + 8 ≤ hostRows.bar2Bytes ∧ hostRows.obj oBar2WindowBase + 0x2000 + 8 ≤ hostWindowBase ∧
    (hostRows.obj oBar2WindowBase + 0x2000) / pageBytes = 0 ∧
    (hostRows.obj oBar2WindowBase + 0x2000) % pageBytes + 8 ≤ pageBytes ∧
    hostRows.granted 4 1 (hostRows.obj oBar2WindowBase + 0x2000) = true ∧
    hostRows.granted 4 2 (hostRows.obj oBar2WindowBase + 0x2000) = true ∧
    hostRows.poisoned? (entPhys (hostRows.entry 0) + 0x2000) 8 = none :=
  ⟨⟨sound_of (by decide +kernel), by decide +kernel, by omega⟩, ⟨sound_of (by decide +kernel), by decide +kernel⟩,
    by decide +kernel⟩

/-- A gather task whose source lies in the host window. -/
def hostTask : Machine.Task := { record := 2, image := 3 + 1 <<< 52 + 0x1000 <<< 512 }
def hostReader : State :=
  tasks [hostTask] (granted (put [(0x1000, 128, setField (descriptor hostWindowBase 2) 415 384 0)] (near hostUp)))

theorem witness_HostErrors :
    Sound hostUp ∧ hostUp.obj oHostLinkState = 4 ∧ Sound hostReader ∧ hostReader.working? 2 = some hostTask ∧
    hostReader.readsHost hostTask = true :=
  ⟨sound_of (by decide +kernel), by decide +kernel, sound_of (by decide +kernel), by decide +kernel⟩

/-- The transfer window set up for bytes of an object. -/
def windowed (index sub n : Nat) : State :=
  { hostUp with dict := { hostUp.dict with window := { index := index, sub := sub, length := n } } }

/-- The status of a read through the window, where it runs to its end. -/
def windowReads (s : State) : Option (Nat × List Byte) :=
  match (readBytesOf (.host false) s.dict.window.index s.dict.window.sub s.dict.window.offset s.dict.window.length).run
      (s.tookHost 8) with
  | .ok r _ => some r
  | .error _ _ => none

/-- The status of a segment through the window. -/
def windowSends (s : State) (last : Bool) : Option Nat :=
  match (Machine.segment (.host false) 0 s.dict.window.index s.dict.window.sub s.dict.window.offset
      (s.dict.window.bytes s.dict.window.length) last).run (s.tookHost 8) with
  | .ok r _ => some r
  | .error _ _ => none

/-- The default tick period is 2^12 ACLK (Table 2.1). -/
theorem test_window_reads : windowReads (windowed 0x2010 3 1) = some (0, [12]) := by decide +kernel

theorem witness_WindowTransfers :
    (Sound State.reset ∧ State.reset.windowOpen = false) ∧
    (∀ n ∈ [0, 65537], (windowed 0x2010 3 n).windowOpen = true) ∧ Sound (windowed 0x2010 3 0) ∧
    Sound (windowed 0x2010 3 1) ∧ (windowed 0x2010 3 1).windowOpen = true ∧ 0 < (windowed 0x2010 3 1).dict.window.length ∧
    (windowed 0x2010 3 1).dict.window.length ≤ 65536 ∧ windowReads (windowed 0x2010 3 1) = some (0, [12]) ∧
    windowSends (windowed 0x2010 3 1) true = some 0 ∧ windowSends (windowed 0x2010 3 1) false = some 0 :=
  ⟨⟨sound_of (by decide +kernel), by decide +kernel⟩, by decide +kernel, sound_of (by decide +kernel),
    sound_of (by decide +kernel), by decide +kernel, by decide +kernel, by decide +kernel, test_window_reads,
    by decide +kernel, by decide +kernel⟩
/-! ### Witnesses: Felby, events and SPDM -/

/-- A frame for M0 from the station of address 1: version, type, flags, sequence number, object and data. -/
def toM0 (version type flags seq index sub : Nat) (data : List Byte) (ok : Bool) : FelbyFrame :=
  ⟨0, leBytes 6 Config.mac0 ++ (leBytes 6 1 ++ [0x88, 0xB5] ++ leBytes 1 version ++ leBytes 1 type ++ [0] ++ leBytes 1 flags ++
    leBytes 2 seq ++ leBytes 2 data.length ++ leBytes 2 index ++ leBytes 1 sub ++ [0] ++ leBytes 4 0 ++ data), ok, 0, none⟩

theorem mac0_lt : Config.mac0 < 256 ^ 6 :=
  Nat.lt_of_le_of_lt (Nat.sub_le _ _) (by have := Config.rawMac0.isLt; omega)

theorem accepts_of {rest : List Byte} (h : 24 ≤ rest.length) :
    accepts ⟨0, leBytes 6 Config.mac0 ++ rest, true, 0, none⟩ = true := by
  have l : (leBytes 6 Config.mac0).length = 6 := length_leBytes 6 _
  have d : (readFelby (leBytes 6 Config.mac0 ++ rest)).dest = macOf 0 := by
    show ofLe ((leBytes 6 Config.mac0 ++ rest).take 6) = Config.mac0
    rw [List.take_append_of_le_length (Nat.le_of_eq l.symm), List.take_of_length_le (Nat.le_of_eq l), ofLe_leBytes,
      Nat.mod_eq_of_lt mac0_lt]
  have n : 30 ≤ (leBytes 6 Config.mac0 ++ rest).length := by rw [List.length_append, l]; omega
  unfold accepts
  dsimp only
  rw [d, beq_self_eq_true, Bool.true_or, Bool.and_true, Bool.true_and, decide_eq_true n]

theorem accepts_toM0 (version type flags seq index sub : Nat) (data : List Byte) :
    accepts (toM0 version type flags seq index sub data true) = true :=
  accepts_of (by simp only [List.length_append, length_leBytes, List.length_cons, List.length_nil]; omega)

theorem discards_toM0 : accepts (toM0 1 1 0 0 0x1000 1 [] false) = false := rfl

/-- M0 is up; and it answered this request just now. -/
def m0Up : State := st [(oMgmtPortsUp, 1)]
def answered : State := { m0Up with dict := { m0Up.dict with kept := [⟨0, 1, 7, 0, .frame 0 []⟩] } }

/-- The status that an action answers a frame with. -/
def answer (act : Felby → Path → M Answer) (f : FelbyFrame) : Option Nat :=
  match (act (readFelby f.bytes) (.mgmt f.port false)).run m0Up with
  | .ok (.frame st _ _) u => if u.mgmtUp f.port then some st else none
  | _ => none

theorem answers_of {act : Felby → Path → M Answer} {f : FelbyFrame} {st : Nat} (h : answer act f = some st) :
    ∃ bs n u, (act (readFelby f.bytes) (.mgmt f.port false)).run m0Up = .ok (.frame st bs n) u ∧ u.mgmtUp f.port = true := by
  unfold answer at h
  split at h
  · split at h
    · cases h; exact ⟨_, _, _, by assumption, by assumption⟩
    · cases h
  · cases h

/-- An object is read, written and described, and a type that no frame has is malformed (status 0x0A, R388). -/
theorem test_felby_answers :
    answer felbyReadWork (toM0 1 1 0 0 0x2010 3 [] true) = some 0 ∧
    answer (felbyWriteWork (toM0 1 2 0 0 0x2010 3 [13] true)) (toM0 1 2 0 0 0x2010 3 [13] true) = some 0 ∧
    answer felbyDescribeWork (toM0 1 3 0 0 0x2010 3 [] true) = some 0 ∧
    answer (fun _ _ => return .frame 0x0A [] 0) (toM0 1 4 0 0 0 0 [] true) = some 0x0A := by decide +kernel

theorem witness_FelbyAnswers :
    (Sound m0Up ∧ m0Up.rst.inReset = false ∧ m0Up.mgmtUp 0 = true ∧
      isFelby (toM0 1 1 0 0 0x2010 3 [] false).bytes = true ∧ accepts (toM0 1 1 0 0 0x1000 1 [] false) = false) ∧
    (Sound answered ∧ answered.rst.inReset = false ∧ answered.mgmtUp 0 = true ∧
      (∀ t, accepts (toM0 1 t 0 7 0x2010 3 [] true) = true) ∧
      ∀ t ∈ [1, 2, 3], (readFelby (toM0 1 t 0 7 0x2010 3 [] true).bytes).type = t ∧
        answered.keptFor (toM0 1 t 0 7 0x2010 3 [] true) = some ⟨0, 1, 7, 0, .frame 0 []⟩) ∧
    ((∀ v t, accepts (toM0 v t 0 7 0x2010 3 [] true) = true) ∧ ∀ t ∈ [1, 2, 3, 4, 5], ∀ v ∈ [1, 3],
      isFelby (toM0 v t 0 7 0x2010 3 [] true).bytes = true ∧ m0Up.keptFor (toM0 v t 0 7 0x2010 3 [] true) = none ∧
      (readFelby (toM0 v t 0 7 0x2010 3 [] true).bytes).version = v ∧
      (readFelby (toM0 v t 0 7 0x2010 3 [] true).bytes).type = t ∧
      (readFelby (toM0 v t 0 7 0x2010 3 [] true).bytes).flags < 4 ∧
      (readFelby (toM0 v t 0 7 0x2010 3 [] true).bytes).pad = 0) ∧
    (∃ bs n u, (felbyReadWork (readFelby (toM0 1 1 0 0 0x2010 3 [] true).bytes) (.mgmt 0 false)).run m0Up =
      .ok (.frame 0 bs n) u ∧ u.mgmtUp 0 = true) :=
  ⟨⟨sound_of (by decide +kernel), by decide +kernel, by decide +kernel, by decide +kernel, discards_toM0⟩,
    ⟨sound_of (by decide +kernel), by decide +kernel, by decide +kernel, fun _ => accepts_toM0 _ _ _ _ _ _ _,
      by decide +kernel⟩,
    ⟨fun _ _ => accepts_toM0 _ _ _ _ _ _ _, by decide +kernel⟩, answers_of test_felby_answers.1⟩

/-- Notification is on, to the station of address 4, from the first of two records; a frame is outstanding. -/
def notified : State :=
  { st [(oMgmtPortsUp, 1), (oEventDestination, 4), (oEventVersion, 2), (oEventNotifyMask, 1)] with
    dict := { (st [(oMgmtPortsUp, 1), (oEventDestination, 4), (oEventVersion, 2), (oEventNotifyMask, 1)]).dict with
      log := [⟨0, 0, 0x0101, 0, 0, 1, 0, 0, 0, 0⟩] } }
def outstanding (port resends : Nat) : State :=
  { notified with dict := { notified.dict with outstanding := some ⟨9, 1, [], 0, port, resends⟩ } }

/-- An acknowledgement by the station of address 4. -/
def ackFrame : FelbyFrame :=
  ⟨0, leBytes 6 Config.mac0 ++ (leBytes 6 4 ++ [0x88, 0xB5, 2, 0x84, 0, 0, 9, 0] ++ List.replicate 10 0), true, 0, none⟩

theorem accepts_ackFrame : accepts ackFrame = true := accepts_of (by decide)

theorem witness_EventsAreNotified :
    (Sound notified ∧ notified.notifies = true ∧ notified.dict.outstanding = none ∧
      notified.gatherEvents 16 (notified.dict.log.filter fun e => decide (notified.obj oEventAckedSeq ≤ e.seq))
        ([], notified.obj oEventAckedSeq) = ([⟨0, 0, 0x0101, 0, 0, 1, 0, 0, 0, 0⟩], 1)) ∧
    (Sound (outstanding 0 0) ∧ Sound (outstanding 0 255) ∧ Sound (outstanding 1 255) ∧
      (∀ s ∈ [outstanding 0 0, outstanding 0 255, outstanding 1 255], s.notifies = true ∧ 0 + s.obj oEventRetryMs ≤ 1000) ∧
      0 < (outstanding 0 0).obj oEventRetries ∧ (outstanding 0 255).obj oEventRetries ≤ 255) ∧
    (outstanding 0 0).rst.inReset = false ∧ (outstanding 0 0).obj oEventDestination ≠ 0 ∧ (outstanding 0 0).mgmtUp ackFrame.port = true ∧ isFelby ackFrame.bytes = true ∧
    accepts ackFrame = true ∧ (readFelby ackFrame.bytes).type = 0x84 ∧
    (readFelby ackFrame.bytes).source = (outstanding 0 0).obj oEventDestination ∧ (readFelby ackFrame.bytes).seq = 9 :=
  ⟨⟨sound_of (by decide +kernel), by decide +kernel⟩,
    ⟨sound_of (by decide +kernel), sound_of (by decide +kernel), sound_of (by decide +kernel), by decide +kernel⟩,
    by decide +kernel, by decide +kernel, by decide +kernel, by decide +kernel, accepts_ackFrame, by decide +kernel,
    by decide +kernel, by decide +kernel⟩

/-- A port is UP and losing links is notified; and every notified record is in the frame to be acknowledged. -/
def alertable : State := st [(oLinkState 3, 4), (oEventNotifyMask, 32)]

theorem witness_AlertFollowsEvents :
    (Sound alertable ∧ alertable.rst.inReset = false ∧ alertable.link 3 = 4 ∧
      flag (alertable.obj oEventNotifyMask) 5 = true ∧ alertable.obj oEventAckedSeq ≤ alertable.obj oEventSeqNext) ∧
    ((outstanding 0 0).dict.outstanding = some ⟨9, 1, [], 0, 0, 0⟩ ∧
      ∀ e ∈ (outstanding 0 0).dict.log, (outstanding 0 0).classOn e = true → e.seq < 1) ∧
    sourceOf .perst (outstanding 0 0) = some 1 :=
  ⟨⟨sound_of (by decide +kernel), by decide +kernel⟩, by decide +kernel, by decide +kernel⟩

theorem witness_DoeAnswers :
    Sound hostUp ∧ hostUp.rst.inReset = false ∧ hostUp.obj oHostLinkState = 4 ∧ hostUp.obj oRsaReady = 0 ∧
    (hostUp.sessionsOf 0).length < 4 ∧ hostUp.hasSession 0 1 = false :=
  ⟨sound_of (by decide +kernel), by decide +kernel⟩
/-! ### Witnesses: collectives -/

/-- A collective task of tag 3 in record 6, over the first two rows. -/
def collTask (op axis : Nat) : Machine.Task :=
  { record := 6, image := 5 + 1 <<< 52 + 0x1000 <<< 512 + 0x1080 <<< 576 + 3 <<< 884 + op <<< 876 + axis <<< 873 }

/-- It and its progress in these rows of memory, on axis 0 of `size` positions of kind `kind` (1 ring, 2 mesh), of which
this is position `me`. -/
def collective (size me kind : Nat) (t : Machine.Task) (q : Coll) : State :=
  { tasks [t] ((rows.setObj oAxis0 ((size - 1) <<< 48 + me <<< 32 + 1)).setObj oAxisTypes kind) with
    colls := { tasks := [q] } }

def released : Coll := { record := 6, released := true }

/-- An ALL_REDUCE of one position; the same where the tables grant nothing; and one on an axis that is off. -/
def aloneReduce : State := collective 1 0 2 (collTask 1 0) released
def deniedReduce : State := { aloneReduce with sec := { image := some 0 } }
def offReduce : State := collective 1 0 0 (collTask 1 0) released

theorem witness_CollectiveFrame :
    CollectiveCommand (.allReduce 6) ∧ exec (.allReduce 6) State.reset = .next State.reset := ⟨trivial, rfl⟩

/-- How the work of a collective command ends, and bytes of memory then. -/
def collected (c : Instr) (s : State) (a n : Nat) : Option (Option Abort × List Byte) :=
  match collectiveOf c s with
  | none => none
  | some (u, x, m) => match m.run u with
    | .ok _ v => some (none, memBytes v.mem.cells a n)
    | .error e v => if (v.task? x.t.record).isSome then some (some e, []) else none

theorem collected_of {c : Instr} {s : State} {a n : Nat} {bs : List Byte} (h : collected c s a n = some (none, bs)) :
    ∃ u x m v, collectiveOf c s = some (u, x, m) ∧ m.run u = .ok () v := by
  unfold collected at h
  split at h
  · cases h
  · split at h
    · exact ⟨_, _, _, _, by assumption, by assumption⟩
    · split at h <;> cases h

theorem fails_of {c : Instr} {s : State} {a n : Nat} {e : Abort} {bs : List Byte}
    (h : collected c s a n = some (some e, bs)) :
    ∃ u x m v t, collectiveOf c s = some (u, x, m) ∧ m.run u = .error e v ∧ v.task? x.t.record = some t := by
  unfold collected at h
  split at h
  · cases h
  · split at h
    · cases h
    · split at h
      · rename_i g
        obtain ⟨t, k⟩ := Option.isSome_iff_exists.mp g
        cases h
        exact ⟨_, _, _, _, t, by assumption, by assumption, k⟩
      · cases h

/-- The sum over one position is its contribution, 2 and 1 (R331). -/
theorem test_all_reduce_bytes :
    collected (.allReduce 6) aloneReduce 0x2010 8 = some (none, [0, 0, 0, 0x40, 0, 0, 0x80, 0x3F]) := by decide +kernel

/-- A contribution that the tables do not let it read faults (R436). -/
theorem test_reduce_denied : collected (.allReduce 6) deniedReduce 0 0 = some (some (.fault 0x0801), []) := by decide +kernel

/-- A task on an axis of kind 0 is turned away as it starts (R324). -/
theorem test_axis_off : (offReduce.collCtx (collTask 1 0)).refused = true := by decide +kernel

theorem witness_CollectivesComplete :
    (∃ u x m v, collectiveOf (.allReduce 6) aloneReduce = some (u, x, m) ∧ m.run u = .ok () v) ∧
    ∃ u x m v t, collectiveOf (.allReduce 6) deniedReduce = some (u, x, m) ∧ m.run u = .error (.fault 0x0801) v ∧
      v.task? x.t.record = some t :=
  ⟨collected_of test_all_reduce_bytes, fails_of test_reduce_denied⟩
/-! ### Witnesses: messages of collectives, barriers and late peers -/

/-- A message of this kind from a rank at the front of VC0 of port 0, for tag 3. -/
def toldBy (rank kind word phase flags offset : Nat) (payload : List Byte) (s : State) : State :=
  s.setPort 0 { arrived := [⟨0, 0, rank <<< 64 + kind <<< 24, collHeader word 3 phase flags offset rank 0 ++ payload⟩] }

/-- Does the front message of a kind act on a task of which this holds? -/
def acting (s : State) (kind : Nat) (p : CollCtx → CollMsg → Coll → Bool) : Bool :=
  match actsOn s 0 0 kind with
  | some (u, c, x) => (match u.coll? c.t.record with
    | some q => p c x q
    | none => false)
  | none => false

theorem acting_of {s : State} {kind : Nat} {p : CollCtx → CollMsg → Coll → Bool} (h : acting s kind p = true) :
    ∃ u c x q, actsOn s 0 0 kind = some (u, c, x) ∧ u.coll? c.t.record = some q ∧ p c x q = true := by
  unfold acting at h
  split at h
  · split at h
    · exact ⟨_, _, _, _, by assumption, by assumption, h⟩
    · cases h
  · cases h

/-- Tasks under way: counts, a reduction on a tree and on a ring, and a barrier at its root and at its leaf. -/
def underWay : Coll := { record := 6, released := true, begun := true }
def countsCome : State :=
  toldBy 1 4 0 0 0 0 [5, 0, 0, 0] (collective 2 0 2 (collTask 5 0) { underWay with tokens := [1] })
def partComes : State :=
  toldBy 1 2 0 0 0 0 [0, 0, 0x80, 0x3F] (collective 2 0 3 (collTask 1 0) { underWay with awaitReduce := [(1, 4)] })
def ringComes : State :=
  toldBy 0 2 0 0 0 0 [0, 0, 0x80, 0x3F]
    (collective 2 1 1 (collTask 1 0) { underWay with vals := [0x40000000, 0x3F800000], awaitReduce := [(0, 4)] })
def upComes : State := toldBy 1 5 0 0 0 0 [] (collective 2 0 2 (collTask 8 0) { underWay with tokens := [1] })
def downComes : State := toldBy 0 6 9 0 0 0 [] (collective 2 1 2 (collTask 8 0) { underWay with tokens := [0], reduced := true })

theorem witness_MessagesActOnTasks :
    (Sound countsCome ∧ ∃ u c x q, actsOn countsCome 0 0 4 = some (u, c, x) ∧ u.coll? c.t.record = some q ∧ true = true) ∧
    (Sound partComes ∧ ∃ u c x q, actsOn partComes 0 0 2 = some (u, c, x) ∧ u.coll? c.t.record = some q ∧
      decide (c.reduceFits x = true ∧ c.move = 3 ∧ c.staged = false ∧ bytesCodes c.eb x.data ≠ []) = true) ∧
    (Sound ringComes ∧ ∃ u c x q, actsOn ringComes 0 0 2 = some (u, c, x) ∧ u.coll? c.t.record = some q ∧
      decide (c.reduceFits x = true ∧ c.move = 1 ∧ x.offset / max 1 c.chunk ≠ c.me ∧ q.absent = []) = true) ∧
    (Sound upComes ∧ ∃ u c x q, actsOn upComes 0 0 5 = some (u, c, x) ∧ u.coll? c.t.record = some q ∧
      decide (c.parent c.me = none ∧ colOp c.t.image = 8 ∧ q.begun = true ∧ q.reduced = false ∧ x.phase = q.phase ∧
        ∀ j ∈ c.children, c.rank j ∉ q.tokens.filter (· != x.rank)) = true) ∧
    (Sound downComes ∧ ∃ u c x q, actsOn downComes 0 0 6 = some (u, c, x) ∧ u.coll? c.t.record = some q ∧ true = true) :=
  ⟨⟨sound_of (by decide +kernel), acting_of (p := fun _ _ _ => true) (by decide +kernel)⟩,
    ⟨sound_of (by decide +kernel),
      acting_of (p := fun c x _ => decide (c.reduceFits x = true ∧ c.move = 3 ∧ c.staged = false ∧
        bytesCodes c.eb x.data ≠ [])) (by decide +kernel)⟩,
    ⟨sound_of (by decide +kernel),
      acting_of (p := fun c x q => decide (c.reduceFits x = true ∧ c.move = 1 ∧ x.offset / max 1 c.chunk ≠ c.me ∧
        q.absent = [])) (by decide +kernel)⟩,
    ⟨sound_of (by decide +kernel),
      acting_of (p := fun c x q => decide (c.parent c.me = none ∧ colOp c.t.image = 8 ∧ q.begun = true ∧ q.reduced = false ∧
        x.phase = q.phase ∧ ∀ j ∈ c.children, c.rank j ∉ q.tokens.filter (· != x.rank))) (by decide +kernel)⟩,
    ⟨sound_of (by decide +kernel), acting_of (p := fun _ _ _ => true) (by decide +kernel)⟩⟩

/-- A ready of rank 1; and the debt of a late one, and a full store of them. -/
def readyComes (l : List Ready) (debts : List Debt) : State :=
  { toldBy 1 1 0 0 0 0 [] State.reset with colls := { readies := l, debts := debts } }
def manyReadies : List Ready := List.replicate 16384 ⟨9, 9⟩

theorem sound_manyReadies : Sound (readyComes manyReadies []) := by
  have h : Sound (readyComes [] []) := sound_of (by decide +kernel)
  exact ⟨h.1, h.2, h.3, h.4, h.5, Nat.le_of_eq (List.length_replicate (n := 16384) (a := (⟨9, 9⟩ : Ready)))⟩

theorem witness_MessagesAreScreened :
    (∀ k ∈ [1, 2, 3, 4, 5, 6], ∃ m ∈ (toldBy 1 k 0 0 0 0 [] (st [(oPlacementEpoch, 4)])).frontMsg 0 0,
      hdrKind m.header = k ∧ hdrEpoch m.header ≠ (toldBy 1 k 0 0 0 0 [] (st [(oPlacementEpoch, 4)])).obj oPlacementEpoch) ∧
    Sound (st [(oPlacementEpoch, 4)]) ∧ collectiveMessage (.ready 0 0) = some (0, 0, 1) ∧
    (Sound (readyComes [] [⟨3, 1, 1, 0, 0, true⟩]) ∧ ∃ m ∈ (readyComes [] [⟨3, 1, 1, 0, 0, true⟩]).frontMsg 0 0, hdrKind m.header = 1 ∧
      hdrEpoch m.header = (readyComes [] [⟨3, 1, 1, 0, 0, true⟩]).obj oPlacementEpoch ∧
      (readyComes [] [⟨3, 1, 1, 0, 0, true⟩]).debt? 1 (readColl m).1 (readColl m).2.rank = some ⟨3, 1, 1, 0, 0, true⟩) ∧
    (Sound (readyComes [] []) ∧ ∃ m ∈ (readyComes [] []).frontMsg 0 0, hdrKind m.header = 1 ∧
      hdrEpoch m.header = (readyComes [] []).obj oPlacementEpoch ∧
      (readyComes [] []).debt? 1 (readColl m).1 (readColl m).2.rank = none ∧ (readyComes [] []).colls.readies.length < 16384) ∧
    (Sound (readyComes manyReadies []) ∧ 16384 ≤ (readyComes manyReadies []).colls.readies.length ∧
      ∃ m ∈ (readyComes manyReadies []).frontMsg 0 0, hdrKind m.header = 1 ∧
      hdrEpoch m.header = (readyComes manyReadies []).obj oPlacementEpoch ∧
      (readyComes manyReadies []).debt? 1 (readColl m).1 (readColl m).2.rank = none) :=
  ⟨by decide +kernel, sound_of (by decide +kernel), rfl, ⟨sound_of (by decide +kernel), by decide +kernel⟩,
    ⟨sound_of (by decide +kernel), by decide +kernel⟩, sound_manyReadies,
    Nat.le_of_eq (List.length_replicate (n := 16384) (a := (⟨9, 9⟩ : Ready))).symm, by decide +kernel⟩

/-- A barrier whose release boundary comes, with the skew flag in it or not, late or not. -/
def barrierTask (skew : Nat) : Machine.Task := { collTask 8 0 with image := (collTask 8 0).image + skew <<< 868 }
def atRelease (late : Bool) : Coll := { underWay with reduced := true, release := some 1, late := late, totals := (1, 0) }
def releases (skew : Nat) (late : Bool) : State := collective 2 1 2 (barrierTask skew) (atRelease late)

theorem witness_BarriersEnd :
    (Sound (releases 0 false) ∧ Sound (releases 0 true) ∧ Sound (releases 1 false) ∧ Sound (releases 1 true)) ∧
    ∀ k ∈ [0, 1], ∀ b ∈ [false, true], (releases k b).working? 6 = some (barrierTask k) ∧
      (releases k b).holder? 6 = some (barrierTask k) ∧ (barrierTask k).bins = [] ∧
      (releases k b).coll? 6 = some (atRelease b) ∧ recKind (barrierTask k).image = 5 ∧ colOp (barrierTask k).image = 8 ∧
      1 ≤ (releases k b).tick + 1 ∧ flag (barrierTask k).image 868 = decide (k = 1) :=
  ⟨⟨sound_of (by decide +kernel), sound_of (by decide +kernel), sound_of (by decide +kernel), sound_of (by decide +kernel)⟩,
    by decide +kernel⟩

/-- Rank 1 is awaited, past the deadline, by a collective and by a snapshot; strict or lenient. -/
def awaiting : Coll := { underWay with tokens := [1] }
def snapTask : Machine.Task := { record := 6, image := 7 + 1 <<< 52 }
def pastDue (t : Machine.Task) (mode : Nat) : State :=
  { ((collective 2 0 2 t awaiting).setObj oTickCounter (2 ^ 40)).setObj oStragglerMode mode with
    resil := { midnight := some { record := 6, seq := 2, entries := [], total := 0x1000, entryTick := 0 } } }

theorem witness_LatePeers :
    (Sound (pastDue (collTask 8 0) 0) ∧ Sound (pastDue (collTask 8 0) 1) ∧ Sound (pastDue snapTask 0) ∧
      Sound (pastDue snapTask 1)) ∧
    ((∀ m ∈ [0, 1], (pastDue (collTask 8 0) m).working? 6 = some (collTask 8 0) ∧
        (pastDue (collTask 8 0) m).holder? 6 = some (collTask 8 0) ∧
        (pastDue (collTask 8 0) m).coll? 6 = some awaiting ∧
        (pastDue (collTask 8 0) m).awaited ((pastDue (collTask 8 0) m).collCtx (collTask 8 0)) awaiting ≠ [] ∧
        (pastDue (collTask 8 0) m).deadlineDue (collTask 8 0).image = true ∧ (pastDue (collTask 8 0) m).obj oStragglerMode = m) ∧
      recKind (collTask 8 0).image = 5 ∧ awaiting.begun = true ∧ awaiting.deadline = false) ∧
    (∀ m ∈ [0, 1], (pastDue snapTask m).working? 6 = some snapTask ∧ (pastDue snapTask m).holder? 6 = some snapTask ∧ (pastDue snapTask m).coll? 6 = some awaiting ∧
      (pastDue snapTask m).awaited ((pastDue snapTask m).collCtx snapTask) awaiting ≠ [] ∧
      (pastDue snapTask m).deadlineDue snapTask.image = true ∧ (pastDue snapTask m).obj oStragglerMode = m ∧
      (pastDue snapTask m).midnightOf 6 = some { record := 6, seq := 2, entries := [], total := 0x1000, entryTick := 0 }) ∧
    recKind snapTask.image = 7 :=
  ⟨⟨sound_of (by decide +kernel), sound_of (by decide +kernel), sound_of (by decide +kernel), sound_of (by decide +kernel)⟩,
    by decide +kernel, by decide +kernel, by decide +kernel⟩
/-! ### Witnesses: twins, restore and Dusk -/

/-- Twinned with rank 5, which holds two slots of 4,096 bytes here; a message of this kind of it, or of another. -/
def paired : State :=
  near (st [(oTwinRegionBase, 0x1000), (oTwinRegionBytes, 0x2000), (oTwinRank, 5), (oTwinState, 1)])
def twinSays (source kind : Nat) (data : List Byte) (s : State) : State :=
  s.setPort 0 { arrived := [⟨0, 2, source <<< 64 + kind <<< 24, data⟩] }

/-- Two words and some bytes. -/
def words (a b : Nat) (bs : List Byte) : List Byte := leBytes 8 a ++ leBytes 8 b ++ bs

/-- Does a read through a class run to its end? -/
def reads (s : State) (a n : Nat) : Option State :=
  match (readBytes resilInit .pass a n).run s with
  | .ok _ u => some u
  | .error _ _ => none

theorem reads_of {s : State} {a n : Nat} (h : (reads s a n).isSome = true) :
    ∃ bs u, (readBytes resilInit .pass a n).run s = .ok bs u ∧ reads s a n = some u := by
  unfold reads at h ⊢
  cases e : EStateM.run (readBytes resilInit .pass a n) s with
  | ok bs u => exact ⟨bs, u, rfl, rfl⟩
  | error _ _ => rw [e] at h; cases h

/-- A fetch of eight bytes at offset 16. -/
def fetches : State := twinSays 5 0x13 (words 16 8 []) paired

theorem fetch_reads : ∃ head u bs v,
    (readBytes resilInit .pass (fetches.heldSlot 0) 256).run (fetches.dropFront 0 ⟨0, 2, 5 <<< 64 + 0x13 <<< 24, words 16 8 []⟩) =
      .ok head u ∧
    (readBytes resilInit .pass (fetches.heldSlot 0 + 16) 8).run u = .ok bs v := by
  obtain ⟨head, u, h, e⟩ := reads_of
    (s := fetches.dropFront 0 ⟨0, 2, 5 <<< 64 + 0x13 <<< 24, words 16 8 []⟩) (a := fetches.heldSlot 0) (n := 256)
    (by decide +kernel)
  have k : ((reads (fetches.dropFront 0 ⟨0, 2, 5 <<< 64 + 0x13 <<< 24, words 16 8 []⟩) (fetches.heldSlot 0) 256).bind
    fun u => reads u (fetches.heldSlot 0 + 16) 8).isSome = true := by decide +kernel
  rw [e] at k
  obtain ⟨bs, v, h', -⟩ := reads_of k
  exact ⟨head, u, bs, v, h, h'⟩

/-- A restore from the twin, slot 0. -/
def restoring (r : Restore) (s : State) : State := { s with resil := { s.resil with restore := some r } }

theorem witness_TwinMessages :
    (∀ k ∈ [0x10, 0x11, 0x12, 0x13, 0x14, 0x15], ∀ r ∈ [4, 5], ∃ m ∈ (twinSays r k (words 0 0 []) paired).frontMsg 0 2,
      hdrKind m.header = k ∧ (twinSays r k (words 0 0 []) paired).twinned = true ∧ hdrSource m.header = r) ∧
    (Sound paired ∧ paired.obj oTwinRank = 5 ∧ twinMessage (.heartbeat 0 2) = some (0, 2, 0x10)) ∧
    ((∀ off ∈ [0, 0xFFC], off + 4 ≤ paired.slotBytes ∧ paired.heldSlot 0 + off + 4 ≤ hostWindowBase ∧
        (paired.heldSlot 0 + off) % pageBytes + 4 ≤ pageBytes ∧
        entState (paired.entry ((paired.heldSlot 0 + off) / pageBytes)) = 1 ∧ paired.granted 3 2 (paired.heldSlot 0 + off) = true) ∧
      paired.slotBytes < 0xFFD + 4 ∧ (words 0xFFC 0 [1, 2, 3, 4]).drop 16 = [1, 2, 3, 4] ∧
      (⟨0, 0, words 0xFFC 0 [1, 2, 3, 4]⟩ : TwinMsg).word 0 = 0xFFC) ∧
    ((⟨0, 0, words 0xFFD 4 []⟩ : TwinMsg).word 0 + (⟨0, 0, words 0xFFD 4 []⟩ : TwinMsg).word 1 = 0x1001 ∧
      paired.slotBytes = 0x1000 ∧ Sound fetches ∧
      (⟨0, 0, words 16 8 []⟩ : TwinMsg).word 0 + (⟨0, 0, words 16 8 []⟩ : TwinMsg).word 1 ≤ fetches.slotBytes) ∧
    (∃ head u bs v, (readBytes resilInit .pass (fetches.heldSlot 0) 256).run
        (fetches.dropFront 0 ⟨0, 2, 5 <<< 64 + 0x13 <<< 24, words 16 8 []⟩) = .ok head u ∧
      (readBytes resilInit .pass (fetches.heldSlot 0 + 16) 8).run u = .ok bs v) ∧
    paired.resil.restore = none ∧ Sound (restoring ⟨0, 0, []⟩ paired) ∧
    (restoring ⟨0, 0, []⟩ paired).resil.restore = some ⟨0, 0, []⟩ :=
  ⟨by decide +kernel, ⟨sound_of (by decide +kernel), by decide +kernel, rfl⟩, by decide +kernel,
    ⟨by decide +kernel, by decide +kernel, sound_of (by decide +kernel), by decide +kernel⟩, fetch_reads, rfl,
    sound_of (by decide +kernel), rfl⟩

theorem witness_HeartbeatsKeepTwins :
    Sound paired ∧ paired.rst.inReset = false ∧ paired.twinned = true ∧
    paired.tick % max (paired.obj oHeartbeatIntervalTicks) 1 = 0 ∧ paired.resil.duskStage < 2 ∧
    paired.resil.beatSent ≠ some paired.tick ∧ State.reset.twinned = false ∧ Sound State.reset ∧
    (paired.setObj oTickCounter 1).tick % max ((paired.setObj oTickCounter 1).obj oHeartbeatIntervalTicks) 1 ≠ 0 ∧
    paired.obj oTwinState = 1 ∧ (paired.setObj oHeartbeatTimeoutTicks 0).resil.lastBeat +
      (paired.setObj oHeartbeatTimeoutTicks 0).obj oHeartbeatTimeoutTicks ≤ (paired.setObj oHeartbeatTimeoutTicks 0).tick ∧
    (paired.setObj oHeartbeatTimeoutTicks 0).obj oTwinState = 1 ∧ Sound (paired.setObj oHeartbeatTimeoutTicks 0) ∧
    State.reset.obj oTwinState ≠ 1 ∧ paired.tick < paired.resil.lastBeat + paired.obj oHeartbeatTimeoutTicks :=
  ⟨sound_of (by decide +kernel), by decide +kernel, by decide +kernel, by decide +kernel, by decide +kernel,
    by decide +kernel, by decide +kernel, sound_of (by decide +kernel), by decide +kernel, by decide +kernel,
    by decide +kernel, by decide +kernel, sound_of (by decide +kernel), by decide +kernel⟩

/-- 256 bytes fetched, all 0: no header. -/
def zeros : NatMap := (List.range 256).map fun i => (i, 0)

/-- A far copy with a header and no body. -/
def goodHeader : Nat := 1 + 7 <<< 1024 + 0x1000 <<< 1152 + ofLe (slotDigest []) <<< 1664
def farCopy : State := restoring ⟨1, 0, []⟩ (put [(0, 256, goodHeader)] (near State.reset))

/-- The header that the steps of a restore found, with the status of its end. -/
def restores (s : State) (r : Restore) : Option (Nat × Nat) :=
  match (restoreWork fun off n => readBytes resilInit .pass (s.farSlot r.slot + off) n).run s with
  | .ok (st, some (h, _)) _ => some (st, h)
  | _ => none

theorem restores_of {s : State} {r : Restore} {st : Nat} (e : (restores s r).map (·.1) = some st) :
    ∃ h body u, (restoreWork fun off n => readBytes resilInit .pass (s.farSlot r.slot + off) n).run s =
      .ok (st, some (h, body)) u := by
  unfold restores at e
  split at e
  · rename_i g; cases e; exact ⟨_, _, _, g⟩
  · cases e

/-- A copy whose digest is that of its bytes is restored with status 2 (R369). -/
theorem test_restores : (restores farCopy ⟨1, 0, []⟩).map (·.1) = some 2 := by decide +kernel

theorem witness_RestoreEnds :
    (Sound State.reset ∧ State.reset.resil.restore = none) ∧
    (Sound (restoring ⟨0, 0, []⟩ State.reset) ∧ (restoring ⟨0, 0, []⟩ State.reset).obj oTwinState ≠ 1) ∧
    (Sound (restoring ⟨0, 0, zeros⟩ paired) ∧ (restoring ⟨0, 0, zeros⟩ paired).obj oTwinState = 1 ∧
      (⟨0, 0, zeros⟩ : Restore).bytes 0 256 = some (List.replicate 256 0) ∧
      (restoring ⟨0, 0, zeros⟩ paired).headerOk (ofLe (List.replicate 256 0)) = false) ∧
    Sound farCopy ∧ farCopy.resil.restore = some ⟨1, 0, []⟩ ∧
    ∃ h body u, (restoreWork fun off n => readBytes resilInit .pass (farCopy.farSlot (⟨1, 0, []⟩ : Restore).slot + off) n).run farCopy =
      .ok (2, some (h, body)) u :=
  ⟨⟨sound_of (by decide +kernel), rfl⟩, ⟨sound_of (by decide +kernel), by decide +kernel⟩,
    ⟨sound_of (by decide +kernel), by decide +kernel⟩, sound_of (by decide +kernel), rfl, restores_of test_restores⟩


/-- A Dusk that has come this far. -/
def duskAt (stage dusk : Nat) : State := { State.reset with resil := { duskStage := stage, dusk := dusk } }

theorem witness_DuskStopsDevice :
    (∀ n ∈ [0, 1, 2], ∀ d ∈ [1, 3], (duskAt n d).resil.duskStage = n ∧ (duskAt n d).enginesIdle = true) ∧
    (Sound (duskAt 1 1) ∧ Sound (duskAt 1 3) ∧ Sound (duskAt 2 1)) ∧
    (tasks [{ mulDone with work := 0 }] (duskAt 1 1)).enginesIdle = false :=
  ⟨by decide +kernel, ⟨sound_of (by decide +kernel), sound_of (by decide +kernel), sound_of (by decide +kernel)⟩,
    by decide +kernel⟩

end Sys2Proof.Tests
end

section
/-! PROOFS. The statements of 00_scope.md: the state after reset, every command's answer, and the write of an object by a
control core. -/

namespace Sys2Proof.Safety

open Sys2Proof.Machine

/-! ### After reset -/

/-- Settles O2: no map of the reset state holds an entry, so that every object and every byte reads as its default. -/
theorem resetLeavesDefaults : Obligations.ResetLeavesDefaults := by
  have defaults : ∀ k, State.reset.obj k = objDefault k ∧ State.reset.pendObj k = objDefault k := fun _ => ⟨rfl, rfl⟩
  have links : ∀ p, p < 32 → State.reset.link p = 1 := by decide
  have memory : ∀ a, memByte State.reset.mem.cells a = 0 := fun _ => rfl
  exact ⟨defaults, rfl, rfl, rfl, rfl, rfl, rfl, rfl, rfl, rfl, rfl, links, rfl, rfl, rfl, rfl, rfl, rfl, memory⟩

/-! ### Every command -/

/-- What every command does: it answers a next state, which keeps what `Keeps` names. -/
theorem exec_keeps {s0 s : State} (h : Keeps s0 s) : ∀ c : Instr, PassO (Keeps s0) (exec c s)
  | .tickBoundary env => execTickBoundary_keeps env h
  | .releasePoint => execReleasePoint_keeps h
  | .periodSwitch => execPeriodSwitch_keeps h
  | .epochSwitch => execEpochSwitch_keeps h
  | .routeSwitch => execRouteSwitch_keeps h
  | .batchSwitch => execBatchSwitch_keeps h
  | .stepTickLimit => execStepTickLimit_keeps h
  | .taskStart cls unit phase => execTaskStart_keeps cls unit phase h
  | .taskCompletion rec timing => execTaskCompletion_keeps rec timing h
  | .join rec => execJoin_keeps rec h
  | .matrixProduct rec => execMatrixProduct_keeps rec h
  | .matrixAccumulate rec => execMatrixAccumulate_keeps rec h
  | .matrixPaired rec => execMatrixPaired_keeps rec h
  | .gradientPair rec => execGradientPair_keeps rec h
  | .tiedGroup rec => execTiedGroup_keeps rec h
  | .convert rec => execConvert_keeps rec h
  | .axpby rec => execAxpby_keeps rec h
  | .mul rec => execMul_keeps rec h
  | .fma rec => execFma_keeps rec h
  | .clamp rec => execClamp_keeps rec h
  | .func rec => execFunc_keeps rec h
  | .funcGrad rec => execFuncGrad_keeps rec h
  | .amax rec => execAmax_keeps rec h
  | .quantise rec => execQuantise_keeps rec h
  | .softmax rec => execSoftmax_keeps rec h
  | .softmaxGrad rec => execSoftmaxGrad_keeps rec h
  | .norm rec => execNorm_keeps rec h
  | .normGrad rec => execNormGrad_keeps rec h
  | .rowDot rec => execRowDot_keeps rec h
  | .colsum rec => execColsum_keeps rec h
  | .topk rec => execTopk_keeps rec h
  | .coupledFuncGrad rec => execCoupledFuncGrad_keeps rec h
  | .coupledSoftmaxGrad rec => execCoupledSoftmaxGrad_keeps rec h
  | .coupledNormGrad rec => execCoupledNormGrad_keeps rec h
  | .gatherRows rec => execGatherRows_keeps rec h
  | .combine rec => execCombine_keeps rec h
  | .route rec => execRoute_keeps rec h
  | .pack rec => execPack_keeps rec h
  | .expandRle rec => execExpandRle_keeps rec h
  | .compressRle rec => execCompressRle_keeps rec h
  | .expand2of4 rec => execExpand2of4_keeps rec h
  | .compress2of4 rec => execCompress2of4_keeps rec h
  | .neuronPack rec => execNeuronPack_keeps rec h
  | .predictorCheck rec => execPredictorCheck_keeps rec h
  | .scatterRows rec => execScatterRows_keeps rec h
  | .scatterAdd rec => execScatterAdd_keeps rec h
  | .hashMerge rec => execHashMerge_keeps rec h
  | .allReduce rec => execAllReduce_keeps rec h
  | .reduceScatter rec => execReduceScatter_keeps rec h
  | .allGather rec => execAllGather_keeps rec h
  | .allToAll rec => execAllToAll_keeps rec h
  | .allToAllv rec => execAllToAllv_keeps rec h
  | .allToAllvReverse rec => execAllToAllvReverse_keeps rec h
  | .broadcast rec => execBroadcast_keeps rec h
  | .permute rec => execPermute_keeps rec h
  | .barrier rec => execBarrier_keeps rec h
  | .updateMomentumSgd rec => execUpdateMomentumSgd_keeps rec h
  | .updateAdamw rec => execUpdateAdamw_keeps rec h
  | .updateFactored rec => execUpdateFactored_keeps rec h
  | .updateSignMomentum rec => execUpdateSignMomentum_keeps rec h
  | .updateLazy rec => execUpdateLazy_keeps rec h
  | .snapshot rec => execSnapshot_keeps rec h
  | .midnightWrite rec => execMidnightWrite_keeps rec h
  | .midnightClose rec => execMidnightClose_keeps rec h
  | .alloc rec => execAlloc_keeps rec h
  | .free rec => execFree_keeps rec h
  | .create rec => execCreate_keeps rec h
  | .allocatorQueueService => execAllocatorQueueService_keeps h
  | .promote rec => execPromote_keeps rec h
  | .demote rec => execDemote_keeps rec h
  | .populate rec => execPopulate_keeps rec h
  | .discard rec => execDiscard_keeps rec h
  | .setPolicy rec => execSetPolicy_keeps rec h
  | .migrationStart page => execMigrationStart_keeps page h
  | .migrationCopyDone page => execMigrationCopyDone_keeps page h
  | .autoPromote page => execAutoPromote_keeps page h
  | .accessCountHalving => execAccessCountHalving_keeps h
  | .scrubPass stack reports => execScrubPass_keeps stack reports h
  | .hostBar2Read ide offset len => execHostBar2Read_keeps ide offset len h
  | .hostBar2Write ide offset bytes => execHostBar2Write_keeps ide offset bytes h
  | .hostUnsupportedRequest => execHostUnsupportedRequest_keeps h
  | .hostReadTimeout rec => execHostReadTimeout_keeps rec h
  | .hotReset => execHotReset_keeps h
  | .objectWrite w => execObjectWrite_keeps w h
  | .windowRead ide => execWindowRead_keeps ide h
  | .windowWriteSegment ide => execWindowWriteSegment_keeps ide h
  | .windowWriteLast ide => execWindowWriteLast_keeps ide h
  | .descriptorCreate p value => execDescriptorCreate_keeps p value h
  | .allocRequest p value => execAllocRequest_keeps p value h
  | .pageQuery p value => execPageQuery_keeps p value h
  | .stickyClear p value => execStickyClear_keeps p value h
  | .rollbackRaise p value => execRollbackRaise_keeps p value h
  | .tableUnlock p value => execTableUnlock_keeps p value h
  | .resetRequest p value => execResetRequest_keeps p value h
  | .tileReset p value => execTileReset_keeps p value h
  | .portReset p value => execPortReset_keeps p value h
  | .reachProgram p value => execReachProgram_keeps p value h
  | .firmwarePush p image => execFirmwarePush_keeps p image h
  | .duskTick p => execDuskTick_keeps p h
  | .duskStep p => execDuskStep_keeps p h
  | .duskSnapshot p => execDuskSnapshot_keeps p h
  | .duskIdle => execDuskIdle_keeps h
  | .duskPortStop => execDuskPortStop_keeps h
  | .commitDiscard p group => execCommitDiscard_keeps p group h
  | .commitTick p => execCommitTick_keeps p h
  | .commitProgram p => execCommitProgram_keeps p h
  | .commitQueues p => execCommitQueues_keeps p h
  | .commitEpoch p => execCommitEpoch_keeps p h
  | .commitPaging p => execCommitPaging_keeps p h
  | .commitGradientPath p => execCommitGradientPath_keeps p h
  | .commitFnSlots p => execCommitFnSlots_keeps p h
  | .commitGather p => execCommitGather_keeps p h
  | .commitPredictorExact p => execCommitPredictorExact_keeps p h
  | .commitSeed p => execCommitSeed_keeps p h
  | .commitShadow p => execCommitShadow_keeps p h
  | .commitRounding p => execCommitRounding_keeps p h
  | .commitScrub p => execCommitScrub_keeps p h
  | .commitHash p => execCommitHash_keeps p h
  | .commitPorts p => execCommitPorts_keeps p h
  | .commitRoutes p => execCommitRoutes_keeps p h
  | .commitAxes p => execCommitAxes_keeps p h
  | .commitCollective p => execCommitCollective_keeps p h
  | .commitBatch p => execCommitBatch_keeps p h
  | .commitTwin p => execCommitTwin_keeps p h
  | .commitStraggler p => execCommitStraggler_keeps p h
  | .commitRestore p => execCommitRestore_keeps p h
  | .restoreComplete => execRestoreComplete_keeps h
  | .commitHostWindow p => execCommitHostWindow_keeps p h
  | .commitMsix p => execCommitMsix_keeps p h
  | .commitFarIde p => execCommitFarIde_keeps p h
  | .commitSecurity p => execCommitSecurity_keeps p h
  | .commitLinkPolicy p => execCommitLinkPolicy_keeps p h
  | .commitFarTrust p => execCommitFarTrust_keeps p h
  | .commitTable p => execCommitTable_keeps p h
  | .tableClearDone => execTableClearDone_keeps h
  | .commitWatchdog p => execCommitWatchdog_keeps p h
  | .commitPower p => execCommitPower_keeps p h
  | .commitThermal p => execCommitThermal_keeps p h
  | .commitMgmt p => execCommitMgmt_keeps p h
  | .commitNotify p => execCommitNotify_keeps p h
  | .felbyRead f => execFelbyRead_keeps f h
  | .felbyWrite f => execFelbyWrite_keeps f h
  | .felbyDescribe f => execFelbyDescribe_keeps f h
  | .felbySpdm f req => execFelbySpdm_keeps f req h
  | .felbyUnknownType f => execFelbyUnknownType_keeps f h
  | .eventAck f => execEventAck_keeps f h
  | .eventSend timeMs => execEventSend_keeps timeMs h
  | .eventRetry timeMs => execEventRetry_keeps timeMs h
  | .doeRequest req => execDoeRequest_keeps req h
  | .dataFlitReceive port flit => execDataFlitReceive_keeps port flit h
  | .idleFlitReceive port flit => execIdleFlitReceive_keeps port flit h
  | .nakReceive port flit => execNakReceive_keeps port flit h
  | .timestampReceive port flit => execTimestampReceive_keeps port flit h
  | .abortReceive port flit => execAbortReceive_keeps port flit h
  | .attachReceive port flit info => execAttachReceive_keeps port flit info h
  | .keyUpdateReceive port flit => execKeyUpdateReceive_keeps port flit h
  | .timestampSend port phase => execTimestampSend_keeps port phase h
  | .keyUpdateSend port slot => execKeyUpdateSend_keeps port slot h
  | .messageForward port vc => execMessageForward_keeps port vc h
  | .ready port vc => execReady_keeps port vc h
  | .reduce port vc => execReduce_keeps port vc h
  | .place port vc => execPlace_keeps port vc h
  | .counts port vc => execCounts_keeps port vc h
  | .barrierUp port vc => execBarrierUp_keeps port vc h
  | .barrierDown port vc => execBarrierDown_keeps port vc h
  | .barrierRelease rec => execBarrierRelease_keeps rec h
  | .contributionDeadline rec => execContributionDeadline_keeps rec h
  | .heartbeat port vc => execHeartbeat_keeps port vc h
  | .heartbeatSend => execHeartbeatSend_keeps h
  | .twinLost => execTwinLost_keeps h
  | .snapData port vc => execSnapData_keeps port vc h
  | .snapHeader port vc => execSnapHeader_keeps port vc h
  | .fetch port vc => execFetch_keeps port vc h
  | .fetchData port vc => execFetchData_keeps port vc h
  | .dusk port vc => execDusk_keeps port vc h
  | .twinResetRequest port vc => execTwinResetRequest_keeps port vc h
  | .retrainInterval port => execRetrainInterval_keeps port h
  | .trainingComplete port peerRates => execTrainingComplete_keeps port peerRates h
  | .trainingTimeout port => execTrainingTimeout_keeps port h
  | .attachComplete port evidence => execAttachComplete_keeps port evidence h
  | .laneSignalLoss port => execLaneSignalLoss_keeps port h
  | .noFlitTimeout port => execNoFlitTimeout_keeps port h
  | .farLinkLoss port cause => execFarLinkLoss_keeps port cause h
  | .farRetrain port found => execFarRetrain_keeps port found h
  | .farRequestTimeout port => execFarRequestTimeout_keeps port h
  | .refclkLoss clk => execRefclkLoss_keeps clk h
  | .powerOnReset removed => execPowerOnReset_keeps removed h
  | .perst => execPerst_keeps h
  | .sysRst => execSysRst_keeps h
  | .watchdogExpiry => execWatchdogExpiry_keeps h
  | .thermalTrip temps => execThermalTrip_keeps temps h
  | .thermalTripRelease temps => execThermalTripRelease_keeps temps h
  | .vcoreOvercurrent currentA => execVcoreOvercurrent_keeps currentA h
  | .dawnPhaseDone env => execDawnPhaseDone_keeps env h
  | .rsaKeyReady => execRsaKeyReady_keeps h
  | .resetRelease source => execResetRelease_keeps source h
  | .hostLinkUp speed width => execHostLinkUp_keeps speed width h
  | .hostLinkDown cause => execHostLinkDown_keeps cause h
  | .managementPortDown port => execManagementPortDown_keeps port h
  | .managementPortUp port => execManagementPortUp_keeps port h
  | .felbyFrameDiscard f => execFelbyFrameDiscard_keeps f h

/-- Settles O6: the arm of each command answers a next state. -/
theorem everyCommandAnswers : Obligations.EveryCommandAnswers := by
  intro c s
  obtain ⟨t, e, -⟩ := (exec_keeps (Keeps.refl s) c).answers
  exact ⟨t, e⟩

/-! ### The write of a control core -/

/-- A path in service to the cores writes an object without anything else done: its state is that of the write. -/
theorem pathWrite_core {s t : State} {u i sub n : Nat} {bytes : List Byte} (h : s.pathOpen (.core u) = true)
    (e : (writeObject (.core u) i sub bytes).run s = .ok n t) : s.pathWrite (.core u) i sub bytes = .next t := by
  have run : (do let _ ← writeObject (.core u) i sub bytes : M Unit).run s = .ok () t := by
    show EStateM.bind (writeObject (.core u) i sub bytes) _ s = _
    unfold EStateM.bind
    rw [show writeObject (.core u) i sub bytes s = .ok n t from e]
    rfl
  simp only [State.pathWrite, h, if_true, runDict, run]

/-- No path writes an object that only reads: the state stays (R376). -/
theorem writeObject_readOnly {s : State} {p : Path} {i sub : Nat} {d : ObjDef} {bytes : List Byte}
    (hd : objDef? i sub = some d) (ha : d.access = .const ∨ d.access = .ro) :
    (writeObject p i sub bytes).run s = .ok stNotWritable s := by
  have denied : access p i sub true s = .ok (stNotWritable, none) s := by
    unfold access
    simp [hd, ha, bind, EStateM.bind, get, getThe, MonadStateOf.get, EStateM.get, pure, EStateM.pure]
  show EStateM.bind (access p i sub true) _ s = _
  unfold EStateM.bind
  rw [denied]
  rfl

/-- A staged object's whole value becomes its pending value, without its reserved bits (R14, R379). -/
theorem writeObject_staged {s : State} {p : Path} {i sub : Nat} {d : ObjDef} {bytes : List Byte} (h : MayWrite s p i sub)
    (hd : objDef? i sub = some d) (ha : d.access = .staged) (hs : sub ≠ 0xFF) (hz : bytes.length = d.size)
    (ht : d.ty = .bool → ofLe bytes ≤ 1) : (writeObject p i sub bytes).run s =
      .ok stOk (s.setPend (objKey i sub) (dropReserved (objKey i sub) (ofLe bytes))) := by
  have fits : sizeFits d bytes.length = true := by simp [sizeFits, hz]
  rw [writeObject_ok h hd (by rw [ha]; decide) (by rw [ha]; decide) fits ht, if_neg hs, ha]
  rfl

/-- Settles O23: the cases of an object that only reads and of a staged one. -/
theorem coreWriteSetsObject : Obligations.CoreWriteSetsObject := by
  intro u index sub bytes d s sound may hd hs hz ht
  refine ⟨fun ha => pathWrite_core may.open_ (writeObject_readOnly hd ha), fun ha => ?_⟩
  refine ⟨_, pathWrite_core may.open_ (writeObject_staged may hd ha hs hz ht), ?_, fun k hk => ?_, rfl⟩
  · rw [pend_setPend sound.pend, if_pos rfl]
  · rw [pend_setPend sound.pend, if_neg hk]

end Sys2Proof.Safety
end

section
/-! PROOFS. The statements of 01_device_at_a_glance.md: what the work of a compute command leaves as it is. -/

namespace Sys2Proof.Safety

open Sys2Proof.Machine

/-- What a compute command does: it answers a next state, which keeps what `Works` names. The commands that do not compute
fall to the hypothesis, which is false of each of them. -/
theorem exec_works {s0 s : State} {c : Instr} (hc : Computes c) (h : Works s0 s) : PassO (Works s0) (exec c s) := by
  cases c with
  | matrixProduct r => exact execMatrixProduct_works r h
  | matrixAccumulate r => exact execMatrixAccumulate_works r h
  | matrixPaired r => exact execMatrixPaired_works r h
  | gradientPair r => exact execGradientPair_works r h
  | tiedGroup r => exact execTiedGroup_works r h
  | convert r => exact execConvert_works r h
  | axpby r => exact execAxpby_works r h
  | mul r => exact execMul_works r h
  | fma r => exact execFma_works r h
  | clamp r => exact execClamp_works r h
  | func r => exact execFunc_works r h
  | funcGrad r => exact execFuncGrad_works r h
  | amax r => exact execAmax_works r h
  | quantise r => exact execQuantise_works r h
  | softmax r => exact execSoftmax_works r h
  | softmaxGrad r => exact execSoftmaxGrad_works r h
  | norm r => exact execNorm_works r h
  | normGrad r => exact execNormGrad_works r h
  | rowDot r => exact execRowDot_works r h
  | colsum r => exact execColsum_works r h
  | topk r => exact execTopk_works r h
  | coupledFuncGrad r => exact execCoupledFuncGrad_works r h
  | coupledSoftmaxGrad r => exact execCoupledSoftmaxGrad_works r h
  | coupledNormGrad r => exact execCoupledNormGrad_works r h
  | gatherRows r => exact execGatherRows_works r h
  | combine r => exact execCombine_works r h
  | route r => exact execRoute_works r h
  | pack r => exact execPack_works r h
  | expandRle r => exact execExpandRle_works r h
  | compressRle r => exact execCompressRle_works r h
  | expand2of4 r => exact execExpand2of4_works r h
  | compress2of4 r => exact execCompress2of4_works r h
  | neuronPack r => exact execNeuronPack_works r h
  | predictorCheck r => exact execPredictorCheck_works r h
  | scatterRows r => exact execScatterRows_works r h
  | scatterAdd r => exact execScatterAdd_works r h
  | hashMerge r => exact execHashMerge_works r h
  | updateMomentumSgd r => exact execUpdateMomentumSgd_works r h
  | updateAdamw r => exact execUpdateAdamw_works r h
  | updateFactored r => exact execUpdateFactored_works r h
  | updateSignMomentum r => exact execUpdateSignMomentum_works r h
  | updateLazy r => exact execUpdateLazy_works r h
  | _ => exact False.elim hc

/-- Settles O9: the work of a command starts from the state itself, of which nothing has changed yet. -/
theorem computeFrame : Obligations.ComputeFrame := by
  intro c s t hc e
  have passes : PassO (Works s) (exec c s) := exec_works hc (.refl s)
  exact passes.of e

end Sys2Proof.Safety
end

section
/-! PROOFS. The statements of 02_tick_and_step_programs.md: when the work of compute commands, of collectives and of
their messages completes. -/

namespace Sys2Proof.Safety

open Sys2Proof.Machine

/-! ### Compute commands -/

/-- Only compute commands have work of their own. -/
theorem computes_of_workOf {c : Instr} {s : State} {w : State × Machine.Task × M Unit} (h : workOf c s = some w) :
    Computes c := by
  unfold workOf at h
  split at h
  case h_43 => cases h
  all_goals exact trivial

/-- A compute command whose own work does not abort answers a state in which its task has worked, by the
lemma of its family. -/
theorem workOf_completes {c : Instr} {s u v : State} {t : Machine.Task} {m : M Unit} (h : workOf c s = some (u, t, m))
    (e : m.run u = .ok () v) : ∃ x t', exec c s = .next x ∧ x.task? t.record = some t' ∧ t'.work = 1 := by
  have hc := computes_of_workOf h
  unfold workOf at h
  cases c with
  | matrixProduct r => exact forward_completes h e
  | matrixAccumulate r => exact forward_completes h e
  | matrixPaired r => exact forward_completes h e
  | gradientPair r => exact grad_completes h e
  | tiedGroup r => exact grad_completes h e
  | convert r => exact vector_completes convertBody_works h e
  | axpby r => exact vector_completes axpbyBody_works h e
  | mul r => exact vector_completes mulBody_works h e
  | fma r => exact vector_completes fmaBody_works h e
  | clamp r => exact vector_completes clampBody_works h e
  | func r => exact vector_completes funcBody_works h e
  | funcGrad r => exact vector_completes funcGradBody_works h e
  | amax r => exact vector_completes amaxBody_works h e
  | quantise r => exact vector_completes quantiseBody_works h e
  | softmax r => exact vector_completes softmaxBody_works h e
  | softmaxGrad r => exact vector_completes softmaxGradBody_works h e
  | norm r => exact vector_completes normBody_works h e
  | normGrad r => exact vector_completes normGradBody_works h e
  | rowDot r => exact vector_completes rowDotBody_works h e
  | colsum r => exact vector_completes colsumBody_works h e
  | topk r => exact vector_completes topkBody_works h e
  | coupledFuncGrad r => exact coupled_completes coupledFuncElem_works h e
  | coupledSoftmaxGrad r => exact coupled_completes coupledSoftmaxElem_works h e
  | coupledNormGrad r => exact coupled_completes coupledNormElem_works h e
  | gatherRows r => exact gather_completes gatherRowsBody_works h e
  | combine r => exact gather_completes combineBody_works h e
  | route r =>
    exact gather_completes (outs := fun i => [recOperand i 1, recOperand i 2, recOperand i 3]) routeBody_works h e
  | pack r => exact gather_completes packBody_works h e
  | expandRle r => exact gather_completes expandRleBody_works h e
  | compressRle r => exact gather_completes compressRleBody_works h e
  | expand2of4 r => exact gather_completes expand24Body_works h e
  | compress2of4 r => exact gather_completes compress24Body_works h e
  | neuronPack r => exact gather_completes (outs := fun i => [recOperand i 2, recOperand i 3]) neuronPackBody_works h e
  | predictorCheck r => exact gather_completes (outs := fun _ => []) predictorBody_works h e
  | scatterRows r => exact scatter_completes scatterRowsBody_works h e
  | scatterAdd r => exact scatter_completes (outs := fun _ => []) scatterAddBody_works h e
  | hashMerge r => exact scatter_completes hashMergeBody_works h e
  | updateMomentumSgd r => exact update_completes h e
  | updateAdamw r => exact update_completes h e
  | updateFactored r => exact update_completes h e
  | updateSignMomentum r => exact update_completes h e
  | updateLazy r => exact update_completes h e
  | _ => exact False.elim hc

/-- Settles O10: the work completes, and what it leaves alone is what every compute command leaves alone. -/
theorem computeCompletes : Obligations.ComputeCompletes := by
  intro c s u v t m h e
  obtain ⟨x, t', hx, ht, hw⟩ := workOf_completes h e
  exact ⟨x, t', hx, computeFrame c s x (computes_of_workOf h) hx, ht, hw⟩

/-! ### Collectives, snapshots and their messages -/

/-- A command with collective work runs it as such. -/
theorem exec_collective {c : Instr} {s u : State} {x : CollCtx} {m : M Unit} (h : collectiveOf c s = some (u, x, m)) :
    exec c s = u.runColl s x m := by
  unfold collectiveOf at h
  cases c with
  | allReduce r => exact collect_exec h
  | reduceScatter r => exact collect_exec h
  | allGather r => exact collect_exec h
  | allToAll r => exact collect_exec h
  | allToAllv r => exact collect_exec h
  | allToAllvReverse r => exact collect_exec h
  | broadcast r => exact collect_exec h
  | permute r => exact collect_exec h
  | barrier r => exact collect_exec h
  | reduce p v => exact messageJob_exec h
  | place p v => exact messageJob_exec h
  | counts p v => exact messageJob_exec h
  | barrierUp p v => exact messageJob_exec h
  | barrierDown p v => exact messageJob_exec h
  | snapshot r => exact snap_exec h
  | midnightWrite r => exact snap_exec h
  | midnightClose r => exact snap_exec h
  | _ => cases h

/-- Settles O52: the two ends of collective work. -/
theorem collectivesComplete : Obligations.CollectivesComplete := by
  intro c s u v x m h
  rw [exec_collective h]
  exact runColl_ends

/-! ### Messages screened before they reach a task -/

/-- Beside ready, each of the six kinds is handled by the one operation on messages. -/
theorem exec_message {c : Instr} {p v k : Nat} (s : State) (h : collectiveMessage c = some (p, v, k)) :
    (k = 1 ∧ exec c s = execReady p v s) ∨ (k ≠ 1 ∧ ∃ act, exec c s = s.onMessage p v k act) := by
  cases c with
  | ready p v => cases h; exact .inl ⟨rfl, rfl⟩
  | reduce p v => cases h; exact .inr ⟨by decide, _, rfl⟩
  | place p v => cases h; exact .inr ⟨by decide, _, rfl⟩
  | counts p v => cases h; exact .inr ⟨by decide, _, rfl⟩
  | barrierUp p v => cases h; exact .inr ⟨by decide, _, rfl⟩
  | barrierDown p v => cases h; exact .inr ⟨by decide, _, rfl⟩
  | _ => cases h

/-- A message of another placement epoch is dropped and counted (R62). -/
theorem exec_stale {c : Instr} {p v k : Nat} {s : State} {m : Msg} (h : collectiveMessage c = some (p, v, k))
    (hm : s.frontMsg p v = some m) (hk : hdrKind m.header = k) (he : hdrEpoch m.header ≠ s.obj oPlacementEpoch) :
    exec c s = .next (if k = 1 then (s.dropFront p m).noteStale.freeBuffer p v else (s.dropFront p m).noteStale) := by
  rcases exec_message s h with ⟨rfl, e⟩ | ⟨n, act, e⟩
  · rw [e, if_pos rfl]; exact ready_stale hm hk he
  · rw [e, if_neg n]; exact screen_stale hm hk he

/-- A message that a debt expects is charged to it (R366). -/
theorem exec_debt {c : Instr} {p v k : Nat} {s : State} {m : Msg} {d : Debt} (h : collectiveMessage c = some (p, v, k))
    (hm : s.frontMsg p v = some m) (hk : hdrKind m.header = k) (he : hdrEpoch m.header = s.obj oPlacementEpoch)
    (hd : s.debt? k (readColl m).1 (readColl m).2.rank = some d) :
    ∃ position offset bytes, exec c s = .next (if k = 1 then
      ((s.dropFront p m).charge d k position offset bytes).freeBuffer p v
      else (s.dropFront p m).charge d k position offset bytes) := by
  rcases exec_message s h with ⟨rfl, e⟩ | ⟨n, act, e⟩
  · exact ⟨0, 0, [], by rw [e, if_pos rfl]; exact ready_debt hm hk he hd⟩
  · exact ⟨_, _, _, by rw [e, if_neg n]; exact screen_debt hm hk he hd⟩

/-- Settles O54: stale messages, debts and readies, each by its own lemma. -/
theorem messagesAreScreened : Obligations.MessagesAreScreened := by
  intro c p v k s m sound h hm hk
  refine ⟨fun he => ?_, fun d he hd => ?_, fun k1 he hd => ?_⟩
  · obtain ⟨count, objs, ports, colls, sched, mem, -⟩ := noteStale_parts (s := s.dropFront p m) sound.objs
    exact ⟨_, exec_stale h hm hk he, count, objs, ports, colls, sched, mem⟩
  · obtain ⟨position, offset, bytes, e⟩ := exec_debt h hm hk he hd
    obtain ⟨ports, tasks, readies, sched⟩ := charge_parts (s.dropFront p m) d k position offset bytes
    exact ⟨_, e, ports, tasks, readies, sched⟩
  · subst k1
    have e : exec c s = execReady p v s := by
      rcases exec_message s h with ⟨-, e⟩ | ⟨n, -⟩
      · exact e
      · exact absurd rfl n
    rw [e, ready_held hm hk he hd]
    refine ⟨fun room => ?_, fun full => if_pos full⟩
    rw [if_neg (Nat.not_le.2 room)]
    exact ⟨_, rfl, rfl, rfl, rfl, rfl, rfl⟩

end Sys2Proof.Safety
end

section
/-! PROOFS. The statements of 02_tick_and_step_programs.md: the tick counter, the switches, the step tick limit, and the
release point. -/

namespace Sys2Proof.Safety

open Sys2Proof.Machine

/-! ### The tick counter -/

/-- The value the counter takes at a boundary (R36, R316). -/
def nextTick (s : State) : Nat := (max s.tick (s.timing.jump.getD 0) + 1) % 2 ^ 64

/-- The counts that a boundary keeps of its own corrections. -/
def tickCounts (k : Nat) : Prop := k = oTickJumps ∨ k = oTimeSlewTicks

/-- Counting where a condition holds changes that count alone, and the scheduler not at all. -/
theorem countIf_only {f : Nat → Prop} {s t : State} {k : Nat} {c : Prop} [Decidable c] (h : Only f s t) (i : f k) :
    Only f s (if c then t.count k else t) ∧ (if c then t.count k else t).sched = t.sched := by
  split
  · exact ⟨h.count i, count_out⟩
  · exact ⟨h, rfl⟩

/-- Once the counter is set, a boundary changes no object but its two counts; and the tick's length is added. -/
theorem advanceTick_counts {s : State} (h : Rising s.dict.objs) :
    Only tickCounts (s.setObj oTickCounter (nextTick s)) s.advanceTick ∧
      s.advanceTick.sched.boundaryAclk = s.sched.boundaryAclk + s.sched.tickLength := by
  unfold State.advanceTick
  extract_lets now
  split
  rename_i base jumped hb
  extract_lets counted corrected sched measured slews slewed timing
  have hs : counted = s.setObj oTickCounter (nextTick s) := by
    unfold counted nextTick
    cases hj : s.timing.jump with
    | none => rw [hj] at hb; cases hb; simp [now]
    | some c => rw [hj] at hb; cases hb; rfl
  have start : Only tickCounts counted counted := .refl (by rw [hs]; exact rising_setObj h)
  obtain ⟨jumps, keeps⟩ := countIf_only (c := jumped = true ∨ counted.timing.corrective.isSome = true) start
    (.inl rfl)
  obtain ⟨slew, keeps'⟩ := countIf_only (c := slews = true) (jumps.same (u := measured) rfl) (.inr rfl)
  rw [← hs]
  refine ⟨slew.same rfl, (congrArg Sched.boundaryAclk keeps').trans ?_⟩
  show corrected.sched.boundaryAclk + corrected.sched.tickLength = _
  rw [show corrected.sched = counted.sched from keeps]
  rfl

/-- Settles O12: the value of the counter is set first, and the counts that follow leave it. -/
theorem tickCounterCounts : Obligations.TickCounterCounts := by
  intro s sound
  obtain ⟨counts, aclk⟩ := advanceTick_counts sound.objs
  refine ⟨?_, aclk, fun k n1 n2 n3 => ?_⟩
  · have kept : s.advanceTick.tick = (s.setObj oTickCounter (nextTick s)).tick :=
      counts.objs _ (by unfold tickCounts; decide)
    rw [kept]
    exact (obj_setObj sound.objs).trans (if_pos rfl)
  · rw [counts.objs k (by rintro (e | e) <;> contradiction)]
    exact obj_setObj_ne sound.objs n1

/-! ### The switches -/

/-- A period switch changes the period alone among objects; in RUNNING it leaves undefined results in memory (R38). -/
theorem switchPeriod_frame {s : State} {n : Nat} (h : Rising s.dict.objs) (e : s.sched.periodNext = some n) :
    s.switchPeriod.obj oTickPeriodLog2 = n ∧ s.switchPeriod.sched.periodNext = none ∧
      ∀ k, k ≠ oTickPeriodLog2 → s.switchPeriod.obj k = s.obj k := by
  have written : ∀ x : State, Scrambles s x → ∀ k,
      (x.setObj oTickPeriodLog2 n).obj k = if k = oTickPeriodLog2 then n else s.obj k := by
    intro x hx k
    rw [obj_setObj (by rw [hx.dict]; exact h), hx.obj]
  have scrambled : Scrambles s (if s.running then s.scrambleJob else s) := by
    split
    · exact scrambleJob_scrambles s
    · exact .refl s
  unfold State.switchPeriod
  rw [e]
  exact ⟨(written _ scrambled _).trans (if_pos rfl), rfl, fun k hk => (written _ scrambled _).trans (if_neg hk)⟩

/-- The one set of a group that only sets its objects, as it takes effect. -/
theorem applyDue_setActive {s : State} {p : CommitSet → Bool} {c : CommitSet} (h : Rising s.dict.objs)
    (n : (c.vals.map (·.1)).Nodup) (one : s.dict.committed.filter p = [c])
    (sets : ∀ x : State, x.applySet c = x.setActive c.vals) :
    (∀ k v, mapFind c.vals k = some v → (s.applyDue p).obj k = v) ∧
      (∀ k, k ∉ c.vals.map (·.1) → (s.applyDue p).obj k = s.obj k) ∧
      (s.applyDue p).dict.committed = s.dict.committed.filter fun d => !p d := by
  rw [applyDue_one one, sets]
  exact ⟨fun k v e => setActive_some h n e, fun k hk => setActive_none h hk, setActive_dict⟩

/-- What follows new ranks leaves: the timing tree and the measurements are formed anew, and invalid ranks have undefined
results in memory. -/
theorem followRanks_frame {s : State} (h : Rising s.dict.objs) :
    s.placeInTree.checkRanks.refreshMeasurements.dict.committed = s.dict.committed ∧
      ∀ k, k ∉ [oTimeReferenceRank, oTimeDistance, oTimeParentPort, oMeasurement4, oMeasurement6] →
        s.placeInTree.checkRanks.refreshMeasurements.obj k = s.obj k := by
  obtain ⟨rising, placed, tree⟩ := placeInTree_frame h
  have ranks := checkRanks_scrambles s.placeInTree
  obtain ⟨measured, others⟩ := refresh_frame (s := s.placeInTree.checkRanks) (by rw [ranks.dict]; exact rising)
  refine ⟨measured.trans ((congrArg Dict.committed ranks.dict).trans placed), fun k hk => ?_⟩
  simp only [List.mem_cons, List.not_mem_nil, or_false, not_or] at hk
  obtain ⟨n1, n2, n3, n4, n5⟩ := hk
  exact (others k n4 n5).trans ((ranks.obj k).trans (tree k n1 n2 n3))

/-- The effect of group 0x4110 on rank, rank count and route table (R307). -/
theorem applySet_routes {s : State} {c : CommitSet} {rank count table : Nat} (h : Rising s.dict.objs)
    (g : c.group = 0x4110) (n : (c.vals.map (·.1)).Nodup) (e1 : mapFind c.vals oRankNext = some rank)
    (e2 : mapFind c.vals oRankCountNext = some count) (e3 : mapFind c.vals oRouteTableNext = some table) :
    (s.applySet c).obj oLogicalRank = rank ∧ (s.applySet c).obj oRankCount = count ∧
      (s.applySet c).obj oRouteTableActive = table ∧ (s.applySet c).dict.committed = s.dict.committed := by
  have r0 : Rising (s.setActive c.vals).dict.objs := setActive_rising h
  have r1 := rising_setObj (k := oLogicalRank) (v := (s.setActive c.vals).obj oRankNext) r0
  have r2 := rising_setObj (k := oRankCount) (v := (s.setActive c.vals).obj oRankCountNext) r1
  have r3 := rising_setObj (k := oRouteTableActive) (v := (s.setActive c.vals).obj oRouteTableNext) r2
  obtain ⟨committed, kept⟩ := followRanks_frame r3
  rw [applySet_4110 g]
  refine ⟨(kept _ (by decide)).trans ?_, (kept _ (by decide)).trans ?_, (kept _ (by decide)).trans ?_,
    committed.trans setActive_dict⟩
  · rw [obj_setObj r2, obj_setObj r1, obj_setObj r0]
    exact setActive_some h n e1
  · rw [obj_setObj r2, obj_setObj r1]
    exact setActive_some h n e2
  · rw [obj_setObj r2]
    exact setActive_some h n e3

/-- Settles O13: the four switches in turn. -/
theorem switchesTakeEffect : Obligations.SwitchesTakeEffect := by
  refine ⟨fun s n sound e due => ?_, fun s c v sound g nodup one e => ?_,
    fun s c rank count table sound g nodup one e1 e2 e3 => ?_, fun s c v sound g nodup done halt one e => ?_⟩
  · obtain ⟨period, next, objs⟩ := switchPeriod_frame sound.objs e
    have isDue : s.periodDue (s.tick + 1) = true := by simp [State.periodDue, e, due]
    refine ⟨s.switchPeriod, ?_, period, next, objs⟩
    show execPeriodSwitch s = _
    rw [execPeriodSwitch, if_pos isDue]
  · obtain ⟨values, others, committed⟩ := applyDue_setActive sound.objs nodup one fun _ => applySet_2050 g
    exact ⟨_, rfl, values _ _ e, committed, others⟩
  · obtain ⟨h1, h2, h3, h4⟩ := applySet_routes
      (s := { s with dict := { s.dict with
        committed := s.dict.committed.filter fun d => !d.dueFor 0x4110 (s.tick + 1) } }) sound.objs g nodup e1 e2 e3
    refine ⟨_, ?_, h1, h2, h3, h4⟩
    show execRouteSwitch s = _
    rw [execRouteSwitch, applyDue_one one]
  · obtain ⟨values, -, committed⟩ := applyDue_setActive sound.objs nodup one fun _ => applySet_4210 g
    refine ⟨_, ?_, values _ _ e, committed⟩
    show execBatchSwitch s = _
    rw [execBatchSwitch, if_pos ⟨done, by rw [halt]; rfl⟩]

/-! ### The step tick limit -/

/-- A task fault while no halt is pending: it is logged, and its halt is pending (R56). -/
theorem taskFault_frame {s : State} {source unit r cause d : Nat} (h : Rising s.dict.objs) (n : s.sched.halt = none) :
    Only eventObjs s (s.taskFault source unit r cause d) ∧
      (s.taskFault source unit r cause d).sched = { s.sched with halt := some (0x0102, r) } ∧
      (s.taskFault source unit r cause d).dict.log.getLast? =
        some ⟨s.obj oEventSeqNext, s.tick, 0x0102, source, unit, r, cause, d, 0, 0⟩ ∧
      (s.taskFault source unit r cause d).mem = s.mem := by
  obtain ⟨-, log, sched, mem, -⟩ :=
    raise_frame (code := 0x0102) (src := source) (unit := unit) (a := r) (b := cause) (c := d) (d := 0) (e := 0) h
  have objs : Only eventObjs s (s.raise 0x0102 source unit r cause d) := (Only.refl h).raiseE fun _ => id
  have halts : s.taskFault source unit r cause d = { s.raise 0x0102 source unit r cause d with
      sched := { s.sched with halt := some (0x0102, r) } } := by
    unfold State.taskFault State.haltWith
    rw [sched, n]
  rw [halts]
  exact ⟨objs.same rfl, rfl, log, mem⟩

/-- A pending halt that takes effect in RUNNING (R56, Table 2.7). -/
theorem takeHalt_objs {s : State} {cause r : Nat} (h : Rising s.dict.objs) (n : s.sched.halt = some (cause, r))
    (running : s.running = true) :
    s.takeHalt.obj oSchedulerState = 2 ∧ s.takeHalt.obj oHaltRecord = r ∧ s.takeHalt.obj oHaltCause = cause := by
  have halts : ∀ k, s.takeHalt.obj k =
      (((s.setObj oHaltCause cause).setObj oHaltRecord r).setObj oSchedulerState 2).obj k := by
    intro k
    unfold State.takeHalt
    rw [n]
    dsimp only
    split
    · rfl
    · rename_i stopped
      exact absurd running stopped
  have h1 : Rising (s.setObj oHaltCause cause).dict.objs := rising_setObj h
  have h2 : Rising ((s.setObj oHaltCause cause).setObj oHaltRecord r).dict.objs := rising_setObj h1
  refine ⟨?_, ?_, ?_⟩
  · rw [halts, obj_setObj h2]
    rfl
  · rw [halts, obj_setObj h2, obj_setObj h1]
    rfl
  · rw [halts, obj_setObj h2, obj_setObj h1, obj_setObj h]
    rfl

/-- Settles O14: the fault is logged and its halt pending, and the boundary finds the scheduler RUNNING still. -/
theorem stepTickLimitHalts : Obligations.StepTickLimitHalts := by
  intro s sound limit running halt late
  obtain ⟨objs, sched, log, mem⟩ :=
    taskFault_frame (source := 0) (unit := 0) (r := 0xFFFFFFFF) (cause := 0x08) (d := 0) sound.objs halt
  have stillRuns : (s.taskFault 0 0 0xFFFFFFFF 0x08 0).running = true := by
    unfold State.running
    rw [objs.objs _ (by unfold eventObjs; decide)]
    exact running
  obtain ⟨state, record, cause⟩ := takeHalt_objs objs.rising (by rw [sched]) stillRuns
  refine ⟨_, ?_, by rw [sched], log, state, record, cause, by rw [sched], mem⟩
  show execStepTickLimit s = _
  simp [execStepTickLimit, limit, running, halt, late]

/-! ### The release point -/

/-- Settles O17: the phases are released by a map over the tasks. -/
theorem releasePointReleases : Obligations.ReleasePointReleases := by
  intro s
  refine ⟨_, rfl, fun c hc => ?_, ?_, rfl⟩
  · obtain ⟨d, -, rfl⟩ := List.mem_map.1 hc
    rfl
  · exact List.map_map.trans (List.map_congr_left fun _ _ => rfl)

end Sys2Proof.Safety
end

section
/-! PROOFS. The statements of 02_tick_and_step_programs.md: a task's start on its engines, and its completion. -/

namespace Sys2Proof.Safety

open Sys2Proof.Machine

/-! ### Starts -/

/-- A task's starting time on every engine that starts it. -/
theorem mapFind_startTimes {es : List Nat} {m : NatMap} {now e : Nat} :
    mapFind (es.foldl (fun m e => mapInsert m e now) m) e = if e ∈ es then some now else mapFind m e := by
  induction es generalizing m with
  | nil => rfl
  | cons a l ih =>
    rw [List.foldl_cons, ih, mapFind_mapInsert]
    by_cases h1 : e ∈ l <;> by_cases h2 : e = a <;> simp [h1, h2]

/-- Over a usable mesh an engine starts the task it has first. -/
theorem nextOn_usable {cls : EngineClass} {unit phase : Nat} {s : State} {t : Machine.Task}
    (mesh : s.rst.meshStuck = false) (next : s.nextOn cls unit phase = some t) :
    ((s.nextOn cls unit phase).filter fun _ => !s.rst.meshStuck) = some t := by
  rw [next, mesh]
  rfl

/-- A task of no pair that an engine has first starts there. -/
theorem exec_taskStart_single {cls : EngineClass} {unit phase : Nat} {s : State} {t : Machine.Task}
    (mesh : s.rst.meshStuck = false) (next : s.nextOn cls unit phase = some t) (h : pairTask t.image = false) :
    exec (.taskStart cls unit phase) s = .next (s.startOn cls t [unit] phase) := by
  show execTaskStart cls unit phase s = _
  simp [execTaskStart, nextOn_usable mesh next, h]

/-- A task of a pair that both arrays have first starts on both. -/
theorem exec_taskStart_pair {cls : EngineClass} {unit phase : Nat} {s : State} {t v : Machine.Task}
    (mesh : s.rst.meshStuck = false) (next : s.nextOn cls unit phase = some t) (h : pairTask t.image = true)
    (mate : s.nextOn cls (mateOf unit) phase = some v) (same : v.record = t.record) :
    exec (.taskStart cls unit phase) s = .next (s.startOn cls t [unit, mateOf unit] phase) := by
  show execTaskStart cls unit phase s = _
  simp [execTaskStart, nextOn_usable mesh next, h, mate, same]

/-- A start on some engines: the task runs on each of them from this time, or the skew check has refused it. -/
theorem startOn_runs {s : State} {t : Machine.Task} (cls : EngineClass) (es : List Nat) (phase : Nat)
    (h : s.holder? t.record = some t) :
    ((∃ u, (s.startOn cls t es phase).task? t.record = some u ∧ u.image = t.image ∧
        ∀ e ∈ es, e ∉ u.waiting ∧ mapFind u.running e = some (s.sched.boundaryAclk + phase)) ∨
      (recKind t.image = 6 ∧ (s.startOn cls t es phase).task? t.record = none ∧
        (s.startOn cls t es phase).outcome t.record = 2 ∧ (s.startOn cls t es phase).sched.halt.isSome = true)) ∧
    ∀ r, r ≠ t.record →
      ((s.startOn cls t es phase).task? r).map Task.settledPart = (s.task? r).map Task.settledPart := by
  obtain ⟨own, others⟩ := startOn_frame (cls := cls) (es := es) (ph := phase) h (task?_of_holder h rfl) rfl
  refine ⟨own.imp_left ?_, others⟩
  rintro ⟨u, hu, image, waiting, running⟩
  refine ⟨u, hu, image, fun e he => ⟨?_, ?_⟩⟩
  · rw [waiting]
    simp [he]
  · rw [running, mapFind_startTimes, if_pos he]

/-- Settles O15: a start on one engine, and one on both arrays of a pair, which is no update task. -/
theorem taskStartsOnEngine : Obligations.TaskStartsOnEngine := by
  intro cls unit phase s t mesh next holder
  refine ⟨fun single => ?_, fun v pair mate same => ?_⟩
  · obtain ⟨own, others⟩ := startOn_runs cls [unit] phase holder
    refine ⟨_, exec_taskStart_single mesh next single, own.imp_left ?_, others⟩
    rintro ⟨u, hu, image, started⟩
    obtain ⟨waits, runs⟩ := started unit (by simp)
    exact ⟨u, hu, waits, image, runs⟩
  · obtain ⟨own, others⟩ := startOn_runs cls [unit, mateOf unit] phase holder
    rcases own with ⟨u, hu, image, started⟩ | ⟨kind, -⟩
    · obtain ⟨waits, runs⟩ := started unit (by simp)
      obtain ⟨waits', runs'⟩ := started (mateOf unit) (by simp)
      exact ⟨_, u, exec_taskStart_pair mesh next pair mate same, hu, waits, waits', image, runs, runs', others⟩
    · simp [pairTask, kind] at pair

/-! ### Completions -/

/-- Settles O16: the end of the work leaves the placement epoch, and the completion of the state it leaves records the
outcomes. -/
theorem taskCompletionRecordsOutcome : Obligations.TaskCompletionRecordsOutcome := by
  refine ⟨fun r q s v t sound ht kind started work stuck nodup settled partners finish => ?_,
    fun r s t sound ht kind work members => ?_⟩
  · have own := task_record ht
    have works : Works s v := (finishTask_works t).ok (.refl s) finish
    obtain ⟨rising, objs⟩ := works.objs sound.objs
    obtain ⟨gone, outcomes⟩ := complete_frame (s := v) (q := q) rising nodup
    refine ⟨v.complete t q, ?_, by rw [← own]; exact gone, fun p hp => ?_⟩
    · show execTaskCompletion r q s = _
      simp [execTaskCompletion, ht, kind, started, work, stuck, settled, partners, finish]
    · rw [outcomes p hp, objs _ (by decide)]
  · have own := task_record ht
    obtain ⟨gone, outcomes⟩ := complete_frame (s := s) (t := t) (q := noTiming) sound.objs (by simp [members])
    refine ⟨s.complete t noTiming, ?_, by rw [← own]; exact gone, ?_⟩
    · show execJoin r s = _
      simp [execJoin, ht, State.endJoin, kind]
    · rw [← own, outcomes (t.record, t.image) List.mem_cons_self, if_neg (by rw [work]; decide)]

end Sys2Proof.Safety
end

section
/-! PROOFS. The statements of 03_number_formats.md: the codes of the number formats, rounding, and the requests written to
objects. -/

namespace Sys2Proof.Safety

open Sys2Proof.Machine

/-! ### The special codes of Table 3.3 -/

/-- Every floating-point format has an exponent field. -/
theorem floatFmt_ebits_pos {fmt : Nat} {f : FloatFmt} (h : floatFmt? fmt = some f) : 0 < f.ebits := by
  unfold floatFmt? at h
  split at h <;> cases h <;> decide

/-- The formats that Table 3.3 gives infinities. -/
theorem floatFmt_special_zero {fmt : Nat} {f : FloatFmt} (h : floatFmt? fmt = some f)
    (hm : fmt ∈ [0x00, 0x01, 0x02, 0x03, 0x05, 0x0D]) : f.special = 0 := by
  simp only [List.mem_cons, List.not_mem_nil, or_false] at hm
  rcases hm with rfl | rfl | rfl | rfl | rfl | rfl <;> cases h <;> rfl

theorem decodeFloat_of_top {f : FloatFmt} {code : Nat} (h : f.special = 0)
    (top : field code (f.ebits + f.mbits - 1) f.mbits = 2 ^ f.ebits - 1) :
    decodeFloat f code = if code % 2 ^ f.mbits = 0 then .inf (flag code (f.ebits + f.mbits)) else .nan :=
  if_pos ⟨h, top⟩

theorem decodeFloat_of_ones {f : FloatFmt} {code : Nat} (h : f.special = 1)
    (top : field code (f.ebits + f.mbits - 1) f.mbits = 2 ^ f.ebits - 1) (ones : code % 2 ^ f.mbits = 2 ^ f.mbits - 1) :
    decodeFloat f code = .nan :=
  (if_neg fun inf => absurd (h.symm.trans inf.1) (by decide)).trans (if_pos ⟨h, top, ones⟩)

/-- In E4M3 the seven bits below the sign are all ones just where the exponent and the fraction are. -/
theorem decodeFloat_e4m3_nan {code : Nat} (h : code % 128 = 0x7F) : decodeFloat fmtE4M3 code = .nan := by
  have top : field code 6 3 = 15 := by
    unfold field
    rw [Nat.shiftRight_eq_div_pow]
    omega
  have ones : code % 8 = 7 := by omega
  exact decodeFloat_of_ones rfl top ones

theorem decodeFloat_finite {f : FloatFmt} {code e fr : Nat} (he : e = field code (f.ebits + f.mbits - 1) f.mbits)
    (hfr : fr = code % 2 ^ f.mbits) (h0 : ¬(f.special = 0 ∧ e = 2 ^ f.ebits - 1))
    (h1 : ¬(f.special = 1 ∧ e = 2 ^ f.ebits - 1 ∧ fr = 2 ^ f.mbits - 1)) :
    decodeFloat f code = if e = 0 then .fin (flag code (f.ebits + f.mbits)) fr (1 - f.bias - f.mbits)
      else .fin (flag code (f.ebits + f.mbits)) (2 ^ f.mbits + fr) (e - f.bias - f.mbits) := by
  subst he hfr
  exact (if_neg h0).trans (if_neg h1)

/-! ### E8M0 -/

theorem e8m0Value_of_lt {code : Nat} (h : code < 255) : e8m0Value code = .fin false 1 ((code : Int) - 127) := by
  have low : code % 256 = code := Nat.mod_eq_of_lt (by omega)
  unfold e8m0Value
  rw [low, if_neg (by omega)]
  rfl

/-- Settles O7: a code's value by the branches of `decodeFloat`, the canonical NaNs by evaluation, and the code of a code's
value by `codes_agree`. -/
theorem numberCodesAgree : Obligations.NumberCodesAgree := by
  refine ⟨fun fmt code e fr f s hf hs he hfr => ⟨fun special top => ?_, fun e4m3 ones => ?_, fun notTop notOnes => ?_⟩,
    rfl, rfl, rfl, rfl, rfl, rfl, rfl, fun fmt code f hf hc notNan => codes_agree (floatFmt_ebits_pos hf) hc notNan,
    fun code hc => e8m0Value_of_lt hc, rfl, fun _ _ => rfl⟩
  · subst hs he hfr
    exact decodeFloat_of_top (floatFmt_special_zero hf special) top
  · subst e4m3
    cases hf
    exact decodeFloat_e4m3_nan ones
  · obtain ⟨h0, h1⟩ := not_special hf he hfr notTop notOnes
    have value := decodeFloat_finite he hfr h0 h1
    rw [← hs] at value
    exact ⟨fun normal => value.trans (if_neg normal), fun subnormal => value.trans (if_pos subnormal)⟩

/-! ### Rounding -/

theorem roundMult_of_le {u : Option Nat} {m : Nat} {e q : Int} (h : q ≤ e) :
    roundMult u m e q = m * 2 ^ (e - q).toNat :=
  (if_pos h).trans (Nat.shiftLeft_eq _ _)

/-- Without a draw, the next multiple is taken where the remainder is above half the distance, or is half of it below an odd
multiple. -/
theorem roundMult_none {m d : Nat} {e q : Int} (h : e < q) (hd : d = 2 ^ (q - e).toNat) :
    roundMult none m e q = if d < 2 * (m % d) ∨ 2 * (m % d) = d ∧ m / d % 2 = 1 then m / d + 1 else m / d := by
  obtain ⟨n, hn⟩ : ∃ n, (q - e).toNat = n + 1 := ⟨(q - e).toNat - 1, by omega⟩
  unfold roundMult
  simp only [if_neg (Int.not_le.2 h), Nat.shiftRight_eq_div_pow, Nat.shiftLeft_eq, Nat.one_mul, ← Nat.mod_eq_sub_div_mul, ← hd]
  rw [hn, Nat.add_sub_cancel]
  have twice : d = 2 * 2 ^ n := by rw [hd, hn, Nat.pow_succ, Nat.mul_comm]
  exact ite_congr (propext (by omega)) (fun _ => rfl) fun _ => rfl

theorem roundMult_some {u m d : Nat} {e q : Int} (h : e < q) (hd : d = 2 ^ (q - e).toNat) :
    roundMult (some u) m e q = if 65536 ≤ m % d * 65536 / d + u then m / d + 1 else m / d := by
  unfold roundMult
  simp only [if_neg (Int.not_le.2 h), Nat.shiftRight_eq_div_pow, Nat.shiftLeft_eq, ← Nat.mod_eq_sub_div_mul, ← hd]

/-- Settles O8: the remainder below the rounding point says which multiple is nearest. -/
theorem roundingIsNearest : Obligations.RoundingIsNearest := by
  refine ⟨fun u m e q h => roundMult_of_le h, fun m d k e q h hd hk => ?_, fun u m d e q h hd => roundMult_some h hd⟩
  rw [roundMult_none h hd] at hk
  have split : m / d * d + m % d = m := Nat.div_add_mod' m d
  have below : m % d < d := Nat.mod_lt _ (by rw [hd]; exact Nat.two_pow_pos _)
  by_cases up : d < 2 * (m % d) ∨ 2 * (m % d) = d ∧ m / d % 2 = 1
  · rw [if_pos up] at hk
    have next : k * d = m / d * d + d := by rw [hk, Nat.succ_mul]
    omega
  · rw [if_neg up] at hk
    subst hk
    omega

/-! ### Requests written to objects -/

theorem requestCreate_of_waiting {s : State} {v : Nat} (h : ∃ d, AllocReq.creation d ∈ s.mem.queue) :
    s.requestCreate v = s.count oDescriptorRequestsIgnored :=
  if_pos (any_creation.2 h)

theorem requestCreate_of_free {s : State} {v : Nat} (h : ∀ d, AllocReq.creation d ∉ s.mem.queue) :
    s.requestCreate v =
      { s.setObj oDescriptorResult 0xFF with mem := { s.mem with queue := s.mem.queue ++ [.creation v] } } :=
  if_neg fun waiting => (any_creation.1 waiting).elim h

theorem requestAlloc_of_waiting {s : State} {v : Nat} (h : ∃ d, AllocReq.request d ∈ s.mem.queue) :
    s.requestAlloc v = s.count oAllocRequestsIgnored :=
  if_pos (any_request.2 h)

theorem requestAlloc_of_free {s : State} {v : Nat} (h : ∀ d, AllocReq.request d ∉ s.mem.queue) :
    s.requestAlloc v =
      { s.setObj oAllocResult (allocResult 0 0 0xFFFF) with mem := { s.mem with queue := s.mem.queue ++ [.request v] } } :=
  if_neg fun waiting => (any_request.1 waiting).elim h

/-- A counter of 8 bytes counts one after a write was counted, and no other object changes. -/
theorem count_writeBy {s : State} {p : Path} {n key : Nat} (r : Rising s.dict.objs) (size : objSize key = 8)
    (other : key ≠ oHostBytesIn) :
    ((writeBy p n s).count key).mem = s.mem ∧
    ((writeBy p n s).count key).obj key = (s.obj key + 1) % 2 ^ 64 ∧
    ∀ k, k ≠ key → ((writeBy p n s).count key).obj k = (writeBy p n s).obj k := by
  have counted : Rising (writeBy p n s).dict.objs := writeBy_rising r
  obtain ⟨-, mem, -⟩ := writeBy_frame p n s
  refine ⟨addObj_out.2.2.trans mem, ?_, fun k hk => addObj_obj counted hk⟩
  refine (addObj_self counted (by decide)).trans ?_
  rw [size, writeBy_obj r other]

section
variable {s : State} {p : Path} {v : Nat} (r : Rising s.dict.objs)
include r

/-- DESCRIPTOR_CREATE performs the request. -/
theorem exec_descriptorCreate (h : MayWrite s p 0x2180 1) :
    exec (.descriptorCreate p v) s = .next ((writeBy p 8 s).requestCreate (v % 2 ^ 64)) := by
  obtain ⟨create, -⟩ := request_defs
  exact write_row r h create (by decide) rfl (.inl rfl)

/-- ALLOC_REQUEST performs the request. -/
theorem exec_allocRequest (h : MayWrite s p 0x2101 1) :
    exec (.allocRequest p v) s = .next ((writeBy p 16 s).requestAlloc (v % 2 ^ 128)) := by
  obtain ⟨-, alloc, -⟩ := request_defs
  exact write_row r h alloc (by decide) rfl (.inl rfl)

/-- PAGE_QUERY looks the page up. -/
theorem exec_pageQuery (h : MayWrite s p 0x2102 1) :
    exec (.pageQuery p v) s = .next ((writeBy p 8 s).queryPage (v % 2 ^ 64)) := by
  obtain ⟨-, -, query, -⟩ := request_defs
  exact write_row r h query (by decide) rfl (.inl rfl)

/-- STICKY_CLEAR keeps its mask for the boundary. -/
theorem exec_stickyClear (h : MayWrite s p 0x2601 2) :
    exec (.stickyClear p v) s =
      .next { writeBy p 1 s with num := { s.num with stickyClear := s.num.stickyClear ++ [v % 16] } } := by
  obtain ⟨-, -, -, sticky, -⟩ := request_defs
  obtain ⟨-, -, -, -, num, -⟩ := writeBy_frame p 1 s
  have low : v % 256 ^ 1 % 16 = v % 16 := by omega
  rw [← num, ← low]
  exact write_row r h sticky (by decide) rfl (.inl rfl)

end

/-- Settles O20: each write performs its object's request, on the state in which the write has been counted. -/
theorem requestsAreTaken : Obligations.RequestsAreTaken := by
  intro p v s sound
  have r := sound.objs
  have rising : ∀ n, Rising (writeBy p n s).dict.objs := fun n => writeBy_rising r
  have mem : ∀ n, (writeBy p n s).mem = s.mem := fun n => (writeBy_frame p n s).2.1
  have sizes : objSize oDescriptorRequestsIgnored = 8 ∧ objSize oAllocRequestsIgnored = 8 := by
    obtain ⟨-, -, -, -, -, -, -, -, -, -, -, sizes⟩ := request_defs
    exact sizes
  refine ⟨fun may free => ?_, fun may waiting => ?_, fun may free => ?_, fun may waiting => ?_, fun may => ?_, fun may => ?_⟩
  · refine ⟨_, exec_descriptorCreate r may, ?_⟩
    rw [requestCreate_of_free (by rwa [mem]), mem]
    exact ⟨rfl, (obj_setObj (rising 8)).trans (if_pos rfl), fun k hk => obj_setObj_ne (rising 8) hk⟩
  · refine ⟨_, exec_descriptorCreate r may, ?_⟩
    rw [requestCreate_of_waiting (by rwa [mem])]
    exact count_writeBy r sizes.1 (by decide)
  · refine ⟨_, exec_allocRequest r may, ?_⟩
    rw [requestAlloc_of_free (by rwa [mem]), mem]
    have result : ((writeBy p 16 s).setObj oAllocResult (allocResult 0 0 0xFFFF)).obj oAllocResult =
        allocResult 0 0 0xFFFF := (obj_setObj (rising 16)).trans (if_pos rfl)
    exact ⟨rfl, (congrArg (field · 47 32) result).trans (by decide), fun k hk => obj_setObj_ne (rising 16) hk⟩
  · refine ⟨_, exec_allocRequest r may, ?_⟩
    rw [requestAlloc_of_waiting (by rwa [mem])]
    exact count_writeBy r sizes.2 (by decide)
  · refine ⟨_, exec_pageQuery r may, ?_, mem 8, fun k hk => obj_setObj_ne (rising 8) hk⟩
    have entry : (writeBy p 8 s).entry (v % 2 ^ 64 % 2 ^ 48 / pageBytes) = s.entry (v % 2 ^ 48 / 2 ^ 21) := by
      unfold State.entry
      rw [mem, Nat.mod_mod_of_dvd v (by decide)]
      rfl
    exact ((obj_setObj (rising 8)).trans (if_pos rfl)).trans entry
  · exact ⟨_, exec_stickyClear r may, rfl⟩

end Sys2Proof.Safety
end

section
/-! PROOFS. The statements of 06_tensor_descriptors_and_layout.md: when the work of the tasks of the allocator and of the
paging engine completes. -/

namespace Sys2Proof.Safety

open Sys2Proof.Machine

/-- A create operation at the head of the allocator queue (R145) completes as alloc and free do in `alloc_completes`. -/
theorem create_completes {s u v : State} {r : Nat} {t : Machine.Task} {m : M Unit} (h : createJob s r = some (u, t, m))
    (e : m.run u = .ok () v) :
    ∃ t', v.task? t.record = some t' ∧ execCreate r s = .next (v.setTask { t' with work := 1 }) := by
  obtain ⟨due, found, job⟩ := Option.map_eq_some_iff.1 h
  cases job
  obtain ⟨working, form, here, rfl⟩ := dueTask_some found
  simp only [Bool.and_eq_true, beq_iff_eq] at form
  obtain ⟨⟨kind, op⟩, head⟩ := form
  obtain ⟨t', there, run⟩ := runWork_done (outs := []) e (createWork_pages t) here
  have served : execCreate t.record s = runWork s.popAlloc t [] (createWork t) := by
    unfold execCreate
    simp only [working]
    exact if_pos ⟨kind, op, head⟩
  exact ⟨t', there, served.trans run⟩

/-- Settles O33: alloc, free and create by the lemmas on the allocator queue, and each page task by the lemma on what is
done to one page of its range (R284). -/
theorem pagingCompletes : Obligations.PagingCompletes := by
  intro c s u v t m h e
  unfold pagingOf at h
  cases c with
  | alloc r => exact alloc_completes h e
  | free r => exact alloc_completes h e
  | create r => exact create_completes h e
  | promote r => exact page_completes h e fun t p => movePage_pages false t.record p
  | demote r => exact page_completes h e fun t p => movePage_pages true t.record p
  | populate r => exact page_completes h e fun t p => populatePage_pages t.record p
  | discard r => exact page_completes h e fun _ p => discardPage_pages p
  | setPolicy r => exact page_completes h e fun t p => policyPage_pages (recParam t.image 935 934) t.record p
  | _ => cases h

end Sys2Proof.Safety
end

section
/-! PROOFS. The statements of 09_training_numerics.md: the bounds of `Sound` hold after reset, and every step keeps them. -/

namespace Sys2Proof.Safety

open Sys2Proof.Machine

/-- Settles O3: the maps, the lists and the memory that `Sound` bounds are empty after reset. -/
theorem resetIsSound : Obligations.ResetIsSound where
  objs := trivial
  pend := trivial
  cells := rfl
  log := Nat.zero_le _
  fallback := Nat.zero_le _
  readies := Nat.zero_le _

/-- `Sound` bounds nothing of the queue of commands. -/
theorem withPending_sound {s : State} (q : List Instr) (h : Sound s) : Sound (s.withPending q) :=
  ⟨h.objs, h.pend, h.cells, h.log, h.fallback, h.readies⟩

/-- What a step can do: it idles on an empty queue, or takes the command at the queue's front and keeps what every command
keeps of the state with the queue's rest. -/
theorem step_cases {s t : State} (e : step s = .next t) :
    (s.pending = [] ∧ t = s) ∨ ∃ c rest, s.pending = c :: rest ∧ Keeps (s.withPending rest) t := by
  unfold step at e
  split at e
  case h_1 empty =>
    cases e
    exact .inl ⟨empty, rfl⟩
  case h_2 c rest front => exact .inr ⟨c, rest, front, (exec_keeps (.refl _) c).of e⟩

/-- Settles O4: an idle step changes nothing, and any other keeps what its command keeps, the bounds of `Sound` among it. -/
theorem stepsKeepSound : Obligations.StepsKeepSound := by
  intro s t sound e
  obtain ⟨-, rfl⟩ | ⟨c, rest, -, keeps⟩ := step_cases e
  · exact sound
  · exact keeps.sound (withPending_sound rest sound)

end Sys2Proof.Safety
end

section
/-! PROOFS. The statements of 10_memory_hierarchy.md: what paging may change, the allocator's queue, migrations, and
promotion, halving and scrubbing. -/

namespace Sys2Proof.Safety

open Sys2Proof.Machine

/-! ### What paging may change -/

/-- What a command of the allocator or the paging engine does: it answers a next state, which keeps what `Pages` names. The
other commands fall to the hypothesis, which is false of each of them. -/
theorem exec_pages {s0 s : State} {c : Instr} (hc : PagingCommand c) (h : Pages s0 s) : PassO (Pages s0) (exec c s) := by
  cases c with
  | alloc r => exact execAlloc_pages r h
  | free r => exact execFree_pages r h
  | create r => exact execCreate_pages r h
  | allocatorQueueService => exact execAllocatorQueueService_pages h
  | promote r => exact execPromote_pages r h
  | demote r => exact execDemote_pages r h
  | populate r => exact execPopulate_pages r h
  | discard r => exact execDiscard_pages r h
  | setPolicy r => exact execSetPolicy_pages r h
  | migrationStart page => exact execMigrationStart_pages page h
  | migrationCopyDone page => exact execMigrationCopyDone_pages page h
  | autoPromote page => exact execAutoPromote_pages page h
  | accessCountHalving => exact execAccessCountHalving_pages h
  | scrubPass stack reports => exact execScrubPass_pages stack reports h
  | _ => exact False.elim hc

/-- Settles O32: the command starts from the state itself, of which nothing has changed yet. -/
theorem pagingFrame : Obligations.PagingFrame := by
  intro c s t hc e
  have passes : PassO (Pages s) (exec c s) := exec_pages hc (.refl s)
  exact passes.of e

/-! ### The allocator's queue -/

/-- A request of the host at the head of the queue is performed, unless it waits for a migration (R271, R272). -/
theorem exec_allocatorQueueService {s : State} {v : Nat} (head : s.mem.queue.head? = some (.request v))
    (free : s.allocWaits (objectAlloc v) = false) :
    exec .allocatorQueueService s = .next ((s.popAlloc.allocPerform (objectAlloc v) 0xFFFFFFFF).2.setObj oAllocResult
      (s.popAlloc.allocPerform (objectAlloc v) 0xFFFFFFFF).1) := by
  have served : s.serveRequest v = (s.popAlloc.allocPerform (objectAlloc v) 0xFFFFFFFF).2.setObj oAllocResult
      (s.popAlloc.allocPerform (objectAlloc v) 0xFFFFFFFF).1 := by
    unfold State.serveRequest
    exact if_neg (by rw [free]; decide)
  show execAllocatorQueueService s = _
  unfold execAllocatorQueueService
  rw [head, ← served]

theorem objectAlloc_op {v : Nat} : (objectAlloc v).op = if v % 256 = 3 then 0 else v % 256 := rfl

/-- Settles O34: `alloc_result` is set last, and holds the code of the first condition of R270 that fails. -/
theorem allocatorServesHead : Obligations.AllocatorServesHead := by
  intro v s sound
  refine ⟨fun head free => ?_, fun empty => ?_⟩
  · have rising : Rising (s.popAlloc.allocPerform (objectAlloc v) 0xFFFFFFFF).2.dict.objs :=
      ((allocPerform_pages _ _ (popAlloc_pages (.refl s))).objs sound.objs).1
    have answer := (obj_setObj (k := oAllocResult) (key := oAllocResult)
      (v := (s.popAlloc.allocPerform (objectAlloc v) 0xFFFFFFFF).1) rising).trans (if_pos rfl)
    refine ⟨_, exec_allocatorQueueService head free, answer, fun op dead => ?_, fun op order => ?_, fun op => ?_⟩
    · rw [answer]
      exact allocPerform_code (allocCode_free (by rw [objectAlloc_op, op]; rfl) dead) (by decide) (by decide)
    · rw [answer]
      exact allocPerform_code (allocCode_range (.inr ⟨by rw [objectAlloc_op, op]; rfl, order⟩)) (by decide) (by decide)
    · rw [answer]
      have reserved : (objectAlloc v).op = 0 := by rw [objectAlloc_op]; split <;> omega
      exact allocPerform_code (allocCode_range (.inl (by omega))) (by decide) (by decide)
  · show execAllocatorQueueService s = _
    unfold execAllocatorQueueService
    rw [empty]
    rfl

/-! ### Migrations -/

theorem refreshMigrating_frame {s : State} (r : Rising s.dict.objs) :
    s.refreshMigrating.mem = s.mem ∧ s.refreshMigrating.obj oMigratingNow = s.mem.migrations.length :=
  ⟨rfl, (obj_setObj r).trans (if_pos rfl)⟩

theorem setEntry_entry {s : State} {page v : Nat} : (s.setEntry page v).entry page = v := mapGet_mapPut.trans (if_pos rfl)

/-- The entry of a page whose migration begins (Table 10.14 step 1). -/
def movingEntry (m : Migration) : Nat :=
  mkEntry 3 m.policy m.toFar (entCount m.old) (entSlot m.old) true (entLocation m.old)

theorem entState_movingEntry {m : Migration} (h : m.policy < 4) : entState (movingEntry m) = 3 :=
  entState_mk (by decide) h field_lt field_lt field_lt

/-- The state in which a migration has begun, but for `migrating_now`: no translation of its page is held any more, and
the lines of a page that leaves near memory are written back. -/
def beginMigration (x : State) (m : Migration) : State :=
  let y := (x.setEntry m.page (movingEntry m)).shootdown m.page
  let z := if m.toFar then y.dropLines (fun l => l / 8192 == entLocation m.old) true else y
  { z with mem := { z.mem with migrations := z.mem.migrations ++ [m] } }

theorem beginMigration_frame {x : State} {m : Migration} :
    entState ((beginMigration x m).entry m.page) = entState (movingEntry m) ∧
    (beginMigration x m).mem.migrations = x.mem.migrations ++ [m] ∧
    (beginMigration x m).mem.asks = x.mem.asks ∧ Pages x (beginMigration x m) := by
  unfold beginMigration
  extract_lets y z
  obtain ⟨migrations, asks, places⟩ := shootdown_mem (s := x.setEntry m.page (movingEntry m)) (p := m.page)
  obtain ⟨xmigrations, xasks⟩ := setEntry_mem (s := x) (p := m.page) (e := movingEntry m)
  have state : entState (y.entry m.page) = entState (movingEntry m) :=
    (entState_place (places m.page)).trans (congrArg entState setEntry_entry)
  have paged : Pages x y := shootdown_pages _ (setEntry_pages _ _ (.refl x))
  have cleaned : z.mem.migrations = y.mem.migrations ∧ z.mem.asks = y.mem.asks ∧ z.mem.pages = y.mem.pages := by
    unfold z
    split
    · exact dropLines_mem
    · exact ⟨rfl, rfl, rfl⟩
  obtain ⟨zmigrations, zasks, zpages⟩ := cleaned
  have zentry : z.entry m.page = y.entry m.page := congrArg (mapGet 0 · m.page) zpages
  have zpaged : Pages x z := Pass.ite (P := Pages x) (dropLines_pages _ _ paged) paged
  clear_value z
  exact ⟨(congrArg entState zentry).trans state, congrArg (· ++ [m]) (zmigrations.trans (migrations.trans xmigrations)),
    zasks.trans (asks.trans xasks), zpaged.upd rfl rfl rfl rfl rfl rfl rfl⟩

/-- What MIGRATION_START does for an ask that may begin (R281–R283). -/
theorem exec_migrationStart {page f : Nat} {ask : MigrationAsk} {s x : State}
    (asked : s.mem.asks.find? (·.page == page) = some ask) (mesh : s.rst.meshStuck = false)
    (wanted : ask.asker.isSome = true ∨ entPolicy (s.entry page) = 2)
    (free : s.mem.migrations.length < s.obj oMigrationsMax) (still : s.migrating page = false)
    (tier : entState (s.entry page) = (if ask.toFar then 1 else 2))
    (target : State.takeTarget { s with mem := { s.mem with asks := s.mem.asks.erase ask } } page ask.toFar = some (f, x)) :
    exec (.migrationStart page) s =
      .next (beginMigration x ⟨page, s.entry page, ask.toFar, ask.policy, f, ask.asker⟩).refreshMigrating := by
  have runs : ¬ (s.mem.migrations.length ≥ s.obj oMigrationsMax ∨ s.migrating page = true ∨ s.rst.meshStuck = true) := by
    rw [still, mesh]
    simpa using free
  have unpinned : ¬ (ask.asker.isNone = true ∧ entPolicy (s.entry page) ≠ 2) := by
    rintro ⟨unowned, other⟩
    rcases wanted with owned | hot
    · rw [Option.isNone_iff_eq_none.1 unowned] at owned
      cases owned
    · exact other hot
  show execMigrationStart page s = _
  unfold execMigrationStart
  rw [asked]
  refine (if_neg runs).trans ((if_neg (Decidable.not_not.2 tier)).trans ((if_neg unpinned).trans ?_))
  rw [target]
  rfl

/-- The end of a page's migration: nothing but a refusal or poison may have been noted before it. -/
theorem exec_migrationCopyDone {page : Nat} {s : State} (mesh : s.rst.meshStuck = false)
    (moving : s.migrating page = true) :
    ∃ y m ok, exec (.migrationCopyDone page) s = .next (State.endMigration y m ok) ∧ m.page = page ∧ Pages s y ∧
      y.mem.migrations = s.mem.migrations := by
  obtain ⟨m, found⟩ : ∃ m, s.mem.migrations.find? (fun m => m.page == page && !s.rst.meshStuck) = some m := by
    rw [← Option.isSome_iff_exists, List.find?_isSome]
    obtain ⟨m, there, here⟩ := List.any_eq_true.1 moving
    exact ⟨m, there, by rw [mesh]; simpa using here⟩
  have here : m.page = page := by simpa [mesh] using List.find?_some found
  show ∃ y m ok, execMigrationCopyDone page s = _ ∧ _
  unfold execMigrationCopyDone
  rw [found]
  dsimp -zeta only
  extract_lets src h right granted y
  have denied : Pages s y ∧ y.mem.migrations = s.mem.migrations := by
    unfold y
    split
    · exact ⟨.refl s, rfl⟩
    · exact ⟨noteDenied_pages _ _ _ _ (.refl s), works_migrations (noteDenied_works _ _ _ _ (.refl s))⟩
  obtain ⟨paged, migrations⟩ := denied
  clear_value y
  split
  · exact ⟨y, m, granted, rfl, here, paged, migrations⟩
  · refine ⟨_, m, false, rfl, here, ?_, ?_⟩
    · exact Pass.ite (P := Pages s) paged (setObj_pages _ _ (count_pages _ paged (by decide)) (by decide))
    · split
      · exact migrations
      · exact (congrArg Mem.migrations count_places).trans migrations

/-- Settles O35: what begins a migration adds it at the end of the list, what ends one takes its page's out, and either
way `migrating_now` is counted from the list last. -/
theorem migrationsBeginAndEnd : Obligations.MigrationsBeginAndEnd := by
  refine ⟨fun page f ask s x sound asked mesh wanted policy free still tier target => ?_, fun page s sound mesh moving => ?_⟩
  · obtain ⟨migrations, asks⟩ := takeTarget_mem target
    obtain ⟨state, begun, left, paged⟩ := beginMigration_frame (x := x)
      (m := ⟨page, s.entry page, ask.toFar, ask.policy, f, ask.asker⟩)
    have rising : Rising x.dict.objs := ((takeTarget_pages _ _ (.refl _) target).objs sound.objs).1
    obtain ⟨-, now⟩ := refreshMigrating_frame (paged.objs rising).1
    rw [migrations] at begun
    exact ⟨_, exec_migrationStart asked mesh wanted free still tier target, state.trans (entState_movingEntry policy), begun,
      left.trans asks, now.trans (by rw [begun, List.length_append]; rfl)⟩
  · obtain ⟨y, m, ok, run, rfl, paged, moves⟩ := exec_migrationCopyDone mesh moving
    obtain ⟨z, ended, left, zpages⟩ := endMigration_mem (s := y) (m := m) (ok := ok)
    obtain ⟨-, now⟩ := refreshMigrating_frame ((paged.trans zpages).objs sound.objs).1
    rw [moves] at left
    rw [ended] at run
    refine ⟨_, run, ?_, left, now⟩
    show z.mem.migrations.any (·.page == m.page) = false
    rw [left]
    simp

/-! ### Promotion, halving, scrubbing -/

/-- A frame that is free is asked for at once (R283). -/
theorem exec_autoPromote {page f : Nat} {b : Bool} {s : State} (far : entState (s.entry page) = 2)
    (hot : entPolicy (s.entry page) = 2) (often : s.obj oPromoteThreshold ≤ entCount (s.entry page))
    (new : ∀ a ∈ s.mem.asks, a.page ≠ page)
    (found : s.findNear (s.pagePlacement page) (entSlot (s.entry page)) (s.pageIndex page) page = some (f, b)) :
    exec (.autoPromote page) s =
      .next { s with mem := { s.mem with asks := s.mem.asks ++ [⟨page, false, 2, none⟩] } } := by
  have unasked : ¬ (s.mem.asks.any (·.page == page) = true) := by simpa using new
  have due : ¬ (entState (s.entry page) ≠ 2 ∨ entPolicy (s.entry page) ≠ 2 ∨
      entCount (s.entry page) < s.obj oPromoteThreshold ∨ s.mem.asks.any (·.page == page) = true) := by
    rintro (h | h | h | h)
    · exact h far
    · exact h hot
    · omega
    · exact unasked h
  show execAutoPromote page s = _
  unfold execAutoPromote
  refine (if_neg due).trans ?_
  extract_lets pl
  rw [found]

/-- What R278 makes of an entry when the window has passed. -/
def halved (e : Nat) : Nat :=
  if entPolicy e = 2 ∧ entState e ≠ 0 then setField e 58 43 (entCount e / 2) else e

theorem exec_accessCountHalving {s : State} (on : s.obj oHotWindowTicks ≠ 0)
    (due : s.mem.lastHalving + s.obj oHotWindowTicks ≤ s.tick) :
    exec .accessCountHalving s = .next { s with mem := { s.mem with
      pages := s.mem.pages.map fun q => (q.1, halved q.2), lastHalving := s.tick } } := by
  have each : (fun q : Nat × Nat => if entPolicy q.2 = 2 ∧ entState q.2 ≠ 0 then
      (q.1, setField q.2 58 43 (entCount q.2 / 2)) else q) = fun q => (q.1, halved q.2) := by
    funext q
    unfold halved
    split <;> rfl
  show execAccessCountHalving s = _
  unfold execAccessCountHalving
  rw [← each]
  exact if_neg (by omega)

/-- An absent page's entry is 0, which halving leaves as it is. -/
theorem mapGet_halved {m : List (Nat × Nat)} {p : Nat} :
    mapGet 0 (m.map fun q => (q.1, halved q.2)) p = halved (mapGet 0 m p) := by
  unfold mapGet
  rw [mapFind_map]
  cases mapFind m p with
  | none => rfl
  | some e => rfl

/-- The state in which a scrub has met again what was poisoned before in the stack. -/
def metAgain (stack : Nat) (s : State) : State :=
  (s.poisonIn stack).foldl (fun s p => s.uncorrected (poisonLocation p) 0xFFFFFFFF) s

theorem exec_scrubPass {stack : Nat} {r : EccReport} {s : State} (h : stack < 20) :
    exec (.scrubPass stack [r]) s = .next ((metAgain stack s).scrubError stack r) := by
  show execScrubPass stack [r] s = _
  exact if_neg (Nat.not_le.2 h)

theorem sramTask_congr {s t : State} {r : EccReport} (h : t.sched = s.sched) : t.sramTask r = s.sramTask r := by
  unfold State.sramTask State.task?
  rw [h]

/-- Settles O36: the atoms found poisoned again change no memory and no task, so a report falls on the state as the scrub
met it. -/
theorem pagingUpkeep : Obligations.PagingUpkeep := by
  refine ⟨fun page f b s far hot often new found => exec_autoPromote far hot often new found, fun s on due => ?_,
    fun stack r s sound within => ?_⟩
  · exact ⟨_, exec_accessCountHalving on due, rfl, fun p => mapGet_halved⟩
  · obtain ⟨rising, mem, sched, met, location, corrected⟩ := again_facts (s.poisonIn stack) sound.objs
    refine ⟨fun double kind => ?_, fun q double kind task => ?_, fun single => ?_⟩
    · obtain ⟨poison, count, last, cells⟩ := scrub_double (stack := stack) rising double kind
      refine ⟨_, exec_scrubPass within, poison, count.trans ?_, last.trans (location _ _), cells.trans (congrArg Mem.cells mem)⟩
      rw [← Nat.mod_add_mod, met, Nat.mod_add_mod]
    · obtain ⟨fails, halts⟩ := scrub_sram (stack := stack) rising double kind ((sramTask_congr sched).trans task)
      exact ⟨_, exec_scrubPass within, fails, halts⟩
    · obtain ⟨kept, count, last⟩ := scrub_single (stack := stack) rising single
      exact ⟨_, exec_scrubPass within, kept.trans mem, count.trans (by rw [corrected]), last.trans (location _ _)⟩

end Sys2Proof.Safety
end

section
/-! PROOFS. The statements of 10_memory_hierarchy.md: the links of far memory, and the host's accesses through BAR2. -/

namespace Sys2Proof.Safety

open Sys2Proof.Machine

/-! ### Far links -/

/-- The ends of a far link: each takes the port DOWN with the cause it names. -/
theorem exec_farDown {h n : Nat} {c : Instr} {s : State} (hh : h < 4)
    (ends : (c = .farLinkLoss h n ∧ (n = 1 ∨ n = 3) ∧ (s.farPort h).state = 4) ∨
      (c = .farRequestTimeout h ∧ n = 2 ∧ (s.farPort h).state = 4) ∨
      (c = .farRetrain h none ∧ n = 1 ∧ (s.farPort h).state ≠ 4 ∧ s.rst.inReset = false)) :
    exec c s = .next (s.farDown h n) := by
  rcases ends with ⟨rfl, cause, up⟩ | ⟨rfl, rfl, up⟩ | ⟨rfl, rfl, down, out⟩
  · exact if_pos ⟨hh, up, cause⟩
  · exact if_pos ⟨hh, up⟩
  · exact if_pos ⟨hh, down, .inl (by rw [out]; rfl)⟩

/-- A training that finds an expander and does not refuse it (R413, R415). -/
theorem exec_farRetrain_up {h : Nat} {f : FarFound} {s : State} (hh : h < 4) (down : (s.farPort h).state ≠ 4)
    (out : s.rst.inReset = false) (taken : s.farRefused h f = false) :
    exec (.farRetrain h (some f)) s = .next (s.farUp h f) := by
  have trained : s.farTrain h (some f) = s.farUp h f := if_neg (by rw [taken]; decide)
  rw [← trained]
  exact if_pos ⟨hh, down, .inl (by rw [out]; rfl)⟩

/-- Settles O42: each end of a far link is `State.farDown` with its cause, and a training that is not refused is
`State.farUp`. -/
theorem farLinkChanges : Obligations.FarLinkChanges := by
  intro h s sound hh
  refine ⟨fun c n ends => ?_, fun f down out taken => ?_⟩
  · obtain ⟨-, states, others, event⟩ := farDown_frame (cause := n) sound.objs hh
    exact ⟨_, exec_farDown hh ends, states, others, farDown_cells sound.objs, event⟩
  · exact ⟨_, exec_farRetrain_up hh down out taken, farUp_frame sound.objs hh⟩

/-! ### The host's accesses -/

theorem hostUnsupported_counted {s : State} (r : Rising s.dict.objs) :
    (s.count oHostUnsupported).obj oHostUnsupported = (s.obj oHostUnsupported + 1) % 2 ^ 64 :=
  (addObj_self r (by decide)).trans (by rw [show objSize oHostUnsupported = 8 by decide +kernel])

theorem hostCompletion_frame {s : State} {bs : List Byte} :
    (s.complete_ bs).mem = s.mem ∧ (s.complete_ bs).out = s.out ++ [.completion bs] := by
  obtain ⟨mem, out⟩ := addObj_clear (x := s) (k := oHostBytesOut) (n := bs.length)
  exact ⟨mem, congrArg (· ++ [Out.completion bs]) out⟩

theorem hostUnkeyed_frame {s : State} {va kind : Nat} :
    (s.hostUnkeyed va kind).mem.cells = s.mem.cells ∧ (s.hostUnkeyed va kind).out = s.out := by
  obtain ⟨mem, out⟩ := addObj_clear (x := s.noteDenied 4 0 va kind) (k := oPageAbsentAccesses) (n := 1)
  obtain ⟨cells, out'⟩ := noteDenied_mem (s := s) (cls := 4) (unit := 0) (address := va) (kind := kind)
  exact ⟨(congrArg Mem.cells mem).trans cells, out.trans out'⟩

section
variable {ide : Bool} {off : Nat} {s : State} (serves : s.hostMemory = true)
include serves

theorem exec_hostBar2Read_past {n : Nat} (past : s.bar2Bytes < off + n) :
    exec (.hostBar2Read ide off n) s = .next ((s.count oHostUnsupported).emit .unsupported) :=
  (if_neg (by rw [serves]; decide)).trans (if_pos past)

theorem exec_hostBar2Write_past {bs : List Byte} (past : s.bar2Bytes < off + bs.length) :
    exec (.hostBar2Write ide off bs) s = .next (s.count oHostUnsupported) :=
  (if_neg (by rw [serves]; decide)).trans (if_pos past)

theorem exec_hostBar2Read_unkeyed {n : Nat} (within : off + n ≤ s.bar2Bytes) (needs : s.needsStream ide = true) :
    exec (.hostBar2Read ide off n) s =
      .next ((s.hostUnkeyed (s.obj oBar2WindowBase + off) 1).complete_ (List.replicate n 0xFF)) :=
  (if_neg (by rw [serves]; decide)).trans ((if_neg (Nat.not_lt.2 within)).trans (if_pos needs))

theorem exec_hostBar2Read {n : Nat} (within : off + n ≤ s.bar2Bytes) (keyed : s.needsStream ide = false) :
    exec (.hostBar2Read ide off n) s = .next (s.hostRead (s.obj oBar2WindowBase + off) n) :=
  (if_neg (by rw [serves]; decide)).trans ((if_neg (Nat.not_lt.2 within)).trans (if_neg (by rw [keyed]; decide)))

/-- A write within one page is one piece, on the state in which its bytes have been counted. -/
theorem exec_hostBar2Write {bs : List Byte} (within : off + bs.length ≤ s.bar2Bytes) (keyed : s.needsStream ide = false)
    (sound : Sound s) (nonempty : bs ≠ []) (page : (s.obj oBar2WindowBase + off) % pageBytes + bs.length ≤ pageBytes) :
    exec (.hostBar2Write ide off bs) s =
      .next ((s.addObj oHostBytesIn bs.length).hostWritePiece (s.obj oBar2WindowBase + off) bs) := by
  have still : (s.addObj oHostBytesIn bs.length).needsStream ide = s.needsStream ide := by
    unfold State.needsStream
    rw [addObj_obj sound.objs (by decide)]
  refine (if_neg (by rw [serves]; decide)).trans ((if_neg (Nat.not_lt.2 within)).trans
    ((if_neg (by rw [still, keyed]; decide)).trans ?_))
  rw [pieces_one (List.length_pos_iff.2 nonempty) page]
  show Host.Outcome.next (State.hostWritePiece _ _ (takeRange _ bs (_, bs.length))) = _
  have whole : takeRange (s.obj oBar2WindowBase + off) bs (s.obj oBar2WindowBase + off, bs.length) = bs := by
    unfold takeRange
    rw [Nat.sub_self]
    exact List.take_length
  rw [whole]

end

theorem hostRead_completes {s u : State} {va n : Nat} {bs : List Byte}
    (read : (readBytes hostInit .pass va n).run s = .ok bs u) : s.hostRead va n = u.complete_ bs := by
  unfold State.hostRead
  rw [read]

theorem hostWritePiece_lands {s u : State} {va : Nat} {bs : List Byte}
    (write : (writeBytes hostInit .pass va bs).run s = .ok () u) : s.hostWritePiece va bs = u := by
  unfold State.hostWritePiece
  rw [write]

theorem addObj_granted {s : State} {k n cls right va : Nat} :
    (s.addObj k n).granted cls right va = s.granted cls right va := by
  unfold State.addObj
  split <;> rfl

/-- Settles O44: an access within one page is one piece, at the place that the page's entry names. -/
theorem hostMemoryAccess : Obligations.HostMemoryAccess := by
  intro ide off n bs s sound serves
  refine ⟨fun past => ?_, fun past => ?_, fun within needs => ?_, ?_⟩
  · obtain ⟨mem, out⟩ := addObj_clear (x := s) (k := oHostUnsupported) (n := 1)
    exact ⟨_, exec_hostBar2Read_past serves past, congrArg (· ++ [Out.unsupported]) out,
      (State.emit_obj _ .unsupported _).trans (hostUnsupported_counted sound.objs), (State.emit_mem _ _).trans mem⟩
  · obtain ⟨mem, out⟩ := addObj_clear (x := s) (k := oHostUnsupported) (n := 1)
    exact ⟨_, exec_hostBar2Write_past serves past, out, hostUnsupported_counted sound.objs, mem⟩
  · obtain ⟨cells, out⟩ := hostUnkeyed_frame (s := s) (va := s.obj oBar2WindowBase + off) (kind := 1)
    obtain ⟨mem, sent⟩ := hostCompletion_frame (s := s.hostUnkeyed (s.obj oBar2WindowBase + off) 1)
      (bs := List.replicate n 0xFF)
    exact ⟨_, exec_hostBar2Read_unkeyed serves within needs, sent.trans (by rw [out]), (congrArg Mem.cells mem).trans cells⟩
  · rintro va e rfl rfl keyed present
    refine ⟨fun nonempty within low page granted clean => ?_, fun nonempty within low page granted => ?_⟩
    · obtain ⟨u, read, cells, out⟩ := hostRead_near present nonempty low page granted clean
      obtain ⟨mem, sent⟩ := hostCompletion_frame (s := u)
        (bs := memBytes s.mem.cells (entPhys (s.entry ((s.obj oBar2WindowBase + off) / pageBytes)) +
          (s.obj oBar2WindowBase + off) % pageBytes) n)
      refine ⟨_, (exec_hostBar2Read serves within keyed).trans (by rw [hostRead_completes read]),
        (congrArg Mem.cells mem).trans cells, sent.trans (by rw [out])⟩
    · obtain ⟨mem, out⟩ := addObj_clear (x := s) (k := oHostBytesIn) (n := bs.length)
      have entry : ∀ p, (s.addObj oHostBytesIn bs.length).entry p = s.entry p := fun p => by unfold State.entry; rw [mem]
      obtain ⟨u, write, sent, cells⟩ := hostWrite_near (s := s.addObj oHostBytesIn bs.length) (by rwa [entry]) nonempty low page
        (addObj_granted.trans granted)
      refine ⟨_, (exec_hostBar2Write serves within keyed sound nonempty page).trans (by rw [hostWritePiece_lands write]),
        sent.trans out, fun a => ?_⟩
      rw [cells, mem, entry]
      exact memByte_memPutAll

end Sys2Proof.Safety
end

section
/-! PROOFS. The statements of 11_fabric_links.md: what sending what waits on a port leaves, and what becomes of a message
part way in. -/

namespace Sys2Proof.Safety

open Sys2Proof.Machine

/-! ### Sending what waits on a port -/

theorem port_setPort {s : State} {p j : Nat} {q : Port} : (s.setPort p q).port j = if j = p then q else s.port j :=
  mapGet_mapPut

/-- Setting a port with the messages that have arrived on it takes none away. -/
theorem arrived_setPort {s : State} {p : Nat} {q : Port} (h : q.arrived = (s.port p).arrived) (j : Nat) :
    ((s.setPort p q).port j).arrived = (s.port j).arrived := by
  rw [port_setPort]
  split
  · rename_i e
    rw [h, e]
  · rfl

theorem port_addObj {s : State} {k n j : Nat} : (s.addObj k n).port j = s.port j := by
  unfold State.addObj
  split <;> rfl

/-- Credits that a header returns come off what a port owes, and nothing else of it. -/
theorem takeCredits_owed (q : Port) : ∃ o, q.takeCredits.2.2 = { q with owed := o } := by
  unfold Port.takeCredits
  split
  · exact ⟨_, rfl⟩
  · exact ⟨q.owed, rfl⟩

theorem served_arrived (q : Port) (f : TxFlit) : (q.served f).arrived = q.arrived := by
  unfold Port.served
  split <;> rfl

/-- What sending what waits on port `p` does: of the objects it counts payload bytes of that port alone, and it takes no
message that has arrived (Table 11.13). -/
structure Drains (p : Nat) (s t : State) : Prop where
  objs : Only (· = oTxPayloadBytes p) s t
  arrived : ∀ j, (t.port j).arrived = (s.port j).arrived

namespace Drains

variable {p : Nat} {s t : State}

theorem setPort {e : Nat} {q : Port} (h : Drains p s t) (keep : q.arrived = (t.port e).arrived) : Drains p s (t.setPort e q) :=
  ⟨h.objs.same rfl, fun j => (arrived_setPort keep j).trans (h.arrived j)⟩

theorem emitFlit {e header : Nat} {payload : List Byte} (h : Drains p s t) : Drains p s (t.emitFlit e header payload) := by
  have sent := h.setPort (e := e) (q := { t.port e with
    txKey := (t.port e).txKey.map (·.at (t.port e).txSlot), txSlot := (t.port e).txSlot + 1 }) rfl
  exact ⟨sent.objs.same rfl, sent.arrived⟩

theorem leaveBuffer {f : TxFlit} (h : Drains p s t) : Drains p s (t.leaveBuffer f) := by
  unfold State.leaveBuffer
  split
  · exact h.setPort rfl
  · exact h

theorem countBytes {n : Nat} (h : Drains p s t) : Drains p s (t.addObj (oTxPayloadBytes p) n) :=
  ⟨h.objs.addObj rfl, fun j => by rw [port_addObj, h.arrived]⟩

theorem returnCredits {e : Nat} (h : Drains p s t) : Drains p s (t.returnCredits e) := by
  unfold State.returnCredits
  split
  · exact h
  · refine foldl_mem h fun y _ _ hy => ?_
    dsimp only
    split
    · exact hy
    · refine (hy.setPort ?_).emitFlit
      obtain ⟨o, owed⟩ := takeCredits_owed (y.port e)
      rw [owed]

theorem returnAll (h : Drains p s t) : Drains p s t.returnAll := foldl_mem h fun _ _ _ hy => hy.returnCredits

theorem sendFlit {f : TxFlit} (h : Drains p s t) : Drains p s (t.sendFlit p f) := by
  unfold State.sendFlit
  dsimp -zeta only
  extract_lets header served left sent
  have keep : left.arrived = (t.port p).arrived := by
    obtain ⟨o, owed⟩ := takeCredits_owed (t.port p)
    exact (served_arrived _ f).trans (by rw [owed])
  have out : Drains p s sent := (h.setPort keep).emitFlit
  refine leaveBuffer ?_
  split
  · exact out.countBytes
  · exact out

theorem sendMany (n : Nat) (h : Drains p s t) : Drains p s (t.sendMany p n) := by
  induction n generalizing t with
  | zero => exact h
  | succ n ih =>
    unfold State.sendMany
    split
    · exact h
    · exact ih h.sendFlit

theorem pump (h : Drains p s t) : Drains p s (t.pump p) := by
  unfold State.pump
  refine returnAll ?_
  split
  · exact h.sendMany _
  · exact h

end Drains

theorem pump_drains {s : State} {p : Nat} (r : Rising s.dict.objs) : Drains p s (s.pump p) :=
  Drains.pump ⟨.refl r, fun _ => rfl⟩

/-! ### The courses of a message -/

/-- Has a message part way in come whole (R299)? -/
def cameWhole (i : Incoming) : Bool := decide (hdrFlits (ofLe (i.bytes.take 16)) * 240 ≤ i.bytes.length)

/-- What is part way in on port `p` once a message has been given this fate: a whole one no longer is. -/
def stillIn (s : State) (p : Nat) (i : Incoming) (f : Fate) : List Incoming :=
  let others := (s.port p).incoming.filter (·.vc != i.vc)
  if cameWhole i then others else others ++ [{ i with fate := f }]

/-- `x` with the message part way in at port `p` of `s` given this fate. -/
def settled (s : State) (p : Nat) (i : Incoming) (x : State) (f : Fate) : State :=
  x.setPort p { x.port p with incoming := stillIn s p i f }

theorem settled_arrived {s x : State} {p : Nat} {i : Incoming} {f : Fate} (j : Nat) :
    ((settled s p i x f).port j).arrived = (x.port j).arrived := by
  unfold settled
  exact arrived_setPort (by rfl) j

theorem oweCredit_arrived {x : State} {p vc n : Nat} (j : Nat) :
    ((x.oweCredit p vc n).port j).arrived = (x.port j).arrived := by
  unfold State.oweCredit
  exact arrived_setPort (by rfl) j

section
variable {s : State} {p : Nat} {i : Incoming}

theorem follow_misrouted : s.follow p i .misrouted =
    ((settled s p i (s.oweCredit p i.vc (i.bytes.length / 240)) .discard).count oMisroutedMessages).pump p := rfl

theorem follow_unroutable : s.follow p i .unroutable =
    ((settled s p i (s.oweCredit p i.vc (i.bytes.length / 240)) .discard).count oUnroutableMessages).pump p := rfl

theorem follow_through {e evc : Nat} : s.follow p i (.through e evc) =
    ((settled s p i s (.forward e evc)).count oForwardedMessages).queueFlits e (markLast evc (4 * p + i.vc)
      (chunks 240 (leBytes 16 (setField (ofLe (i.bytes.take 16)) 23 20 (hdrHops (ofLe (i.bytes.take 16)) - 1)) ++ i.bytes.drop 16))
      (cameWhole i)) := rfl

/-- The state in which a message for this rank has been taken off its buffer, but for a ready (R328). -/
def received (s : State) (p : Nat) (i : Incoming) : State :=
  settled s p i (if staysBuffered (ofLe (i.bytes.take 16)) then s else s.oweCredit p i.vc (i.bytes.length / 240)) .deliver

theorem follow_here : s.follow p i .here =
    (if cameWhole i then (received s p i).deliver p
      ⟨p, i.vc, ofLe (i.bytes.take 16), (i.bytes.drop 16).take (hdrLength (ofLe (i.bytes.take 16)))⟩
    else received s p i).pump p := rfl

theorem received_frame : (received s p i).dict = s.dict ∧ (received s p i).mem = s.mem ∧ (received s p i).sched = s.sched ∧
    ∀ j, ((received s p i).port j).arrived = (s.port j).arrived := by
  unfold received
  split
  · exact ⟨rfl, rfl, rfl, settled_arrived⟩
  · exact ⟨rfl, rfl, rfl, fun j => (settled_arrived j).trans (oweCredit_arrived j)⟩

end

/-- A whole message is kept, or counted as misrouted where its kind is reserved (R300). -/
theorem deliver_frame {x : State} {p : Nat} {m : Msg} (r : Rising x.dict.objs) :
    Only (· = oMisroutedMessages) x (x.deliver p m) ∧ (x.deliver p m).mem = x.mem ∧ (x.deliver p m).sched = x.sched ∧
    (kindDefined (hdrKind m.header) = true → ((x.deliver p m).port p).arrived = (x.port p).arrived ++ [m]) := by
  unfold State.deliver
  split
  · exact ⟨(Only.refl r).same rfl, rfl, rfl, fun _ => by rw [port_setPort, if_pos rfl]⟩
  · rename_i reserved
    exact ⟨(Only.refl r).count rfl, addObj_out.2.2, addObj_out.2.1, fun defined => absurd defined reserved⟩

/-- A message for this rank: but for misrouted messages no count changes before the port sends, and a whole message of a
kind that is defined has arrived. -/
theorem follow_here_frame {s : State} {p : Nat} {i : Incoming} (r : Rising s.dict.objs) :
    ∃ y, s.follow p i .here = y.pump p ∧ Only (· = oMisroutedMessages) s y ∧ y.mem = s.mem ∧ y.sched = s.sched ∧
      (cameWhole i = true → kindDefined (hdrKind (ofLe (i.bytes.take 16))) = true → (y.port p).arrived = (s.port p).arrived ++
        [⟨p, i.vc, ofLe (i.bytes.take 16), (i.bytes.drop 16).take (hdrLength (ofLe (i.bytes.take 16)))⟩]) := by
  obtain ⟨dict, mem, sched, arrived⟩ := received_frame (s := s) (p := p) (i := i)
  have counts : Only (· = oMisroutedMessages) s (received s p i) := (Only.refl r).same (congrArg Dict.objs dict)
  refine ⟨_, follow_here, ?_⟩
  by_cases whole : cameWhole i = true
  · rw [if_pos whole]
    obtain ⟨delivers, mem', sched', adds⟩ := deliver_frame (p := p)
      (m := ⟨p, i.vc, ofLe (i.bytes.take 16), (i.bytes.drop 16).take (hdrLength (ofLe (i.bytes.take 16)))⟩) counts.rising
    exact ⟨counts.trans delivers, mem'.trans mem, sched'.trans sched, fun _ defined => (adds defined).trans (by rw [arrived])⟩
  · rw [if_neg whole]
    exact ⟨counts, mem, sched, fun h => absurd h whole⟩

/-- One more is counted, and what sending then does leaves the count, memory and the scheduler. -/
theorem count_pump {x y : State} {k e : Nat} (r : Rising x.dict.objs) (size : objSize k = 8) (other : k ≠ oTxPayloadBytes e)
    (dict : y.dict = (x.count k).dict) (mem : y.mem = (x.count k).mem) (sched : y.sched = (x.count k).sched) :
    (y.pump e).obj k = (x.obj k + 1) % 2 ^ 64 ∧ (y.pump e).mem = x.mem ∧ (y.pump e).sched = x.sched := by
  have rising : Rising y.dict.objs := by rw [dict]; exact rising_addObj r
  obtain ⟨mem', sched', -⟩ := pump_same (s := y) (p := e)
  refine ⟨?_, mem'.trans (mem.trans addObj_out.2.2), sched'.trans (sched.trans addObj_out.2.1)⟩
  rw [(pump_drains rising).objs.objs k other, obj_congr (congrArg Dict.objs dict)]
  exact (addObj_self r (by decide)).trans (by rw [size])

theorem fabricObj_ne_payload {b e : Nat} (h : b < 256) (n : b ≠ 0x0B) : objKey 0x4000 b ≠ oTxPayloadBytes e :=
  objKey_ne h (by decide) (.inr n)

theorem exec_messageForward_chosen {p vc : Nat} {i : Incoming} {s : State}
    (found : (s.port p).incoming.find? (·.vc == vc) = some i) (chosen : i.fate ≠ .open) :
    exec (.messageForward p vc) s = .next s := by
  show execMessageForward p vc s = _
  unfold execMessageForward
  rw [found]
  exact if_pos chosen

theorem exec_messageForward_open {p vc : Nat} {i : Incoming} {s : State} {c : Course}
    (found : (s.port p).incoming.find? (·.vc == vc) = some i) (opened : i.fate = .open)
    (course : s.course vc (ofLe (i.bytes.take 16)) = c) : exec (.messageForward p vc) s = .next (s.follow p i c) := by
  show execMessageForward p vc s = _
  unfold execMessageForward
  rw [found, ← course]
  exact if_neg (Decidable.not_not.2 opened)

/-! The courses (R301, R305). -/

section
variable {s : State} {vc h : Nat}

theorem course_here (here : hdrDest h = s.obj oLogicalRank) : s.course vc h = .here := if_pos here

theorem course_misrouted (away : hdrDest h ≠ s.obj oLogicalRank)
    (lost : hdrHops h = 0 ∨ flag (s.routeEntry (hdrDest h)) 1 = false) : s.course vc h = .misrouted :=
  (if_neg away).trans (if_pos (lost.imp_right fun invalid => by rw [invalid]; rfl))

section
variable (away : hdrDest h ≠ s.obj oLogicalRank) (hops : hdrHops h ≠ 0) (valid : flag (s.routeEntry (hdrDest h)) 1 = true)

include hops valid in
theorem not_lost :
    ¬ (hdrHops h = 0 ∨ (!flag (s.routeEntry (hdrDest h)) 1) = true) := by
  rintro (none | invalid)
  · exact hops none
  · rw [valid] at invalid
    cases invalid

include away hops valid

theorem course_unroutable (down : s.routeChoices (s.routeEntry (hdrDest h)) vc = []) : s.course vc h = .unroutable := by
  refine (if_neg away).trans ((if_neg (not_lost hops valid)).trans ?_)
  rw [down]
  rfl

theorem course_through {e evc : Nat}
    (best : s.bestChoice (s.routeChoices (s.routeEntry (hdrDest h)) vc) = some (e, evc)) : s.course vc h = .through e evc := by
  refine (if_neg away).trans ((if_neg (not_lost hops valid)).trans ?_)
  rw [best]

end

end

/-- Settles O40: the course of an open message is chosen first; each course counts or delivers before anything is sent, and
what is sent then leaves the counts and what has arrived. -/
theorem messagesAreForwarded : Obligations.MessagesAreForwarded := by
  rintro p vc _ i s sound - found rfl
  have same : i.vc = vc := by simpa using List.find?_some found
  subst same
  refine ⟨exec_messageForward_chosen found, fun opened away => ⟨fun lost => ?_, fun hops valid => ⟨fun down => ?_,
    fun e evc best => ?_⟩⟩, fun opened here => ?_⟩
  · have run := exec_messageForward_open found opened (course_misrouted away lost)
    rw [follow_misrouted] at run
    exact ⟨_, run, count_pump sound.objs (by decide +kernel) (fabricObj_ne_payload (b := 7) (by decide) (by decide)) rfl rfl rfl⟩
  · have run := exec_messageForward_open found opened (course_unroutable away hops valid down)
    rw [follow_unroutable] at run
    exact ⟨_, run, count_pump sound.objs (by decide +kernel) (fabricObj_ne_payload (b := 8) (by decide) (by decide)) rfl rfl rfl⟩
  · have run := exec_messageForward_open found opened (course_through away hops valid best)
    rw [follow_through] at run
    exact ⟨_, _, run, rfl, count_pump sound.objs (by decide +kernel) (fabricObj_ne_payload (b := 6) (by decide) (by decide))
      rfl rfl rfl⟩
  · obtain ⟨y, follows, counts, mem, sched, arrives⟩ := follow_here_frame (p := p) (i := i) sound.objs
    obtain ⟨objs, arrived⟩ := pump_drains (p := p) counts.rising
    obtain ⟨mem', sched', -⟩ := pump_same (s := y) (p := p)
    have run := exec_messageForward_open found opened (course_here here)
    rw [follows] at run
    exact ⟨_, run, (objs.objs _ (fabricObj_ne_payload (b := 6) (by decide) (by decide))).trans (counts.objs _ (by decide)),
      (objs.objs _ (fabricObj_ne_payload (b := 8) (by decide) (by decide))).trans (counts.objs _ (by decide)),
      mem'.trans mem, sched'.trans sched, fun whole defined => (arrived p).trans (arrives (decide_eq_true whole) defined)⟩

end Sys2Proof.Safety
end

section
/-! PROOFS. The statements of 11_fabric_links.md: what a link sends of itself. -/

namespace Sys2Proof.Safety

open Sys2Proof.Machine

/-! ### Timestamps -/

/-- The send time that a timestamp carries: 1/16 ACLK (R311). -/
def stampTime (s : State) (phase : Nat) : Nat := (s.tick * 2 ^ (s.obj oTickPeriodLog2) * 16 + phase) % 2 ^ 64

/-- The payload of a timestamp flit (Table 11.10). -/
def stampPayload (s : State) (p phase : Nat) : List Byte :=
  let echo : Nat × Nat := match (s.port p).stamp with
    | some t => (t.tx, t.arrival)
    | none => (0, 0)
  [1, BitVec.ofNat 8 (bitOf s.timing.synced + 2 * bitOf (s.obj oTickSource == 1)), BitVec.ofNat 8 (s.obj oTimeDistance), 0] ++
    leBytes 2 (s.obj oTimeReferenceRank) ++ leBytes 8 s.timing.refSerial ++ leBytes 8 s.tick ++
    leBytes 8 (stampTime s phase) ++ leBytes 8 echo.1 ++ leBytes 8 echo.2 ++ leBytes 4 (int32 s.timing.offset)

theorem stampPayload_length {s : State} {p phase : Nat} : (stampPayload s p phase).length = 50 := rfl

theorem readStamp_distance {s : State} {p phase : Nat} :
    (readStamp (stampPayload s p phase) 0).distance = s.obj oTimeDistance % 256 :=
  ofLe_leBytes 1 (s.obj oTimeDistance)

theorem readStamp_refRank {s : State} {p phase : Nat} :
    (readStamp (stampPayload s p phase) 0).refRank = s.obj oTimeReferenceRank % 65536 :=
  ofLe_leBytes 2 (s.obj oTimeReferenceRank)

theorem readStamp_refSerial {s : State} {p phase : Nat} :
    (readStamp (stampPayload s p phase) 0).refSerial = s.timing.refSerial % 2 ^ 64 :=
  ofLe_leBytes 8 s.timing.refSerial

theorem readStamp_counter {s : State} {p phase : Nat} :
    (readStamp (stampPayload s p phase) 0).counter = s.tick % 2 ^ 64 :=
  ofLe_leBytes 8 s.tick

theorem readStamp_tx {s : State} {p phase : Nat} :
    (readStamp (stampPayload s p phase) 0).tx = stampTime s phase :=
  (ofLe_leBytes 8 (stampTime s phase)).trans (Nat.mod_mod _ _)

theorem exec_timestampSend {p phase : Nat} {s : State} (up : s.link p = 4) (late : 512 * 16 < phase)
    (first : (s.port p).stampedTick ≠ some s.tick) :
    exec (.timestampSend p phase) s = .next ((s.setPort p { s.port p with stampedTick := some s.tick }).sendControl p
      (stampPayload s p phase)) := by
  refine if_neg ?_
  rintro (down | early | sent)
  · simp [State.linkUp, up] at down
  · omega
  · exact first sent

theorem exec_timestampSend_still {p phase : Nat} {s : State}
    (rest : phase ≤ 512 * 16 ∨ (s.port p).stampedTick = some s.tick) : exec (.timestampSend p phase) s = .next s :=
  if_pos (.inr rest)

/-! ### Key updates -/

/-- A key that has served its slots is followed by one announced 1,024 slots ahead (R430). -/
theorem exec_keyUpdateSend {p slot : Nat} {k : LinkKey} {s : State} (up : s.link p = 4) (key : (s.port p).txKey = some k)
    (last : k.next = none) (now : (s.port p).txSlot ≤ slot) (old : k.base + 2 ^ s.obj oLinkRekeyFlitsLog2 ≤ slot) :
    exec (.keyUpdateSend p slot) s =
      .next ((s.setPort p { s.port p with txKey := some { k with next := some (slot + 1024) }, txSlot := slot }).sendControl p
        ([4, BitVec.ofNat 8 (k.generation + 1)] ++ leBytes 8 (slot - k.base + 1024))) := by
  have same : k.at slot = k := by
    unfold LinkKey.at
    rw [last]
  have ahead : k.base + (slot - k.base + 1024) = slot + 1024 := by
    have served : k.base ≤ slot := Nat.le_trans (Nat.le_add_right _ _) old
    omega
  show execKeyUpdateSend p slot s = _
  unfold execKeyUpdateSend
  rw [if_neg (by simp [State.linkUp, up])]
  dsimp only
  rw [key]
  dsimp only
  rw [Nat.max_eq_left now, same, ahead]
  refine if_neg ?_
  rintro (announced | young)
  · rw [last] at announced
    cases announced
  · omega

/-- Settles O39: each command sends what its conditions call for, and a stamp reads back as what was put into it. -/
theorem linksSend : Obligations.LinksSend := by
  refine ⟨fun p phase s up late first => ?_, fun p phase s _ rest => exec_timestampSend_still rest,
    fun p slot k s up key last now old => ⟨_, rfl, exec_keyUpdateSend up key last now old⟩⟩
  exact ⟨stampPayload s p phase, rfl, stampPayload_length, exec_timestampSend up late first, readStamp_distance,
    readStamp_refRank, readStamp_refSerial, readStamp_counter, readStamp_tx⟩

end Sys2Proof.Safety
end

section
/-! PROOFS. The statements of 11_fabric_links.md: the life of a link. -/

namespace Sys2Proof.Safety

open Sys2Proof.Machine

/-! ### The ends of a link (R319) -/

section
variable {s : State} {p cause : Nat} (r : Rising s.dict.objs) (hp : p < 32) (live : 2 ≤ s.link p)
include r hp live

theorem linkDown_cause : (s.linkDown p 1 cause).link p = 1 ∧ (s.linkDown p 1 cause).obj (oLastDownCause p) =
    if (s.port p).dusk = true ∧ (cause = 1 ∨ cause = 3) then 6 else cause := by
  obtain ⟨-, down, names, -⟩ := linkDown_frame (st := 1) (cause := cause) r hp (by omega) (by omega)
  exact ⟨down, names (by omega)⟩

/-- Causes 1 and 3 read as 6 once the peer has announced Dusk (Table 11.12). -/
theorem linkDown_duskCause (c : cause = 1 ∨ cause = 3) : (s.linkDown p 1 cause).link p = 1 ∧
    (s.linkDown p 1 cause).obj (oLastDownCause p) = if (s.port p).dusk = true then 6 else cause := by
  obtain ⟨down, names⟩ := linkDown_cause (cause := cause) r hp live
  exact ⟨down, names.trans (by simp [c])⟩

theorem linkDown_ownCause (n1 : cause ≠ 1) (n3 : cause ≠ 3) : (s.linkDown p 1 cause).link p = 1 ∧
    (s.linkDown p 1 cause).obj (oLastDownCause p) = cause := by
  obtain ⟨down, names⟩ := linkDown_cause (cause := cause) r hp live
  exact ⟨down, names.trans (if_neg (by simp [n1, n3]))⟩

theorem linkDown_failures : (s.linkDown p 1 cause).obj oSpdmFailures = s.obj oSpdmFailures := by
  obtain ⟨only, -⟩ := linkDown_frame (st := 1) (cause := cause) r hp (by omega) (by omega)
  exact only.objs _ (not_down_failures hp)

end

/-! ### The event log as a link goes down -/

theorem sends_log {f : Nat → Prop} {s t : State} (h : SendsOn f s t) : t.dict.log = s.dict.log := by
  have same := h.frame
  simp only [sendFrame, Prod.mk.injEq] at same
  obtain ⟨-, -, -, -, -, -, -, -, -, -, -, -, -, -, -, log, -⟩ := same
  exact log

theorem abortIncoming_log {x : State} {p : Nat} {i : Incoming} : (x.abortIncoming p i).dict.log = x.dict.log := by
  unfold State.abortIncoming
  extract_lets y
  have counted : y.dict.log = x.dict.log := by
    unfold y
    split
    · rfl
    · exact addObj_out.1
  clear_value y
  rw [← counted]
  dsimp only
  split
  · split
    · exact sends_log (f := fun _ => True) (sendControl_sends _ _ (oweCredit_sends _ _ _ (setPort_sends _ _ (.refl y))) trivial)
    · exact sends_log (f := fun _ => True) (pump_sends _ (oweCredit_sends _ _ _ (setPort_sends _ _ (.refl y))) trivial)
  · rfl
  · rfl

theorem placeInTree_apart (x : State) : x.placeInTree.dict.log = x.dict.log ∧ x.placeInTree.sec = x.sec := by
  unfold State.placeInTree
  dsimp only
  repeat' split
  all_goals exact ⟨rfl, rfl⟩

/-- The log as a port that is live goes down: what it was, but for LINK_DOWN at its end. -/
theorem linkDown_log {s : State} {p st cause : Nat} : ∃ y : State, y.dict.log = s.dict.log ∧
    ((s.linkDown p st cause).dict.log = y.dict.log ∨
      ∃ c d, (s.linkDown p st cause).dict.log = (y.raise 0x0601 0x05 p 0 p c d).dict.log) := by
  unfold State.linkDown
  extract_lets old q c lost dropped counted placed
  split
  · exact ⟨s, rfl, .inl rfl⟩
  have lostLog : lost.dict.log = s.dict.log := addObj_out.1
  have droppedLog : dropped.dict.log = s.dict.log := by
    refine foldl_mem (P := fun y => y.dict.log = s.dict.log) (foldl_mem (P := fun y => y.dict.log = s.dict.log) lostLog
      fun y f _ hy => ?_) fun y i _ hy => abortIncoming_log.trans hy
    exact (sends_log (leaveBuffer_sends (f := fun _ => True) f (.refl y))).trans hy
  have countedLog : counted.dict.log = s.dict.log := by
    unfold counted
    split
    · exact droppedLog
    · exact addObj_out.1.trans droppedLog
  have placedLog : placed.dict.log = s.dict.log := by
    unfold placed
    rw [returnAll_dict, (placeInTree_apart _).1]
    exact countedLog
  refine ⟨placed, placedLog, ?_⟩
  split
  · exact .inr ⟨_, _, rfl⟩
  · exact .inl rfl

/-- The latest record is still there after one more event, which drops none but the oldest of a full log (R394). -/
theorem mem_log_raise {s : State} {x : EventRec} {code src unit a b c d e : Nat} (last : s.dict.log.getLast? = some x) :
    x ∈ (s.raise code src unit a b c d e).dict.log := by
  obtain ⟨l, split⟩ := List.getLast?_eq_some_iff.1 last
  rw [raise_log, split]
  by_cases full : 4096 ≤ (l ++ [x]).length
  · rw [if_pos full, List.drop_append_of_le_length (by simp at full; omega)]
    simp
  · rw [if_neg full]
    simp

theorem mem_log_linkDown {s : State} {x : EventRec} {p st cause : Nat} (last : s.dict.log.getLast? = some x) :
    x ∈ (s.linkDown p st cause).dict.log := by
  obtain ⟨y, same, log | ⟨c, d, log⟩⟩ := linkDown_log (s := s) (p := p) (st := st) (cause := cause)
  · rw [log, same]
    exact List.mem_of_getLast? last
  · rw [log]
    exact mem_log_raise (by rw [same]; exact last)

/-! ### The attach flit (R318) -/

theorem flitHeader_kind {seq ack vc creditVc credits kind : Nat} :
    flitHeader seq ack vc creditVc credits kind % 4 = kind % 4 := by
  simp only [flitHeader, Nat.shiftLeft_eq]
  omega

/-- A control flit of this device leaves in the next slot, and changes no object. -/
theorem sendFlit_control {y : State} {p : Nat} {f : TxFlit} (kind : f.kind = 3) (own : f.source = 128) :
    ∃ h, h % 4 = 3 ∧ (y.sendFlit p f).dict = y.dict ∧ (y.sendFlit p f).out = y.out ++ [.flit p h f.payload
      (wireFlit ((y.port p).txKey.map (·.at (y.port p).txSlot)) (y.port p).txSlot h f.payload)] := by
  obtain ⟨o, owed⟩ := takeCredits_owed (y.port p)
  unfold State.sendFlit
  dsimp -zeta only
  extract_lets header served left sent
  have same : sent.leaveBuffer f = sent := if_neg (by omega)
  have untouched : served = (y.port p).takeCredits.2.2 := if_pos kind
  refine ⟨header, flitHeader_kind.trans (by rw [kind]), ?_⟩
  rw [if_neg (by omega), same]
  refine ⟨rfl, ?_⟩
  have slot : ((y.setPort p left).port p).txSlot = (y.port p).txSlot ∧ ((y.setPort p left).port p).txKey = (y.port p).txKey := by
    rw [port_setPort, if_pos rfl]
    unfold left
    rw [untouched, owed]
    exact ⟨rfl, rfl⟩
  obtain ⟨slot, key⟩ := slot
  rw [← slot, ← key]
  rfl

/-- A port with nothing to send but one control flit, and nothing unacknowledged, sends it. -/
theorem nextFlit_control {y : State} {p : Nat} {f : TxFlit} (fresh : (y.port p).replay = []) (queue : (y.port p).queue = [f])
    (kind : f.kind = 3) : y.nextFlit p = some f := by
  unfold State.nextFlit Port.keyHeld
  simp [fresh, queue, kind]

/-- Control flits first: on a port that has just been trained, a control flit is sent before anything else. -/
theorem sendControl_first {x : State} {p : Nat} {body : List Byte} (live : x.receiving p = true) (fresh : (x.port p).replay = [])
    (empty : (x.port p).queue = []) (clear : (x.port p).txKey = none) (start : (x.port p).txSlot = 0) :
    ∃ h more, h % 4 = 3 ∧ (x.sendControl p body).dict = x.dict ∧
      (x.sendControl p body).out = x.out ++ .flit p h (padTo 240 0 body) (wireFlit none 0 h (padTo 240 0 body)) :: more := by
  obtain ⟨y, hy⟩ : ∃ y, y = x.setPort p { x.port p with queue := (x.port p).queue ++ [controlFlit body] } := ⟨_, rfl⟩
  have pumps : x.sendControl p body = y.pump p := by rw [hy]; rfl
  have port : y.port p = { x.port p with queue := [controlFlit body] } := by
    rw [hy, port_setPort, if_pos rfl, empty, List.nil_append]
  have dict : y.dict = x.dict := by rw [hy]; rfl
  have out : y.out = x.out := by rw [hy]; rfl
  have receives : y.receiving p = true := by rw [hy]; exact live
  have sends : x.sendControl p body = (y.sendFlit p (controlFlit body)).returnAll := by
    rw [pumps]
    unfold State.pump
    rw [if_pos receives, port]
    unfold State.sendMany
    rw [List.length_singleton, nextFlit_control (by rw [port]; exact fresh) (by rw [port]) rfl]
    rfl
  obtain ⟨h, kind, dict', out'⟩ := sendFlit_control (y := y) (p := p) (f := controlFlit body) rfl rfl
  obtain ⟨more, rest⟩ := (returnAll_sends (f := fun _ => True) (.refl (y.sendFlit p (controlFlit body)))).out
  refine ⟨h, more, kind, ?_, ?_⟩
  · rw [sends, returnAll_dict, dict', dict]
  · rw [sends, ← rest, out', out, port, clear, start, List.append_assoc]
    rfl

/-- A port as training leaves it: nothing sent, nothing waiting, no key. -/
def trainedPort (q : Port) (rate : Nat) : Port := { arrived := q.arrived, rate := rate, credits := [0, 0, 0, 16] }

theorem exec_trainingComplete {p r : Nat} {s : State} (training : s.link p = 2)
    (common : (s.obj oPortRates >>> (8 * p)) % 8 &&& r % 8 ≠ 0) :
    ∃ rate, exec (.trainingComplete p r) s =
      .next (((s.setPort p (trainedPort (s.port p) rate)).setObj (oLinkState p) 3).sendControl p
        (3 :: Config.attachBody (s.obj oLogicalRank) Config.serial p)) :=
  ⟨_, if_neg (by simp [training, common])⟩

/-- A trained port is ATTACHING, and its attach flit is the first it sends. -/
theorem trained_attaches {s : State} {p rate : Nat} {body : List Byte} (r : Rising s.dict.objs) :
    let t := ((s.setPort p (trainedPort (s.port p) rate)).setObj (oLinkState p) 3).sendControl p body
    t.link p = 3 ∧ (∀ k, k ≠ oLinkState p → t.obj k = s.obj k) ∧
    ∃ h more, h % 4 = 3 ∧ t.out = s.out ++ .flit p h (padTo 240 0 body) (wireFlit none 0 h (padTo 240 0 body)) :: more := by
  intro t
  obtain ⟨x, hx⟩ : ∃ x, x = (s.setPort p (trainedPort (s.port p) rate)).setObj (oLinkState p) 3 := ⟨_, rfl⟩
  have objs : ∀ k, x.obj k = if k = oLinkState p then 3 else s.obj k := fun k => by rw [hx]; exact port_setObj r
  have port : x.port p = trainedPort (s.port p) rate := by
    rw [hx]
    show (s.setPort p (trainedPort (s.port p) rate)).port p = _
    rw [port_setPort, if_pos rfl]
  have attaching : x.link p = 3 := (objs _).trans (if_pos rfl)
  have live : x.receiving p = true := by simp [State.receiving, attaching]
  obtain ⟨h, more, kind, dict, out⟩ := sendControl_first (body := body) live (by rw [port]; rfl) (by rw [port]; rfl)
    (by rw [port]; rfl) (by rw [port]; rfl)
  have sent : t = x.sendControl p body := by rw [hx]
  have kept : ∀ k, t.obj k = x.obj k := fun k => by rw [sent]; exact obj_congr (by rw [dict]) k
  refine ⟨(kept _).trans attaching, fun k n => (kept k).trans ((objs k).trans (if_neg n)), h, more, kind, ?_⟩
  rw [sent, out, hx]
  rfl

/-! ### What an attach comes to (R429) -/

/-- The session of an attach that has passed, counted. -/
def withSession (w : State) (p : Nat) : State :=
  { w with sec := { w.sec with sessions := w.sec.sessions ++ [(⟨2 + p, 0⟩ : Session)] } }.refreshSessions

/-- The objects and sessions of a link whose attach has passed, before what follows of it is worked out. -/
def attached (w : State) (p rate : Nat) : State :=
  (((withSession w p).setObj (oLinkState p) 4).setObj (oLinkRate p) rate).refreshPortsUp

/-- A port whose attach has passed: the credits to return, the rate, the peer and the keys of both directions (R429). -/
def attachedPort (s : State) (p serial : Nat) (e : AttachEvidence) : Port :=
  let requester := decide (Config.serial < serial)
  { arrived := (s.port p).arrived, rate := (s.port p).rate, peerSerial := some serial
    owed := [512 - s.buffered p 0, 512 - s.buffered p 1, 64 - s.buffered p 2, 16]
    txKey := some (directionKey e.master (if requester then "r2s" else "s2r"))
    rxKey := some (directionKey e.master (if requester then "s2r" else "r2s")) }

section
variable {p : Nat} {e : AttachEvidence} {s : State} (attaching : s.link p = 3)
include attaching

theorem exec_attachComplete_unready (unready : (s.port p).peerSerial = none ∨ e.completed = false ∨ s.obj oRsaReady = 0) :
    exec (.attachComplete p e) s = .next ((s.count oSpdmFailures).linkDown p 1 4) := by
  show execAttachComplete p e s = _
  unfold execAttachComplete
  rw [if_neg (Decidable.not_not.2 attaching)]
  dsimp only
  split
  · rfl
  · rename_i serial peer
    refine if_pos ?_
    rcases unready with none | incomplete | keyless
    · rw [peer] at none
      cases none
    · simp [incomplete]
    · exact .inr keyless

section
variable {serial : Nat} (peer : (s.port p).peerSerial = some serial) (complete : e.completed = true)
  (ready : s.obj oRsaReady ≠ 0)
include peer complete ready

/-- With a completed session, the checks of the certificates come first, then those of the signatures and measurement. -/
theorem exec_attachComplete_checked : exec (.attachComplete p e) s =
    if (!e.chainsOk) = true ∨ e.certSerial ≠ serial then .next (s.attachFail p 0x10 e.failed)
    else if (!e.signaturesOk) = true ∨ (s.obj oPeerPolicy = 1 ∧ e.measurement2 ≠ s.obj oMeasurement2) then
      .next (s.attachFail p 0x11 e.failed)
    else .next ((attached (s.setPort p (attachedPort s p serial e)) p (s.port p).rate).placeInTree.checkRanks.pump p) := by
  show execAttachComplete p e s = _
  unfold execAttachComplete
  rw [if_neg (Decidable.not_not.2 attaching)]
  dsimp only
  rw [peer]
  unfold attached withSession attachedPort
  refine (if_neg (by simp [complete, ready])).trans ?_
  rfl

theorem exec_attachComplete_chains (bad : e.chainsOk = false ∨ e.certSerial ≠ serial) :
    exec (.attachComplete p e) s = .next (s.attachFail p 0x10 e.failed) :=
  (exec_attachComplete_checked attaching peer complete ready).trans (if_pos (by simpa using bad))

variable (chains : e.chainsOk = true) (certs : e.certSerial = serial)
include chains certs

theorem exec_attachComplete_signatures
    (bad : e.signaturesOk = false ∨ (s.obj oPeerPolicy = 1 ∧ e.measurement2 ≠ s.obj oMeasurement2)) :
    exec (.attachComplete p e) s = .next (s.attachFail p 0x11 e.failed) :=
  (exec_attachComplete_checked attaching peer complete ready).trans
    ((if_neg (by simp [chains, certs])).trans (if_pos (by simpa using bad)))

theorem exec_attachComplete_up (signatures : e.signaturesOk = true)
    (policy : s.obj oPeerPolicy = 1 → e.measurement2 = s.obj oMeasurement2) : exec (.attachComplete p e) s =
      .next ((attached (s.setPort p (attachedPort s p serial e)) p (s.port p).rate).placeInTree.checkRanks.pump p) := by
  refine (exec_attachComplete_checked attaching peer complete ready).trans
    ((if_neg (by simp [chains, certs])).trans (if_neg ?_))
  rintro (bad | ⟨strict, other⟩)
  · simp [signatures] at bad
  · exact other (policy strict)

end
end

/-- A failed attach is counted, and takes the port DOWN with cause 4. -/
theorem unready_goes_down {s : State} {p : Nat} (r : Rising s.dict.objs) (hp : p < 32) (attaching : s.link p = 3) :
    ((s.count oSpdmFailures).linkDown p 1 4).link p = 1 ∧
    ((s.count oSpdmFailures).linkDown p 1 4).obj (oLastDownCause p) = 4 ∧
    ((s.count oSpdmFailures).linkDown p 1 4).obj oSpdmFailures = (s.obj oSpdmFailures + 1) % 2 ^ 64 := by
  obtain ⟨x, hx, rising, others, counted, -⟩ := count_facts (k := oSpdmFailures) r
  rw [hx]
  have live : x.link p = 3 := (others _ (objKey_ne (c := 0x7040) (d := 2) (by decide) (by decide) (by omega))).trans attaching
  obtain ⟨down, cause⟩ := linkDown_ownCause (cause := 4) rising hp (by omega) (by decide) (by decide)
  refine ⟨down, cause, (linkDown_failures rising hp (by omega)).trans ?_⟩
  rw [counted, show objSize oSpdmFailures = 8 by decide +kernel]

/-- Where a check fails, SIGNATURE_FAIL is raised with its kind before LINK_DOWN. -/
theorem attachFail_goes_down {s : State} {p kind failed : Nat} (r : Rising s.dict.objs) (hp : p < 32)
    (attaching : s.link p = 3) : (s.attachFail p kind failed).link p = 1 ∧
    (s.attachFail p kind failed).obj (oLastDownCause p) = 4 ∧
    ∃ x ∈ (s.attachFail p kind failed).dict.log, x.code = 0x0802 ∧ x.w0 = kind := by
  obtain ⟨rising, link⟩ := link_raise (a := p) (b := kind) (c := failed) r hp
  obtain ⟨down, cause⟩ := linkDown_ownCause (cause := 4) rising hp (by rw [link]; omega) (by decide) (by decide)
  obtain ⟨x, hx, counted, -⟩ := count_facts (k := oSpdmFailures) r
  unfold State.attachFail
  rw [hx] at down cause ⊢
  have raised := (raise_frame (code := 0x0802) (src := 0x0D) (unit := p) (a := kind) (b := failed) (c := 0) (d := 0)
    (e := 0) counted).2.1
  exact ⟨down, cause, _, mem_log_linkDown raised, rfl, rfl⟩

/-! ### An attach that passes -/

/-- No object of a fabric port is one of another index. -/
theorem portObj_ne {p a b c : Nat} (hp : p < 32) (hb : b < 256) (hc : c < 256) (h : a < 0x4010 ∨ 0x4030 ≤ a) :
    objKey (0x4010 + p) b ≠ objKey a c := objKey_ne hb hc (.inl (by omega))

theorem attached_frame {w : State} {p rate : Nat} (r : Rising w.dict.objs) (hp : p < 32) :
    Rising (attached w p rate).dict.objs ∧ (attached w p rate).link p = 4 ∧ (attached w p rate).obj (oLinkRate p) = rate ∧
    (attached w p rate).sec.sessions = w.sec.sessions ++ [⟨2 + p, 0⟩] ∧
    (attached w p rate).obj oSpdmSessions = (attached w p rate).sec.sessions.length := by
  obtain ⟨x, hx⟩ : ∃ x, x = withSession w p := ⟨_, rfl⟩
  have xr : Rising x.dict.objs := by rw [hx]; exact rising_setObj r
  have sessions : x.sec.sessions = w.sec.sessions ++ [⟨2 + p, 0⟩] := by rw [hx]; rfl
  have counted : x.obj oSpdmSessions = x.sec.sessions.length := by rw [hx]; exact (obj_setObj r).trans (if_pos rfl)
  have up := rising_setObj (k := oLinkState p) (v := 4) xr
  have rated := rising_setObj (k := oLinkRate p) (v := rate) up
  unfold attached State.refreshPortsUp State.link
  rw [← hx]
  generalize List.foldl _ _ _ = ports
  have objs : ∀ k, k ≠ oPortsUp → (((x.setObj (oLinkState p) 4).setObj (oLinkRate p) rate).setObj oPortsUp ports).obj k =
      if k = oLinkRate p then rate else if k = oLinkState p then 4 else x.obj k := fun k n => by
    rw [obj_setObj_ne rated n, obj_setObj up, obj_setObj xr]
  have other : ∀ b, b < 256 → objKey (0x4010 + p) b ≠ oPortsUp ∧ objKey (0x4010 + p) b ≠ oSpdmSessions := fun b h =>
    ⟨portObj_ne (a := 0x4000) (c := 1) hp h (by decide) (by decide), portObj_ne (a := 0x7040) (c := 1) hp h (by decide) (by decide)⟩
  refine ⟨rising_setObj rated, (objs _ (other 1 (by decide)).1).trans ?_, (objs _ (other 2 (by decide)).1).trans (if_pos rfl),
    sessions, (objs _ (by decide)).trans ?_⟩
  · rw [if_neg (objKey_ne (by decide) (by decide) (.inr (by decide))), if_pos rfl]
  · rw [if_neg (other 2 (by decide)).2.symm, if_neg (other 1 (by decide)).2.symm, counted]
    rfl

/-- What follows an attach leaves the objects of the link but its payload bytes, the sessions and their count. -/
theorem attached_follows {z : State} {p : Nat} (r : Rising z.dict.objs) (hp : p < 32) :
    (z.placeInTree.checkRanks.pump p).sec = z.sec ∧
    (z.placeInTree.checkRanks.pump p).obj oSpdmSessions = z.obj oSpdmSessions ∧
    ∀ b, b < 256 → b ≠ 0x0B →
      (z.placeInTree.checkRanks.pump p).obj (objKey (0x4010 + p) b) = z.obj (objKey (0x4010 + p) b) := by
  obtain ⟨rising, -, tree⟩ := placeInTree_frame r
  have ranks := checkRanks_scrambles z.placeInTree
  have sec : z.placeInTree.checkRanks.sec = z.placeInTree.sec := by
    obtain ⟨_, _, _, _, e⟩ := ranks
    rw [e]
  obtain ⟨-, -, pumped, -⟩ := pump_same (s := z.placeInTree.checkRanks) (p := p)
  have kept : ∀ k, k ≠ oTxPayloadBytes p → k ≠ oTimeReferenceRank → k ≠ oTimeDistance → k ≠ oTimeParentPort →
      (z.placeInTree.checkRanks.pump p).obj k = z.obj k := fun k n1 n2 n3 n4 => by
    rw [(pump_drains (by rw [ranks.dict]; exact rising)).objs.objs k n1, ranks.obj, tree k n2 n3 n4]
  refine ⟨pumped.trans (sec.trans (placeInTree_apart z).2),
    kept _ (portObj_ne (a := 0x7040) (c := 1) hp (by decide) (by decide) (by decide)).symm (by decide) (by decide) (by decide),
    fun b hb n => kept _ (objKey_ne hb (by decide) (.inr n)) ?_ ?_ ?_⟩
  · exact portObj_ne (a := 0x4000) (c := 2) hp hb (by decide) (by decide)
  · exact portObj_ne (a := 0x4000) (c := 3) hp hb (by decide) (by decide)
  · exact portObj_ne (a := 0x4000) (c := 4) hp hb (by decide) (by decide)

/-- Settles O37: each end of a link is `State.linkDown` with its cause, after what a failed check counts or raises; a trained
port sends its attach flit from an empty queue; and what follows an attach leaves the link and its session. -/
theorem linkLife : Obligations.LinkLife := by
  intro p s sound hp
  have r := sound.objs
  refine ⟨fun down runs => if_pos ⟨hp, down, by rw [runs]; rfl⟩, fun rate training common => ?_,
    fun training => ⟨_, if_pos training, linkDown_duskCause r hp (by omega) (.inl rfl)⟩,
    fun up => ⟨_, if_pos up, linkDown_duskCause r hp (by omega) (.inl rfl)⟩,
    fun attaching => ⟨_, (if_neg (by omega)).trans (if_pos attaching),
      linkDown_ownCause r hp (by omega) (by decide) (by decide)⟩,
    fun up => ⟨_, if_pos up, linkDown_duskCause r hp (by omega) (.inr rfl)⟩,
    fun attaching => ⟨_, (if_neg (by omega)).trans (if_pos attaching),
      linkDown_ownCause r hp (by omega) (by decide) (by decide)⟩,
    fun e attaching => ⟨fun unready => ⟨_, exec_attachComplete_unready attaching unready, unready_goes_down r hp attaching⟩,
      fun serial peer complete ready => ⟨fun bad => ⟨_, exec_attachComplete_chains attaching peer complete ready bad,
        attachFail_goes_down r hp attaching⟩,
      fun chains certs bad => ⟨_, exec_attachComplete_signatures attaching peer complete ready chains certs bad,
        attachFail_goes_down r hp attaching⟩, fun chains certs signatures policy => ?_⟩⟩⟩
  · obtain ⟨found, run⟩ := exec_trainingComplete training common
    obtain ⟨link, objs, h, more, kind, out⟩ := trained_attaches (s := s) (p := p) (rate := found)
      (body := 3 :: Config.attachBody (s.obj oLogicalRank) Config.serial p) r
    exact ⟨_, h, _, more, run, link, objs, out, kind, rfl⟩
  · have run := exec_attachComplete_up attaching peer complete ready chains certs signatures policy
    obtain ⟨rising, link, rate, sessions, count⟩ :=
      attached_frame (w := s.setPort p (attachedPort s p serial e)) (rate := (s.port p).rate) r hp
    obtain ⟨sec, counted, kept⟩ := attached_follows rising hp
    exact ⟨_, run, (kept 1 (by decide) (by decide)).trans link, (congrArg Security.sessions sec).trans sessions,
      (counted.trans count).trans (by rw [sec]), (kept 2 (by decide) (by decide)).trans rate⟩

end Sys2Proof.Safety
end

section
/-! PROOFS. The statements of 11_fabric_links.md: what a received flit does. -/

namespace Sys2Proof.Safety

open Sys2Proof.Machine

/-! ### The checks of a flit (R293–R297) -/

/-- The objects that the checks of a flit count in (Table 11.13). -/
def flitObjs (p k : Nat) : Prop :=
  k = oFecUncorrectable p ∨ k = oFecCorrectedSymbols p ∨ k = oTagFailures p ∨ k = oRxPayloadBytes p

theorem badFlit_dict {x : State} {p : Nat} : (x.badFlit p).dict = x.dict := by
  unfold State.badFlit
  dsimp only
  split <;> rfl

/-- The first bad flit is answered with a nak (R296). -/
theorem badFlit_nak {x : State} {p : Nat} (first : (x.port p).nakSent = false) :
    ∃ h w, h % 4 = 2 ∧ (x.badFlit p).out = x.out ++ [.flit p h (List.replicate 240 0) w] := by
  unfold State.badFlit
  dsimp only
  rw [if_neg (by simp [first])]
  exact ⟨_, _, flitHeader_kind, rfl⟩

/-- A port once the acknowledgement and the credits of a header have been applied. -/
def acked (q : Port) (header : Nat) : Port :=
  let ack := field header 21 12
  let covered := q.replay.any (·.1 == ack)
  let v := field header 9 8
  { q with
    replay := if covered then (q.replay.dropWhile (·.1 != ack)).drop 1 else q.replay
    resends := if covered then 0 else q.resends
    credits := q.credits.set v (q.credits.getD v 0 + field header 7 2) }

theorem applyAck_eq {x : State} {p header : Nat} : x.applyAck p header = x.setPort p (acked (x.port p) header) := rfl

/-- An acknowledgement of the oldest flit that is held lets that flit go. -/
theorem acked_replay {q : Port} {header : Nat} {e : Nat × TxFlit} (oldest : e ∈ q.replay.head?)
    (same : e.1 = field header 21 12) : (acked q header).replay = q.replay.drop 1 := by
  obtain ⟨rest, held⟩ := List.head?_eq_some_iff.1 oldest
  unfold acked
  simp [held, same]

/-- The receiving key of a port in a flit's slot (R430). -/
def keyed (x : State) (p slot : Nat) : State :=
  match (x.port p).rxKey with
  | some k => x.setPort p { x.port p with rxKey := some (k.at slot) }
  | none => x

theorem keyed_frame {x : State} {p slot : Nat} : (keyed x p slot).dict = x.dict ∧
    ∃ k, (keyed x p slot).port p = { x.port p with rxKey := k } := by
  unfold keyed
  split
  · exact ⟨rfl, _, by rw [port_setPort, if_pos rfl]⟩
  · exact ⟨rfl, _, rfl⟩

/-- What an intact flit is, by its kind and sequence number, in the state in which its header has been applied. -/
def sorted (p h : Nat) (pl : List Byte) (v : State) : FlitResult × State :=
  let q := v.port p
  if h % 4 = 1 then (.idle, v)
  else if h % 4 = 2 then (.nak, v)
  else if field h 31 22 ≠ q.rxNext then (.outOfOrder, v)
  else
    let v := v.setPort p { q with rxNext := (q.rxNext + 1) % 1024, nakSent := false }
    if h % 4 = 0 then (.data (field h 11 10) pl, v.addObj (oRxPayloadBytes p) 240) else (.control pl, v)

theorem sorted_frame {p h : Nat} {pl : List Byte} {v : State} (r : Rising v.dict.objs) : (sorted p h pl v).1 ≠ .bad ∧
    Only (flitObjs p) v (sorted p h pl v).2 ∧ ((sorted p h pl v).2.port p).credits = (v.port p).credits ∧
    ((sorted p h pl v).2.port p).replay = (v.port p).replay := by
  have same : Only (flitObjs p) v v := .refl r
  unfold sorted
  dsimp only
  split
  · exact ⟨by simp, same, rfl, rfl⟩
  split
  · exact ⟨by simp, same, rfl, rfl⟩
  split
  · exact ⟨by simp, same, rfl, rfl⟩
  split
  · refine ⟨by simp, ?_, ?_⟩
    · dsimp only
      exact Only.addObj (same.same rfl) (.inr (.inr (.inr rfl)))
    · rw [port_addObj, port_setPort, if_pos rfl]
      exact ⟨rfl, rfl⟩
  · refine ⟨by simp, same.same rfl, ?_⟩
    rw [port_setPort, if_pos rfl]
    exact ⟨rfl, rfl⟩

section
variable {s : State} {p : Nat} {f : RxFlit}

theorem checkFlit_uncorrectable (wrong : correctFlit f.bytes = none) :
    s.checkFlit p f = (.bad, (s.count (oFecUncorrectable p)).badFlit p) := by
  unfold State.checkFlit
  rw [wrong]

variable {bs : List Byte} {n : Nat} (right : correctFlit f.bytes = some (bs, n))
include right

theorem checkFlit_unopened (closed : (s.addObj (oFecCorrectedSymbols p) n).openFlit p bs f.slot = none) :
    s.checkFlit p f = (.bad, (if (s.addObj (oFecCorrectedSymbols p) n).linkUp p then
      (s.addObj (oFecCorrectedSymbols p) n).count (oTagFailures p) else s.addObj (oFecCorrectedSymbols p) n).badFlit p) := by
  unfold State.checkFlit
  rw [right]
  dsimp only
  rw [closed]

theorem checkFlit_intact {h : Nat} {pl : List Byte}
    (opens : (s.addObj (oFecCorrectedSymbols p) n).openFlit p bs f.slot = some (h, pl)) :
    s.checkFlit p f = sorted p h pl ((keyed (s.addObj (oFecCorrectedSymbols p) n) p f.slot).applyAck p h) := by
  unfold State.checkFlit
  rw [right]
  dsimp only
  rw [opens]
  rfl

end

/-- The checks of a flit change no object but the counts of what they find. -/
theorem checkFlit_only {s : State} {p : Nat} {f : RxFlit} (r : Rising s.dict.objs) :
    Only (flitObjs p) s (s.checkFlit p f).2 := by
  have same : Only (flitObjs p) s s := .refl r
  cases right : correctFlit f.bytes with
  | none =>
    rw [checkFlit_uncorrectable right]
    exact (same.count (.inl rfl)).same (congrArg Dict.objs badFlit_dict)
  | some c =>
    obtain ⟨bs, n⟩ := c
    have corrected : Only (flitObjs p) s (s.addObj (oFecCorrectedSymbols p) n) := same.addObj (.inr (.inl rfl))
    cases opens : (s.addObj (oFecCorrectedSymbols p) n).openFlit p bs f.slot with
    | none =>
      rw [checkFlit_unopened right opens]
      refine Only.same ?_ (congrArg Dict.objs badFlit_dict)
      split
      · exact corrected.count (.inr (.inr (.inl rfl)))
      · exact corrected
    | some c =>
      obtain ⟨h, pl⟩ := c
      rw [checkFlit_intact right opens]
      have applied : Only (flitObjs p) s ((keyed (s.addObj (oFecCorrectedSymbols p) n) p f.slot).applyAck p h) :=
        corrected.same (congrArg Dict.objs keyed_frame.1)
      exact applied.trans (sorted_frame applied.rising).2.1

/-- Correcting symbols changes nothing of what opening a flit looks at. -/
theorem openFlit_corrected {s : State} {p n slot : Nat} {bs : List Byte} (r : Rising s.dict.objs) :
    (s.addObj (oFecCorrectedSymbols p) n).openFlit p bs slot = s.openFlit p bs slot := by
  unfold State.openFlit State.linkUp State.link
  rw [addObj_obj r (objKey_ne (by decide) (by decide) (.inr (by decide))), port_addObj]

/-- An intact flit brings credits, and acknowledges the oldest flit held where its header names it. -/
theorem checkFlit_credits {s : State} {p n h : Nat} {f : RxFlit} {bs pl : List Byte} (r : Rising s.dict.objs)
    (right : correctFlit f.bytes = some (bs, n)) (opens : s.openFlit p bs f.slot = some (h, pl)) :
    (s.checkFlit p f).1 ≠ .bad ∧ ((s.checkFlit p f).2.port p).credits = (s.port p).credits.set (field h 9 8)
      ((s.port p).credits.getD (field h 9 8) 0 + field h 7 2) ∧
    ∀ e ∈ (s.port p).replay.head?, e.1 = field h 21 12 → ((s.checkFlit p f).2.port p).replay = (s.port p).replay.drop 1 := by
  rw [checkFlit_intact right ((openFlit_corrected r).trans opens), applyAck_eq]
  obtain ⟨dict, k, port⟩ := keyed_frame (x := s.addObj (oFecCorrectedSymbols p) n) (p := p) (slot := f.slot)
  generalize keyed (s.addObj (oFecCorrectedSymbols p) n) p f.slot = y at *
  rw [port, port_addObj]
  obtain ⟨intact, -, credits, replay⟩ := sorted_frame (p := p) (h := h) (pl := pl)
    (v := y.setPort p (acked { s.port p with rxKey := k } h)) (by rw [State.setPort_dict, dict]; exact rising_addObj r)
  rw [port_setPort, if_pos rfl] at credits replay
  exact ⟨intact, credits, fun e oldest same => replay.trans (acked_replay (q := { s.port p with rxKey := k }) oldest same)⟩

/-! ### What each command does by the outcome of the checks -/

section
variable {s u : State} {p : Nat} {f : RxFlit} (live : s.receiving p = true)
include live

theorem receiving_link : 3 ≤ s.link p := by
  have states : (s.link p == 3 || s.link p == 4) = true := live
  simp only [Bool.or_eq_true, beq_iff_eq] at states
  omega

theorem exec_dataFlitReceive_bad (found : s.checkFlit p f = (.bad, u)) : exec (.dataFlitReceive p f) s = .next u := by
  show execDataFlitReceive p f s = _
  simp [execDataFlitReceive, live, found]

theorem exec_idleFlitReceive_bad (found : s.checkFlit p f = (.bad, u)) : exec (.idleFlitReceive p f) s = .next u := by
  show execIdleFlitReceive p f s = _
  simp [execIdleFlitReceive, live, found]

theorem exec_nakReceive_bad (found : s.checkFlit p f = (.bad, u)) : exec (.nakReceive p f) s = .next u := by
  show execNakReceive p f s = _
  simp [execNakReceive, live, found]

theorem exec_idleFlitReceive (found : s.checkFlit p f = (.idle, u)) :
    exec (.idleFlitReceive p f) s = .next (u.pump p) := by
  show execIdleFlitReceive p f s = _
  simp [execIdleFlitReceive, live, found]

theorem exec_dataFlitReceive_outOfOrder (found : s.checkFlit p f = (.outOfOrder, u)) :
    exec (.dataFlitReceive p f) s = .next (u.pump p) := by
  show execDataFlitReceive p f s = _
  simp [execDataFlitReceive, live, found]

theorem exec_dataFlitReceive {vc : Nat} {pl : List Byte} (found : s.checkFlit p f = (.data vc pl, u))
    (taken : s.link p = 3 → vc = 3) : exec (.dataFlitReceive p f) s = .next ((u.takeData p vc pl).pump p) := by
  show execDataFlitReceive p f s = _
  have accepted : ¬ (s.link p = 3 ∧ vc ≠ 3) := fun ⟨attaching, other⟩ => other (taken attaching)
  simp only [execDataFlitReceive, live, found, if_neg accepted]
  rfl

theorem exec_nakReceive (found : s.checkFlit p f = (.nak, u)) : exec (.nakReceive p f) s =
    if (u.port p).replay.isEmpty then .next (u.pump p)
    else if (u.port p).resends ≥ 8 then .next (u.linkDown p 1 2)
    else .next (((u.setPort p { u.port p with resends := (u.port p).resends + 1 }).resendAll p).pump p) := by
  show execNakReceive p f s = _
  simp [execNakReceive, live, found]

section
variable {pl : List Byte} (found : s.checkFlit p f = (.control pl, u))
include found

theorem exec_timestampReceive (type : pl.headD 0 = 1) :
    exec (.timestampReceive p f) s = .next ((u.takeStamp p (readStamp pl f.time)).pump p) :=
  congrArg Host.Outcome.next (onControl_is live found (head_nat type (by decide)))

theorem exec_abortReceive {i : Incoming} (type : pl.headD 0 = 2)
    (part : (u.port p).incoming.find? (·.vc == (pl.getD 1 0).toNat % 4) = some i) :
    exec (.abortReceive p f) s = .next (((u.setPort p { u.port p with
      incoming := (u.port p).incoming.filter (·.vc != (pl.getD 1 0).toNat % 4) }).abortIncoming p i).pump p) := by
  refine congrArg Host.Outcome.next ((onControl_is live found (head_nat type (by decide))).trans ?_)
  dsimp only
  rw [part]

theorem exec_attachReceive {info : AttachInfo} (type : pl.headD 0 = 3) (attaching : s.link p = 3) :
    exec (.attachReceive p f info) s = .next ((((u.setPort p { u.port p with peerSerial := some info.serial }).setObj
      (oPeerRank p) (info.rank % 65536)).setObj (oPeerPort p) (info.port % 256)).pump p) :=
  (if_neg (Decidable.not_not.2 attaching)).trans
    (congrArg Host.Outcome.next (onControl_is live found (head_nat type (by decide))))

theorem exec_keyUpdateReceive {k : LinkKey} (type : pl.headD 0 = 4) (up : s.link p = 4) (key : (u.port p).rxKey = some k) :
    exec (.keyUpdateReceive p f) s = .next ((u.setPort p { u.port p with
      rxKey := some { k with next := some (k.base + ofLe ((pl.drop 2).take 8)) } }).pump p) := by
  refine (if_neg (by simp [State.linkUp, up])).trans
    (congrArg Host.Outcome.next ((onControl_is live found (head_nat type (by decide))).trans ?_))
  dsimp only
  rw [key]
  rfl

end
end

/-- An abort is counted, and what is sent then leaves the count (R304). -/
theorem abort_pump {x : State} {p : Nat} {i : Incoming} (r : Rising x.dict.objs) (kept : i.fate ≠ .discard) :
    ((x.abortIncoming p i).pump p).obj oAbortedMessages = (x.obj oAbortedMessages + 1) % 2 ^ 64 ∧
    ((x.abortIncoming p i).pump p).mem = x.mem ∧ ((x.abortIncoming p i).pump p).sched = x.sched := by
  obtain ⟨rising, counted, mem, sched⟩ := abort_facts (p := p) r kept
  obtain ⟨mem', sched', -⟩ := pump_same (s := x.abortIncoming p i) (p := p)
  exact ⟨((pump_drains rising).objs.objs _ (fabricObj_ne_payload (b := 9) (by decide) (by decide))).trans counted,
    mem'.trans mem, sched'.trans sched⟩

/-- What an attach flit says of the peer stands once what waits has been sent (R318). -/
theorem peer_pump {x : State} {p rank port : Nat} (r : Rising x.dict.objs) :
    let t := ((x.setObj (oPeerRank p) rank).setObj (oPeerPort p) port).pump p
    t.obj (oPeerRank p) = rank ∧ t.obj (oPeerPort p) = port ∧ t.mem = x.mem ∧ t.sched = x.sched := by
  intro t
  have ranked := rising_setObj (k := oPeerRank p) (v := rank) r
  have drained := (pump_drains (p := p) (rising_setObj (k := oPeerPort p) (v := port) ranked)).objs.objs
  obtain ⟨mem, sched, -⟩ := pump_same (s := (x.setObj (oPeerRank p) rank).setObj (oPeerPort p) port) (p := p)
  refine ⟨(drained _ (objKey_ne (by decide) (by decide) (.inr (by decide)))).trans ?_,
    (drained _ (objKey_ne (by decide) (by decide) (.inr (by decide)))).trans ?_, mem, sched⟩
  · rw [obj_setObj_ne ranked (objKey_ne (by decide) (by decide) (.inr (by decide))), obj_setObj r, if_pos rfl]
  · rw [obj_setObj ranked, if_pos rfl]

/-- Settles O38: the checks leave the link as it is and say what a flit is; each command then does what that calls for. -/
theorem flitsAreTakenIn : Obligations.FlitsAreTakenIn := by
  intro p f s u r sound hp live found
  have only : Only (flitObjs p) s u := by
    have checked := checkFlit_only (p := p) (f := f) sound.objs
    rwa [found] at checked
  have link : u.link p = s.link p := only.objs _ (by
    rintro (e | e | e | e) <;> exact absurd e (objKey_ne (by decide) (by decide) (.inr (by decide))))
  have three := receiving_link live
  refine ⟨fun wrong => ?_, fun bs n h pl right opens => ?_, ?_, ?_, ?_, ?_, ?_, ?_, ?_, ?_, ?_, ?_, ?_⟩
  · rw [checkFlit_uncorrectable wrong] at found
    cases found
    obtain ⟨x, hx, rising, -, counted, -, -, ports, out, -⟩ := count_facts (k := oFecUncorrectable p) sound.objs
    rw [hx]
    refine ⟨rfl, (obj_congr (congrArg Dict.objs badFlit_dict) _).trans (counted.trans (by rw [fec_size p hp])), fun first => ?_⟩
    rw [← out]
    refine badFlit_nak ?_
    unfold State.port at first ⊢
    rwa [ports]
  · have checked := checkFlit_credits sound.objs right opens
    rwa [found] at checked
  · rintro rfl
    exact ⟨exec_dataFlitReceive_bad live found, exec_idleFlitReceive_bad live found, exec_nakReceive_bad live found,
      congrArg Host.Outcome.next (onControl_bad live found)⟩
  · rintro rfl
    exact exec_idleFlitReceive live found
  · rintro rfl
    exact exec_dataFlitReceive_outOfOrder live found
  · rintro vc pl rfl taken
    exact exec_dataFlitReceive live found taken
  · rintro rfl empty
    exact (exec_nakReceive live found).trans (if_pos (by rw [empty]; rfl))
  · rintro rfl held few
    exact (exec_nakReceive live found).trans ((if_neg (by simpa using held)).trans (if_neg (by omega)))
  · rintro rfl held many
    exact ⟨_, (exec_nakReceive live found).trans ((if_neg (by simpa using held)).trans (if_pos many)),
      linkDown_ownCause only.rising hp (by omega) (by decide) (by decide)⟩
  · rintro pl rfl type
    exact exec_timestampReceive live found type
  · rintro pl i rfl type part kept
    exact ⟨_, exec_abortReceive live found type part, abort_pump only.rising kept⟩
  · rintro pl info rfl type attaching
    exact ⟨_, exec_attachReceive live found type attaching, peer_pump only.rising⟩
  · rintro pl k rfl type up key
    exact exec_keyUpdateReceive live found type up key

end Sys2Proof.Safety
end

section
/-! PROOFS. The statements of 12_collectives_and_parallel_mapping.md: what commands of collectives, snapshots and the twin
leave unchanged. -/

namespace Sys2Proof.Safety

open Sys2Proof.Machine

/-- What a command of a collective, a snapshot, a deadline or the twin does: it answers a next state, which keeps what
`Collects` names. The other commands fall to the hypothesis, which is false of each of them. -/
theorem exec_collects {s0 s : State} {c : Instr} (hc : CollectiveCommand c) (h : Collects s0 s) :
    PassO (Collects s0) (exec c s) := by
  cases c with
  | allReduce r => exact execAllReduce_collects r h
  | reduceScatter r => exact execReduceScatter_collects r h
  | allGather r => exact execAllGather_collects r h
  | allToAll r => exact execAllToAll_collects r h
  | allToAllv r => exact execAllToAllv_collects r h
  | allToAllvReverse r => exact execAllToAllvReverse_collects r h
  | broadcast r => exact execBroadcast_collects r h
  | permute r => exact execPermute_collects r h
  | barrier r => exact execBarrier_collects r h
  | ready p v => exact execReady_collects p v h
  | reduce p v => exact execReduce_collects p v h
  | place p v => exact execPlace_collects p v h
  | counts p v => exact execCounts_collects p v h
  | barrierUp p v => exact execBarrierUp_collects p v h
  | barrierDown p v => exact execBarrierDown_collects p v h
  | barrierRelease r => exact execBarrierRelease_collects r h
  | contributionDeadline r => exact execContributionDeadline_collects r h
  | snapshot r => exact execSnapshot_collects r h
  | midnightWrite r => exact execMidnightWrite_collects r h
  | midnightClose r => exact execMidnightClose_collects r h
  | heartbeat p v => exact execHeartbeat_collects p v h
  | heartbeatSend => exact execHeartbeatSend_collects h
  | twinLost => exact execTwinLost_collects h
  | snapData p v => exact execSnapData_collects p v h
  | snapHeader p v => exact execSnapHeader_collects p v h
  | fetch p v => exact execFetch_collects p v h
  | fetchData p v => exact execFetchData_collects p v h
  | dusk p v => exact execDusk_collects p v h
  | duskIdle => exact execDuskIdle_collects h
  | _ => exact False.elim hc

/-- Settles O51: the command starts from the state itself, of which nothing has changed yet. -/
theorem collectiveFrame : Obligations.CollectiveFrame := by
  intro c s t hc e
  have passes : PassO (Collects s) (exec c s) := exec_collects hc (.refl s)
  exact passes.of e

end Sys2Proof.Safety
end

section
/-! PROOFS. The statements of 12_collectives_and_parallel_mapping.md: what messages do to the progress of their
task. -/

namespace Sys2Proof.Safety

open Sys2Proof.Machine

/-! ### Work on the progress of a task -/

/-- The work runs to its end on a state. The task of the context then has a progress of which `P` holds, and memory and the
scheduler are as they were. -/
def Leaves (c : CollCtx) (m : M Unit) (s : State) (P : Coll → Prop) : Prop :=
  ∃ t q, m.run s = .ok () t ∧ t.coll? c.t.record = some q ∧ P q ∧ t.mem = s.mem ∧ t.sched = s.sched

section
variable {c : CollCtx} {m n : M Unit} {s : State} {q : Coll} {P R : Coll → Prop} {f : Coll → Coll}

/-- Work after work. -/
theorem Leaves.bind (h : Leaves c m s P) (k : ∀ t q, t.coll? c.t.record = some q → P q → Leaves c n t R) :
    Leaves c (m >>= fun _ => n) s R := by
  obtain ⟨t, q, run, coll, hp, mem, sched⟩ := h
  obtain ⟨t', q', run', coll', hr, mem', sched'⟩ := k t q coll hp
  exact ⟨t', q', bind_ok run run', coll', hr, mem'.trans mem, sched'.trans sched⟩

/-- Work after a change of the progress, on the state so changed. -/
theorem Leaves.upd_bind (h : s.coll? c.t.record = some q) (hf : ∀ q, (f q).record = q.record)
    (k : (s.modColl c.t.record f).coll? c.t.record = some (f q) → Leaves c n (s.modColl c.t.record f) P) :
    Leaves c (c.upd f >>= fun _ => n) s P := k (coll?_modColl h hf)

/-- Work that begins by looking at the state. -/
theorem Leaves.get_bind {g : State → M Unit} (k : Leaves c (g s) s P) :
    Leaves c ((MonadState.get : M State) >>= g) s P := k

/-- Work that begins by looking at the progress. -/
theorem Leaves.coll_bind {g : Coll → M Unit} (h : s.coll? c.t.record = some q) (k : Leaves c (g q) s P) :
    Leaves c (c.coll >>= g) s P := by
  obtain ⟨t, q', run, rest⟩ := k
  exact ⟨t, q', bind_ok (coll_run h) run, rest⟩

/-- Work that begins by counting additions passed on (R332) has the same progress before it. -/
theorem Leaves.addsPassed_bind {k : Nat} (h : s.coll? c.t.record = some q)
    (work : ∀ t, t.coll? c.t.record = some q → Leaves c n t P) : Leaves c (addsPassed k >>= fun _ => n) s P := by
  obtain ⟨mem, sched, colls, -⟩ := addObj_silent s oAtomicOps k
  have same : (s.addObj oAtomicOps k).coll? c.t.record = some q := by
    unfold State.coll?
    rw [colls]
    exact h
  obtain ⟨t, q', run, coll, hp, mem', sched'⟩ := work _ same
  exact ⟨t, q', bind_mod run, coll, hp, mem'.trans mem, sched'.trans sched⟩

theorem Leaves.mono (h : Leaves c m s P) (k : ∀ q, P q → R q) : Leaves c m s R := by
  obtain ⟨t, q, run, coll, hp, rest⟩ := h
  exact ⟨t, q, run, coll, k q hp, rest⟩

theorem upd_leaves (h : s.coll? c.t.record = some q) (hf : ∀ q, (f q).record = q.record) :
    Leaves c (c.upd f) s (· = f q) :=
  ⟨_, _, rfl, coll?_modColl h hf, rfl, rfl, rfl⟩

theorem owe_leaves {x : CollSend} (h : s.coll? c.t.record = some q) : Leaves c (c.owe x) s (· = oweTo c s x q) := by
  obtain ⟨t, run, coll, mem, sched, -⟩ := owe_run (m := x) h
  exact ⟨t, _, run, coll, rfl, mem, sched⟩

/-- What is owed to a task that waits for every peer is owed in any case (R365). -/
theorem oweTo_present {x : CollSend} (h : ∀ r, r ∉ q.absent) : oweTo c s x q = { q with todo := q.todo ++ [x] } :=
  if_neg (by simp [h])

/-- Sending what is owed changes only what is still owed. -/
theorem flush_leaves (h : s.coll? c.t.record = some q) : Leaves c c.flush s fun q' => ∃ l, q' = { q with todo := l } := by
  obtain ⟨t, q', run, coll, todo, mem, sched⟩ := flush_run h
  exact ⟨t, q', run, coll, todo, mem, sched⟩

/-- The messages down a tree are owed, and nothing else of the progress changes. -/
theorem sendDown_leaves {release flags norms : Nat} (h : s.coll? c.t.record = some q) :
    Leaves c (c.sendDown release flags norms) s fun q' => ∃ l, q' = { q with todo := l } := by
  obtain ⟨t, q', run, coll, todo, mem, sched, -⟩ := forM_owe (l := c.children)
    (f := fun j => ({ rank := c.rank j, kind := 6, word := release, flags := flags, norms := norms } : CollSend)) h
  exact ⟨t, q', run, coll, todo, mem, sched⟩

end

/-- What a message's work leaves of its task is what its command leaves. -/
theorem onMessage_leaves {s u : State} {p v k : Nat} {act : CollCtx → CollMsg → M Unit} {c : CollCtx} {x : CollMsg}
    {P : Coll → Prop} (sound : Sound s) (h : actsOn s p v k = some (u, c, x)) (work : Leaves c (act c x) u P) :
    ∃ t q', s.onMessage p v k act = .next t ∧ t.coll? c.t.record = some q' ∧ P q' ∧ t.mem = s.mem ∧
      t.sched = s.sched := by
  obtain ⟨t, q', run, coll, hp, mem, sched⟩ := work
  obtain ⟨mem', sched', -⟩ := acts_same sound.objs h
  exact ⟨t, q', (message_exec h).trans (runColl_ends.1 run), coll, hp, mem.trans mem', sched.trans sched'⟩

/-- An object that counting a message's bytes leaves alone. -/
theorem actsOn_obj {s u : State} {p v k j : Nat} {c : CollCtx} {x : CollMsg} (sound : Sound s)
    (h : actsOn s p v k = some (u, c, x)) (n : j ≠ oCollBytesReceived) : u.obj j = s.obj j := by
  obtain ⟨-, -, objs⟩ := acts_same sound.objs h
  exact objs j n

/-! ### The messages -/

section
variable {c : CollCtx} {x : CollMsg} {s : State} {q : Coll} (h : s.coll? c.t.record = some q)
include h

theorem onCounts_leaves : Leaves c (c.onCounts x) s fun q' =>
    q'.counts = q.counts ++ [⟨x.rank, x.port, x.offset, bytesCodes 4 x.data⟩] ∧
    q'.tokens = q.tokens.filter fun r => r != x.rank || decide ((countsOf q' r).length < colExperts c.t.image) := by
  refine (upd_leaves h ?_).mono ?_
  · exact fun _ => rfl
  · rintro _ rfl
    exact ⟨rfl, rfl⟩

/-- On a tree without staging the sum waits for its last contribution (R331, R332). -/
theorem onReduce_leaves_tree (fits : c.reduceFits x = true) (tree : c.move = 3) (direct : c.staged = false)
    (codes : bytesCodes c.eb x.data ≠ []) : Leaves c (c.onReduce x) s fun q' =>
      q'.awaitReduce = takeFrom q.awaitReduce x.rank x.data.length ∧
      q'.pieces = q.pieces ++ [⟨x.rank, x.port, x.offset, bytesCodes c.eb x.data⟩] := by
  unfold CollCtx.onReduce CollCtx.discardUnless
  simp only [fits, tree, direct, if_true, pure_bind]
  refine .upd_bind h (fun _ => rfl) fun awaited => .upd_bind awaited (fun _ => rfl) fun kept => ?_
  exact ⟨_, _, rfl, kept, ⟨rfl, if_neg (by simpa using codes)⟩, rfl, rfl⟩

/-- A part of another position's chunk goes on to the next position of its ring, with this position's added (R332). -/
theorem ringReduce_leaves (away : x.offset / max 1 c.chunk ≠ c.me) (present : ∀ r, r ∉ q.absent) :
    Leaves c (c.ringReduce x) s fun q' => ∃ m, q' = { q with todo := q.todo ++ [m] } ∧ m.kind = 2 ∧
      m.offset = x.offset ∧
      m.rank = c.rank (c.next (decide (x.offset % max 1 c.chunk < firstHalf (max 1 c.chunk)))) ∧
      m.data = codeBytes c.eb (((bytesCodes c.eb x.data).zip (valRange c.eb x.offset x.data.length q.vals)).map fun p =>
        addCode c.fmt p.1 p.2) := by
  unfold CollCtx.ringReduce
  refine .coll_bind h ?_
  simp only [if_neg away]
  refine .addsPassed_bind h fun t same => (owe_leaves same).mono ?_
  rintro _ rfl
  exact ⟨_, oweTo_present present, rfl, rfl, rfl, rfl⟩

/-- On a ring a contribution is taken from what is awaited, and its sum with this position's part goes on (R332). -/
theorem onReduce_leaves_ring (fits : c.reduceFits x = true) (ring : c.move = 1) (away : x.offset / max 1 c.chunk ≠ c.me)
    (present : ∀ r, r ∉ q.absent) : Leaves c (c.onReduce x) s fun q' =>
      q'.awaitReduce = takeFrom q.awaitReduce x.rank x.data.length ∧ ∃ m, q'.todo = q.todo ++ [m] ∧ m.kind = 2 ∧
        m.offset = x.offset ∧
        m.rank = c.rank (c.next (decide (x.offset % max 1 c.chunk < firstHalf (max 1 c.chunk)))) ∧
        m.data = codeBytes c.eb (((bytesCodes c.eb x.data).zip (valRange c.eb x.offset x.data.length q.vals)).map fun p =>
          addCode c.fmt p.1 p.2) := by
  unfold CollCtx.onReduce CollCtx.discardUnless
  simp only [fits, ring, if_true, pure_bind]
  refine .upd_bind h (fun _ => rfl) fun awaited => (ringReduce_leaves awaited away present).mono ?_
  rintro _ ⟨m, rfl, sent⟩
  exact ⟨rfl, m, rfl, sent⟩

/-- A barrier_up is kept; that of the last child fixes the release tick at the root (R340). -/
theorem onBarrierUp_leaves : Leaves c (c.onBarrierUp x) s fun q' =>
    q'.ups = q.ups ++ [⟨x.rank, x.phase, x.flags, x.norms⟩] ∧
    q'.tokens = (if x.phase = q.phase then q.tokens.filter (· != x.rank) else q.tokens) ∧
    (c.parent c.me = none → colOp c.t.image = 8 → q.begun = true → q.reduced = false →
      (∀ j ∈ c.children, c.rank j ∉ q'.tokens) → q'.release = some (s.tick + s.obj oBarrierMarginTicks)) := by
  unfold CollCtx.onBarrierUp
  refine .upd_bind h (fun _ => rfl) fun kept => ?_
  obtain ⟨t, q', run, coll, tokens, ups, mem, sched, release⟩ := barrierUp_run kept
  have up : Leaves c c.barrierUp _ (· = q') := ⟨t, q', run, coll, rfl, mem, sched⟩
  refine up.bind fun t q1 coll e => (flush_leaves coll).mono ?_
  rintro _ ⟨l, rfl⟩
  subst e
  refine ⟨ups, tokens, fun root op begun open' heard => ?_⟩
  exact release root op begun open' (by rw [← tokens]; exact heard)

/-- A barrier_down gives the release tick, late where its boundary has passed (R340). -/
theorem onBarrierDown_leaves : Leaves c (c.onBarrierDown x) s fun q' =>
    q'.tokens = q.tokens.filter (· != x.rank) ∧ q'.totals = (x.flags, x.norms) ∧
    q'.release = some (max x.word s.tick) ∧ q'.late = decide (x.word ≤ s.tick) := by
  unfold CollCtx.onBarrierDown
  refine .get_bind (.upd_bind h (fun _ => rfl) fun given => ?_)
  refine (sendDown_leaves given).bind fun t q1 coll e => (flush_leaves coll).mono ?_
  obtain ⟨l, rfl⟩ := e
  rintro _ ⟨l', rfl⟩
  exact ⟨rfl, rfl, rfl, rfl⟩

end

/-- Settles O53: the work of each message runs to its end, which its command answers; counting the bytes that came has
changed neither the tick nor the barrier margin. -/
theorem messagesActOnTasks : Obligations.MessagesActOnTasks := by
  intro port vc s u c x q sound coll
  refine ⟨fun acts => ?_, fun acts fits tree direct codes => ?_, fun acts fits ring away present => ?_, fun acts => ?_,
    fun acts => ?_⟩
  · obtain ⟨t, q', e, coll', ⟨counts, tokens⟩, same⟩ := onMessage_leaves sound acts (onCounts_leaves coll)
    exact ⟨t, q', e, coll', counts, tokens, same⟩
  · obtain ⟨t, q', e, coll', ⟨awaited, pieces⟩, same⟩ :=
      onMessage_leaves sound acts (onReduce_leaves_tree coll fits tree direct codes)
    exact ⟨t, q', e, coll', awaited, pieces, same⟩
  · obtain ⟨t, q', e, coll', ⟨awaited, m, todo, kind, offset, rank, data⟩, same⟩ :=
      onMessage_leaves sound acts (onReduce_leaves_ring coll fits ring away present)
    exact ⟨t, q', m, e, coll', awaited, todo, kind, offset, rank, data, same⟩
  · obtain ⟨t, q', e, coll', ⟨ups, tokens, release⟩, same⟩ := onMessage_leaves sound acts (onBarrierUp_leaves coll)
    rw [show u.tick = s.tick from actsOn_obj sound acts (by decide), actsOn_obj sound acts (by decide)] at release
    exact ⟨t, q', e, coll', ups, tokens, release, same⟩
  · obtain ⟨t, q', e, coll', ⟨tokens, totals, release, late⟩, same⟩ :=
      onMessage_leaves sound acts (onBarrierDown_leaves coll)
    rw [show u.tick = s.tick from actsOn_obj sound acts (by decide)] at release late
    exact ⟨t, q', e, coll', tokens, totals, release, late, same⟩

end Sys2Proof.Safety
end

section
/-! PROOFS. The statements of 12_collectives_and_parallel_mapping.md: the end of a barrier. -/

namespace Sys2Proof.Safety

open Sys2Proof.Machine

/-- The context of a collective task holds the task itself; only a snapshot's has a record of its barriers (R357). -/
theorem collCtx_task {s : State} {t : Machine.Task} (kind : recKind t.image = 5) : (s.collCtx t).t = t := by
  unfold State.collCtx
  rw [kind]
  rfl

/-- A barrier whose release boundary comes ends its work (R340). -/
theorem exec_barrierRelease {r tick : Nat} {s : State} {t : Machine.Task} {q : Coll} (working : s.working? r = some t)
    (coll : s.coll? r = some q) (kind : recKind t.image = 5) (op : colOp t.image = 8) (todo : q.todo = [])
    (tokens : q.tokens = []) (release : q.release = some tick) (come : tick ≤ s.tick + 1) :
    exec (.barrierRelease r) s = s.runColl s (s.collCtx t) (s.collCtx t).finish := by
  show execBarrierRelease r s = _
  unfold execBarrierRelease
  rw [working, coll]
  dsimp only
  rw [release]
  exact if_pos ⟨kind, op, by rw [todo]; rfl, by rw [tokens]; rfl, come⟩

/-- Which readies are used follows from those held. -/
theorem useReadies_readies {s t : State} {tag : Nat} (h : t.colls.readies = s.colls.readies) :
    (t.useReadies tag).colls.readies = (s.useReadies tag).colls.readies := by
  unfold State.useReadies
  rw [h]

/-- Settles O55: what the barrier delivers comes first, then its readies are used and its task is counted; after that only
the tasks change. -/
theorem barriersEnd : Obligations.BarriersEnd := by
  intro r tick s t q sound working holder bins coll kind op todo tokens release come unchanged fits
  obtain ⟨-, rfl⟩ := working_parts working
  have run := exec_barrierRelease working coll kind op todo tokens release come
  have task : (s.collCtx t).t = t := collCtx_task kind
  generalize s.collCtx t = c at run task
  subst task
  obtain ⟨b, hb, rising, ended, late, mem, sched, ports, colls⟩ := endBarrier_parts (c := c) (q := q) sound.objs
  obtain ⟨y, hy, -, others, counted, mem', -, ports', -, -, colls', -⟩ :=
    count_facts (s := b.useReadies (colTag c.t.image)) (k := oCollectiveTasks) rising
  have held : (c.endBarrier q s).holder? c.t.record = some c.t := by
    unfold State.holder? at holder ⊢
    rw [hb, sched]
    exact holder
  obtain ⟨l, finished, found⟩ := finish_barrier (y := y) coll op unchanged fits held rfl bins (by rw [hb, hy])
  have kept : b.colls.readies = s.colls.readies := by
    rw [colls]
    split <;> rfl
  have skew : y.colls.skew = b.colls.skew := by
    rw [colls']
    rfl
  have size : objSize oCollectiveTasks = 8 := by decide +kernel
  rw [size] at counted
  refine ⟨_, run.trans (runColl_ends.1 finished), found, ?_, (congrArg Colls.readies colls').trans (useReadies_readies kept),
    fun carries => ?_, fun bare => ?_, ?_, mem'.trans mem, ports'.trans ports⟩
  · rw [← ended]
    exact counted
  · exact skew.trans (by rw [colls, if_pos carries])
  · exact skew.trans (by rw [colls, if_neg (by rw [bare]; decide)])
  · exact (others oBarrierLate (by decide)).trans late

end Sys2Proof.Safety
end

section
/-! PROOFS. The statements of 13_resilience.md: commits that are accepted, requests for Dusk and for resets, and the twin's
messages and heartbeats. -/

namespace Sys2Proof.Safety

open Sys2Proof.Machine

/-! ### Accepted commits -/

/-- A commit command commits its group, on the state in which the write has been counted. -/
theorem exec_commit {c : Instr} {p : Path} {g : Nat} {s : State} (r : Rising s.dict.objs) (h : commitOf c = some (p, g))
    (may : MayWrite s p g 0xFF) : exec c s = .next ((writeBy p 1 s).commitGroup g).2 := by
  obtain ⟨row, d, found, -, wo, size, type, -⟩ := commit_defs c p g h
  exact (row s).trans (commitRow_ok r may found wo size type)

section
variable {s : State} (r : Rising s.dict.objs)
include r

/-- A group whose effect waits: its set replaces an earlier one, and what its commit does at once leaves the other
objects (R380, R381). -/
theorem commitGroup_waits {g : Nat} (accepted : s.commitRefused g (s.pendingSet g) = false) (n1 : g ≠ 0x5030)
    (n2 : g ≠ 0x7110) :
    (s.commitGroup g).2.obj oCommitResult = g <<< 16 ∧ (s.commitGroup g).2.dict.pend = s.dict.pend ∧
    (s.commitGroup g).2.dict.committed = s.dict.committed.filter (·.group != g) ++
      [⟨g, s.pendingSet g, s.effectPoint g (s.pendingSet g)⟩] ∧
    ∀ k, k ≠ oCommitResult → k ≠ oEventStalled → k ≠ oLateBytesDropped → (s.commitGroup g).2.obj k = s.obj k := by
  rw [commitGroup_ok r accepted]
  simp only [if_neg n2, if_pos (And.intro n1 n2)]
  generalize hw : ({ s with dict := { s.dict with committed := s.dict.committed.filter (·.group != g) ++
    [⟨g, s.pendingSet g, s.effectPoint g (s.pendingSet g)⟩] } } : State) = w
  have objs : w.dict.objs = s.dict.objs := by rw [← hw]
  obtain ⟨rising, pend, committed, others⟩ := acceptNow_frame (vals := s.pendingSet g) (by rwa [objs]) n1 n2
  obtain ⟨result, kept, pend', committed', -⟩ := commitOutcome_frame (g := g) (o := 0) rising
  refine ⟨result, pend'.trans (pend.trans ?_), committed'.trans (committed.trans ?_), fun k k1 k2 k3 => ?_⟩
  · rw [← hw]
  · rw [← hw]
  · exact (kept k k1).trans ((others k k2 k3).trans (obj_congr objs k))

/-- The commit of a restore starts it (R369). -/
theorem commitGroup_restore (accepted : s.commitRefused 0x5030 (s.pendingSet 0x5030) = false) :
    (s.commitGroup 0x5030).2.obj oCommitResult = 0x5030 <<< 16 ∧ (s.commitGroup 0x5030).2.dict.pend = s.dict.pend ∧
    ∃ q, (s.commitGroup 0x5030).2.resil.restore = some q ∧ q.got = [] ∧ q.source = s.pendObj oRestoreSource := by
  obtain ⟨nodup, member⟩ := members_5030
  have started :=
    accept_5030 (vals := s.pendingSet 0x5030) r (by rwa [pendingSet_keys]) (pendingSet_find member)
  rw [commitGroup_ok r accepted]
  simp only [reduceIte, Nat.reduceEqDiff, ne_eq, not_true_eq_false, false_and]
  generalize s.acceptNow 0x5030 (s.pendingSet 0x5030) = t at started ⊢
  obtain ⟨rising, pend, q, restore, got, source⟩ := started
  obtain ⟨result, -, pend', -, -, -, -, resil, -⟩ := commitOutcome_frame (g := 0x5030) (o := 0) rising
  exact ⟨result, pend'.trans pend, q, (congrArg Resilience.restore resil).trans restore, got, source⟩

/-- The commit of the tables of a job starts to load them (R437). -/
theorem commitGroup_tables (accepted : s.commitRefused 0x7110 (s.pendingSet 0x7110) = false) :
    (s.commitGroup 0x7110).2.obj oCommitResult = 0x7110 <<< 16 ∧ (s.commitGroup 0x7110).2.dict.pend = s.dict.pend ∧
    (s.commitGroup 0x7110).2.obj oTableState = 1 ∧ (s.commitGroup 0x7110).2.sec.clearing = true ∧
    (s.commitGroup 0x7110).2.obj oTableImage = s.pendObj oTableImage := by
  obtain ⟨nodup, member⟩ := members_7110
  have loading :=
    accept_7110 (vals := s.pendingSet 0x7110) (rising_setObj (k := oTableRefuseCode)
      (v := s.tableRefusal (s.inSet (s.pendingSet 0x7110) oTableImage)) r) (by rwa [pendingSet_keys]) (pendingSet_find member)
  rw [commitGroup_ok r accepted]
  simp only [reduceIte, ne_eq, not_true_eq_false, and_false]
  generalize State.acceptNow _ 0x7110 (s.pendingSet 0x7110) = t at loading ⊢
  obtain ⟨rising, pend, state, clearing, image⟩ := loading
  obtain ⟨result, kept, pend', -, -, -, -, -, sec⟩ := commitOutcome_frame (g := 0x7110) (o := 0) rising
  exact ⟨result, pend'.trans pend, (kept _ (by decide)).trans state, (congrArg Security.clearing sec).trans clearing,
    (kept _ (by decide)).trans image⟩

end

/-- Settles O18: counting the write changes neither the pending values nor whether they are refused; the two groups that
take effect at once and the others, each by its lemma. -/
theorem commitsAreAccepted : Obligations.CommitsAreAccepted := by
  intro c p g s sound h may accepted
  have r : Rising (writeBy p 1 s).dict.objs := writeBy_rising sound.objs
  obtain ⟨-, -, -, -, -, -, -, -, pend, committed, -⟩ := writeBy_frame p 1 s
  have pending : ∀ k, (writeBy p 1 s).pendObj k = s.pendObj k := fun k => by
    unfold State.pendObj
    rw [pend]
  have accepted' : (writeBy p 1 s).commitRefused g ((writeBy p 1 s).pendingSet g) = false := by
    rw [pendingSet_by, commitRefused_by sound.objs]
    exact accepted
  refine ⟨_, exec_commit sound.objs h may, ?_⟩
  by_cases restore : g = 0x5030
  · subst restore
    obtain ⟨result, pend', q, started, got, source⟩ := commitGroup_restore r accepted'
    exact ⟨result, pend'.trans pend, fun n => absurd rfl n, fun _ => ⟨q, started, got, source.trans (pending _)⟩,
      fun e => absurd e (by decide)⟩
  by_cases tables : g = 0x7110
  · subst tables
    obtain ⟨result, pend', state, clearing, image⟩ := commitGroup_tables r accepted'
    exact ⟨result, pend'.trans pend, fun _ n => absurd rfl n, fun e => absurd e (by decide),
      fun _ => ⟨state, clearing, image.trans (pending _)⟩⟩
  obtain ⟨result, pend', waits, others⟩ := commitGroup_waits r accepted' restore tables
  rw [committed, pendingSet_by, effectPoint_by sound.objs] at waits
  exact ⟨result, pend'.trans pend, fun _ _ => ⟨waits, others⟩, fun e => absurd e restore, fun e => absurd e tables⟩

/-! ### Requests for Dusk -/

theorem requestDusk_first {s : State} {v : Nat} (h : s.resil.dusk = 0) (low : 1 ≤ v) (high : v ≤ 3) :
    s.requestDusk v = { s with resil := { s.resil with dusk := v } } :=
  if_pos ⟨h, low, high⟩

theorem requestDusk_again {s : State} {v : Nat} (h : s.resil.dusk ≠ 0) : s.requestDusk v = s :=
  if_neg fun c => h c.1

/-- A write to `dusk_request` performs the request, on the state in which the write has been counted. -/
theorem pathWrite_dusk {p : Path} {s : State} (v : Nat) (r : Rising s.dict.objs) (may : MayWrite s p 0x5040 1) :
    s.pathWrite p 0x5040 1 (leBytes 1 v) = .next ((writeBy p 1 s).requestDusk (v % 256)) := by
  obtain ⟨-, -, -, -, -, -, -, -, -, -, dusk, -⟩ := request_defs
  exact write_row r may dusk (by decide) rfl (.inl rfl)

/-- Settles O22: each of the three commands writes its stage, and counting the write leaves the stage of Dusk. -/
theorem duskStartsOnce : Obligations.DuskStartsOnce := by
  intro p s sound may
  obtain ⟨-, -, -, resil, -⟩ := writeBy_frame p 1 s
  have write := fun v => pathWrite_dusk v sound.objs may
  refine ⟨fun first => ?_, fun again => ?_⟩
  · have start : ∀ v, 1 ≤ v → v ≤ 3 →
        (writeBy p 1 s).requestDusk v = { writeBy p 1 s with resil := { s.resil with dusk := v } } := fun v low high => by
      rw [requestDusk_first (by rwa [resil]) low high, resil]
    exact ⟨(write 1).trans (congrArg _ (start 1 (by decide) (by decide))),
      (write 2).trans (congrArg _ (start 2 (by decide) (by decide))),
      (write 3).trans (congrArg _ (start 3 (by decide) (by decide)))⟩
  · have stay : ∀ v, (writeBy p 1 s).requestDusk v = writeBy p 1 s := fun v => requestDusk_again (by rwa [resil])
    exact ⟨(write 1).trans (congrArg _ (stay 1)), (write 2).trans (congrArg _ (stay 2)),
      (write 3).trans (congrArg _ (stay 3))⟩

/-! ### Requests for a reset -/

/-- A reset begins from a state as it does from any other with the same count of resets, memory, log and OTP. -/
theorem Begins.before {s u t : State} {n l : Nat} (h : Begins u t n l) (count : u.obj oResetCount = s.obj oResetCount)
    (mem : u.mem = s.mem) (log : u.dict.log = s.dict.log) (sec : u.sec = s.sec) : Begins s t n l :=
  { h with
    count := by rw [← count]; exact h.count
    cells := by rw [← mem, ← log]; exact h.cells
    fuses := by rw [← sec]; exact h.fuses }

theorem performWrite_reset {v : Nat} {bytes : List Byte} {s : State} :
    (performWrite 0x800001 v bytes).run s = .ok stOk (if v = 0x5A then s.assertReset 3 false else s) := by
  by_cases h : v = 0x5A
  · rw [h]
    rfl
  · rw [if_neg h]
    show ((if v = 0x5A then set (s.assertReset 3 false) >>= fun _ => pure stOk else pure stOk : M Nat)).run s = _
    rw [if_neg h]
    rfl

/-- RESET_REQUEST of 0x5A asserts source 3, and one of another value has no effect (R442). -/
theorem exec_resetRequest {p : Path} {v : Nat} {s : State} (r : Rising s.dict.objs) (may : MayWrite s p 0x8000 1) :
    exec (.resetRequest p v) s =
      .next (if v % 256 = 0x5A then (writeBy p 1 s).assertReset 3 false else writeBy p 1 s) := by
  obtain ⟨-, -, -, -, -, -, reset, -⟩ := request_defs
  exact write_row r may reset (by decide) performWrite_reset (.inl rfl)

/-- What the removal of power leaves (R441, R445). -/
theorem losePower_facts {s : State} (sound : Sound s) :
    s.losePower.rst.inReset = true ∧ s.losePower.rst.level = 0 ∧ s.losePower.rst.thermTrip = false ∧
    0 ∈ s.losePower.rst.holding ∧ s.losePower.obj oResetCause = 0 ∧ s.losePower.obj oResetCount = 1 ∧
    s.losePower.obj oDawnPhase = 1 ∧ s.losePower.mem = {} ∧ s.losePower.dict.log = [] := by
  have begun : Begins s (s.startReset 0 0) 0 0 := startReset_begins sound
  have r : Rising (s.startReset 0 0).dict.objs := ((startReset_keeps 0 0 (Keeps.refl s)).sound sound).objs
  obtain ⟨mem, log⟩ := begun.memory rfl
  unfold State.losePower
  generalize s.startReset 0 0 = y at *
  generalize hx : ({ y with rst := { y.rst with holding := setAdd 0 (setDel 5 y.rst.holding), thermTrip := false } } : State) = x
  have objs : x.dict.objs = y.dict.objs := by rw [← hx]
  have r0 : Rising x.dict.objs := by rwa [objs]
  have r1 : Rising (x.setObj oResetCause 0).dict.objs := rising_setObj r0
  have cause : ((x.setObj oResetCause 0).setObj oResetCount 1).obj oResetCause = 0 := by
    rw [obj_setObj_ne r1 (by decide), obj_setObj r0, if_pos rfl]
  have count : ((x.setObj oResetCause 0).setObj oResetCount 1).obj oResetCount = 1 := (obj_setObj r1).trans (if_pos rfl)
  have phase : ((x.setObj oResetCause 0).setObj oResetCount 1).obj oDawnPhase = 1 := by
    rw [obj_setObj_ne r1 (by decide), obj_setObj_ne r0 (by decide), obj_congr objs]
    exact begun.phase
  subst hx
  exact ⟨begun.inReset, begun.level, rfl, mem_setAdd_self 0 _, cause, count, phase, mem, log⟩

/-- A source asserted outside a reset starts one. -/
theorem assertReset_begins {s : State} {n : Nat} (sound : Sound s) (out : s.rst.inReset = false) :
    Begins s (s.assertReset n false) n (s.reachOf n) :=
  assert_begins sound (by simp [out])

/-- The twin's request asserts source 6 where it is enabled (R354). -/
theorem exec_twinResetRequest {port vc : Nat} {s : State} {m : Msg} (front : s.frontMsg port vc = some m)
    (kind : hdrKind m.header = 0x16) (twinned : s.twinned = true) (twin : hdrSource m.header = s.obj oTwinRank)
    (enabled : s.obj oTwinResetEnable = 1) :
    exec (.twinResetRequest port vc) s = .next ((s.dropFront port m).assertReset 6 false) :=
  congrArg _ ((twin_acts front kind twinned twin).trans (if_pos enabled))

/-- Settles O26: each way in asserts its source outside a reset, but for the removal of power, which starts its reset
whatever goes on. -/
theorem requestStartsReset : Obligations.RequestStartsReset := by
  intro s sound
  refine ⟨⟨_, rfl, ?_⟩, fun p v may out => ⟨fun h => ?_, fun h => ?_⟩,
    fun port vc m front kind twinned twin enabled out => ?_⟩
  · obtain ⟨inReset, level, trip, held, cause, count, phase, mem, log⟩ := losePower_facts sound
    exact ⟨inReset, level, trip, held, cause, count, phase, congrArg Mem.cells mem, log⟩
  · obtain ⟨-, mem, sec, -, -, -, -, rst, -, -, log⟩ := writeBy_frame p 1 s
    have level : (writeBy p 1 s).reachOf 3 = s.reachOf 3 := by
      unfold State.reachOf State.reachOtp
      rw [sec]
    have begun := assertReset_begins (n := 3) (writeBy_sound p 1 sound) (by rwa [rst])
    rw [level] at begun
    exact ⟨_, (exec_resetRequest sound.objs may).trans (congrArg _ (if_pos h)),
      begun.before (writeBy_obj sound.objs (by decide)) mem log sec⟩
  · exact (exec_resetRequest sound.objs may).trans (congrArg _ (if_neg h))
  · exact ⟨_, exec_twinResetRequest front kind twinned twin enabled, assertReset_begins (dropFront_sound sound) out⟩

/-! ### The twin's messages -/

/-- Each of the five kinds is handled by the one operation on twin messages. -/
theorem exec_twinMessage {c : Instr} {p v k : Nat} (s : State) (h : twinMessage c = some (p, v, k)) :
    ∃ act, exec c s = .next (s.onTwin p v k act) := by
  cases c with
  | heartbeat p v => cases h; exact ⟨_, rfl⟩
  | snapData p v => cases h; exact ⟨_, rfl⟩
  | snapHeader p v => cases h; exact ⟨_, rfl⟩
  | fetch p v => cases h; exact ⟨_, rfl⟩
  | fetchData p v => cases h; exact ⟨_, rfl⟩
  | _ => cases h

/-- The bytes that a fetch has brought join those of the restore. -/
def joined (r : Restore) (off : Nat) (bs : List Byte) : Restore :=
  { r with got := bs.zipIdx.foldl (fun g p => mapInsert g (off + p.2) p.1.toNat) r.got }

theorem joined_within {r : Restore} {off i : Nat} {bs : List Byte} {b : Byte} (h : bs[i]? = some b) :
    mapFind (joined r off bs).got (off + i) = some b.toNat := by
  obtain ⟨within, -⟩ := inserts_find (l := bs) (g := r.got) (o := off) (n := 0)
  exact within i b h

theorem joined_outside {r : Restore} {off i : Nat} {bs : List Byte} (h : i < off ∨ off + bs.length ≤ i) :
    mapFind (joined r off bs).got i = mapFind r.got i := by
  obtain ⟨-, outside⟩ := inserts_find (l := bs) (g := r.got) (o := off) (n := 0)
  exact outside i h

section
variable {s : State}

/-- Bytes that would pass the end of a slot are discarded (R352). -/
theorem holdBytes_past {slot off : Nat} {bs : List Byte} (past : s.slotBytes < off + bs.length) :
    s.holdBytes slot off bs = s.count oTwinRejects :=
  if_pos past

/-- A fetch beyond the end of a slot is discarded (R352). -/
theorem answerFetch_past {slot off n : Nat} (past : s.slotBytes < off + n) :
    s.answerFetch slot off n = s.count oTwinRejects :=
  if_pos past

/-- A fetch within a slot whose bytes can be read is answered with them (R352). -/
theorem answerFetch_reads {u v : State} {slot off n : Nat} {head bs : List Byte} (within : off + n ≤ s.slotBytes)
    (header : (readBytes resilInit .pass (s.heldSlot slot) 256).run s = .ok head u)
    (bytes : (readBytes resilInit .pass (s.heldSlot slot + off) n).run u = .ok bs v) :
    s.answerFetch slot off n = v.twinData slot 0x14 (field (ofLe head) 1023 960) off bs := by
  unfold State.answerFetch State.holding
  rw [if_neg (Nat.not_lt.2 within), bind_ok header (bind_ok bytes rfl)]
  rfl

variable {port vc : Nat} {m : Msg} (front : s.frontMsg port vc = some m)
include front

section
variable (twinned : s.twinned = true) (twin : hdrSource m.header = s.obj oTwinRank)
include twinned twin

/-- HEARTBEAT of the twin is kept (R353). -/
theorem exec_heartbeat {x : TwinMsg} (r : Rising s.dict.objs) (hx : x = ⟨port, hdrParam m.header % 2, m.data⟩)
    (kind : hdrKind m.header = 0x10) :
    ∃ t, exec (.heartbeat port vc) s = .next t ∧ t.obj oTwinState = 1 ∧ t.resil.lastBeat = s.tick ∧
      t.resil.twinTick = x.word 0 ∧ t.resil.twinStep = x.word 1 ∧
      t.obj oHeartbeatsReceived = (s.obj oHeartbeatsReceived + 1) % 2 ^ 64 ∧ t.mem = s.mem := by
  subst hx
  have rising : Rising ((s.dropFront port m).setObj oTwinState 1).dict.objs := rising_setObj r
  have alone : ∀ k, k ≠ oTwinState → ((s.dropFront port m).setObj oTwinState 1).obj k = s.obj k :=
    fun k hk => obj_setObj_ne (s := s.dropFront port m) r hk
  obtain ⟨y, counted, -, others, count, mem, -⟩ := count_facts (k := oHeartbeatsReceived) rising
  have size : objSize oHeartbeatsReceived = 8 := by decide +kernel
  rw [size, alone _ (by decide)] at count
  have state : y.obj oTwinState = 1 := by
    rw [others _ (by decide), obj_setObj (s := s.dropFront port m) r, if_pos rfl]
  have tick : y.tick = s.tick := (others oTickCounter (by decide)).trans (alone _ (by decide))
  refine ⟨_, congrArg Host.Outcome.next (twin_acts front kind twinned twin), ?_⟩
  dsimp only
  rw [counted]
  exact ⟨state, tick, rfl, rfl, count, mem⟩

/-- SNAP_DATA and SNAP_HEADER of the twin put their bytes into the slot held for it. -/
theorem exec_snap {c : Instr} {x : TwinMsg} {off : Nat} {bs : List Byte}
    (hx : x = ⟨port, hdrParam m.header % 2, m.data⟩)
    (h : c = .snapData port vc ∧ hdrKind m.header = 0x11 ∧ off = x.word 0 ∧ bs = m.data.drop 16 ∨
      c = .snapHeader port vc ∧ hdrKind m.header = 0x12 ∧ off = 0 ∧ bs = m.data) :
    exec c s = .next ((s.dropFront port m).holdBytes x.slot off bs) := by
  subst hx
  rcases h with ⟨rfl, kind, rfl, rfl⟩ | ⟨rfl, kind, rfl, rfl⟩
  · exact congrArg Host.Outcome.next (twin_acts front kind twinned twin)
  · exact congrArg Host.Outcome.next (twin_acts front kind twinned twin)

/-- FETCH of the twin. -/
theorem exec_fetch {x : TwinMsg} (hx : x = ⟨port, hdrParam m.header % 2, m.data⟩) (kind : hdrKind m.header = 0x13) :
    exec (.fetch port vc) s = .next ((s.dropFront port m).answerFetch x.slot (x.word 0) (x.word 1)) := by
  subst hx
  exact congrArg Host.Outcome.next (twin_acts front kind twinned twin)

/-- FETCH_DATA while no restore is under way. -/
theorem exec_fetchData_none (kind : hdrKind m.header = 0x14) (idle : s.resil.restore = none) :
    exec (.fetchData port vc) s = .next (s.dropFront port m) := by
  refine congrArg Host.Outcome.next ((twin_acts front kind twinned twin).trans ?_)
  rw [show (s.dropFront port m).resil.restore = none from idle]

/-- FETCH_DATA of the slot that a restore reads: the bytes join it, and what is then asked of the twin leaves it. -/
theorem exec_fetchData {x : TwinMsg} {r : Restore} (hx : x = ⟨port, hdrParam m.header % 2, m.data⟩)
    (kind : hdrKind m.header = 0x14) (under : s.resil.restore = some r) (source : r.source = 0) (slot : r.slot = x.slot) :
    ∃ t, exec (.fetchData port vc) s = .next t ∧ t.resil.restore = some (joined r (x.word 0) (m.data.drop 16)) := by
  subst hx
  refine ⟨_, congrArg Host.Outcome.next (twin_acts front kind twinned twin), ?_⟩
  dsimp only
  rw [show (s.dropFront port m).resil.restore = some r from under]
  dsimp only
  rw [if_neg (by simp [source, slot])]
  split
  · split
    · exact congrArg Resilience.restore (sends_parts (sendTwin_sends _ _ _ _ (SendsOn.refl _) fun _ _ => trivial)).1
    · rfl
  · rfl

end

/-- DUSK: the peer of the port is noted, and from the twin `twin_state` moves (R353). -/
theorem exec_dusk (r : Rising s.dict.objs) (kind : hdrKind m.header = 0x15) :
    ∃ t, exec (.dusk port vc) s = .next t ∧ (port < 32 → (t.port port).dusk = true) ∧
      t.obj oTwinState =
        (if s.twinned = true ∧ hdrSource m.header = s.obj oTwinRank then 3 else s.obj oTwinState) ∧
      (∀ k, k ≠ oTwinState → t.obj k = s.obj k) ∧ t.mem = s.mem := by
  show ∃ t, execDusk port vc s = _ ∧ _
  unfold execDusk
  rw [front]
  dsimp only
  rw [if_neg fun other => other kind]
  generalize hw : (if port < 32 then (s.dropFront port m).setPort port { (s.dropFront port m).port port with dusk := true }
    else s.dropFront port m) = w
  have same : w.dict = s.dict ∧ w.mem = s.mem := by
    rw [← hw]
    split <;> exact ⟨rfl, rfl⟩
  obtain ⟨dict, mem⟩ := same
  have dusk : port < 32 → (w.port port).dusk = true := fun low => by rw [← hw, if_pos low, port_setPort, if_pos rfl]
  have objs : ∀ k, w.obj k = s.obj k := obj_congr (congrArg Dict.objs dict)
  have rising : Rising w.dict.objs := by rwa [dict]
  have twinned : w.twinned = s.twinned := by
    unfold State.twinned
    rw [objs]
  rw [twinned, objs]
  by_cases twin : s.twinned = true ∧ hdrSource m.header = s.obj oTwinRank
  · rw [if_pos twin, if_pos twin]
    exact ⟨_, rfl, dusk, (obj_setObj rising).trans (if_pos rfl), fun k hk => (obj_setObj_ne rising hk).trans (objs k), mem⟩
  · rw [if_neg twin, if_neg twin]
    exact ⟨_, rfl, dusk, objs _, fun k _ => objs k, mem⟩

end

/-- Settles O57: what is not the twin's is rejected; each kind of the twin's messages by its own lemma, on the state that no
longer has the message. -/
theorem twinMessages : Obligations.TwinMessages := by
  intro port vc s m x sound front hx
  have r : Rising (s.dropFront port m).dict.objs := sound.objs
  refine ⟨fun c kind handles hk other => ?_, fun twinned twin => ⟨exec_heartbeat front twinned twin sound.objs hx,
    fun c off bs a h ha => ?_, fun kind past => ?_, fun kind within u v head bs header bytes => ?_,
    exec_fetchData_none front twinned twin, fun q kind under source slot => ?_⟩, exec_dusk front sound.objs⟩
  · obtain ⟨act, e⟩ := exec_twinMessage s handles
    obtain ⟨count, others, resil, mem, -⟩ := rejects_parts r
    exact ⟨_, e.trans (congrArg _ (twin_reject front hk other)), count, others, resil, mem⟩
  · have e := exec_snap front twinned twin hx h
    refine ⟨fun past => ?_, fun within nonempty device page backed granted => ?_⟩
    · obtain ⟨count, -, -, mem, -⟩ := rejects_parts r
      rw [holdBytes_past (s := s.dropFront port m) past] at e
      exact ⟨_, e, count, mem⟩
    · exact ⟨_, e, hold_near (s := s.dropFront port m) ha within nonempty device page backed granted⟩
  · obtain ⟨count, -, -, mem, out⟩ := rejects_parts r
    have e := exec_fetch front twinned twin hx kind
    rw [answerFetch_past (s := s.dropFront port m) past] at e
    exact ⟨_, e, count, out, mem⟩
  · rw [exec_fetch front twinned twin hx kind, answerFetch_reads (s := s.dropFront port m) within header bytes]
  · obtain ⟨t, e, restore⟩ := exec_fetchData front twinned twin hx kind under source slot
    refine ⟨t, _, e, restore, source, rfl, fun i b => joined_within, fun i h => joined_outside ?_⟩
    rwa [List.length_drop]

/-! ### Heartbeats and their loss -/

/-- A heartbeat that is not due is not sent. -/
theorem exec_heartbeatSend_idle {s : State} (h : s.twinned = false ∨ s.tick % max (s.obj oHeartbeatIntervalTicks) 1 ≠ 0 ∨
    s.resil.beatSent = some s.tick) : exec .heartbeatSend s = .next s := by
  refine if_pos ?_
  rcases h with twinned | between | sent
  · exact .inr (.inl (by rw [twinned]; rfl))
  · exact .inr (.inr (.inl between))
  · exact .inr (.inr (.inr (.inr sent)))

/-- A twin that is lost (R353). -/
theorem twinLost_facts {s : State} (r : Rising s.dict.objs) :
    let t := (s.setObj oTwinState 2).raise 0x0603 0x0F 0 (s.obj oTwinRank) s.resil.twinStep s.resil.twinTick
    t.obj oTwinState = 2 ∧ t.dict.log.getLast? = some ⟨s.obj oEventSeqNext, s.tick, 0x0603, 0x0F, 0, s.obj oTwinRank,
      s.resil.twinStep, s.resil.twinTick, 0, 0⟩ ∧ t.mem = s.mem ∧ t.sched = s.sched := by
  have alone : ∀ k, k ≠ oTwinState → (s.setObj oTwinState 2).obj k = s.obj k := fun k hk => obj_setObj_ne r hk
  obtain ⟨-, log, sched, mem, others⟩ := raise_frame (code := 0x0603) (src := 0x0F) (unit := 0) (a := s.obj oTwinRank)
    (b := s.resil.twinStep) (c := s.resil.twinTick) (d := 0) (e := 0) (rising_setObj (k := oTwinState) (v := 2) r)
  have tick : (s.setObj oTwinState 2).tick = s.tick := alone _ (by decide)
  rw [alone _ (by decide), tick] at log
  exact ⟨(others _ (by decide) (by decide) (by decide)).trans ((obj_setObj r).trans (if_pos rfl)), log, mem, sched⟩

/-- Settles O58: the conditions of the two commands, and what the loss of the twin raises. -/
theorem heartbeatsKeepTwins : Obligations.HeartbeatsKeepTwins := by
  intro s sound
  refine ⟨fun out twinned due stage unsent => if_neg ?_, exec_heartbeatSend_idle,
    fun alive silent => ⟨_, if_pos ⟨alive, silent⟩, twinLost_facts sound.objs⟩, fun heard => if_neg ?_⟩
  · simp [out, twinned, due, stage, unsent]
  · rintro ⟨alive, silent⟩
    rcases heard with other | within
    · exact other alive
    · exact absurd silent (Nat.not_le.2 within)

end Sys2Proof.Safety
end

section
/-! PROOFS. The statements of 14_object_dictionary.md: commits that are refused, discards, the management ports, the transfer
window and ALERT_N. -/

namespace Sys2Proof.Safety

open Sys2Proof.Machine

/-! ### Refused commits -/

/-- A refused commit sets `commit_result`, and for the tables of R437 the code of the refusal (R383). -/
theorem commitGroup_refused {s : State} {g : Nat} (r : Rising s.dict.objs)
    (refused : s.commitRefused g (s.pendingSet g) = true) :
    (s.commitGroup g).2.obj oCommitResult = g <<< 16 + 1 ∧
    (∀ k, k ≠ oCommitResult → k ≠ oTableRefuseCode → (s.commitGroup g).2.obj k = s.obj k) ∧
    (s.commitGroup g).2.dict.pend = s.dict.pend ∧ (s.commitGroup g).2.dict.committed = s.dict.committed ∧
    (s.commitGroup g).2.mem = s.mem ∧ (s.commitGroup g).2.ports = s.ports ∧ (s.commitGroup g).2.sched = s.sched ∧
    (s.commitGroup g).2.resil = s.resil ∧ (s.commitGroup g).2.sec = s.sec := by
  rw [refused_group r refused]
  by_cases tables : g = 0x7110
  · rw [if_pos tables]
    obtain ⟨result, kept, frame⟩ := commitOutcome_frame (g := g) (o := 1) (rising_setObj (k := oTableRefuseCode)
      (v := s.tableRefusal (s.inSet (s.pendingSet g) oTableImage)) r)
    exact ⟨result, fun k n code => (kept k n).trans (obj_setObj_ne r code), frame⟩
  · rw [if_neg tables]
    obtain ⟨result, kept, frame⟩ := commitOutcome_frame (g := g) (o := 1) r
    exact ⟨result, fun k n _ => kept k n, frame⟩

/-- Settles O19: counting the write leaves what the check reads, and the refusal changes two objects at most. -/
theorem commitsAreRefused : Obligations.CommitsAreRefused := by
  intro c p g s sound h may refused
  obtain ⟨sched, mem, sec, resil, -, -, ports, -, pend, committed, -⟩ := writeBy_frame p 1 s
  have refused' : (writeBy p 1 s).commitRefused g ((writeBy p 1 s).pendingSet g) = true := by
    rw [pendingSet_by, commitRefused_by sound.objs]
    exact refused
  obtain ⟨result, others, pend', committed', mem', ports', sched', resil', sec'⟩ :=
    commitGroup_refused (writeBy_rising sound.objs) refused'
  exact ⟨_, exec_commit sound.objs h may, result, others, pend'.trans pend, committed'.trans committed, mem'.trans mem,
    ports'.trans ports, sched'.trans sched, resil'.trans resil, sec'.trans sec⟩

/-! ### Discards -/

/-- A discard command discards its group, on the state in which the write has been counted. -/
theorem exec_discard {c : Instr} {p : Path} {g : Nat} {s : State} (r : Rising s.dict.objs) (h : commitOf c = some (p, g))
    (may : MayWrite s p g 0xFF) : exec (.commitDiscard p g) s = .next ((writeBy p 1 s).discardGroup g) := by
  obtain ⟨-, d, found, -, wo, size, type, -⟩ := commit_defs c p g h
  refine pathWrite_any may ?_ (.inl rfl)
  rw [writeObject_ok (may.counted r _) found (by rw [wo]; decide) (by rw [wo]; decide) (by simp [sizeFits, size])
    (fun bool => absurd bool type), if_pos rfl]
  rfl

/-- The value in force of a staged object: of the counter images, the counters now (R225). -/
def inForce (s : State) (k : Nat) : Nat := if k = oStreamCounters then s.streamImages 0 else s.obj k

theorem inForce_congr {x y : State} (objs : y.dict.objs = x.dict.objs) (num : y.num = x.num) : inForce y = inForce x := by
  funext k
  unfold inForce State.streamImages State.streamStep
  rw [num, obj_congr objs]

/-- A state without the waiting commit of a group, nor what that commit had asked of the scheduler (R38, R57). -/
def withdrawn (s : State) (g : Nat) : State :=
  let s := { s with dict := { s.dict with committed := s.dict.committed.filter (·.group != g) } }
  if g = 0x2010 then { s with sched := { s.sched with periodNext := none } }
  else if g = 0x2020 then { s with sched := { s.sched with startAsked := false } }
  else s

theorem withdrawn_frame {s : State} {g : Nat} :
    (withdrawn s g).dict = { s.dict with committed := s.dict.committed.filter (·.group != g) } ∧
    (withdrawn s g).mem = s.mem ∧ (withdrawn s g).ports = s.ports := by
  unfold withdrawn
  dsimp only
  split
  · exact ⟨rfl, rfl, rfl⟩
  · split <;> exact ⟨rfl, rfl, rfl⟩

theorem discardGroup_eq {s : State} {g : Nat} : s.discardGroup g =
    (withdrawn ((groupMembers g).foldl (fun s k => s.setPend k (inForce s k)) s) g).commitOutcome g 2 := rfl

/-- A discard gives the pending values of its group those in force, and takes its waiting commit away (R380). -/
theorem discardGroup_frame {s : State} {g : Nat} (r : Rising s.dict.objs) (rp : Rising s.dict.pend) :
    (s.discardGroup g).obj oCommitResult = g <<< 16 + 2 ∧
    (s.discardGroup g).dict.committed = s.dict.committed.filter (·.group != g) ∧
    (∀ k, (s.discardGroup g).pendObj k = if k ∈ groupMembers g then inForce s k else s.pendObj k) ∧
    (∀ k, k ≠ oCommitResult → (s.discardGroup g).obj k = s.obj k) ∧
    (s.discardGroup g).mem = s.mem ∧ (s.discardGroup g).ports = s.ports := by
  obtain ⟨only, values⟩ := discard_fold inForce (fun x y => inForce_congr) (groupMembers g) s rp
  rw [discardGroup_eq]
  generalize (groupMembers g).foldl (fun s k => s.setPend k (inForce s k)) s = x at only values ⊢
  obtain ⟨dict, mem, ports⟩ := withdrawn_frame (s := x) (g := g)
  generalize withdrawn x g = w at dict mem ports ⊢
  have objs : w.dict.objs = s.dict.objs := by rw [dict, only]
  have committed : w.dict.committed = s.dict.committed.filter (·.group != g) := by rw [dict, only]
  obtain ⟨result, kept, pend', committed', mem', ports', -⟩ := commitOutcome_frame (g := g) (o := 2) (s := w) (by rwa [objs])
  refine ⟨result, committed'.trans committed, fun k => ?_, fun k n => (kept k n).trans (obj_congr objs k), ?_, ?_⟩
  · rw [← values k]
    unfold State.pendObj
    rw [pend', dict]
  · rw [mem', mem, only]
  · rw [ports', ports, only]

theorem hostBytesIn_unstaged : ∀ d ∈ objTable, d.access = .staged → objKey d.index d.sub ≠ oHostBytesIn := by
  decide +kernel

/-- The host's count of bytes is no member of a group. -/
theorem member_ne_hostBytesIn {g k : Nat} (h : k ∈ groupMembers g) : k ≠ oHostBytesIn := by
  obtain ⟨d, member, rfl⟩ := List.mem_map.1 h
  obtain ⟨listed, h⟩ := List.mem_filter.1 member
  obtain ⟨-, staged⟩ := Bool.and_eq_true_iff.1 h
  exact hostBytesIn_unstaged d listed (beq_iff_eq.1 staged)

/-- Settles O24: counting the write leaves the values in force of the group's members and every pending value. -/
theorem discardWithdrawsCommit : Obligations.DiscardWithdrawsCommit := by
  intro c p g s sound h may
  obtain ⟨-, mem, -, -, -, -, ports, -, pend, committed, -⟩ := writeBy_frame p 1 s
  obtain ⟨result, committed', values, others, mem', ports'⟩ :=
    discardGroup_frame (g := g) (writeBy_rising (p := p) (n := 1) sound.objs) (by rw [pend]; exact sound.pend)
  refine ⟨_, exec_discard sound.objs h may, result, by rw [committed', committed], fun k member other => ?_,
    fun k outside => ?_, others, mem'.trans mem, ports'.trans ports⟩
  · rw [values, if_pos member, inForce, if_neg other, writeBy_obj sound.objs (member_ne_hostBytesIn member)]
  · rw [values, if_neg outside]
    unfold State.pendObj
    rw [pend]

/-! ### The management ports -/

/-- A management port leaves service: LINK_DOWN of port kind 3 follows, with a cause that the manual does not code (R396). -/
theorem exec_managementPortDown {p : Nat} {s : State} (low : p < 2) (up : flag (s.obj oMgmtPortsUp) p = true) :
    ∃ cause f, exec (.managementPortDown p) s = .next (State.raise { s.setObj oMgmtPortsUp (s.obj oMgmtPortsUp - 2 ^ p) with
      freeCtr := f } 0x0601 0x08 p 3 p cause) :=
  ⟨_, _, if_pos (by simp [State.mgmtUp, low, up])⟩

/-- Settles O43: the port's bit is set, or cleared before the event, which changes the objects of the log alone. -/
theorem managementPortChanges : Obligations.ManagementPortChanges := by
  intro p s sound low
  have r : Rising s.dict.objs := sound.objs
  refine ⟨⟨_, if_pos low, ?_, fun k n => obj_setObj_ne r n⟩, fun up => ?_⟩
  · rw [obj_setObj r, if_pos rfl]
    exact flag_or
  · obtain ⟨cause, f, e⟩ := exec_managementPortDown low up
    obtain ⟨-, log, -, -, others⟩ := raise_frame (s := { s.setObj oMgmtPortsUp (s.obj oMgmtPortsUp - 2 ^ p) with freeCtr := f })
      (code := 0x0601) (src := 0x08) (unit := p) (a := 3) (b := p) (c := cause) (d := 0) (e := 0) (rising_setObj r)
    refine ⟨_, _, e, ?_, log, rfl, rfl, rfl, rfl, rfl, fun k n next oldest lost => ?_⟩
    · rw [others _ (by decide) (by decide) (by decide)]
      exact (congrArg (flag · p) ((obj_setObj r).trans (if_pos rfl))).trans (flag_sub up)
    · exact (others k next oldest lost).trans (obj_setObj_ne r n)

/-! ### The transfer window -/

section
variable {ide : Bool}

/-- A command of the window that is in service. -/
theorem windowRow_open {s t : State} {cmd : Nat} (on : s.windowOpen = true)
    (run : (windowCommand ide cmd).run (s.tookHost 8) = .ok () t) : s.windowRow ide cmd = .next t :=
  (if_pos on).trans (runDict_ok run)

variable {x u : State}

/-- A length of 0 or beyond the buffer. -/
theorem windowCommand_size {cmd : Nat} (other : cmd ≠ 0) (bad : x.dict.window.length = 0 ∨ 65536 < x.dict.window.length) :
    (windowCommand ide cmd).run x = (windowDone stSize).run x := by
  refine bind_get ?_
  dsimp only
  rw [if_pos bad, if_pos other]

section
variable (nonempty : 0 < x.dict.window.length) (fits : x.dict.window.length ≤ 65536)
include nonempty fits

/-- A read ends with the status and the bytes of the object (R387). -/
theorem windowCommand_read {st : Nat} {bs : List Byte} (read : (readBytesOf (.host ide) x.dict.window.index x.dict.window.sub
      x.dict.window.offset x.dict.window.length).run x = .ok (st, bs) u) :
    (windowCommand ide 1).run x = (windowDone st).run
      (if st = 0 then { u with dict := { u.dict with window := u.dict.window.fill 0 bs } } else u) := by
  refine bind_get ?_
  dsimp only
  rw [if_neg (by omega)]
  refine bind_ok read ?_
  dsimp only
  by_cases ok : st = stOk
  · rw [if_pos ok, if_pos ok]
    rfl
  · rw [if_neg ok, if_neg ok]

/-- A segment ends with the status of R390. -/
theorem windowCommand_segment {last : Bool} {st : Nat} (sent : (Machine.segment (.host ide) 0 x.dict.window.index
      x.dict.window.sub x.dict.window.offset (x.dict.window.bytes x.dict.window.length) last).run x = .ok st u) :
    (windowCommand ide (if last then 3 else 2)).run x = (windowDone st).run u := by
  refine bind_get ?_
  dsimp only
  rw [if_neg (by omega)]
  cases last <;> exact bind_ok sent rfl

end
end

/-- Settles O46: the write is counted first, which leaves the window; each command then by its lemma. -/
theorem windowTransfers : Obligations.WindowTransfers := by
  intro ide s sound
  have window : (s.tookHost 8).dict.window = s.dict.window := by rw [tookHost_eq]
  obtain ⟨-, mem, -⟩ := writeBy_frame (.host ide) 8 s
  refine ⟨fun off => ?_, fun on bad c h => ?_, fun on nonempty fits => ⟨fun st bs u read => ?_, fun last st u sent => ?_⟩⟩
  · have shut : ∀ cmd, s.windowRow ide cmd = .next s.hostDropped := fun cmd => if_neg (by simp [off])
    exact ⟨shut 1, shut 2, shut 3⟩
  · obtain ⟨t, done, window', objs, mem'⟩ := windowDone_run (s.tookHost 8) stSize
    have row : ∀ cmd, cmd ≠ 0 → s.windowRow ide cmd = .next t := fun cmd other =>
      windowRow_open on ((windowCommand_size other (by rwa [window])).trans done)
    refine ⟨t, ?_, by rw [window', window], fun k n => (objs k).trans (writeBy_obj (p := .host ide) sound.objs n),
      mem'.trans mem⟩
    rcases h with rfl | rfl | rfl
    · exact row 1 (by decide)
    · exact row 2 (by decide)
    · exact row 3 (by decide)
  · rw [← window] at nonempty fits read
    have command := windowCommand_read nonempty fits read
    generalize hw : (if st = 0 then { u with dict := { u.dict with window := u.dict.window.fill 0 bs } } else u) = w at command
    obtain ⟨t, done, window', -, mem'⟩ := windowDone_run w st
    refine ⟨t, windowRow_open on (command.trans done), ?_, ?_⟩
    · rw [window', ← hw]
      split <;> rfl
    · rw [mem', ← hw]
      split <;> rfl
  · rw [← window] at nonempty fits sent
    obtain ⟨t, done, window', objs, mem'⟩ := windowDone_run u st
    refine ⟨t, ?_, window', mem', objs⟩
    have row := windowRow_open on ((windowCommand_segment nonempty fits sent).trans done)
    cases last <;> exact row

/-! ### ALERT_N -/

section
variable {s : State}

/-- ALERT_N is low while the log holds a notified record that is not acknowledged (R475). -/
theorem alertLand_low {e : EventRec} (out : s.rst.inReset = false) (held : e ∈ s.dict.log) (on : s.classOn e = true)
    (open_ : s.obj oEventAckedSeq ≤ e.seq) : s.alertLand = .low := by
  refine if_pos ?_
  rw [out, Bool.not_false, Bool.true_and, List.any_eq_true]
  exact ⟨e, held, by simp [on, open_]⟩

/-- ALERT_N is released once every notified record is acknowledged. -/
theorem alertLand_acked (acked : ∀ e ∈ s.dict.log, s.classOn e = true → e.seq < s.obj oEventAckedSeq) :
    s.alertLand = .released := by
  refine if_neg fun low => ?_
  obtain ⟨-, record⟩ := Bool.and_eq_true_iff.1 low
  obtain ⟨e, held, h⟩ := List.any_eq_true.1 record
  obtain ⟨on, open_⟩ := Bool.and_eq_true_iff.1 h
  exact absurd (acked e held on) (Nat.not_lt.2 (of_decide_eq_true open_))

/-- ALERT_N is released in a reset. -/
theorem alertLand_reset (inReset : s.rst.inReset = true) : s.alertLand = .released :=
  if_neg (by simp [inReset])

/-- An asserted source leaves the device in reset, whether it starts one or finds one as wide under way (R444). -/
theorem assertReset_inReset {n : Nat} {holds : Bool} (sound : Sound s) : (s.assertReset n holds).rst.inReset = true := by
  by_cases wide : s.rst.inReset = true ∧ s.rst.level ≤ s.reachOf n
  · rw [assert_absorbed wide]
    obtain ⟨inReset, -⟩ := wide
    cases holds <;> exact inReset
  · exact (assert_begins sound wide).inReset

/-- A command that asserts a source of Table 17.1 leaves the device in reset. -/
theorem exec_source_inReset {c : Instr} {n : Nat} (sound : Sound s) (h : sourceOf c s = some n) :
    ∃ t, exec c s = .next t ∧ t.rst.inReset = true := by
  cases c with
  | powerOnReset removed =>
    cases removed with
    | false => exact ⟨_, rfl, assertReset_inReset sound⟩
    | true => cases h
  | perst => exact ⟨_, rfl, assertReset_inReset sound⟩
  | sysRst => exact ⟨_, rfl, assertReset_inReset sound⟩
  | watchdogExpiry =>
    have runs : ¬(s.rst.inReset = true ∧ s.obj oDawnPhase ≤ 5) := fun early => by cases (if_pos early).symm.trans h
    exact ⟨_, if_neg runs, assertReset_inReset sound⟩
  | thermalTrip temps =>
    have hot : temps.any (fun t => decide (115 ≤ t)) = true :=
      Decidable.byContradiction fun cool => by cases (if_neg cool).symm.trans h
    exact ⟨_, if_pos hot, assertReset_inReset (s := s) (n := 5) (holds := true) sound⟩
  | _ => cases h

/-- The record of a link that is lost from UP stands in the log, and what notification reads stays (R319, R396). -/
theorem linkDown_alert {p cause : Nat} (r : Rising s.dict.objs) (low : p < 32) (up : s.link p = 4)
    (out : s.rst.inReset = false) (on : flag (s.obj oEventNotifyMask) 5 = true)
    (acked : s.obj oEventAckedSeq ≤ s.obj oEventSeqNext) : (s.linkDown p 1 cause).alertLand = .low := by
  obtain ⟨only, -, -, log⟩ := linkDown_frame (st := 1) (cause := cause) r low (by omega) (by omega)
  have mask : (s.linkDown p 1 cause).obj oEventNotifyMask = s.obj oEventNotifyMask := only.objs _
    (not_down (a := 0x9010) (b := 1) low (by decide) (by decide) (by decide) (by decide) (by decide) (.inl (by omega)))
  have ack : (s.linkDown p 1 cause).obj oEventAckedSeq = s.obj oEventAckedSeq := only.objs _
    (not_down (a := 0x1100) (b := 9) low (by decide) (by decide) (by decide) (by decide) (by decide) (.inl (by omega)))
  refine alertLand_low ((congrArg ResetState.inReset (linkDown_rst _ _ _ _)).trans out)
    (List.mem_of_getLast? (log (.inl up))) ?_ ?_
  · unfold State.classOn
    rw [mask]
    simpa using on
  · rw [ack]
    exact acked

/-- The acknowledgement of the outstanding frame moves `event_acked_seq` past its records (R393). -/
theorem exec_eventAck {f : FelbyFrame} {o : Outstanding} (out : s.rst.inReset = false)
    (destination : s.obj oEventDestination ≠ 0) (up : s.mgmtUp f.port = true) (felby : isFelby f.bytes = true)
    (good : accepts f = true) (type : (readFelby f.bytes).type = 0x84)
    (source : (readFelby f.bytes).source = s.obj oEventDestination) (waits : s.dict.outstanding = some o)
    (seq : (readFelby f.bytes).seq = o.seq) : exec (.eventAck f) s = .next
      (let t := (s.setObj oEventStalled 0).setObj oEventAckedSeq o.upTo
       { t with dict := { t.dict with outstanding := none } }) := by
  show execEventAck f s = _
  unfold execEventAck
  dsimp only
  rw [if_neg (by simp [out, up, felby]), if_neg (by simp [good]), if_neg (by simp [type, source, destination]),
    show (s.setObj oEventStalled 0).dict.outstanding = some o from waits]
  exact if_pos seq

end

/-- Settles O49: the record of the lost link is the last of the log; an acknowledgement changes no record and no class that is
notified; and every source leaves the device in reset. -/
theorem alertFollowsEvents : Obligations.AlertFollowsEvents := by
  intro s sound
  refine ⟨fun p out low up on acked => ⟨_, if_pos up, linkDown_alert sound.objs low up out on acked⟩,
    fun f o out destination up felby good type source waits seq acked =>
      ⟨_, exec_eventAck out destination up felby good type source waits seq, alertLand_acked fun e held on => ?_⟩,
    fun c n h => ?_⟩
  · have r : Rising (s.setObj oEventStalled 0).dict.objs := rising_setObj sound.objs
    have mask : ((s.setObj oEventStalled 0).setObj oEventAckedSeq o.upTo).obj oEventNotifyMask = s.obj oEventNotifyMask := by
      rw [obj_setObj_ne r (by decide), obj_setObj_ne sound.objs (by decide)]
    have upTo : ((s.setObj oEventStalled 0).setObj oEventAckedSeq o.upTo).obj oEventAckedSeq = o.upTo :=
      (obj_setObj r).trans (if_pos rfl)
    have same : s.classOn e = true := by
      unfold State.classOn
      rw [← mask]
      exact on
    exact Nat.lt_of_lt_of_eq (acked e held same) upTo.symm
  · obtain ⟨t, e, inReset⟩ := exec_source_inReset sound h
    exact ⟨t, e, alertLand_reset inReset⟩

end Sys2Proof.Safety
end

section
/-! PROOFS. The statements of the queue and the step: which command a step runs, and what every step adds to. -/

namespace Sys2Proof.Safety

open Sys2Proof.Machine

/-- Settles O1: the two cases of the queue. -/
theorem stepRunsFront : Obligations.StepRunsFront := by
  refine ⟨fun c rest s front => ?_, fun s empty => ?_⟩
  · unfold step
    rw [front]
  · unfold step
    rw [empty]

/-- Settles O5: an idle step changes nothing, and any other keeps what its command keeps of the state with the queue's
rest. -/
theorem stepsKeepHistory : Obligations.StepsKeepHistory := by
  intro s t e
  obtain ⟨empty, rfl⟩ | ⟨c, rest, front, keeps⟩ := step_cases e
  · exact ⟨by rw [empty]; rfl, List.prefix_rfl, Nat.le_refl _, List.prefix_rfl, List.prefix_rfl, List.prefix_rfl⟩
  · have queue : t.pending = s.pending.drop 1 := by
      rw [keeps.pending, front]
      rfl
    exact ⟨queue, keeps.out, keeps.free, keeps.fw, keeps.hub, keeps.reach⟩

end Sys2Proof.Safety
end

section
/-! PROOFS. The statements of 15_host_and_far_memory_ports.md: the host link, and requests that the host or its memory does
not serve. -/

namespace Sys2Proof.Safety

open Sys2Proof.Machine

/-! ### The host link -/

/-- The objects of the host link after it has come up. -/
theorem hostUp_objs {s : State} {speed width : Nat} (r : Rising s.dict.objs) (k : Nat) :
    (((s.setObj oHostLinkState 4).setObj oHostLinkSpeed speed).setObj oHostLinkWidth width).obj k =
      if k = oHostLinkWidth then width else if k = oHostLinkSpeed then speed else if k = oHostLinkState then 4
      else s.obj k := by
  have state : Rising (s.setObj oHostLinkState 4).dict.objs := rising_setObj r
  rw [obj_setObj (rising_setObj state), obj_setObj state, obj_setObj r]

/-- A hot reset and a loss of the link both end it with their cause (R402, R417). -/
theorem exec_hostDown {c : Instr} {n : Nat} {s : State} (h : (c = .hotReset ∧ n = 4 ∧ s.obj oHostLinkState = 4) ∨
    (c = .hostLinkDown n ∧ (n = 1 ∨ n = 3) ∧ s.hostHeld = false)) : exec c s = .next (s.hostDown n) := by
  obtain ⟨rfl, rfl, up⟩ | ⟨rfl, cause, held⟩ := h
  · exact if_pos up
  · refine if_neg ?_
    simp only [held, Bool.false_eq_true, false_or]
    omega

/-- Settles O41: three objects are set as the link comes up; what its end leaves is said of `State.hostDown`. -/
theorem hostLinkChanges : Obligations.HostLinkChanges := by
  intro s sound
  refine ⟨fun speed width down held => ?_, fun c n ends => ?_⟩
  · have objs := hostUp_objs (speed := speed % 256) (width := width % 256) sound.objs
    refine ⟨_, if_neg (by simp [down, held]), objs _, objs _, objs _, fun k state speed width => ?_, rfl⟩
    rw [objs, if_neg width, if_neg speed, if_neg state]
  · obtain ⟨-, state, speed, width, -, stream, event, others, mem⟩ := hostDown_frame (cause := n) sound.objs
    exact ⟨_, exec_hostDown ends, state, speed, width, stream, mem, event, others⟩

/-! ### Requests that are not served -/

/-- Raising a fault of a task and halting change objects of the log alone. -/
theorem taskFault_objs {s : State} {source unit r cause d : Nat} (h : Rising s.dict.objs) :
    Only eventObjs s (s.taskFault source unit r cause d) := by
  obtain ⟨dict, -⟩ := haltWith_parts (s.raise 0x0102 source unit r cause d) 0x0102 r
  exact ((Only.refl h).raiseE fun _ => id).same (congrArg Dict.objs dict)

/-- A task that takes a fault has worked in vain, a halt is pending, and only objects of the log change (R56). -/
theorem failTask_fault {s : State} {t : Machine.Task} {r d : Nat} (outs : List (Nat × Nat)) (h : Rising s.dict.objs)
    (found : s.task? r = some t) :
    (s.failTask t outs (.fault d)).task? r = some { t with work := 2 } ∧
    (s.failTask t outs (.fault d)).sched.halt.isSome = true ∧ Only eventObjs s (s.failTask t outs (.fault d)) := by
  have free : Scrambles s (outs.foldl (fun s q => s.scramble t.writers q.1 q.2) s) := scrambles_fold _ _ (.refl s)
  have fails : s.failTask t outs (.fault d) =
      (outs.foldl (fun s q => s.scramble t.writers q.1 q.2) s).failTask t [] (.fault d) := rfl
  rw [fails]
  generalize outs.foldl (fun s q => s.scramble t.writers q.1 q.2) s = x at free
  have same : x.task? r = s.task? r := by
    obtain ⟨_, _, _, _, rfl⟩ := free
    rfl
  obtain ⟨ended, halts⟩ := fault_ends (d := d) (same.trans found) rfl
  have rising : Rising x.dict.objs := by rwa [free.dict]
  have worked : Only eventObjs x (x.setTask { t with work := 2 }) := (Only.refl rising).same rfl
  have objs : Only eventObjs x (x.failTask t [] (.fault d)) := worked.trans (taskFault_objs rising)
  exact ⟨ended, halts, objs.rising, fun k n => (objs.objs k n).trans (free.obj k)⟩

/-- The read of host memory of a task that waits for it times out (R410). -/
theorem exec_hostReadTimeout {r : Nat} {s : State} {x : Machine.Task} (working : s.working? r = some x)
    (reads : s.readsHost x = true) :
    exec (.hostReadTimeout r) s = .next ((s.count oHostRequestErrors).failTask x (s.taskOuts x) (.fault 0)) := by
  show execHostReadTimeout r s = _
  unfold execHostReadTimeout
  rw [working]
  exact if_pos reads

/-- Settles O45: each is counted first, which leaves memory, what has been sent and the tasks. -/
theorem hostErrors : Obligations.HostErrors := by
  intro s sound
  refine ⟨fun up => ?_, fun r x working reads => ?_⟩
  · obtain ⟨mem, out⟩ := addObj_clear (x := s) (k := oHostUnsupported) (n := 1)
    exact ⟨_, if_pos up, congrArg (· ++ [Out.unsupported]) out,
      (State.emit_obj _ .unsupported _).trans (hostUnsupported_counted sound.objs), (State.emit_mem _ _).trans mem⟩
  · obtain ⟨found, -⟩ := working_parts working
    obtain ⟨y, counted, rising, -, count, -, sched, -⟩ := count_facts (k := oHostRequestErrors) sound.objs
    have size : objSize oHostRequestErrors = 8 := by decide +kernel
    have same : y.task? r = s.task? r := by
      unfold State.task?
      rw [sched]
    obtain ⟨ended, halts, objs⟩ := failTask_fault (d := 0) (s.taskOuts x) rising (same.trans found)
    have own : ¬ eventObjs oHostRequestErrors := not_event (a := 0x6000) (b := 8) (by decide) (by decide)
    rw [size, ← objs.objs _ own] at count
    have run := exec_hostReadTimeout working reads
    rw [counted] at run
    exact ⟨_, run, count, halts, _, ended, rfl⟩

end Sys2Proof.Safety
end

section
/-! PROOFS. The statements of 16_security.md: what is programmed once, images pushed in Dawn, and the end of a job. -/

namespace Sys2Proof.Safety

open Sys2Proof.Machine

/-! ### One-time-programmable generations and the end of a job -/

/-- A change that may be refused: its state, or the one before it. -/
theorem orValue_run (x : State) (o : Option State) :
    ∃ n, (orValue o).run x = .ok n (o.getD x) ∧ (n = stOk ∨ n = stValue ∨ n = stCommitRefused) := by
  cases o with
  | some t => exact ⟨stOk, rfl, .inl rfl⟩
  | none => exact ⟨stValue, rfl, .inr (.inl rfl)⟩

section
variable {p : Path} {v : Nat} {s : State} (r : Rising s.dict.objs)
include r

/-- ROLLBACK_RAISE raises the floor of a kind, on the state in which the write has been counted. -/
theorem exec_rollbackRaise (may : MayWrite s p 0x7000 3) :
    exec (.rollbackRaise p v) s = .next (((writeBy p 1 s).raiseFloor (v % 256)).getD (writeBy p 1 s)) := by
  obtain ⟨-, -, -, -, raise, -⟩ := request_defs
  obtain ⟨n, run, status⟩ := orValue_run (writeBy p 1 s) ((writeBy p 1 s).raiseFloor (v % 256))
  exact write_row r may raise (by decide) run status

/-- TABLE_UNLOCK asks for the end of the job. -/
theorem exec_tableUnlock (may : MayWrite s p 0x7100 2) :
    exec (.tableUnlock p v) s = .next (((writeBy p 1 s).requestUnlock (v % 256)).getD (writeBy p 1 s)) := by
  obtain ⟨-, -, -, -, -, unlock, -⟩ := request_defs
  obtain ⟨n, run, status⟩ := orValue_run (writeBy p 1 s) ((writeBy p 1 s).requestUnlock (v % 256))
  exact write_row r may unlock (by decide) run status

/-- REACH_PROGRAM changes one level of the reach table. -/
theorem exec_reachProgram (may : MayWrite s p 0x8010 1) :
    exec (.reachProgram p v) s = .next (((writeBy p 2 s).programReach (v % 2 ^ 16)).getD (writeBy p 2 s)) := by
  obtain ⟨-, -, -, -, -, -, -, -, -, reach, -⟩ := request_defs
  obtain ⟨n, run, status⟩ := orValue_run (writeBy p 2 s) ((writeBy p 2 s).programReach (v % 2 ^ 16))
  exact write_row r may reach (by decide) run status

/-- Whether a step runs does not depend on the counted write. -/
theorem running_by {n : Nat} : (writeBy p n s).running = s.running := by
  unfold State.running
  rw [writeBy_obj r (by decide)]

end

theorem writeBy_sec {p : Path} {n : Nat} {s : State} : (writeBy p n s).sec = s.sec := by
  obtain ⟨-, -, sec, -⟩ := writeBy_frame p n s
  exact sec

/-- Floors are programmed: they do not depend on the counted write. -/
theorem floorOf_by {p : Path} {n kind : Nat} {s : State} : (writeBy p n s).floorOf kind = s.floorOf kind := by
  unfold State.floorOf
  rw [writeBy_sec]

/-- The floor's object shows the new floor, and the new generation stays when the measurements are formed. -/
theorem refreshMeasurements_floor {x : State} {k v : Nat} {sec : Security} (r : Rising x.dict.objs)
    (n4 : k ≠ oMeasurement4) (n6 : k ≠ oMeasurement6) :
    (State.refreshMeasurements { x.setObj k v with sec := sec }).sec = sec ∧
    (State.refreshMeasurements { x.setObj k v with sec := sec }).obj k = v := by
  have rising : Rising ({ x.setObj k v with sec := sec } : State).dict.objs := rising_setObj (s := x) r
  obtain ⟨-, others⟩ := refresh_frame rising
  exact ⟨rfl, (others k n4 n6).trans ((obj_setObj r).trans (if_pos rfl))⟩

/-- The reach table with one level changed is a new generation (R443). -/
theorem programReach_allowed {x : State} {v : Nat} (allowed : reachAllowed (field v 11 8) (field v 1 0) = true)
    (room : x.sec.reachTables.length < 3) (stopped : x.running = false) :
    x.programReach v = some { x with sec := { x.sec with reachTables := x.sec.reachTables ++
      [setField (x.obj oReachTable) (2 * field v 11 8 + 1) (2 * field v 11 8) (field v 1 0)] } } :=
  if_neg (by simp [allowed, room, stopped])

theorem programReach_refused {x : State} {v : Nat} (refused : reachAllowed (field v 11 8) (field v 1 0) = false ∨
    3 ≤ x.sec.reachTables.length ∨ x.running = true) : x.programReach v = none :=
  if_pos (by simpa using refused)

theorem requestUnlock_accepted {x : State} {v : Nat} (asks : v ≠ 0) (job : x.obj oTableState = 2)
    (stopped : x.running = false) : x.requestUnlock v = some { x with sec := { x.sec with unlock := true } } :=
  if_pos ⟨asks, job, by simp [stopped]⟩

theorem requestUnlock_refused {x : State} {v : Nat} (refused : v = 0 ∨ x.obj oTableState ≠ 2 ∨ x.running = true) :
    x.requestUnlock v = none := by
  refine if_neg ?_
  rintro ⟨asks, job, stopped⟩
  rcases refused with nothing | unloaded | running
  · exact asks nothing
  · exact unloaded job
  · rw [running] at stopped
    cases stopped

/-- The boundary that ends a job leaves no tables in force (R438). -/
theorem tableBoundary_unlocks {x : State} (sound : Sound x) (job : x.obj oTableState = 2) (unlock : x.sec.unlock = true) :
    x.tableBoundary.obj oTableState = 0 := by
  have loaded : ¬(x.obj oTableState = 1 ∧ (!x.sec.clearing) = true) := by
    rintro ⟨one, -⟩
    omega
  unfold State.tableBoundary
  simp only [if_neg loaded, if_pos unlock]
  have freed : Sound { x with sec := { x.sec with image := none, unlock := false } } :=
    ⟨sound.objs, sound.pend, sound.cells, sound.log, sound.fallback, sound.readies⟩
  have rising := (freeAllPages_keeps (Keeps.refl _)).rising freed
  generalize State.freeAllPages _ = y at rising
  have ended : Rising (y.setObj oTableState 0).dict.objs := rising_setObj rising
  rw [obj_setObj_ne (rising_setObj ended) (by decide), obj_setObj_ne ended (by decide), obj_setObj rising, if_pos rfl]

/-- Settles O21: each write makes its change, or none, on the state in which it has been counted; that leaves all on which
the change depends. -/
theorem programmingAddsOneGeneration : Obligations.ProgrammingAddsOneGeneration := by
  intro p v s sound
  have r := sound.objs
  have objs : ∀ {n k}, k ≠ oHostBytesIn → (writeBy p n s).obj k = s.obj k := fun other => writeBy_obj r other
  refine ⟨fun may one above room => ?_, fun may two above room => ?_, fun may fw hub => ?_,
    fun may allowed room stopped => ?_, fun may refused => ?_, fun may asks job stopped => ?_, fun may refused => ?_⟩
  · have run := exec_rollbackRaise (v := v) r may
    rw [one, raiseFloor_1 (by rwa [floorOf_by, objs (by decide)]) (by rwa [writeBy_sec]), objs (by decide),
      writeBy_sec] at run
    obtain ⟨sec', floor⟩ := refreshMeasurements_floor (k := oRollbackFloorFw) (v := s.obj oFirmwareVersion % 65536)
      (sec := { s.sec with fwFloors := s.sec.fwFloors ++ [s.obj oFirmwareVersion % 65536] })
      (writeBy_rising (p := p) (n := 1) r) (by decide) (by decide)
    exact ⟨_, run, congrArg Security.fwFloors sec', floor, (congrArg Security.hubFloors sec' :)⟩
  · have run := exec_rollbackRaise (v := v) r may
    rw [two, raiseFloor_2 (by rwa [floorOf_by, writeBy_sec]) (by rwa [writeBy_sec]), writeBy_sec] at run
    obtain ⟨sec', floor⟩ := refreshMeasurements_floor (k := oRollbackFloorHub) (v := s.sec.hubVersion)
      (sec := { s.sec with hubFloors := s.sec.hubFloors ++ [s.sec.hubVersion] })
      (writeBy_rising (p := p) (n := 1) r) (by decide) (by decide)
    exact ⟨_, run, congrArg Security.hubFloors sec', floor, (congrArg Security.fwFloors sec' :)⟩
  · rw [exec_rollbackRaise r may,
      raiseFloor_none (by rwa [floorOf_by, objs (by decide), writeBy_sec]) (by rwa [floorOf_by, writeBy_sec])]
    rfl
  · have source : field (v % 2 ^ 16) 11 8 = field v 11 8 := field_mod (by decide)
    have level : field (v % 2 ^ 16) 1 0 = field v 1 0 := field_mod (by decide)
    have low : field v 1 0 < 4 := field_lt
    have run := exec_reachProgram (v := v) r may
    rw [programReach_allowed (by rwa [source, level]) (by rwa [writeBy_sec]) (by rwa [running_by r]), source, level,
      objs (by decide), writeBy_sec] at run
    exact ⟨_, _, run, rfl, setField_reads _ _ _ low, fun n other => setField_others _ _ _ _ low other, rfl⟩
  · rw [exec_reachProgram r may, programReach_refused]
    · rfl
    · rw [field_mod (by decide), field_mod (by decide), writeBy_sec, running_by r]
      exact refused
  · have run := exec_tableUnlock (v := v) r may
    rw [requestUnlock_accepted asks (by rwa [objs (by decide)]) (by rwa [running_by r]), writeBy_sec] at run
    have counted := writeBy_sound p 1 sound
    refine ⟨_, run, rfl, tableBoundary_unlocks ?_ ((objs (by decide)).trans job) rfl⟩
    exact ⟨counted.objs, counted.pend, counted.cells, counted.log, counted.fallback, counted.readies⟩
  · rw [exec_tableUnlock r may, requestUnlock_refused (by rwa [objs (by decide), running_by r])]
    rfl

/-! ### An image pushed in Dawn -/

/-- An event leaves the resets. -/
theorem raise_rst {x : State} {code src unit a b c d e : Nat} : (x.raise code src unit a b c d e).rst = x.rst :=
  (raise_notes (Notes.refl x)).rst

section
variable {x : State} {bs : List Byte}

/-- An image without faults passes the boot ROM's check (R423). -/
theorem checkImage_accepts {kind : Nat} (good : imageFaults (readImage bs) kind (x.floorOf kind) = 0) :
    x.checkImage bs kind = (some (readImage bs), x) := by
  unfold State.checkImage
  dsimp only
  rw [good]
  rfl

/-- One with faults raises SIGNATURE_FAIL with them (R423). -/
theorem checkImage_refuses {kind f : Nat} (faults : imageFaults (readImage bs) kind (x.floorOf kind) = f) (bad : f ≠ 0) :
    x.checkImage bs kind = (none, x.raise 0x0802 0x0D 0 (readImage bs).kind f (readImage bs).version) := by
  unfold State.checkImage
  dsimp only
  rw [faults]
  split
  · exact absurd rfl bad
  · rfl

section
variable (fw : x.rst.needFw = true) (hub : x.rst.needHub = false)
include fw hub

/-- While an image of firmware alone is missing, a pushed one stands in for it (R452). -/
theorem pushImage_accepts (good : imageFaults (readImage bs) 1 (x.floorOf 1) = 0) :
    x.pushImage bs = (x.runImage (readImage bs) 1 0).setObj oPushStatus 2 := by
  unfold State.pushImage
  simp [fw, hub, checkImage_accepts good]

theorem pushImage_refuses {f : Nat} (faults : imageFaults (readImage bs) 1 (x.floorOf 1) = f) (bad : f ≠ 0) :
    x.pushImage bs =
      (x.raise 0x0802 0x0D 0 (readImage bs).kind f (readImage bs).version).setObj oPushStatus 3 := by
  unfold State.pushImage
  simp [fw, hub, checkImage_refuses faults bad]

/-- The push of an image that is accepted ends phase 5. -/
theorem pushAndGo_accepts (good : imageFaults (readImage bs) 1 (x.floorOf 1) = 0) :
    x.pushAndGo bs = ((x.runImage (readImage bs) 1 0).setObj oPushStatus 2).nextPhase 5 := by
  have waited : x.waitsImage = true := by simp [State.waitsImage, fw]
  have complete : ((x.runImage (readImage bs) 1 0).setObj oPushStatus 2).waitsImage = false := hub
  unfold State.pushAndGo
  rw [pushImage_accepts fw hub good]
  simp [waited, complete]

/-- After the push of one that is refused phase 5 waits on. -/
theorem pushAndGo_refuses {f : Nat} (faults : imageFaults (readImage bs) 1 (x.floorOf 1) = f) (bad : f ≠ 0) :
    x.pushAndGo bs =
      (x.raise 0x0802 0x0D 0 (readImage bs).kind f (readImage bs).version).setObj oPushStatus 3 := by
  have waited : x.waitsImage = true := by simp [State.waitsImage, fw]
  have rst : (x.raise 0x0802 0x0D 0 (readImage bs).kind f (readImage bs).version).rst = x.rst := raise_rst
  unfold State.pushAndGo
  rw [pushImage_refuses fw hub faults bad]
  generalize x.raise 0x0802 0x0D 0 (readImage bs).kind f (readImage bs).version = y at rst
  have waits : (y.setObj oPushStatus 3).waitsImage = true := by simp [State.waitsImage, rst, fw]
  simp [waited, waits]

end

/-- What an image of firmware that runs leaves (R423). -/
theorem runImage_firmware (r : Rising x.dict.objs) (v : ImageView) :
    Rising (x.runImage v 1 0).dict.objs ∧ (x.runImage v 1 0).obj oFirmwareVersion = v.version ∧
    (x.runImage v 1 0).rst = { x.rst with needFw := false } := by
  have slot : Rising (x.setObj oBootSlots (setField (x.obj oBootSlots) (1 - 1) (1 - 1) 0)).dict.objs := rising_setObj r
  have version := rising_setObj (k := oFirmwareVersion) (v := v.version) slot
  refine ⟨rising_setObj (k := oMeasurement2) (v := ofLe v.digest) version, ?_, rfl⟩
  exact (obj_setObj_ne version (by decide)).trans ((obj_setObj slot).trans (if_pos rfl))

/-- Phase 5 is followed by phase 6, but in an L2 reset by phase 7 (R450). -/
theorem nextPhase_five (r : Rising x.dict.objs) :
    (x.nextPhase 5).obj oDawnPhase = if x.rst.level = 2 then 7 else 6 := by
  unfold State.nextPhase State.phaseAfter
  rw [obj_setObj r, if_pos rfl]
  simp

end

/-- Settles O30: counting the write leaves what the checks of the image depend on. -/
theorem pushedImageIsChecked : Obligations.PushedImageIsChecked := by
  intro ide image s sound open_ session table fits
  have run := push_run sound.objs open_ session table fits
  obtain ⟨-, -, -, -, -, -, -, rst, -⟩ := writeBy_frame (.host ide) image.length s
  have rising : Rising (writeBy (.host ide) image.length s).dict.objs := writeBy_rising sound.objs
  have objs : ∀ {k}, k ≠ oHostBytesIn → (writeBy (.host ide) image.length s).obj k = s.obj k :=
    fun other => writeBy_obj sound.objs other
  have tick : (writeBy (.host ide) image.length s).tick = s.tick := objs (by decide)
  have floor : (writeBy (.host ide) image.length s).floorOf 1 = s.floorOf 1 := floorOf_by
  change exec _ s = .next ((writeBy (.host ide) image.length s).pushAndGo image) at run
  show (_ → exec _ s = .next (writeBy (.host ide) image.length s)) ∧ _
  generalize writeBy (.host ide) image.length s = x at run rst rising objs tick floor
  refine ⟨fun idle => ?_, fun fw hub good => ?_, fun f fw hub faults bad => ?_⟩
  · rw [run]
    refine congrArg _ (if_pos ?_)
    unfold State.waitsImage at idle ⊢
    rw [rst, idle]
    rfl
  · rw [pushAndGo_accepts (by rwa [rst]) (by rwa [rst]) (by rwa [floor])] at run
    obtain ⟨runs, version, rst'⟩ := runImage_firmware rising (readImage image)
    generalize x.runImage (readImage image) 1 0 = y at *
    have pushed : Rising (y.setObj oPushStatus 2).dict.objs := rising_setObj runs
    refine ⟨_, run, ?_, congrArg ResetState.needFw rst', ?_, ?_⟩
    · rw [nextPhase_other pushed (by decide), obj_setObj runs, if_pos rfl]
    · rw [nextPhase_other pushed (by decide), obj_setObj_ne runs (by decide), version]
    · rw [nextPhase_five pushed, State.setObj_rst, rst', rst]
  · rw [pushAndGo_refuses (by rwa [rst]) (by rwa [rst]) (by rwa [floor]) bad] at run
    obtain ⟨raised, log, -, -, others⟩ := raise_frame (code := 0x0802) (src := 0x0D) (unit := 0)
      (a := (readImage image).kind) (b := f) (c := (readImage image).version) (d := 0) (e := 0) rising
    have rst' : (x.raise 0x0802 0x0D 0 (readImage image).kind f (readImage image).version).rst = x.rst := raise_rst
    generalize x.raise 0x0802 0x0D 0 (readImage image).kind f (readImage image).version = y at *
    refine ⟨_, run, (obj_setObj raised).trans (if_pos rfl), ?_, ?_, ?_⟩
    · rw [State.setObj_rst, rst', rst, fw]
    · rw [obj_setObj_ne raised (by decide), others _ (by decide) (by decide) (by decide), objs (by decide)]
    · rw [State.setObj_dict_log, log, objs (by decide), tick]

end Sys2Proof.Safety
end

section
/-! PROOFS. The statements of 17_reset_power_and_clocks.md: the sources of reset, Dawn, resets of one block, power and
clocks; and what ends with them: the keys and the clearing of a job. -/

namespace Sys2Proof.Safety

open Sys2Proof.Machine

/-! ### The sources of reset -/

theorem mem_setDel {n m : Nat} {l : List Nat} : m ∈ setDel n l ↔ m ∈ l ∧ m ≠ n := by
  simp [setDel]

/-- Settles O27: a source that is released leaves the set of those that hold the device. -/
theorem releaseEndsHolding : Obligations.ReleaseEndsHolding := by
  intro s
  refine ⟨fun n low => ⟨s.releaseSource n, if_pos low, fun held => ?_, fun m other => ?_, rfl⟩,
    fun temps trip cool => ?_, fun temps hot => if_neg ?_⟩
  · exact (mem_setDel.1 held).2 rfl
  · exact mem_setDel.trans (and_iff_left other)
  · have released : exec (.thermalTripRelease temps) s = .next
        { s.releaseSource 5 with rst := { (s.releaseSource 5).rst with thermTrip := false } } :=
      if_pos ⟨trip, by simpa using cool⟩
    exact ⟨_, released, rfl, fun held => (mem_setDel.1 held).2 rfl⟩
  · rintro ⟨-, cool⟩
    obtain ⟨x, member, high⟩ := hot
    exact absurd (of_decide_eq_true (List.all_eq_true.1 cool x member)) (Int.not_lt.2 high)

/-- A command that asserts a source of Table 17.1 does no more, but that the thermal trip sets its land (R463). -/
theorem exec_source {c : Instr} {s : State} {n : Nat} (h : sourceOf c s = some n) : ∃ holds trip, exec c s =
    .next { s.assertReset n holds with rst := { (s.assertReset n holds).rst with thermTrip := trip } } := by
  cases c with
  | powerOnReset removed =>
    cases removed with
    | false => cases h; exact ⟨true, _, rfl⟩
    | true => cases h
  | perst => cases h; exact ⟨true, _, rfl⟩
  | sysRst => cases h; exact ⟨true, _, rfl⟩
  | watchdogExpiry =>
    obtain ⟨runs, ⟨⟩⟩ := Option.ite_none_left_eq_some.1 h
    exact ⟨false, _, if_neg runs⟩
  | thermalTrip temps =>
    obtain ⟨hot, ⟨⟩⟩ := Option.ite_none_right_eq_some.1 h
    exact ⟨true, true, if_pos hot⟩
  | _ => cases h

/-- Settles O25: a source begins its reset, or is absorbed; the land of the thermal trip is no part of either. -/
theorem sourceStartsReset : Obligations.SourceStartsReset := by
  intro c s n sound h
  obtain ⟨holds, trip, run⟩ := exec_source h
  refine ⟨fun narrow => ⟨_, run, (assert_begins sound narrow).rst trip⟩, fun wide => ⟨_, run, ?_⟩⟩
  have inReset : s.rst.inReset = true := wide.1
  rw [assert_absorbed wide]
  cases holds with
  | false => exact ⟨rfl, inReset, rfl⟩
  | true => exact ⟨rfl, inReset, rfl⟩

/-! ### Dawn -/

/-- The phases whose work is not modelled end at once. -/
theorem dawnTable_other {s : State} {env : DawnEnv} {k : Nat} (n1 : k ≠ 1) (n2 : k ≠ 2) (n5 : k ≠ 5) (n6 : k ≠ 6)
    (n7 : k ≠ 7) : dawnTable s env k = s.nextPhase k := by
  unfold dawnTable
  split
  · exact absurd rfl n1
  · exact absurd rfl n2
  · exact absurd rfl n5
  · exact absurd rfl n6
  · exact absurd rfl n7
  · rfl

/-- A phase of Dawn ends where nothing holds the device in reset and no image is waited for (R450). -/
theorem exec_dawnPhaseDone {s : State} {env : DawnEnv} {k : Nat} (inReset : s.rst.inReset = true)
    (released : s.rst.holding = []) (complete : s.waitsImage = false) (phase : s.obj oDawnPhase = k) :
    exec (.dawnPhaseDone env) s = .next (dawnTable s env k) :=
  (if_pos ⟨inReset, by simp [released], by simp [complete]⟩).trans (congrArg _ (dawnPhase_at env phase))

/-- Phase 5 ends where no image is missing (R452). -/
theorem dawnTable_five {s : State} {env : DawnEnv} (sound : Sound s) (phase : s.obj oDawnPhase = 5) :
    (dawnTable s env 5).rst.inReset = s.rst.inReset ∧ (dawnTable s env 5).obj oDawnPhase =
      if (dawnTable s env 5).waitsImage then 5 else if s.rst.level = 2 then 7 else 6 := by
  have table : dawnTable s env 5 =
    if (s.bootPhase env).waitsImage then s.bootPhase env else (s.bootPhase env).nextPhase 5 := rfl
  obtain ⟨inReset, level, -⟩ := bootPhase_same s env
  have booted := (bootPhase_phase (env := env) sound.objs).trans phase
  have rising := (bootPhase_keeps env (Keeps.refl s)).rising sound
  rw [table]
  generalize s.bootPhase env = x at *
  by_cases waits : x.waitsImage = true
  · rw [if_pos waits, if_pos waits]
    exact ⟨inReset, booted⟩
  · have waits' : ¬(x.nextPhase 5).waitsImage = true := waits
    rw [if_neg waits, if_neg waits', ← level]
    exact ⟨inReset, nextPhase_five rising⟩

/-- Settles O28: the phases by their numbers. -/
theorem dawnRunsItsPhases : Obligations.DawnRunsItsPhases := by
  intro env s sound inReset released complete
  have run := fun {k} => exec_dawnPhaseDone (env := env) (k := k) inReset released complete
  have r := sound.objs
  refine ⟨fun k phase n5 n7 => ⟨_, run phase, ?_⟩, fun phase => ⟨_, run phase, ?_⟩, fun phase pass => ⟨_, run phase, ?_⟩,
    fun n phase low failed least => ⟨_, run phase, ?_⟩⟩
  · by_cases k1 : k = 1
    · subst k1
      obtain ⟨stays, next, fuses⟩ := fuses_phase sound
      exact ⟨fun _ => stays.trans inReset, next, fun _ => fuses⟩
    by_cases k2 : k = 2
    · subst k2
      exact ⟨fun _ => inReset, nextPhase_obj rfl r (by decide), fun e => absurd e (by decide)⟩
    by_cases k6 : k = 6
    · subst k6
      have trained := (farDawn_keeps env.far (Keeps.refl s)).rising sound
      exact ⟨fun n => absurd rfl n, (nextPhase_six trained).trans (by simp), fun e => absurd e (by decide)⟩
    rw [dawnTable_other k1 k2 n5 k6 n7]
    exact ⟨fun _ => inReset, nextPhase_obj rfl r n5, fun e => absurd e k1⟩
  · obtain ⟨stays, next⟩ := dawnTable_five (env := env) sound phase
    exact ⟨stays.trans inReset, next⟩
  · rw [show dawnTable s env 7 = s.selfTest env from rfl]
    exact selfTest_pass r pass
  · rw [show dawnTable s env 7 = s.selfTest env from rfl]
    obtain ⟨out, stays, first, event⟩ := selfTest_fail r low failed least
    exact ⟨out, stays.trans phase, first, event⟩

/-! ### Resets of one block -/

section
variable {p : Path} {v : Nat} {s : State} (r : Rising s.dict.objs)
include r

/-- TILE_RESET resets the tile and records it; a number that is no tile's has no effect (R449). -/
theorem exec_tileReset (may : MayWrite s p 0x8001 1) : exec (.tileReset p v) s =
    .next (if v % 2 ^ 16 < 2048 then ((writeBy p 2 s).resetTile (v % 2 ^ 16)).recordReset 7 3 else writeBy p 2 s) := by
  obtain ⟨-, -, -, -, -, -, -, tile, -⟩ := request_defs
  exact write_row r may tile (by decide) perform_tile (.inl rfl)

/-- PORT_RESET resets the port and records it; a number that is no port's has no effect (R449). -/
theorem exec_portReset (may : MayWrite s p 0x8001 2) : exec (.portReset p v) s =
    .next (if v % 256 < 32 then ((writeBy p 1 s).resetPort (v % 256)).recordReset 8 3 else writeBy p 1 s) := by
  obtain ⟨-, -, -, -, -, -, -, -, port, -⟩ := request_defs
  exact write_row r may port (by decide) perform_port (.inl rfl)

end

/-- What crosses the mesh at a port follows from the ports. -/
theorem crossing_congr {s t : State} (h : t.ports = s.ports) (n : Nat) : t.crossing n = s.crossing n := by
  unfold State.crossing State.port
  rw [h]

/-- Settles O29: counting the write leaves all that the reset of a block reads. -/
theorem blockResets : Obligations.BlockResets := by
  intro p v n s sound
  have r := sound.objs
  refine ⟨fun may number low => ?_, fun may high => ?_, fun may number low up => ?_, fun may high => ?_⟩
  · have run := exec_tileReset (v := v) r may
    obtain ⟨sched, mem, -, -, num, -, -, rst, -⟩ := writeBy_frame p 2 s
    have count : (writeBy p 2 s).obj oResetCount = s.obj oResetCount := writeBy_obj r (by decide)
    rw [← number, if_pos low] at run
    have reset := tile_record (n := n) (writeBy_rising (p := p) (n := 2) r)
    rw [count, sched, mem, num, rst] at reset
    exact ⟨_, run, reset⟩
  · exact (exec_tileReset r may).trans (congrArg _ (if_neg (Nat.not_lt.2 high)))
  · have run := exec_portReset (v := v) r may
    obtain ⟨-, -, -, -, -, -, ports, rst, -⟩ := writeBy_frame p 1 s
    have objs : ∀ {k}, k ≠ oHostBytesIn → (writeBy p 1 s).obj k = s.obj k := fun other => writeBy_obj r other
    have portObjs : ∀ {b}, b < 256 → (writeBy p 1 s).obj (objKey (0x4010 + n) b) = s.obj (objKey (0x4010 + n) b) :=
      fun small => objs (portObj_ne (a := 0x6000) (c := 0x0A) low small (by decide) (by decide))
    have link : (writeBy p 1 s).link n = s.link n := portObjs (b := 1) (by decide)
    have peer : (writeBy p 1 s).obj (oPeerRank n) = s.obj (oPeerRank n) := portObjs (b := 3) (by decide)
    have tick : (writeBy p 1 s).tick = s.tick := objs (by decide)
    rw [← number, if_pos low] at run
    have reset := port_record (writeBy_rising (p := p) (n := 1) r) low (link.trans up)
    rw [objs (by decide), objs (by decide), objs (by decide), peer, tick, crossing_congr ports, rst] at reset
    exact ⟨_, run, reset⟩
  · exact (exec_portReset r may).trans (congrArg _ (if_neg (Nat.not_lt.2 high)))

/-! ### Power, clocks and keys -/

theorem linkState_ne : ∀ p, p < 32 → oLinkState p ≠ oHostLinkState ∧ oLinkState p ≠ oHostLinkSpeed ∧
    oLinkState p ≠ oHostLinkWidth ∧ oLinkState p ≠ oEventSeqNext ∧ oLinkState p ≠ oEventSeqOldest ∧
    oLinkState p ≠ oEventsOverwritten := by decide

/-- The host link as the loss of its clock leaves it (R465): not UP, with the fabric's links and the far ports as before. -/
theorem hostClockLost {s x : State} (h : (if s.obj oHostLinkState = 4 then s.hostDown 1 else s) = x)
    (r : Rising s.dict.objs) :
    Rising x.dict.objs ∧ x.obj oHostLinkState ≠ 4 ∧ (∀ p, p < 32 → x.link p = s.link p) ∧ x.far = s.far := by
  subst h
  by_cases up : s.obj oHostLinkState = 4
  · obtain ⟨rising, state, -, -, far, -, -, others, -⟩ := hostDown_frame (cause := 1) r
    rw [if_pos up]
    refine ⟨rising, by rw [state]; decide, fun p low => ?_, far⟩
    obtain ⟨n1, n2, n3, n4, n5, n6⟩ := linkState_ne p low
    exact others _ n1 n2 n3 n4 n5 n6
  · rw [if_neg up]
    exact ⟨r, up, fun _ _ => rfl, rfl⟩

theorem hostLinkState_not_far : ¬ farObjs oHostLinkState := by
  unfold farObjs
  decide

theorem linkState_not_far : ∀ p, p < 32 → ¬ farObjs (oLinkState p) := by
  unfold farObjs
  decide

/-- The clearing of a job writes zero everywhere (R437). -/
theorem clearAll_frame {s : State} (r : Rising s.dict.objs) :
    (∀ a, memByte s.clearAll.mem.cells a = 0) ∧ s.clearAll.obj oHashEntriesValid = 0 ∧
    ∀ k, k ≠ oHashEntriesValid → s.clearAll.obj k = s.obj k :=
  have rising : Rising (s.clearSram fun _ => true).dict.objs := r
  ⟨fun _ => rfl, (obj_setObj rising).trans (if_pos rfl), fun _ other => obj_setObj_ne rising other⟩

/-- Settles O31: the conditions of the commands, the loss of the fabric's clock port by port, and of the host's by the host
link and then the far ports. -/
theorem powerClocksAndKeys : Obligations.PowerClocksAndKeys := by
  intro s sound
  have r := sound.objs
  refine ⟨fun a high => if_neg (Nat.not_le.2 high), fun a low => if_pos low, ?_, ?_, fun out => if_neg (by simp [out]),
    fun inReset => if_pos inReset, fun loads clearing => ?_, fun idle => if_neg (by simp [idle])⟩
  · obtain ⟨-, links, kept⟩ := fab_links r 32 (Nat.le_refl _)
    simp only [aside, Prod.mk.injEq] at kept
    obtain ⟨-, mem, sched⟩ := kept
    exact ⟨_, rfl, links, mem, sched⟩
  · refine ⟨_, rfl, ?_⟩
    generalize lost : (if s.obj oHostLinkState = 4 then s.hostDown 1 else s) = x
    obtain ⟨rising, down, links, far⟩ := hostClockLost lost r
    obtain ⟨only, -, states⟩ := far_fold rising 4 (Nat.le_refl _)
    refine ⟨by rwa [only.objs _ hostLinkState_not_far], fun p low => ?_, fun h low up => states h low ?_⟩
    · exact (only.objs _ (linkState_not_far p low)).trans (links p low)
    · unfold State.farPort at up ⊢
      rwa [far]
  · obtain ⟨zero, valid, others⟩ := clearAll_frame r
    exact ⟨_, if_pos ⟨loads, clearing⟩, rfl, zero, rfl, rfl, rfl, valid, others, rfl, rfl⟩

end Sys2Proof.Safety
end
